-- ==== Sys2Proof/Word.lean ====
section
/-! DEFINITION. The word types of the AX960 and the finite maps its state is made of. -/

namespace Sys2Proof

/-- One byte of memory. -/
abbrev Byte := BitVec 8

/-- A 32-bit lane element (R6). -/
abbrev W32 := BitVec 32

/-- A 64-bit scalar register or instruction word (R20, R82). -/
abbrev W64 := BitVec 64

/-- A 16-bit logical timestamp (R258). -/
abbrev Stamp := BitVec 16

/-- The five IEEE sticky flags at their positions of R99: 4 NV, 3 DZ, 2 OF, 1 UF, 0 NX. -/
abbrev Fl := BitVec 5

/-- The lane numbers of a crew, 0 to 31 (R6). -/
def lanes : List Nat := List.range 32

/-- A finite map from numbers: a list of (key, value) pairs with rising keys. -/
abbrev Map (α : Type) := List (Nat × α)

namespace Map
variable {α : Type}

/-- The value listed under a key. -/
def find? : Map α → Nat → Option α
  | [], _ => none
  | (k', v) :: m, k => if k' = k then some v else find? m k

/-- The value under a key, `d` where none is listed. -/
def get (d : α) (m : Map α) (k : Nat) : α := (find? m k).getD d

/-- Lists `v` under `k`, at its place in the rising order. -/
def put : Map α → Nat → α → Map α
  | [], k, v => [(k, v)]
  | (k', v') :: m, k, v =>
    if k' = k then (k, v) :: m
    else if k < k' then (k, v) :: (k', v') :: m
    else (k', v') :: put m k v

/-- Takes a key out of the map. -/
def erase : Map α → Nat → Map α
  | [], _ => []
  | (k', v') :: m, k => if k' = k then erase m k else (k', v') :: erase m k

/-- Lists `v` under `k`, or takes `k` out when `v` is the value an unlisted key reads as. -/
def set [DecidableEq α] (d : α) (m : Map α) (k : Nat) (v : α) : Map α :=
  if v = d then erase m k else put m k v

/-- Changes the value under a key. -/
def modify (d : α) (m : Map α) (k : Nat) (f : α → α) : Map α := put m k (f (get d m k))

end Map
end Sys2Proof
end

