-- ==== Sys2Proof/Syntax.lean ====
section
/-! DEFINITION. The steps of the AX960: one constructor for every row of spec/opcode_table.json. The first
194 are the instructions a crew executes; the rest are the steps the device and its surroundings take. -/

namespace Sys2Proof

/-- Integer types (R86, R109). -/
inductive ITy where
  | i8 | i16 | i32 | i64 | n8 | n16 | n32 | n64
  deriving DecidableEq, Repr

/-- IEEE binary types (R86, R111). -/
inductive FTy where
  | f16 | f32 | f64
  deriving DecidableEq, Repr

/-- Block formats (R86, R117). -/
inductive PTy where
  | pb4 | pb6 | pb9
  deriving DecidableEq, Repr

/-- A TYPE code of R86. -/
inductive Ty where
  | int (t : ITy) | flt (t : FTy) | blk (t : PTy)
  deriving DecidableEq, Repr

/-- Conditions (R81, R86). -/
inductive Cond where
  | eq | ne | lt | le | gt | ge | lo | ls | hi | hs
  deriving DecidableEq, Repr

/-- Rounding codes (R86, R113). -/
inductive Rnd where
  | rn | rz | ru | rd | ra
  deriving DecidableEq, Repr

/-- Scopes (R59, R86). -/
inductive Scope where
  | crew | clus | die | dev | sys
  deriving DecidableEq, Repr

/-- Orders (R86). -/
inductive Ord where
  | rlx | acq | rel | ar
  deriving DecidableEq, Repr

/-- Work levels (R34, R86). -/
inductive Level where
  | party | launch | graph | stage | job
  deriving DecidableEq, Repr

/-- Reduction operations (R86). -/
inductive Rop where
  | add | min | max | and | or | xor
  deriving DecidableEq, Repr

/-- Atomic operations (R187). -/
inductive Aop where
  | red (op : Rop) | xchg | cas
  deriving DecidableEq, Repr

/-- Access widths (R86). -/
inductive Width where
  | b | h | w | d
  deriving DecidableEq, Repr

/-- Shuffle modes (R167). -/
inductive Shfl where
  | idx | xor | up | dn
  deriving DecidableEq, Repr

/-- Special registers (R99). -/
inductive SpecReg where
  | lane | crew | party | px | py | pz | core | clus | die | launch | cancel | batch | flags | tflags
  | frontier | spill | window | bkconf | clock | datum
  deriving DecidableEq, Repr

/-- STALL, PG and PN of a word whose PG column reads L (R83). -/
structure Hd where
  stall : BitVec 4
  pg : BitVec 3
  pn : Bool
  deriving DecidableEq, Repr

/-- A scalar register number, 0 to 95 in a well-formed instruction (R85). -/
abbrev SReg := BitVec 7
/-- A window register number (R85). -/
abbrev VReg := BitVec 11
/-- A predicate number (R85). -/
abbrev PReg := BitVec 3
/-- A plate handle number (R85). -/
abbrev TReg := BitVec 4
/-- An accumulator handle number (R85). -/
abbrev AReg := BitVec 3

/-- The second operand of a format S arithmetic word: a register or IMM20 (R91, R126). -/
inductive Op2 where
  | reg (sb : SReg) | imm (v : BitVec 20)
  deriving DecidableEq, Repr

/-- The phase operand of `barv` (R229). -/
inductive PhaseOp where
  | ahead (d : BitVec 2) | named (sa : SReg)
  deriving DecidableEq, Repr

/-- Engines that hold plates (R49 ENG): copy, gather, matrix, collective. -/
inductive Engine where
  | copy | gather | matrix | coll
  deriving DecidableEq, Repr

/-- Configuration registers without a row of their own (R262, R276, R283, R286, R328). -/
inductive CfgReg where
  | leaseCfg (die : Nat) | chkCfg (dev : Nat) | crwCfg (dev : Nat) | fixDepth (dev : Nat) | strikeCfg
  deriving DecidableEq, Repr

/-- Counter records that a write clears (R382, R383). -/
inductive CntRec where
  | core (c : Nat) | mem (m : Nat) | switch
  deriving DecidableEq, Repr

/-- Who makes a push: the driver's privileged software, a companion core or a crew (R301). -/
inductive Pusher where
  | driver | companion (ctx : Nat) | crew (key : Nat)
  deriving DecidableEq, Repr

/-- What a pre-emption waits for (R331). -/
inductive StopUnit where
  | crews (core : Nat) | array (core : Nat) | engine (core : Nat) (e : Engine) | sheet (home : Nat) | service (cluster : Nat)
  deriving DecidableEq, Repr

/-- What a bring-up stage reports (R356). -/
structure StageResult where
  ok : Bool
  code : BitVec 16 := 0
  sens : BitVec 8 := 0
  linkUp : Bool := true
  linkWidth : BitVec 2 := 0
  linkRtt : BitVec 16 := 0
  pairs : BitVec 8 := 0xFF
  cxl : List (Nat × Nat) := []
  host : List (Nat × Nat) := []
  deriving DecidableEq, Repr

/-- One step of the machine: a row of spec/opcode_table.json. `st` is STALL of a word whose PG column reads 0. -/
inductive Instr where
  -- scalar arithmetic (R126 to R133)
  | sadd (st : BitVec 4) (ty : ITy) (sd sa : SReg) (b : Op2)
  | ssub (st : BitVec 4) (ty : ITy) (sd sa : SReg) (b : Op2)
  | smul (st : BitVec 4) (ty : ITy) (sd sa : SReg) (b : Op2)
  | smulh (st : BitVec 4) (ty : ITy) (sd sa : SReg) (b : Op2)
  | sdiv (st : BitVec 4) (ty : ITy) (sd sa : SReg) (b : Op2)
  | srem (st : BitVec 4) (ty : ITy) (sd sa : SReg) (b : Op2)
  | sand (st : BitVec 4) (ty : ITy) (sd sa : SReg) (b : Op2)
  | sor (st : BitVec 4) (ty : ITy) (sd sa : SReg) (b : Op2)
  | sxor (st : BitVec 4) (ty : ITy) (sd sa : SReg) (b : Op2)
  | sandn (st : BitVec 4) (ty : ITy) (sd sa : SReg) (b : Op2)
  | sshl (st : BitVec 4) (ty : ITy) (sd sa : SReg) (b : Op2)
  | sshr (st : BitVec 4) (ty : ITy) (sd sa : SReg) (b : Op2)
  | ssra (st : BitVec 4) (ty : ITy) (sd sa : SReg) (b : Op2)
  | smin (st : BitVec 4) (ty : ITy) (sd sa : SReg) (b : Op2)
  | smax (st : BitVec 4) (ty : ITy) (sd sa : SReg) (b : Op2)
  | scmp (st : BitVec 4) (c : Cond) (sd sa : SReg) (b : Op2)
  | ssel (st : BitVec 4) (sd sc sa sb : SReg)
  | sli (st : BitVec 4) (zx : Bool) (sd : SReg) (v : W32)
  | slih (st : BitVec 4) (sd sa : SReg) (v : W32)
  | smov (st : BitVec 4) (sd sa : SReg)
  | sclz (st : BitVec 4) (ty : ITy) (sd sa : SReg)
  | spopc (st : BitVec 4) (ty : ITy) (sd sa : SReg)
  | sbfx (st : BitVec 4) (sx : Bool) (sd sa sb : SReg)
  | sbfi (st : BitVec 4) (sd sa sb : SReg)
  | sext (st : BitVec 4) (ty : ITy) (sd sa : SReg)
  -- scalar memory (R134 to R137); `ord` is the scope of .acq or .rel, none for .rlx
  | sld (st : BitVec 4) (w : Width) (ord : Option Scope) (sd sb : SReg) (ofs : BitVec 11)
  | sst (st : BitVec 4) (w : Width) (ord : Option Scope) (sa sb : SReg) (ofs : BitVec 11)
  | sprf (st : BitVec 4) (sb : SReg) (ofs : BitVec 11)
  -- control flow (R139 to R147)
  | br (st : BitVec 4) (disp : BitVec 30)
  | brc (st : BitVec 4) (c : Cond) (sa sb : SReg) (disp : BitVec 30)
  | brz (st : BitVec 4) (sa : SReg) (disp : BitVec 30)
  | brnz (st : BitVec 4) (sa : SReg) (disp : BitVec 30)
  | brx (st : BitVec 4) (sa : SReg) (v : BitVec 20)
  | call (st : BitVec 4) (n : BitVec 11) (disp : BitVec 30)
  | callx (st : BitVec 4) (n : BitVec 11) (sa : SReg)
  | ret (st : BitVec 4)
  | exit (h : Hd)
  | yield (st : BitVec 4)
  | nop (st : BitVec 4)
  | vbr (h : Hd) (disp : BitVec 30)
  | vbrx (h : Hd) (va : VReg)
  | pany (st : BitVec 4) (sd : SReg) (pn : PReg)
  | pall (st : BitVec 4) (sd : SReg) (pn : PReg)
  | pcnt (st : BitVec 4) (sd : SReg) (pn : PReg)
  | pffs (st : BitVec 4) (sd : SReg) (pn : PReg)
  -- special registers and time (R149, R150)
  | rdsrScalar (st : BitVec 4) (sd : SReg) (r : SpecReg)
  | rdsrVector (h : Hd) (vd : VReg) (r : SpecReg)
  | wrsrScalar (st : BitVec 4) (r : SpecReg) (sb : SReg)
  | wrsrVector (h : Hd) (va : VReg)
  | rdtime (st : BitVec 4) (sd : SReg)
  -- vector integer (R153 to R158)
  | vadd (h : Hd) (ty : ITy) (sat : Bool) (vd va vb : VReg)
  | vaddImm (h : Hd) (ty : ITy) (vd va : VReg) (v : BitVec 20)
  | vsub (h : Hd) (ty : ITy) (sat : Bool) (vd va vb : VReg)
  | vmul (h : Hd) (ty : ITy) (sat : Bool) (vd va vb : VReg)
  | vmulh (h : Hd) (ty : ITy) (vd va vb : VReg)
  | vmad (h : Hd) (ty : ITy) (vd va vb vc : VReg)
  | vdiv (h : Hd) (ty : ITy) (sat : Bool) (vd va vb : VReg)
  | vrem (h : Hd) (ty : ITy) (vd va vb : VReg)
  | vand (h : Hd) (ty : ITy) (vd va vb : VReg)
  | vandImm (h : Hd) (ty : ITy) (vd va : VReg) (v : BitVec 20)
  | vor (h : Hd) (ty : ITy) (vd va vb : VReg)
  | vorImm (h : Hd) (ty : ITy) (vd va : VReg) (v : BitVec 20)
  | vxor (h : Hd) (ty : ITy) (vd va vb : VReg)
  | vxorImm (h : Hd) (ty : ITy) (vd va : VReg) (v : BitVec 20)
  | vandn (h : Hd) (ty : ITy) (vd va vb : VReg)
  | vshl (h : Hd) (ty : ITy) (vd va vb : VReg)
  | vshlImm (h : Hd) (ty : ITy) (vd va : VReg) (v : BitVec 20)
  | vshr (h : Hd) (ty : ITy) (vd va vb : VReg)
  | vshrImm (h : Hd) (ty : ITy) (vd va : VReg) (v : BitVec 20)
  | vsra (h : Hd) (ty : ITy) (vd va vb : VReg)
  | vsraImm (h : Hd) (ty : ITy) (vd va : VReg) (v : BitVec 20)
  | vrot (h : Hd) (ty : ITy) (vd va vb : VReg)
  | vmin (h : Hd) (ty : ITy) (vd va vb : VReg)
  | vmax (h : Hd) (ty : ITy) (vd va vb : VReg)
  | vabs (h : Hd) (ty : ITy) (sat : Bool) (vd va : VReg)
  | vclz (h : Hd) (ty : ITy) (vd va : VReg)
  | vpopc (h : Hd) (ty : ITy) (vd va : VReg)
  | vbrev (h : Hd) (ty : ITy) (vd va : VReg)
  | vbfx (h : Hd) (sx : Bool) (vd va vb : VReg)
  | vbfi (h : Hd) (vd va vb vc : VReg)
  | vsel (h : Hd) (ty : Ty) (pc : PReg) (vd va vb : VReg)
  | vmov (h : Hd) (ty : Ty) (vd va : VReg)
  | vli (h : Hd) (ty : Ty) (vd : VReg) (v : BitVec 20)
  | vcmp (h : Hd) (c : Cond) (ty : ITy) (pd : PReg) (va vb : VReg)
  | vclmul (h : Hd) (vd va vb : VReg)
  | vclmulh (h : Hd) (vd va vb : VReg)
  | vaddc (h : Hd) (wide : Bool) (pc : PReg) (vd va vb : VReg)
  -- vector floating-point, conversion and block formats (R159 to R165)
  | vfadd (h : Hd) (r : Rnd) (ty : FTy) (vd va vb : VReg)
  | vfsub (h : Hd) (r : Rnd) (ty : FTy) (vd va vb : VReg)
  | vfmul (h : Hd) (r : Rnd) (ty : FTy) (vd va vb : VReg)
  | vfmaF16 (h : Hd) (r : Rnd) (vd va vb vc : VReg)
  | vfmaF32 (h : Hd) (r : Rnd) (vd va vb vc : VReg)
  | vfmaF64 (h : Hd) (r : Rnd) (vd va vb vc : VReg)
  | vfdiv (h : Hd) (r : Rnd) (ty : FTy) (vd va vb : VReg)
  | vfsqrt (h : Hd) (r : Rnd) (ty : FTy) (vd va : VReg)
  | vfrcp (h : Hd) (ty : FTy) (vd va : VReg)
  | vfrsq (h : Hd) (ty : FTy) (vd va : VReg)
  | vfexp2 (h : Hd) (ty : FTy) (vd va : VReg)
  | vflog2 (h : Hd) (ty : FTy) (vd va : VReg)
  | vfsin (h : Hd) (ty : FTy) (vd va : VReg)
  | vfcos (h : Hd) (ty : FTy) (vd va : VReg)
  | vfmin (h : Hd) (ty : FTy) (vd va vb : VReg)
  | vfmax (h : Hd) (ty : FTy) (vd va vb : VReg)
  | vfcmp (h : Hd) (c : Cond) (ty : FTy) (pd : PReg) (va vb : VReg)
  | vfcls (h : Hd) (ty : FTy) (vd va : VReg)
  | vfrnd (h : Hd) (r : Rnd) (ty : FTy) (vd va : VReg)
  | vfdot (h : Hd) (r : Rnd) (vd va vb : VReg)
  | vcvt (h : Hd) (r : Rnd) (sat : Bool) (dst src : Ty) (vd va : VReg)
  | vpack (h : Hd) (fmt : PTy) (vd va : VReg)
  | vunpk (h : Hd) (fmt : PTy) (vd va : VReg)
  -- cross-lane (R166 to R171)
  | vshfl (h : Hd) (m : Shfl) (vd va vb : VReg)
  | vbcast (h : Hd) (vd va : VReg) (lane : BitVec 5)
  | vred (h : Hd) (op : Rop) (ty : Ty) (sat : Bool) (vd va : VReg)
  | vscan (h : Hd) (op : Rop) (ty : Ty) (sat : Bool) (vd va : VReg)
  | vext (st : BitVec 4) (wide : Bool) (sd : SReg) (va : VReg) (sb : SReg)
  | vins (st : BitVec 4) (wide : Bool) (vd : VReg) (sa sb : SReg)
  | vcompr (h : Hd) (vd va : VReg)
  -- predicates and view masks (R172 to R174)
  | pand (h : Hd) (pd pa pb : PReg)
  | por (h : Hd) (pd pa pb : PReg)
  | pxor (h : Hd) (pd pa pb : PReg)
  | pnot (h : Hd) (pd pa : PReg)
  | pmov (h : Hd) (pd pa : PReg)
  | pset (h : Hd) (pd : PReg) (sb : SReg)
  | pget (st : BitVec 4) (sd : SReg) (pn : PReg)
  | kcnt (st : BitVec 4) (sd : SReg) (k : BitVec 2)
  | kffs (st : BitVec 4) (sd : SReg) (k : BitVec 2)
  | kbit (st : BitVec 4) (sd : SReg) (k : BitVec 2) (sa : SReg)
  | kmvToVector (st : BitVec 4) (vd : VReg) (k : BitVec 2)
  | kmvToMask (st : BitVec 4) (k : BitVec 2) (va : VReg)
  -- memory (R175 to R185)
  | vld (h : Hd) (w : Width) (ord : Option Scope) (vd : VReg) (sb : SReg) (idx : Option VReg) (ofs : BitVec 11)
  | vst (h : Hd) (w : Width) (ord : Option Scope) (va : VReg) (sb : SReg) (idx : Option VReg) (ofs : BitVec 11)
  | vgth (h : Hd) (w : Width) (ord : Option Scope) (vd : VReg) (sb : SReg) (idx : VReg) (ofs : BitVec 11)
  | vsct (h : Hd) (w : Width) (ord : Option Scope) (va : VReg) (sb : SReg) (idx : VReg) (ofs : BitVec 11)
  | vldp (h : Hd) (w : Width) (vd : VReg) (t : TReg) (sb : SReg) (idx : Option VReg) (ofs : BitVec 11)
  | vstp (h : Hd) (w : Width) (va : VReg) (t : TReg) (sb : SReg) (idx : Option VReg) (ofs : BitVec 11)
  | vprf (h : Hd) (w : Width) (sb : SReg) (idx : Option VReg) (ofs : BitVec 11)
  | sldp (st : BitVec 4) (w : Width) (sd : SReg) (t : TReg) (sb : SReg) (ofs : BitVec 11)
  -- atomics and fences (R186 to R196)
  | vatom (h : Hd) (op : Aop) (ty : Ty) (sc : Scope) (ord : Ord) (sat : Bool) (vd : VReg) (sb : SReg) (idx : Option VReg)
  | satom (st : BitVec 4) (op : Aop) (ty : Ty) (sc : Scope) (ord : Ord) (sat : Bool) (sd sa sb : SReg)
  | vredm (h : Hd) (op : Rop) (ty : Ty) (sc : Scope) (rel : Bool) (sat : Bool) (x : VReg) (sb : SReg) (idx : Option VReg)
  | patom (h : Hd) (op : Aop) (ty : Ty) (clus : Bool) (ord : Ord) (sat : Bool) (vd : VReg) (t : TReg) (idx : Option VReg)
  | fence (st : BitVec 4) (ord : Ord) (sc : Scope)
  | cflush (st : BitVec 4) (sc : Scope) (sb : SReg) (ofs : BitVec 11)
  | cinv (st : BitVec 4) (sc : Scope) (sb : SReg) (ofs : BitVec 11)
  -- plates, matrix, accumulator, engines (R199 to R226)
  | tres (st : BitVec 4) (td : TReg) (n : BitVec 8) (core : Option (BitVec 2)) (stat : Option SReg)
  | trel (st : BitVec 4) (td : TReg)
  | tcfgPlate (st : BitVec 4) (td : TReg) (sa : SReg)
  | tcfgRegion (st : BitVec 4) (ak : AReg) (sa : SReg)
  | trd (st : BitVec 4) (sa : SReg) (ta : TReg)
  | tstat (st : BitVec 4) (sa sb : SReg)
  | mma (st : BitVec 4) (ty : Ty) (ak : AReg) (ta tb : TReg) (sa sb : SReg) (k : BitVec 8)
  | mmap (st : BitVec 4) (ty : Ty) (ak : AReg) (ta tb : TReg) (sa sb : SReg) (k : BitVec 8)
  | mbatch (st : BitVec 4) (sd : SReg)
  | mwait (st : BitVec 4) (sa : SReg)
  | mpoll (st : BitVec 4) (sd sa : SReg)
  | acld (st : BitVec 4) (half : Bool) (col : Bool) (ak : AReg) (ta : TReg) (sa : SReg)
  | acst (st : BitVec 4) (half : Bool) (r : Rnd) (col : Bool) (ak : AReg) (ta : TReg) (sa : SReg)
  | aczero (st : BitVec 4) (ak : AReg)
  | acrd (h : Hd) (col : Bool) (vd : VReg) (ak : AReg) (sa : SReg)
  | laycfg (st : BitVec 4) (sd sa sb : SReg)
  | cpy (st : BitVec 4) (toGlobal : Bool) (t : TReg) (sd sa sb : SReg) (ev : Option (BitVec 5))
  | gth (st : BitVec 4) (t : TReg) (sd sa sb : SReg) (ev : Option (BitVec 5))
  | coll (st : BitVec 4) (op : Rop) (ty : Ty) (t : TReg) (sa sb : SReg) (ev : Option (BitVec 5))
  -- synchronisation, launch and system (R227 to R254)
  | bari (st : BitVec 4) (bar : BitVec 4) (sa : SReg)
  | barv (st : BitVec 4) (bar : BitVec 4) (p : PhaseOp)
  | barw (st : BitVec 4) (bar : BitVec 4) (sa : SReg)
  | bard (st : BitVec 4) (bar : BitVec 4)
  | bart (st : BitVec 4) (sd : SReg) (bar : BitVec 4) (sa : SReg)
  | qcfg (st : BitVec 4) (q : BitVec 5) (sa sb : SReg)
  | qpush (st : BitVec 4) (q : BitVec 5) (sa : SReg)
  | qpop (st : BitVec 4) (sd : SReg) (q : BitVec 5)
  | qtryPop (st : BitVec 4) (sd : SReg) (q : BitVec 5)
  | qtryPush (st : BitVec 4) (sd : SReg) (q : BitVec 5) (sa : SReg)
  | qallow (st : BitVec 4) (q : BitVec 5) (sa : SReg) (n : BitVec 5)
  | watch (st : BitVec 4) (wide : Bool) (count : BitVec 5) (sb : SReg) (ofs : BitVec 11)
  | park (st : BitVec 4) (sa : SReg)
  | parkSt (st : BitVec 4) (sd sa : SReg)
  | shpv (st : BitVec 4) (k : BitVec 2) (sd : SReg) (board : BitVec 8) (sa sb : SReg)
  | shlv (st : BitVec 4) (k : BitVec 2) (sd : SReg) (board : BitVec 8)
  | shrs (st : BitVec 4) (sd : SReg) (board : BitVec 8)
  | dlaunch (h : Hd) (sd : SReg) (vx : VReg) (q : BitVec 6)
  | sdlaunch (st : BitVec 4) (sd sa : SReg) (q : BitVec 6)
  | cancel (st : BitVec 4) (lv : Level)
  | cntrd (st : BitVec 4) (sd sa : SReg)
  | rlnch (st : BitVec 4) (sd sa : SReg) (q : BitVec 6)
  | trrec (st : BitVec 4) (sd sa : SReg)
  | dmclr (st : BitVec 4) (sd : SReg) (m : BitVec 8)
  | dmq (st : BitVec 4) (sd sa sb : SReg) (m : BitVec 8)
  | trap (h : Hd) (code : BitVec 16) (lane : Bool)
  | brkpt (h : Hd) (code : BitVec 16)
  | hret (st : BitVec 4) (sa : SReg)
  | lhret (st : BitVec 4) (wide : Bool) (va vb : VReg)
  | ckpt (st : BitVec 4) (sd : SReg)
  | svccfg (st : BitVec 4) (sd sa : SReg) (slot : BitVec 3)
  -- steps that the machine itself schedules
  | blockEntry (crew : Nat)
  | windowMove (crew : Nat)
  | issueSelect (core part : Nat)
  | throttleRecompute (core : Nat)
  | scoreHalving (core : Nat)
  | throttleAdmitTimeout (crew : Nat)
  | effectLeavesCore (crew : Nat)
  | loadReturn (crew : Nat)
  | pageWalkDone (core ctx : Nat) (va : W64) (write : Bool)
  | l1Read (core line f l : Nat)
  | l2Read (core line f l : Nat)
  | l2Write (core line f l : Nat)
  | leaseTick (die : Nat)
  | timestampSweep (die : Nat)
  | dropMessage (core line f l : Nat)
  | parkWake (crew : Nat)
  | parkTimeout (crew : Nat)
  | getS (agent line f l : Nat)
  | getX (agent line f l : Nat)
  | cln (agent line f l : Nat)
  | countedRequestAck (crew : Nat)
  | dirtyBitMessage (parcel : Nat) (lctr : Option Nat)
  | releaseComplete (crew : Nat)
  | atomicRequestExecute (cluster : Nat)
  | atomicReturn (crew : Nat)
  | plateStoreArbitration (core : Nat)
  | clusterQueueUpdate (party q : Nat)
  | barrierUpdate (party bar : Nat)
  | sheetHomePost (home : Nat)
  | matrixCommandPerform (core : Nat)
  | batchRetire (crew : Nat)
  | acldReadDone (crew : Nat)
  | acstWritesDone (crew : Nat)
  | engineCommandComplete (core : Nat) (e : Engine)
  | eventRecordPost (core : Nat) (e : Engine)
  | collectiveCombine (group : Nat)
  | crewEnd (crew : Nat)
  | instanceComplete (ctr : Nat)
  | handlerCrewForm (core : Nat)
  | handlerFormTimeout (core : Nat)
  | noticePush (crew : Nat)
  | noticeRetry (crew : Nat)
  | relaunchDequeue (q : Nat)
  | partyPlace (die : Nat)
  | agentDead (agent : Nat)
  | checkpointComplete (dev : Nat)
  | engineStopAck (u : StopUnit)
  | testStart (core : Nat)
  | svccfgDone (crew : Nat)
  | rollbackComplete (dev : Nat)
  -- steps that arrive from outside, and steps without an operand
  | upg (agent line f l : Nat)
  | wb (agent line f l : Nat)
  | evict (agent line f l : Nat)
  | homeWrite (agent loc : Nat) (bytes : List Byte)
  | snoop (agent line f l : Nat) (inv : Bool)
  | checkerRecord
  | recordLostTimeout (line f l : Nat)
  | strikeReport (core at_ : Nat)
  | queuePush (q : Nat) (who : Pusher) (full : Bool) (data : BitVec 1024)
  | packetDequeue
  | partySend
  | placementWaitLimit (die : Nat)
  | heartbeat (agent : Nat)
  | ckptGo (dev : Nat) (v : BitVec 128)
  | ckptPeriodTimer (dev : Nat)
  | ckptRollback (dev : Nat) (v : BitVec 128)
  | preemptGo (v : BitVec 128)
  | preemptRestore (v : BitVec 128)
  | contextCreate (ctx : Nat) (v : BitVec 128)
  | contextDestroy (ctx : Nat) (v : BitVec 128)
  | contextRootWrite (ctx : Nat) (v : BitVec 128)
  | devModeWrite (v : W32)
  | dieMapWrite (ctx : Nat) (v : W64)
  | biasFlipGo (v : W64)
  | biasFlipDone
  | counterControlWrite (n : Nat) (v : BitVec 128)
  | sheetHomeWrite (home : Nat) (v : BitVec 128)
  | trapConfigWrite (ctx : Nat) (v : BitVec 256)
  | collGroupWrite (g : Nat) (v : W64)
  | dirtyMapWrite (m : Nat) (v : BitVec 128)
  | peerRecordWrite (p : Nat) (v : BitVec 128)
  | sbxCtlWrite (core : Nat) (v : W64)
  | sandboxHalt (dom : Nat)
  | qctlWrite (q : Nat) (v : W64)
  | qctlDroph (q : Nat)
  | qctlClearOvf (q : Nat)
  | qctlClearPart (q : Nat)
  | xctlWrite (x : Nat) (v : W64)
  | xctlClearOvf (x : Nat)
  | xctlClearPart (x : Nat)
  | transportDescriptorPush (x : Nat) (who : Pusher) (full : Bool) (data : BitVec 1024)
  | transportDescriptorComplete (x : Nat)
  | transportAckTimeout (x : Nat)
  | transportIncomingWrite (rpeer : Nat) (mac : BitVec 48) (rctx : Nat) (raddr : W64) (rel : Bool) (data : List Byte)
  | ptpCfgWrite (v : W64)
  | ptpMessage (close : Bool) (time : Nat)
  | ptpHoldoverTimeout
  | ptpFreeTimeout
  | testCtlLoad (v : BitVec 128)
  | testImageVerified
  | testCtlWrite (v : BitVec 128)
  | elogCtlWrite (v : BitVec 128)
  | elogClearOvf
  | errorReport
  | sampleCfgWrite (v : BitVec 128)
  | sampleTimer
  | injectCfgWrite (v : BitVec 128)
  | attGo (v : BitVec 128)
  | attReportDone
  | counterRecordClear (r : CntRec)
  | registerWrite (r : CfgReg) (v : W32)
  | powerGood
  | bringupStageDone (r : StageResult)
  | linkFlitCrcFail
  | linkReplayTimeout
  | thermalTrip
  | powerLimit
  | preemptRestoreDone
  | transportPeerRefusal (x : Nat)
  | powerOff
  deriving DecidableEq, Repr

end Sys2Proof
end

