-- ==== Sys2Proof/WellFormed.lean ====
section
/-! DEFINITION. Which instructions exist: the modifiers an instruction accepts (R86), the limits of its fields
(R85) and its registers (R85, R152). A word whose fields break one of the three is kind 3, 4 or 5 of cause 0x01
(R103). -/

namespace Sys2Proof

/-- The width of an integer type in bits (R109). -/
def ITy.bits : ITy → Nat
  | .i8 => 8 | .i16 => 16 | .i32 => 32 | .i64 => 64 | .n8 => 8 | .n16 => 16 | .n32 => 32 | .n64 => 64

/-- Whether an integer type is read as signed (R109). -/
def ITy.signed : ITy → Bool
  | .i8 => true | .i16 => true | .i32 => true | .i64 => true | _ => false

/-- The width of a binary type in bits (R111). -/
def FTy.bits : FTy → Nat
  | .f16 => 16 | .f32 => 32 | .f64 => 64

/-- Whether a value of the type takes a register pair (R152). -/
def Ty.wide : Ty → Bool
  | .int t => t.bits == 64
  | .flt t => t.bits == 64
  | .blk _ => false

def ITy.wide (t : ITy) : Bool := t.bits == 64
def FTy.wide (t : FTy) : Bool := t.bits == 64

/-- The bytes of an access width (R86). -/
def Width.bytes : Width → Nat
  | .b => 1 | .h => 2 | .w => 4 | .d => 8

/-- A conversion that `vcvt` performs (R163). -/
def cvtOk (r : Rnd) (sat : Bool) (dst src : Ty) : Bool :=
  match dst, src with
  | .int a, .int b => a != b && r == .rn
  | .flt a, .flt b => a != b && !sat
  | .int _, .flt _ => !sat
  | .flt _, .int _ => !sat
  | .blk _, _ => false
  | _, .blk _ => false

/-- The operation and type of an atomic or reduction (R187). -/
def atomOk (op : Aop) (ty : Ty) (sat : Bool) : Bool :=
  match ty with
  | .int t =>
    (t.bits == 32 || t.bits == 64) && (!sat || op == .red .add)
  | .flt t =>
    t != .f16 && !sat && op != .red .and && op != .red .or && op != .red .xor
  | .blk _ => false

/-- The operation and type of a lane reduction or scan (R169). -/
def redOk (op : Rop) (ty : Ty) (sat : Bool) : Bool :=
  match ty with
  | .int _ => !sat || op == .add
  | .flt _ => !sat && (op == .add || op == .min || op == .max)
  | .blk _ => false

/-- The operation and type of a collective (R225). -/
def collOk (op : Rop) (ty : Ty) : Bool :=
  match ty with
  | .int t => t.bits == 32 || t.bits == 64
  | .flt _ => op == .add || op == .min || op == .max
  | .blk _ => false

/-- The types of the matrix array (R207). -/
def mmaTyOk : Ty → Bool
  | .int .i8 => true
  | .flt .f16 => true
  | .flt .f32 => true
  | .blk _ => true
  | _ => false

/-- The types that move without change (R153 vsel, vmov; R157 vli). -/
def plainTyOk : Ty → Bool
  | .blk _ => false
  | _ => true

/-- Whether a special register is read in 64 bits (R100). -/
def SpecReg.wide : SpecReg → Bool
  | .launch => true | .cancel => true | .frontier => true | .spill => true | .clock => true | _ => false

/-- The registers a scalar `wrsr` can name (R99, R100). -/
def SpecReg.writable : SpecReg → Bool
  | .flags => true | .tflags => true | .bkconf => true | .spill => true | .window => true | _ => false

/-- The registers that only privileged mode writes (R99). -/
def SpecReg.privileged : SpecReg → Bool
  | .spill => true | .window => true | _ => false

/-- The selectors of R100. -/
def selOk : Instr → Bool
  | .rdsrScalar _ _ r => r != .lane
  | .wrsrScalar _ r _ => r.writable
  | _ => true

/-- Kind 3 of R103: every modifier is one the instruction accepts. -/
def modOk : Instr → Bool
  | .sext _ ty _ _ => ty != .i64 && ty != .n64
  | .vabs _ ty _ _ _ => ty.signed
  | .vsel _ ty .. => plainTyOk ty
  | .vmov _ ty .. => plainTyOk ty
  | .vli _ ty .. => plainTyOk ty
  | .vfrcp _ ty .. => ty != .f64
  | .vfrsq _ ty .. => ty != .f64
  | .vfexp2 _ ty .. => ty != .f64
  | .vflog2 _ ty .. => ty != .f64
  | .vfsin _ ty .. => ty != .f64
  | .vfcos _ ty .. => ty != .f64
  | .vfcmp _ c .. => c == .eq || c == .ne || c == .lt || c == .le || c == .gt || c == .ge
  | .vcvt _ r sat dst src _ _ => cvtOk r sat dst src
  | .vred _ op ty sat _ _ => redOk op ty sat
  | .vscan _ op ty sat _ _ => redOk op ty sat
  | .vatom _ op ty _ _ sat _ _ _ => atomOk op ty sat
  | .satom _ op ty _ _ sat _ _ _ => atomOk op ty sat
  | .vredm _ op ty _ _ sat _ _ _ => atomOk (.red op) ty sat
  | .patom _ op ty _ _ sat _ _ _ => atomOk op ty sat
  | .cflush _ sc _ _ => sc != .crew
  | .cinv _ sc _ _ => sc != .crew
  | .fence _ ord _ => ord != .rlx
  | .mma _ ty .. => mmaTyOk ty
  | .mmap _ ty .. => mmaTyOk ty

  | .coll _ op ty .. => collOk op ty
  | _ => true

/-- A power of two up to 128 (R238). -/
def watchRangeOk (wide : Bool) (count : BitVec 5) : Bool :=
  [1, 2, 4, 8, 16, 32, 64, 128].contains ((if wide then 8 else 4) * (count.toNat + 1))

/-- Kind 4 of R103: limits on what the fields hold. PG = 0 with PN = 1 is one of them (R83). -/
def hdOk (h : Hd) : Bool := !(h.pg == 0 && h.pn)

/-- The `Hd` of an instruction whose PG column reads L (R92 to R98). -/
def Instr.hd? : Instr → Option Hd
  | .exit h => some h | .vbr h _ => some h | .vbrx h _ => some h
  | .rdsrVector h _ _ => some h | .wrsrVector h _ => some h
  | .vadd h .. => some h | .vaddImm h .. => some h | .vsub h .. => some h | .vmul h .. => some h
  | .vmulh h .. => some h | .vmad h .. => some h | .vdiv h .. => some h | .vrem h .. => some h
  | .vand h .. => some h | .vandImm h .. => some h | .vor h .. => some h | .vorImm h .. => some h
  | .vxor h .. => some h | .vxorImm h .. => some h | .vandn h .. => some h | .vshl h .. => some h
  | .vshlImm h .. => some h | .vshr h .. => some h | .vshrImm h .. => some h | .vsra h .. => some h
  | .vsraImm h .. => some h | .vrot h .. => some h | .vmin h .. => some h | .vmax h .. => some h
  | .vabs h .. => some h | .vclz h .. => some h | .vpopc h .. => some h | .vbrev h .. => some h
  | .vbfx h .. => some h | .vbfi h .. => some h | .vsel h .. => some h | .vmov h .. => some h
  | .vli h .. => some h | .vcmp h .. => some h | .vclmul h .. => some h | .vclmulh h .. => some h
  | .vaddc h .. => some h
  | .vfadd h .. => some h | .vfsub h .. => some h | .vfmul h .. => some h | .vfmaF16 h .. => some h
  | .vfmaF32 h .. => some h | .vfmaF64 h .. => some h | .vfdiv h .. => some h | .vfsqrt h .. => some h
  | .vfrcp h .. => some h | .vfrsq h .. => some h | .vfexp2 h .. => some h | .vflog2 h .. => some h
  | .vfsin h .. => some h | .vfcos h .. => some h | .vfmin h .. => some h | .vfmax h .. => some h
  | .vfcmp h .. => some h | .vfcls h .. => some h | .vfrnd h .. => some h | .vfdot h .. => some h
  | .vcvt h .. => some h | .vpack h .. => some h | .vunpk h .. => some h
  | .vshfl h .. => some h | .vbcast h .. => some h | .vred h .. => some h | .vscan h .. => some h
  | .vcompr h .. => some h
  | .pand h .. => some h | .por h .. => some h | .pxor h .. => some h | .pnot h .. => some h
  | .pmov h .. => some h | .pset h .. => some h
  | .vld h .. => some h | .vst h .. => some h | .vgth h .. => some h | .vsct h .. => some h
  | .vldp h .. => some h | .vstp h .. => some h | .vprf h .. => some h
  | .vatom h .. => some h | .vredm h .. => some h | .patom h .. => some h
  | .acrd h .. => some h | .dlaunch h .. => some h | .trap h .. => some h | .brkpt h .. => some h
  | _ => none

def idxOk : Option VReg → Bool
  | none => true
  | some r => r != 0x7FF

def fieldOk (i : Instr) : Bool :=
  (match i.hd? with | some h => hdOk h | none => true) &&
  match i with
  | .vld _ _ _ _ _ idx _ => idxOk idx
  | .vst _ _ _ _ _ idx _ => idxOk idx
  | .vgth _ _ _ _ _ idx _ => idx != 0x7FF
  | .vsct _ _ _ _ _ idx _ => idx != 0x7FF
  | .vldp _ _ _ _ _ idx _ => idxOk idx
  | .vstp _ _ _ _ _ idx _ => idxOk idx
  | .vprf _ _ _ idx _ => idxOk idx
  | .vatom _ _ _ _ _ _ _ _ idx => idxOk idx
  | .vredm _ _ _ _ _ _ _ _ idx => idxOk idx
  | .patom _ _ _ _ _ _ _ _ idx => idxOk idx
  | .vli _ (.flt .f16) _ v => v.toNat < 2 ^ 16
  | .acst _ half r _ _ _ _ => half || r == .rn
  | .watch _ wide count _ _ => watchRangeOk wide count
  | _ => true

/-- A scalar register number of R85. -/
def sOk (r : SReg) : Bool := r.toNat < 96
/-- A predicate destination of R85. -/
def pdOk (r : PReg) : Bool := r != 0
/-- A vector register that holds a value of 64 bits when `wide` (R152). -/
def vOk (wide : Bool) (r : VReg) : Bool := !wide || r.toNat % 2 == 0
def op2Ok : Op2 → Bool
  | .reg sb => sOk sb
  | .imm _ => true
def phaseOk : PhaseOp → Bool
  | .ahead _ => true
  | .named sa => sOk sa
def optSOk : Option SReg → Bool
  | none => true
  | some r => sOk r

def v3Ok (w : Bool) (a b c : VReg) : Bool := vOk w a && vOk w b && vOk w c
def v2Ok (w : Bool) (a b : VReg) : Bool := vOk w a && vOk w b

/-- Kind 5 of R103: every register field names a register the operand can have. -/
def regOk : Instr → Bool
  | .sadd _ _ sd sa b => sOk sd && sOk sa && op2Ok b
  | .ssub _ _ sd sa b => sOk sd && sOk sa && op2Ok b
  | .smul _ _ sd sa b => sOk sd && sOk sa && op2Ok b
  | .smulh _ _ sd sa b => sOk sd && sOk sa && op2Ok b
  | .sdiv _ _ sd sa b => sOk sd && sOk sa && op2Ok b
  | .srem _ _ sd sa b => sOk sd && sOk sa && op2Ok b
  | .sand _ _ sd sa b => sOk sd && sOk sa && op2Ok b
  | .sor _ _ sd sa b => sOk sd && sOk sa && op2Ok b
  | .sxor _ _ sd sa b => sOk sd && sOk sa && op2Ok b
  | .sandn _ _ sd sa b => sOk sd && sOk sa && op2Ok b
  | .sshl _ _ sd sa b => sOk sd && sOk sa && op2Ok b
  | .sshr _ _ sd sa b => sOk sd && sOk sa && op2Ok b
  | .ssra _ _ sd sa b => sOk sd && sOk sa && op2Ok b
  | .smin _ _ sd sa b => sOk sd && sOk sa && op2Ok b
  | .smax _ _ sd sa b => sOk sd && sOk sa && op2Ok b
  | .scmp _ _ sd sa b => sOk sd && sOk sa && op2Ok b
  | .ssel _ sd sc sa sb => sOk sd && sOk sc && sOk sa && sOk sb
  | .sli _ _ sd _ => sOk sd
  | .slih _ sd sa _ => sOk sd && sOk sa
  | .smov _ sd sa => sOk sd && sOk sa
  | .sclz _ _ sd sa => sOk sd && sOk sa
  | .spopc _ _ sd sa => sOk sd && sOk sa
  | .sbfx _ _ sd sa sb => sOk sd && sOk sa && sOk sb
  | .sbfi _ sd sa sb => sOk sd && sOk sa && sOk sb
  | .sext _ _ sd sa => sOk sd && sOk sa
  | .sld _ _ _ sd sb _ => sOk sd && sOk sb
  | .sst _ _ _ sa sb _ => sOk sa && sOk sb
  | .sprf _ sb _ => sOk sb
  | .brc _ _ sa sb _ => sOk sa && sOk sb
  | .brz _ sa _ => sOk sa
  | .brnz _ sa _ => sOk sa
  | .brx _ sa _ => sOk sa
  | .callx _ _ sa => sOk sa
  | .vbrx _ va => vOk true va
  | .pany _ sd _ => sOk sd
  | .pall _ sd _ => sOk sd
  | .pcnt _ sd _ => sOk sd
  | .pffs _ sd _ => sOk sd
  | .rdsrScalar _ sd _ => sOk sd
  | .rdsrVector _ vd r => vOk r.wide vd
  | .wrsrScalar _ _ sb => sOk sb
  | .rdtime _ sd => sOk sd
  | .vadd _ ty _ vd va vb => v3Ok ty.wide vd va vb
  | .vaddImm _ ty vd va _ => v2Ok ty.wide vd va
  | .vsub _ ty _ vd va vb => v3Ok ty.wide vd va vb
  | .vmul _ ty _ vd va vb => v3Ok ty.wide vd va vb
  | .vmulh _ ty vd va vb => v3Ok ty.wide vd va vb
  | .vmad _ ty vd va vb vc => v3Ok ty.wide vd va vb && vOk ty.wide vc
  | .vdiv _ ty _ vd va vb => v3Ok ty.wide vd va vb
  | .vrem _ ty vd va vb => v3Ok ty.wide vd va vb
  | .vand _ ty vd va vb => v3Ok ty.wide vd va vb
  | .vandImm _ ty vd va _ => v2Ok ty.wide vd va
  | .vor _ ty vd va vb => v3Ok ty.wide vd va vb
  | .vorImm _ ty vd va _ => v2Ok ty.wide vd va
  | .vxor _ ty vd va vb => v3Ok ty.wide vd va vb
  | .vxorImm _ ty vd va _ => v2Ok ty.wide vd va
  | .vandn _ ty vd va vb => v3Ok ty.wide vd va vb
  | .vshl _ ty vd va vb => v3Ok ty.wide vd va vb
  | .vshlImm _ ty vd va _ => v2Ok ty.wide vd va
  | .vshr _ ty vd va vb => v3Ok ty.wide vd va vb
  | .vshrImm _ ty vd va _ => v2Ok ty.wide vd va
  | .vsra _ ty vd va vb => v3Ok ty.wide vd va vb
  | .vsraImm _ ty vd va _ => v2Ok ty.wide vd va
  | .vrot _ ty vd va vb => v3Ok ty.wide vd va vb
  | .vmin _ ty vd va vb => v3Ok ty.wide vd va vb
  | .vmax _ ty vd va vb => v3Ok ty.wide vd va vb
  | .vabs _ ty _ vd va => v2Ok ty.wide vd va
  | .vclz _ ty vd va => v2Ok ty.wide vd va
  | .vpopc _ ty vd va => v2Ok ty.wide vd va
  | .vbrev _ ty vd va => v2Ok ty.wide vd va
  | .vsel _ ty _ vd va vb => v3Ok ty.wide vd va vb
  | .vmov _ ty vd va => v2Ok ty.wide vd va
  | .vli _ ty vd _ => vOk ty.wide vd
  | .vcmp _ _ ty pd va vb => pdOk pd && v2Ok ty.wide va vb
  | .vaddc _ wide pc vd va vb => pdOk pc && v3Ok wide vd va vb
  | .vfadd _ _ ty vd va vb => v3Ok ty.wide vd va vb
  | .vfsub _ _ ty vd va vb => v3Ok ty.wide vd va vb
  | .vfmul _ _ ty vd va vb => v3Ok ty.wide vd va vb
  | .vfmaF64 _ _ vd va vb vc => v3Ok true vd va vb && vOk true vc
  | .vfdiv _ _ ty vd va vb => v3Ok ty.wide vd va vb
  | .vfsqrt _ _ ty vd va => v2Ok ty.wide vd va
  | .vfmin _ ty vd va vb => v3Ok ty.wide vd va vb
  | .vfmax _ ty vd va vb => v3Ok ty.wide vd va vb
  | .vfcmp _ _ ty pd va vb => pdOk pd && v2Ok ty.wide va vb
  | .vfcls _ ty _ va => vOk ty.wide va
  | .vfrnd _ _ ty vd va => v2Ok ty.wide vd va
  | .vcvt _ _ _ dst src vd va => vOk dst.wide vd && vOk src.wide va
  | .vred _ _ ty _ vd va => v2Ok ty.wide vd va
  | .vscan _ _ ty _ vd va => v2Ok ty.wide vd va
  | .vext _ wide sd va sb => sOk sd && vOk wide va && sOk sb
  | .vins _ wide vd sa sb => vOk wide vd && sOk sa && sOk sb
  | .pand _ pd _ _ => pdOk pd
  | .por _ pd _ _ => pdOk pd
  | .pxor _ pd _ _ => pdOk pd
  | .pnot _ pd _ => pdOk pd
  | .pmov _ pd _ => pdOk pd
  | .pset _ pd sb => pdOk pd && sOk sb
  | .pget _ sd _ => sOk sd
  | .kcnt _ sd _ => sOk sd
  | .kffs _ sd _ => sOk sd
  | .kbit _ sd _ sa => sOk sd && sOk sa
  | .vld _ w _ vd sb _ _ => vOk (w == .d) vd && sOk sb
  | .vst _ w _ va sb _ _ => vOk (w == .d) va && sOk sb
  | .vgth _ w _ vd sb idx _ => vOk (w == .d) vd && sOk sb && vOk true idx
  | .vsct _ w _ va sb idx _ => vOk (w == .d) va && sOk sb && vOk true idx
  | .vldp _ w vd _ sb _ _ => vOk (w == .d) vd && sOk sb
  | .vstp _ w va _ sb _ _ => vOk (w == .d) va && sOk sb
  | .vprf _ _ sb _ _ => sOk sb
  | .sldp _ _ sd _ sb _ => sOk sd && sOk sb
  | .vatom _ _ ty _ _ _ vd sb _ => vOk ty.wide vd && sOk sb
  | .satom _ _ _ _ _ _ sd sa sb => sOk sd && sOk sa && sOk sb
  | .vredm _ _ ty _ _ _ x sb _ => vOk ty.wide x && sOk sb
  | .patom _ _ ty _ _ _ vd _ _ => vOk ty.wide vd
  | .cflush _ _ sb _ => sOk sb
  | .cinv _ _ sb _ => sOk sb
  | .tres _ _ _ _ stat => optSOk stat
  | .tcfgPlate _ _ sa => sOk sa
  | .tcfgRegion _ _ sa => sOk sa
  | .trd _ sa _ => sOk sa
  | .tstat _ sa sb => sOk sa && sOk sb
  | .mma _ _ _ _ _ sa sb _ => sOk sa && sOk sb
  | .mmap _ _ _ _ _ sa sb _ => sOk sa && sOk sb
  | .mbatch _ sd => sOk sd
  | .mwait _ sa => sOk sa
  | .mpoll _ sd sa => sOk sd && sOk sa
  | .acld _ _ _ _ _ sa => sOk sa
  | .acst _ _ _ _ _ _ sa => sOk sa
  | .acrd _ _ _ _ sa => sOk sa
  | .laycfg _ sd sa sb => sOk sd && sOk sa && sOk sb
  | .cpy _ _ _ sd sa sb _ => sOk sd && sOk sa && sOk sb
  | .gth _ _ sd sa sb _ => sOk sd && sOk sa && sOk sb
  | .coll _ _ _ _ sa sb _ => sOk sa && sOk sb
  | .bari _ _ sa => sOk sa
  | .barv _ _ p => phaseOk p
  | .barw _ _ sa => sOk sa
  | .bart _ sd _ sa => sOk sd && sOk sa
  | .qcfg _ _ sa sb => sOk sa && sOk sb
  | .qpush _ _ sa => sOk sa
  | .qpop _ sd _ => sOk sd
  | .qtryPop _ sd _ => sOk sd
  | .qtryPush _ sd _ sa => sOk sd && sOk sa
  | .qallow _ _ sa _ => sOk sa
  | .watch _ _ _ sb _ => sOk sb
  | .park _ sa => sOk sa
  | .parkSt _ sd sa => sOk sd && sOk sa
  | .shpv _ _ sd _ sa sb => sOk sd && sOk sa && sOk sb
  | .shlv _ _ sd _ => sOk sd
  | .shrs _ sd _ => sOk sd
  | .dlaunch _ sd vx _ => sOk sd && vOk true vx
  | .sdlaunch _ sd sa _ => sOk sd && sOk sa
  | .cntrd _ sd sa => sOk sd && sOk sa
  | .rlnch _ sd sa _ => sOk sd && sOk sa
  | .trrec _ sd sa => sOk sd && sOk sa
  | .dmclr _ sd _ => sOk sd
  | .dmq _ sd sa sb _ => sOk sd && sOk sa && sOk sb
  | .hret _ sa => sOk sa
  | .lhret _ wide va _ => vOk wide va
  | .ckpt _ sd => sOk sd
  | .svccfg _ sd sa _ => sOk sd && sOk sa
  | _ => true

/-- A device step has no word: only the first 194 rows of the table are encoded. -/
def Instr.hasWord : Instr → Bool
  | .blockEntry .. | .windowMove .. | .issueSelect .. | .throttleRecompute .. | .scoreHalving ..
  | .throttleAdmitTimeout .. | .effectLeavesCore .. | .loadReturn .. | .pageWalkDone .. | .l1Read .. | .l2Read ..
  | .l2Write .. | .leaseTick .. | .timestampSweep .. | .dropMessage .. | .parkWake .. | .parkTimeout .. | .getS ..
  | .getX .. | .upg .. | .wb .. | .cln .. | .evict .. | .homeWrite .. | .snoop .. | .checkerRecord
  | .recordLostTimeout .. | .countedRequestAck .. | .dirtyBitMessage .. | .releaseComplete ..
  | .atomicRequestExecute .. | .atomicReturn .. | .plateStoreArbitration .. | .clusterQueueUpdate ..
  | .barrierUpdate .. | .sheetHomePost .. | .matrixCommandPerform .. | .batchRetire .. | .acldReadDone ..
  | .acstWritesDone .. | .engineCommandComplete .. | .eventRecordPost .. | .collectiveCombine .. | .crewEnd ..
  | .instanceComplete .. | .handlerCrewForm .. | .handlerFormTimeout .. | .noticePush .. | .noticeRetry ..
  | .strikeReport .. | .queuePush .. | .packetDequeue | .relaunchDequeue .. | .partySend | .partyPlace ..
  | .placementWaitLimit .. | .heartbeat .. | .agentDead .. | .ckptGo .. | .checkpointComplete ..
  | .ckptPeriodTimer .. | .ckptRollback .. | .preemptGo .. | .engineStopAck .. | .preemptRestore ..
  | .contextCreate .. | .contextDestroy .. | .contextRootWrite .. | .devModeWrite .. | .dieMapWrite ..
  | .biasFlipGo .. | .biasFlipDone | .counterControlWrite .. | .sheetHomeWrite .. | .trapConfigWrite ..
  | .collGroupWrite .. | .dirtyMapWrite .. | .peerRecordWrite .. | .sbxCtlWrite .. | .sandboxHalt ..
  | .qctlWrite .. | .qctlDroph .. | .qctlClearOvf .. | .qctlClearPart .. | .xctlWrite .. | .xctlClearOvf ..
  | .xctlClearPart .. | .transportDescriptorPush .. | .transportDescriptorComplete .. | .transportAckTimeout ..
  | .transportIncomingWrite .. | .ptpCfgWrite .. | .ptpMessage .. | .ptpHoldoverTimeout | .ptpFreeTimeout
  | .testCtlLoad .. | .testImageVerified | .testCtlWrite .. | .testStart .. | .elogCtlWrite .. | .elogClearOvf
  | .errorReport | .sampleCfgWrite .. | .sampleTimer | .injectCfgWrite .. | .attGo .. | .attReportDone
  | .counterRecordClear .. | .registerWrite .. | .powerGood | .bringupStageDone .. | .linkFlitCrcFail
  | .linkReplayTimeout | .thermalTrip | .powerLimit | .rollbackComplete .. | .preemptRestoreDone | .svccfgDone ..
  | .transportPeerRefusal .. | .powerOff => false
  | _ => true

/-- The instruction has a word of its own: its fields pass every check of R103 that a word alone decides. -/
def WellFormed (i : Instr) : Bool := i.hasWord && selOk i && modOk i && fieldOk i && regOk i

end Sys2Proof
end

