-- ==== Sys2Proof/Decode.lean ====
section
/-! DEFINITION. The instruction words of the AX960: formats (R83, R84), codes (R86), the decoder (R90 to R105)
and after it the encoder. -/

namespace Sys2Proof

/-! ## Codes of R86 -/

def ITy.code : ITy → BitVec 4
  | .i8 => 0 | .i16 => 1 | .i32 => 2 | .i64 => 3 | .n8 => 4 | .n16 => 5 | .n32 => 6 | .n64 => 7
def FTy.code : FTy → BitVec 4
  | .f16 => 8 | .f32 => 9 | .f64 => 10
def PTy.code : PTy → BitVec 4
  | .pb4 => 11 | .pb6 => 12 | .pb9 => 13
def Ty.code : Ty → BitVec 4
  | .int t => t.code | .flt t => t.code | .blk t => t.code
def Cond.code : Cond → BitVec 4
  | .eq => 0 | .ne => 1 | .lt => 2 | .le => 3 | .gt => 4 | .ge => 5 | .lo => 6 | .ls => 7 | .hi => 8 | .hs => 9
def Rnd.code : Rnd → BitVec 3
  | .rn => 0 | .rz => 1 | .ru => 2 | .rd => 3 | .ra => 4
def Scope.code : Scope → BitVec 3
  | .crew => 0 | .clus => 1 | .die => 2 | .dev => 3 | .sys => 4
def Ord.code : Ord → BitVec 2
  | .rlx => 0 | .acq => 1 | .rel => 2 | .ar => 3
def Level.code : Level → BitVec 3
  | .party => 0 | .launch => 1 | .graph => 2 | .stage => 3 | .job => 4
def Rop.code : Rop → BitVec 3
  | .add => 0 | .min => 1 | .max => 2 | .and => 3 | .or => 4 | .xor => 5
def Aop.code : Aop → BitVec 3
  | .red op => op.code | .xchg => 6 | .cas => 7
def Width.code : Width → BitVec 3
  | .b => 0 | .h => 1 | .w => 2 | .d => 3
def Shfl.code : Shfl → BitVec 2
  | .idx => 0 | .xor => 1 | .up => 2 | .dn => 3
def SpecReg.code : SpecReg → BitVec 5
  | .lane => 0x00 | .crew => 0x01 | .party => 0x02 | .px => 0x03 | .py => 0x04 | .pz => 0x05 | .core => 0x06
  | .clus => 0x07 | .die => 0x08 | .launch => 0x09 | .cancel => 0x0A | .batch => 0x0B | .flags => 0x0C
  | .tflags => 0x0D | .frontier => 0x0E | .spill => 0x0F | .window => 0x10 | .bkconf => 0x11 | .clock => 0x12
  | .datum => 0x13

def ITy.ofCode (c : BitVec 4) : Option ITy :=
  match c.toNat with
  | 0 => some .i8 | 1 => some .i16 | 2 => some .i32 | 3 => some .i64
  | 4 => some .n8 | 5 => some .n16 | 6 => some .n32 | 7 => some .n64
  | _ => none
def FTy.ofCode (c : BitVec 4) : Option FTy :=
  match c.toNat with
  | 8 => some .f16 | 9 => some .f32 | 10 => some .f64 | _ => none
def PTy.ofCode (c : BitVec 4) : Option PTy :=
  match c.toNat with
  | 11 => some .pb4 | 12 => some .pb6 | 13 => some .pb9 | _ => none
def Ty.ofCode (c : BitVec 4) : Option Ty :=
  match c.toNat with
  | 0 => some (.int .i8) | 1 => some (.int .i16) | 2 => some (.int .i32) | 3 => some (.int .i64)
  | 4 => some (.int .n8) | 5 => some (.int .n16) | 6 => some (.int .n32) | 7 => some (.int .n64)
  | 8 => some (.flt .f16) | 9 => some (.flt .f32) | 10 => some (.flt .f64)
  | 11 => some (.blk .pb4) | 12 => some (.blk .pb6) | 13 => some (.blk .pb9)
  | _ => none
def Cond.ofCode (c : BitVec 4) : Option Cond :=
  match c.toNat with
  | 0 => some .eq | 1 => some .ne | 2 => some .lt | 3 => some .le | 4 => some .gt | 5 => some .ge
  | 6 => some .lo | 7 => some .ls | 8 => some .hi | 9 => some .hs
  | _ => none
def Rnd.ofCode (c : BitVec 3) : Option Rnd :=
  match c.toNat with
  | 0 => some .rn | 1 => some .rz | 2 => some .ru | 3 => some .rd | 4 => some .ra | _ => none
def Scope.ofCode (c : BitVec 3) : Option Scope :=
  match c.toNat with
  | 0 => some .crew | 1 => some .clus | 2 => some .die | 3 => some .dev | 4 => some .sys | _ => none
def Ord.ofCode (c : BitVec 2) : Ord :=
  match c.toNat with
  | 0 => .rlx | 1 => .acq | 2 => .rel | _ => .ar
def Level.ofCode (c : BitVec 3) : Option Level :=
  match c.toNat with
  | 0 => some .party | 1 => some .launch | 2 => some .graph | 3 => some .stage | 4 => some .job | _ => none
def Rop.ofCode (c : BitVec 3) : Option Rop :=
  match c.toNat with
  | 0 => some .add | 1 => some .min | 2 => some .max | 3 => some .and | 4 => some .or | 5 => some .xor
  | _ => none
def Aop.ofCode (c : BitVec 3) : Aop :=
  match c.toNat with
  | 0 => .red .add | 1 => .red .min | 2 => .red .max | 3 => .red .and | 4 => .red .or | 5 => .red .xor
  | 6 => .xchg | _ => .cas
def Width.ofCode (c : BitVec 3) : Option Width :=
  match c.toNat with
  | 0 => some .b | 1 => some .h | 2 => some .w | 3 => some .d | _ => none
def Shfl.ofCode (c : BitVec 2) : Shfl :=
  match c.toNat with
  | 0 => .idx | 1 => .xor | 2 => .up | _ => .dn
def SpecReg.ofCode (c : BitVec 5) : Option SpecReg :=
  match c.toNat with
  | 0x00 => some .lane | 0x01 => some .crew | 0x02 => some .party | 0x03 => some .px | 0x04 => some .py
  | 0x05 => some .pz | 0x06 => some .core | 0x07 => some .clus | 0x08 => some .die | 0x09 => some .launch
  | 0x0A => some .cancel | 0x0B => some .batch | 0x0C => some .flags | 0x0D => some .tflags
  | 0x0E => some .frontier | 0x0F => some .spill | 0x10 => some .window | 0x11 => some .bkconf
  | 0x12 => some .clock | 0x13 => some .datum
  | _ => none

/-! ## Formats of R83 and R84 -/

/-- The fields that every word carries (R83). -/
structure Head where
  opc : BitVec 8
  stall : BitVec 4
  pg : BitVec 3
  pn : BitVec 1
  deriving DecidableEq, Repr

structure FV where
  vd : BitVec 11
  va : BitVec 11
  vb : BitVec 11
  sub : BitVec 7
  md : BitVec 8
  deriving DecidableEq, Repr
structure FW where
  vd : BitVec 11
  va : BitVec 11
  vb : BitVec 11
  vc : BitVec 11
  md : BitVec 4
  deriving DecidableEq, Repr
structure FVI where
  vd : BitVec 11
  va : BitVec 11
  sub : BitVec 6
  imm : BitVec 20
  deriving DecidableEq, Repr
structure FVS where
  vd : BitVec 11
  va : BitVec 11
  sb : BitVec 7
  sub : BitVec 7
  md : BitVec 12
  deriving DecidableEq, Repr
structure FS where
  sd : BitVec 7
  sa : BitVec 7
  sb : BitVec 7
  sub : BitVec 7
  imm : BitVec 20
  deriving DecidableEq, Repr
structure FSI where
  sd : BitVec 7
  sa : BitVec 7
  sub : BitVec 2
  imm : BitVec 32
  deriving DecidableEq, Repr
structure FM where
  vds : BitVec 11
  sbase : BitVec 7
  vidx : BitVec 11
  width : BitVec 3
  scope : BitVec 3
  ord : BitVec 2
  ofs : BitVec 11
  deriving DecidableEq, Repr
structure FB where
  sa : BitVec 7
  sb : BitVec 7
  cond : BitVec 4
  disp : BitVec 30
  deriving DecidableEq, Repr
structure FX where
  td : BitVec 4
  ta : BitVec 4
  tb : BitVec 4
  acc : BitVec 8
  sa : BitVec 7
  sb : BitVec 7
  sub : BitVec 6
  md : BitVec 8
  deriving DecidableEq, Repr
structure FQ where
  sd : BitVec 7
  sa : BitVec 7
  sb : BitVec 7
  vx : BitVec 11
  sub : BitVec 6
  imm : BitVec 10
  deriving DecidableEq, Repr

def Head.pack (h : Head) : BitVec 16 := h.opc ++ h.stall ++ h.pg ++ h.pn
def FV.pack (f : FV) : BitVec 48 := f.vd ++ f.va ++ f.vb ++ f.sub ++ f.md
def FW.pack (f : FW) : BitVec 48 := f.vd ++ f.va ++ f.vb ++ f.vc ++ f.md
def FVI.pack (f : FVI) : BitVec 48 := f.vd ++ f.va ++ f.sub ++ f.imm
def FVS.pack (f : FVS) : BitVec 48 := f.vd ++ f.va ++ f.sb ++ f.sub ++ f.md
def FS.pack (f : FS) : BitVec 48 := f.sd ++ f.sa ++ f.sb ++ f.sub ++ f.imm
def FSI.pack (f : FSI) : BitVec 48 := f.sd ++ f.sa ++ f.sub ++ f.imm
def FM.pack (f : FM) : BitVec 48 := f.vds ++ f.sbase ++ f.vidx ++ f.width ++ f.scope ++ f.ord ++ f.ofs
def FB.pack (f : FB) : BitVec 48 := f.sa ++ f.sb ++ f.cond ++ f.disp
def FX.pack (f : FX) : BitVec 48 := f.td ++ f.ta ++ f.tb ++ f.acc ++ f.sa ++ f.sb ++ f.sub ++ f.md
def FQ.pack (f : FQ) : BitVec 48 := f.sd ++ f.sa ++ f.sb ++ f.vx ++ f.sub ++ f.imm

def Head.unpack (b : BitVec 16) : Head :=
  ⟨b.extractLsb' 8 8, b.extractLsb' 4 4, b.extractLsb' 1 3, b.extractLsb' 0 1⟩
def FV.unpack (b : BitVec 48) : FV :=
  ⟨b.extractLsb' 37 11, b.extractLsb' 26 11, b.extractLsb' 15 11, b.extractLsb' 8 7, b.extractLsb' 0 8⟩
def FW.unpack (b : BitVec 48) : FW :=
  ⟨b.extractLsb' 37 11, b.extractLsb' 26 11, b.extractLsb' 15 11, b.extractLsb' 4 11, b.extractLsb' 0 4⟩
def FVI.unpack (b : BitVec 48) : FVI :=
  ⟨b.extractLsb' 37 11, b.extractLsb' 26 11, b.extractLsb' 20 6, b.extractLsb' 0 20⟩
def FVS.unpack (b : BitVec 48) : FVS :=
  ⟨b.extractLsb' 37 11, b.extractLsb' 26 11, b.extractLsb' 19 7, b.extractLsb' 12 7, b.extractLsb' 0 12⟩
def FS.unpack (b : BitVec 48) : FS :=
  ⟨b.extractLsb' 41 7, b.extractLsb' 34 7, b.extractLsb' 27 7, b.extractLsb' 20 7, b.extractLsb' 0 20⟩
def FSI.unpack (b : BitVec 48) : FSI :=
  ⟨b.extractLsb' 41 7, b.extractLsb' 34 7, b.extractLsb' 32 2, b.extractLsb' 0 32⟩
def FM.unpack (b : BitVec 48) : FM :=
  ⟨b.extractLsb' 37 11, b.extractLsb' 30 7, b.extractLsb' 19 11, b.extractLsb' 16 3, b.extractLsb' 13 3,
   b.extractLsb' 11 2, b.extractLsb' 0 11⟩
def FB.unpack (b : BitVec 48) : FB :=
  ⟨b.extractLsb' 41 7, b.extractLsb' 34 7, b.extractLsb' 30 4, b.extractLsb' 0 30⟩
def FX.unpack (b : BitVec 48) : FX :=
  ⟨b.extractLsb' 44 4, b.extractLsb' 40 4, b.extractLsb' 36 4, b.extractLsb' 28 8, b.extractLsb' 21 7,
   b.extractLsb' 14 7, b.extractLsb' 8 6, b.extractLsb' 0 8⟩
def FQ.unpack (b : BitVec 48) : FQ :=
  ⟨b.extractLsb' 41 7, b.extractLsb' 34 7, b.extractLsb' 27 7, b.extractLsb' 16 11, b.extractLsb' 10 6,
   b.extractLsb' 0 10⟩

/-- The head and the body of a word. -/
def wordOf (h : Head) (b : BitVec 48) : W64 := h.pack ++ b
def headOf (w : W64) : Head := Head.unpack (w.extractLsb' 48 16)
def bodyOf (w : W64) : BitVec 48 := w.extractLsb' 0 48

/-! ## The decoder

Each decoder answers an instruction or the kind of R103. The kinds are tried in rising order (R105): 1 opcode,
2 selector, 3 modifier, 4 field, 5 register. -/

abbrev Dec := Except Nat Instr

/-- Kinds 3 to 5, from the instruction the fields stand for (none: a modifier code that is not assigned) and
whether every unused field holds what it must. -/
def fin (cand : Option Instr) (unused : Bool) : Dec :=
  match cand with
  | none => .error 3
  | some i =>
    if !modOk i then .error 3
    else if !(unused && fieldOk i) then .error 4
    else if !regOk i then .error 5
    else .ok i

/-- Kind 2 before the others. -/
def sel (ok : Bool) (cand : Option Instr) (unused : Bool) : Dec :=
  if !ok then .error 2 else fin cand unused

/-- PG and PN of a word whose PG column reads 0 (R83). -/
def Head.zero (h : Head) : Bool := h.pg == 0 && h.pn == 0
/-- The governing fields of a word whose PG column reads L (R83). -/
def Head.hd (h : Head) : Hd := ⟨h.stall, h.pg, h.pn == 1⟩

/-- Layout IT (R91): the type code and the I bit. -/
def itOk (sub : BitVec 7) : Bool := sub.extractLsb' 4 3 == 0
def itTy (sub : BitVec 7) : Option ITy := ITy.ofCode (0#1 ++ sub.extractLsb' 1 3)
def itI (sub : BitVec 7) : Bool := sub.getLsbD 0

/-- The second operand of layouts IT and CT and its unused field. -/
def op2Of (i : Bool) (f : FS) : Op2 := if i then .imm f.imm else .reg f.sb
def op2Unused (i : Bool) (f : FS) : Bool := if i then f.sb == 0 else f.imm == 0

/-- The fifteen arithmetic opcodes of R126. -/
def decArith (c : BitVec 4 → ITy → SReg → SReg → Op2 → Instr) (h : Head) (b : BitVec 48) : Dec :=
  let f := FS.unpack b
  let i := itI f.sub
  sel (itOk f.sub) ((itTy f.sub).map fun t => c h.stall t f.sd f.sa (op2Of i f)) (h.zero && op2Unused i f)

def decScmp (h : Head) (b : BitVec 48) : Dec :=
  let f := FS.unpack b
  let i := f.sub.getLsbD 4
  match Cond.ofCode (f.sub.extractLsb' 0 4) with
  | none => .error 2
  | some c =>
    sel (f.sub.extractLsb' 5 2 == 0) (some (.scmp h.stall c f.sd f.sa (op2Of i f))) (h.zero && op2Unused i f)

def decSsel (h : Head) (b : BitVec 48) : Dec :=
  let f := FS.unpack b
  sel (f.sub == 0) (some (.ssel h.stall f.sd (f.imm.extractLsb' 0 7) f.sa f.sb))
    (h.zero && f.imm.extractLsb' 7 13 == 0)

def decSli (h : Head) (b : BitVec 48) : Dec :=
  let f := FSI.unpack b
  sel (f.sub == 0 || f.sub == 1) (some (.sli h.stall (f.sub == 1) f.sd f.imm)) (h.zero && f.sa == 0)

def decSlih (h : Head) (b : BitVec 48) : Dec :=
  let f := FSI.unpack b
  sel (f.sub == 0) (some (.slih h.stall f.sd f.sa f.imm)) h.zero

def decSmov (h : Head) (b : BitVec 48) : Dec :=
  let f := FS.unpack b
  sel (f.sub == 0) (some (.smov h.stall f.sd f.sa)) (h.zero && f.sb == 0 && f.imm == 0)

/-- Layout IT with I = 0 and one source (R131, R133). -/
def decUnary (c : BitVec 4 → ITy → SReg → SReg → Instr) (h : Head) (b : BitVec 48) : Dec :=
  let f := FS.unpack b
  sel (itOk f.sub && !itI f.sub) ((itTy f.sub).map fun t => c h.stall t f.sd f.sa)
    (h.zero && f.sb == 0 && f.imm == 0)

def decSbfx (h : Head) (b : BitVec 48) : Dec :=
  let f := FS.unpack b
  sel (itOk f.sub && !itI f.sub)
    (match itTy f.sub with
      | some .i64 => some (.sbfx h.stall true f.sd f.sa f.sb)
      | some .n64 => some (.sbfx h.stall false f.sd f.sa f.sb)
      | _ => none)
    (h.zero && f.imm == 0)

def decSbfi (h : Head) (b : BitVec 48) : Dec :=
  let f := FS.unpack b
  sel (f.sub == 0) (some (.sbfi h.stall f.sd f.sa f.sb)) (h.zero && f.imm == 0)

/-- The order and scope of a load or store: `none` for .rlx with SCOPE 0 (R134, R179). -/
def ordScope (want : BitVec 2) (ord : BitVec 2) (scope : BitVec 3) : Option (Option Scope) :=
  if ord == 0 then (if scope == 0 then some none else none)
  else if ord == want then (Scope.ofCode scope).map some
  else none

def decSld (h : Head) (b : BitVec 48) : Dec :=
  let f := FM.unpack b
  fin (do let w ← Width.ofCode f.width
          let o ← ordScope 1 f.ord f.scope
          pure (.sld h.stall w o (f.vds.extractLsb' 0 7) f.sbase f.ofs))
    (h.zero && f.vds.extractLsb' 7 4 == 0 && f.vidx == 0x7FF)

def decSst (h : Head) (b : BitVec 48) : Dec :=
  let f := FM.unpack b
  fin (do let w ← Width.ofCode f.width
          let o ← ordScope 2 f.ord f.scope
          pure (.sst h.stall w o (f.vds.extractLsb' 0 7) f.sbase f.ofs))
    (h.zero && f.vds.extractLsb' 7 4 == 0 && f.vidx == 0x7FF)

def decSprf (h : Head) (b : BitVec 48) : Dec :=
  let f := FM.unpack b
  fin (some (.sprf h.stall f.sbase f.ofs))
    (h.zero && f.vds == 0 && f.vidx == 0x7FF && f.width == 0 && f.scope == 0 && f.ord == 0)

/-- Opcode 0x20 (R92, R139). -/
def decBr (h : Head) (b : BitVec 48) : Dec :=
  let f := FB.unpack b
  if f.cond == 0 then fin (some (.br h.stall f.disp)) (h.zero && f.sa == 0 && f.sb == 0)
  else if f.cond == 11 then fin (some (.brz h.stall f.sa f.disp)) (h.zero && f.sb == 0)
  else if f.cond == 12 then fin (some (.brnz h.stall f.sa f.disp)) (h.zero && f.sb == 0)
  else match Cond.ofCode (f.cond - 1) with
    | none => .error 2
    | some c => fin (some (.brc h.stall c f.sa f.sb f.disp)) h.zero

def decBrx (h : Head) (b : BitVec 48) : Dec :=
  let f := FS.unpack b
  sel (f.sub == 0) (some (.brx h.stall f.sa f.imm)) (h.zero && f.sd == 0 && f.sb == 0)

def decCall (h : Head) (b : BitVec 48) : Dec :=
  let f := FB.unpack b
  let n : BitVec 14 := f.sa ++ f.sb
  sel (f.cond == 0) (some (.call h.stall (n.extractLsb' 0 11) f.disp)) (h.zero && n.extractLsb' 11 3 == 0)

def decCallx (h : Head) (b : BitVec 48) : Dec :=
  let f := FS.unpack b
  sel (f.sub == 0) (some (.callx h.stall (f.imm.extractLsb' 0 11) f.sa))
    (h.zero && f.sd == 0 && f.sb == 0 && f.imm.extractLsb' 11 9 == 0)

def fsZero (f : FS) : Bool := f.sd == 0 && f.sa == 0 && f.sb == 0 && f.imm == 0

def decPlain (c : BitVec 4 → Instr) (h : Head) (b : BitVec 48) : Dec :=
  let f := FS.unpack b
  sel (f.sub == 0) (some (c h.stall)) (h.zero && fsZero f)

def decExit (h : Head) (b : BitVec 48) : Dec :=
  let f := FS.unpack b
  sel (f.sub == 0) (some (.exit h.hd)) (fsZero f)

def decVbr (h : Head) (b : BitVec 48) : Dec :=
  let f := FB.unpack b
  sel (f.cond == 0) (some (.vbr h.hd f.disp)) (f.sa == 0 && f.sb == 0)

def decVbrx (h : Head) (b : BitVec 48) : Dec :=
  let f := FV.unpack b
  sel (f.sub == 0) (some (.vbrx h.hd f.va)) (f.vd == 0 && f.vb == 0 && f.md == 0)

def decPsum (c : BitVec 4 → SReg → PReg → Instr) (h : Head) (b : BitVec 48) : Dec :=
  let f := FS.unpack b
  sel (f.sub.extractLsb' 3 4 == 0) (some (c h.stall f.sd (f.sub.extractLsb' 0 3)))
    (h.zero && f.sa == 0 && f.sb == 0 && f.imm == 0)

/-- Opcodes 0x01 to 0x2D (R92). -/
def decScalar (opc : Nat) (h : Head) (b : BitVec 48) : Dec :=
  match opc with
  | 0x01 => decArith .sadd h b
  | 0x02 => decArith .ssub h b
  | 0x03 => decArith .smul h b
  | 0x04 => decArith .smulh h b
  | 0x05 => decArith .sdiv h b
  | 0x06 => decArith .srem h b
  | 0x07 => decArith .sand h b
  | 0x08 => decArith .sor h b
  | 0x09 => decArith .sxor h b
  | 0x0A => decArith .sandn h b
  | 0x0B => decArith .sshl h b
  | 0x0C => decArith .sshr h b
  | 0x0D => decArith .ssra h b
  | 0x0E => decArith .smin h b
  | 0x0F => decArith .smax h b
  | 0x10 => decScmp h b
  | 0x11 => decSsel h b
  | 0x12 => decSli h b
  | 0x13 => decSlih h b
  | 0x14 => decSmov h b
  | 0x15 => decUnary .sclz h b
  | 0x16 => decUnary .spopc h b
  | 0x17 => decSbfx h b
  | 0x18 => decSbfi h b
  | 0x19 => decUnary .sext h b
  | 0x1A => decSld h b
  | 0x1B => decSst h b
  | 0x1C => decSprf h b
  | _ => .error 1

def decControl (opc : Nat) (h : Head) (b : BitVec 48) : Dec :=
  match opc with
  | 0x20 => decBr h b
  | 0x21 => decBrx h b
  | 0x22 => decCall h b
  | 0x23 => decCallx h b
  | 0x24 => decPlain .ret h b
  | 0x25 => decExit h b
  | 0x26 => decPlain .yield h b
  | 0x27 => decPlain .nop h b
  | 0x28 => decVbr h b
  | 0x29 => decVbrx h b
  | 0x2A => decPsum .pany h b
  | 0x2B => decPsum .pall h b
  | 0x2C => decPsum .pcnt h b
  | 0x2D => decPsum .pffs h b
  | _ => .error 1

/-! ### Vector integer (R93, R153 to R157) -/

/-- Layout T (R91). -/
def tOk (sub : BitVec 7) : Bool := sub.extractLsb' 4 3 == 0
def tCode (sub : BitVec 7) : BitVec 4 := sub.extractLsb' 0 4

/-- `op.type.sat vd, va, vb` (R153 with SAT in MOD 0). -/
def decVSat (c : Hd → ITy → Bool → VReg → VReg → VReg → Instr) (h : Head) (b : BitVec 48) : Dec :=
  let f := FV.unpack b
  sel (tOk f.sub) ((ITy.ofCode (tCode f.sub)).map fun t => c h.hd t (f.md.getLsbD 0) f.vd f.va f.vb)
    (f.md.extractLsb' 1 7 == 0)

def decV3 (c : Hd → ITy → VReg → VReg → VReg → Instr) (h : Head) (b : BitVec 48) : Dec :=
  let f := FV.unpack b
  sel (tOk f.sub) ((ITy.ofCode (tCode f.sub)).map fun t => c h.hd t f.vd f.va f.vb) (f.md == 0)

def decV2 (c : Hd → ITy → VReg → VReg → Instr) (h : Head) (b : BitVec 48) : Dec :=
  let f := FV.unpack b
  sel (tOk f.sub) ((ITy.ofCode (tCode f.sub)).map fun t => c h.hd t f.vd f.va) (f.md == 0 && f.vb == 0)

def decVabs (h : Head) (b : BitVec 48) : Dec :=
  let f := FV.unpack b
  sel (tOk f.sub) ((ITy.ofCode (tCode f.sub)).map fun t => .vabs h.hd t (f.md.getLsbD 0) f.vd f.va)
    (f.md.extractLsb' 1 7 == 0 && f.vb == 0)

def decVmad (h : Head) (b : BitVec 48) : Dec :=
  let f := FW.unpack b
  fin ((ITy.ofCode f.md).map fun t => .vmad h.hd t f.vd f.va f.vb f.vc) true

def decVbfx (h : Head) (b : BitVec 48) : Dec :=
  let f := FV.unpack b
  sel (tOk f.sub)
    (match ITy.ofCode (tCode f.sub) with
      | some .i32 => some (.vbfx h.hd true f.vd f.va f.vb)
      | some .n32 => some (.vbfx h.hd false f.vd f.va f.vb)
      | _ => none)
    (f.md == 0)

def decVbfi (h : Head) (b : BitVec 48) : Dec :=
  let f := FW.unpack b
  fin (some (.vbfi h.hd f.vd f.va f.vb f.vc)) (f.md == 0)

def decVsel (h : Head) (b : BitVec 48) : Dec :=
  let f := FV.unpack b
  sel (tOk f.sub) ((Ty.ofCode (tCode f.sub)).map fun t => .vsel h.hd t (f.md.extractLsb' 0 3) f.vd f.va f.vb)
    (f.md.extractLsb' 3 5 == 0)

def decVmov (h : Head) (b : BitVec 48) : Dec :=
  let f := FV.unpack b
  sel (tOk f.sub) ((Ty.ofCode (tCode f.sub)).map fun t => .vmov h.hd t f.vd f.va) (f.md == 0 && f.vb == 0)

def decVli (h : Head) (b : BitVec 48) : Dec :=
  let f := FVI.unpack b
  sel (f.sub.extractLsb' 4 2 == 0) ((Ty.ofCode (f.sub.extractLsb' 0 4)).map fun t => .vli h.hd t f.vd f.imm)
    (f.va == 0)

def decVcmp (h : Head) (b : BitVec 48) : Dec :=
  let f := FV.unpack b
  match Cond.ofCode (f.md.extractLsb' 0 4) with
  | none => .error 2
  | some c =>
    sel (tOk f.sub)
      ((ITy.ofCode (tCode f.sub)).map fun t => .vcmp h.hd c t (f.vd.extractLsb' 0 3) f.va f.vb)
      (f.md.extractLsb' 4 4 == 0 && f.vd.extractLsb' 3 8 == 0)

def decVclmul (c : Hd → VReg → VReg → VReg → Instr) (h : Head) (b : BitVec 48) : Dec :=
  let f := FV.unpack b
  sel (tOk f.sub)
    (match ITy.ofCode (tCode f.sub) with
      | some .n32 => some (c h.hd f.vd f.va f.vb)
      | _ => none)
    (f.md == 0)

def decVaddc (h : Head) (b : BitVec 48) : Dec :=
  let f := FV.unpack b
  sel (tOk f.sub)
    (match ITy.ofCode (tCode f.sub) with
      | some .n32 => some (.vaddc h.hd false (f.md.extractLsb' 0 3) f.vd f.va f.vb)
      | some .n64 => some (.vaddc h.hd true (f.md.extractLsb' 0 3) f.vd f.va f.vb)
      | _ => none)
    (f.md.extractLsb' 3 5 == 0)

def decVI (c : Hd → ITy → VReg → VReg → BitVec 20 → Instr) (h : Head) (b : BitVec 48) : Dec :=
  let f := FVI.unpack b
  sel (f.sub.extractLsb' 4 2 == 0)
    ((ITy.ofCode (f.sub.extractLsb' 0 4)).map fun t => c h.hd t f.vd f.va f.imm) true

def decVint1 (opc : Nat) (h : Head) (b : BitVec 48) : Dec :=
  match opc with
  | 0x30 => decVSat .vadd h b
  | 0x31 => decVSat .vsub h b
  | 0x32 => decVSat .vmul h b
  | 0x33 => decV3 .vmulh h b
  | 0x34 => decVmad h b
  | 0x35 => decVSat .vdiv h b
  | 0x36 => decV3 .vrem h b
  | 0x37 => decV3 .vand h b
  | 0x38 => decV3 .vor h b
  | 0x39 => decV3 .vxor h b
  | 0x3A => decV3 .vandn h b
  | 0x3B => decV3 .vshl h b
  | 0x3C => decV3 .vshr h b
  | 0x3D => decV3 .vsra h b
  | 0x3E => decV3 .vrot h b
  | 0x3F => decV3 .vmin h b
  | _ => .error 1

def decVint2 (opc : Nat) (h : Head) (b : BitVec 48) : Dec :=
  match opc with
  | 0x40 => decV3 .vmax h b
  | 0x41 => decVabs h b
  | 0x42 => decV2 .vclz h b
  | 0x43 => decV2 .vpopc h b
  | 0x44 => decV2 .vbrev h b
  | 0x45 => decVbfx h b
  | 0x46 => decVbfi h b
  | 0x47 => decVsel h b
  | 0x48 => decVmov h b
  | 0x49 => decVli h b
  | 0x4A => decVcmp h b
  | 0x4B => decVclmul .vclmul h b
  | 0x4C => decVclmul .vclmulh h b
  | 0x4D => decVaddc h b
  | 0x50 => decVI .vaddImm h b
  | 0x51 => decVI .vandImm h b
  | 0x52 => decVI .vorImm h b
  | 0x53 => decVI .vxorImm h b
  | 0x54 => decVI .vshlImm h b
  | 0x55 => decVI .vshrImm h b
  | 0x56 => decVI .vsraImm h b
  | _ => .error 1

/-! ### Vector floating-point (R94, R159 to R165) -/

/-- Layout RT (R91). -/
def rtRnd (sub : BitVec 7) : Option Rnd := Rnd.ofCode (sub.extractLsb' 4 3)

def decVF3 (c : Hd → Rnd → FTy → VReg → VReg → VReg → Instr) (h : Head) (b : BitVec 48) : Dec :=
  let f := FV.unpack b
  fin (do let r ← rtRnd f.sub; let t ← FTy.ofCode (tCode f.sub); pure (c h.hd r t f.vd f.va f.vb)) (f.md == 0)

def decVF2 (c : Hd → Rnd → FTy → VReg → VReg → Instr) (h : Head) (b : BitVec 48) : Dec :=
  let f := FV.unpack b
  fin (do let r ← rtRnd f.sub; let t ← FTy.ofCode (tCode f.sub); pure (c h.hd r t f.vd f.va))
    (f.md == 0 && f.vb == 0)

/-- Layout RT with RND = 0 on an instruction that does not round. -/
def rtPlain (sub : BitVec 7) : Option FTy :=
  if sub.extractLsb' 4 3 == 0 then FTy.ofCode (tCode sub) else none

def decVFp3 (c : Hd → FTy → VReg → VReg → VReg → Instr) (h : Head) (b : BitVec 48) : Dec :=
  let f := FV.unpack b
  fin ((rtPlain f.sub).map fun t => c h.hd t f.vd f.va f.vb) (f.md == 0)

def decVFp2 (c : Hd → FTy → VReg → VReg → Instr) (h : Head) (b : BitVec 48) : Dec :=
  let f := FV.unpack b
  fin ((rtPlain f.sub).map fun t => c h.hd t f.vd f.va) (f.md == 0 && f.vb == 0)

def decVfma (c : Hd → Rnd → VReg → VReg → VReg → VReg → Instr) (h : Head) (b : BitVec 48) : Dec :=
  let f := FW.unpack b
  fin ((Rnd.ofCode (f.md.extractLsb' 0 3)).map fun r => c h.hd r f.vd f.va f.vb f.vc) (f.md.extractLsb' 3 1 == 0)

def decVfcmp (h : Head) (b : BitVec 48) : Dec :=
  let f := FV.unpack b
  match Cond.ofCode (f.md.extractLsb' 0 4) with
  | none => .error 2
  | some c =>
    fin ((rtPlain f.sub).map fun t => .vfcmp h.hd c t (f.vd.extractLsb' 0 3) f.va f.vb)
      (f.md.extractLsb' 4 4 == 0 && f.vd.extractLsb' 3 8 == 0)

def decVfdot (h : Head) (b : BitVec 48) : Dec :=
  let f := FV.unpack b
  fin (do let r ← rtRnd f.sub
          let t ← FTy.ofCode (tCode f.sub)
          if t == .f16 then pure (.vfdot h.hd r f.vd f.va f.vb) else none)
    (f.md == 0)

def decVcvt (h : Head) (b : BitVec 48) : Dec :=
  let f := FV.unpack b
  fin (do let r ← rtRnd f.sub
          let dst ← Ty.ofCode (tCode f.sub)
          let src ← Ty.ofCode (f.md.extractLsb' 0 4)
          pure (.vcvt h.hd r (f.md.getLsbD 4) dst src f.vd f.va))
    (f.md.extractLsb' 5 3 == 0 && f.vb == 0)

def decVpack (c : Hd → PTy → VReg → VReg → Instr) (h : Head) (b : BitVec 48) : Dec :=
  let f := FV.unpack b
  sel (tOk f.sub) ((PTy.ofCode (tCode f.sub)).map fun t => c h.hd t f.vd f.va) (f.md == 0 && f.vb == 0)

def decVfloat (opc : Nat) (h : Head) (b : BitVec 48) : Dec :=
  match opc with
  | 0x60 => decVF3 .vfadd h b
  | 0x61 => decVF3 .vfsub h b
  | 0x62 => decVF3 .vfmul h b
  | 0x63 => decVfma .vfmaF16 h b
  | 0x64 => decVfma .vfmaF32 h b
  | 0x65 => decVfma .vfmaF64 h b
  | 0x66 => decVF3 .vfdiv h b
  | 0x67 => decVF2 .vfsqrt h b
  | 0x68 => decVFp2 .vfrcp h b
  | 0x69 => decVFp2 .vfrsq h b
  | 0x6A => decVFp2 .vfexp2 h b
  | 0x6B => decVFp2 .vflog2 h b
  | 0x6C => decVFp2 .vfsin h b
  | 0x6D => decVFp2 .vfcos h b
  | 0x6E => decVFp3 .vfmin h b
  | 0x6F => decVFp3 .vfmax h b
  | 0x70 => decVfcmp h b
  | 0x71 => decVFp2 .vfcls h b
  | 0x72 => decVF2 .vfrnd h b
  | 0x73 => decVfdot h b
  | 0x74 => decVcvt h b
  | 0x75 => decVpack .vpack h b
  | 0x76 => decVpack .vunpk h b
  | _ => .error 1

/-! ### Cross-lane, predicates, view masks (R95) -/

def decVshfl (h : Head) (b : BitVec 48) : Dec :=
  let f := FV.unpack b
  sel (f.sub.extractLsb' 2 5 == 0) (some (.vshfl h.hd (Shfl.ofCode (f.sub.extractLsb' 0 2)) f.vd f.va f.vb))
    (f.md == 0)

def decVbcast (h : Head) (b : BitVec 48) : Dec :=
  let f := FV.unpack b
  sel (f.sub == 0) (some (.vbcast h.hd f.vd f.va (f.md.extractLsb' 0 5))) (f.vb == 0 && f.md.extractLsb' 5 3 == 0)

def decVred (c : Hd → Rop → Ty → Bool → VReg → VReg → Instr) (h : Head) (b : BitVec 48) : Dec :=
  let f := FV.unpack b
  fin (do let op ← Rop.ofCode (f.sub.extractLsb' 4 3)
          let t ← Ty.ofCode (tCode f.sub)
          pure (c h.hd op t (f.md.getLsbD 0) f.vd f.va))
    (f.vb == 0 && f.md.extractLsb' 1 7 == 0)

def decVext (h : Head) (b : BitVec 48) : Dec :=
  let f := FVS.unpack b
  sel (f.sub == 0) (some (.vext h.stall (f.md.getLsbD 0) (f.vd.extractLsb' 0 7) f.va f.sb))
    (h.zero && f.md.extractLsb' 1 11 == 0 && f.vd.extractLsb' 7 4 == 0)

def decVins (h : Head) (b : BitVec 48) : Dec :=
  let f := FVS.unpack b
  sel (f.sub == 0) (some (.vins h.stall (f.md.getLsbD 0) f.vd (f.va.extractLsb' 0 7) f.sb))
    (h.zero && f.md.extractLsb' 1 11 == 0 && f.va.extractLsb' 7 4 == 0)

def decVcompr (h : Head) (b : BitVec 48) : Dec :=
  let f := FV.unpack b
  sel (f.sub == 0) (some (.vcompr h.hd f.vd f.va)) (f.vb == 0 && f.md == 0)

def decPlog (h : Head) (b : BitVec 48) : Dec :=
  let f := FV.unpack b
  let pd := f.vd.extractLsb' 0 3
  let pa := f.va.extractLsb' 0 3
  let pb := f.vb.extractLsb' 0 3
  let up := f.md == 0 && f.vd.extractLsb' 3 8 == 0 && f.va.extractLsb' 3 8 == 0
  match f.sub.toNat with
  | 0 => fin (some (.pand h.hd pd pa pb)) (up && f.vb.extractLsb' 3 8 == 0)
  | 1 => fin (some (.por h.hd pd pa pb)) (up && f.vb.extractLsb' 3 8 == 0)
  | 2 => fin (some (.pxor h.hd pd pa pb)) (up && f.vb.extractLsb' 3 8 == 0)
  | 3 => fin (some (.pnot h.hd pd pa)) (up && f.vb == 0)
  | 4 => fin (some (.pmov h.hd pd pa)) (up && f.vb == 0)
  | _ => .error 2

def decPset (h : Head) (b : BitVec 48) : Dec :=
  let f := FVS.unpack b
  sel (f.sub == 0) (some (.pset h.hd (f.vd.extractLsb' 0 3) f.sb))
    (f.md == 0 && f.va == 0 && f.vd.extractLsb' 3 8 == 0)

def decPget (h : Head) (b : BitVec 48) : Dec :=
  let f := FVS.unpack b
  sel (f.sub == 0) (some (.pget h.stall (f.vd.extractLsb' 0 7) (f.va.extractLsb' 0 3)))
    (h.zero && f.md == 0 && f.sb == 0 && f.vd.extractLsb' 7 4 == 0 && f.va.extractLsb' 3 8 == 0)

def decKone (c : BitVec 4 → SReg → BitVec 2 → Instr) (h : Head) (b : BitVec 48) : Dec :=
  let f := FS.unpack b
  sel (f.sub.extractLsb' 2 5 == 0) (some (c h.stall f.sd (f.sub.extractLsb' 0 2)))
    (h.zero && f.sa == 0 && f.sb == 0 && f.imm == 0)

def decKbit (h : Head) (b : BitVec 48) : Dec :=
  let f := FS.unpack b
  sel (f.sub.extractLsb' 2 5 == 0) (some (.kbit h.stall f.sd (f.sub.extractLsb' 0 2) f.sa))
    (h.zero && f.sb == 0 && f.imm == 0)

def decKmv (h : Head) (b : BitVec 48) : Dec :=
  let f := FV.unpack b
  let k := f.sub.extractLsb' 1 2
  if f.sub.extractLsb' 3 4 != 0 then .error 2
  else if f.sub.getLsbD 0 then
    fin (some (.kmvToMask h.stall k f.va)) (h.zero && f.vd == 0 && f.vb == 0 && f.md == 0)
  else
    fin (some (.kmvToVector h.stall f.vd k)) (h.zero && f.va == 0 && f.vb == 0 && f.md == 0)

def decCross (opc : Nat) (h : Head) (b : BitVec 48) : Dec :=
  match opc with
  | 0x90 => decVshfl h b
  | 0x91 => decVbcast h b
  | 0x92 => decVred .vred h b
  | 0x93 => decVred .vscan h b
  | 0x94 => decVext h b
  | 0x95 => decVins h b
  | 0x96 => decVcompr h b
  | 0x97 => decPlog h b
  | 0x98 => decPset h b
  | 0x99 => decPget h b
  | 0x9A => decKone .kcnt h b
  | 0x9B => decKone .kffs h b
  | 0x9C => decKbit h b
  | 0x9D => decKmv h b
  | _ => .error 1

/-! ### Memory, atomics and fences (R96) -/

def idxOf (v : BitVec 11) : Option VReg := if v == 0x7FF then none else some v

def decVmem (want : BitVec 2) (c : Hd → Width → Option Scope → VReg → SReg → Option VReg → BitVec 11 → Instr)
    (h : Head) (b : BitVec 48) : Dec :=
  let f := FM.unpack b
  fin (do let w ← Width.ofCode f.width
          let o ← ordScope want f.ord f.scope
          pure (c h.hd w o f.vds f.sbase (idxOf f.vidx) f.ofs)) true

def decVptr (want : BitVec 2) (c : Hd → Width → Option Scope → VReg → SReg → VReg → BitVec 11 → Instr)
    (h : Head) (b : BitVec 48) : Dec :=
  let f := FM.unpack b
  fin (do let w ← Width.ofCode f.width
          let o ← ordScope want f.ord f.scope
          pure (c h.hd w o f.vds f.sbase f.vidx f.ofs)) true

/-- The plate handle in bits 14:11 of a plate form (R183). -/
def plateOf (f : FM) : TReg := f.scope.extractLsb' 0 2 ++ f.ord
def plateBit (f : FM) : Bool := f.scope.getLsbD 2

def decVplate (c : Hd → Width → VReg → TReg → SReg → Option VReg → BitVec 11 → Instr) (h : Head) (b : BitVec 48) :
    Dec :=
  let f := FM.unpack b
  fin ((Width.ofCode f.width).map fun w => c h.hd w f.vds (plateOf f) f.sbase (idxOf f.vidx) f.ofs) (!plateBit f)

def decVprf (h : Head) (b : BitVec 48) : Dec :=
  let f := FM.unpack b
  fin ((Width.ofCode f.width).map fun w => .vprf h.hd w f.sbase (idxOf f.vidx) f.ofs)
    (f.vds == 0 && f.scope == 0 && f.ord == 0)

def decSldp (h : Head) (b : BitVec 48) : Dec :=
  let f := FM.unpack b
  fin ((Width.ofCode f.width).map fun w => .sldp h.stall w (f.vds.extractLsb' 0 7) (plateOf f) f.sbase f.ofs)
    (h.zero && !plateBit f && f.vidx == 0x7FF && f.vds.extractLsb' 7 4 == 0)

/-- The shared fields of the atomics (R187). -/
def atAop (f : FV) : BitVec 3 := f.sub.extractLsb' 4 3
def atTy (f : FV) : Option Ty := Ty.ofCode (tCode f.sub)
def atScope (f : FV) : Option Scope := Scope.ofCode (f.md.extractLsb' 5 3)
def atOrd (f : FV) : Ord := Ord.ofCode (f.md.extractLsb' 3 2)
def atSat (f : FV) : Bool := f.md.getLsbD 0
def atZero (f : FV) : Bool := f.md.extractLsb' 1 2 == 0

def decVatom (h : Head) (b : BitVec 48) : Dec :=
  let f := FV.unpack b
  fin (do let t ← atTy f
          let sc ← atScope f
          pure (.vatom h.hd (Aop.ofCode (atAop f)) t sc (atOrd f) (atSat f) f.vd (f.vb.extractLsb' 0 7) (idxOf f.va)))
    (atZero f && f.vb.extractLsb' 7 4 == 0)

def decSatom (h : Head) (b : BitVec 48) : Dec :=
  let f := FV.unpack b
  fin (do let t ← atTy f
          let sc ← atScope f
          pure (.satom h.stall (Aop.ofCode (atAop f)) t sc (atOrd f) (atSat f) (f.vd.extractLsb' 0 7)
            (f.va.extractLsb' 0 7) (f.vb.extractLsb' 0 7)))
    (h.zero && atZero f && f.vd.extractLsb' 7 4 == 0 && f.va.extractLsb' 7 4 == 0 && f.vb.extractLsb' 7 4 == 0)

def decVredm (h : Head) (b : BitVec 48) : Dec :=
  let f := FV.unpack b
  fin (do let op ← Rop.ofCode (atAop f)
          let t ← atTy f
          let sc ← atScope f
          let rel ← (match atOrd f with | .rlx => some false | .rel => some true | _ => none)
          pure (.vredm h.hd op t sc rel (atSat f) f.vd (f.vb.extractLsb' 0 7) (idxOf f.va)))
    (atZero f && f.vb.extractLsb' 7 4 == 0)

def decPatom (h : Head) (b : BitVec 48) : Dec :=
  let f := FV.unpack b
  fin (do let t ← atTy f
          let clus ← (match atScope f with | some .crew => some false | some .clus => some true | _ => none)
          pure (.patom h.hd (Aop.ofCode (atAop f)) t clus (atOrd f) (atSat f) f.vd (f.vb.extractLsb' 0 4) (idxOf f.va)))
    (atZero f && f.vb.extractLsb' 4 7 == 0)

def decFence (h : Head) (b : BitVec 48) : Dec :=
  let f := FS.unpack b
  let o := f.sub.extractLsb' 3 2
  sel (f.sub.extractLsb' 5 2 == 0 && o != 0)
    ((Scope.ofCode (f.sub.extractLsb' 0 3)).map fun sc => .fence h.stall (Ord.ofCode o) sc) (h.zero && fsZero f)

def decCache (c : BitVec 4 → Scope → SReg → BitVec 11 → Instr) (h : Head) (b : BitVec 48) : Dec :=
  let f := FM.unpack b
  fin ((Scope.ofCode f.scope).map fun sc => c h.stall sc f.sbase f.ofs)
    (h.zero && f.vds == 0 && f.vidx == 0x7FF && f.width == 0 && f.ord == 0)

def decMem (opc : Nat) (h : Head) (b : BitVec 48) : Dec :=
  match opc with
  | 0xA0 => decVmem 1 .vld h b
  | 0xA1 => decVmem 2 .vst h b
  | 0xA2 => decVptr 1 .vgth h b
  | 0xA3 => decVptr 2 .vsct h b
  | 0xA4 => decVplate .vldp h b
  | 0xA5 => decVplate .vstp h b
  | 0xA6 => decVprf h b
  | 0xA7 => decSldp h b
  | 0xA8 => decVatom h b
  | 0xA9 => decSatom h b
  | 0xAA => decVredm h b
  | 0xAB => decPatom h b
  | 0xAC => decFence h b
  | 0xAD => decCache .cflush h b
  | 0xAE => decCache .cinv h b
  | _ => .error 1

/-! ### Plates, matrix array and engines (R97) -/

def accOk (f : FX) : Bool := f.acc.extractLsb' 3 5 == 0
def accOf (f : FX) : AReg := f.acc.extractLsb' 0 3

/-- TB of `tres`: the issuing crew's own core or a core of the cluster (R201). -/
def tresCore (tb : BitVec 4) : Option (BitVec 2) := if tb == 0 then none else some (tb.extractLsb' 0 2)
def tresTbOk (tb : BitVec 4) : Bool := tb == 0 || tb.extractLsb' 2 2 == 1

def decTres (h : Head) (b : BitVec 48) : Dec :=
  let f := FX.unpack b
  let st := f.ta.getLsbD 0
  sel (f.sub == 0)
    (some (.tres h.stall f.td f.md (tresCore f.tb) (if st then some f.sa else none)))
    (h.zero && tresTbOk f.tb && f.ta.extractLsb' 1 3 == 0 && (st || f.sa == 0) && f.sb == 0 && f.acc == 0)

def decTrel (h : Head) (b : BitVec 48) : Dec :=
  let f := FX.unpack b
  sel (f.sub == 0) (some (.trel h.stall f.td))
    (h.zero && f.ta == 0 && f.tb == 0 && f.acc == 0 && f.sa == 0 && f.sb == 0 && f.md == 0)

def decTcfg (h : Head) (b : BitVec 48) : Dec :=
  let f := FX.unpack b
  if f.sub != 0 then .error 2
  else match f.md.toNat with
    | 0 => fin (some (.tcfgPlate h.stall f.td f.sa)) (h.zero && f.ta == 0 && f.tb == 0 && f.acc == 0 && f.sb == 0)
    | 1 => fin (some (.tcfgRegion h.stall (accOf f) f.sa))
        (h.zero && accOk f && f.td == 0 && f.ta == 0 && f.tb == 0 && f.sb == 0)
    | _ => .error 2

def decTrd (h : Head) (b : BitVec 48) : Dec :=
  let f := FX.unpack b
  sel (f.sub == 0) (some (.trd h.stall f.sa f.ta))
    (h.zero && f.td == 0 && f.tb == 0 && f.acc == 0 && f.sb == 0 && f.md == 0)

def decTstat (h : Head) (b : BitVec 48) : Dec :=
  let f := FX.unpack b
  sel (f.sub == 0) (some (.tstat h.stall f.sa f.sb))
    (h.zero && f.td == 0 && f.ta == 0 && f.tb == 0 && f.acc == 0 && f.md == 0)

def decMma (c : BitVec 4 → Ty → AReg → TReg → TReg → SReg → SReg → BitVec 8 → Instr) (h : Head) (b : BitVec 48) :
    Dec :=
  let f := FX.unpack b
  sel (f.sub.extractLsb' 4 2 == 0)
    ((Ty.ofCode (f.sub.extractLsb' 0 4)).map fun t => c h.stall t (accOf f) f.ta f.tb f.sa f.sb f.md)
    (h.zero && accOk f && f.td == 0)

def decMbatch (h : Head) (b : BitVec 48) : Dec :=
  let f := FS.unpack b
  sel (f.sub == 0) (some (.mbatch h.stall f.sd)) (h.zero && f.sa == 0 && f.sb == 0 && f.imm == 0)

def decMwait (h : Head) (b : BitVec 48) : Dec :=
  let f := FS.unpack b
  sel (f.sub == 0) (some (.mwait h.stall f.sa)) (h.zero && f.sd == 0 && f.sb == 0 && f.imm == 0)

/-- Format S with SD and SA alone and SUB = 0 (R212, R248, R249). -/
def decSdSa (c : BitVec 4 → SReg → SReg → Instr) (h : Head) (b : BitVec 48) : Dec :=
  let f := FS.unpack b
  sel (f.sub == 0) (some (c h.stall f.sd f.sa)) (h.zero && f.sb == 0 && f.imm == 0)

/-- The row or column selector of R97. -/
def colOk (sub : BitVec 6) : Bool := sub == 0 || sub == 1

/-- MOD 3:0 of the accumulator transfers: .f32 or .f16 (R213). -/
def halfOf (c : BitVec 4) : Option Bool :=
  match FTy.ofCode c with
  | some .f16 => some true
  | some .f32 => some false
  | _ => none

def decAcld (h : Head) (b : BitVec 48) : Dec :=
  let f := FX.unpack b
  sel (colOk f.sub)
    (do let half ← halfOf (f.md.extractLsb' 0 4)
        let _ ← Rnd.ofCode (f.md.extractLsb' 4 3)
        pure (.acld h.stall half (f.sub == 1) (accOf f) f.ta f.sa))
    (h.zero && accOk f && f.td == 0 && f.tb == 0 && f.sb == 0 && f.md.extractLsb' 4 4 == 0)

def decAcst (h : Head) (b : BitVec 48) : Dec :=
  let f := FX.unpack b
  sel (colOk f.sub)
    (do let half ← halfOf (f.md.extractLsb' 0 4)
        let r ← Rnd.ofCode (f.md.extractLsb' 4 3)
        pure (.acst h.stall half r (f.sub == 1) (accOf f) f.ta f.sa))
    (h.zero && accOk f && f.td == 0 && f.tb == 0 && f.sb == 0 && !f.md.getLsbD 7)

def decAczero (h : Head) (b : BitVec 48) : Dec :=
  let f := FX.unpack b
  sel (f.sub == 0) (some (.aczero h.stall (accOf f)))
    (h.zero && accOk f && f.td == 0 && f.ta == 0 && f.tb == 0 && f.sa == 0 && f.sb == 0 && f.md == 0)

def decAcrd (h : Head) (b : BitVec 48) : Dec :=
  let f := FX.unpack b
  sel (colOk f.sub) (some (.acrd h.hd (f.sub == 1) (b.extractLsb' 37 11) (accOf f) f.sa))
    (accOk f && !b.getLsbD 36 && f.sb == 0 && f.md == 0)

def decLaycfg (h : Head) (b : BitVec 48) : Dec :=
  let f := FS.unpack b
  sel (f.sub == 0) (some (.laycfg h.stall f.sd f.sa f.sb)) (h.zero && f.imm == 0)

/-- IMM10 of an engine command: EV and the queue (R219). -/
def evOf (imm : BitVec 10) : Option (BitVec 5) := if imm.getLsbD 9 then some (imm.extractLsb' 0 5) else none
def evOk (imm : BitVec 10) : Bool :=
  imm.extractLsb' 5 4 == 0 && (imm.getLsbD 9 || imm.extractLsb' 0 5 == 0)

def decCpy (h : Head) (b : BitVec 48) : Dec :=
  let f := FQ.unpack b
  fin (some (.cpy h.stall (f.sub.getLsbD 4) (f.sub.extractLsb' 0 4) f.sd f.sa f.sb (evOf f.imm)))
    (h.zero && !f.sub.getLsbD 5 && f.vx == 0 && evOk f.imm)

def decGth (h : Head) (b : BitVec 48) : Dec :=
  let f := FQ.unpack b
  fin (some (.gth h.stall (f.sub.extractLsb' 0 4) f.sd f.sa f.sb (evOf f.imm)))
    (h.zero && f.sub.extractLsb' 4 2 == 0 && f.vx == 0 && evOk f.imm)

def decColl (h : Head) (b : BitVec 48) : Dec :=
  let f := FQ.unpack b
  fin (do let op ← Rop.ofCode (f.sd.extractLsb' 4 3)
          let t ← Ty.ofCode (f.sd.extractLsb' 0 4)
          pure (.coll h.stall op t (f.sub.extractLsb' 0 4) f.sa f.sb (evOf f.imm)))
    (h.zero && f.sub.extractLsb' 4 2 == 0 && f.vx == 0 && evOk f.imm)

def decPlate (opc : Nat) (h : Head) (b : BitVec 48) : Dec :=
  match opc with
  | 0xC0 => decTres h b
  | 0xC1 => decTrel h b
  | 0xC2 => decTcfg h b
  | 0xC3 => decTrd h b
  | 0xC4 => decTstat h b
  | 0xC5 => decMma .mma h b
  | 0xC6 => decMma .mmap h b
  | 0xC7 => decMbatch h b
  | 0xC8 => decMwait h b
  | 0xC9 => decSdSa .mpoll h b
  | 0xCA => decAcld h b
  | 0xCB => decAcst h b
  | 0xCC => decAczero h b
  | 0xCD => decAcrd h b
  | 0xCE => decLaycfg h b
  | 0xD0 => decCpy h b
  | 0xD1 => decGth h b
  | 0xD2 => decColl h b
  | _ => .error 1

/-! ### Synchronisation, launch and system (R98) -/

/-- Format Q with SUB = 0 and the unused fields zero. -/
def qFields (f : FQ) (sd sa sb : Bool) : Bool :=
  (sd || f.sd == 0) && (sa || f.sa == 0) && (sb || f.sb == 0) && f.vx == 0

def decBari (h : Head) (b : BitVec 48) : Dec :=
  let f := FQ.unpack b
  sel (f.sub == 0) (some (.bari h.stall (f.imm.extractLsb' 0 4) f.sa))
    (h.zero && qFields f false true false && f.imm.extractLsb' 4 6 == 0)

def decBarv (h : Head) (b : BitVec 48) : Dec :=
  let f := FQ.unpack b
  let bar := f.imm.extractLsb' 0 4
  if f.sub != 0 then .error 2
  else if f.imm.getLsbD 6 then
    fin (some (.barv h.stall bar (.named f.sa)))
      (h.zero && qFields f false true false && f.imm.extractLsb' 4 2 == 0 && f.imm.extractLsb' 7 3 == 0)
  else
    fin (some (.barv h.stall bar (.ahead (f.imm.extractLsb' 4 2))))
      (h.zero && qFields f false false false && f.imm.extractLsb' 7 3 == 0)

def decBarw (h : Head) (b : BitVec 48) : Dec :=
  let f := FQ.unpack b
  sel (f.sub == 0) (some (.barw h.stall (f.imm.extractLsb' 0 4) f.sa))
    (h.zero && qFields f false true false && f.imm.extractLsb' 4 6 == 0)

def decBard (h : Head) (b : BitVec 48) : Dec :=
  let f := FQ.unpack b
  sel (f.sub == 0) (some (.bard h.stall (f.imm.extractLsb' 0 4)))
    (h.zero && qFields f false false false && f.imm.extractLsb' 4 6 == 0)

def decBart (h : Head) (b : BitVec 48) : Dec :=
  let f := FQ.unpack b
  sel (f.sub == 0) (some (.bart h.stall f.sd (f.imm.extractLsb' 0 4) f.sa))
    (h.zero && qFields f true true false && f.imm.extractLsb' 4 6 == 0)

def decQcfg (h : Head) (b : BitVec 48) : Dec :=
  let f := FQ.unpack b
  sel (f.sub == 0) (some (.qcfg h.stall (f.imm.extractLsb' 0 5) f.sa f.sb))
    (h.zero && qFields f false true true && f.imm.extractLsb' 5 5 == 0)

def decQpush (h : Head) (b : BitVec 48) : Dec :=
  let f := FQ.unpack b
  sel (f.sub == 0) (some (.qpush h.stall (f.imm.extractLsb' 0 5) f.sa))
    (h.zero && qFields f false true false && f.imm.extractLsb' 5 5 == 0)

def decQpop (h : Head) (b : BitVec 48) : Dec :=
  let f := FQ.unpack b
  sel (f.sub == 0) (some (.qpop h.stall f.sd (f.imm.extractLsb' 0 5)))
    (h.zero && qFields f true false false && f.imm.extractLsb' 5 5 == 0)

def decQtry (h : Head) (b : BitVec 48) : Dec :=
  let f := FQ.unpack b
  let q := f.imm.extractLsb' 0 5
  if f.sub != 0 then .error 2
  else if f.imm.getLsbD 5 then
    fin (some (.qtryPush h.stall f.sd q f.sa)) (h.zero && qFields f true true false && f.imm.extractLsb' 6 4 == 0)
  else
    fin (some (.qtryPop h.stall f.sd q)) (h.zero && qFields f true false false && f.imm.extractLsb' 6 4 == 0)

def decQallow (h : Head) (b : BitVec 48) : Dec :=
  let f := FQ.unpack b
  sel (f.sub == 0) (some (.qallow h.stall (f.imm.extractLsb' 0 5) f.sa (f.imm.extractLsb' 5 5)))
    (h.zero && qFields f false true false)

def decWatch (h : Head) (b : BitVec 48) : Dec :=
  let f := FM.unpack b
  fin (match Width.ofCode f.width with
      | some .w => some (.watch h.stall false (f.vds.extractLsb' 0 5) f.sbase f.ofs)
      | some .d => some (.watch h.stall true (f.vds.extractLsb' 0 5) f.sbase f.ofs)
      | _ => none)
    (h.zero && f.vds.extractLsb' 5 6 == 0 && f.vidx == 0x7FF && f.scope == 0 && f.ord == 0)

def decPark (h : Head) (b : BitVec 48) : Dec :=
  let f := FS.unpack b
  match f.sub.toNat with
  | 0 => fin (some (.park h.stall f.sa)) (h.zero && f.sd == 0 && f.sb == 0 && f.imm == 0)
  | 1 => fin (some (.parkSt h.stall f.sd f.sa)) (h.zero && f.sb == 0 && f.imm == 0)
  | _ => .error 2

def decShpv (h : Head) (b : BitVec 48) : Dec :=
  let f := FQ.unpack b
  sel (f.sub == 0) (some (.shpv h.stall (f.imm.extractLsb' 8 2) f.sd (f.imm.extractLsb' 0 8) f.sa f.sb))
    (h.zero && f.vx == 0)

def decShlv (h : Head) (b : BitVec 48) : Dec :=
  let f := FQ.unpack b
  sel (f.sub == 0) (some (.shlv h.stall (f.imm.extractLsb' 8 2) f.sd (f.imm.extractLsb' 0 8)))
    (h.zero && qFields f true false false)

def decShrs (h : Head) (b : BitVec 48) : Dec :=
  let f := FQ.unpack b
  sel (f.sub == 0) (some (.shrs h.stall f.sd (f.imm.extractLsb' 0 8)))
    (h.zero && qFields f true false false && f.imm.extractLsb' 8 2 == 0)

def decDlaunch (h : Head) (b : BitVec 48) : Dec :=
  let f := FQ.unpack b
  let q := f.imm.extractLsb' 0 6
  match f.sub.toNat with
  | 0 => fin (some (.dlaunch h.hd f.sd f.vx q)) (f.sa == 0 && f.sb == 0 && f.imm.extractLsb' 6 4 == 0)
  | 1 => fin (some (.sdlaunch h.stall f.sd f.sa q)) (h.zero && f.sb == 0 && f.vx == 0 && f.imm.extractLsb' 6 4 == 0)
  | _ => .error 2

def decCancel (h : Head) (b : BitVec 48) : Dec :=
  let f := FS.unpack b
  sel (f.sub.extractLsb' 3 4 == 0) ((Level.ofCode (f.sub.extractLsb' 0 3)).map fun l => .cancel h.stall l)
    (h.zero && fsZero f)

def decRlnch (h : Head) (b : BitVec 48) : Dec :=
  let f := FQ.unpack b
  sel (f.sub == 0) (some (.rlnch h.stall f.sd f.sa (f.imm.extractLsb' 0 6)))
    (h.zero && qFields f true true false && f.imm.extractLsb' 6 4 == 0)

def decDm (h : Head) (b : BitVec 48) : Dec :=
  let f := FS.unpack b
  let m := f.imm.extractLsb' 0 8
  match f.sub.toNat with
  | 0 => fin (some (.dmclr h.stall f.sd m)) (h.zero && f.sa == 0 && f.sb == 0 && f.imm.extractLsb' 8 12 == 0)
  | 1 => fin (some (.dmq h.stall f.sd f.sa f.sb m)) (h.zero && f.imm.extractLsb' 8 12 == 0)
  | _ => .error 2

def decTrap (h : Head) (b : BitVec 48) : Dec :=
  let f := FS.unpack b
  let z := f.sd == 0 && f.sa == 0 && f.sb == 0
  let code := f.imm.extractLsb' 0 16
  match f.sub.toNat with
  | 0 => fin (some (.trap h.hd code (f.imm.getLsbD 19))) (z && f.imm.extractLsb' 16 3 == 0)
  | 1 => fin (some (.brkpt h.hd code)) (z && f.imm.extractLsb' 16 4 == 0)
  | _ => .error 2

def decHret (h : Head) (b : BitVec 48) : Dec :=
  let f := FV.unpack b
  match f.sub.toNat with
  | 0 => fin (some (.hret h.stall (f.va.extractLsb' 0 7)))
      (h.zero && f.va.extractLsb' 7 4 == 0 && f.vd == 0 && f.vb == 0 && f.md == 0)
  | 1 => fin (some (.lhret h.stall (f.md.getLsbD 0) f.va f.vb)) (h.zero && f.vd == 0 && f.md.extractLsb' 1 7 == 0)
  | _ => .error 2

/-- Format S with SD alone and SUB = 0 (R150, R253). -/
def decSd (c : BitVec 4 → SReg → Instr) (h : Head) (b : BitVec 48) : Dec :=
  let f := FS.unpack b
  sel (f.sub == 0) (some (c h.stall f.sd)) (h.zero && f.sa == 0 && f.sb == 0 && f.imm == 0)

def decSvccfg (h : Head) (b : BitVec 48) : Dec :=
  let f := FS.unpack b
  sel (f.sub == 0) (some (.svccfg h.stall f.sd f.sa (f.imm.extractLsb' 0 3)))
    (h.zero && f.sb == 0 && f.imm.extractLsb' 3 17 == 0)

/-- Opcode 0xFA (R99, R100). -/
def decSpec (h : Head) (b : BitVec 48) : Dec :=
  let f := FVS.unpack b
  let hi := f.md.extractLsb' 5 7 == 0
  if f.sub.extractLsb' 2 5 != 0 then .error 2
  else match SpecReg.ofCode (f.md.extractLsb' 0 5) with
    | none => .error 2
    | some r =>
      match (f.sub.extractLsb' 0 2).toNat with
      | 0 => sel (r != .lane) (some (.rdsrScalar h.stall (f.vd.extractLsb' 0 7) r))
          (h.zero && hi && f.vd.extractLsb' 7 4 == 0 && f.va == 0 && f.sb == 0)
      | 1 => fin (some (.rdsrVector h.hd f.vd r)) (hi && f.va == 0 && f.sb == 0)
      | 2 => sel r.writable (some (.wrsrScalar h.stall r f.sb)) (h.zero && hi && f.vd == 0 && f.va == 0)
      | _ => sel (r == .flags) (some (.wrsrVector h.hd f.va)) (hi && f.vd == 0 && f.sb == 0)

def decSync (opc : Nat) (h : Head) (b : BitVec 48) : Dec :=
  match opc with
  | 0xE0 => decBari h b
  | 0xE1 => decBarv h b
  | 0xE2 => decBarw h b
  | 0xE3 => decBard h b
  | 0xE4 => decBart h b
  | 0xE5 => decQcfg h b
  | 0xE6 => decQpush h b
  | 0xE7 => decQpop h b
  | 0xE8 => decQtry h b
  | 0xE9 => decQallow h b
  | 0xEA => decWatch h b
  | 0xEB => decPark h b
  | 0xEC => decShpv h b
  | 0xED => decShlv h b
  | 0xEE => decShrs h b
  | 0xF0 => decDlaunch h b
  | 0xF1 => decCancel h b
  | 0xF2 => decSdSa .cntrd h b
  | 0xF3 => decRlnch h b
  | 0xF4 => decSdSa .trrec h b
  | 0xF5 => decDm h b
  | 0xF6 => decTrap h b
  | 0xF7 => decHret h b
  | 0xF8 => decSd .ckpt h b
  | 0xF9 => decSvccfg h b
  | 0xFA => decSpec h b
  | 0xFB => decSd .rdtime h b
  | 0xFF => .error 7
  | _ => .error 1

/-- The instruction of a word at word index 1 to LEN, or the kind of cause 0x01 it traps with (R103). The window
kind 6 depends on the header as well and is checked when the word is reached. -/
def decode (w : W64) : Dec :=
  let h := headOf w
  let b := bodyOf w
  let o := h.opc.toNat
  if o < 0x20 then decScalar o h b
  else if o < 0x30 then decControl o h b
  else if o < 0x40 then decVint1 o h b
  else if o < 0x60 then decVint2 o h b
  else if o < 0x80 then decVfloat o h b
  else if o < 0xA0 then decCross o h b
  else if o < 0xC0 then decMem o h b
  else if o < 0xE0 then decPlate o h b
  else decSync o h b

/-! ## The encoder

The word of a well-formed instruction, from the same tables (R92 to R98): `none` for a device step, which has no
word. -/

def w0 (opc : BitVec 8) (st : BitVec 4) (b : BitVec 48) : W64 := wordOf ⟨opc, st, 0, 0⟩ b
def wL (opc : BitVec 8) (h : Hd) (b : BitVec 48) : W64 := wordOf ⟨opc, h.stall, h.pg, BitVec.ofBool h.pn⟩ b

def eV (vd va vb : BitVec 11) (sub : BitVec 7) (md : BitVec 8) : BitVec 48 := FV.pack ⟨vd, va, vb, sub, md⟩
def eW (vd va vb vc : BitVec 11) (md : BitVec 4) : BitVec 48 := FW.pack ⟨vd, va, vb, vc, md⟩
def eVI (vd va : BitVec 11) (sub : BitVec 6) (imm : BitVec 20) : BitVec 48 := FVI.pack ⟨vd, va, sub, imm⟩
def eVS (vd va : BitVec 11) (sb : BitVec 7) (md : BitVec 12) : BitVec 48 := FVS.pack ⟨vd, va, sb, 0, md⟩
def eS (sd sa sb : BitVec 7) (sub : BitVec 7) (imm : BitVec 20) : BitVec 48 := FS.pack ⟨sd, sa, sb, sub, imm⟩
def eX (td ta tb : BitVec 4) (acc : BitVec 8) (sa sb : BitVec 7) (sub : BitVec 6) (md : BitVec 8) : BitVec 48 :=
  FX.pack ⟨td, ta, tb, acc, sa, sb, sub, md⟩
def eQ (sd sa sb : BitVec 7) (vx : BitVec 11) (sub : BitVec 6) (imm : BitVec 10) : BitVec 48 :=
  FQ.pack ⟨sd, sa, sb, vx, sub, imm⟩
def eB (sa sb : BitVec 7) (cond : BitVec 4) (disp : BitVec 30) : BitVec 48 := FB.pack ⟨sa, sb, cond, disp⟩

/-- Layout IT. -/
def eIT (t : ITy) (i : Bool) : BitVec 7 := (0#3 ++ t.code.extractLsb' 0 3 ++ BitVec.ofBool i : BitVec 7)
def eArith (opc : BitVec 8) (st : BitVec 4) (t : ITy) (sd sa : SReg) (b : Op2) : W64 :=
  match b with
  | .reg sb => w0 opc st (eS sd sa sb (eIT t false) 0)
  | .imm v => w0 opc st (eS sd sa 0 (eIT t true) v)
def eUnary (opc : BitVec 8) (st : BitVec 4) (t : ITy) (sd sa : SReg) : W64 := w0 opc st (eS sd sa 0 (eIT t false) 0)
/-- Layout T. -/
def eT (c : BitVec 4) : BitVec 7 := (0#3 ++ c : BitVec 7)
def eRT (r : Rnd) (t : FTy) : BitVec 7 := (r.code ++ t.code : BitVec 7)
def eOT (op : Rop) (t : Ty) : BitVec 7 := (op.code ++ t.code : BitVec 7)
def eSat (sat : Bool) : BitVec 8 := (0#7 ++ BitVec.ofBool sat : BitVec 8)
def eBit (b : Bool) : BitVec 7 := (0#6 ++ BitVec.ofBool b : BitVec 7)

/-- ORD and SCOPE of a load or store. -/
def eOrd (want : BitVec 2) : Option Scope → BitVec 3 × BitVec 2
  | none => (0, 0)
  | some sc => (sc.code, want)
def eIdx : Option VReg → BitVec 11
  | none => 0x7FF
  | some r => r
def eM (vds : BitVec 11) (sb : SReg) (idx : BitVec 11) (w : BitVec 3) (o : BitVec 3 × BitVec 2) (ofs : BitVec 11) :
    BitVec 48 := FM.pack ⟨vds, sb, idx, w, o.1, o.2, ofs⟩
/-- Bits 15:11 of a plate form. -/
def ePl (t : TReg) : BitVec 3 × BitVec 2 := ((0#1 ++ t.extractLsb' 2 2 : BitVec 3), t.extractLsb' 0 2)
def x4 (r : SReg) : BitVec 11 := (0#4 ++ r : BitVec 11)
def x8 (p : PReg) : BitVec 11 := (0#8 ++ p : BitVec 11)
def x5 (a : AReg) : BitVec 8 := (0#5 ++ a : BitVec 8)

/-- MOD of the atomics. -/
def eAt (sc : Scope) (ord : Ord) (sat : Bool) : BitVec 8 := (sc.code ++ ord.code ++ 0#2 ++ BitVec.ofBool sat : BitVec 8)
def eAtSub (op : Aop) (t : Ty) : BitVec 7 := (op.code ++ t.code : BitVec 7)
def eEv : Option (BitVec 5) → BitVec 10
  | none => 0
  | some q => (1#1 ++ 0#4 ++ q : BitVec 10)
def eHalf (half : Bool) : BitVec 4 := if half then 8 else 9
def eCol (col : Bool) : BitVec 6 := if col then 1 else 0
def q4 (bar : BitVec 4) : BitVec 10 := (0#6 ++ bar : BitVec 10)
def q5 (q : BitVec 5) : BitVec 10 := (0#5 ++ q : BitVec 10)
def q6 (q : BitVec 6) : BitVec 10 := (0#4 ++ q : BitVec 10)
def qb (k : BitVec 2) (board : BitVec 8) : BitVec 10 := (k ++ board : BitVec 10)

def encode : Instr → Option W64
  | .sadd st t sd sa b => some (eArith 0x01 st t sd sa b)
  | .ssub st t sd sa b => some (eArith 0x02 st t sd sa b)
  | .smul st t sd sa b => some (eArith 0x03 st t sd sa b)
  | .smulh st t sd sa b => some (eArith 0x04 st t sd sa b)
  | .sdiv st t sd sa b => some (eArith 0x05 st t sd sa b)
  | .srem st t sd sa b => some (eArith 0x06 st t sd sa b)
  | .sand st t sd sa b => some (eArith 0x07 st t sd sa b)
  | .sor st t sd sa b => some (eArith 0x08 st t sd sa b)
  | .sxor st t sd sa b => some (eArith 0x09 st t sd sa b)
  | .sandn st t sd sa b => some (eArith 0x0A st t sd sa b)
  | .sshl st t sd sa b => some (eArith 0x0B st t sd sa b)
  | .sshr st t sd sa b => some (eArith 0x0C st t sd sa b)
  | .ssra st t sd sa b => some (eArith 0x0D st t sd sa b)
  | .smin st t sd sa b => some (eArith 0x0E st t sd sa b)
  | .smax st t sd sa b => some (eArith 0x0F st t sd sa b)
  | .scmp st c sd sa (.reg sb) => some (w0 0x10 st (eS sd sa sb (0#3 ++ c.code) 0))
  | .scmp st c sd sa (.imm v) => some (w0 0x10 st (eS sd sa 0 (0#2 ++ 1#1 ++ c.code) v))
  | .ssel st sd sc sa sb => some (w0 0x11 st (eS sd sa sb 0 (0#13 ++ sc)))
  | .sli st zx sd v => some (w0 0x12 st (FSI.pack ⟨sd, 0, if zx then 1 else 0, v⟩))
  | .slih st sd sa v => some (w0 0x13 st (FSI.pack ⟨sd, sa, 0, v⟩))
  | .smov st sd sa => some (w0 0x14 st (eS sd sa 0 0 0))
  | .sclz st t sd sa => some (eUnary 0x15 st t sd sa)
  | .spopc st t sd sa => some (eUnary 0x16 st t sd sa)
  | .sbfx st sx sd sa sb => some (w0 0x17 st (eS sd sa sb (eIT (if sx then .i64 else .n64) false) 0))
  | .sbfi st sd sa sb => some (w0 0x18 st (eS sd sa sb 0 0))
  | .sext st t sd sa => some (eUnary 0x19 st t sd sa)
  | .sld st w o sd sb ofs => some (w0 0x1A st (eM (x4 sd) sb 0x7FF w.code (eOrd 1 o) ofs))
  | .sst st w o sa sb ofs => some (w0 0x1B st (eM (x4 sa) sb 0x7FF w.code (eOrd 2 o) ofs))
  | .sprf st sb ofs => some (w0 0x1C st (eM 0 sb 0x7FF 0 (0, 0) ofs))
  | .br st d => some (w0 0x20 st (eB 0 0 0 d))
  | .brc st c sa sb d => some (w0 0x20 st (eB sa sb (c.code + 1) d))
  | .brz st sa d => some (w0 0x20 st (eB sa 0 11 d))
  | .brnz st sa d => some (w0 0x20 st (eB sa 0 12 d))
  | .brx st sa v => some (w0 0x21 st (eS 0 sa 0 0 v))
  | .call st n d => some (w0 0x22 st (eB (0#3 ++ n.extractLsb' 7 4) (n.extractLsb' 0 7) 0 d))
  | .callx st n sa => some (w0 0x23 st (eS 0 sa 0 0 (0#9 ++ n)))
  | .ret st => some (w0 0x24 st (eS 0 0 0 0 0))
  | .exit h => some (wL 0x25 h (eS 0 0 0 0 0))
  | .yield st => some (w0 0x26 st (eS 0 0 0 0 0))
  | .nop st => some (w0 0x27 st (eS 0 0 0 0 0))
  | .vbr h d => some (wL 0x28 h (eB 0 0 0 d))
  | .vbrx h va => some (wL 0x29 h (eV 0 va 0 0 0))
  | .pany st sd pn => some (w0 0x2A st (eS sd 0 0 (0#4 ++ pn) 0))
  | .pall st sd pn => some (w0 0x2B st (eS sd 0 0 (0#4 ++ pn) 0))
  | .pcnt st sd pn => some (w0 0x2C st (eS sd 0 0 (0#4 ++ pn) 0))
  | .pffs st sd pn => some (w0 0x2D st (eS sd 0 0 (0#4 ++ pn) 0))
  | .rdsrScalar st sd r => some (w0 0xFA st (FVS.pack ⟨x4 sd, 0, 0, 0, 0#7 ++ r.code⟩))
  | .rdsrVector h vd r => some (wL 0xFA h (FVS.pack ⟨vd, 0, 0, 1, 0#7 ++ r.code⟩))
  | .wrsrScalar st r sb => some (w0 0xFA st (FVS.pack ⟨0, 0, sb, 2, 0#7 ++ r.code⟩))
  | .wrsrVector h va => some (wL 0xFA h (FVS.pack ⟨0, va, 0, 3, 0#7 ++ SpecReg.flags.code⟩))
  | .rdtime st sd => some (w0 0xFB st (eS sd 0 0 0 0))
  | .vadd h t sat vd va vb => some (wL 0x30 h (eV vd va vb (eT t.code) (eSat sat)))
  | .vaddImm h t vd va v => some (wL 0x50 h (eVI vd va (0#2 ++ t.code) v))
  | .vsub h t sat vd va vb => some (wL 0x31 h (eV vd va vb (eT t.code) (eSat sat)))
  | .vmul h t sat vd va vb => some (wL 0x32 h (eV vd va vb (eT t.code) (eSat sat)))
  | .vmulh h t vd va vb => some (wL 0x33 h (eV vd va vb (eT t.code) 0))
  | .vmad h t vd va vb vc => some (wL 0x34 h (eW vd va vb vc t.code))
  | .vdiv h t sat vd va vb => some (wL 0x35 h (eV vd va vb (eT t.code) (eSat sat)))
  | .vrem h t vd va vb => some (wL 0x36 h (eV vd va vb (eT t.code) 0))
  | .vand h t vd va vb => some (wL 0x37 h (eV vd va vb (eT t.code) 0))
  | .vandImm h t vd va v => some (wL 0x51 h (eVI vd va (0#2 ++ t.code) v))
  | .vor h t vd va vb => some (wL 0x38 h (eV vd va vb (eT t.code) 0))
  | .vorImm h t vd va v => some (wL 0x52 h (eVI vd va (0#2 ++ t.code) v))
  | .vxor h t vd va vb => some (wL 0x39 h (eV vd va vb (eT t.code) 0))
  | .vxorImm h t vd va v => some (wL 0x53 h (eVI vd va (0#2 ++ t.code) v))
  | .vandn h t vd va vb => some (wL 0x3A h (eV vd va vb (eT t.code) 0))
  | .vshl h t vd va vb => some (wL 0x3B h (eV vd va vb (eT t.code) 0))
  | .vshlImm h t vd va v => some (wL 0x54 h (eVI vd va (0#2 ++ t.code) v))
  | .vshr h t vd va vb => some (wL 0x3C h (eV vd va vb (eT t.code) 0))
  | .vshrImm h t vd va v => some (wL 0x55 h (eVI vd va (0#2 ++ t.code) v))
  | .vsra h t vd va vb => some (wL 0x3D h (eV vd va vb (eT t.code) 0))
  | .vsraImm h t vd va v => some (wL 0x56 h (eVI vd va (0#2 ++ t.code) v))
  | .vrot h t vd va vb => some (wL 0x3E h (eV vd va vb (eT t.code) 0))
  | .vmin h t vd va vb => some (wL 0x3F h (eV vd va vb (eT t.code) 0))
  | .vmax h t vd va vb => some (wL 0x40 h (eV vd va vb (eT t.code) 0))
  | .vabs h t sat vd va => some (wL 0x41 h (eV vd va 0 (eT t.code) (eSat sat)))
  | .vclz h t vd va => some (wL 0x42 h (eV vd va 0 (eT t.code) 0))
  | .vpopc h t vd va => some (wL 0x43 h (eV vd va 0 (eT t.code) 0))
  | .vbrev h t vd va => some (wL 0x44 h (eV vd va 0 (eT t.code) 0))
  | .vbfx h sx vd va vb => some (wL 0x45 h (eV vd va vb (eT (if sx then ITy.i32.code else ITy.n32.code)) 0))
  | .vbfi h vd va vb vc => some (wL 0x46 h (eW vd va vb vc 0))
  | .vsel h t pc vd va vb => some (wL 0x47 h (eV vd va vb (eT t.code) (0#5 ++ pc)))
  | .vmov h t vd va => some (wL 0x48 h (eV vd va 0 (eT t.code) 0))
  | .vli h t vd v => some (wL 0x49 h (eVI vd 0 (0#2 ++ t.code) v))
  | .vcmp h c t pd va vb => some (wL 0x4A h (eV (x8 pd) va vb (eT t.code) (0#4 ++ c.code)))
  | .vclmul h vd va vb => some (wL 0x4B h (eV vd va vb (eT ITy.n32.code) 0))
  | .vclmulh h vd va vb => some (wL 0x4C h (eV vd va vb (eT ITy.n32.code) 0))
  | .vaddc h wide pc vd va vb => some (wL 0x4D h (eV vd va vb (eT (if wide then ITy.n64.code else ITy.n32.code)) (0#5 ++ pc)))
  | .vfadd h r t vd va vb => some (wL 0x60 h (eV vd va vb (eRT r t) 0))
  | .vfsub h r t vd va vb => some (wL 0x61 h (eV vd va vb (eRT r t) 0))
  | .vfmul h r t vd va vb => some (wL 0x62 h (eV vd va vb (eRT r t) 0))
  | .vfmaF16 h r vd va vb vc => some (wL 0x63 h (eW vd va vb vc (0#1 ++ r.code)))
  | .vfmaF32 h r vd va vb vc => some (wL 0x64 h (eW vd va vb vc (0#1 ++ r.code)))
  | .vfmaF64 h r vd va vb vc => some (wL 0x65 h (eW vd va vb vc (0#1 ++ r.code)))
  | .vfdiv h r t vd va vb => some (wL 0x66 h (eV vd va vb (eRT r t) 0))
  | .vfsqrt h r t vd va => some (wL 0x67 h (eV vd va 0 (eRT r t) 0))
  | .vfrcp h t vd va => some (wL 0x68 h (eV vd va 0 (eT t.code) 0))
  | .vfrsq h t vd va => some (wL 0x69 h (eV vd va 0 (eT t.code) 0))
  | .vfexp2 h t vd va => some (wL 0x6A h (eV vd va 0 (eT t.code) 0))
  | .vflog2 h t vd va => some (wL 0x6B h (eV vd va 0 (eT t.code) 0))
  | .vfsin h t vd va => some (wL 0x6C h (eV vd va 0 (eT t.code) 0))
  | .vfcos h t vd va => some (wL 0x6D h (eV vd va 0 (eT t.code) 0))
  | .vfmin h t vd va vb => some (wL 0x6E h (eV vd va vb (eT t.code) 0))
  | .vfmax h t vd va vb => some (wL 0x6F h (eV vd va vb (eT t.code) 0))
  | .vfcmp h c t pd va vb => some (wL 0x70 h (eV (x8 pd) va vb (eT t.code) (0#4 ++ c.code)))
  | .vfcls h t vd va => some (wL 0x71 h (eV vd va 0 (eT t.code) 0))
  | .vfrnd h r t vd va => some (wL 0x72 h (eV vd va 0 (eRT r t) 0))
  | .vfdot h r vd va vb => some (wL 0x73 h (eV vd va vb (eRT r .f16) 0))
  | .vcvt h r sat dst src vd va => some (wL 0x74 h (eV vd va 0 (r.code ++ dst.code) (0#3 ++ BitVec.ofBool sat ++ src.code)))
  | .vpack h t vd va => some (wL 0x75 h (eV vd va 0 (eT t.code) 0))
  | .vunpk h t vd va => some (wL 0x76 h (eV vd va 0 (eT t.code) 0))
  | .vshfl h m vd va vb => some (wL 0x90 h (eV vd va vb (0#5 ++ m.code) 0))
  | .vbcast h vd va l => some (wL 0x91 h (eV vd va 0 0 (0#3 ++ l)))
  | .vred h op t sat vd va => some (wL 0x92 h (eV vd va 0 (eOT op t) (eSat sat)))
  | .vscan h op t sat vd va => some (wL 0x93 h (eV vd va 0 (eOT op t) (eSat sat)))
  | .vext st wide sd va sb => some (w0 0x94 st (eVS (x4 sd) va sb (0#11 ++ BitVec.ofBool wide)))
  | .vins st wide vd sa sb => some (w0 0x95 st (eVS vd (x4 sa) sb (0#11 ++ BitVec.ofBool wide)))
  | .vcompr h vd va => some (wL 0x96 h (eV vd va 0 0 0))
  | .pand h pd pa pb => some (wL 0x97 h (eV (x8 pd) (x8 pa) (x8 pb) 0 0))
  | .por h pd pa pb => some (wL 0x97 h (eV (x8 pd) (x8 pa) (x8 pb) 1 0))
  | .pxor h pd pa pb => some (wL 0x97 h (eV (x8 pd) (x8 pa) (x8 pb) 2 0))
  | .pnot h pd pa => some (wL 0x97 h (eV (x8 pd) (x8 pa) 0 3 0))
  | .pmov h pd pa => some (wL 0x97 h (eV (x8 pd) (x8 pa) 0 4 0))
  | .pset h pd sb => some (wL 0x98 h (eVS (x8 pd) 0 sb 0))
  | .pget st sd pn => some (w0 0x99 st (eVS (x4 sd) (x8 pn) 0 0))
  | .kcnt st sd k => some (w0 0x9A st (eS sd 0 0 (0#5 ++ k) 0))
  | .kffs st sd k => some (w0 0x9B st (eS sd 0 0 (0#5 ++ k) 0))
  | .kbit st sd k sa => some (w0 0x9C st (eS sd sa 0 (0#5 ++ k) 0))
  | .kmvToVector st vd k => some (w0 0x9D st (eV vd 0 0 (0#4 ++ k ++ 0#1) 0))
  | .kmvToMask st k va => some (w0 0x9D st (eV 0 va 0 (0#4 ++ k ++ 1#1) 0))
  | .vld h w o vd sb idx ofs => some (wL 0xA0 h (eM vd sb (eIdx idx) w.code (eOrd 1 o) ofs))
  | .vst h w o va sb idx ofs => some (wL 0xA1 h (eM va sb (eIdx idx) w.code (eOrd 2 o) ofs))
  | .vgth h w o vd sb idx ofs => some (wL 0xA2 h (eM vd sb idx w.code (eOrd 1 o) ofs))
  | .vsct h w o va sb idx ofs => some (wL 0xA3 h (eM va sb idx w.code (eOrd 2 o) ofs))
  | .vldp h w vd t sb idx ofs => some (wL 0xA4 h (eM vd sb (eIdx idx) w.code (ePl t) ofs))
  | .vstp h w va t sb idx ofs => some (wL 0xA5 h (eM va sb (eIdx idx) w.code (ePl t) ofs))
  | .vprf h w sb idx ofs => some (wL 0xA6 h (eM 0 sb (eIdx idx) w.code (0, 0) ofs))
  | .sldp st w sd t sb ofs => some (w0 0xA7 st (eM (x4 sd) sb 0x7FF w.code (ePl t) ofs))
  | .vatom h op t sc ord sat vd sb idx => some (wL 0xA8 h (eV vd (eIdx idx) (x4 sb) (eAtSub op t) (eAt sc ord sat)))
  | .satom st op t sc ord sat sd sa sb => some (w0 0xA9 st (eV (x4 sd) (x4 sa) (x4 sb) (eAtSub op t) (eAt sc ord sat)))
  | .vredm h op t sc rel sat x sb idx => some (wL 0xAA h (eV x (eIdx idx) (x4 sb) (eOT op t) (eAt sc (if rel then .rel else .rlx) sat)))
  | .patom h op t clus ord sat vd p idx => some (wL 0xAB h (eV vd (eIdx idx) (0#7 ++ p) (eAtSub op t) (eAt (if clus then .clus else .crew) ord sat)))
  | .fence st ord sc => some (w0 0xAC st (eS 0 0 0 (0#2 ++ ord.code ++ sc.code) 0))
  | .cflush st sc sb ofs => some (w0 0xAD st (eM 0 sb 0x7FF 0 (sc.code, 0) ofs))
  | .cinv st sc sb ofs => some (w0 0xAE st (eM 0 sb 0x7FF 0 (sc.code, 0) ofs))
  | .tres st td n core stat => some (w0 0xC0 st (eX td (match stat with | some _ => 1 | none => 0) (match core with | some c => (1#2 ++ c : BitVec 4) | none => 0) 0 (match stat with | some s => s | none => 0) 0 0 n))
  | .trel st td => some (w0 0xC1 st (eX td 0 0 0 0 0 0 0))
  | .tcfgPlate st td sa => some (w0 0xC2 st (eX td 0 0 0 sa 0 0 0))
  | .tcfgRegion st ak sa => some (w0 0xC2 st (eX 0 0 0 (x5 ak) sa 0 0 1))
  | .trd st sa ta => some (w0 0xC3 st (eX 0 ta 0 0 sa 0 0 0))
  | .tstat st sa sb => some (w0 0xC4 st (eX 0 0 0 0 sa sb 0 0))
  | .mma st t ak ta tb sa sb k => some (w0 0xC5 st (eX 0 ta tb (x5 ak) sa sb (0#2 ++ t.code) k))
  | .mmap st t ak ta tb sa sb k => some (w0 0xC6 st (eX 0 ta tb (x5 ak) sa sb (0#2 ++ t.code) k))
  | .mbatch st sd => some (w0 0xC7 st (eS sd 0 0 0 0))
  | .mwait st sa => some (w0 0xC8 st (eS 0 sa 0 0 0))
  | .mpoll st sd sa => some (w0 0xC9 st (eS sd sa 0 0 0))
  | .acld st half col ak ta sa => some (w0 0xCA st (eX 0 ta 0 (x5 ak) sa 0 (eCol col) (0#4 ++ eHalf half)))
  | .acst st half r col ak ta sa => some (w0 0xCB st (eX 0 ta 0 (x5 ak) sa 0 (eCol col) (0#1 ++ r.code ++ eHalf half)))
  | .aczero st ak => some (w0 0xCC st (eX 0 0 0 (x5 ak) 0 0 0 0))
  | .acrd h col vd ak sa => some (wL 0xCD h (vd ++ 0#1 ++ x5 ak ++ sa ++ 0#7 ++ eCol col ++ 0#8))
  | .laycfg st sd sa sb => some (w0 0xCE st (eS sd sa sb 0 0))
  | .cpy st dir t sd sa sb ev => some (w0 0xD0 st (eQ sd sa sb 0 (0#1 ++ BitVec.ofBool dir ++ t) (eEv ev)))
  | .gth st t sd sa sb ev => some (w0 0xD1 st (eQ sd sa sb 0 (0#2 ++ t) (eEv ev)))
  | .coll st op ty t sa sb ev => some (w0 0xD2 st (eQ (op.code ++ ty.code) sa sb 0 (0#2 ++ t) (eEv ev)))
  | .bari st bar sa => some (w0 0xE0 st (eQ 0 sa 0 0 0 (q4 bar)))
  | .barv st bar (.ahead d) => some (w0 0xE1 st (eQ 0 0 0 0 0 (0#4 ++ d ++ bar)))
  | .barv st bar (.named sa) => some (w0 0xE1 st (eQ 0 sa 0 0 0 (0#3 ++ 1#1 ++ 0#2 ++ bar)))
  | .barw st bar sa => some (w0 0xE2 st (eQ 0 sa 0 0 0 (q4 bar)))
  | .bard st bar => some (w0 0xE3 st (eQ 0 0 0 0 0 (q4 bar)))
  | .bart st sd bar sa => some (w0 0xE4 st (eQ sd sa 0 0 0 (q4 bar)))
  | .qcfg st q sa sb => some (w0 0xE5 st (eQ 0 sa sb 0 0 (q5 q)))
  | .qpush st q sa => some (w0 0xE6 st (eQ 0 sa 0 0 0 (q5 q)))
  | .qpop st sd q => some (w0 0xE7 st (eQ sd 0 0 0 0 (q5 q)))
  | .qtryPop st sd q => some (w0 0xE8 st (eQ sd 0 0 0 0 (q5 q)))
  | .qtryPush st sd q sa => some (w0 0xE8 st (eQ sd sa 0 0 0 (0#4 ++ 1#1 ++ q)))
  | .qallow st q sa n => some (w0 0xE9 st (eQ 0 sa 0 0 0 (n ++ q)))
  | .watch st wide count sb ofs => some (w0 0xEA st (eM (0#6 ++ count) sb 0x7FF (if wide then 3 else 2) (0, 0) ofs))
  | .park st sa => some (w0 0xEB st (eS 0 sa 0 0 0))
  | .parkSt st sd sa => some (w0 0xEB st (eS sd sa 0 1 0))
  | .shpv st k sd board sa sb => some (w0 0xEC st (eQ sd sa sb 0 0 (qb k board)))
  | .shlv st k sd board => some (w0 0xED st (eQ sd 0 0 0 0 (qb k board)))
  | .shrs st sd board => some (w0 0xEE st (eQ sd 0 0 0 0 (qb 0 board)))
  | .dlaunch h sd vx q => some (wL 0xF0 h (eQ sd 0 0 vx 0 (q6 q)))
  | .sdlaunch st sd sa q => some (w0 0xF0 st (eQ sd sa 0 0 1 (q6 q)))
  | .cancel st lv => some (w0 0xF1 st (eS 0 0 0 (0#4 ++ lv.code) 0))
  | .cntrd st sd sa => some (w0 0xF2 st (eS sd sa 0 0 0))
  | .rlnch st sd sa q => some (w0 0xF3 st (eQ sd sa 0 0 0 (q6 q)))
  | .trrec st sd sa => some (w0 0xF4 st (eS sd sa 0 0 0))
  | .dmclr st sd m => some (w0 0xF5 st (eS sd 0 0 0 (0#12 ++ m)))
  | .dmq st sd sa sb m => some (w0 0xF5 st (eS sd sa sb 1 (0#12 ++ m)))
  | .trap h code lane => some (wL 0xF6 h (eS 0 0 0 0 (BitVec.ofBool lane ++ 0#3 ++ code)))
  | .brkpt h code => some (wL 0xF6 h (eS 0 0 0 1 (0#4 ++ code)))
  | .hret st sa => some (w0 0xF7 st (eV 0 (x4 sa) 0 0 0))
  | .lhret st wide va vb => some (w0 0xF7 st (eV 0 va vb 1 (eSat wide)))
  | .ckpt st sd => some (w0 0xF8 st (eS sd 0 0 0 0))
  | .svccfg st sd sa slot => some (w0 0xF9 st (eS sd sa 0 0 (0#17 ++ slot)))
  | _ => none

/-- The instruction that the decoder reads from the table's bits: the words in memory order, every bit above
`nbits` zero. A word is 64 bits, so a row's bits are one word. -/
def decodeTableWord (nbits w : Nat) : Option Instr :=
  match decode (BitVec.ofNat 64 (w % 2 ^ nbits)) with
  | .ok i => some i
  | .error _ => none

/-- The STALL field of a word (R83). -/
def stallOf (w : W64) : Nat := (headOf w).stall.toNat

/-! ## The block header (R87) -/

structure Header where
  len : Nat
  live : Nat
  reconv : Nat
  pf : BitVec 12
  pfk : BitVec 2
  low : BitVec 6
  deriving DecidableEq, Repr

def isHeader (w : W64) : Bool := w.extractLsb' 56 8 == 0xFF

def Header.unpack (w : W64) : Header where
  len := (w.extractLsb' 48 8).toNat
  live := (w.extractLsb' 6 1 ++ w.extractLsb' 37 11 : BitVec 12).toNat
  reconv := (w.extractLsb' 21 16).toNat
  pf := w.extractLsb' 9 12
  pfk := w.extractLsb' 7 2
  low := w.extractLsb' 0 6

/-- The header checks of R88 but for the resident allocation: the kind in the detail, none when they pass. -/
def headerFault (w : W64) : Option Nat :=
  let h := Header.unpack w
  if h.len = 0 then some 7
  else if h.low != 0 || h.live > 2048 then some 7
  else if (h.pf != 0 && h.pfk != 2) || (h.pfk == 2 && h.pf == 0) then some 7
  else none

end Sys2Proof
end

