-- ==== Sys2Proof/Machine/State.lean ====
section
/-! DEFINITION. The state of the AX960 package as plain data, the reasons a step stops, and the state at reset. -/

namespace Sys2Proof.Machine

/-- Why the machine stops. -/
inductive Fault where
  /-- Raised by `step` alone: a thermal trip has stopped the dies (R354). Safe: nothing executes afterwards. -/
  | diesStopped
  deriving DecidableEq, Repr

/-- Why an instruction has no meaning. -/
inductive Refusal where
  /-- Raised only by an arm of `exec` that has no meaning yet. Safe. -/
  | notModelled (mnemonic : String)
  deriving DecidableEq, Repr

/-! ## Crews -/

/-- One vector register: its value in lanes 0 to 31 (R20). -/
abbrev Row := List W32
def zeroRow : Row := List.replicate 32 0

/-- Readings of core clocks, the greatest of each compute die: what a release carries to its acquires (R65, R391). -/
abbrev Clocks := Map Stamp

/-- A call-frame record (R289). -/
structure Frame where
  ret : W64
  fmask : W32
  rmask : W32
  basep : BitVec 16
  slide : BitVec 11
  deriving DecidableEq, Repr

/-- A physical register slot: the logical register it holds and whether it was written since it was filled (R288). -/
structure VSlot where
  log : Nat
  dirty : Bool
  row : Row
  deriving DecidableEq, Repr

/-- A batch of accumulator commands (R209 to R211): number (0 while open), plates held, commands not yet
performed, flag set (R124), the first poisoned plate sector read. -/
structure Batch where
  num : W32 := 0
  plates : List Nat := []
  left : Nat := 0
  flags : Fl := 0
  poison : Option (Nat × Nat) := none
  retired : Bool := false
  deriving DecidableEq, Repr

/-- The monitor of R42: physical range, watched virtual address, and whether a trigger has occurred. -/
structure Monitor where
  loc : Nat
  len : Nat
  va : W64
  hit : Bool
  deriving DecidableEq, Repr

/-- A register, flag or object that an instruction reads or writes (R284). -/
inductive Res where
  | s (n : Nat) | v (n : Nat) | p (n : Nat) | k (n : Nat) | t (n : Nat) | a (n : Nat) | flagsCt | flagsLanes
  deriving DecidableEq, Repr

/-- A result still in latency (R284): issue clk, latency, and the sum of 1 + STALL since. -/
structure SbEntry where
  res : Res
  at_ : Nat
  lat : Nat
  sum : Nat
  lanes : W32
  deriving DecidableEq, Repr

/-- One lane's request of an atomic or reduction (R187 to R189). Lane 32 is the control thread. -/
structure AtomReq where
  lane : Nat
  loc : Nat
  va : W64
  x : W64
  c : W64
  deriving DecidableEq, Repr

/-- The requests of one instruction for one owner cluster (R190). `relTs` are the clocks of the release of a `.rel` or `.ar`
form, or of a `fence` before it (R61); `rel` says that the form itself releases, with its scope (R63). -/
structure AtomGroup where
  token : Nat
  crew : Nat
  owner : Nat
  op : Aop
  ty : Ty
  sat : Bool
  returns : Bool
  opc : BitVec 8
  ctx : Nat
  lctr : Nat
  at_ : Nat := 0
  relTs : Clocks := []
  rel : Bool := false
  reqs : List AtomReq
  deriving DecidableEq, Repr

/-- What reaches the package without an instruction of its own (log entry 58): an AMO of a companion core at its owner cluster
(R352), its LR and SC, poison that a CXL device reports (R345), and an ECC error of a sector of memory, of a plate or of an
accumulator store (R58, R383). -/
inductive Outside where
  | amo (core : Nat) (g : AtomGroup)
  | lr (core loc : Nat)
  | sc (core : Nat) (cells : List Host.Cell)
  | cxlPoison (loc : Nat)
  | ecc (loc : Nat) (corrected : Bool)
  | plateEcc (core sector : Nat)
  | accEcc (core sector : Nat)
  deriving DecidableEq, Repr

/-- Where the old value of a returning atomic goes (R189, R192). -/
inductive AtomDest where
  | lanes (vd : Nat) (wide : Bool)
  | scalar (sd : SReg) (ty : Ty)
  deriving DecidableEq, Repr

/-- A returning atomic whose values have not all returned (R191, R198): the clk in which it issued, its acquire, the
groups not yet executed, the values by lane (`none` met poison), the poisoned lanes' sectors, the plate of a `patom`, the
greatest stamp and the clocks of releases that they were read with. -/
structure AtomOp where
  token : Nat
  at_ : Nat
  acq : Option Scope
  dest : AtomDest
  groups : Nat
  results : List (Nat × Option W64)
  bad : List (Nat × W64) := []
  plate : Option Nat := none
  wts : Option Stamp := none
  clocks : Clocks := []
  pc : W64
  widx : Nat
  word : W64
  deriving DecidableEq, Repr

/-- The record of a trap (R321): the fields of the frame that the trap itself gives. -/
structure TrapRec where
  cause : Nat
  detail0 : W64 := 0
  detail1 : W64 := 0
  lanes : W32 := 0
  perf : Bool := false
  pc : W64 := 0
  widx : Nat := 0
  word : W64 := 0
  deriving DecidableEq, Repr

/-- The origin tag of a lane that took a lane trap (R325), with where its result goes. -/
structure LaneTag where
  crew : Nat
  lane : Nat
  since : Nat
  word : W64
  pc : W64
  widx : Nat
  flags : BitVec 6
  code : BitVec 16
  a : W64
  b : W64
  c : W64
  old : Fl
  dest : Option (Nat × Bool)
  predDest : Option PReg
  lctr : Nat
  deriving DecidableEq, Repr

/-- An effect that has not yet left the core (R287). -/
inductive Effect where
  /-- bytes written to global memory, by physical location -/
  | store (cells : List Host.Cell)
  /-- bytes written to a plate, by number, in the plate store of a core, by the lanes given -/
  | plate (core num : Nat) (lanes : W32) (cells : List Host.Cell)
  /-- requests of an atomic or reduction for owner clusters -/
  | atoms (gs : List AtomGroup)
  /-- a `patom` on a plate: the core and the plate's number, the byte offsets are the requests' locations -/
  | plateAtom (core num : Nat) (g : AtomGroup)
  /-- a `fence` with `.rel`, which orders the writes after it behind those before it (R61) -/
  | fence
  /-- a register, or a frame record, that a block entry spills to the crew's own area (R56) -/
  | spill (cells : List Host.Cell) (frame : Bool)
  /-- `cflush` or `cinv` of a line (R196) -/
  | flush (inv : Bool) (sc : Scope) (line : Nat)
  deriving DecidableEq, Repr

/-- A held effect: the clk in which its instruction issued, and the release that has to complete before it leaves, with
the clocks as it completed (R60). -/
structure Held where
  at_ : Nat
  eff : Effect
  rel : Option Scope := none
  relTs : Clocks := []
  deriving DecidableEq, Repr

/-- What a blocked crew waits for (R18). -/
inductive Wait where
  | load
  | release (sc : Scope)
  /-- the values of a returning atomic that the next word depends on, or what an earlier release waits for (R191) -/
  | settle
  | queuePush (q : Nat) (item : W32)
  | queuePop (q : Nat) (sd : SReg)
  | barrier (bar : Nat) (phase : BitVec 16)
  | park (deadline : Option Nat) (sd : Option SReg)
  | batch (n : W32)
  | batchRoom
  | arrayRoom
  | accumulator
  | plateRead (until_ : Nat)
  | plateWrite
  | sheet
  | checkpoint (num : W32) (sd : SReg)
  | service (sd : SReg)
  | yielded (until_ : Nat)
  deriving DecidableEq, Repr

/-- What a crew does next: choose its next block (R25); enter the block at pc, at word widx, after a return from a
trap whose frame had PERF as given (R324); move registers (R288); run its next word. -/
inductive Phase where
  | select
  | enter (perf : Bool)
  | moving | running
  | waiting (w : Wait)
  | trapped | lanesOut | halted | ended
  deriving DecidableEq, Repr

/-- Normal crews, crews placed from a notice (R322), handler crews (R325) and test crews (R381). -/
inductive CrewKind where
  | normal | notice | handler | test
  deriving DecidableEq, Repr

/-- An interval of a span (R267). -/
structure IvalRef where
  line : Nat
  f : Nat
  l : Nat
  num : BitVec 24
  deriving DecidableEq, Repr

/-- The state of a crew (R20) with what the core keeps for it. -/
structure Crew where
  phase : Phase := .select
  kind : CrewKind := .normal
  priv : Bool := false
  party : Nat := 0
  num : Nat := 0
  ctx : Nat := 0
  lctr : Nat := 0
  prio : Nat := 0
  pc : W64 := 0
  widx : Nat := 0
  hdr : W64 := 0
  word : W64 := 0
  s : Map W64 := []
  ctFlags : Fl := 0
  v : Map VSlot := []
  p : Map W32 := []
  laneFlags : Map Fl := []
  k : Map (BitVec 1024) := []
  t : Map Nat := []
  a : Map W32 := []
  base : BitVec 16 := 0
  baseNext : BitVec 17 := 0
  alloc : Nat := 8
  spill : W64 := 0
  live : W32 := 0xFFFFFFFF
  active : W32 := 0xFFFFFFFF
  pend : Map W64 := []
  frames : List Frame := []
  depth : Nat := 0
  tflags : BitVec 6 := 0
  bkconf : W32 := 0
  batch : W32 := 0
  cancel : BitVec 5 := 0
  openB : Batch := {}
  closedB : List Batch := []
  mon : Option Monitor := none
  seq : Map Nat := []
  held : List Held := []
  atoms : List AtomOp := []
  fence : Nat := 0
  ivals : List IvalRef := []
  readWts : Stamp := 0
  /-- clocks of releases: those that the crew's reads met, those that it has acquired (R65), those of its `fence`s (R61) -/
  readSeen : Clocks := []
  seen : Clocks := []
  fenceTs : Clocks := []
  /-- words of lines that the crew has changed at an owner: an older copy does not serve its loads (R62) -/
  must : List (Nat × Nat) := []
  released : Bool := false
  relTs : Clocks := []
  readyAt : Nat := 0
  sb : List SbEntry := []
  check : Bool := false
  throt : Bool := true
  readySince : Nat := 0
  lastIssue : Nat := 0
  blockedSince : Nat := 0
  heldSince : Nat := 0
  admitted : Bool := false
  /-- the next word has issued and only its result is awaited; something but the stall count or the scoreboard held the word back in
  the last clk (R280, R281) -/
  again : Bool := false
  wasHeld : Bool := false
  /-- the crew replays from a strike and has issued nothing since (R389) -/
  replayed : Bool := false
  score : Nat := 0
  moves : List Nat := []
  tags : List LaneTag := []
  out : W32 := 0
  trap : Option TrapRec := none
  noticed : Bool := false
  pushed : Bool := false
  tries : Nat := 0
  committed : Nat := 0
  scopem : Nat := 0
  merges : Nat := 0
  /-- the 64 KiB granules of host memory that the crew has stored to (R277) -/
  grans : List Nat := []
  first : Nat := 0
  deriving DecidableEq, Repr

/-! ## Parties -/

/-- A plate record (R49), the stamp of an engine's return (R391) with the intervals that its command's writes closed, by the key of
the command's crew (R257), and the clocks of crews' releases by writes to the plate (R61). -/
structure Plate where
  num : Nat
  core : Nat
  base : Nat
  grans : Nat
  owner : Bool := false
  eng : BitVec 3 := 0
  holder : Nat := 0
  stamp : Option Stamp := none
  clocks : Clocks := []
  ivals : List (Nat × IvalRef) := []
  deriving DecidableEq, Repr

/-- A barrier object (R229 to R232): four arrived masks from phase `cur` on, and their stamps; and the stamps that completed
phases keep (R391). -/
structure Barrier where
  mask : W64 := 0
  cur : BitVec 16 := 0
  arrived : List W64 := [0, 0, 0, 0]
  stamps : List Clocks := [[], [], [], []]
  ended : Map Clocks := []
  deriving DecidableEq, Repr

/-- An item of a cluster queue with its release stamp (R391). -/
structure QItem where
  item : W32
  stamp : Clocks
  deriving DecidableEq, Repr

/-- A configured cluster queue (R36, R233 to R236). -/
structure CQueue where
  event : Bool := false
  depth : Nat := 1
  producers : W64 := 0
  allow : Map Nat := []
  items : List QItem := []
  deriving DecidableEq, Repr

/-- A party's trace recorder (R359 to R361). A range is a first parcel and a count minus 1. -/
structure Trace where
  ranges : List (Nat × Nat) := []
  whole : Bool := false
  why : BitVec 6 := 0
  run : W32 := 0
  deriving DecidableEq, Repr

structure Party where
  lctr : Nat := 0
  num : Nat := 0
  ctx : Nat := 0
  px : Nat := 0
  py : Nat := 0
  pz : Nat := 0
  ncrews : Nat := 1
  crews : List Nat := []
  ended : Nat := 0
  cluster : Nat := 0
  cores : List Nat := []
  homeDie : Nat := 0
  prio : Nat := 0
  packet : BitVec 1024 := 0
  priv : Bool := false
  notice : Option Nat := none
  pool : List (Nat × Nat × Nat) := []
  bands : List (Nat × Nat × Nat) := []
  plates : List Plate := []
  bars : Map Barrier := []
  queues : Map CQueue := []
  trace : Trace := {}
  cancelled : Bool := false
  stamps : Map Stamp := []
  /-- %spill of crew 0, which places the party save area (R305, R332) -/
  spill0 : W64 := 0
  /-- batches of crews that have ended, by the keys under which their commands go on, until the array has performed
  them (R30, R209) -/
  endB : List (Nat × Batch) := []
  deriving DecidableEq, Repr

/-- What the directives `.queue` and `.barrier` of the kernel at an entry address declare (R76), for the distributor to
configure at placement. -/
structure Kernel where
  ctx : Nat
  code : W64
  queues : Map CQueue
  bars : List Nat
  deriving DecidableEq, Repr

/-! ## Cores -/

/-- An L1 copy of a span with its lease (R258), the clocks of the releases that had written to its line, and its poisoned
sectors (R58). -/
structure L1Copy where
  line : Nat
  f : Nat
  l : Nat
  words : List W32
  leaseEnd : Stamp
  wts : Stamp
  /-- the core-wide slot of the crew that filled it (R282) -/
  slot : Nat
  clocks : Clocks := []
  poison : List Nat := []
  deriving DecidableEq, Repr

/-- A line of the instruction cache (R106). -/
structure ILine where
  line : Nat
  words : List W64
  deriving DecidableEq, Repr

/-- A TLB entry (R45): context, virtual page base, page size as a power of two, physical base, permissions and
whether the D bit has been set. -/
structure TlbEntry where
  ctx : Nat
  va : Nat
  size : Nat
  pa : Nat
  r : Bool
  w : Bool
  x : Bool
  d : Bool
  deriving DecidableEq, Repr

/-- An operand of the matrix array in a plate (R206). -/
structure MatOp where
  core : Nat
  base : Nat
  plate : Nat
  offs : Nat
  pitch : Nat
  deriving DecidableEq, Repr

/-- An accumulator region resolved to absolute rows and columns (R53). -/
structure Region where
  row0 : Nat
  rows : Nat
  col0 : Nat
  cols : Nat
  deriving DecidableEq, Repr

/-- Whether an array does a multiply whole, or the issuing or the partner core's part of an `mmap` (R208). -/
inductive ArrPart where
  | whole | own | partner
  deriving DecidableEq, Repr

inductive ArrOp where
  | mma (ty : Ty) (a b : MatOp) (k : Nat) (part : ArrPart)
  | acld (half col : Bool) (data : List W32) (bad : List Nat) (first : Option (Nat × Nat))
  | acst (half col : Bool) (r : Rnd) (dst : MatOp)
  | aczero
  | acrd
  deriving DecidableEq, Repr

/-- A command in a core's array order (R54, R207), with the clk that it occupies the array for (R208). -/
structure ArrCmd where
  crew : Nat
  reg : Region
  op : ArrOp
  dur : Nat
  /-- held back by a pre-emption (R331) -/
  stopped : Bool := false
  deriving DecidableEq, Repr

/-- A command of the copy, gather or collective engine (R219 to R225). -/
structure EngCmd where
  eng : Engine
  crew : Nat
  party : Nat
  ctx : Nat
  lctr : Nat
  plate : Nat
  toGlobal : Bool := false
  base : Nat := 0
  g : W64 := 0
  rec_ : W64 := 0
  idx : W64 := 0
  op : Rop := .add
  ty : Ty := .int .i32
  group : Nat := 0
  rank : Nat := 0
  offs : Nat := 0
  bytes : Nat := 0
  seq : Nat := 0
  ev : Option Nat := none
  stopped : Bool := false
  /-- the clk in which the plate flipped -/
  at_ : Nat := 0
  /-- how far a copy or gather has come: its next unit, and STATUS, the greatest wts and the intervals closed so far -/
  pos : Nat := 0
  status : Nat := 0
  wts : Option Stamp := none
  ivals : List IvalRef := []
  deriving DecidableEq, Repr

/-- An event record waiting at an engine for its queue (R220, R221); `seq` counts completions. -/
structure EvRec where
  core : Nat
  eng : Engine
  party : Nat
  q : Nat
  item : W32
  stamp : Stamp
  seq : Nat := 0
  deriving DecidableEq, Repr

/-- A plate that an engine sets back to CREW, as it reaches the plate store (R205). -/
structure SetBack where
  party : Nat
  plate : Nat
  stamp : Stamp
  ivals : List (Nat × IvalRef) := []
  ev : Option EvRec
  deriving DecidableEq, Repr

/-- A memory operation in the reorder window (R274): the crew and the clk in which it issued, the lane of an atomic's
request (32 for none), the bytes it names by location, whether it reads and writes, its acquire and release, the order of
a `fence`, and whether it has been performed. -/
structure ROp where
  crew : Nat
  at_ : Nat
  lane : Nat := 32
  locs : List Nat
  read : Bool := false
  write : Bool := false
  acq : Option Scope := none
  rel : Option Scope := none
  fence : Option (Ord × Scope) := none
  done : Bool
  /-- performed at the home too: a plain store's write is once a release of its crew has cleaned it (R257) -/
  home : Bool := true
  deriving DecidableEq, Repr

/-- The counter record of a core (R382). -/
structure CoreCnt where
  strikes : W32 := 0
  late : W32 := 0
  reord : W32 := 0
  scopem : W32 := 0
  tpass : W32 := 0
  tfail : W32 := 0
  poisc : W32 := 0
  dblf : W32 := 0
  deriving DecidableEq, Repr

structure Core where
  ts : Stamp := 0
  l1 : List L1Copy := []
  icache : List ILine := []
  tlb : List TlbEntry := []
  plate : List Host.Cell := []
  platePoison : List Nat := []
  acc : Map W32 := []
  accPoison : List Nat := []
  array : List ArrCmd := []
  /-- the clk in which the array finishes the command at the head of its order -/
  arrayUntil : Option Nat := none
  copyQ : List EngCmd := []
  gatherQ : List EngCmd := []
  collQ : List EngCmd := []
  evs : List EvRec := []
  setBacks : List SetBack := []
  /-- crews' plate writes that reach the core's plate store in this clk, by the key of their crews (R205) -/
  arrivals : List (Nat × Held) := []
  laneWait : List LaneTag := []
  victims : List (Nat × Nat) := []
  allowed : Option (List Nat) := none
  window : List ROp := []
  cnt : CoreCnt := {}
  idleSince : Nat := 0
  lastTest : Option Nat := none
  sampleNext : Nat := 0
  deriving DecidableEq, Repr

/-! ## Compute dies -/

/-- A span held by a die L2 (R258) and whether it holds a write not yet cleaned (R257). -/
structure L2Span where
  line : Nat
  f : Nat
  l : Nat
  wts : Stamp
  rts : Stamp
  unclean : Bool
  deriving DecidableEq, Repr

/-- A party waiting in a distributor (R311, R312), or one that a restore puts back (R334). -/
structure WaitParty where
  lctr : Nat
  num : Nat
  ctx : Nat
  q : Nat
  prio : Nat
  dequeued : Nat
  since : Nat
  packet : BitVec 1024
  priv : Bool
  notice : Option Nat
  run : W32
  check : Bool
  throt : Bool
  stamps : Map Stamp
  restore : Option Nat := none
  /-- it has waited 65,536 clk (R313) -/
  late : Bool := false
  deriving DecidableEq, Repr

structure Die where
  leaseErr : Bool := false
  tick : BitVec 12 := 64
  lease : BitVec 8 := 10
  dic : Stamp := 0
  l2 : List L2Span := []
  swept : Stamp := 0
  waiting : List WaitParty := []
  deriving DecidableEq, Repr

/-! ## The directory and the checkers -/

inductive DirSt where
  | m | o | e | s
  deriving DecidableEq, Repr

/-- A tracked span (R263): the agents not in state I, rising, the interval number (R267), and the agent whose open record of the
interval carried WR 1 (R375). -/
structure DirSpan where
  line : Nat
  f : Nat
  l : Nat
  st : Map DirSt
  num : BitVec 24
  writer : Option Nat := none
  deriving DecidableEq, Repr

/-- A word of an agent's copy, or of the home's (agent 63), that an injected fault made differ from the span's data (R377). -/
structure OffWord where
  agent : Nat
  line : Nat
  i : Nat
  word : W32
  deriving DecidableEq, Repr

/-- The kinds of R270. `created` is the model's own: it stands for the directory's creation of a span, which sends no
record (R374), so that the checker learns in order which interval the span starts with. -/
inductive RecKind where
  | open_ | close | readJoin | mergeOpen | created
  deriving DecidableEq, Repr

/-- A record of R270 on its way to the home checker. -/
structure ChkRec where
  line : Nat
  f : Nat
  l : Nat
  num : BitVec 24
  hash : W32
  agent : Nat
  kind : RecKind
  wr : Bool
  sent : Nat
  /-- merge-open only: the hash of the words that no merged span covered (R271) -/
  rest : W32 := 0
  /-- merge-open only: the intervals merged -/
  parts : List IvalRef := []
  deriving DecidableEq, Repr

/-- What the home checker holds of an interval (R271, R272): the writer that sent WR = 1, the close hash and its
clk. -/
structure ChkIval where
  line : Nat
  f : Nat
  l : Nat
  num : BitVec 24
  writer : Option Nat
  openHash : Option W32
  closeHash : Option W32
  closed : Nat
  /-- earlier intervals that are not cleared though their successor is open, with the clks of their close records (R272) -/
  owed : List (IvalRef × Nat) := []
  deriving DecidableEq, Repr

/-! ## The switch die -/

structure DevStatus where
  ready : Bool := false
  fail : Bool := false
  degr : Bool := false
  therm : Bool := false
  stage : BitVec 8 := 0
  fcode : BitVec 16 := 0
  pairs : BitVec 8 := 0
  deriving DecidableEq, Repr

structure LinkStat where
  up : Bool := false
  width : BitVec 2 := 0
  rtt : BitVec 16 := 0
  retry : W32 := 0
  deriving DecidableEq, Repr

structure DevMode where
  res : BitVec 2 := 0
  mode : BitVec 4 := 0
  deriving DecidableEq, Repr

structure BiasCtl where
  err : Bool := false
  busy : Bool := false
  target : Bool := false
  gran : BitVec 36 := 0
  deriving DecidableEq, Repr

structure StrikeCfg where
  err : Bool := false
  sens : BitVec 8 := 0
  en : Bool := true
  deriving DecidableEq, Repr

structure PtpCfg where
  err : Bool := false
  en : Bool := false
  gm : Bool := false
  twostep : Bool := false
  port : BitVec 4 := 0
  synci : BitVec 4 := 0
  domain : BitVec 8 := 0
  prio1 : BitVec 8 := 128
  prio2 : BitVec 8 := 128
  cls : BitVec 8 := 248
  deriving DecidableEq, Repr

/-- The datum clock (R350): the count in ns, the state bits of %datum, the offsets within 50 ns in a row, and the
sync intervals without a message, and the latest time that an `rdtime` has returned (R150). -/
structure Datum where
  count : Nat := 0
  locked : Bool := false
  holdover : Bool := false
  scale : Bool := false
  good : Nat := 0
  sinceMsg : Nat := 0
  holdSince : Nat := 0
  last : Nat := 0
  deriving DecidableEq, Repr

structure InjectCfg where
  line : BitVec 45 := 0
  word : BitVec 5 := 0
  port : BitVec 8 := 0
  err : Bool := false
  fired : Bool := false
  arm : Bool := false
  mask : W32 := 0
  deriving DecidableEq, Repr

structure TestCtl where
  img : BitVec 52 := 0
  err : Bool := false
  busy : Bool := false
  en : Bool := false
  res : BitVec 4 := 0
  idle : BitVec 16 := 64
  gap : W32 := 600
  code : List W64 := []
  deriving DecidableEq, Repr

structure ElogCtl where
  base : BitVec 52 := 0
  err : Bool := false
  en : Bool := false
  ovf : Bool := false
  size : BitVec 8 := 0
  head : BitVec 16 := 0
  tail : BitVec 16 := 0
  seq : W32 := 0
  deriving DecidableEq, Repr

/-- A report on its way to the error log (R385). -/
structure Report where
  src : Nat
  addr : W64 := 0
  detail : W64 := 0
  ctx : Nat := 0xFFFF
  agent : Nat := 63
  core : Nat := 0x1FF
  /-- where the event of several entries that this one is part of sorts, by R386 -/
  event : Option Nat := none
  deriving DecidableEq, Repr

structure SampleCfg where
  buf : BitVec 52 := 0
  err : Bool := false
  en : Bool := false
  all : Bool := false
  period : BitVec 16 := 0
  pages : BitVec 16 := 0
  ctx : BitVec 16 := 0
  next : Nat := 0
  started : Nat := 0
  deriving DecidableEq, Repr

structure AttCtl where
  nonce : BitVec 58 := 0
  err : Bool := false
  busy : Bool := false
  done : Bool := false
  dest : BitVec 58 := 0
  deriving DecidableEq, Repr

structure PreemptCtl where
  dir : BitVec 52 := 0
  err : Bool := false
  busy : Bool := false
  status : BitVec 4 := 0
  count : BitVec 16 := 0
  ctx : BitVec 16 := 0
  restoring : Bool := false
  waitFor : List StopUnit := []
  /-- the context and the directory of the pre-emption in progress -/
  nowCtx : BitVec 16 := 0
  nowDir : BitVec 52 := 0
  deriving DecidableEq, Repr

structure MemCnt where
  ordv : W32 := 0
  twow : W32 := 0
  hashv : W32 := 0
  mergv : W32 := 0
  lost : W32 := 0
  eccc : W32 := 0
  eccu : W32 := 0
  deriving DecidableEq, Repr

structure SwitchCnt where
  merges : W32 := 0
  dead : W32 := 0
  drops : W32 := 0
  lretry : W32 := 0
  deriving DecidableEq, Repr

/-- CHK_CFG (R276), CRW_CFG (R283) and FIX_DEPTH (R286) of a device. -/
structure DevCfg where
  chkErr : Bool := false
  hold : Bool := true
  cchk : Bool := true
  rchk : Bool := true
  crwErr : Bool := false
  throt : Bool := true
  check : Bool := false
  fixErr : Bool := false
  fix : BitVec 6 := 24
  deriving DecidableEq, Repr

/-- A packet in a hardware queue: its age (R300), the pusher's clocks when the push was a release (R316), the
launch whose relaunch an `rlnch` asked for (R249), and for a notice (R322) the cause of its frame. -/
structure Pkt where
  data : BitVec 1024
  age : Nat
  stamp : Clocks := []
  notice : Option Nat := none
  byRlnch : Bool := false
  deriving DecidableEq, Repr

structure HwQueue where
  err : Bool := false
  halt : Bool := false
  fault : BitVec 4 := 0
  ovf : Bool := false
  part : Bool := false
  en : Bool := false
  privq : Bool := false
  devpush : Bool := false
  prio : BitVec 2 := 0
  ctx : BitVec 16 := 0
  pkts : List Pkt := []
  deriving DecidableEq, Repr

/-- A transport queue (R347) with its descriptors (R348). -/
structure XQueue where
  err : Bool := false
  ovf : Bool := false
  part : Bool := false
  en : Bool := false
  devpush : Bool := false
  ctx : BitVec 16 := 0
  descs : List (BitVec 1024) := []
  deriving DecidableEq, Repr

structure PeerRec where
  mac : BitVec 48 := 0
  ports : BitVec 12 := 0
  rctx : BitVec 16 := 0
  ctx : BitVec 16 := 0
  rpeer : BitVec 16 := 0
  err : Bool := false
  en : Bool := false
  failed : Map Nat := []
  deriving DecidableEq, Repr

/-- A launch that a relaunch can name (R363): its trace area and the checkpoint number when retention began. -/
structure Retained where
  trace : W64
  since : W32
  deriving DecidableEq, Repr

/-- A completion counter (R314, R315, R248). -/
structure Counter where
  caddr : W64 := 0
  ctx : BitVec 16 := 0
  endv : BitVec 24 := 0
  err : Bool := false
  count : BitVec 24 := 0
  done : Bool := false
  canc : Bool := false
  level : Level := .graph
  cval : W64 := 0
  parents : List (Level × Nat) := []
  armed : Bool := false
  cancelReq : Bool := false
  relaunching : Bool := false
  q : Nat := 0
  stamps : Map Stamp := []
  retained : Option Retained := none
  deriving DecidableEq, Repr

/-- A push of a crew's store that has reached its queue in this clk (R302): the clocks of its release, for a release. -/
structure PushReq where
  crew : Nat
  q : Nat
  full : Bool
  data : BitVec 1024
  stamp : Clocks
  deriving DecidableEq, Repr

/-- A launch slot of the dispatcher (R308, R311). -/
structure LaunchSlot where
  packet : BitVec 1024
  ctx : Nat
  dev : Nat
  q : Nat
  prio : Nat
  lctr : Nat
  /-- the age of its packet (R300) -/
  age : Nat
  dequeued : Nat
  next : Nat
  parties : Option (List (Nat × W32))
  /-- parties passed over because their dies' lists were full, with their run numbers -/
  passed : List (Nat × W32) := []
  priv : Bool
  notice : Option Nat
  check : Bool
  throt : Bool
  stamps : Map Stamp
  deriving DecidableEq, Repr

/-- A request to a sheet home: a post, or the reset of `shrs`, which follows every post of its clk (R242). -/
inductive SheetOp where
  | post (slot : Nat) (epoch : W32) (payload : W64) (k : Nat) (sd : SReg)
  | reset (sd : SReg)
  deriving DecidableEq, Repr

structure SheetReq where
  crew : Nat
  op : SheetOp
  deriving DecidableEq, Repr

/-- A sheet home (R240, R319). -/
structure SheetHome where
  epoch : W32 := 0
  ctx : BitVec 16 := 0
  err : Bool := false
  en : Bool := false
  slots : BitVec 10 := 0
  image : BitVec 57 := 0
  level : W32 := 0
  posted : BitVec 1024 := 0
  stamps : Map Stamp := []
  reqs : List SheetReq := []
  deriving DecidableEq, Repr

structure TrapCfg where
  lhentry : W64 := 0
  tmpl : W64 := 0
  err : Bool := false
  tq : BitVec 6 := 0
  en : Bool := false
  deriving DecidableEq, Repr

/-- A context record (R338), the CHK_CFG and FIX_DEPTH it took (R276, R286), and its DIE_MAP (R341). -/
structure Ctx where
  root : BitVec 40 := 0
  dev : BitVec 3 := 0
  err : Bool := false
  en : Bool := false
  hold : Bool := true
  cchk : Bool := true
  rchk : Bool := true
  fix : BitVec 6 := 24
  contained : Bool := false
  mapErr : Bool := false
  ents : W32 := 0
  deriving DecidableEq, Repr

structure DirtyMap where
  base : BitVec 40 := 0
  len : BitVec 26 := 0
  err : Bool := false
  en : Bool := false
  lctr : BitVec 12 := 0
  ctx : BitVec 16 := 0
  epoch : W32 := 0
  bits : List Nat := []
  deriving DecidableEq, Repr

/-- A preserved copy of a parcel (R369): its location, its bytes that are not 0 and its poisoned sectors. -/
structure Kept where
  parcel : Nat
  cells : List Host.Cell
  poison : List Nat
  deriving DecidableEq, Repr

structure CkptCtl where
  area : BitVec 40 := 0
  size : BitVec 24 := 0
  err : Bool := false
  busy : Bool := false
  rolling : Bool := false
  overf : Bool := false
  valid : Bool := false
  period : BitVec 10 := 0
  dead : BitVec 8 := 0
  dv : Bool := false
  num : W32 := 0
  kept : List Kept := []
  timer : Nat := 0
  deriving DecidableEq, Repr

structure SbxCtl where
  halted : Bool := false
  err : Bool := false
  dom : BitVec 8 := 0
  deriving DecidableEq, Repr

/-- A rank of a collective group that has arrived and waits (R225): its core and command. -/
structure Arrival where
  core : Nat
  rank : Nat
  cmd : EngCmd
  deriving DecidableEq, Repr

structure CollGroup where
  err : Bool := false
  ctx : BitVec 16 := 0
  members : BitVec 11 := 0
  arrivals : List Arrival := []
  deriving DecidableEq, Repr

/-- A custom reduction slot (R254): context, operation and type replaced, the parcels kept, the program. -/
structure SvcSlot where
  ctx : Nat
  aop : Rop
  ty : Ty
  parcels : List Nat
  code : List W64
  deriving DecidableEq, Repr

/-- A request of `svccfg` whose change every service crew still has to apply (R254). -/
structure SvcReq where
  crew : Nat
  slot : Nat
  result : W64
  install : Option SvcSlot
  remove : Bool
  deriving DecidableEq, Repr

/-- A party that a pre-emption saved (R331 to R334): its crews, with their numbers, the bytes of its pool and the
elements of its bands, each in pool or band order, and their poison. -/
structure SavedParty where
  party : Party
  crews : List Crew
  pool : List (List Host.Cell × List Nat)
  bands : List (Map W32 × List Nat)
  cmds : List EngCmd
  evs : List EvRec
  /-- commands that wait in the array orders, by core -/
  arr : List (Nat × ArrCmd) := []
  /-- the free value's number from which the bytes of its header and records were drawn (R332) -/
  seed : Nat := 0
  deriving DecidableEq, Repr

/-- A request that the switch holds while a granule's bias flips (R277). -/
inductive HeldReq where
  | get (agent line f l : Nat) (write asks : Bool)
  | clean (agent line f l : Nat)
  | home (loc : Nat) (bytes : List Byte) (lctr : Option Nat) (ch : Clocks)
  | walk (core ctx : Nat) (va : W64) (write : Bool)
  deriving DecidableEq, Repr

/-- A window of the physical address space (R44, R345): base and size. -/
structure PWindow where
  base : Nat
  size : Nat
  deriving DecidableEq, Repr

/-- A crew as it stood before an instruction that has not yet passed the fix window (R329). -/
structure Past where
  key : Nat
  at_ : Nat
  crew : Crew
  deriving DecidableEq, Repr

/-! ## The package -/

/-- The state of the package. -/
structure State where
  clk : Nat := 0
  free : Nat := 0
  agenda : List Instr := []
  runq : List Nat := []
  /-- the stages of the clk that have not begun: one for each compute die, in ascending agent number, and one for what follows them (R266) -/
  plan : List (List Instr) := []
  /-- what happens at the end of the clk, after the requests of its crews (R37, R239) -/
  late : List Instr := []
  /-- what arrives from outside, each from the clk given on -/
  inputs : List (Nat × Instr) := []
  /-- what arrives from outside without being an instruction, each from the clk given on (log entry 58) -/
  outside : List (Nat × Outside) := []
  cur : Nat := 0
  crews : Map Crew := []
  parties : Map Party := []
  cores : Map Core := []
  dies : Map Die := []
  past : List Past := []
  mem : List Host.Cell := []
  stale : List Host.Cell := []
  poison : List Nat := []
  cxl : List PWindow := []
  host : List PWindow := []
  lost : BitVec 8 := 0
  dir : List DirSpan := []
  /-- words that differ from the data of their span's source; by line, the clocks of the releases that have written to it; by agent, those that an outside agent has met (R65) -/
  offs : List OffWord := []
  relLines : Map Clocks := []
  agentSeen : Map Clocks := []
  /-- the lines that companion cores have reserved by LR, by core (R352) -/
  resv : Map Nat := []
  /-- the number of the next event record (R220) -/
  evNext : Nat := 0
  lastNum : Map (BitVec 24) := []
  recs : List ChkRec := []
  ivals : List ChkIval := []
  granules : List Nat := []
  heldReqs : List HeldReq := []
  svcq : Map (List AtomGroup) := []
  svc : Map SvcSlot := []
  svcReqs : List SvcReq := []
  status : DevStatus := {}
  link : LinkStat := {}
  mode : DevMode := {}
  bias : BiasCtl := {}
  strike : StrikeCfg := {}
  ptp : PtpCfg := {}
  datum : Datum := {}
  inject : InjectCfg := {}
  test : TestCtl := {}
  elog : ElogCtl := {}
  reports : List Report := []
  sample : SampleCfg := {}
  att : AttCtl := {}
  preempt : PreemptCtl := {}
  saved : List SavedParty := []
  /-- saved handler crews (R335); their tags name origin crews by party and number -/
  savedHand : List Crew := []
  kernels : List Kernel := []
  memCnt : Map MemCnt := []
  swCnt : SwitchCnt := {}
  devCfg : Map DevCfg := []
  queues : Map HwQueue := []
  /-- pushes of crews' stores that reach the queues in this clk (R302) -/
  pushes : List PushReq := []
  xqueues : Map XQueue := []
  peers : Map PeerRec := []
  counters : Map Counter := []
  slots : List LaunchSlot := []
  sheets : Map SheetHome := []
  trapCfg : Map TrapCfg := []
  ctxs : Map Ctx := []
  dirtyMaps : Map DirtyMap := []
  ckpt : Map CkptCtl := []
  sbx : Map SbxCtl := []
  groups : Map CollGroup := []
  beat : Map Nat := []
  dead : List Nat := []
  stopped : Bool := false
  step_ : Nat := 0
  powered : Bool := false
  replays : Nat := 0
  deriving DecidableEq, Repr

/-- The package before power-good (R356): every register at its reset value; the fields of the model's own at the
values of log entries 1 and 2. -/
def State.reset : State := {}

end Sys2Proof.Machine
end

