-- ==== Sys2Proof/Machine/Bits.lean ====
section
/-! DEFINITION. Bit fields, extensions, bit counts, sets of numbers and small lists: the helpers of R107 and what
the operations are built from. -/

namespace Sys2Proof.Machine

/-- Bits lo to lo + n - 1 of a number. -/
def fld (x lo n : Nat) : Nat := x / 2 ^ lo % 2 ^ n

/-- Bits lo to lo + n - 1 of a packet or record. -/
def bf {w : Nat} (x : BitVec w) (lo n : Nat) : BitVec n := x.extractLsb' lo n

/-- One bit of a packet or record. -/
def bit {w : Nat} (x : BitVec w) (i : Nat) : Bool := x.getLsbD i

/-- The low n bits of x as a signed number (R107 SExt). -/
def sInt (x n : Nat) : Int := if x % 2 ^ n < 2 ^ (n - 1) then (x % 2 ^ n : Nat) else (x % 2 ^ n : Nat) - (2 ^ n : Nat)

/-- An exact integer modulo 2^n. -/
def wrapN (x : Int) (n : Nat) : Nat := (x % (2 ^ n : Nat)).toNat

/-- SExt(x, n) and ZExt(x, n) of R107. -/
def sext64 (x n : Nat) : W64 := BitVec.ofInt 64 (sInt x n)
def zext64 (x n : Nat) : W64 := BitVec.ofNat 64 (x % 2 ^ n)

/-- The number of leading zero bits of an n-bit number. -/
def clzN : Nat → Nat → Nat
  | 0, _ => 0
  | n + 1, x => if x / 2 ^ n % 2 = 1 then 0 else 1 + clzN n x

/-- The number of 1 bits among the low n bits. -/
def popN : Nat → Nat → Nat
  | 0, _ => 0
  | n + 1, x => x / 2 ^ n % 2 + popN n x

/-- The low n bits in reverse order. -/
def revN : Nat → Nat → Nat
  | 0, _ => 0
  | n + 1, x => x % 2 * 2 ^ n + revN n (x / 2)

/-- The lowest i from `i` on, among `fuel` numbers, that satisfies p. -/
def firstN (p : Nat → Bool) : Nat → Nat → Option Nat
  | 0, _ => none
  | fuel + 1, i => if p i then some i else firstN p fuel (i + 1)

/-- The lane mask of a predicate on lanes. -/
def maskOf (p : Nat → Bool) : W32 := BitVec.ofFnLE (fun i : Fin 32 => p i.val)

/-- The lanes of a mask, rising. -/
def lanesOf (m : W32) : List Nat := lanes.filter fun l => m.getLsbD l

/-- A lane's 32 bits of a row. -/
def Row.at_ (r : Row) (l : Nat) : W32 := r.getD l 0

/-- A row from a function of the lane. -/
def mkRow (f : Nat → W32) : Row := lanes.map f

/-- Numbers as sorted lists without repeats. -/
def insN : Nat → List Nat → List Nat
  | x, [] => [x]
  | x, y :: ys => if x = y then y :: ys else if x < y then x :: y :: ys else y :: insN x ys
def delN (x : Nat) (l : List Nat) : List Nat := l.filter (· != x)

/-- Changes the element at an index. -/
def updAt {α : Type} (f : α → α) : Nat → List α → List α
  | _, [] => []
  | 0, x :: xs => f x :: xs
  | n + 1, x :: xs => x :: updAt f n xs

/-- Numbers from a to a + n - 1. -/
def upFrom (a n : Nat) : List Nat := (List.range n).map (a + ·)

/-- An element of least key, the first among equals. -/
def minBy {α : Type} (key : α → Nat) : List α → Option α
  | [] => none
  | x :: xs =>
    match minBy key xs with
    | none => some x
    | some y => if key x ≤ key y then some x else some y

/-- Insertion sort by a rising key, stable. -/
def insBy {α : Type} (key : α → Nat) (x : α) : List α → List α
  | [] => [x]
  | y :: ys => if key x ≤ key y then x :: y :: ys else y :: insBy key x ys
def sortBy {α : Type} (key : α → Nat) : List α → List α
  | [] => []
  | x :: xs => insBy key x (sortBy key xs)

/-- Saturating increment of a 32-bit counter (R382). -/
def satInc (x : W32) : W32 := if x == 0xFFFFFFFF then x else x + 1

/-- Timestamps under R261. -/
def stampLe (a b : Stamp) : Bool := (b - a).toNat < 2 ^ 15
def stampMax (a b : Stamp) : Stamp := if stampLe a b then b else a
def stampLt (a b : Stamp) : Bool := stampLe a b && a != b

/-- Rotation left within 32 bits (R268). -/
def rotl32 (x : W32) (n : Nat) : W32 := x.rotateLeft n

/-- Bytes of a number, least significant first (R7). -/
def bytesOf : Nat → Nat → List Byte
  | 0, _ => []
  | n + 1, x => BitVec.ofNat 8 x :: bytesOf n (x / 256)
def ofBytes : List Byte → Nat
  | [] => 0
  | b :: bs => b.toNat + 256 * ofBytes bs

end Sys2Proof.Machine
end

