-- ==== Sys2Proof/Machine/Mem.lean ====
section
/-! DEFINITION. Memory as cells, the physical address space (R44, R47, R337, R341), and address translation
(R44, R45, R338). -/

namespace Sys2Proof.Machine

/-! ## Cells

A memory is a list of cells, rising by address, none of them 0: what an unlisted address reads as. -/

/-- The byte at an address. -/
def memGet (m : List Host.Cell) (a : Nat) : Byte := Map.get 0 m a
/-- Writes a byte; writing 0 takes the cell out. -/
def memSet (m : List Host.Cell) (a : Nat) (b : Byte) : List Host.Cell := Map.set 0 m a b

/-- The canonical form: addresses strictly rising, no cell 0. -/
def Memory.wf : List Host.Cell → Bool
  | [] => true
  | [(_, b)] => b != 0
  | (a, b) :: (a', b') :: m => b != 0 && a < a' && Memory.wf ((a', b') :: m)

def memBytes (m : List Host.Cell) (a n : Nat) : List Byte := (upFrom a n).map (memGet m)
/-- The little-endian number of n bytes. -/
def memNat (m : List Host.Cell) (a n : Nat) : Nat := ofBytes (memBytes m a n)
def memPut (m : List Host.Cell) (cs : List Host.Cell) : List Host.Cell := cs.foldl (fun m c => memSet m c.1 c.2) m
def cellsOf (a : Nat) (bs : List Byte) : List Host.Cell := (upFrom a bs.length).zip bs

/-! ## Physical addresses -/

/-- Locations: the physical pair that serves an address, 8 for the CXL tier and host memory, times 2^52, plus the
52-bit physical address. -/
def pairBase : Nat := 2 ^ 52
def locPair (loc : Nat) : Nat := loc / pairBase
def locPa (loc : Nat) : Nat := loc % pairBase
/-- CTLBASE (R337). -/
def ctlBase : Nat := 0xFFFFFFFE00000

def inWin (ws : List PWindow) (pa : Nat) : Bool := ws.any fun w => w.base ≤ pa && pa < w.base + w.size

/-- The logical die pair, among those of one device, at which R47 homes an address. -/
def homeE (mode : BitVec 4) (pa : Nat) : Nat :=
  match mode.toNat with
  | 1 => (fld pa 12 3) ^^^ (fld pa 20 3)
  | 2 => (fld pa 12 2) ^^^ (fld pa 20 2)
  | _ => 0

/-- ENT(e) of a DIE_MAP (R341). -/
def Ctx.pair (c : Ctx) (e : Nat) : Nat := (c.ents.toNat / 2 ^ (4 * e)) % 8
def Ctx.valid (c : Ctx) (e : Nat) : Bool := c.ents.getLsbD (4 * e + 3)

def State.ctx (s : State) (c : Nat) : Ctx := Map.get {} s.ctxs c

/-- Whether a context exists (R338). -/
def State.ctxExists (s : State) (c : Nat) : Bool := c < 128 && (s.ctx c).en

/-- The physical pair of an address's home compute die (R47, R341). -/
def State.homePair (s : State) (ctx pa : Nat) : Nat := (s.ctx ctx).pair (homeE s.mode.mode pa)

/-- The control region (R337). -/
def isCtl (pa : Nat) : Bool := ctlBase ≤ pa && pa < ctlBase + 2 ^ 21
/-- Whether a location lies in the control region: pair 9. -/
def locCtl (loc : Nat) : Bool := locPair loc == 9

/-- The location of a physical address as a context reaches it (R341). -/
def State.locOf (s : State) (ctx pa : Nat) : Nat :=
  if isCtl pa then 9 * pairBase + pa
  else if inWin s.cxl pa || inWin s.host pa then 8 * pairBase + pa else s.homePair ctx pa * pairBase + pa


/-- The owner cluster of an address (R186). -/
def State.owner (s : State) (ctx pa : Nat) : Nat := 9 * s.homePair ctx pa + (pa / 4096) % 9

/-- The pairs of a device (R340) and the number of its pairs. -/
def devPairs (mode : BitVec 4) (d : Nat) : List Nat :=
  match mode.toNat with
  | 1 => List.range 8
  | 2 => upFrom (4 * d) 4
  | _ => [d]
def devCount (mode : BitVec 4) : Nat := match mode.toNat with | 1 => 1 | 2 => 2 | _ => 8
/-- The device of a physical pair. -/
def devOfPair (mode : BitVec 4) (p : Nat) : Nat := match mode.toNat with | 1 => 0 | 2 => p / 4 | _ => p
/-- A device's share of a resource of which the package has `total` (R340). -/
def devShare (mode : BitVec 4) (total : Nat) : Nat := total / devCount mode

/-- The memory die whose checker serves a location: its home, and for CXL-tier and host memory the die that R47 gives for a
device (R269). -/
def State.checkerOf (s : State) (dev loc : Nat) : Nat :=
  if locPair loc < 8 then locPair loc
  else (devPairs s.mode.mode dev).getD (homeE s.mode.mode (locPa loc)) dev

/-- The device to which an agent belongs (R340). -/
def agentDev (mode : BitVec 4) (a : Nat) : Option Nat :=
  if a < 8 then some (devOfPair mode a) else if a < 56 then some ((a - 8) / devShare mode 48) else none

/-- The device whose checker serves a line: that of an agent that holds it, else the first. -/
def State.lineDev (s : State) (line : Nat) : Nat :=
  (((s.dir.filter (·.line == line)).flatMap fun d => d.st.filterMap fun a => agentDev s.mode.mode a.1)[0]?).getD 0

/-- Whether a device exists under the mode (R339): in mode 8, one whose die pair passed bring-up, lost since or not (R342). -/
def State.devExists (s : State) (d : Nat) : Bool :=
  match s.mode.mode.toNat with
  | 1 => d == 0
  | 2 => d < 2
  | _ => d < 8 && (s.status.pairs ||| s.lost).getLsbD d

def State.ctxDev (s : State) (c : Nat) : Nat := (s.ctx c).dev.toNat
/-- The physical number of a context's device-local resource number (R340). -/
def State.phys (s : State) (c total j : Nat) : Nat :=
  s.ctxDev c * devShare s.mode.mode total + j % devShare s.mode.mode total
/-- Whether a device-local number exists. -/
def State.inShare (s : State) (total j : Nat) : Bool := j < devShare s.mode.mode total
/-- The device-local number of a physical resource number. -/
def State.local_ (s : State) (total p : Nat) : Nat := p % devShare s.mode.mode total

/-! ## Virtual addresses -/

/-- R44: bits 63:57 equal bit 56. -/
def canonical (va : W64) : Bool := va == (BitVec.signExtend 64 (va.extractLsb' 0 57))

/-- What an access needs of a page (R45). -/
inductive Need where
  | read | write | both | exec
  deriving DecidableEq, Repr

/-- A leaf of the page tables: location of its entry, its bits, the page size as a power of two. -/
structure Leaf where
  at_ : Nat
  pte : Nat
  size : Nat
  deriving DecidableEq, Repr

/-- A leaf entry of Sv57 with Svnapot at a level: its page size, none where the entry is not valid (R338). -/
def leafSize (pte lvl : Nat) : Option Nat :=
  let n := fld pte 63 1
  let ppn := fld pte 10 44
  if n = 1 then (if lvl = 0 ∧ ppn % 16 = 8 then some 16 else none)
  else match lvl with
    | 0 => some 12
    | 1 => if ppn % 2 ^ 9 = 0 then some 21 else none
    | 2 => if ppn % 2 ^ 18 = 0 then some 30 else none
    | _ => none

/-- The walk from a table at a level down (R338): none where nothing valid is mapped. -/
def walkFrom (s : State) (ctx : Nat) (va : Nat) : Nat → Nat → Option Leaf
  | lvl, table =>
    let at_ := s.locOf ctx (table + 8 * fld va (12 + 9 * lvl) 9)
    let pte := memNat s.mem at_ 8
    let v := fld pte 0 1
    let r := fld pte 1 1
    let w := fld pte 2 1
    let x := fld pte 3 1
    if v = 0 ∨ (r = 0 ∧ w = 1) ∨ fld pte 54 7 ≠ 0 ∨ fld pte 61 2 ≠ 0 then none
    else if r = 1 ∨ x = 1 then (leafSize pte lvl).map fun size => ⟨at_, pte, size⟩
    else if fld pte 63 1 = 1 then none
    else match lvl with
      | 0 => none
      | lvl' + 1 => walkFrom s ctx va lvl' (4096 * fld pte 10 40)

/-- The physical address of a leaf (R338): the low bits of a napot number name the page within it. Physical addresses have
52 bits (R44), so the page number is the low 40 bits of PPN (log entry 67). -/
def Leaf.pa (lf : Leaf) (va : Nat) : Nat :=
  let ppn := fld lf.pte 10 40
  (ppn * 4096) / 2 ^ lf.size * 2 ^ lf.size + va % 2 ^ lf.size

def Leaf.r (lf : Leaf) : Bool := fld lf.pte 1 1 == 1
def Leaf.w (lf : Leaf) : Bool := fld lf.pte 2 1 == 1
def Leaf.x (lf : Leaf) : Bool := fld lf.pte 3 1 == 1
def Leaf.allows (lf : Leaf) : Need → Bool
  | .read => lf.r
  | .write => lf.w
  | .both => lf.r && lf.w
  | .exec => lf.x

/-- The walk of a context's tables (R338). -/
def State.walk (s : State) (ctx : Nat) (va : W64) : Option Leaf :=
  walkFrom s ctx va.toNat 4 ((s.ctx ctx).root.toNat * 4096)

/-- Translation: a physical address or the kind of cause 0x05 (R44, R45): 1 non-canonical, 2 not mapped,
3 protection. -/
def State.xlate (s : State) (ctx : Nat) (va : W64) (need : Need) : Except Nat Nat :=
  if !canonical va then .error 1
  else match s.walk ctx va with
    | none => .error 2
    | some lf => if lf.allows need then .ok (lf.pa va.toNat) else .error 3

/-! ## Poison and the bytes of the devices -/

/-- Whether a sector is poisoned: it was set so, its pair is lost (R342), or its host is out of reach (R343). -/
def State.isPoisoned (s : State) (loc : Nat) : Bool :=
  s.poison.contains (loc / 32) || (locPair loc < 8 && s.lost.getLsbD (locPair loc)) ||
    (s.link.width == 3 && inWin s.host (locPa loc) && !s.granules.contains (locPa loc / 65536))

/-- Sets the poison of sectors. -/
def State.poisonSectors (s : State) (secs : List Nat) : State :=
  { s with poison := secs.foldl (fun p x => insN x p) s.poison }
def State.clearSectors (s : State) (secs : List Nat) : State :=
  { s with poison := s.poison.filter fun x => !secs.contains x }

/-- The sectors that cells cover whole (R58). -/
def wholeSectors (cs : List Host.Cell) : List Nat :=
  (cs.map (·.1 / 32)).eraseDups.filter fun x => ((cs.filter fun c => c.1 / 32 == x).map (·.1)).eraseDups.length ≥ 32

/-- What the HBM or CXL device still holds stays behind the caches until it is flushed (R196, R346). -/
def staleNote (mem st : List Host.Cell) (c : Host.Cell) : List Host.Cell :=
  match Map.find? st c.1 with
  | some _ => st
  | none => Map.put st c.1 (memGet mem c.1)

/-- The lines of a memory die's last-level cache (R11): 160 MiB of 128 bytes. -/
def llcLines : Nat := 1310720

/-- A last-level cache that holds more changed lines than it has lines writes one of them back to its HBM; which one is the model's
choice (log entry 69). -/
def llcRoom (st : List Host.Cell) (p : Nat) : List Host.Cell :=
  if st.length ≤ llcLines then st
  else
    let mine := ((st.filter fun c => locPair c.1 == p).map (·.1 / 128)).eraseDups
    match mine with
    | line :: _ => if mine.length ≤ llcLines then st else st.filter fun c => c.1 / 128 != line
    | [] => st

/-- Writes cells at their point of coherence (R255): the bytes, and the poison of sectors written whole (R58). -/
def State.perform (s : State) (cs : List Host.Cell) : State :=
  { s with
    stale := (List.range 8).foldl llcRoom (cs.foldl (staleNote s.mem) s.stale)
    mem := memPut s.mem cs
    poison := s.poison.filter fun x => !(wholeSectors cs).contains x }

/-- The word i of a line. -/
def State.lineWord (s : State) (line i : Nat) : W32 := BitVec.ofNat 32 (memNat s.mem (128 * line + 4 * i) 4)

/-- The fold hash of a span (R268). -/
def State.hash (s : State) (line f l : Nat) : W32 :=
  (upFrom f (l + 1 - f)).foldl (fun h i => h ^^^ rotl32 (s.lineWord line i) i) 0

/-- The words of a span. -/
def State.spanWords (s : State) (line f l : Nat) : List W32 := (upFrom f (l + 1 - f)).map (s.lineWord line)

end Sys2Proof.Machine
end

