-- ==== Sys2Proof/Config.lean ====
section
/-! DEFINITION. What an implementation of the AX960 fixes and the manual leaves open: constants with no body.
Nothing in Lean can evaluate them, so a statement holds whatever their values are. -/

namespace Sys2Proof.Config

/-- DESIGN CHOICE (log entry 1). A bit that the manual leaves free, chosen afresh for each value of the
counter `State.free`: which version of a changed code word a fetch sees (R106), and whether a
read that does not snoop sees the older bytes (R346). -/
opaque freeBit : Nat → Bool

/-- The approximations of R161: a candidate bit pattern for an operation, a type and an operand.
The model uses it only when it lies inside the manual's bound. -/
opaque approx : Nat → Nat → Nat → Nat

/-- Whether an image's Ed25519 signature verifies against the keys the part holds (R254, R355, R380). -/
opaque signatureOk : List (BitVec 8) → Bool

/-- Whether a verified image's version is below the fused rollback counter (R355, R380). -/
opaque belowRollback : List (BitVec 8) → Bool

/-- The bytes of an attestation report that only the part's keys, hashes and packing determine (R390), by the byte's position and the
bytes that it depends on: none for what is fixed in the part, the test image's code for its hash, the reported values for bytes 232 to
239, and bytes 0 to 447 for the signature. -/
opaque attestByte : List (BitVec 8) → Nat → BitVec 8

/-- The contents of a save record or preservation area, whose layout is not architectural (R332, R369). -/
opaque recordByte : Nat → BitVec 8

/-- What the device reads as the n-th word of state from a save record or a party's header whose bytes have changed since the save
(R305, R332). -/
opaque recordWord : List (BitVec 8) → Nat → BitVec 64

/-- The PTP time and other time values a message carries are inputs; the fraction of a nanosecond by
which a reading may differ from the switch die's datum clock, at most 16 ns, is free (R150). -/
opaque datumSkew : Nat → Nat

/-- By how much the datum clock is slewed at the end of its n-th stretch of 4,200 clk (2,000 ns), in holdover of 42,000,000 clk (20 ms):
0, 1 or 2 stand for −1, 0 and +1 ns, which is at most 0.05 %, in holdover 50 ns per second (R350). -/
opaque datumSlew : Nat → Nat

/-- Whether an agent (R263; 64 + m for memory die m) sends its n-th heartbeat (R370). -/
opaque agentAlive : Nat → Nat → Bool

/-- The first cause that the log entry of a containment event gives where no trap cause stands behind it (R385 SRC 6):
a dead agent, a lost link, a thermal trip, a halted sandbox. -/
opaque containCause : Nat → BitVec 8

/-- The number of clk after which the model lets a checker record reach its home checker when nothing
waits for it. DESIGN CHOICE (log entry 9): the manual only requires it within 2^16 clk (R271). -/
def recordDelay : Nat := 64

end Sys2Proof.Config
end

