-- ==== Sys2Proof/Machine/Numeric.lean ====
section
/-! DEFINITION. Number formats and exact arithmetic (R109 to R125): values, one rounding, the flags of a rounding,
exact sums, conversions, the block formats, and the approximations of R161 inside their bounds. -/

namespace Sys2Proof
open Machine

/-! ## Integers (R109, R110) -/

def ITy.lo (t : ITy) : Int := if t.signed then -(2 ^ (t.bits - 1) : Nat) else 0
def ITy.hi (t : ITy) : Int := if t.signed then (2 ^ (t.bits - 1) : Nat) - 1 else (2 ^ t.bits : Nat) - 1

/-- The number that the low bits of x hold in a type. -/
def ITy.val (t : ITy) (x : Nat) : Int := if t.signed then sInt x t.bits else (x % 2 ^ t.bits : Nat)

/-- An exact result into the type's bits: clamped with SAT, else wrapped (R109). -/
def ITy.narrow (t : ITy) (sat : Bool) (x : Int) : Nat :=
  wrapN (if sat then max (ITy.lo t) (min (ITy.hi t) x) else x) t.bits

/-- Quotient and remainder of R109. -/
def quotI (a b : Int) : Int := if b = 0 then 0 else a.tdiv b
def remI (a b : Int) : Int := if b = 0 then a else a.tmod b

/-! ## Binary formats (R111) -/

/-- Precision with the hidden bit, exponent of the smallest normal, exponent bits. -/
structure Fmt where
  p : Nat
  emin : Int
  ebits : Nat
  deriving DecidableEq, Repr

def fmt16 : Fmt := ⟨11, -14, 5⟩
def fmt32 : Fmt := ⟨24, -126, 8⟩
def fmt64 : Fmt := ⟨53, -1022, 11⟩
def FTy.fmt : FTy → Fmt
  | .f16 => fmt16 | .f32 => fmt32 | .f64 => fmt64

def Fmt.width (f : Fmt) : Nat := f.p + f.ebits
def Fmt.frac (f : Fmt) : Nat := f.p - 1
/-- The bits of +infinity, of the default NaN (R112), of the largest finite value. -/
def Fmt.infBits (f : Fmt) : Nat := (2 ^ f.ebits - 1) * 2 ^ (f.p - 1)
def Fmt.nanBits (f : Fmt) : Nat := f.infBits + 2 ^ (f.p - 2)
def Fmt.maxBits (f : Fmt) : Nat := f.infBits - 1
def Fmt.signBit (f : Fmt) (neg : Bool) : Nat := if neg then 2 ^ (f.width - 1) else 0

/-- A datum: a NaN, quiet or signalling; an infinity; or (-1)^neg * m * 2^e. -/
inductive FVal where
  | nan (sig : Bool)
  | inf (neg : Bool)
  | fin (neg : Bool) (m : Nat) (e : Int)
  deriving DecidableEq, Repr

/-- The datum of a bit pattern (R111). -/
def Fmt.decode (f : Fmt) (x : Nat) : FVal :=
  let neg := fld x (f.width - 1) 1 == 1
  let ex := fld x (f.p - 1) f.ebits
  let fr := fld x 0 (f.p - 1)
  if ex = 2 ^ f.ebits - 1 then
    (if fr = 0 then .inf neg else .nan (fld fr (f.p - 2) 1 == 0))
  else if ex = 0 then .fin neg fr (f.emin - (f.p - 1 : Nat))
  else .fin neg (fr + 2 ^ (f.p - 1)) (f.emin - (f.p - 1 : Nat) + (ex - 1 : Nat))

/-! ## Flags of R114 -/

def flNV : Fl := 16
def flDZ : Fl := 8
def flOF : Fl := 4
def flUF : Fl := 2
def flNX : Fl := 1

/-- A result: bit pattern and flags raised. -/
structure FRes where
  bits : Nat
  fl : Fl := 0
  deriving DecidableEq, Repr

/-! ## Rounding (R113) -/

/-- num/den rounded to an integer by a code; `neg` is the sign of the whole value. -/
def roundNat (r : Rnd) (neg : Bool) (num den : Nat) : Nat :=
  let k := num / den
  let rem := num % den
  if rem = 0 then k
  else match r with
    | .rn => if 2 * rem > den ∨ (2 * rem = den ∧ k % 2 = 1) then k + 1 else k
    | .rz => k
    | .ru => if neg then k else k + 1
    | .rd => if neg then k + 1 else k
    | .ra => if 2 * rem ≥ den then k + 1 else k

/-- num/den * 2^e as a fraction without exponent. -/
def scaleQ (num den : Nat) (e : Int) : Nat × Nat :=
  if 0 ≤ e then (num * 2 ^ e.toNat, den) else (num, den * 2 ^ (-e).toNat)

/-- ⌊log2 (num/den * 2^e)⌋ for a positive number. -/
def log2Q (num den : Nat) (e : Int) : Int :=
  let g : Int := (Nat.log2 num : Int) - (Nat.log2 den : Int)
  let (n, d) := scaleQ num den (-g)
  (if n < d then g - 1 else if n ≥ 2 * d then g + 1 else g) + e

/-- The exact positive value num/den * 2^e, with sign `neg`, rounded once to a format (R113), with the flags of a
rounding (R114). `inexact` says that the true value lies just above num/den * 2^e. -/
def Fmt.round (f : Fmt) (r : Rnd) (neg : Bool) (num den : Nat) (e : Int) (inexact : Bool := false) : FRes :=
  if num = 0 then ⟨f.signBit neg, if inexact then flUF ||| flNX else 0⟩
  else
    let num' := if inexact then num * 4 + 1 else num
    let e' := if inexact then e - 2 else e
    let ex := log2Q num' den e'
    let q := max ex f.emin - (f.p - 1 : Nat)
    let (n, d) := scaleQ num' den (e' - q)
    let k := roundNat r neg n d
    let exact := n % d == 0
    let qu := ex - (f.p - 1 : Nat)
    let (nu, du) := scaleQ num' den (e' - qu)
    let ku := roundNat r neg nu du
    let tiny := qu + (Nat.log2 ku : Int) < f.emin
    let mag := ((q + (f.p - 1 : Nat) - f.emin).toNat) * 2 ^ (f.p - 1) + k
    if mag ≥ f.infBits then
      let toInf := match r with
        | .rn => true | .ra => true | .rz => false | .ru => !neg | .rd => neg
      ⟨f.signBit neg + (if toInf then f.infBits else f.maxBits), flOF ||| flNX⟩
    else
      ⟨f.signBit neg + mag, (if exact then 0 else flNX) ||| (if tiny && !exact then flUF else 0)⟩

/-! ## Exact products and sums (R122, R123, R125) -/

def FVal.neg : FVal → FVal
  | .nan s => .nan s
  | .inf n => .inf (!n)
  | .fin n m e => .fin (!n) m e

def FVal.isNan : FVal → Bool
  | .nan _ => true | _ => false
def FVal.isSig : FVal → Bool
  | .nan s => s | _ => false
def FVal.isNeg : FVal → Bool
  | .nan _ => false | .inf n => n | .fin n _ _ => n
def FVal.isZero : FVal → Bool
  | .fin _ 0 _ => true | _ => false

/-- An exact product, and whether it raises NV: a signalling operand or infinity times zero. -/
def FVal.mul (a b : FVal) : FVal × Bool :=
  let sig := a.isSig || b.isSig
  match a, b with
  | .nan _, _ => (.nan false, sig)
  | _, .nan _ => (.nan false, sig)
  | .inf n, .inf n' => (.inf (n != n'), false)
  | .inf n, .fin n' m _ => if m = 0 then (.nan false, true) else (.inf (n != n'), false)
  | .fin n m _, .inf n' => if m = 0 then (.nan false, true) else (.inf (n != n'), false)
  | .fin n m e, .fin n' m' e' => (.fin (n != n') (m * m') (e + e'), false)

/-- The exact sum of finite terms: a signed number of units of 2^e. -/
def addDy (x y : Int × Int) : Int × Int :=
  let e := min x.2 y.2
  (x.1 * (2 ^ (x.2 - e).toNat : Nat) + y.1 * (2 ^ (y.2 - e).toNat : Nat), e)

def FVal.dy : FVal → Int × Int
  | .fin n m e => (if n then -(m : Int) else m, e)
  | _ => (0, 0)

def sumDy (ts : List FVal) : Int × Int :=
  match ts.map FVal.dy with
  | [] => (0, 0)
  | d :: ds => ds.foldl addDy d

/-- An exact sum: its value and whether it raises NV, which a signalling NaN and infinities of opposite sign do, whatever else
is in the sum (R114, R123). A zero sum is negative when every term is a negative zero, or, when terms of both signs cancel, under
code 3. -/
def sumVals (r : Rnd) (ts : List FVal) : FVal × Bool :=
  let pos := ts.any fun t => t == .inf false
  let neg := ts.any fun t => t == .inf true
  if ts.any FVal.isNan then (.nan false, ts.any FVal.isSig || (pos && neg))
  else
    if pos && neg then (.nan false, true)
    else if pos then (.inf false, false)
    else if neg then (.inf true, false)
    else
      let (m, e) := sumDy ts
      if m = 0 then
        let allNeg := ts.all fun t => t.isZero && t.isNeg
        let allPos := ts.all fun t => t.isZero && !t.isNeg
        (.fin (if allNeg then true else if allPos then false else r == .rd) 0 0, false)
      else (.fin (m < 0) m.natAbs e, false)

/-- A value delivered in a format: NaNs become the default NaN (R112). -/
def Fmt.deliver (f : Fmt) (r : Rnd) (v : FVal) (nv : Bool) : FRes :=
  match v with
  | .nan _ => ⟨f.nanBits, if nv then flNV else 0⟩
  | .inf n => ⟨f.signBit n + f.infBits, if nv then flNV else 0⟩
  | .fin n m e =>
    let x := f.round r n m 1 e
    ⟨x.bits, x.fl ||| (if nv then flNV else 0)⟩

def Fmt.sum (f : Fmt) (r : Rnd) (ts : List FVal) : FRes :=
  let (v, nv) := sumVals r ts
  f.deliver r v nv

def Fmt.add (f : Fmt) (r : Rnd) (a b : Nat) : FRes := f.sum r [f.decode a, f.decode b]
def Fmt.sub (f : Fmt) (r : Rnd) (a b : Nat) : FRes := f.sum r [f.decode a, (f.decode b).neg]
def Fmt.mul (f : Fmt) (r : Rnd) (a b : Nat) : FRes :=
  let (v, nv) := (f.decode a).mul (f.decode b)
  f.deliver r v nv

/-- The exact sum of an addend and products, rounded once (R125, R159); z is the code under which a cancelled zero takes its
sign. -/
def Fmt.dot (f : Fmt) (r z : Rnd) (c : FVal) (ps : List (FVal × FVal)) : FRes :=
  let ms := ps.map fun p => p.1.mul p.2
  let (v, nv) := sumVals z (c :: ms.map (·.1))
  f.deliver r v (nv || ms.any (·.2))

/-- `vfma`: the case of one product of `vfdot` (R125), so a cancelled zero takes its sign under code 0 (R123; log entry 72). -/
def Fmt.fma (f : Fmt) (r : Rnd) (a b c : Nat) : FRes := f.dot r .rn (f.decode c) [(f.decode a, f.decode b)]

def Fmt.div (f : Fmt) (r : Rnd) (a b : Nat) : FRes :=
  let x := f.decode a
  let y := f.decode b
  let neg := x.isNeg != y.isNeg
  let nv : FRes := ⟨f.nanBits, flNV⟩
  if x.isNan || y.isNan then ⟨f.nanBits, if x.isSig || y.isSig then flNV else 0⟩
  else match x, y with
    | .inf _, .inf _ => nv
    | .inf _, _ => ⟨f.signBit neg + f.infBits, 0⟩
    | _, .inf _ => ⟨f.signBit neg, 0⟩
    | .fin _ m e, .fin _ m' e' =>
      if m' = 0 then (if m = 0 then nv else ⟨f.signBit neg + f.infBits, flDZ⟩)
      else if m = 0 then ⟨f.signBit neg, 0⟩
      else f.round r neg m m' (e - e')
    | _, _ => nv

def Fmt.sqrt (f : Fmt) (r : Rnd) (a : Nat) : FRes :=
  match f.decode a with
  | .nan s => ⟨f.nanBits, if s then flNV else 0⟩
  | .inf neg => if neg then ⟨f.nanBits, flNV⟩ else ⟨f.infBits, 0⟩
  | .fin neg m e =>
    if m = 0 then ⟨f.signBit neg, 0⟩
    else if neg then ⟨f.nanBits, flNV⟩
    else
      let sh := 2 * f.p + 4 + (if (e - (2 * f.p + 4 : Nat)) % 2 = 0 then 0 else 1)
      let n := m * 2 ^ sh
      let q := Nat.sqrt n
      f.round r false q 1 ((e - (sh : Nat)) / 2) (q * q != n)

/-! ## Order, minimum and maximum (R160) -/

/-- Compares two values that are not NaN: -1, 0 or 1; the zeros are equal. -/
def FVal.cmp (a b : FVal) : Int :=
  match a, b with
  | .inf n, .inf n' => if n = n' then 0 else if n then -1 else 1
  | .inf n, _ => if n then -1 else 1
  | _, .inf n => if n then 1 else -1
  | .fin .., .fin .. =>
    let (m, _) := addDy a.dy (b.neg).dy
    if m < 0 then -1 else if m = 0 then 0 else 1
  | _, _ => 0

/-- The conditions of `vfcmp`, with .ne true and the others false when unordered (R81). -/
def FVal.holds (c : Cond) (a b : FVal) : Bool :=
  if a.isNan || b.isNan then c == .ne
  else
    let o := a.cmp b
    match c with
    | .eq => o == 0 | .ne => o != 0 | .lt => o < 0 | .le => o ≤ 0 | .gt => o > 0 | .ge => o ≥ 0
    | _ => false

/-- minimumNumber and maximumNumber of two bit patterns: the other operand of a NaN unchanged (R160). -/
def Fmt.minmax (f : Fmt) (mx : Bool) (a b : Nat) : FRes :=
  let x := f.decode a
  let y := f.decode b
  let fl := if x.isSig || y.isSig then flNV else 0
  if x.isNan && y.isNan then ⟨f.nanBits, fl⟩
  else if x.isNan then ⟨b, fl⟩
  else if y.isNan then ⟨a, fl⟩
  else
    let less := if x.cmp y = 0 then x.isNeg && !y.isNeg else x.cmp y < 0
    ⟨if less != mx then a else if x.cmp y = 0 && x.isNeg == y.isNeg then a else b, fl⟩

/-- The class bit of `vfcls` (R160). -/
def Fmt.cls (f : Fmt) (a : Nat) : Nat :=
  match f.decode a with
  | .nan s => if s then 8 else 9
  | .inf n => if n then 0 else 7
  | .fin n m _ =>
    if m = 0 then (if n then 3 else 4)
    else if m < 2 ^ (f.p - 1) then (if n then 2 else 5)
    else if n then 1 else 6

/-! ## Conversions (R116) -/

/-- A finite value rounded to an integer. -/
def toInt (r : Rnd) (neg : Bool) (m : Nat) (e : Int) : Int × Bool :=
  let (n, d) := scaleQ m 1 e
  let k := roundNat r neg n d
  (if neg then -(k : Int) else k, n % d == 0)

def floatToInt (f : Fmt) (r : Rnd) (t : ITy) (a : Nat) : FRes :=
  match f.decode a with
  | .nan _ => ⟨0, flNV⟩
  | .inf n => ⟨wrapN (if n then ITy.lo t else ITy.hi t) t.bits, flNV⟩
  | .fin n m e =>
    let (x, exact) := toInt r n m e
    if x < ITy.lo t then ⟨wrapN (ITy.lo t) t.bits, flNV⟩
    else if ITy.hi t < x then ⟨wrapN (ITy.hi t) t.bits, flNV⟩
    else ⟨wrapN x t.bits, if exact then 0 else flNX⟩

def intToFloat (f : Fmt) (r : Rnd) (x : Int) : FRes := f.round r (x < 0) x.natAbs 1 0

def floatToFloat (src dst : Fmt) (r : Rnd) (a : Nat) : FRes :=
  let v := src.decode a
  dst.deliver r v v.isSig

/-- `vfrnd`: an integral value in the same format; a zero result keeps the sign (R116). -/
def Fmt.rnd (f : Fmt) (r : Rnd) (a : Nat) : FRes :=
  match f.decode a with
  | .fin n m e =>
    let (x, exact) := toInt r n m e
    let y := f.round r n x.natAbs 1 0
    ⟨y.bits, if exact then 0 else flNX⟩
  | v => f.deliver r v v.isSig

/-- One lane of `vcvt`. -/
def cvt (r : Rnd) (sat : Bool) (dst src : Ty) (a : Nat) : FRes :=
  match dst, src with
  | .int t, .int u => ⟨ITy.narrow t sat (ITy.val u a), 0⟩
  | .int t, .flt u => floatToInt u.fmt r t a
  | .flt t, .int u => intToFloat t.fmt r (ITy.val u a)
  | .flt t, .flt u => floatToFloat u.fmt t.fmt r a
  | _, _ => ⟨0, 0⟩

/-! ## Block formats (R117 to R121) -/

/-- The magnitude bits and block bytes of a format. -/
def PTy.m : PTy → Nat
  | .pb4 => 2 | .pb6 => 4 | .pb9 => 7
def PTy.size : PTy → Nat
  | .pb4 => 8 | .pb6 => 12 | .pb9 => 18

/-- Element i of a block as a little-endian number (R118, R119). -/
def PTy.elem (t : PTy) (blk i : Nat) : FVal :=
  let ex := fld blk 0 8
  let st := fld blk (8 + 2 * (i / 4)) 2
  let w := fld blk (16 + i * (t.m + 1)) (t.m + 1)
  let mag := fld w 0 t.m
  let neg := fld w t.m 1 == 1
  if ex = 255 then .nan false
  else .fin neg mag ((ex : Int) - 127 - (st : Int) - ((t.m : Int) - 1))

def pow2Lt (m : Nat) (e k : Int) : Bool :=
  -- m * 2^e < 2^k
  let (n, d) := scaleQ m 1 (e - k)
  n < d

/-- The step of a quad of a block with exponent field ex (R120). -/
def quadStep (ex : Int) (q : List FVal) : Nat :=
  let ok := fun (s : Nat) => q.all fun v => match v with
    | .fin _ m e => pow2Lt m e (ex - 127 - (s : Int))
    | _ => false
  if ok 3 then 3 else if ok 2 then 2 else if ok 1 then 1 else 0

/-- Packs 16 binary32 patterns (R120): the block and the flags raised. -/
def PTy.pack (t : PTy) (xs : List Nat) : Nat × Fl :=
  let vs := xs.map fmt32.decode
  let bad := fun (v : FVal) => match v with | .fin .. => false | _ => true
  if vs.any bad then
    (255, if vs.any fun v => v.isSig || (match v with | .inf _ => true | _ => false) then flNV else 0)
  else if vs.all FVal.isZero then
    ((List.range 16).foldl (fun b i =>
      b + (if (vs.getD i (.fin false 0 0)).isNeg then 2 ^ (16 + i * (t.m + 1) + t.m) else 0)) 0, 0)
  else
    let top := vs.foldl (fun (g : Int) v => match v with
      | .fin _ m e => if m = 0 then g else max g (log2Q m 1 e)
      | _ => g) (-1000)
    let ex := max 1 (min 254 (top + 127))
    let st := fun (q : Nat) => quadStep ex ((vs.drop (4 * q)).take 4)
    let head := ex.toNat + 256 * (st 0 + 4 * st 1 + 16 * st 2 + 64 * st 3)
    (List.range 16).foldl (fun (acc : Nat × Fl) i =>
      match vs.getD i (.fin false 0 0) with
      | .fin neg m e =>
        let u := ex - 127 - (st (i / 4) : Int) - ((t.m : Int) - 1)
        let (n, d) := scaleQ m 1 (e - u)
        let k := roundNat .rn false n d
        let big := decide (k ≥ 2 ^ t.m)
        let k' := if big then 2 ^ t.m - 1 else k
        let fl := (if big then flOF ||| flNX else 0) ||| (if k' * d != n then flNX else 0) |||
          (if m != 0 && k' == 0 then flUF else 0)
        (acc.1 + (k' + (if neg then 2 ^ t.m else 0)) * 2 ^ (16 + i * (t.m + 1)), acc.2 ||| fl)
      | _ => acc) (head, 0)

/-- Element i of a block decoded to binary32 (R121). -/
def PTy.unpack (t : PTy) (blk i : Nat) : Nat := (fmt32.deliver .rn (t.elem blk i) false).bits

/-! ## Approximations (R161)

The exact functions to far more bits than any bound needs, as a number of units of 2^-160. -/

def fxBits : Nat := 160
def fxOne : Nat := 2 ^ fxBits

/-- Σ x^(2k+1)/(2k+1) with alternating sign where `alt`: atan or atanh of 1/x. -/
def invSeries (alt : Bool) (x : Nat) : Nat → Nat → Int → Int
  | 0, _, _ => 0
  | fuel + 1, k, t =>
    let term := t / (2 * k + 1 : Nat)
    (if alt && k % 2 == 1 then -term else term) + invSeries alt x fuel (k + 1) (t / ((x * x : Nat) : Int))

def fxLn2 : Int := 2 * invSeries false 3 60 0 ((fxOne / 3 : Nat) : Int)
def fxPi : Int := 16 * invSeries true 5 45 0 ((fxOne / 5 : Nat) : Int) - 4 * invSeries true 239 15 0 ((fxOne / 239 : Nat) : Int)

/-- Σ x^k/k! from a term on. -/
def expSeries (x : Int) : Nat → Nat → Int → Int
  | 0, _, _ => 0
  | fuel + 1, k, t => t + expSeries x fuel (k + 1) (t * x / (fxOne : Int) / ((k + 1 : Nat) : Int))

/-- Σ ±x^j/j! at each second j from a term on. -/
def trigSeries (x2 : Int) : Nat → Nat → Int → Int
  | 0, _, _ => 0
  | fuel + 1, j, t => t - trigSeries x2 fuel (j + 2) (t * x2 / (fxOne : Int) / (((j + 1) * (j + 2) : Nat) : Int))

def fxSin (x : Int) : Int := trigSeries (x * x / (fxOne : Int)) 32 1 x
def fxCos (x : Int) : Int := trigSeries (x * x / (fxOne : Int)) 32 0 fxOne

/-- Binary digits of log2 y for y in [1, 2), by repeated squaring. -/
def log2Digits : Nat → Nat → Nat → Nat
  | 0, _, acc => acc
  | fuel + 1, y, acc =>
    let z := y * y / fxOne
    if z ≥ 2 * fxOne then log2Digits fuel (z / 2) (2 * acc + 1) else log2Digits fuel z (2 * acc)

/-- The operations of R161. -/
inductive Approx where
  | rcp | rsq | exp2 | log2 | sin | cos
  deriving DecidableEq, Repr

def Approx.code : Approx → Nat
  | .rcp => 0x68 | .rsq => 0x69 | .exp2 => 0x6A | .log2 => 0x6B | .sin => 0x6C | .cos => 0x6D

/-- An exact result: a pattern with its flags, or a value (sign, units of 2^e) that only approximates. -/
inductive ApproxVal where
  | exact (r : FRes)
  | near (neg : Bool) (m : Nat) (e : Int)
  deriving DecidableEq, Repr

def isPow2 (m : Nat) : Bool := m != 0 && 2 ^ Nat.log2 m == m

/-- sin(π·t) for t = n/d in [0, 2), as a signed number of units of 2^-160. -/
def fxSinPi (n d : Nat) : Int :=
  let at_ := fun (num : Nat) => fxPi * (num : Int) / (d : Int)
  if 2 * n ≤ d then fxSin (at_ n)
  else if n ≤ d then fxSin (at_ (d - n))
  else if 2 * n ≤ 3 * d then -fxSin (at_ (n - d))
  else -fxSin (at_ (2 * d - n))

/-- The exact function value or the exact result of the Exact column (R161). A NaN operand gives the default NaN, with NV where it is
signalling and no NX: of a NaN R161 itself says nothing, and the model follows R112 and R114 (log entry 75). -/
def approxVal (op : Approx) (f : Fmt) (a : Nat) : ApproxVal :=
  let nan : ApproxVal := .exact ⟨f.nanBits, flNV⟩
  match f.decode a with
  | .nan s => .exact ⟨f.nanBits, if s then flNV else 0⟩
  | .inf neg =>
    match op with
    | .rcp => .exact ⟨f.signBit neg, 0⟩
    | .rsq => if neg then nan else .exact ⟨0, 0⟩
    | .exp2 => .exact ⟨if neg then 0 else f.infBits, 0⟩
    | .log2 => if neg then nan else .exact ⟨f.infBits, 0⟩
    | .sin => nan
    | .cos => nan
  | .fin neg m e =>
    match op with
    | .rcp =>
      if m = 0 then .exact ⟨f.signBit neg + f.infBits, flDZ⟩
      else
        let r := f.round .rn neg 1 m (-e)
        if isPow2 m && r.fl &&& flOF == 0 then .exact ⟨r.bits, 0⟩
        else .near neg (2 ^ (Nat.log2 m + fxBits) / m) (-e - (Nat.log2 m + fxBits : Nat))
    | .rsq =>
      if m = 0 then .exact ⟨f.signBit neg + f.infBits, flDZ⟩
      else if neg then nan
      else
        let odd := if e % 2 = 0 then 0 else 1
        let m' := m * 2 ^ odd
        let e' := e - (odd : Nat)
        if isPow2 m' && Nat.log2 m' % 2 == 0 then
          .exact ⟨(f.round .rn false 1 (2 ^ (Nat.log2 m' / 2)) (-(e' / 2))).bits, 0⟩
        else .near false (Nat.sqrt (2 ^ (2 * fxBits + 64) / m')) (-(e' / 2) - (fxBits + 32 : Nat))
    | .exp2 =>
      let (n, d) := scaleQ m 1 e
      if n ≥ 4096 * d then
        (if neg then .near false 1 (-4096) else .near false 1 4096)
      else
        let k : Int := if neg then -((n / d : Nat) : Int) - (if n % d = 0 then 0 else 1) else ((n / d : Nat) : Int)
        let fr := if neg then (if n % d = 0 then 0 else d - n % d) else n % d
        let r := f.round .rn false 1 1 k
        if fr = 0 && r.fl &&& flOF == 0 && k ≥ f.emin then .exact ⟨r.bits, 0⟩
        else
          let x := fxLn2 * (fr : Int) / (d : Int)
          .near false (expSeries x 60 0 fxOne).toNat (k - (fxBits : Nat))
    | .log2 =>
      if m = 0 then .exact ⟨f.signBit true + f.infBits, flDZ⟩
      else if neg then nan
      else
        let k := log2Q m 1 e
        if isPow2 m then .exact ⟨(intToFloat f .rn k).bits, 0⟩
        else
          let y := m * fxOne / 2 ^ Nat.log2 m
          let v := k * (2 ^ 120 : Nat) + ((log2Digits 120 y 0 : Nat) : Int)
          .near (v < 0) v.natAbs (-120)
    | .sin =>
      let (n, d) := scaleQ m 1 e
      if n % d = 0 then .exact ⟨f.signBit neg, 0⟩
      else
        let v := fxSinPi (n % (2 * d)) d
        .near (neg != decide (v < 0)) v.natAbs (-(fxBits : Int))
    | .cos =>
      let (n, d) := scaleQ m 1 e
      if (2 * n) % d = 0 then
        (if n % d ≠ 0 then .exact ⟨0, 0⟩
         else .exact ⟨(f.round .rn (n / d % 2 == 1) 1 1 0).bits, 0⟩)
      else
        let v := fxSinPi ((2 * n + d) % (4 * d)) (2 * d)
        .near (v < 0) v.natAbs (-(fxBits : Int))

/-- Absolute errors that R161 allows beside the ulps: the exponent of a power of two. -/
def absBound (op : Approx) (f : Fmt) (a : Nat) : Option Int :=
  if f.p ≠ 24 then none
  else match op with
    | .sin => some (-23)
    | .cos => some (-23)
    | .log2 => match f.decode a with
      | .fin false m e => if (FVal.fin false m e).cmp (.fin false 1 (-1)) ≥ 0 && (FVal.fin false m e).cmp (.fin false 1 1) ≤ 0
          then some (-22) else none
      | _ => none
    | _ => none

def ulpBound (op : Approx) (f : Fmt) : Nat :=
  if f.p ≠ 24 then 1
  else match op with
    | .rcp => 1 | .rsq => 1 | _ => 2

/-- Whether a pattern lies inside the bound of the value (-1)^neg * m * 2^e. The bound is taken narrower by 2^-64 of its unit, which is
more than the value's own error, so that it holds of the exact function (log entry 61). -/
def inBound (op : Approx) (f : Fmt) (a c : Nat) (neg : Bool) (m : Nat) (e : Int) : Bool :=
  let x : FVal := .fin neg m e
  let ulp : Int := max (log2Q (m * (2 ^ 64 - 1)) 1 (e - 64)) f.emin - (f.p - 1 : Nat)
  let within := fun (y : FVal) (n : Nat) (k : Int) =>
    let diff := addDy y.dy x.neg.dy
    let wide := addDy (diff.1.natAbs, diff.2) (1, k - 64)
    (FVal.fin false wide.1.natAbs wide.2).cmp (.fin false n k) ≤ 0
  match f.decode c with
  | .fin n' m' e' =>
    within (.fin n' m' e') (ulpBound op f) ulp ||
      (match absBound op f a with | some k => within (.fin n' m' e') 1 k | none => false)
  | .inf n' => n' == neg && (f.round .rn neg m 1 e).bits == f.signBit neg + f.infBits
  | .nan _ => false

/-- The result of an approximation: the free candidate where the bound admits it, else the value rounded to
nearest; NX always, UF and OF from the delivered result (R161). -/
def approx (op : Approx) (f : Fmt) (a : Nat) : FRes :=
  match approxVal op f a with
  | .exact r => r
  | .near neg m e =>
    let c := Config.approx op.code f.width a % 2 ^ f.width
    let r := if inBound op f a c neg m e then c else (f.round .rn neg m 1 e).bits
    match f.decode r with
    | .inf _ => ⟨r, flOF ||| flNX⟩
    | .fin _ k _ => ⟨r, flNX ||| (if k ≠ 0 ∧ k < 2 ^ (f.p - 1) then flUF else 0)⟩
    | .nan _ => ⟨r, flNX⟩

end Sys2Proof
end

