-- ==== Sys2Proof/Machine/Crew.lean ====
section
/-! DEFINITION. The parts of the state by name: crews and their registers through the window (R20, R55, R288),
predicates and governance (R107), cores, dies, parties; logical numbers (R4, R5, R341); reports and counters. -/

namespace Sys2Proof.Machine

/-- What one step answers. -/
abbrev Out := Host.Outcome State Fault Refusal

/-! ## Parts of the state -/

/-- A crew's key: its physical core times 128 plus its core-wide slot, 96 and 97 for the handler slots. -/
def crewKey (core slot : Nat) : Nat := core * 128 + slot
def coreOfKey (k : Nat) : Nat := k / 128 % 512
def slotOfKey (k : Nat) : Nat := k % 128
/-- The key under which requests and array commands of a crew of a party go on once it has ended (R30), when its slot is free
for another crew; and the party that such a key names. -/
def endedKey (k party : Nat) : Nat := k + 2 ^ 32 * (party + 1)
def partyOfEnded (k : Nat) : Nat := k / 2 ^ 32 - 1
def isEnded (k : Nat) : Bool := decide (2 ^ 32 ≤ k)
/-- The partition in which a slot competes (R12, R280). -/
def partOfSlot (slot : Nat) : Nat := if slot < 96 then slot / 16 else if slot = 96 then 0 else 3
def dieOfCore (core : Nat) : Nat := core / 36
def clusterOfCore (core : Nat) : Nat := core / 4

def State.crew (s : State) (k : Nat) : Crew := Map.get {} s.crews k
def State.hasCrew (s : State) (k : Nat) : Bool := (Map.find? s.crews k).isSome
def State.putCrew (s : State) (k : Nat) (c : Crew) : State := { s with crews := Map.put s.crews k c }
def State.onCrew (s : State) (k : Nat) (f : Crew → Crew) : State := s.putCrew k (f (s.crew k))
/-- The crew whose instruction executes. -/
def State.me (s : State) : Crew := s.crew s.cur
def State.putMe (s : State) (c : Crew) : State := s.putCrew s.cur c
def State.onMe (s : State) (f : Crew → Crew) : State := s.putMe (f s.me)
def State.myCore (s : State) : Nat := coreOfKey s.cur

def State.core (s : State) (n : Nat) : Core := Map.get {} s.cores n
def State.onCore (s : State) (n : Nat) (f : Core → Core) : State := { s with cores := Map.put s.cores n (f (s.core n)) }
def State.die (s : State) (d : Nat) : Die := Map.get {} s.dies d
def State.onDie (s : State) (d : Nat) (f : Die → Die) : State := { s with dies := Map.put s.dies d (f (s.die d)) }
def State.party (s : State) (p : Nat) : Party := Map.get {} s.parties p
def State.onParty (s : State) (p : Nat) (f : Party → Party) : State :=
  { s with parties := Map.put s.parties p (f (s.party p)) }
def State.myParty (s : State) : Party := s.party s.me.party
def State.onMyParty (s : State) (f : Party → Party) : State := s.onParty s.me.party f
def State.onCnt (s : State) (core : Nat) (f : CoreCnt → CoreCnt) : State :=
  s.onCore core fun c => { c with cnt := f c.cnt }
def State.onMem (s : State) (m : Nat) (f : MemCnt → MemCnt) : State :=
  { s with memCnt := Map.put s.memCnt m (f (Map.get {} s.memCnt m)) }
def State.counter (s : State) (n : Nat) : Counter := Map.get {} s.counters n
def State.onCounter (s : State) (n : Nat) (f : Counter → Counter) : State :=
  { s with counters := Map.put s.counters n (f (s.counter n)) }

/-- Events that follow at once, before any crew executes again. -/
def State.push (s : State) (i : Instr) : State := { s with agenda := s.agenda ++ [i] }
def State.pushAll (s : State) (is : List Instr) : State := { s with agenda := s.agenda ++ is }
/-- An event at the end of the clk. -/
def State.pushLate (s : State) (i : Instr) : State := if s.late.contains i then s else { s with late := s.late ++ [i] }

/-- A report on its way to the error log (R386). -/
def State.report (s : State) (r : Report) : State := { s with reports := s.reports ++ [r] }

/-- Where a report of a clk sorts: switch-die sources, then spoke ports, then cores (R386). A home checker reports at the port of its
memory die. -/
def State.reportKey (s : State) (r : Report) : Nat :=
  let port := if r.core ≠ 0x1FF ∧ r.agent < 8 then 1 + r.agent
    else if r.agent = 63 ∧ r.addr ≠ 0 then 9 + homeE s.mode.mode r.addr.toNat
    else 0
  r.event.getD (port * 512 + r.core)

/-- One event leads from a state to the other: the entries that it makes enter the log together, in ascending SRC (R386). -/
def State.oneEvent (s t : State) : State :=
  let n := s.reports.length
  let new := sortBy (·.src) (t.reports.drop n)
  if new.length < 2 then t
  else { t with reports := t.reports.take n ++ new.map fun r => { r with event := new.head?.map t.reportKey } }

/-- The next free value's number. -/
def State.fresh (s : State) : State := { s with free := s.free + 1 }

/-! ## Logical numbers (R4, R5, R341) -/

/-- The logical pair that a context's DIE_MAP gives a physical pair. -/
def State.logPair (s : State) (ctx p : Nat) : Nat :=
  (firstN (fun e => (s.ctx ctx).valid e && (s.ctx ctx).pair e == p) 8 0).getD p
def State.logCore (s : State) (ctx core : Nat) : Nat := 36 * s.logPair ctx (dieOfCore core) + core % 36
def State.logClus (s : State) (ctx core : Nat) : Nat := 9 * s.logPair ctx (dieOfCore core) + core % 36 / 4

/-! ## Registers -/

/-- S(n) of R107. -/
def Crew.sv (c : Crew) (r : SReg) : W64 := if r = 0 then 0 else Map.get 0 c.s r.toNat
def Crew.setS (c : Crew) (r : SReg) (x : W64) : Crew :=
  if r = 0 then c else { c with s := Map.set 0 c.s r.toNat x }

/-- The physical slot of window register vn (R55, R288). -/
def Crew.slot (c : Crew) (n : Nat) : Nat := (c.base.toNat + n) % c.alloc
/-- Window register vn. -/
def Crew.row (c : Crew) (n : Nat) : Row :=
  match Map.find? c.v (c.slot n) with
  | some x => x.row
  | none => zeroRow
def Crew.setRow (c : Crew) (n : Nat) (r : Row) : Crew :=
  { c with v := Map.put c.v (c.slot n) ⟨c.base.toNat + n, true, r⟩ }
/-- V(n, l) and VP(n, l) of R107. -/
def Crew.vl (c : Crew) (n l : Nat) : W32 := (c.row n).at_ l
def Crew.vpl (c : Crew) (n l : Nat) : W64 := c.vl (n + 1) l ++ c.vl n l
/-- A lane operand of either width, as a number. -/
def Crew.vn (c : Crew) (wide : Bool) (n : VReg) (l : Nat) : Nat :=
  if wide then (c.vpl n.toNat l).toNat else (c.vl n.toNat l).toNat
/-- Writes the lanes of a mask. -/
def Crew.putV (c : Crew) (n : Nat) (m : W32) (f : Nat → W32) : Crew :=
  c.setRow n (mkRow fun l => if m.getLsbD l then f l else c.vl n l)
def Crew.putVP (c : Crew) (n : Nat) (m : W32) (f : Nat → W64) : Crew :=
  (c.putV n m fun l => (f l).extractLsb' 0 32).putV (n + 1) m fun l => (f l).extractLsb' 32 32
/-- Writes a lane result of either width. -/
def Crew.putN (c : Crew) (wide : Bool) (n : VReg) (m : W32) (f : Nat → Nat) : Crew :=
  if wide then c.putVP n.toNat m fun l => BitVec.ofNat 64 (f l)
  else c.putV n.toNat m fun l => BitVec.ofNat 32 (f l)

/-- P(n, ·) of R107. -/
def Crew.pr (c : Crew) (n : PReg) : W32 := if n = 0 then 0xFFFFFFFF else Map.get 0 c.p n.toNat
def Crew.setP (c : Crew) (n : PReg) (x : W32) : Crew :=
  if n = 0 then c else { c with p := Map.set 0 c.p n.toNat x }
/-- Writes a predicate in the lanes of a mask. -/
def Crew.putP (c : Crew) (n : PReg) (m : W32) (x : W32) : Crew := c.setP n ((c.pr n &&& ~~~m) ||| (x &&& m))

/-- Gov(l) as a mask (R107). -/
def Crew.gov (c : Crew) (h : Hd) : W32 := c.active &&& (if h.pn then ~~~(c.pr h.pg) else c.pr h.pg)

def Crew.kv (c : Crew) (k : Nat) : BitVec 1024 := Map.get 0 c.k k
def Crew.setK (c : Crew) (k : Nat) (x : BitVec 1024) : Crew := { c with k := Map.set 0 c.k k x }
def Crew.laneFl (c : Crew) (l : Nat) : Fl := Map.get 0 c.laneFlags l
def Crew.orLaneFl (c : Crew) (l : Nat) (f : Fl) : Crew :=
  if f = 0 then c else { c with laneFlags := Map.set 0 c.laneFlags l (c.laneFl l ||| f) }
def Crew.orCtFl (c : Crew) (f : Fl) : Crew := { c with ctFlags := c.ctFlags ||| f }

/-- The word after this one in program order. -/
def Crew.next (c : Crew) : Crew := { c with widx := c.widx + 1 }

/-- A crew is convergent when its active mask equals its live mask (R27). -/
def Crew.convergent (c : Crew) : Bool := c.active == c.live

/-- A crew whose earlier effects have left its core and whose returning atomics have returned. -/
def Crew.drained (c : Crew) : Bool := c.held.isEmpty && c.atoms.isEmpty

/-- LEN and LIVE of the running block's header (R87). -/
def Crew.len (c : Crew) : Nat := (bf c.hdr 48 8).toNat
def hdrLive (h : W64) : Nat := (bf h 37 11).toNat + 2048 * (bf h 6 1).toNat
/-- The header that follows the running block. -/
def Crew.fallThrough (c : Crew) : W64 := c.pc + BitVec.ofNat 64 (8 * (c.len + 1))

/-! ## Clocks of releases (R65, R391) -/

/-- A stamp joined into clocks. -/
def joinStamp (m : Clocks) (die : Nat) (st : Stamp) : Clocks :=
  match Map.find? m die with
  | none => Map.put m die st
  | some x => Map.put m die (stampMax x st)

/-- Clocks joined, the greatest for each die. -/
def joinStamps (a b : Clocks) : Clocks := b.foldl (fun m x => joinStamp m x.1 x.2) a

/-- What a release of a crew carries: its core's clock as it stands, and what it has acquired from other dies. -/
def State.clocksOf (s : State) (k : Nat) : Clocks :=
  Map.put (s.crew k).seen (dieOfCore (coreOfKey k)) (s.core (coreOfKey k)).ts

/-! ## Waiting -/

def State.waitMe (s : State) (w : Wait) : State :=
  s.onMe fun c => { c with phase := .waiting w, blockedSince := s.clk, released := false }

/-- A crew that an event makes ready in a clk: it can issue from the next one, and its age is that of the event (R281). -/
def Crew.wake (c : Crew) (clk : Nat) : Crew :=
  { c with phase := .running, readyAt := max c.readyAt (clk + 1), readySince := clk }

/-- An instruction that leaves its results and goes on to the next word. -/
def State.done (s : State) (f : Crew → Crew) : Out := .next (s.onMe fun c => (f c).next)

/-- What a shared object saw of a crew cannot be replayed: its earlier instructions are committed. -/
def State.commit (s : State) (k : Nat) : State :=
  { s with past := s.past.filter fun p => p.key != k }.onCrew k fun c => { c with committed := s.clk }

/-- A strike replay, a park or a trap would replay from here. -/
def State.commitMe (s : State) : State := s.commit s.cur

/-- A change of a crew that comes from outside its instructions: what the crew is, and what a replay would restore. -/
def State.onCrewPast (s : State) (k : Nat) (f : Crew → Crew) : State :=
  if (Map.find? s.crews k).isNone then s
  else { s.onCrew k f with past := s.past.map fun p => if p.key = k then { p with crew := f p.crew } else p }

/-- Whether an earlier instruction of the crew can still trap: a returning atomic, or a release that is not complete
(R191, R287). -/
def Crew.unsettled (c : Crew) : Bool := !c.atoms.isEmpty || c.held.any (·.rel.isSome)

/-! ## Traps (R320, R321, R323, R327) -/

def trapRec (c : Crew) (cause : Nat) (d0 d1 : W64) (ls : W32) (perf : Bool) : TrapRec :=
  { cause, detail0 := d0, detail1 := d1, lanes := ls, perf, pc := c.pc, widx := c.widx, word := c.word }

/-- The crew is trapped: it holds its slot and keeps the record from which its frame is made. -/
def Crew.trapped (c : Crew) (r : TrapRec) (clk : Nat) : Crew :=
  { c with phase := .trapped, trap := some r, noticed := false, pushed := false, tries := 0, heldSince := clk, released := false }

/-- Counters and log entries of a trap (R382, R385). -/
def State.trapCounts (s : State) (k : Nat) (r : TrapRec) : State :=
  let c := s.crew k
  let core := coreOfKey k
  let s := if r.cause = 0x06 then s.onCnt core fun n => { n with poisc := satInc n.poisc } else s
  let s := if r.cause = 0x12 then s.onCnt core fun n => { n with dblf := satInc n.dblf } else s
  if r.cause = 0x06 then
    s.report { src := 3, detail := r.detail0, ctx := c.ctx, agent := dieOfCore core, core,
               addr := if r.detail0.getLsbD 4 then 0 else
                 match s.xlate c.ctx r.detail1 .read with | .ok pa => BitVec.ofNat 64 (pa / 32 * 32) | .error _ => 0 }
  else s

/-- A containment event (R273, R327, R342, R354): an entry of the log with SRC 6, with the first cause. -/
def State.containment (s : State) (ctx : Nat) (cause : Nat) (addr : W64 := 0) : State :=
  s.report { src := 6, detail := BitVec.ofNat 64 cause, ctx, addr }

/-- The context is marked contained; the next clk begins to pre-empt every party it has (R327). -/
def State.contain (s : State) (ctx cause : Nat) : State :=
  { s with ctxs := Map.put s.ctxs ctx { s.ctx ctx with contained := true } }.containment ctx cause

/-- The clk before which an uncommitted instruction may still be replayed (R286, R329). -/
def State.fixOf (s : State) (ctx : Nat) : Nat := (s.ctx ctx).fix.toNat

/-- The clk of the oldest instruction of a crew that can still trap. -/
def Crew.pendingAt (c : Crew) (clk : Nat) : Nat :=
  (c.held.map (·.at_) ++ c.atoms.map (·.at_)).foldl min clk

/-- Keeps the crew as it stands before an instruction, for replay and for a trap that discards what is younger (R191, R287); of
those past the fix window and older than every instruction that can still trap only the newest is kept. -/
def State.snapshotOf (s : State) (k : Nat) (c : Crew) : State :=
  let low := c.pendingAt s.clk
  let newest := (s.past.filter fun p => p.key == k && p.at_ + s.fixOf c.ctx < s.clk).getLast?
  let old := s.past.filter fun p => p.key != k || s.clk ≤ p.at_ + s.fixOf c.ctx || decide (low ≤ p.at_) || some p == newest
  { s with past := old ++ [⟨k, s.clk, c⟩] }

def State.snapshot (s : State) (k : Nat) : State := s.snapshotOf k (s.crew k)

/-- A second error of a crew (R327). Of a handler crew's origins, those with a lane still in it take cause 0x12. -/
def State.secondError (s : State) (k : Nat) (r : TrapRec) : State :=
  let c := s.crew k
  let s := s.onCnt (coreOfKey k) fun n => { n with dblf := satInc n.dblf }
  let s := if r.cause = 0x06 ∨ r.cause = 0x07 then s.contain c.ctx r.cause else s
  let both := fun (first : Nat) => BitVec.ofNat 64 (first + 256 * r.cause)
  match c.kind with
  | .handler =>
    let s := s.putCrew k { c with phase := .halted }
    let here := (List.range c.tags.length).filterMap fun l => if c.live.getLsbD l then (c.tags[l]?).map (·.crew) else none
    (here.eraseDups.filter s.hasCrew).foldl (fun s o =>
      let oc := s.crew o
      match c.tags.find? (·.crew == o) with
      | none => s
      | some t => (s.snapshotOf o oc).putCrew o (oc.trapped
          { cause := 0x12, detail0 := both 0x0F, detail1 := r.detail1, lanes := r.lanes, pc := t.pc, widx := t.widx,
            word := t.word } s.clk)) s
  | _ =>
    let first := match c.trap with | some t => t.cause | none => c.first
    s.putCrew k { c.trapped { r with cause := 0x12, detail0 := both first } s.clk with phase := .halted }

/-- The stores that a test crew uses stand as a party of their own (R381). -/
def Party.isTest (p : Party) : Bool := p.ncrews == 0

/-- How a test crew's run counts (R381): passed, or failed with a code. -/
def State.testEnd (s : State) (k : Nat) (fail : Option (BitVec 16)) : State :=
  let core := coreOfKey k
  let s := { s with
    crews := Map.erase s.crews k, runq := s.runq.filter (· != k)
    parties := s.parties.filter fun (p : Nat × Party) => !(p.2.isTest && p.2.cores.contains core) }
  let s := s.onCore core fun c => { c with lastTest := some s.clk, idleSince := s.clk }
  match fail with
  | none => s.onCnt core fun n => { n with tpass := satInc n.tpass }
  | some code =>
    let s := s.onCnt core fun n => { n with tfail := satInc n.tfail }
    s.report { src := 9, detail := code.zeroExtend 64, agent := dieOfCore core, core }

/-- Taking a crew trap: one operation for every cause. -/
def State.trapCrew (s : State) (k : Nat) (r : TrapRec) : State :=
  let c := s.crew k
  let t := s.trapCounts k r
  match c.kind with
  | .normal => t.putCrew k (c.trapped r t.clk)
  | .test => t.testEnd k (some (if r.cause = 0x10 then r.detail0.extractLsb' 0 16 else 0xFFFF))
  | _ => s.oneEvent (t.secondError k r)

/-- Trap(cause, detail) of R107, by the crew whose instruction executes. -/
def State.trap (s : State) (cause : Nat) (d0 : W64 := 0) (d1 : W64 := 0) (ls : W32 := 0) (perf : Bool := false) : State :=
  s.trapCrew s.cur (trapRec s.me cause d0 d1 ls perf)

/-! ## What a replay, or a trap of an older instruction, goes back to (R191, R320, R329) -/

/-- Whether a held effect is a spill that a block entry makes, not one of a word (R56). -/
def Effect.isSpill : Effect → Bool
  | .spill .. => true
  | _ => false

/-- The crew replays from a snapshot: what has left its core since stays gone, values that have returned stay (R198), and a
monitor may wake it spuriously. -/
def Crew.replayFrom (now snap : Crew) (clk : Nat) : Crew :=
  { snap with
    held := snap.held.filterMap fun h => now.held.find? fun x => x.at_ == h.at_ && x.eff.isSpill == h.eff.isSpill
    atoms := snap.atoms.filterMap fun o => now.atoms.find? fun x => x.token == o.token
    fence := now.fence, ivals := now.ivals, cancel := now.cancel, score := now.score, readyAt := clk + 1, sb := []
    fenceTs := now.fenceTs, must := now.must, seen := now.seen
    tags := now.tags
    mon := if snap.mon = now.mon then now.mon else snap.mon.map fun m => { m with hit := true } }

/-- The crew goes back to a snapshot: later ones, lanes that left since, and later operations in the window are discarded. -/
def State.rewind (s : State) (k : Nat) (p : Past) : State :=
  let s := { s with past := s.past.filter fun q => !(q.key == k && p.at_ ≤ q.at_) }
  let s := s.onCore (coreOfKey k) fun x => { x with
    laneWait := x.laneWait.filter fun t => !(t.crew == k && p.at_ ≤ t.since)
    window := x.window.filter fun r => !(r.crew == k && p.at_ ≤ r.at_) }
  s.putCrew k ((s.crew k).replayFrom p.crew s.clk)

/-- A trap of an instruction that issued in an earlier clk, whatever its crew has done since: the younger instructions are
discarded (R320). -/
def State.trapOlder (s : State) (k at_ : Nat) (r : Crew → TrapRec) : State :=
  match s.past.find? fun p => p.key == k && p.at_ == at_ with
  | some p => (s.rewind k p).trapCrew k (r p.crew)
  | none => s.trapCrew k (r (s.crew k))

/-- The 128 bytes of a trap frame (R321) as a number. -/
def State.frameNat (s : State) (k : Nat) (r : TrapRec) : Nat :=
  let c := s.crew k
  let at_ := fun (lo : Nat) (x : Nat) => x * 2 ^ lo
  at_ 960 r.pc.toNat + at_ 952 (r.widx % 256) + at_ 944 (r.cause % 256) + at_ 939 r.perf.toNat + at_ 938 c.priv.toNat +
    at_ 904 c.active.toNat + at_ 872 c.live.toNat + at_ 808 (c.spill - 0x40180).toNat + at_ 744 r.detail0.toNat +
    at_ 680 r.detail1.toNat + at_ 648 r.lanes.toNat +
    at_ 616 (s.local_ 4096 c.lctr % 4096 * 2 ^ 20 + s.logCore c.ctx (coreOfKey k) * 2 ^ 11 + slotOfKey k * 2 ^ 4) +
    at_ 552 r.word.toNat

/-- The pending-block vector (R321): entry l is lane l's pending block, 0 for none. -/
def Crew.pbvBytes (c : Crew) : List Byte := lanes.flatMap fun l => bytesOf 8 (Map.get 0 c.pend l).toNat

end Sys2Proof.Machine
end

