-- ==== Sys2Proof/Machine/Coherence.lean ====
section
/-! DEFINITION. Coherence: leases within a die (R258 to R262), the span directory (R263 to R266), intervals and
records (R267 to R271, R374, R375), monitors (R42, R293), dirty bits (R365), checkpoint copies (R369) and the
injected fault (R377), as shared operations. -/

namespace Sys2Proof.Machine

/-! ## The die L2 and the L1 copies -/

/-- The die L2's span that holds words [f, l] of a line. -/
def Die.span? (d : Die) (line f l : Nat) : Option L2Span :=
  d.l2.find? fun x => x.line == line && x.f ≤ f && l ≤ x.l

/-- The clocks of the releases that have written to a line. -/
def State.lineClocks (s : State) (line : Nat) : Clocks := Map.get [] s.relLines line

/-- Release writes to lines leave their clocks there, for the acquires that read them (R60, R65; log entry 68). -/
def State.carry (s : State) (lines : List Nat) (ch : Clocks) : State :=
  if ch.isEmpty then s
  else { s with relLines := lines.foldl (fun m line => Map.put m line (joinStamps (Map.get [] m line) ch)) s.relLines }

/-- The live L1 copy that serves words [f, l] (R259). -/
def Core.copy? (c : Core) (line f l : Nat) : Option L1Copy :=
  c.l1.find? fun x => x.line == line && x.f ≤ f && l ≤ x.l && stampLe c.ts x.leaseEnd

def overlaps (f l f' l' : Nat) : Bool := f ≤ l' && f' ≤ l

/-- Whether a crew has changed words of a span at an owner since its core's copy was filled (R62). -/
def Crew.mustRead (c : Crew) (line f l : Nat) : Bool := c.must.any fun x => x.1 == line && f ≤ x.2 && x.2 ≤ l

/-- Drops the L1 copies of a core that overlap a span. -/
def Core.dropL1 (c : Core) (line f l : Nat) : Core :=
  { c with l1 := c.l1.filter fun x => !(x.line == line && overlaps f l x.f x.l) }

/-- The lines of a core's L1 (01, R46): 256 KiB of 128 bytes. -/
def l1Lines : Nat := 2048

/-- A new L1 copy takes the place of older copies of its words. An L1 that is full evicts its oldest copy, which the
victim tag array of 1,024 entries records (R282). -/
def Core.putL1 (c : Core) (x : L1Copy) : Core :=
  let c := c.dropL1 x.line x.f x.l
  let c := match (if l1Lines ≤ c.l1.length then c.l1.getLast? else none) with
    | some y => { c with l1 := c.l1.dropLast, victims := ((y.line, y.slot) :: c.victims).take 1024 }
    | none => c
  { c with l1 := x :: c.l1 }

/-! ## Words that an injected fault makes differ (R377)

`mem` holds the data of each span's source: its owner, or the home where it has none. -/

/-- The word i of a line in an agent's copy. -/
def State.wordAt (s : State) (a line i : Nat) : W32 :=
  match s.offs.find? fun o => o.agent == a && o.line == line && o.i == i with
  | some o => o.word
  | none => s.lineWord line i

/-- The byte of a location in an agent's copy. -/
def State.byteAt (s : State) (a loc : Nat) : Byte :=
  if s.offs.isEmpty then memGet s.mem loc else (s.wordAt a (loc / 128) (loc % 128 / 4) >>> (8 * (loc % 4))).extractLsb' 0 8

/-- The fold hash of a span (R268) in an agent's copy. -/
def State.hashAt (s : State) (a line f l : Nat) : W32 :=
  if s.offs.isEmpty then s.hash line f l else (upFrom f (l + 1 - f)).foldl (fun h i => h ^^^ rotl32 (s.wordAt a line i) i) 0

def OffWord.of (o : OffWord) (a line f l : Nat) : Bool := o.agent == a && o.line == line && f ≤ o.i && o.i ≤ l

/-- An agent's words of a span are as its source has them. -/
def State.dropOffs (s : State) (a line f l : Nat) : State := { s with offs := s.offs.filter fun o => !o.of a line f l }

/-- A span's data pass a port on their way from its source to an agent; an armed injection corrupts one word (R377). -/
def State.pass (s : State) (port line f l dst : Nat) : State :=
  let s := s.dropOffs dst line f l
  let i := s.inject
  if i.arm && i.port.toNat == port && i.line.toNat == line % 2 ^ 45 && f ≤ i.word.toNat && i.word.toNat ≤ l then
    { s with
      inject := { i with arm := false, fired := true }
      offs := s.offs ++ [⟨dst, line, i.word.toNat, s.lineWord line i.word.toNat ^^^ i.mask⟩] }
  else s

/-- An agent becomes the source of a span with the words that it has; the holders that stay keep theirs. -/
def State.newSource (s : State) (line f l dst : Nat) (stay : List Nat) : State :=
  let mine := s.offs.filter fun o => o.of dst line f l
  let kept := mine.flatMap fun o => (stay.filter fun h => h != dst && !s.offs.any fun p => p.agent == h && p.line == line && p.i == o.i).map
    fun h => (⟨h, line, o.i, s.lineWord line o.i⟩ : OffWord)
  { s with
    mem := mine.foldl (fun m o => memPut m (cellsOf (128 * line + 4 * o.i) (bytesOf 4 o.word.toNat))) s.mem
    offs := (s.offs.filter fun o => !o.of dst line f l) ++ kept }

/-- The words of a span in an agent's copy. -/
def State.wordsAt (s : State) (a line f l : Nat) : List W32 :=
  if s.offs.isEmpty then s.spanWords line f l else (upFrom f (l + 1 - f)).map (s.wordAt a line)

/-- The copy of a span as a core's die L2 has it. -/
def State.copyOf (s : State) (core : Nat) (x : L2Span) (leaseEnd wts : Stamp) (slot : Nat) : L1Copy :=
  { line := x.line, f := x.f, l := x.l, words := s.wordsAt (dieOfCore core) x.line x.f x.l, leaseEnd, wts, slot
    clocks := s.lineClocks x.line
    poison := s.poison.filter fun p => p / 4 == x.line && overlaps x.f x.l (p % 4 * 8) (p % 4 * 8 + 7) }

/-- L2 read of R259: a read lease for the whole span, with its data and its wts. -/
def State.grantLease (s : State) (core line f l : Nat) : State :=
  let d := dieOfCore core
  match (s.die d).span? line f l with
  | none => s
  | some x =>
    let rts := stampMax x.rts ((s.core core).ts + (s.die d).lease.zeroExtend 16)
    let s := s.onDie d fun dd => { dd with l2 := dd.l2.map fun y => if y = x then { y with rts } else y }
    s.onCore core fun c => c.putL1 (s.copyOf core x rts x.wts (slotOfKey s.cur))

/-- The spans that a die holds in M with a write not yet cleaned, oldest first (R257). -/
def State.uncleanM (s : State) (die : Nat) : List L2Span :=
  (s.die die).l2.filter fun x => x.unclean && s.dir.any fun d =>
    d.line == x.line && d.f == x.f && Map.find? d.st die == some DirSt.m

/-- A write that would make a 4,097th such span first has the oldest cleaned, in the background (R257). -/
def State.boundUnclean (s : State) (die : Nat) : State :=
  if ((s.die die).l2.filter (·.unclean)).length < 4096 then s
  else match s.uncleanM die with
    | [] => s
    | x :: xs => if xs.length < 4095 then s else s.push (.cln die x.line x.f x.l)

/-- L2 write of R259: the stamp of a write, the writer's clock and its L1 copy, filled by the crew in a slot. -/
def State.stampWrite (s : State) (core slot : Nat) (line f l : Nat) : State :=
  let d := dieOfCore core
  match (s.die d).span? line f l with
  | none => s
  | some x =>
    let wts := stampMax (s.core core).ts (x.rts + 1)
    let s := (if x.unclean then s else s.boundUnclean d).onDie d fun dd =>
      { dd with l2 := dd.l2.filter (fun y => !(y.line == line && y.f == x.f)) ++ [{ x with wts, rts := wts, unclean := true }] }
    s.onCore core fun c => { c.putL1 (s.copyOf core x wts wts slot) with ts := wts }

/-- Whether an acquire at a scope applies the invalidations that its die L2 has met (R59, R259). -/
def Scope.takesDic : Scope → Bool
  | .dev => true
  | .sys => true
  | _ => false

/-- The core clock after an acquire of a stamp at a scope (R259, R391). -/
def State.acquireTs (s : State) (core : Nat) (sc : Scope) (st : Stamp) : Stamp :=
  let ts := stampMax (s.core core).ts st
  if Scope.takesDic sc then stampMax ts (s.die (dieOfCore core)).dic else ts

/-- Clocks as an acquire on a core's die uses them: only that die's reading (R391). -/
def State.keptTs (s : State) (core : Nat) (ch : Clocks) : Stamp := (Map.find? ch (dieOfCore core)).getD (s.core core).ts

/-- The effect of an acquire on its core, from the greatest wts that it reads with and the clocks of the releases that it meets
(R259, R391). -/
def State.coreAcquire (s : State) (core : Nat) (sc : Scope) (wts : Stamp) (ch : Clocks) : State :=
  match sc with
  | .crew => s
  | sc => s.onCore core fun c => { c with ts := s.acquireTs core sc (stampMax wts (s.keptTs core ch)) }

/-- An acquire by a crew. What other dies' clocks it meets its own later releases carry on (R65; log entry 68). -/
def State.acquire (s : State) (k : Nat) (sc : Scope) (wts : Stamp) (ch : Clocks) : State :=
  match sc with
  | .crew => s
  | sc => (s.coreAcquire (coreOfKey k) sc wts ch).onCrew k fun c => { c with seen := joinStamps c.seen ch }

/-- An acquire that reads no line: of the clocks that an object keeps (R391). -/
def State.acquireKept (s : State) (k : Nat) (sc : Scope) (ch : Clocks) : State :=
  s.acquire k sc (s.core (coreOfKey k)).ts ch

/-! ## Requests to a granule whose bias flips (R277) -/

/-- Whether the switch holds requests to a location: its granule's bias is being flipped. -/
def State.flipping (s : State) (loc : Nat) : Bool := s.bias.busy && locPa loc / 65536 == s.bias.gran.toNat

def State.holdReq (s : State) (r : HeldReq) : State := { s with heldReqs := s.heldReqs ++ [r] }

/-! ## Monitors and drops (R42, R293) -/

/-- Whether a crew's monitor overlaps bytes [loc, loc + n). -/
def Crew.watches (c : Crew) (loc n : Nat) : Bool :=
  match c.mon with
  | some m => m.loc < loc + n && loc < m.loc + m.len
  | none => false

/-- A directory invalidation or a stamped write that overlaps a watched range sends a drop to the watching core. -/
def State.dropWatchers (s : State) (p : Nat → Bool) (line f l : Nat) : State :=
  s.pushAll ((s.crews.filter fun kc => p kc.1 && kc.2.watches (128 * line + 4 * f) (4 * (l + 1 - f))).map
    fun kc => .dropMessage (coreOfKey kc.1) line f l)

/-- Bytes written at their point of coherence trigger every other agent's monitor that they overlap. -/
def State.trigger (s : State) (by_ : Option Nat) (cs : List Host.Cell) : State :=
  { s with crews := s.crews.map fun kc =>
      if some kc.1 != by_ && cs.any (fun c => kc.2.watches c.1 1) then
        (kc.1, { kc.2 with mon := kc.2.mon.map fun m => { m with hit := true } })
      else kc }

/-! ## Dirty bits (R365) -/

def State.mapTracks (m : DirtyMap) (parcel : Nat) : Bool :=
  m.en && m.base.toNat ≤ parcel && parcel ≤ m.base.toNat + m.len.toNat

/-- The parcel number of R364: physical address bits 51:12. -/
def parcelOfLoc (loc : Nat) : Nat := locPa loc / 4096

/-- Whether a location belongs to a device: to that of the pair whose HBM holds it, and to every one where it is CXL-tier or host
memory, which every device reaches (R340). -/
def State.devCovers (s : State) (dev loc : Nat) : Bool := locPair loc == 8 || devOfPair s.mode.mode (locPair loc) == dev

/-- Whether an enabled map tracks the parcel of a location, which belongs to its device (R364). -/
def State.tracks (s : State) (m : DirtyMap) (locParcel : Nat) : Bool :=
  let loc := 4096 * locParcel
  State.mapTracks m (parcelOfLoc loc) && s.devCovers (s.ctxDev m.ctx.toNat) loc

/-- Messages that set the bits of written parcels, named by location; `lctr` names the writer's launch. -/
def State.dirty (s : State) (cs : List Host.Cell) (lctr : Option Nat) : State :=
  let ps := (cs.map (·.1 / 4096)).eraseDups
  s.pushAll ((ps.filter fun p => s.dirtyMaps.any fun m => s.tracks m.2 p).map fun p => .dirtyBitMessage p lctr)

/-! ## Checkpoint copies (R369) -/

/-- Parcels that fit in a preservation area of SIZE GiB, 4,112 bytes each. -/
def CkptCtl.room (c : CkptCtl) : Nat := c.size.toNat * 2 ^ 30 / 4112

/-- The first write request to a parcel in a device's generation copies the parcel. -/
def State.keepFor (s : State) (loc d : Nat) : State :=
  let c := Map.get {} s.ckpt d
  let p := loc / 4096
  if c.num = 0 ∨ !c.valid ∨ c.kept.any (·.parcel == p) then s
  else if c.room ≤ c.kept.length then
    { s with ckpt := Map.put s.ckpt d { c with overf := true, valid := false } }
  else
    { s with ckpt := Map.put s.ckpt d { c with kept := c.kept ++ [⟨p, s.mem.filter fun x => x.1 / 4096 == p,
        s.poison.filter fun x => x / 128 == p⟩] } }

/-- A write request to a parcel, for every device that it belongs to. -/
def State.keepParcel (s : State) (loc : Nat) : State :=
  ((s.ckpt.map (·.1)).filter fun d => s.devCovers d loc).foldl (fun s d => s.keepFor loc d) s

/-! ## The directory (R263 to R266) -/

def DirSpan.owner (d : DirSpan) : Option Nat := (List.find? (fun p : Nat × DirSt => p.2 != DirSt.s) d.st).map (·.1)

/-- The spans that a request for [f, l] is served by or merges, and the words of the span it is mapped onto (R264). -/
def State.mapSpan (s : State) (line f l : Nat) : Nat × Nat × List DirSpan :=
  let ds := s.dir.filter (·.line == line)
  match ds.find? fun d => d.f ≤ f && l ≤ d.l with
  | some d => (d.f, d.l, [d])
  | none =>
    let os := ds.filter fun d => overlaps f l d.f d.l
    let ms := if os.isEmpty then (if ds.length < 4 then [] else ds) else os
    (ms.foldl (fun a d => min a d.f) f, ms.foldl (fun a d => max a d.l) l, ms)

/-- Whether a mapping is a merge. -/
def isMerge (m : Nat × Nat × List DirSpan) : Bool :=
  match m.2.2 with
  | [] => false
  | [d] => !(d.f == m.1 && d.l == m.2.1)
  | _ => true

/-- A companion core that loses a line loses its reservation (R352). -/
def State.dropResv (s : State) (a line : Nat) : State :=
  { s with resv := s.resv.filter fun r => !(r.1 + 8 == a && r.2 == line) }

/-- An agent loses a span: a die L2 drops it and raises DIC (R260), and drops reach watching cores, but for a crew `by_` whose own
write takes the span (R293). -/
def State.lose (s : State) (a line f l : Nat) (by_ : Option Nat := none) : State :=
  let s := s.dropOffs a line f l
  if 8 ≤ a then s.dropResv a line
  else
    let xs := (s.die a).l2.filter fun x => x.line == line && overlaps f l x.f x.l
    let s := s.onDie a fun d => { d with
      dic := xs.foldl (fun t x => stampMax t (x.rts + 1)) d.dic
      l2 := d.l2.filter fun x => !(x.line == line && overlaps f l x.f x.l) }
    s.dropWatchers (fun k => dieOfCore (coreOfKey k) == a && some k != by_) line f l

/-- The port through which an agent's data, or the home's, enter the crossbar: 255 for none of the spoke ports. -/
def portOf (line : Nat) (owner : Option Nat) : Nat :=
  match owner with
  | some a => if a < 8 then a else 255
  | none => if locPair (128 * line) < 8 then 8 + locPair (128 * line) else 255

/-- The agent number of a span's source: its owner, or the home. -/
def DirSpan.source (d : DirSpan) : Nat := d.owner.getD 63
/-- The agents that hold a span. -/
def DirSpan.holders (d : DirSpan) : List Nat := d.st.map (·.1)

def State.sendRec (s : State) (r : ChkRec) : State :=
  { s with recs := s.recs ++ [r], lastNum := Map.put s.lastNum r.line r.num }

/-- The record agents of R375: the owner with WR 1, or the home, 63, with WR 0. -/
def recAgent (o : Option Nat) : Nat × Bool := match o with | some a => (a, true) | none => (63, false)

/-- A close record of the interval num, with the hash of the words as they stand (R270). -/
def State.sendClose (s : State) (d : DirSpan) : State :=
  let (a, wr) := recAgent d.owner
  s.sendRec { line := d.line, f := d.f, l := d.l, num := d.num, hash := s.hash d.line d.f d.l, agent := a, kind := .close,
              wr, sent := s.clk }

def State.sendOpen (s : State) (line f l : Nat) (num : BitVec 24) (o : Option Nat) : State :=
  let (a, wr) := recAgent o
  s.sendRec { line, f, l, num, hash := s.hash line f l, agent := a, kind := .open_, wr, sent := s.clk }

/-- A span is created (R374): what the model's home checker is told of it, for which no record is sent. -/
def State.sendCreated (s : State) (d : DirSpan) : State :=
  { s with recs := s.recs ++ [{ line := d.line, f := d.f, l := d.l, num := d.num, hash := 0, agent := 63, kind := .created,
                                wr := false, sent := s.clk }] }

def State.setDir (s : State) (line f l : Nat) (new : Option DirSpan) : State :=
  let rest := s.dir.filter fun d => !(d.line == line && overlaps f l d.f d.l)
  { s with dir := match new with
      | some d => if d.st.isEmpty then rest else rest ++ [d]
      | none => rest }

/-- The interval number of a span that the directory creates (R374). -/
def State.firstNum (s : State) (line : Nat) : BitVec 24 :=
  match Map.find? s.lastNum line with
  | some n => n + 1
  | none => 0

/-- An agent gives a span up (R265): a WB from M or O, with its data, or an Evict from E closes its interval and opens the next at
the home; an Evict from S leaves the agent in the sharer set. -/
def State.giveUp (s : State) (a line f l : Nat) : State :=
  match s.dir.find? fun d => d.line == line && d.f ≤ f && l ≤ d.l with
  | none => s
  | some d =>
    match Map.find? d.st a with
    | none => s
    | some .s => s.lose a line d.f d.l
    | some st =>
      let s := s.sendClose d
      let s := if st = .e then s else s.pass (portOf line (some a)) line d.f d.l 63
      let s := (s.newSource line d.f d.l 63 (d.holders.filter (· != a))).lose a line d.f d.l
      let s := s.sendOpen line d.f d.l (d.num + 1) none
      s.setDir line d.f d.l (some { d with st := Map.erase d.st a, num := d.num + 1, writer := none })

/-- The lines of a die L2: 64 MiB of 128 bytes (R11). -/
def l2Lines : Nat := 524288

/-- The lines that a die L2 holds, the one that it gained first at the head. -/
def Die.lines (d : Die) : List Nat := (d.l2.map (·.line)).eraseDups

/-- A die L2 that is full gives up the line it has held longest before it takes another, by the WB or Evict of each of its
spans (R265); which line and when is the model's choice (log entry 69). -/
def State.l2Room (s : State) (a line : Nat) : State :=
  let xs := (s.die a).l2
  if xs.length < l2Lines ∨ (s.die a).lines.length < l2Lines ∨ xs.any (·.line == line) then s
  else match xs with
    | [] => s
    | old :: _ => (xs.filter (·.line == old.line)).foldl (fun s x => s.giveUp a x.line x.f x.l) s

/-- A die L2 gains a span: wts := rts := DIC (R258). Where it held part of it already, before a merge or an Upg, that possession
ends and raises DIC past the leases granted in it (R260; log entry 22). -/
def State.gain (s : State) (a line f l : Nat) : State :=
  if 8 ≤ a then s
  else
    let olds := (s.die a).l2.filter fun x => x.line == line && overlaps f l x.f x.l
    let s := s.l2Room a line
    s.onDie a fun d =>
      let dic := olds.foldl (fun t x => stampMax t (x.rts + 1)) d.dic
      { d with
        dic
        l2 := (d.l2.filter fun x => !(x.line == line && overlaps f l x.f x.l)) ++ [⟨line, f, l, dic, dic, olds.any (·.unclean)⟩] }

/-- The close records of a merged span: one from each holder, of its words as they enter the merge (R264), with WR 1 where it held
write permission in the interval (R270, R375). -/
def State.mergeCloses (s : State) (d : DirSpan) : State :=
  match d.st with
  | [] => s.sendClose d
  | hs => hs.foldl (fun s h => s.sendRec {
      line := d.line, f := d.f, l := d.l, num := d.num, hash := s.hashAt h.1 d.line d.f d.l, agent := h.1, kind := .close
      wr := h.2 != .s || d.writer == some h.1, sent := s.clk }) s

/-- Merges the spans of a mapping for requester a (R264): every interval closes, the others lose their spans, and
the merged span's interval opens at a, which keeps its own words. Where no part had an owner, a read request leaves the merged
span in S (log entry 24). -/
def State.merge (s : State) (a line f l : Nat) (ms : List DirSpan) (write : Bool) (by_ : Option Nat := none) : State :=
  let s := { s with swCnt := { s.swCnt with merges := satInc s.swCnt.merges } }
  let s := ms.foldl State.mergeCloses s
  let rest := (upFrom f (l + 1 - f)).filter fun i => !ms.any fun d => d.f ≤ i && i ≤ d.l
  let restH := rest.foldl (fun h i => h ^^^ rotl32 (s.lineWord line i) i) 0
  let s := ms.foldl (fun s d => if d.holders.contains a then s else s.pass (portOf line d.owner) line d.f d.l a) s
  let s := rest.foldl (fun s i => s.pass (portOf line none) line i i a) s
  let s := ms.foldl (fun s d => (d.holders.filter (· != a)).foldl (fun s b => s.lose b line d.f d.l by_) s) s
  let s := s.newSource line f l a []
  let num := ms.foldl (fun n d => if n.toNat ≤ d.num.toNat then d.num else n) (0 : BitVec 24) + 1
  let owned := write || ms.any fun d => d.owner.isSome
  let s := s.sendRec {
    line, f, l, num, hash := s.hash line f l, agent := a, kind := .mergeOpen, wr := owned, sent := s.clk,
    rest := restH, parts := ms.map fun d => ⟨d.line, d.f, d.l, d.num⟩ }
  let s := s.setDir line f l (some ⟨line, f, l, [(a, if owned then .m else .s)], num, if owned then some a else none⟩)
  s.gain a line f l

/-- What an outside agent meets with a line's data: the clocks of the releases that have written to it (R65). -/
def State.agentMeets (s : State) (a line : Nat) : State :=
  let ch := s.lineClocks line
  if a < 8 ∨ ch.isEmpty = true then s
  else { s with agentSeen := Map.put s.agentSeen a (joinStamps (Map.get [] s.agentSeen a) ch) }

/-- Whether an agent that the directory lists for a span still has its copy: a die L2 may have evicted it from S (R265). An outside
agent's own request says so (`asks`). -/
def State.hasCopy (s : State) (a line f l : Nat) (asks : Bool) : Bool :=
  if a < 8 then ((s.die a).span? line f l).isSome else !asks

/-- A request of agent a for words [f, l] of a line: GetS, or GetX and Upg for a write (R264, R265). `by_` is the crew for whose own
write it is made; `asks` says that an outside agent sends it as GetS or GetX, having no copy. -/
def State.request (s : State) (a line f l : Nat) (write : Bool) (by_ : Option Nat := none) (asks : Bool := false) : State :=
  let s := (if write then s.keepParcel (128 * line) else s).agentMeets a line
  let mp := s.mapSpan line f l
  let f := mp.1
  let l := mp.2.1
  if isMerge mp then s.merge a line f l mp.2.2 write by_
  else
    let fresh := mp.2.2.isEmpty
    let d : DirSpan := match mp.2.2 with | d :: _ => d | [] => { line, f, l, st := [], num := s.firstNum line }
    let s := if fresh then s.sendCreated d else s
    let listed := Map.find? d.st a
    let mine := match listed with
      | some .s => if s.hasCopy a line f l asks then listed else none
      | x => x
    if write then
      match mine with
      | some .m => s
      | some .e => s.setDir line f l (some { d with st := Map.put d.st a .m })
      | _ =>
        let s := s.sendClose d
        let s := if mine.isSome then s else s.pass (portOf line d.owner) line f l a
        let s := (d.holders.filter (· != a)).foldl (fun s b => s.lose b line f l by_) s
        let s := s.newSource line f l a []
        let s := s.sendOpen line f l (d.num + 1) (some a)
        let s := s.setDir line f l (some { d with st := [(a, .m)], num := d.num + 1, writer := some a })
        s.gain a line f l
    else
      match mine with
      | some _ => s
      | none =>
        let s := s.pass (portOf line d.owner) line f l a
        let s := if d.owner.any fun o => Map.find? d.st o == some DirSt.e then s.newSource line f l 63 (a :: d.holders) else s
        let s := match d.owner with
          | none => s.setDir line f l (some { d with st := Map.put d.st a .s })
          | some o =>
            let o' := if Map.find? d.st o = some DirSt.e then DirSt.s else .o
            let s := s.setDir line f l (some { d with st := Map.put (Map.put d.st o o') a .s })
            let r : ChkRec :=
              { line, f, l, num := d.num, hash := 0, agent := a, kind := .readJoin, wr := false, sent := s.clk }
            { s with recs := s.recs ++ [r] }
        s.gain a line f l

/-- The intervals that a write request of agent a for [f, l] closes. -/
def State.closing (s : State) (a line f l : Nat) : List IvalRef :=
  let mp := s.mapSpan line f l
  if isMerge mp then mp.2.2.map fun d => ⟨d.line, d.f, d.l, d.num⟩
  else match mp.2.2 with
    | [] => [⟨line, f, l, s.firstNum line⟩]
    | d :: _ => if d.owner = some a && Map.find? d.st a != some DirSt.o then [] else [⟨line, d.f, d.l, d.num⟩]

/-- Whether an agent may write words [f, l] without a message: it holds them in M. -/
def State.canWrite (s : State) (a line f l : Nat) : Bool :=
  s.dir.any fun d => d.line == line && d.f ≤ f && l ≤ d.l && Map.find? d.st a == some DirSt.m

/-- The spans of the words that cells touch, one for each line (R46). -/
def spansOf (cs : List Host.Cell) : List (Nat × Nat × Nat) :=
  ((cs.map (·.1 / 128)).eraseDups).map fun line =>
    let ws := (cs.filter (·.1 / 128 == line)).map (·.1 % 128 / 4)
    (line, ws.foldl min 31, ws.foldl max 0)

/-- The invalidations of a home write, and the intervals that it closes (R265 HW): an owner's data go home first. Each span that the
write overlaps is taken by itself and whole, with no merge (log entry 24). -/
def State.homeInval (s : State) (line f l : Nat) (by_ : Option Nat := none) : State :=
  (s.dir.filter fun d => d.line == line && overlaps f l d.f d.l).foldl (fun s d =>
    let s := if d.owner.isSome then (s.sendClose d).pass (portOf line d.owner) line d.f d.l 63 else s
    let s := s.newSource line d.f d.l 63 []
    let s := d.holders.foldl (fun s b => s.lose b line d.f d.l by_) s
    s.setDir line d.f d.l none) s

/-- The home opens the next interval of each span that an owner lost, over the owner's data. -/
def State.homeOpen (s : State) (ds : List DirSpan) : State :=
  ds.foldl (fun s d => if d.owner.isSome then s.sendOpen d.line d.f d.l (d.num + 1) none else s) s

/-- A home write of cells (R265): the write of an agent that keeps no copy, with the clocks of a release that it carries. `by_` is a
crew whose own spill it is, which gets no drop (R293). The control region discards it (R337). -/
def State.homeCells (s : State) (cs : List Host.Cell) (lctr : Option Nat) (by_ : Option Nat := none) (ch : Clocks := []) : State :=
  let cs := cs.filter fun c => !locCtl c.1
  let sp := spansOf cs
  let s := s.carry (sp.map (·.1)) ch
  let ds := s.dir.filter fun d => sp.any fun x => x.1 == d.line && overlaps x.2.1 x.2.2 d.f d.l
  let s := sp.foldl (fun s x => (s.keepParcel (128 * x.1)).homeInval x.1 x.2.1 x.2.2 by_) s
  let s := (s.homeOpen ds).perform cs
  let s := sp.foldl (fun s x => s.dropWatchers (fun k => some k != by_) x.1 x.2.1 x.2.2) s
  (s.trigger by_ cs).dirty cs lctr

/-- Bytes that the device itself writes at a virtual address of a context, as agent 57; `lctr` names the launch that they
belong to, where they do, and `ch` the clocks of a release. None where some byte does not translate with write permission. -/
def State.devWrite (s : State) (ctx : Nat) (va : W64) (bs : List Byte) (lctr : Option Nat := none) (ch : Clocks := []) : Option State :=
  let locs := (List.range bs.length).map fun i => s.xlate ctx (va + BitVec.ofNat 64 i) .write
  if locs.any (fun r => match r with | .error _ => true | .ok _ => false) then none
  else
    let cs := (locs.zip bs).map fun x => (match x.1 with | .ok pa => s.locOf ctx pa | .error _ => 0, x.2)
    if cs.any fun c => s.flipping c.1 then some (cs.foldl (fun s c => s.holdReq (.home c.1 [c.2] lctr ch)) s)
    else some (s.homeCells cs lctr none ch)

/-- Bytes read at the point of coherence at a virtual address: none where one does not translate with read
permission. -/
def State.devRead (s : State) (ctx : Nat) (va : W64) (n : Nat) : Option (List Byte) :=
  let locs := (List.range n).map fun i => s.xlate ctx (va + BitVec.ofNat 64 i) .read
  if locs.any (fun r => match r with | .error _ => true | .ok _ => false) then none
  else some (locs.map fun r => match r with | .ok pa => memGet s.mem (s.locOf ctx pa) | .error _ => 0)

/-- Cells written through a core's port of the die L2 (R259): permission for every span, the bytes, the stamps,
monitors and dirty bits. A release write leaves its clocks at its lines. A write of an engine or an atomic to the control region is
discarded (R337). -/
def State.l2Cells (s : State) (core : Nat) (by_ : Option Nat) (lctr : Option Nat) (cells : List Host.Cell)
    (ch : Clocks := []) : State :=
  let cs := cells.filter fun c => !locCtl c.1
  let a := dieOfCore core
  let slot := match by_ with | some k => slotOfKey k | none => 127
  let sp := spansOf cs
  let s := sp.foldl (fun s x => s.request a x.1 x.2.1 x.2.2 true by_) s
  let s := (s.carry (sp.map (·.1)) ch).perform cs
  let s := sp.foldl (fun s x =>
    (s.stampWrite core slot x.1 x.2.1 x.2.2).dropWatchers
      (fun k => some k != by_ && dieOfCore (coreOfKey k) == a) x.1 x.2.1 x.2.2) s
  (s.trigger by_ cs).dirty cs lctr

end Sys2Proof.Machine
end

