-- ==== Sys2Proof/Machine/Ops.lean ====
section
/-! DEFINITION. The shared operations of a crew's instructions: checked accesses (R176 to R178), loads and stores,
releases and acquires (R59 to R61, R194, R257), shared effects (R287), traces (R360, R361), the hardware queues'
push (R300, R301), and the return from a trap (R252, R324). -/

namespace Sys2Proof.Machine

/-! ## Checked accesses -/

/-- One byte range of an access: the lane, 32 for the control thread, its virtual address and its location. -/
structure Acc where
  lane : Nat
  va : W64
  loc : Nat
  deriving DecidableEq, Repr

/-- Checked requests, or the trap that they raise. -/
inductive Checked where
  | bad (cause : Nat) (d0 d1 : W64) (ls : W32)
  | ok (as : List Acc)
  deriving DecidableEq, Repr

def maskL (ls : List Nat) : W32 := maskOf fun l => ls.contains l

/-- Alignment first, then translation, over every request (R178, R134): the lowest failing lane names the kind and
the address. -/
def State.checkAcc (s : State) (ctx : Nat) (need : Need) (w : Nat) (reqs : List (Nat × W64)) : Checked :=
  match reqs.filter fun r => r.2.toNat % w != 0 with
  | r :: rs => .bad 0x04 0 r.2 (maskL ((r :: rs).map (·.1)))
  | [] =>
    let bads := reqs.filter fun r => match s.xlate ctx r.2 need with | .ok _ => false | .error _ => true
    match bads with
    | r :: rs =>
      let kind := match s.xlate ctx r.2 need with | .ok _ => 0 | .error k => k
      .bad 0x05 (BitVec.ofNat 64 kind) r.2 (maskL ((r :: rs).map (·.1)))
    | [] => .ok (reqs.map fun r => ⟨r.1, r.2, match s.xlate ctx r.2 need with | .ok pa => s.locOf ctx pa | .error _ => 0⟩)

/-- Whether a core's TLB serves an access without a walk (R45). -/
def State.tlbHas (s : State) (core ctx : Nat) (va : W64) (write : Bool) : Bool :=
  (s.core core).tlb.any fun e => e.ctx == ctx && e.va == va.toNat / 2 ^ e.size && (!write || e.d)

/-- Walks for the pages that the TLB does not hold. -/
def State.walks (s : State) (as : List Acc) (write : Bool) : State :=
  let c := s.me
  s.pushAll (((as.filter fun a => !s.tlbHas s.myCore c.ctx a.va write).map fun a => a.va &&& ~~~(0xFFF : W64)).eraseDups.map
    fun va => .pageWalkDone s.myCore c.ctx va write)

/-! ## Held effects -/

/-- Holds an effect of this instruction until it may leave the core (R287), and until the release of its order is complete
(R60): the crew goes on. A release at .crew orders what the crew's own order does already. -/
def State.hold (s : State) (e : Effect) (rel : Option Scope := none) : State :=
  s.onMe fun c => { c with held := c.held ++ [{ at_ := s.clk, eff := e, rel := if rel = some .crew then none else rel }] }

def Effect.cells : Effect → List Host.Cell
  | .store cs => cs
  | .spill cs _ => cs
  | _ => []
def Effect.plateCells (core : Nat) : Effect → List Host.Cell
  | .plate c _ _ cs => if c = core then cs else []
  | _ => []
def Effect.groups : Effect → List AtomGroup
  | .atoms gs => gs
  | _ => []

/-- The value that the crew's own held stores give a byte (R52, R62). -/
def lastCell (cs : List Host.Cell) (a : Nat) : Option Byte :=
  cs.foldl (fun r c => if c.1 = a then some c.2 else r) none
def Crew.heldByte (c : Crew) (loc : Nat) : Option Byte := lastCell (c.held.flatMap fun h => h.eff.cells) loc

/-- Whether an earlier atomic or reduction of the crew on these bytes has not been performed yet. -/
def State.atomPending (s : State) (k : Nat) (locs : List Nat) : Bool :=
  let hit := fun (g : AtomGroup) => g.crew == k &&
    g.reqs.any fun r => locs.any fun a => r.loc ≤ a && a < r.loc + 8
  (s.crew k).held.any (fun h => h.eff.groups.any hit) || s.svcq.any fun q => q.2.any hit

/-! ## Traces (R360, R361) -/

/-- Folds a parcel into a trace entry. -/
def Trace.fold (t : Trace) (p : Nat) : Trace :=
  let lim := 2 ^ 20 - 1
  if t.ranges.any fun r => r.1 ≤ p && p ≤ r.1 + r.2 then t
  else
    match (List.range t.ranges.length).find? fun i =>
        let r := t.ranges.getD i (0, 0)
        (p + 1 == r.1 || p == r.1 + r.2 + 1) && r.2 < lim with
    | some i =>
      let r := t.ranges.getD i (0, 0)
      let r' := if p + 1 = r.1 then (p, r.2 + 1) else (r.1, r.2 + 1)
      let rs := t.ranges.set i r'
      match (List.range rs.length).find? fun j =>
          let q := rs.getD j (0, 0)
          j != i && (q.1 + q.2 + 1 == r'.1 || r'.1 + r'.2 + 1 == q.1) && q.2 + r'.2 + 1 ≤ lim with
      | some j =>
        let q := rs.getD j (0, 0)
        { t with ranges := (rs.set i (min q.1 r'.1, q.2 + r'.2 + 1)).eraseIdx j }
      | none => { t with ranges := rs }
    | none => if t.ranges.length < 16 then { t with ranges := t.ranges ++ [(p, 0)] } else { t with whole := true }

/-- Records read parcels in the trace of a party whose packet has RETAIN = 1. -/
def State.traceReads (s : State) (p : Nat) (locs : List Nat) : State :=
  if bit (s.party p).packet 6 then
    s.onParty p fun x => { x with trace := (locs.map parcelOfLoc).eraseDups.foldl Trace.fold x.trace }
  else s

/-- Marks a party always-rerun with a cause of WHY: 0 cntrd, 1 shlv, 2 time, 3 returning atomic, 4 shpv, 5 pop. -/
def State.always (s : State) (p : Nat) (why : Nat) : State :=
  s.onParty p fun x => { x with trace := { x.trace with why := x.trace.why ||| (1 <<< why) } }

/-! ## The reorder window (R274) -/

def Scope.code : Scope → Nat
  | .crew => 0 | .clus => 1 | .die => 2 | .dev => 3 | .sys => 4

/-- DETAIL0 of cause 0x07 (R323). -/
def violDetail (kind scope : Nat) (num : BitVec 24) : W64 := BitVec.ofNat 64 (kind + 16 * scope + num.toNat * 2 ^ 24)

/-- A scope at which operations may be performed out of order: a crew's own leave the fix window in program order, which is all
that .crew asks (R59). -/
def beyondCrew : Option Scope → Option Nat
  | none => none
  | some .crew => none
  | some sc => some (Scope.code sc)

/-- Whether a fence between an earlier operation e and a later l makes l wait, and at which scope. -/
def ROp.fenced (f e l : ROp) : Option Nat :=
  match f.fence with
  | some (.rel, sc) => if l.write then beyondCrew (some sc) else none
  | some (.acq, sc) => if e.read then beyondCrew (some sc) else none
  | some (_, sc) => beyondCrew (some sc)
  | none => none

/-- Whether an operation has been performed at a scope, by its code: at .dev and .sys a write has landed at the home (R59). -/
def ROp.performedAt (e : ROp) (n : Nat) : Bool := e.done && (decide (n < 3) || e.home)

/-- The scope of the table's row that makes operation l of a crew wait for one of its earlier operations, listed newest first,
that has not been performed there; `fs` are the fences met on the way (R274). Accesses of one instruction are not ordered among
themselves. DESIGN CHOICE: for the same-location row, whose S is every scope, the model names .sys (log entry 80). -/
def winBad (l : ROp) : List ROp → List ROp → Option Nat
  | [], _ => none
  | e :: es, fs =>
    if e.crew ≠ l.crew ∨ e.at_ = l.at_ then winBad l es fs
    else if e.fence.isSome then winBad l es (e :: fs)
    else if !e.done && l.locs.any e.locs.contains then some 4
    else
      let rows := (beyondCrew l.rel).toList ++ (beyondCrew e.acq).toList ++ fs.filterMap fun f => f.fenced e l
      match rows.find? fun n => !e.performedAt n with
      | some n => some n
      | none => winBad l es fs

/-- A failed test of the reorder checker (R274): it is counted and logged, and the crew takes cause 0x07, kind 1. -/
def State.reorder (s : State) (k : Nat) (l : ROp) (sc : Nat) : State :=
  let c := s.crew k
  let core := coreOfKey k
  let line := l.locs.headD 0 / 128
  let ws := l.locs.map fun a => a % 128 / 4
  let num := match s.dir.find? fun d => d.line == line && overlaps (ws.foldl min 31) (ws.foldl max 0) d.f d.l &&
      (Map.find? d.st (dieOfCore core)).isSome with
    | some d => d.num
    | none => 0
  let pa := BitVec.ofNat 64 (locPa (128 * line))
  let t := (s.onCnt core fun n => { n with reord := satInc n.reord }).report
    { src := 5, addr := pa, detail := violDetail 1 sc num, ctx := c.ctx, agent := dieOfCore core, core }
  if (s.ctx c.ctx).hold then s.oneEvent (t.trapCrew k (trapRec c 0x07 (violDetail 1 sc num) pa 0 false)) else t

/-- The newest n memory operations of a window, with the fences among them. -/
def winTake : Nat → List ROp → List ROp
  | _, [] => []
  | n, r :: rs => if r.fence.isSome then r :: winTake n rs else match n with
    | 0 => []
    | m + 1 => r :: winTake m rs

/-- A memory operation of a crew enters its core's window of 256, and so does a fence or the acquire of a barrier's return; an access
that is performed as it issues is tested against the earlier ones. -/
def State.winPush (s : State) (k : Nat) (r : ROp) : State :=
  if (s.ctx (s.crew k).ctx).rchk then
    let core := coreOfKey k
    let bad := if r.done && (r.read || r.write) then winBad r (s.core core).window [] else none
    let s := s.onCore core fun c => { c with window := winTake 256 (r :: c.window) }
    match bad with
    | some sc => s.reorder k r sc
    | none => s
  else s

/-- A crew's operations leave the window once all of them have been performed at the widest scope that a row may name. -/
def winSettle (k : Nat) (w : List ROp) : List ROp :=
  if w.any fun l => l.crew == k && !(l.done && l.home) then w else w.filter fun l => l.crew != k

/-- The operations of a crew that meet a condition are performed, each tested against the earlier ones. -/
def State.winDone (s : State) (k : Nat) (p : ROp → Bool) : State :=
  if !(s.ctx (s.crew k).ctx).rchk then s
  else
    let core := coreOfKey k
    let w := (s.core core).window
    let bads := (List.range w.length).filterMap fun i => match w[i]? with
      | some l => if l.crew == k && p l && !l.done then (winBad l (w.drop (i + 1)) []).map fun sc => (l, sc) else none
      | none => none
    let w := w.map fun l => if l.crew == k && p l then { l with done := true } else l
    let s := s.onCore core fun c => { c with window := winSettle k w }
    bads.foldl (fun s b => s.reorder k b.1 b.2) s

/-- A release of a crew at .dev or .sys has brought its earlier writes home (R59, R257). -/
def State.winHome (s : State) (k : Nat) (sc : Scope) : State :=
  if Scope.code sc < 3 || !(s.ctx (s.crew k).ctx).rchk then s
  else s.onCore (coreOfKey k) fun c => { c with
    window := winSettle k (c.window.map fun l => if l.crew == k && l.done then { l with home := true } else l) }

/-- Each counted arrival at a barrier phase, and each flip, follows a completed release (R275): the crew's earlier operations
have been performed. -/
def State.winArrive (s : State) (sc : Scope) : State :=
  let l : ROp := { crew := s.cur, at_ := s.clk, locs := [], rel := some sc, done := true }
  if !(s.ctx s.me.ctx).rchk then s
  else match winBad l (s.core s.myCore).window [] with
    | some n => s.reorder s.cur l n
    | none => s

/-! ## Loads -/

/-- What the accesses of a load find. -/
inductive Loaded where
  | miss (reqs : List Instr)
  | poison (as : List Acc)
  | ok (vals : List (Nat × Nat)) (wts : Stamp) (ch : Clocks)
  deriving DecidableEq, Repr

/-- The byte that a read of the control region returns to a crew (R300, R337, R347): the free places of a push
window's queue, otherwise 0. -/
def State.ctlByte (s : State) (pa : Nat) : Byte :=
  let o := pa - ctlBase
  let page := o / 4096
  let n := if 0x100 ≤ page ∧ page < 0x140 then 256 - (Map.get {} s.queues (page - 0x100)).pkts.length
    else if 0x140 ≤ page ∧ page < 0x150 then 256 - (Map.get {} s.xqueues (page - 0x140)).descs.length else 0
  if o % 4096 < 8 then BitVec.ofNat 8 (n / 256 ^ (o % 4096)) else 0

/-- A sector as the crew meets it: poisoned in the copy that serves it, and not covered whole by one of its own held stores
(R58). -/
def State.poisonFor (s : State) (core : Nat) (c : Crew) (loc : Nat) : Bool :=
  !locCtl loc && (match (s.core core).copy? (loc / 128) (loc % 128 / 4) (loc % 128 / 4) with
    | some x => x.poison.contains (loc / 32)
    | none => s.isPoisoned loc) && !c.held.any fun h => (wholeSectors h.eff.cells).contains (loc / 32)

/-- One byte as the crew reads it: the control region's registers (R300), else its own held stores, then its core's live L1
copy (R62, R259). -/
def State.readByte (s : State) (core : Nat) (c : Crew) (loc : Nat) : Byte :=
  if locCtl loc then s.ctlByte (locPa loc)
  else match c.heldByte loc with
    | some b => b
    | none =>
      let i := loc % 128 / 4
      match (s.core core).copy? (loc / 128) i i with
      | some x => ((x.words.getD (i - x.f) 0) >>> (8 * (loc % 4))).extractLsb' 0 8
      | none => 0

def accLocs (as : List Acc) (w : Nat) : List Nat := as.flatMap fun a => upFrom a.loc w

/-- The accesses of a load (R176, R178, R180): each line is read once, from a live copy. -/
def State.loadAcc (s : State) (k : Nat) (as : List Acc) (w : Nat) : Loaded :=
  let c := s.crew k
  let core := coreOfKey k
  let locs := accLocs as w
  let sp := spansOf ((locs.filter fun a => !locCtl a).map fun a => (a, (0 : Byte)))
  let missing := sp.filter fun x => ((s.core core).copy? x.1 x.2.1 x.2.2).isNone || c.mustRead x.1 x.2.1 x.2.2
  if s.atomPending k locs then .miss []
  else if !missing.isEmpty then .miss (missing.map fun x => .l1Read core x.1 x.2.1 x.2.2)
  else
    match as.filter fun a => s.poisonFor core c a.loc with
    | p :: ps => .poison (p :: ps)
    | [] =>
      .ok (as.map fun a => (a.lane, ofBytes ((upFrom a.loc w).map (s.readByte core c))))
        (sp.foldl (fun t x => match (s.core core).copy? x.1 x.2.1 x.2.2 with
          | some y => stampMax t y.wts
          | none => t) (s.core core).ts)
        (sp.foldl (fun ch x => match (s.core core).copy? x.1 x.2.1 x.2.2 with
          | some y => joinStamps ch y.clocks
          | none => ch) [])

/-- A load instruction: checks, misses, poison, then the crew's update, the trace and the acquire. -/
def State.loadInstr (s : State) (w : Nat) (ord : Option Scope) (reqs : List (Nat × W64))
    (upd : List (Nat × Nat) → Crew → Crew) : Out :=
  let c := s.me
  match s.checkAcc c.ctx .read w reqs with
  | .bad cause d0 d1 ls => .next (s.trap cause d0 d1 ls)
  | .ok as =>
    let s := s.walks as false
    match s.loadAcc s.cur as w with
    | .miss is => .next ((s.waitMe .load).pushAll (is ++ [.loadReturn s.cur]))
    | .poison ps =>
      let va := match ps with | a :: _ => a.va &&& ~~~(0x1F : W64) | [] => 0
      .next (s.trap 0x06 0 va (maskL (ps.map (·.lane))))
    | .ok vals wts ch =>
      let s := s.traceReads c.party (as.map (·.loc))
      let locs := (accLocs as w).filter fun a => !locCtl a
      let s := (locs.map (· / 128)).eraseDups.foldl (fun s line => s.winPush s.cur {
        crew := s.cur, at_ := s.clk, locs := locs.filter fun a => a / 128 == line && (c.heldByte a).isNone
        read := true, acq := ord, done := true }) s
      let s := match ord with
        | some sc => s.acquire s.cur sc wts ch
        | none => s
      s.done fun c => upd vals { c with readWts := stampMax c.readWts wts, readSeen := joinStamps c.readSeen ch }

/-! ## Releases -/

/-- Performs a release at a scope before the rest of an instruction that has to follow it at once, a `fence` with .ar or a
form without lanes (R107). A release at .crew orders what program order orders already; at a wider scope the crew waits until
RELEASE_COMPLETE marks it released. -/
def State.withRelease (s : State) (sc : Option Scope) (k : State → Out) : Out :=
  match sc with
  | none => k s
  | some .crew => k s
  | some sc =>
    if s.me.released then k (s.onMe fun c => { c with released := false }) else .next (s.waitMe (.release sc))

/-- An effect in an object that other crews see (R287): it takes place once it is FIX_DEPTH clk old, after every
earlier effect of the crew, with a release at the scope given. -/
def State.shared (s : State) (sc : Scope) (k : State → Out) : Out :=
  if s.me.released then k ((s.onMe fun c => { c with released := false }).commitMe)
  else .next (s.waitMe (.release sc))

/-! ## Stores -/

/-- The bytes that a store's accesses write, in lane order, so that the highest lane's value stands (R177). -/
def storeCells (as : List Acc) (w : Nat) (val : Nat → Nat) : List Host.Cell :=
  as.flatMap fun a => cellsOf a.loc (bytesOf w (val a.lane))

/-- A store instruction: checks, then the write held in the core, behind its release. -/
def State.storeInstr (s : State) (w : Nat) (ord : Option Scope) (reqs : List (Nat × W64)) (val : Nat → Nat) : Out :=
  match s.checkAcc s.me.ctx .write w reqs with
  | .bad cause d0 d1 ls => .next (s.trap cause d0 d1 ls)
  | .ok as =>
    let s := s.walks as true
    let cs := storeCells as w val
    let s := if cs.isEmpty then (if ord.isSome then s.hold .fence ord else s) else s.hold (.store cs) ord
    let locs := (cs.map (·.1)).filter fun a => !locCtl a
    let s := (locs.map (· / 128)).eraseDups.foldl (fun s line => s.winPush s.cur {
      crew := s.cur, at_ := s.clk, locs := locs.filter (· / 128 == line), write := true, rel := ord, done := false, home := false }) s
    s.done id

/-- A prefetch (R137, R182): the lines whose addresses translate and hold no poison are asked for. DESIGN CHOICE: the poison that
drops a lane's prefetch is that of the sector that holds A(l), not of the line (log entry 77). -/
def State.prefetch (s : State) (vas : List W64) : Out :=
  let c := s.me
  let locs := (vas.filterMap fun va => match s.xlate c.ctx va .read with
    | .ok pa => if s.isPoisoned (s.locOf c.ctx pa) || isCtl pa then none else some (s.locOf c.ctx pa)
    | .error _ => none)
  (s.pushAll ((locs.map (· / 128)).eraseDups.map fun line => .l1Read s.myCore line 0 31)).done id

/-! ## Hardware queues (R300, R301) -/

/-- What a queue answers to a push: accepted, full, or refused for any other reason. -/
inductive PushFate where
  | ok | full | no
  deriving DecidableEq, Repr

def HwQueue.fate (q : HwQueue) (dev priv : Bool) (ctx : Option Nat) : PushFate :=
  if !q.en then .no
  else if dev && !q.devpush then .no
  else if dev && !priv && q.privq then .no
  else if (match ctx with | some c => c != q.ctx.toNat | none => false) then .no
  else if q.pkts.length < 256 then .ok else .full

/-- Appends a packet at the tail (R300). -/
def State.appendPkt (s : State) (q : Nat) (p : Pkt) : State :=
  { s with queues := Map.modify {} s.queues q fun x => { x with pkts := x.pkts ++ [p] } }

/-! ## Return from a trap (R252, R324) -/

/-- How a frame resumes its crew (R324): ACTION 0 goes on at the frame's word, every other action ends the crew; so does a return to a
crew that had ended before it was trapped (R329). -/
def Crew.resume (c : Crew) (frame : Nat) : Crew :=
  let perf := fld frame 939 1 == 1
  if fld frame 940 4 = 0 && (c.live != 0 || !c.frames.isEmpty) then
    { c with phase := .enter perf, trap := none, noticed := false, sb := [], heldSince := 0, out := 0, again := false,
             pc := BitVec.ofNat 64 (fld frame 960 64), widx := fld frame 952 8 + perf.toNat }
  else
    { c with phase := .ended, trap := none, noticed := false, live := 0, active := 0, pend := [], frames := [], depth := 0 }

/-- The crew of the issuing crew's device that a frame's IDENT names, when it is trapped and waits (R252, R340, R341). -/
def State.frameCrew (s : State) (frame : Nat) : Option Nat :=
  (List.find? (fun kc : Nat × Crew => kc.2.phase == .trapped && kc.2.noticed &&
      devOfPair s.mode.mode (dieOfCore (coreOfKey kc.1)) == devOfPair s.mode.mode (dieOfCore s.myCore) && slotOfKey kc.1 == fld frame 620 7 &&
      s.logCore kc.2.ctx (coreOfKey kc.1) == fld frame 627 9 && s.local_ 4096 kc.2.lctr == fld frame 636 12)
    s.crews).map (·.1)

/-- `hret` on a frame: it resumes the crew that waits for it, if there is one. -/
def State.hretFrame (s : State) (frame : Nat) : State :=
  match s.frameCrew frame with
  | none => s
  | some k => s.onCrew k fun c => c.resume frame

end Sys2Proof.Machine
end

