-- ==== Sys2Proof/Machine/Flags.lean ====
section
/-! DEFINITION. The sticky flags of lanes (R114, R115) and lane traps (R39, R107, R325). -/

namespace Sys2Proof.Machine

/-- A lane's result: its bits, the flags it raises, and whether it is an integer division by zero. -/
structure LaneRes where
  bits : Nat := 0
  fl : Fl := 0
  dz : Bool := false
  deriving DecidableEq, Repr

def LaneRes.of (r : FRes) : LaneRes := { bits := r.bits, fl := r.fl }

/-- What %tflags enables of a result's conditions: bits 4:0 flags, bit 5 integer divide by zero (R325 v5). -/
def Crew.enabled (c : Crew) (r : LaneRes) : BitVec 6 :=
  c.tflags &&& ((if r.dz then 32 else 0) ||| r.fl.zeroExtend 6)

/-- What a trapped lane carries to its handler (R325). -/
structure LaneOp where
  dest : Option (Nat × Bool) := none
  pdest : Option PReg := none
  code : BitVec 16 := 0
  src : Nat → Nat × Nat × Nat := fun _ => (0, 0, 0)

def State.laneTag (s : State) (c : Crew) (op : LaneOp) (flags : BitVec 6) (l : Nat) : LaneTag :=
  { crew := s.cur, lane := l, since := s.clk, word := c.word, pc := c.pc, widx := c.widx, flags, code := op.code,
    a := BitVec.ofNat 64 (op.src l).1, b := BitVec.ofNat 64 (op.src l).2.1, c := BitVec.ofNat 64 (op.src l).2.2,
    old := c.laneFl l, dest := op.dest, predDest := op.pdest, lctr := c.lctr }

/-- Lanes leave for a handler crew: their crew parks until they return (R39). In a handler crew, a crew placed from
a notice or a test crew a lane trap is not gathered (R327, R381). -/
def State.sendLanes (s : State) (tags : List LaneTag) : State :=
  match tags with
  | [] => s
  | t :: _ =>
    let r : TrapRec := { cause := 0x0F, pc := t.pc, widx := t.widx, word := t.word, lanes := maskL (tags.map (·.lane)) }
    match s.me.kind with
    | .handler => s.secondError s.cur r
    | .test => s.testEnd s.cur (some 0xFFFF)
    | _ =>
      (s.onCore s.myCore fun c => { c with laneWait := c.laneWait ++ tags }).onMe fun c =>
        { c with phase := .lanesOut, out := c.out ||| maskL (tags.map (·.lane)) }

/-- Ends a lane-wise instruction (R108, R115): lanes with an enabled condition trap and write nothing; `write`
gives the other lanes their results, and they raise their flags. -/
def State.finishLanes (s : State) (g : W32) (res : Nat → LaneRes) (op : LaneOp) (write : W32 → Crew → Crew) : Out :=
  let c := s.me
  let rs := lanes.map res
  let r := fun l => rs.getD l {}
  let bad := maskOf fun l => g.getLsbD l && c.enabled (r l) != 0
  let ok := g &&& ~~~bad
  let c' := (lanesOf ok).foldl (fun c l => c.orLaneFl l (r l).fl) (write ok c)
  .next ((s.putMe c'.next).sendLanes ((lanesOf bad).map fun l => s.laneTag c op (c.enabled (r l)) l))

/-- A lane-wise instruction whose result is one value per lane, in one register or a pair. -/
def State.laneInstr (s : State) (h : Hd) (wide : Bool) (vd : VReg) (src : Nat → Nat × Nat × Nat)
    (res : Nat → LaneRes) : Out :=
  let g := s.me.gov h
  let rs := lanes.map fun l => if g.getLsbD l then res l else {}
  s.finishLanes g (fun l => rs.getD l {}) { dest := some (vd.toNat, wide), src } fun ok c =>
    c.putN wide vd ok fun l => (rs.getD l {}).bits

/-- A lane-wise instruction that raises no flag. -/
def State.plainLanes (s : State) (h : Hd) (wide : Bool) (vd : VReg) (val : Nat → Nat) : Out :=
  let c := s.me
  s.done fun _ => c.putN wide vd (c.gov h) val

end Sys2Proof.Machine
end

