-- ==== Sys2Proof/Machine/Scalar.lean ====
section
/-! DEFINITION. Scalar arithmetic and scalar memory (R126 to R138). -/

namespace Sys2Proof.Machine

/-! ## Scalar arithmetic (R126, R127) -/

/-- The second operand's low w bits (R126). -/
def Crew.op2 (c : Crew) (b : Op2) : W64 :=
  match b with
  | .reg sb => c.sv sb
  | .imm v => v.signExtend 64

/-- A w-bit result extended by the signedness of the type. -/
def extS (ty : ITy) (x : Nat) : W64 := if ty.signed then sext64 x ty.bits else zext64 x ty.bits

/-- The shift count b mod w (R127). -/
def shCnt (ty : ITy) (b : Nat) : Nat := b % ty.bits

/-- The operations of R127 on exact operands, a as a raw number too. -/
inductive SOp where
  | add | sub | mul | mulh | div | rem | and | or | xor | andn | shl | shr | sra | min | max
  deriving DecidableEq, Repr

def sopVal (op : SOp) (ty : ITy) (x y : Nat) : Nat :=
  let w := ty.bits
  let a := x % 2 ^ w
  let b := y % 2 ^ w
  let va := ITy.val ty a
  let vb := ITy.val ty b
  match op with
  | .add => wrapN (va + vb) w
  | .sub => wrapN (va - vb) w
  | .mul => wrapN (va * vb) w
  | .mulh => wrapN (va * vb / (2 ^ w : Nat)) w
  | .div => wrapN (quotI va vb) w
  | .rem => wrapN (remI va vb) w
  | .and => a &&& b
  | .or => a ||| b
  | .xor => a ^^^ b
  | .andn => a &&& (b ^^^ (2 ^ w - 1))
  | .shl => a * 2 ^ shCnt ty b % 2 ^ w
  | .shr => a / 2 ^ shCnt ty b
  | .sra => wrapN (sInt a w / (2 ^ shCnt ty b : Nat)) w
  | .min => if va ≤ vb then a else b
  | .max => if va ≤ vb then b else a

def State.scalarOp (s : State) (op : SOp) (ty : ITy) (sd sa : SReg) (b : Op2) : Out :=
  s.done fun c => c.setS sd (extS ty (sopVal op ty (c.sv sa).toNat (c.op2 b).toNat))

def execSadd (_st : BitVec 4) (ty : ITy) (sd sa : SReg) (b : Op2) (s : State) : Out := s.scalarOp .add ty sd sa b
def execSsub (_st : BitVec 4) (ty : ITy) (sd sa : SReg) (b : Op2) (s : State) : Out := s.scalarOp .sub ty sd sa b
def execSmul (_st : BitVec 4) (ty : ITy) (sd sa : SReg) (b : Op2) (s : State) : Out := s.scalarOp .mul ty sd sa b
def execSmulh (_st : BitVec 4) (ty : ITy) (sd sa : SReg) (b : Op2) (s : State) : Out := s.scalarOp .mulh ty sd sa b
def execSdiv (_st : BitVec 4) (ty : ITy) (sd sa : SReg) (b : Op2) (s : State) : Out := s.scalarOp .div ty sd sa b
def execSrem (_st : BitVec 4) (ty : ITy) (sd sa : SReg) (b : Op2) (s : State) : Out := s.scalarOp .rem ty sd sa b
def execSand (_st : BitVec 4) (ty : ITy) (sd sa : SReg) (b : Op2) (s : State) : Out := s.scalarOp .and ty sd sa b
def execSor (_st : BitVec 4) (ty : ITy) (sd sa : SReg) (b : Op2) (s : State) : Out := s.scalarOp .or ty sd sa b
def execSxor (_st : BitVec 4) (ty : ITy) (sd sa : SReg) (b : Op2) (s : State) : Out := s.scalarOp .xor ty sd sa b
def execSandn (_st : BitVec 4) (ty : ITy) (sd sa : SReg) (b : Op2) (s : State) : Out := s.scalarOp .andn ty sd sa b
def execSshl (_st : BitVec 4) (ty : ITy) (sd sa : SReg) (b : Op2) (s : State) : Out := s.scalarOp .shl ty sd sa b
def execSshr (_st : BitVec 4) (ty : ITy) (sd sa : SReg) (b : Op2) (s : State) : Out := s.scalarOp .shr ty sd sa b
def execSsra (_st : BitVec 4) (ty : ITy) (sd sa : SReg) (b : Op2) (s : State) : Out := s.scalarOp .sra ty sd sa b
def execSmin (_st : BitVec 4) (ty : ITy) (sd sa : SReg) (b : Op2) (s : State) : Out := s.scalarOp .min ty sd sa b
def execSmax (_st : BitVec 4) (ty : ITy) (sd sa : SReg) (b : Op2) (s : State) : Out := s.scalarOp .max ty sd sa b

/-- A condition on 64-bit values, with its signedness (R81, R128). -/
def condHolds (c : Cond) (a b : W64) : Bool :=
  match c with
  | .eq => a == b
  | .ne => a != b
  | .lt => a.toInt < b.toInt
  | .le => a.toInt ≤ b.toInt
  | .gt => b.toInt < a.toInt
  | .ge => b.toInt ≤ a.toInt
  | .lo => a.toNat < b.toNat
  | .ls => a.toNat ≤ b.toNat
  | .hi => b.toNat < a.toNat
  | .hs => b.toNat ≤ a.toNat

def execScmp (_st : BitVec 4) (cd : Cond) (sd sa : SReg) (b : Op2) (s : State) : Out :=
  s.done fun c => c.setS sd (if condHolds cd (c.sv sa) (c.op2 b) then 1 else 0)

def execSsel (_st : BitVec 4) (sd sc sa sb : SReg) (s : State) : Out :=
  s.done fun c => c.setS sd (if c.sv sc ≠ 0 then c.sv sa else c.sv sb)

def execSli (_st : BitVec 4) (zx : Bool) (sd : SReg) (v : W32) (s : State) : Out :=
  s.done fun c => c.setS sd (if zx then v.zeroExtend 64 else v.signExtend 64)

def execSlih (_st : BitVec 4) (sd sa : SReg) (v : W32) (s : State) : Out :=
  s.done fun c => c.setS sd (v ++ (c.sv sa).extractLsb' 0 32)

def execSmov (_st : BitVec 4) (sd sa : SReg) (s : State) : Out := s.done fun c => c.setS sd (c.sv sa)

def execSclz (_st : BitVec 4) (ty : ITy) (sd sa : SReg) (s : State) : Out :=
  s.done fun c => c.setS sd (BitVec.ofNat 64 (clzN ty.bits ((c.sv sa).toNat % 2 ^ ty.bits)))

def execSpopc (_st : BitVec 4) (ty : ITy) (sd sa : SReg) (s : State) : Out :=
  s.done fun c => c.setS sd (BitVec.ofNat 64 (popN ty.bits (c.sv sa).toNat))

/-- Position p and length L of a bit field within w bits (R132): the length is cut to the bits that exist. -/
def fieldPos (b : Nat) : Nat := b % 64
def fieldLen (b : Nat) : Nat := min (b / 256 % 128) (64 - b % 64)

def execSbfx (_st : BitVec 4) (sx : Bool) (sd sa sb : SReg) (s : State) : Out :=
  s.done fun c =>
    let b := (c.sv sb).toNat
    let f := (c.sv sa).toNat / 2 ^ fieldPos b
    c.setS sd (if fieldLen b = 0 then 0 else if sx then sext64 f (fieldLen b) else zext64 f (fieldLen b))

/-- Replaces n bits of x from p on by the low bits of y. -/
def insertField (x y p n : Nat) : Nat := x % 2 ^ p + y % 2 ^ n * 2 ^ p + x / 2 ^ (p + n) * 2 ^ (p + n)

def execSbfi (_st : BitVec 4) (sd sa sb : SReg) (s : State) : Out :=
  s.done fun c =>
    let b := (c.sv sb).toNat
    c.setS sd (BitVec.ofNat 64 (insertField (c.sv sd).toNat (c.sv sa).toNat (fieldPos b) (fieldLen b)))

def execSext (_st : BitVec 4) (ty : ITy) (sd sa : SReg) (s : State) : Out :=
  s.done fun c => c.setS sd (extS ty (c.sv sa).toNat)

/-! ## Scalar memory (R134 to R137) -/

/-- The effective address S(SBASE) + SExt(OFS11, 11) × w (R134). -/
def Crew.ea (c : Crew) (sb : SReg) (ofs : BitVec 11) (w : Nat) : W64 := c.sv sb + ofs.signExtend 64 * BitVec.ofNat 64 w

def execSld (_st : BitVec 4) (w : Width) (ord : Option Scope) (sd sb : SReg) (ofs : BitVec 11) (s : State) : Out :=
  s.loadInstr w.bytes ord [(32, s.me.ea sb ofs w.bytes)] fun vals c =>
    match vals with
    | (_, x) :: _ => c.setS sd (BitVec.ofNat 64 x)
    | [] => c

def execSst (_st : BitVec 4) (w : Width) (ord : Option Scope) (sa sb : SReg) (ofs : BitVec 11) (s : State) : Out :=
  s.storeInstr w.bytes ord [(32, s.me.ea sb ofs w.bytes)] fun _ => (s.me.sv sa).toNat

def execSprf (_st : BitVec 4) (sb : SReg) (ofs : BitVec 11) (s : State) : Out := s.prefetch [s.me.ea sb ofs 1]

end Sys2Proof.Machine
end

