-- ==== Sys2Proof/Machine/Control.lean ====
section
/-! DEFINITION. Control flow and the frontier (R21 to R29, R139 to R148), special registers and time (R99, R100,
R149, R150). -/

namespace Sys2Proof.Machine

/-! ## Fetch and the checks of targets (R106, R140) -/

/-- The instruction word at a location: the instruction cache is not coherent, so where its copy differs from memory
a fetch sees either version, chosen word by word (R106). -/
def State.codeWord (s : State) (core loc : Nat) : W64 :=
  let new : W64 := BitVec.ofNat 64 (memNat s.mem loc 8)
  match (s.core core).icache.find? fun x => x.line == loc / 128 with
  | none => new
  | some x =>
    let old := x.words.getD (loc % 128 / 8) 0
    if old = new then new else if Config.freeBit (s.free + 2 ^ 64 * (loc + 1)) then new else old

/-- The lines of a core's instruction cache: 128 KiB of 128 bytes (R12). -/
def icacheLines : Nat := 1024

/-- The line of a fetched word enters the instruction cache. A cache that is full drops the line that it has held longest:
the replacement is the model's choice (log entry 69). -/
def State.fillCode (s : State) (core loc : Nat) : State :=
  if (s.core core).icache.any fun x => x.line == loc / 128 then s
  else s.onCore core fun c => { c with icache := (if icacheLines ≤ c.icache.length then c.icache.drop 1 else c.icache) ++ [
    ⟨loc / 128, (List.range 16).map fun i => BitVec.ofNat 64 (memNat s.mem (loc / 128 * 128 + 8 * i) 8)⟩] }

/-- The fetch of a crew's word at an address leaves its line in the cache, and the next fetch chooses anew (R106). -/
def State.fetched (s : State) (k : Nat) (va : W64) : State :=
  let c := s.crew k
  (match s.xlate c.ctx va .exec with
    | .ok pa => if c.kind == CrewKind.test then s else s.fillCode (coreOfKey k) (s.locOf c.ctx pa)
    | .error _ => s).fresh

/-- The lines of a block's words enter the cache with its entry. -/
def State.fillBlock (s : State) (k : Nat) (pc : W64) (len : Nat) : State :=
  let c := s.crew k
  if c.kind = .test then s
  else ((upFrom 1 len).filter fun i => (pc.toNat + 8 * i) % 128 < 8).foldl (fun s i =>
    match s.xlate c.ctx (pc + BitVec.ofNat 64 (8 * i)) .exec with
    | .ok pa => s.fillCode (coreOfKey k) (s.locOf c.ctx pa)
    | .error _ => s) s

/-- A fetch by a crew: the word, or the kind of cause 0x05. A test crew runs the words of the test image (R380). -/
def State.fetch (s : State) (k : Nat) (va : W64) : Except Nat W64 :=
  let c := s.crew k
  if c.kind = .test then
    match s.test.code[va.toNat / 8]? with
    | some w => .ok w
    | none => .error 2
  else match s.xlate c.ctx va .exec with
  | .ok pa => .ok (s.codeWord (coreOfKey k) (s.locOf c.ctx pa))
  | .error e => .error e

/-- The check of a branch target (R140): a cause, its detail and the target, or none. -/
def State.badTarget (s : State) (va : W64) : Option (Nat × W64) :=
  match s.fetch s.cur va with
  | .error e => some (0x05, BitVec.ofNat 64 (e + 16))
  | .ok w => if va.toNat % 8 ≠ 0 then some (0x03, 3) else if bf w 56 8 ≠ 0xFF then some (0x03, 1) else none

def State.withTarget (s : State) (va : W64) (k : State → Out) : Out :=
  match s.badTarget va with
  | some (cause, d0) => .next (s.trap cause d0 va)
  | none => k s

/-- Sets the pending block of the lanes of a mask (R24). -/
def Crew.setPend (c : Crew) (m : W32) (t : W64) : Crew :=
  { c with pend := (lanesOf m).foldl (fun p l => Map.put p l t) c.pend }
def Crew.clearPend (c : Crew) (m : W32) : Crew :=
  { c with pend := c.pend.filter fun x => !m.getLsbD x.1 }

/-- A branch that is taken ends the run of its block (R139). -/
def State.branchTo (s : State) (t : W64) : Out :=
  s.withTarget t fun s => .next (s.onMe fun c => { c.setPend c.active t with phase := .select })

/-- h + 8 × SExt(DISP30, 30) (R139). -/
def Crew.disp (c : Crew) (d : BitVec 30) : W64 := c.pc + BitVec.ofNat 64 (8 * c.widx) + d.signExtend 64 * 8

def State.branchIf (s : State) (p : Bool) (d : BitVec 30) : Out := if p then s.branchTo (s.me.disp d) else s.done id

def execBr (_st : BitVec 4) (d : BitVec 30) (s : State) : Out := s.branchIf true d
def execBrc (_st : BitVec 4) (cd : Cond) (sa sb : SReg) (d : BitVec 30) (s : State) : Out :=
  s.branchIf (condHolds cd (s.me.sv sa) (s.me.sv sb)) d
def execBrz (_st : BitVec 4) (sa : SReg) (d : BitVec 30) (s : State) : Out := s.branchIf (s.me.sv sa == 0) d
def execBrnz (_st : BitVec 4) (sa : SReg) (d : BitVec 30) (s : State) : Out := s.branchIf (s.me.sv sa != 0) d
def execBrx (_st : BitVec 4) (sa : SReg) (v : BitVec 20) (s : State) : Out :=
  s.branchTo (s.me.sv sa + v.signExtend 64 * 8)

/-! ## Calls and returns (R29, R142, R143, R289) -/

/-- A call to a target with a window slide. The window base that it records and slides is the one that a `wrsr` of %window
left, where one came earlier in the same run of the block (R142; log entry 70). -/
def State.callTo (s : State) (n : BitVec 11) (t : W64) : Out :=
  s.withTarget t fun s =>
    let c := s.me
    if 4096 ≤ c.depth then .next (s.trap 0x0C 3)
    else
      let f : Frame := { ret := c.fallThrough, fmask := c.active, rmask := 0, basep := c.baseNext.setWidth 16, slide := n }
      .next (s.putMe { c.setPend c.active t with
        phase := .select, frames := f :: c.frames, depth := c.depth + 1, baseNext := c.baseNext + n.zeroExtend 17 })

def execCall (_st : BitVec 4) (n : BitVec 11) (d : BitVec 30) (s : State) : Out := s.callTo n (s.me.disp d)
def execCallx (_st : BitVec 4) (n : BitVec 11) (sa : SReg) (s : State) : Out := s.callTo n (s.me.sv sa)

/-- The 64 bytes of a frame record (R289). -/
def Frame.nat (f : Frame) : Nat :=
  f.ret.toNat * 2 ^ 448 + f.fmask.toNat * 2 ^ 416 + f.rmask.toNat * 2 ^ 384 + f.basep.toNat * 2 ^ 368 + f.slide.toNat * 2 ^ 357
def Frame.ofNat (x : Nat) : Frame :=
  { ret := BitVec.ofNat 64 (fld x 448 64), fmask := BitVec.ofNat 32 (fld x 416 32), rmask := BitVec.ofNat 32 (fld x 384 32),
    basep := BitVec.ofNat 16 (fld x 368 16), slide := BitVec.ofNat 11 (fld x 357 11) }
/-- The place of frame record d (R56). -/
def Crew.framePlace (c : Crew) (d : Nat) : W64 := c.spill - BitVec.ofNat 64 (64 * (d + 1))

/-- Pops every frame whose lanes have all returned or exited (R29, R143, R144), or the trap that a pop meets: cause,
detail and address. A record that the core does not hold is read back at the next block entry, where a fault of the fill
traps (R56): then `frames` is empty while `depth` is not 0. -/
def State.popFrames (s : State) (k : Nat) (c : Crew) : Nat → Except (Nat × W64 × W64) Crew
  | 0 => .ok c
  | fuel + 1 =>
    match c.frames with
    | [] => .ok c
    | f :: fs =>
      if f.fmask &&& c.live &&& ~~~f.rmask ≠ 0 ∨ c.live = 0 then .ok c
      else
        let back := f.fmask &&& f.rmask &&& c.live
        let notHdr := match s.fetch k f.ret with
          | .ok w => bf w 56 8 != 0xFF || f.ret.toNat % 8 != 0
          | .error _ => false
        if back ≠ 0 ∧ notHdr = true then .error (0x03, 1, f.ret)
        else
          let c' := { c.setPend back f.ret with baseNext := f.basep.setWidth 17, depth := c.depth - 1 }
          match fs with
          | _ :: _ => s.popFrames k { c' with frames := fs } fuel
          | [] => .ok (if c.depth ≤ 1 then { c' with frames := [] } else { c' with frames := [], pc := f.ret, widx := 0 })

/-- Ends a crew's run of a block after lanes returned or left: pops frames, and ends the crew that has no live lane
(R30). `c` is the crew after the change, and the trap, if any, is raised in the crew as it stood. -/
def State.endRun (s : State) (k : Nat) (c : Crew) : State :=
  if c.live = 0 then s.putCrew k { c with phase := .ended, frames := [], depth := 0, pend := [] }
  else
    match s.popFrames k c 4097 with
    | .error (cause, d0, d1) => s.trapCrew k (trapRec (s.crew k) cause d0 d1 0 false)
    | .ok c' => s.putCrew k { c' with phase := .select }

def execRet (_st : BitVec 4) (s : State) : Out :=
  let c := s.me
  match c.frames with
  | [] => .next (s.trap 0x03 4)
  | f :: fs =>
    .next (s.endRun s.cur { c.clearPend c.active with frames := { f with rmask := f.rmask ||| c.active } :: fs })

/-! ## The end of lanes (R144, R326, R381) -/

/-- Lanes leave the live mask, and every frame that holds them. -/
def Crew.exitLanes (c : Crew) (m : W32) : Crew :=
  { c.clearPend m with live := c.live &&& ~~~m, active := c.active &&& ~~~m }

/-- A lane that was out comes back to its origin crew, which goes on once every lane it sent has returned (R39, R326). -/
def State.laneBack (s : State) (t : LaneTag) (f : Crew → Crew) : State :=
  if !s.hasCrew t.crew then s else
  let o := f (s.crew t.crew)
  let o := { o with out := o.out &&& ~~~(1 <<< t.lane : W32) }
  if o.out ≠ 0 ∨ o.phase ≠ .lanesOut then s.putCrew t.crew o
  else if o.active = 0 then (s.putCrew t.crew { o with sb := [] }).endRun t.crew { o with sb := [] }
  else s.putCrew t.crew { o.wake s.clk with sb := [] }

/-- The origin lanes of handler lanes that exit leave their crews (R326). -/
def State.exitOrigins (s : State) (c : Crew) (m : W32) : State :=
  if c.kind = .handler then
    (lanesOf m).foldl (fun s l => match c.tags[l]? with
      | some t => s.laneBack t fun o => o.exitLanes (1 <<< t.lane)
      | none => s) s
  else s

/-- A crew ends as though every lane of it had executed `exit`. -/
def State.endAll (s : State) (k : Nat) : State :=
  (s.exitOrigins (s.crew k) (s.crew k).live).endRun k ((s.crew k).exitLanes (s.crew k).live)

/-- What lanes of a handler crew give up or give back takes place outside the crew: FIX_DEPTH clk after the word issues
(R287), so that no replay repeats it. -/
def State.ofHandler (s : State) (k : State → Out) : Out :=
  if s.me.kind ≠ .handler then k s
  else if s.me.released then k ((s.onMe fun c => { c with released := false }).commitMe)
  else .next (s.waitMe (.release .crew))

def execExit (h : Hd) (s : State) : Out := s.ofHandler fun s =>
  let c := s.me
  let g := c.gov h
  let c' := c.exitLanes g
  let s' := s.exitOrigins c g
  if c.kind = .test ∧ c'.live = 0 then .next (s.testEnd s.cur none)
  else if c'.active ≠ 0 then .next (s'.putMe c'.next)
  else .next (s'.endRun s.cur c')

def execYield (_st : BitVec 4) (s : State) : Out :=
  s.done fun c => { c with phase := .waiting (.yielded (s.clk + 2)), blockedSince := s.clk }
def execNop (_st : BitVec 4) (s : State) : Out := s.done id

/-! ## Per-lane branches and summaries (R146 to R148) -/

def execVbr (h : Hd) (d : BitVec 30) (s : State) : Out :=
  let c := s.me
  let g := c.gov h
  if g = 0 then s.done id
  else s.withTarget (c.disp d) fun s => s.done fun c => c.setPend g (c.disp d)

def execVbrx (h : Hd) (va : VReg) (s : State) : Out :=
  let c := s.me
  let g := lanesOf (c.gov h)
  let t := fun l => c.vpl va.toNat l
  let bad := g.filter fun l => (s.badTarget (t l)).isSome
  let badTr := bad.filter fun l => match s.badTarget (t l) with | some (5, _) => true | _ => false
  match badTr, bad with
  | l :: ls, _ => .next (s.trap 0x05 ((s.badTarget (t l)).getD (0, 0)).2 (t l) (maskL (l :: ls)))
  | [], l :: ls => .next (s.trap 0x03 ((s.badTarget (t l)).getD (0, 0)).2 (t l) (maskL (l :: ls)))
  | [], [] => s.done fun c => { c with pend := g.foldl (fun p l => Map.put p l (t l)) c.pend }

/-- P(n, l) of the active lanes. -/
def Crew.actP (c : Crew) (n : PReg) : W32 := c.active &&& c.pr n

def execPany (_st : BitVec 4) (sd : SReg) (n : PReg) (s : State) : Out :=
  s.done fun c => c.setS sd (if c.actP n ≠ 0 then 1 else 0)
def execPall (_st : BitVec 4) (sd : SReg) (n : PReg) (s : State) : Out :=
  s.done fun c => c.setS sd (if c.actP n = c.active then 1 else 0)
def execPcnt (_st : BitVec 4) (sd : SReg) (n : PReg) (s : State) : Out :=
  s.done fun c => c.setS sd (BitVec.ofNat 64 (popN 32 (c.actP n).toNat))
def execPffs (_st : BitVec 4) (sd : SReg) (n : PReg) (s : State) : Out :=
  s.done fun c => c.setS sd (BitVec.ofNat 64 ((firstN (fun l => (c.actP n).getLsbD l) 32 0).getD 32))

/-! ## Special registers and time (R99, R100, R149, R150) -/

/-- %datum (R99, R350). -/
def Datum.word (d : Datum) : Nat := d.locked.toNat + 2 * d.holdover.toNat + 4 * d.scale.toNat

/-- A special register's value in a lane, 32 for the control thread. %window reads the base that a `wrsr` has written, also
while the running block still uses the old one (log entry 70); %cancel, %clock and %datum read as the word issues (log
entry 64). -/
def State.srVal (s : State) (r : SpecReg) (l : Nat) : Nat :=
  let c := s.me
  let p := s.myParty
  match r with
  | .lane => l
  | .crew => c.num
  | .party => p.num
  | .px => p.px
  | .py => p.py
  | .pz => p.pz
  | .core => s.logCore c.ctx s.myCore
  | .clus => s.logClus c.ctx s.myCore
  | .die => s.logPair c.ctx (dieOfCore s.myCore)
  | .launch => s.local_ 4096 c.lctr
  | .cancel => c.cancel.toNat
  | .batch => c.batch.toNat
  | .flags => (if l = 32 then c.ctFlags else c.laneFl l).toNat
  | .tflags => c.tflags.toNat
  | .frontier => c.live.toNat * 2 ^ 32 + c.active.toNat
  | .spill => c.spill.toNat
  | .window => c.baseNext.toNat % 2 ^ 16 + (c.alloc / 8 - 1) * 2 ^ 16
  | .bkconf => c.bkconf.toNat
  | .clock => s.clk
  | .datum => s.datum.word

/-- Reads of time mark the party always-rerun (R150, R361). -/
def State.markTime (s : State) (r : SpecReg) : State :=
  match r with
  | .clock => s.always s.me.party 2
  | .datum => s.always s.me.party 2
  | _ => s

def execRdsrScalar (_st : BitVec 4) (sd : SReg) (r : SpecReg) (s : State) : Out :=
  let v := BitVec.ofNat 64 (s.srVal r 32)
  (s.markTime r).done fun c => c.setS sd v
def execRdsrVector (h : Hd) (vd : VReg) (r : SpecReg) (s : State) : Out :=
  (s.markTime r).plainLanes h r.wide vd fun l => s.srVal r l

/-- A write of a special register from a scalar (R149); the privileged ones check the mode (R102). -/
def execWrsrScalar (_st : BitVec 4) (r : SpecReg) (sb : SReg) (s : State) : Out :=
  let x := s.me.sv sb
  if r.privileged && !s.me.priv then .next (s.trap 0x02)
  else match r with
    | .flags => s.done fun c => { c with ctFlags := x.extractLsb' 0 5 }
    | .tflags => s.done fun c => { c with tflags := x.extractLsb' 0 6 }
    | .bkconf => s.done fun c => { c with bkconf := x.extractLsb' 0 32 }
    | .spill =>
      let s := if s.me.num = 0 ∧ s.me.kind ≠ .handler then s.onMyParty fun p => { p with spill0 := x &&& ~~~0x7F } else s
      s.done fun c => { c with spill := x &&& ~~~0x7F }
    | .window => s.done fun c => { c with baseNext := (x.extractLsb' 0 16).setWidth 17 }
    | _ => s.done id

/-- A write of %flags from a vector register. -/
def execWrsrVector (h : Hd) (va : VReg) (s : State) : Out :=
  s.done fun c => (lanesOf (c.gov h)).foldl (fun d l =>
    { d with laneFlags := Map.set 0 d.laneFlags l ((c.vl va.toNat l).extractLsb' 0 5) }) c

/-- The datum clock's time: within 16 ns of its count, and never before a time already returned (R150). -/
def State.datumTime (s : State) : Nat := max s.datum.last (s.datum.count - Config.datumSkew s.free % 17)

def execRdtime (_st : BitVec 4) (sd : SReg) (s : State) : Out :=
  let t := s.datumTime
  (({ s with datum := { s.datum with last := t } }.fresh).always s.me.party 2).done fun c => c.setS sd (BitVec.ofNat 64 t)

end Sys2Proof.Machine
end

