-- ==== Sys2Proof/Machine/Vector.lean ====
section
/-! DEFINITION. Vector integer instructions (R152 to R158). -/

namespace Sys2Proof.Machine

/-- How an element lies in its lane (R110): narrow signed types sign-extended, the others zero-extended. -/
def laneOut (ty : ITy) (x : Nat) : Nat :=
  if ty.bits < 32 ∧ ty.signed = true then wrapN (sInt x ty.bits) 32 else x % 2 ^ ty.bits

/-- The low bits of an element of any type as they lie in a lane (R110). -/
def laneBits (ty : Ty) (x : Nat) : Nat :=
  match ty with
  | .int t => laneOut t x
  | .flt t => x % 2 ^ t.bits
  | .blk _ => x

/-- The operation of R153 on two elements: an exact result, clamped with SAT, else reduced. -/
def vopVal (op : SOp) (ty : ITy) (sat : Bool) (x y : Nat) : Nat :=
  let va := ITy.val ty x
  let vb := ITy.val ty y
  match op with
  | .add => ITy.narrow ty sat (va + vb)
  | .sub => ITy.narrow ty sat (va - vb)
  | .mul => ITy.narrow ty sat (va * vb)
  | .div => ITy.narrow ty sat (quotI va vb)
  | _ => sopVal op ty x y

def src2 (c : Crew) (wide : Bool) (va vb : VReg) (l : Nat) : Nat × Nat × Nat := (c.vn wide va l, c.vn wide vb l, 0)

/-- A two-operand integer instruction. -/
def State.vint (s : State) (h : Hd) (op : SOp) (ty : ITy) (sat : Bool) (vd va vb : VReg) : Out :=
  let c := s.me
  s.plainLanes h ty.wide vd fun l => laneOut ty (vopVal op ty sat (c.vn ty.wide va l) (c.vn ty.wide vb l))

/-- The same with SExt(IMM20, 20) as second operand (R157). -/
def State.vintImm (s : State) (h : Hd) (op : SOp) (ty : ITy) (vd va : VReg) (v : BitVec 20) : Out :=
  let c := s.me
  s.plainLanes h ty.wide vd fun l => laneOut ty (vopVal op ty false (c.vn ty.wide va l) (v.signExtend 64).toNat)

/-- A one-operand integer instruction. -/
def State.vint1 (s : State) (h : Hd) (ty : ITy) (vd va : VReg) (f : Nat → Nat) : Out :=
  let c := s.me
  s.plainLanes h ty.wide vd fun l => laneOut ty (f (c.vn ty.wide va l % 2 ^ ty.bits))

def execVadd (h : Hd) (ty : ITy) (sat : Bool) (vd va vb : VReg) (s : State) : Out := s.vint h .add ty sat vd va vb
def execVaddImm (h : Hd) (ty : ITy) (vd va : VReg) (v : BitVec 20) (s : State) : Out := s.vintImm h .add ty vd va v
def execVsub (h : Hd) (ty : ITy) (sat : Bool) (vd va vb : VReg) (s : State) : Out := s.vint h .sub ty sat vd va vb
def execVmul (h : Hd) (ty : ITy) (sat : Bool) (vd va vb : VReg) (s : State) : Out := s.vint h .mul ty sat vd va vb
def execVmulh (h : Hd) (ty : ITy) (vd va vb : VReg) (s : State) : Out := s.vint h .mulh ty false vd va vb

def execVmad (h : Hd) (ty : ITy) (vd va vb vc : VReg) (s : State) : Out :=
  let c := s.me
  s.plainLanes h ty.wide vd fun l => laneOut ty (ITy.narrow ty false
    (ITy.val ty (c.vn ty.wide va l) * ITy.val ty (c.vn ty.wide vb l) + ITy.val ty (c.vn ty.wide vc l)))

/-- Division: a lane whose divisor is 0 raises the condition of %tflags bit 5 (R158). -/
def State.vdivide (s : State) (h : Hd) (op : SOp) (ty : ITy) (sat : Bool) (vd va vb : VReg) : Out :=
  let c := s.me
  s.laneInstr h ty.wide vd (src2 c ty.wide va vb) fun l =>
    { bits := laneOut ty (vopVal op ty sat (c.vn ty.wide va l) (c.vn ty.wide vb l))
      dz := c.vn ty.wide vb l % 2 ^ ty.bits == 0 }

def execVdiv (h : Hd) (ty : ITy) (sat : Bool) (vd va vb : VReg) (s : State) : Out := s.vdivide h .div ty sat vd va vb
def execVrem (h : Hd) (ty : ITy) (vd va vb : VReg) (s : State) : Out := s.vdivide h .rem ty false vd va vb

def execVand (h : Hd) (ty : ITy) (vd va vb : VReg) (s : State) : Out := s.vint h .and ty false vd va vb
def execVandImm (h : Hd) (ty : ITy) (vd va : VReg) (v : BitVec 20) (s : State) : Out := s.vintImm h .and ty vd va v
def execVor (h : Hd) (ty : ITy) (vd va vb : VReg) (s : State) : Out := s.vint h .or ty false vd va vb
def execVorImm (h : Hd) (ty : ITy) (vd va : VReg) (v : BitVec 20) (s : State) : Out := s.vintImm h .or ty vd va v
def execVxor (h : Hd) (ty : ITy) (vd va vb : VReg) (s : State) : Out := s.vint h .xor ty false vd va vb
def execVxorImm (h : Hd) (ty : ITy) (vd va : VReg) (v : BitVec 20) (s : State) : Out := s.vintImm h .xor ty vd va v
def execVandn (h : Hd) (ty : ITy) (vd va vb : VReg) (s : State) : Out := s.vint h .andn ty false vd va vb
def execVshl (h : Hd) (ty : ITy) (vd va vb : VReg) (s : State) : Out := s.vint h .shl ty false vd va vb
def execVshr (h : Hd) (ty : ITy) (vd va vb : VReg) (s : State) : Out := s.vint h .shr ty false vd va vb
def execVsra (h : Hd) (ty : ITy) (vd va vb : VReg) (s : State) : Out := s.vint h .sra ty false vd va vb

/-- Shifts by IMM20 mod w (R157). -/
def execVshlImm (h : Hd) (ty : ITy) (vd va : VReg) (v : BitVec 20) (s : State) : Out := s.vintImm h .shl ty vd va v
def execVshrImm (h : Hd) (ty : ITy) (vd va : VReg) (v : BitVec 20) (s : State) : Out := s.vintImm h .shr ty vd va v
def execVsraImm (h : Hd) (ty : ITy) (vd va : VReg) (v : BitVec 20) (s : State) : Out := s.vintImm h .sra ty vd va v

/-- a rotated left by c within w bits. -/
def rotN (w a n : Nat) : Nat := a * 2 ^ n % 2 ^ w + a / 2 ^ (w - n)

def execVrot (h : Hd) (ty : ITy) (vd va vb : VReg) (s : State) : Out :=
  let c := s.me
  s.plainLanes h ty.wide vd fun l =>
    laneOut ty (rotN ty.bits (c.vn ty.wide va l % 2 ^ ty.bits) (shCnt ty (c.vn ty.wide vb l)))

def execVmin (h : Hd) (ty : ITy) (vd va vb : VReg) (s : State) : Out := s.vint h .min ty false vd va vb
def execVmax (h : Hd) (ty : ITy) (vd va vb : VReg) (s : State) : Out := s.vint h .max ty false vd va vb

def execVabs (h : Hd) (ty : ITy) (sat : Bool) (vd va : VReg) (s : State) : Out :=
  s.vint1 h ty vd va fun a => ITy.narrow ty sat ((ITy.val ty a).natAbs : Int)
def execVclz (h : Hd) (ty : ITy) (vd va : VReg) (s : State) : Out := s.vint1 h ty vd va (clzN ty.bits)
def execVpopc (h : Hd) (ty : ITy) (vd va : VReg) (s : State) : Out := s.vint1 h ty vd va (popN ty.bits)
def execVbrev (h : Hd) (ty : ITy) (vd va : VReg) (s : State) : Out := s.vint1 h ty vd va (revN ty.bits)

/-- Position and cut length of a lane's bit field (R156). -/
def laneFieldPos (x : Nat) : Nat := x % 32
def laneFieldLen (x : Nat) : Nat := min (x / 256 % 64) (32 - x % 32)

def execVbfx (h : Hd) (sx : Bool) (vd va vb : VReg) (s : State) : Out :=
  let c := s.me
  s.plainLanes h false vd fun l =>
    let d := (c.vl vb.toNat l).toNat
    let f := (c.vl va.toNat l).toNat / 2 ^ laneFieldPos d
    let n := laneFieldLen d
    if n = 0 then 0 else if sx then wrapN (sInt f n) 32 else f % 2 ^ n

def execVbfi (h : Hd) (vd va vb vc : VReg) (s : State) : Out :=
  let c := s.me
  s.plainLanes h false vd fun l =>
    let d := (c.vl vc.toNat l).toNat
    insertField (c.vl vb.toNat l).toNat (c.vl va.toNat l).toNat (laneFieldPos d) (laneFieldLen d)

def execVsel (h : Hd) (ty : Ty) (pc : PReg) (vd va vb : VReg) (s : State) : Out :=
  let c := s.me
  s.plainLanes h ty.wide vd fun l => laneBits ty (if (c.pr pc).getLsbD l then c.vn ty.wide va l else c.vn ty.wide vb l)

def execVmov (h : Hd) (ty : Ty) (vd va : VReg) (s : State) : Out :=
  let c := s.me
  s.plainLanes h ty.wide vd fun l => laneBits ty (c.vn ty.wide va l)

/-- The value of `vli` (R157). -/
def vliVal (ty : Ty) (v : BitVec 20) : Nat :=
  match ty with
  | .int t => laneOut t (v.signExtend 64).toNat
  | .flt .f16 => v.toNat % 2 ^ 16
  | .flt .f32 => v.toNat * 2 ^ 12
  | .flt .f64 => v.toNat * 2 ^ 44
  | .blk _ => 0

def execVli (h : Hd) (ty : Ty) (vd : VReg) (v : BitVec 20) (s : State) : Out :=
  s.plainLanes h ty.wide vd fun _ => vliVal ty v

/-- A condition on w-bit elements under the condition's own signedness (R81, R154). -/
def condLane (cd : Cond) (w x y : Nat) : Bool :=
  let a := x % 2 ^ w
  let b := y % 2 ^ w
  let u := sInt a w
  let v := sInt b w
  match cd with
  | .eq => a == b
  | .ne => a != b
  | .lt => u < v
  | .le => u ≤ v
  | .gt => v < u
  | .ge => v ≤ u
  | .lo => a < b
  | .ls => a ≤ b
  | .hi => b < a
  | .hs => b ≤ a

def execVcmp (h : Hd) (cd : Cond) (ty : ITy) (pd : PReg) (va vb : VReg) (s : State) : Out :=
  s.done fun c => c.putP pd (c.gov h) (maskOf fun l => condLane cd ty.bits (c.vn ty.wide va l) (c.vn ty.wide vb l))

/-- The carry-less product of two 32-bit numbers. -/
def clmul (a : Nat) : Nat → Nat → Nat
  | 0, _ => 0
  | n + 1, b => (if b % 2 = 1 then a else 0) ^^^ clmul (2 * a) n (b / 2)

def execVclmul (h : Hd) (vd va vb : VReg) (s : State) : Out :=
  let c := s.me
  s.plainLanes h false vd fun l => clmul (c.vl va.toNat l).toNat 32 (c.vl vb.toNat l).toNat % 2 ^ 32
def execVclmulh (h : Hd) (vd va vb : VReg) (s : State) : Out :=
  let c := s.me
  s.plainLanes h false vd fun l => clmul (c.vl va.toNat l).toNat 32 (c.vl vb.toNat l).toNat / 2 ^ 32

/-- Add with carry (R153): the sum and the carry that leaves it. -/
def execVaddc (h : Hd) (wide : Bool) (pc : PReg) (vd va vb : VReg) (s : State) : Out :=
  s.done fun c =>
    let w := if wide then 64 else 32
    let sum := fun l => c.vn wide va l + c.vn wide vb l + ((c.pr pc).getLsbD l).toNat
    (c.putN wide vd (c.gov h) fun l => sum l % 2 ^ w).putP pc (c.gov h) (maskOf fun l => 2 ^ w ≤ sum l)

end Sys2Proof.Machine
end

