-- ==== Sys2Proof/Machine/Floats.lean ====
section
/-! DEFINITION. Vector floating-point, conversion and block-format instructions (R159 to R165). -/

namespace Sys2Proof.Machine

/-- Whether a binary type's elements take a register pair. -/
def FTy.pair (t : FTy) : Bool := t == .f64

/-- A lane's operand of a binary type. -/
def Crew.vf (c : Crew) (t : FTy) (n : VReg) (l : Nat) : Nat := c.vn (FTy.pair t) n l % 2 ^ t.fmt.width

/-- A two-operand floating-point instruction (R159). -/
def State.vflt2 (s : State) (h : Hd) (ty : FTy) (vd va vb : VReg) (f : Nat → Nat → FRes) : Out :=
  let c := s.me
  s.laneInstr h (FTy.pair ty) vd (fun l => (c.vf ty va l, c.vf ty vb l, 0)) fun l =>
    .of (f (c.vf ty va l) (c.vf ty vb l))
/-- A one-operand floating-point instruction. -/
def State.vflt1 (s : State) (h : Hd) (ty : FTy) (vd va : VReg) (f : Nat → FRes) : Out :=
  let c := s.me
  s.laneInstr h (FTy.pair ty) vd (fun l => (c.vf ty va l, 0, 0)) fun l => .of (f (c.vf ty va l))
/-- a × b + c, rounded once. -/
def State.vflt3 (s : State) (h : Hd) (r : Rnd) (ty : FTy) (vd va vb vc : VReg) : Out :=
  let c := s.me
  s.laneInstr h (FTy.pair ty) vd (fun l => (c.vf ty va l, c.vf ty vb l, c.vf ty vc l)) fun l =>
    .of (ty.fmt.fma r (c.vf ty va l) (c.vf ty vb l) (c.vf ty vc l))

def execVfadd (h : Hd) (r : Rnd) (ty : FTy) (vd va vb : VReg) (s : State) : Out := s.vflt2 h ty vd va vb (ty.fmt.add r)
def execVfsub (h : Hd) (r : Rnd) (ty : FTy) (vd va vb : VReg) (s : State) : Out := s.vflt2 h ty vd va vb (ty.fmt.sub r)
def execVfmul (h : Hd) (r : Rnd) (ty : FTy) (vd va vb : VReg) (s : State) : Out := s.vflt2 h ty vd va vb (ty.fmt.mul r)
def execVfmaF16 (h : Hd) (r : Rnd) (vd va vb vc : VReg) (s : State) : Out := s.vflt3 h r .f16 vd va vb vc
def execVfmaF32 (h : Hd) (r : Rnd) (vd va vb vc : VReg) (s : State) : Out := s.vflt3 h r .f32 vd va vb vc
def execVfmaF64 (h : Hd) (r : Rnd) (vd va vb vc : VReg) (s : State) : Out := s.vflt3 h r .f64 vd va vb vc
def execVfdiv (h : Hd) (r : Rnd) (ty : FTy) (vd va vb : VReg) (s : State) : Out := s.vflt2 h ty vd va vb (ty.fmt.div r)
def execVfsqrt (h : Hd) (r : Rnd) (ty : FTy) (vd va : VReg) (s : State) : Out := s.vflt1 h ty vd va (ty.fmt.sqrt r)
def execVfrcp (h : Hd) (ty : FTy) (vd va : VReg) (s : State) : Out := s.vflt1 h ty vd va (approx .rcp ty.fmt)
def execVfrsq (h : Hd) (ty : FTy) (vd va : VReg) (s : State) : Out := s.vflt1 h ty vd va (approx .rsq ty.fmt)
def execVfexp2 (h : Hd) (ty : FTy) (vd va : VReg) (s : State) : Out := s.vflt1 h ty vd va (approx .exp2 ty.fmt)
def execVflog2 (h : Hd) (ty : FTy) (vd va : VReg) (s : State) : Out := s.vflt1 h ty vd va (approx .log2 ty.fmt)
def execVfsin (h : Hd) (ty : FTy) (vd va : VReg) (s : State) : Out := s.vflt1 h ty vd va (approx .sin ty.fmt)
def execVfcos (h : Hd) (ty : FTy) (vd va : VReg) (s : State) : Out := s.vflt1 h ty vd va (approx .cos ty.fmt)
def execVfmin (h : Hd) (ty : FTy) (vd va vb : VReg) (s : State) : Out := s.vflt2 h ty vd va vb (ty.fmt.minmax false)
def execVfmax (h : Hd) (ty : FTy) (vd va vb : VReg) (s : State) : Out := s.vflt2 h ty vd va vb (ty.fmt.minmax true)

/-- A comparison raises NV for a signalling NaN only (R114); a trapped lane's predicate is not written. -/
def execVfcmp (h : Hd) (cd : Cond) (ty : FTy) (pd : PReg) (va vb : VReg) (s : State) : Out :=
  let c := s.me
  let a := fun l => ty.fmt.decode (c.vf ty va l)
  let b := fun l => ty.fmt.decode (c.vf ty vb l)
  s.finishLanes (c.gov h) (fun l => { fl := if (a l).isSig || (b l).isSig then flNV else 0 })
    { pdest := some pd, src := fun l => (c.vf ty va l, c.vf ty vb l, 0) }
    fun ok d => d.putP pd ok (maskOf fun l => FVal.holds cd (a l) (b l))

def execVfcls (h : Hd) (ty : FTy) (vd va : VReg) (s : State) : Out :=
  let c := s.me
  s.plainLanes h false vd fun l => 2 ^ ty.fmt.cls (c.vf ty va l)

def execVfrnd (h : Hd) (r : Rnd) (ty : FTy) (vd va : VReg) (s : State) : Out := s.vflt1 h ty vd va (ty.fmt.rnd r)

/-- The dot product of R162: c + a.lower × b.lower + a.upper × b.upper, rounded once to binary32; a cancelled zero is +0 under
every code (R123, R125). -/
def dotLane (r : Rnd) (c a b : Nat) : FRes :=
  fmt32.dot r .rn (fmt32.decode c)
    [(fmt16.decode (a % 2 ^ 16), fmt16.decode (b % 2 ^ 16)), (fmt16.decode (a / 2 ^ 16), fmt16.decode (b / 2 ^ 16))]

def execVfdot (h : Hd) (r : Rnd) (vd va vb : VReg) (s : State) : Out :=
  let c := s.me
  s.laneInstr h false vd (fun l => (c.vn false va l, c.vn false vb l, c.vn false vd l)) fun l =>
    .of (dotLane r (c.vn false vd l) (c.vn false va l) (c.vn false vb l))

/-- A converted element as it lies in its lane (R110). -/
def cvtLane (r : Rnd) (sat : Bool) (dst src : Ty) (a : Nat) : FRes :=
  let x := cvt r sat dst src a
  match dst with
  | .int t => { x with bits := laneOut t x.bits }
  | _ => x

def execVcvt (h : Hd) (r : Rnd) (sat : Bool) (dst src : Ty) (vd va : VReg) (s : State) : Out :=
  let c := s.me
  s.laneInstr h dst.wide vd (fun l => (c.vn src.wide va l, 0, 0)) fun l => .of (cvtLane r sat dst src (c.vn src.wide va l))

/-! ## Block formats (R164, R165) -/

/-- The flags of a block's pack and its bytes, as numbers. -/
def packBlock (fmt : PTy) (c : Crew) (g : W32) (va : VReg) (b : Nat) : Nat × Fl :=
  fmt.pack ((List.range 16).map fun i => if g.getLsbD (16 * b + i) then c.vn false va (16 * b + i) else 0)

/-- The words of VD that hold a byte of block b. -/
def blockWords (fmt : PTy) (b d : Nat) : Bool := fmt.size * b < 4 * d + 4 && 4 * d < fmt.size * (b + 1)

def execVpack (h : Hd) (fmt : PTy) (vd va : VReg) (s : State) : Out :=
  let c := s.me
  let g := c.gov h
  let p0 := packBlock fmt c g va 0
  let p1 := packBlock fmt c g va 1
  let all := p0.1 + p1.1 * 2 ^ (8 * fmt.size)
  let flOf := fun l => if l < 16 then p0.2 else p1.2
  let trapped := fun (b : Nat) => c.enabled { fl := flOf (16 * b) } != 0 && ((List.range 16).any fun i => g.getLsbD (16 * b + i))
  let n := fmt.size / 2
  let wr := maskOf fun d => d < n && c.active.getLsbD d &&
    !(trapped 0 && blockWords fmt 0 d) && !(trapped 1 && blockWords fmt 1 d)
  s.finishLanes g (fun l => { fl := flOf l }) { dest := some (vd.toNat, false), src := fun l => (c.vn false va l, 0, 0) }
    fun _ d => d.putV vd.toNat wr fun i => BitVec.ofNat 32 (all / 2 ^ (32 * i))

def execVunpk (h : Hd) (fmt : PTy) (vd va : VReg) (s : State) : Out :=
  let c := s.me
  let all := (List.range (fmt.size / 2)).foldl (fun x d => x + (c.vl va.toNat d).toNat * 2 ^ (32 * d)) 0
  s.plainLanes h false vd fun l => fmt.unpack (all / 2 ^ (8 * fmt.size * (l / 16)) % 2 ^ (8 * fmt.size)) (l % 16)

end Sys2Proof.Machine
end

