-- ==== Sys2Proof/Machine/Lanes.lean ====
section
/-! DEFINITION. Cross-lane, predicate and view-mask instructions (R166 to R174). -/

namespace Sys2Proof.Machine

/-- A source lane's value before the instruction; a lane that is not live reads as 0 (R166). -/
def Crew.srcLane (c : Crew) (wide : Bool) (n : VReg) (l : Nat) : Nat :=
  if c.live.getLsbD l then c.vn wide n l else 0

def shflSrc (m : Shfl) (l x : Nat) : Nat :=
  match m with
  | .idx => x
  | .xor => l ^^^ x
  | .up => if l < x then l else l - x
  | .dn => if 31 < l + x then l else l + x

def execVshfl (h : Hd) (m : Shfl) (vd va vb : VReg) (s : State) : Out :=
  let c := s.me
  s.plainLanes h false vd fun l => c.srcLane false va (shflSrc m l ((c.vl vb.toNat l).toNat % 32))

def execVbcast (h : Hd) (vd va : VReg) (lane : BitVec 5) (s : State) : Out :=
  let c := s.me
  s.plainLanes h false vd fun _ => c.srcLane false va lane.toNat

/-- minimumNumber or maximumNumber over values (R160, R169): a signalling NaN among them raises NV, and a result that is
a NaN is the default NaN (R112). -/
def fltMinMax (f : Fmt) (mx : Bool) (xs : List Nat) : FRes :=
  let fl := if xs.any fun x => (f.decode x).isSig then flNV else 0
  match xs with
  | [] => ⟨0, 0⟩
  | x :: xs =>
    let r := xs.foldl (fun r y => (f.minmax mx r y).bits) x
    ⟨if (f.decode r).isNan then f.nanBits else r, fl⟩

/-- The reduction of a list of elements (R169). -/
def redVals (op : Rop) (ty : Ty) (sat : Bool) (xs : List Nat) : FRes :=
  match ty with
  | .int t =>
    let vs := xs.map (ITy.val t)
    let fold := fun (f : Int → Int → Int) => match vs with
      | [] => (0 : Int)
      | v :: vs => vs.foldl f v
    let bits := match op with
      | .add => ITy.narrow t sat (fold (· + ·))
      | .min => wrapN (fold min) t.bits
      | .max => wrapN (fold max) t.bits
      | .and => xs.foldl (· &&& ·) (2 ^ 64 - 1) % 2 ^ t.bits
      | .or => xs.foldl (· ||| ·) 0 % 2 ^ t.bits
      | .xor => xs.foldl (· ^^^ ·) 0 % 2 ^ t.bits
    ⟨laneOut t bits, 0⟩
  | .flt t =>
    let ys := xs.map (· % 2 ^ t.fmt.width)
    match op with
    | .min => fltMinMax t.fmt false ys
    | .max => fltMinMax t.fmt true ys
    | _ => t.fmt.sum .rn (ys.map t.fmt.decode)
  | .blk _ => ⟨0, 0⟩

def execVred (h : Hd) (op : Rop) (ty : Ty) (sat : Bool) (vd va : VReg) (s : State) : Out :=
  let c := s.me
  let r := redVals op ty sat ((lanesOf (c.gov h)).map (c.srcLane ty.wide va))
  s.laneInstr h ty.wide vd (fun l => (c.srcLane ty.wide va l, 0, 0)) fun _ => .of r

def execVscan (h : Hd) (op : Rop) (ty : Ty) (sat : Bool) (vd va : VReg) (s : State) : Out :=
  let c := s.me
  s.laneInstr h ty.wide vd (fun l => (c.srcLane ty.wide va l, 0, 0)) fun l =>
    .of (redVals op ty sat (((lanesOf (c.gov h)).filter (· ≤ l)).map (c.srcLane ty.wide va)))

def execVext (_st : BitVec 4) (wide : Bool) (sd : SReg) (va : VReg) (sb : SReg) (s : State) : Out :=
  s.done fun c => c.setS sd (BitVec.ofNat 64 (c.srcLane wide va ((c.sv sb).toNat % 32)))

def execVins (_st : BitVec 4) (wide : Bool) (vd : VReg) (sa sb : SReg) (s : State) : Out :=
  s.done fun c =>
    let j := (c.sv sb).toNat % 32
    if c.active.getLsbD j then c.putN wide vd (1 <<< j) fun _ => (c.sv sa).toNat else c

/-- The governed lanes' values compacted into the low active lanes (R171). -/
def execVcompr (h : Hd) (vd va : VReg) (s : State) : Out :=
  s.done fun c =>
    let g := lanesOf (c.gov h)
    c.putV vd.toNat c.active fun j => match g[j]? with
      | some l => c.vl va.toNat l
      | none => 0

/-! ## Predicates (R172, R173) -/

def State.predOp (s : State) (h : Hd) (pd : PReg) (x : Crew → W32) : Out := s.done fun c => c.putP pd (c.gov h) (x c)

def execPand (h : Hd) (pd pa pb : PReg) (s : State) : Out := s.predOp h pd fun c => c.pr pa &&& c.pr pb
def execPor (h : Hd) (pd pa pb : PReg) (s : State) : Out := s.predOp h pd fun c => c.pr pa ||| c.pr pb
def execPxor (h : Hd) (pd pa pb : PReg) (s : State) : Out := s.predOp h pd fun c => c.pr pa ^^^ c.pr pb
def execPnot (h : Hd) (pd pa : PReg) (s : State) : Out := s.predOp h pd fun c => ~~~(c.pr pa)
def execPmov (h : Hd) (pd pa : PReg) (s : State) : Out := s.predOp h pd fun c => c.pr pa
def execPset (h : Hd) (pd : PReg) (sb : SReg) (s : State) : Out := s.predOp h pd fun c => (c.sv sb).extractLsb' 0 32
def execPget (_st : BitVec 4) (sd : SReg) (n : PReg) (s : State) : Out :=
  s.done fun c => c.setS sd ((c.actP n).zeroExtend 64)

/-! ## View masks (R174) -/

def execKcnt (_st : BitVec 4) (sd : SReg) (k : BitVec 2) (s : State) : Out :=
  s.done fun c => c.setS sd (BitVec.ofNat 64 (popN 1024 (c.kv k.toNat).toNat))
def execKffs (_st : BitVec 4) (sd : SReg) (k : BitVec 2) (s : State) : Out :=
  s.done fun c => c.setS sd (BitVec.ofNat 64 ((firstN (fun i => (c.kv k.toNat).getLsbD i) 1024 0).getD 1024))
def execKbit (_st : BitVec 4) (sd : SReg) (k : BitVec 2) (sa : SReg) (s : State) : Out :=
  s.done fun c => c.setS sd (if (c.kv k.toNat).getLsbD ((c.sv sa).toNat % 1024) then 1 else 0)

/-- Word l of a view mask. -/
def kWord (x : BitVec 1024) (l : Nat) : W32 := x.extractLsb' (32 * l) 32

def execKmvToVector (_st : BitVec 4) (vd : VReg) (k : BitVec 2) (s : State) : Out :=
  s.done fun c => c.putV vd.toNat c.active fun l => kWord (c.kv k.toNat) l
def execKmvToMask (_st : BitVec 4) (k : BitVec 2) (va : VReg) (s : State) : Out :=
  s.done fun c =>
    let w := fun l => if c.active.getLsbD l then (c.vl va.toNat l).toNat else (kWord (c.kv k.toNat) l).toNat
    c.setK k.toNat (BitVec.ofNat 1024 (lanes.foldl (fun x l => x + w l * 2 ^ (32 * l)) 0))

end Sys2Proof.Machine
end

