-- ==== Sys2Proof/Machine/Operands.lean ====
section
/-! DEFINITION. Operand forms: lane addresses (R175, R187), plates by handle and offset (R50, R183, R184), bank
conflicts (R51, R185), and operand descriptors and regions of matrix instructions (R53, R206). -/

namespace Sys2Proof.Machine

/-- The index term SExt(V(VIDX, l), 32) × W, 0 without an index. -/
def Crew.idx (c : Crew) (idx : Option VReg) (w l : Nat) : Int :=
  match idx with
  | none => 0
  | some v => sInt (c.vl v.toNat l).toNat 32 * (w : Nat)

/-- A(l) of `vld`, `vst` and `vprf` (R175), and of the atomics with OFS11 = 0 (R187). -/
def Crew.laneAddr (c : Crew) (sb : SReg) (idx : Option VReg) (ofs : BitVec 11) (w l : Nat) : W64 :=
  c.ea sb ofs w + BitVec.ofInt 64 (c.idx idx w l)
/-- A(l) of `vgth` and `vsct`. -/
def Crew.laneAddrG (c : Crew) (sb : SReg) (idx : VReg) (ofs : BitVec 11) (w l : Nat) : W64 :=
  c.ea sb ofs w + c.vpl idx.toNat l

/-- The requests of the lanes of a mask. -/
def laneReqs (g : W32) (a : Nat → W64) : List (Nat × W64) := (lanesOf g).map fun l => (l, a l)

/-- The plate offset o(l) (R183), exact, S(SBASE) read as an unsigned number. -/
def Crew.plateOff (c : Crew) (base : Int) (idx : Option VReg) (ofs : BitVec 11) (w l : Nat) : Int :=
  base + c.idx idx w l + ofs.toInt * (w : Nat)

/-! ## Plates -/

/-- The plate that a handle is bound to. -/
def State.plate? (s : State) (t : TReg) : Option Plate :=
  match Map.find? s.me.t t.toNat with
  | none => none
  | some n => s.myParty.plates.find? fun p => p.num == n

def Plate.size (p : Plate) : Nat := 1024 * p.grans
/-- The physical core whose plate store holds a plate. -/
def State.plateCore (s : State) (p : Plate) : Nat := 4 * s.myParty.cluster + p.core

/-- Detail of cause 0x0B: kind, plate number (R200, R323). -/
def plateDetail (kind num : Nat) : W64 := BitVec.ofNat 64 (kind + 256 * num)

/-- Changes a plate of the crew's party. -/
def Party.onPlate (p : Party) (num : Nat) (f : Plate → Plate) : Party :=
  { p with plates := p.plates.map fun x => if x.num = num then f x else x }
def State.onPlate (s : State) (num : Nat) (f : Plate → Plate) : State := s.onMyParty fun p => p.onPlate num f

/-- The intervals that a plate's record keeps for a crew join those that its releases wait for. -/
def Crew.takeIvals (c : Crew) (k : Nat) (p : Plate) : Crew :=
  { c with ivals := c.ivals ++ ((p.ivals.filter fun x => x.1 == k).map (·.2)).filter fun r => !c.ivals.contains r }

/-- A record read with OWNER = CREW is an acquire at .clus of the engine writes that set it back (R64, R391), and of the intervals
that those writes closed, where the command was the crew's own (R257). -/
def State.acquirePlate (s : State) (p : Plate) : State :=
  match p.stamp with
  | some st => (s.acquire s.cur .clus st []).onMe fun c => c.takeIvals s.cur p
  | none => s

/-- The crew's own held writes to a plate store byte (R52). -/
def Crew.heldPlate (c : Crew) (core off : Nat) : Option Byte :=
  lastCell (c.held.flatMap fun h => h.eff.plateCells core) off

/-- Whether a `patom` of the crew on these bytes has not left the core yet: the crew's later loads see its result (R192). -/
def Crew.patomHeld (c : Crew) (core : Nat) (offs : List Nat) : Bool :=
  c.held.any fun h => match h.eff with
    | .plateAtom n _ g => n == core && g.reqs.any fun r => offs.any fun a => r.loc ≤ a && a < r.loc + 8
    | _ => false

def State.plateByte (s : State) (c : Crew) (core off : Nat) : Byte :=
  match c.heldPlate core off with
  | some b => b
  | none => memGet (s.core core).plate off

/-- A poisoned plate sector that none of the crew's own held writes covers whole (R58, R184). -/
def State.platePoisoned (s : State) (c : Crew) (core off : Nat) : Bool :=
  (s.core core).platePoison.contains (off / 32) &&
    !c.held.any fun h => (wholeSectors (h.eff.plateCells core)).contains (off / 32)

/-- Bank cycles beyond the first of an access that touches these plate words (R51, R185). -/
def bankExtra (ws : List Nat) : Nat :=
  let ds := ws.eraseDups
  (List.range 32).foldl (fun m b => max m (ds.filter (· % 32 == b)).length) 0 - 1

/-- The checks of a plate access (R184): the plate and the absolute offsets of the lanes, or the trap. -/
inductive PlateChk where
  | bad (cause : Nat) (d0 d1 : W64) (ls : W32)
  | ok (p : Plate) (core : Nat) (offs : List (Nat × Nat))
  deriving DecidableEq, Repr

def offWord (o : Int) : W64 := BitVec.ofInt 64 o

def State.checkPlate (s : State) (t : TReg) (w : Nat) (load : Bool) (offs : List (Nat × Int)) : PlateChk :=
  match s.plate? t with
  | none => .bad 0x0B (plateDetail 1 0) 0 (maskL (offs.map (·.1)))
  | some p =>
    let core := s.plateCore p
    if p.owner then .bad 0x0B (plateDetail 2 p.num) 0 (maskL (offs.map (·.1)))
    else
      match offs.filter fun o => o.2 % ((w : Nat) : Int) != 0 with
      | o :: os => .bad 0x04 0 (offWord o.2) (maskL ((o :: os).map (·.1)))
      | [] =>
        match offs.filter fun o => decide (o.2 < 0 ∨ ((p.size : Nat) : Int) < o.2 + ((w : Nat) : Int)) with
        | o :: os => .bad 0x0B (plateDetail 3 p.num) (offWord o.2) (maskL ((o :: os).map (·.1)))
        | [] =>
          let abs := offs.map fun o => (o.1, 1024 * p.base + o.2.toNat)
          match abs.filter fun o => load && s.platePoisoned s.me core o.2 with
          | o :: os =>
            .bad 0x06 (BitVec.ofNat 64 (16 + 256 * p.num)) (BitVec.ofNat 64 ((o.2 - 1024 * p.base) / 32 * 32))
              (maskL ((o :: os).map (·.1)))
          | [] => .ok p core abs

/-- The conflicts that an access adds to %bkconf (R185). -/
def Crew.addConf (c : Crew) (w : Nat) (offs : List (Nat × Nat)) : Crew :=
  let n := bankExtra (offs.flatMap fun o => if w = 8 then [o.2 / 4, o.2 / 4 + 1] else [o.2 / 4])
  { c with bkconf := c.bkconf + BitVec.ofNat 32 n }

/-! ## Matrix operands -/

/-- OFFS and PITCH of an operand descriptor, with PITCH 0 as packed (R206). -/
def descOffs (d : W64) : Nat := (bf d 0 18).toNat
def descPitch (d : W64) (packed : Nat) : Nat := if bf d 20 18 = 0 then packed else (bf d 20 18).toNat

/-- A region record's place relative to the core's accumulator store (R53). -/
def regionOf (x : W32) : Region :=
  { row0 := (bf x 24 8).toNat, rows := (bf x 16 8).toNat + 1, col0 := 16 * (bf x 12 4).toNat, cols := 16 * ((bf x 8 4).toNat + 1) }

/-- The party's band on a core: first row and number of rows. -/
def Party.band (p : Party) (core : Nat) : Nat × Nat :=
  match p.bands.find? fun b => b.1 == core with
  | some b => b.2
  | none => (0, 0)

/-- Whether a region lies inside the band of the crew's own core. -/
def State.inBand (s : State) (r : Region) : Bool :=
  let b := s.myParty.band s.myCore
  b.1 ≤ r.row0 && r.row0 + r.rows ≤ b.1 + b.2 && r.col0 + r.cols ≤ 256

end Sys2Proof.Machine
end

