-- ==== Sys2Proof/Machine/Memory.lean ====
section
/-! DEFINITION. Vector loads, stores, gathers, scatters and prefetches (R175 to R182), and the plate forms (R183 to
R185). -/

namespace Sys2Proof.Machine

/-- Writes loaded values, by lane, to a register or a pair (R180). -/
def Crew.putLoaded (c : Crew) (w : Nat) (vd : VReg) (vals : List (Nat × Nat)) : Crew :=
  c.putN (w == 8) vd (maskL (vals.map (·.1))) fun l => (Map.find? vals l).getD 0

def execVld (h : Hd) (w : Width) (ord : Option Scope) (vd : VReg) (sb : SReg) (idx : Option VReg) (ofs : BitVec 11)
    (s : State) : Out :=
  s.loadInstr w.bytes ord (laneReqs (s.me.gov h) (s.me.laneAddr sb idx ofs w.bytes)) fun vals c =>
    c.putLoaded w.bytes vd vals

def execVst (h : Hd) (w : Width) (ord : Option Scope) (va : VReg) (sb : SReg) (idx : Option VReg) (ofs : BitVec 11)
    (s : State) : Out :=
  s.storeInstr w.bytes ord (laneReqs (s.me.gov h) (s.me.laneAddr sb idx ofs w.bytes)) fun l =>
    s.me.vn (w.bytes == 8) va l

def execVgth (h : Hd) (w : Width) (ord : Option Scope) (vd : VReg) (sb : SReg) (idx : VReg) (ofs : BitVec 11)
    (s : State) : Out :=
  s.loadInstr w.bytes ord (laneReqs (s.me.gov h) (s.me.laneAddrG sb idx ofs w.bytes)) fun vals c =>
    c.putLoaded w.bytes vd vals

def execVsct (h : Hd) (w : Width) (ord : Option Scope) (va : VReg) (sb : SReg) (idx : VReg) (ofs : BitVec 11)
    (s : State) : Out :=
  s.storeInstr w.bytes ord (laneReqs (s.me.gov h) (s.me.laneAddrG sb idx ofs w.bytes)) fun l =>
    s.me.vn (w.bytes == 8) va l

def execVprf (h : Hd) (w : Width) (sb : SReg) (idx : Option VReg) (ofs : BitVec 11) (s : State) : Out :=
  s.prefetch ((lanesOf (s.me.gov h)).map (s.me.laneAddr sb idx ofs w.bytes))

/-! ## Plate loads and stores (R183, R184) -/

/-- A plate load of acting lanes: the checks, then the crew's update with the values. -/
def State.plateLoad (s : State) (t : TReg) (w : Nat) (offs : List (Nat × Int)) (upd : List (Nat × Nat) → Crew → Crew) : Out :=
  if offs.isEmpty then s.done id
  else
    match s.checkPlate t w true offs with
    | .bad cause d0 d1 ls => .next (s.trap cause d0 d1 ls)
    | .ok p core as =>
      let c := s.me
      if c.patomHeld core (as.flatMap fun a => upFrom a.2 w) then .next ((s.waitMe .load).push (.loadReturn s.cur)) else
      let vals := as.map fun a => (a.1, ofBytes ((upFrom a.2 w).map (s.plateByte c core)))
      (s.acquirePlate p).done fun c => upd vals { c.addConf w as with readSeen := joinStamps c.readSeen p.clocks }

def execVldp (h : Hd) (w : Width) (vd : VReg) (t : TReg) (sb : SReg) (idx : Option VReg) (ofs : BitVec 11) (s : State) : Out :=
  let c := s.me
  s.plateLoad t w.bytes ((lanesOf (c.gov h)).map fun l => (l, c.plateOff (c.sv sb).toNat idx ofs w.bytes l)) fun vals c =>
    c.putLoaded w.bytes vd vals

def execSldp (_st : BitVec 4) (w : Width) (sd : SReg) (t : TReg) (sb : SReg) (ofs : BitVec 11) (s : State) : Out :=
  let c := s.me
  s.plateLoad t w.bytes [(32, c.plateOff (c.sv sb).toNat none ofs w.bytes 32)] fun vals c =>
    match vals with
    | (_, x) :: _ => c.setS sd (BitVec.ofNat 64 x)
    | [] => c

def execVstp (h : Hd) (w : Width) (va : VReg) (t : TReg) (sb : SReg) (idx : Option VReg) (ofs : BitVec 11) (s : State) : Out :=
  let c := s.me
  let offs := (lanesOf (c.gov h)).map fun l => (l, c.plateOff (c.sv sb).toNat idx ofs w.bytes l)
  if offs.isEmpty then s.done id
  else
    match s.checkPlate t w.bytes false offs with
    | .bad cause d0 d1 ls => .next (s.trap cause d0 d1 ls)
    | .ok p core as =>
      let cells := as.flatMap fun a => cellsOf a.2 (bytesOf w.bytes (c.vn (w.bytes == 8) va a.1))
      ((s.acquirePlate p).hold (.plate core p.num (maskL (as.map (·.1))) cells)).done fun c => c.addConf w.bytes as

end Sys2Proof.Machine
end

