-- ==== Sys2Proof/Machine/Service.lean ====
section
/-! DEFINITION. Service crews: the operations of R188, the service programs of R254, and the requests they execute
(R38, R190, R191). -/

namespace Sys2Proof.Machine

/-- The width of a type in bits. -/
def tyBits : Ty → Nat
  | .int t => t.bits
  | .flt t => t.bits
  | .blk _ => 0

/-- The reduction of R188 of an old value and an operand. -/
def redVal (op : Rop) (ty : Ty) (sat : Bool) (old x : Nat) : Nat :=
  match ty with
  | .int t =>
    let a := old % 2 ^ t.bits
    let b := x % 2 ^ t.bits
    match op with
    | .add => t.narrow sat (t.val a + t.val b)
    | .min => if t.val a ≤ t.val b then a else b
    | .max => if t.val a ≤ t.val b then b else a
    | .and => a &&& b
    | .or => a ||| b
    | .xor => a ^^^ b
  | .flt t =>
    match op with
    | .add => (t.fmt.add .rn old x).bits
    | .min => (t.fmt.minmax false old x).bits
    | _ => (t.fmt.minmax true old x).bits
  | .blk _ => old

/-- The value that an atomic writes, none for a compare-and-swap that fails (R188). -/
def atomVal (op : Aop) (ty : Ty) (sat : Bool) (old x c : Nat) : Option Nat :=
  match op with
  | .red r => some (redVal r ty sat old x)
  | .xchg => some (x % 2 ^ tyBits ty)
  | .cas => if old = c % 2 ^ tyBits ty then some (x % 2 ^ tyBits ty) else none

/-! ## Service programs (R254) -/

/-- The scalar and control instructions of R92 that act on registers alone. -/
def svcScalar (i : Instr) (s : State) : Option Out :=
  match i with
  | .sadd st ty sd sa b => some (execSadd st ty sd sa b s)
  | .ssub st ty sd sa b => some (execSsub st ty sd sa b s)
  | .smul st ty sd sa b => some (execSmul st ty sd sa b s)
  | .smulh st ty sd sa b => some (execSmulh st ty sd sa b s)
  | .sdiv st ty sd sa b => some (execSdiv st ty sd sa b s)
  | .srem st ty sd sa b => some (execSrem st ty sd sa b s)
  | .sand st ty sd sa b => some (execSand st ty sd sa b s)
  | .sor st ty sd sa b => some (execSor st ty sd sa b s)
  | .sxor st ty sd sa b => some (execSxor st ty sd sa b s)
  | .sandn st ty sd sa b => some (execSandn st ty sd sa b s)
  | .sshl st ty sd sa b => some (execSshl st ty sd sa b s)
  | .sshr st ty sd sa b => some (execSshr st ty sd sa b s)
  | .ssra st ty sd sa b => some (execSsra st ty sd sa b s)
  | .smin st ty sd sa b => some (execSmin st ty sd sa b s)
  | .smax st ty sd sa b => some (execSmax st ty sd sa b s)
  | .scmp st c sd sa b => some (execScmp st c sd sa b s)
  | .ssel st sd sc sa sb => some (execSsel st sd sc sa sb s)
  | .sli st zx sd v => some (execSli st zx sd v s)
  | .slih st sd sa v => some (execSlih st sd sa v s)
  | .smov st sd sa => some (execSmov st sd sa s)
  | .sclz st ty sd sa => some (execSclz st ty sd sa s)
  | .spopc st ty sd sa => some (execSpopc st ty sd sa s)
  | .sbfx st sx sd sa sb => some (execSbfx st sx sd sa sb s)
  | .sbfi st sd sa sb => some (execSbfi st sd sa sb s)
  | .sext st ty sd sa => some (execSext st ty sd sa s)
  | .nop st => some (execNop st s)
  | .yield st => some (execNop st s)
  | .sprf .. => some (s.done id)
  | .vbr .. => some (s.done id)
  | .vbrx .. => some (s.done id)
  | .pany st sd p => some (execPany st sd p s)
  | .pall st sd p => some (execPall st sd p s)
  | .pcnt st sd p => some (execPcnt st sd p s)
  | .pffs st sd p => some (execPffs st sd p s)
  | .rdsrScalar st sd r => some (execRdsrScalar st sd r s)
  | .rdsrVector .. => some (s.done id)
  | .wrsrScalar st r sb => some (execWrsrScalar st r sb s)
  | .wrsrVector .. => some (s.done id)
  | .rdtime st sd => some (execRdtime st sd s)
  | _ => none

/-- Where control goes in a service program: the word at an index, an end, or a fault. The program runs in registers of its own
(R38), those of a scratch crew, which is the current crew of the state. -/
inductive SvcGo where
  | at_ (n : Int) (stack : List Int) (s : State)
  | ended (s : State)
  | fault (s : State)
  deriving Repr

/-- What an instruction leaves, if it goes on. -/
def svcPlain (i : Instr) (s : State) : Option State :=
  match svcScalar i s with
  | some (.next t) => if t.me.phase = .trapped then none else some { t with parties := s.parties }
  | _ => none

/-- A load or store of a service program: the location of an aligned address that its context maps. -/
def State.svcLoc (s : State) (va : W64) (w : Nat) (need : Need) : Option Nat :=
  if va.toNat % w ≠ 0 then none
  else match s.xlate s.me.ctx va need with
    | .ok pa => some (s.locOf s.me.ctx pa)
    | .error _ => none

/-- A scalar load at the owner: a read at its die L2. -/
def State.svcLoad (s : State) (w : Nat) (va : W64) (sd : SReg) : Option State :=
  match s.svcLoc va w .read with
  | none => none
  | some l =>
    if locCtl l then some (s.onMe fun c => c.setS sd 0)
    else if s.isPoisoned l then none
    else some ((s.request (dieOfCore s.myCore) (l / 128) (l % 128 / 4) ((l % 128 + w - 1) / 4) false).onMe fun c =>
      c.setS sd (BitVec.ofNat 64 (memNat s.mem l w)))

/-- A scalar store at the owner: a write at its die L2. -/
def State.svcStore (s : State) (w : Nat) (va : W64) (x : W64) : Option State :=
  (s.svcLoc va w .write).map fun l => s.l2Cells s.myCore none none (cellsOf l (bytesOf w x.toNat))

def isHdr (w : W64) : Bool := bf w 56 8 == 0xFF

/-- The first instruction from an index on: headers are passed over. -/
def svcSkip (code : List W64) (pc : Int) : Int :=
  if pc < 0 then pc else pc + (((code.drop pc.toNat).takeWhile isHdr).length : Nat)

/-- One instruction of a service program. A branch goes to a header (R140); an `exit` ends the program, and per-lane forms find
no lanes (log entry 35). -/
def svcWord (code : List W64) (pc : Int) (stack : List Int) (s : State) : SvcGo :=
  let pc := svcSkip code pc
  let c := s.me
  let hdrAt := fun (n : Int) => match (if n < 0 then none else code[n.toNat]?) with
    | some w => isHdr w
    | none => false
  let go := fun (n : Int) (st : List Int) => if hdrAt n then SvcGo.at_ n st s else .fault s
  let byReg := fun (v : W64) (st : List Int) => if v.toNat % 8 = 0 then go (v.toNat / 8 : Nat) st else .fault s
  let rel := fun (d : BitVec 30) => pc + d.toInt
  let br := fun (p : Bool) (d : BitVec 30) => if p then go (rel d) stack else .at_ (pc + 1) stack s
  let on := fun (t : Option State) => match t with | some t => SvcGo.at_ (pc + 1) stack t | none => .fault s
  match (if pc < 0 then none else code[pc.toNat]?) with
  | none => .fault s
  | some w =>
    match decode w with
    | .error _ => .fault s
    | .ok (.br _ d) => br true d
    | .ok (.brc _ cd sa sb d) => br (condHolds cd (c.sv sa) (c.sv sb)) d
    | .ok (.brz _ sa d) => br (c.sv sa == 0) d
    | .ok (.brnz _ sa d) => br (c.sv sa != 0) d
    | .ok (.brx _ sa v) => byReg (c.sv sa + v.signExtend 64 * 8) stack
    | .ok (.call _ _ d) => go (rel d) ((pc + 1) :: stack)
    | .ok (.callx _ _ sa) => byReg (c.sv sa) ((pc + 1) :: stack)
    | .ok (.ret _) =>
      match stack with
      | [] => .ended s
      | r :: st => .at_ r st s
    | .ok (.exit _) => .ended s
    | .ok (.sld _ w _ sd sb ofs) => on (s.svcLoad w.bytes (c.ea sb ofs w.bytes) sd)
    | .ok (.sst _ w _ sa sb ofs) => on (s.svcStore w.bytes (c.ea sb ofs w.bytes) (c.sv sa))
    | .ok i => on (svcPlain i s)

/-- At most n instructions of a service program. -/
def svcSteps (code : List W64) : Nat → SvcGo → SvcGo
  | n + 1, .at_ pc st s => svcSteps code n (svcWord code pc st s)
  | _, g => g

/-- A service program at an owner's core, for a request: the new value, none on a fault. -/
def State.svcRun (s : State) (core ctx : Nat) (code : List W64) (old x addr : W64) : State × Option W64 :=
  let k := crewKey core 127
  let back := fun (t : State) => { t with cur := s.cur, crews := Map.erase t.crews k }
  match svcSteps code 4096 (.at_ 0 [] ({ s with cur := k }.putCrew k { ctx, priv := true, s := [(2, old), (3, x), (4, addr)] })) with
  | .ended t => (back t, some (t.me.sv 2))
  | .fault t => (back t, none)
  | .at_ _ _ t => (back t, none)

/-- The service slot that takes a request (R254). -/
def State.svcSlot (s : State) (g : AtomGroup) (r : AtomReq) : Option (Nat × SvcSlot) :=
  if g.returns then none
  else List.find? (fun p : Nat × SvcSlot => p.2.ctx == g.ctx && g.op == .red p.2.aop && p.2.ty == g.ty &&
    p.2.parcels.contains (parcelOfLoc r.loc)) s.svc

/-! ## Requests -/

/-- The log entry of poison that a request met, or of a program that failed (R191, R254, R385 SRC 4). -/
def AtomGroup.poisonReport (g : AtomGroup) (r : AtomReq) : Report :=
  { src := 4, addr := BitVec.ofNat 64 (locPa r.loc / 32 * 32), detail := g.opc.zeroExtend 64, ctx := g.ctx,
    agent := dieOfCore (4 * g.owner), core := 4 * g.owner }

/-- The first of the numbers under which the AMOs of companion cores run (R352): no key of a crew is so large. -/
def companionKey : Nat := 2 ^ 60
def AtomGroup.ofCompanion (g : AtomGroup) : Bool := companionKey ≤ g.crew

/-- A request's outcome: nothing at a poisoned sector, or where the owner's die is dead and no service crew is left to execute it
(log entry 82), otherwise the old value. The control region reads as zero to it, and its write there is discarded (R337). A compare-and-swap that fails with .rel or .ar leaves its release as a `fence` does (R63). -/
def State.atomReq (s : State) (g : AtomGroup) (r : AtomReq) : State × Option W64 :=
  let w := tyBits g.ty / 8
  let core := 4 * g.owner
  if locCtl r.loc then (s, some 0)
  else if s.dead.contains (dieOfCore core) then (if g.returns then s else s.report (g.poisonReport r), none) else
  let line := r.loc / 128
  let i := r.loc % 128 / 4
  let j := (r.loc % 128 + w - 1) / 4
  let refs := s.closing (dieOfCore core) line i j
  let merges := if isMerge (s.mapSpan line i j) then 1 else 0
  let s := if s.hasCrew g.crew then
      s.onCrew g.crew fun c => { c with ivals := c.ivals ++ refs, merges := c.merges + merges, must := (upFrom i (j + 1 - i)).foldl (fun m w => if m.contains (line, w) then m else (line, w) :: m) c.must } else s
  let s := s.request (dieOfCore core) line i j true (some g.crew)
  if s.isPoisoned r.loc then
    ((if g.returns then s else
      s.report (g.poisonReport r)), none)
  else
    let old := memNat s.mem r.loc w
    let (s, new) :=
      match s.svcSlot g r with
      | none => (s, atomVal g.op g.ty g.sat old r.x.toNat r.c.toNat)
      | some (n, slot) =>
        match s.svcRun core slot.ctx slot.code (BitVec.ofNat 64 old) (zext64 r.x.toNat (8 * w)) (BitVec.ofNat 64 (locPa r.loc)) with
        | (s, some v) => (s, some (v.toNat % 2 ^ (8 * w)))
        | (s, none) => ({ s with svc := Map.erase s.svc n }.report
            (g.poisonReport r), none)
    (match new with
      | some v => s.l2Cells core (some g.crew) (some g.lctr) (cellsOf r.loc (bytesOf w v)) g.relTs
      | none => if g.rel && s.hasCrew g.crew then s.onCrew g.crew fun c => { c with fenceTs := joinStamps c.fenceTs g.relTs } else s,
      some (BitVec.ofNat 64 old))

/-- Notes a request's outcome in the atomic that waits for it. -/
def AtomOp.result (o : AtomOp) (r : AtomReq) (v : Option W64) (wts : Option Stamp) (ch : Clocks) : AtomOp :=
  let wts := match wts, o.wts with
    | some x, some y => some (stampMax x y)
    | some x, none => some x
    | none, y => y
  let bad := match v with
    | none => o.bad ++ [(r.lane, r.va &&& ~~~(0x1F : W64))]
    | some _ => o.bad
  { o with results := o.results ++ [(r.lane, v)], wts, bad, clocks := joinStamps o.clocks ch }

def Crew.onAtom (c : Crew) (token : Nat) (f : AtomOp → AtomOp) : Crew :=
  { c with atoms := c.atoms.map fun o => if o.token = token then f o else o }

/-- The agent number of the companion core that sent an AMO (R263, R352). -/
def AtomGroup.agent (g : AtomGroup) : Nat := 8 + (g.crew - companionKey) / 128

/-- A group executes whole at its owner, in ascending lane order (R190); every request is acknowledged. What an AMO returns goes to
its companion core, which meets the clocks of the releases before it. -/
def State.runGroup (s : State) (g : AtomGroup) : State :=
  let s := g.reqs.foldl (fun s r =>
    let ch := s.lineClocks (r.loc / 128)
    let s := if g.ofCompanion then s.agentMeets g.agent (r.loc / 128) else s
    let (s, v) := s.atomReq g r
    let i := r.loc % 128 / 4
    let wts := if dieOfCore (4 * g.owner) = dieOfCore (coreOfKey g.crew) then
        ((s.die (dieOfCore (4 * g.owner))).span? (r.loc / 128) i i).map (·.wts) else none
    let s := if g.ofCompanion then s
      else (s.winDone g.crew fun x => x.at_ == g.at_ && x.lane == r.lane).push (.countedRequestAck g.crew)
    if g.returns && s.hasCrew g.crew then s.onCrew g.crew fun c => c.onAtom g.token fun o => o.result r v wts ch else s) s
  if g.returns && s.hasCrew g.crew then
    (s.onCrew g.crew fun c => c.onAtom g.token fun o => { o with groups := o.groups - 1 }).push (.atomicReturn g.crew)
  else s

end Sys2Proof.Machine
end

