-- ==== Sys2Proof/Machine/Atomics.lean ====
section
/-! DEFINITION. Atomics and reductions as a crew issues them (R186 to R193), fences and cache maintenance (R194 to
R196). -/

namespace Sys2Proof.Machine

/-- Whether an order releases or acquires (R86). -/
def Ord.rel (o : Ord) : Bool := o == .rel || o == .ar
def Ord.acq (o : Ord) : Bool := o == .acq || o == .ar

/-- The scope of an order's release, or of its acquire. -/
def relScope (o : Ord) (sc : Scope) : Option Scope := if Ord.rel o then some sc else none
def acqScope (o : Ord) (sc : Scope) : Option Scope := if Ord.acq o then some sc else none

/-- Whether an owner cluster lies outside a scope as seen from a core (R190). -/
def scopeMiss (s : State) (core owner : Nat) (sc : Scope) : Bool :=
  match sc with
  | .crew => false
  | .clus => clusterOfCore core != owner
  | .die => dieOfCore core != owner / 9
  | _ => devOfPair s.mode.mode (dieOfCore core) != devOfPair s.mode.mode (owner / 9)

/-- The groups of checked requests, one for each owner cluster, in the order of their lowest lanes (R190). -/
def State.groupsOf (s : State) (g : AtomGroup) (rs : List AtomReq) : List AtomGroup :=
  let own := fun (r : AtomReq) => s.owner g.ctx (locPa r.loc)
  ((rs.map own).eraseDups).map fun o => { g with owner := o, reqs := rs.filter fun r => own r == o }

/-- Holds the groups of an atomic or reduction behind its release, and counts the requests whose owners lie outside its
scope (R190). -/
def State.holdGroups (s : State) (sc : Scope) (rel : Option Scope) (gs : List AtomGroup) : State :=
  if gs.isEmpty then (if rel.isSome then s.hold .fence rel else s)
  else
    let n := (((gs.filter fun g => scopeMiss s s.myCore g.owner sc).map fun g => g.reqs.length)).sum
    let s := (List.range n).foldl (fun s _ => s.onCnt s.myCore fun k => { k with scopem := satInc k.scopem }) s
    (s.hold (.atoms gs) rel).onMe fun c => { c with scopem := c.scopem + n }

/-- The destination of a returning atomic by its logical register, which a slide of the window does not move. -/
def AtomDest.logical (d : AtomDest) (c : Crew) : AtomDest :=
  match d with
  | .lanes vd wide => .lanes (c.base.toNat + vd) wide
  | d => d

/-- A returning atomic under way: the crew goes on (R191). -/
def Crew.addAtom (c : Crew) (token clk groups : Nat) (acq : Option Scope) (dest : AtomDest) (plate : Option Nat) : Crew :=
  { c with atoms := c.atoms ++ [{ token, at_ := clk, acq, dest := dest.logical c, groups, results := [], plate, pc := c.pc
                                  widx := c.widx, word := c.word }] }

/-- A memory atomic or reduction: checks, then the requests, held behind the release; a returning form's values come later.
`arg` gives the operand and the compare value of a lane. -/
def State.atomInstr (s : State) (need : Need) (op : Aop) (ty : Ty) (sat : Bool) (sc : Scope) (ord : Ord)
    (dest : Option AtomDest) (reqs : List (Nat × W64)) (arg : Nat → W64 × W64) : Out :=
  let w := tyBits ty / 8
  match s.checkAcc s.me.ctx need w reqs with
  | .bad cause d0 d1 ls => .next (s.trap cause d0 d1 ls)
  | .ok as =>
    let c := s.me
    let s := s.walks as true
    let s := as.foldl (fun s a => s.winPush s.cur {
      crew := s.cur, at_ := s.clk, lane := a.lane, locs := upFrom a.loc w, read := dest.isSome, write := true
      acq := acqScope ord sc, rel := relScope ord sc, done := false }) s
    let g : AtomGroup := { token := s.free, crew := s.cur, owner := 0, op, ty, sat, returns := dest.isSome,
                           opc := bf c.word 56 8, ctx := c.ctx, lctr := c.lctr, at_ := s.clk, rel := Ord.rel ord, reqs := [] }
    let gs := s.groupsOf g (as.map fun a => ⟨a.lane, a.loc, a.va, (arg a.lane).1, (arg a.lane).2⟩)
    let s := (s.holdGroups sc (relScope ord sc) gs).fresh
    match dest with
    | none => s.done id
    | some d =>
      let s := s.always c.party 3
      if gs.isEmpty then
        (match acqScope ord sc with | some sc => s.acquire s.cur sc c.readWts c.readSeen | none => s).done id
      else s.done fun c => c.addAtom g.token s.clk gs.length (acqScope ord sc) d none

/-- The register after VD that holds the operand (R187): its number may be past the last (R55). -/
def atomOperand (ty : Ty) (vd : VReg) : Nat := vd.toNat + if ty.wide then 2 else 1

/-- The operand and compare value of a lane. -/
def Crew.atomArg (c : Crew) (wide : Bool) (x : Nat) (vd : VReg) (l : Nat) : W64 × W64 :=
  (if wide then c.vpl x l else (c.vl x l).zeroExtend 64, BitVec.ofNat 64 (c.vn wide vd l))

def execVatom (h : Hd) (op : Aop) (ty : Ty) (sc : Scope) (ord : Ord) (sat : Bool) (vd : VReg) (sb : SReg)
    (idx : Option VReg) (s : State) : Out :=
  let c := s.me
  s.atomInstr .both op ty sat sc ord (some (.lanes vd.toNat ty.wide))
    (laneReqs (c.gov h) (c.laneAddr sb idx 0 (tyBits ty / 8))) (c.atomArg ty.wide (atomOperand ty vd) vd)

def execSatom (_st : BitVec 4) (op : Aop) (ty : Ty) (sc : Scope) (ord : Ord) (sat : Bool) (sd sa sb : SReg)
    (s : State) : Out :=
  let c := s.me
  s.atomInstr .both op ty sat sc ord (some (.scalar sd ty)) [(32, c.sv sb)] fun _ => (c.sv sa, c.sv sd)

def execVredm (h : Hd) (op : Rop) (ty : Ty) (sc : Scope) (rel sat : Bool) (x : VReg) (sb : SReg)
    (idx : Option VReg) (s : State) : Out :=
  let c := s.me
  s.atomInstr .write (.red op) ty sat sc (if rel then .rel else .rlx) none
    (laneReqs (c.gov h) (c.laneAddr sb idx 0 (tyBits ty / 8))) (c.atomArg ty.wide x.toNat x)

/-- `patom` (R192): the request is performed at the bank when it leaves the core. -/
def execPatom (h : Hd) (op : Aop) (ty : Ty) (clus : Bool) (ord : Ord) (sat : Bool) (vd : VReg) (t : TReg)
    (idx : Option VReg) (s : State) : Out :=
  let c := s.me
  let sc : Scope := if clus then .clus else .crew
  let w := tyBits ty / 8
  let acq := fun (s : State) => match acqScope ord sc with | some sc => s.acquire s.cur sc c.readWts c.readSeen | none => s
  let offs := (lanesOf (c.gov h)).map fun l => (l, c.plateOff 0 idx 0 w l)
  if offs.isEmpty then
    (acq ((if (relScope ord sc).isSome then s.hold .fence (relScope ord sc) else s).always c.party 3)).done id
  else
    match s.checkPlate t w false offs with
    | .bad cause d0 d1 ls => .next (s.trap cause d0 d1 ls)
    | .ok p core as =>
      let reqs := as.map fun a =>
        let x := c.atomArg ty.wide (atomOperand ty vd) vd a.1
        (⟨a.1, a.2, BitVec.ofNat 64 (a.2 - 1024 * p.base), x.1, x.2⟩ : AtomReq)
      let g : AtomGroup := { token := s.free, crew := s.cur, owner := 0, op, ty, sat, returns := true,
                             opc := bf c.word 56 8, ctx := c.ctx, lctr := c.lctr, at_ := s.clk, rel := Ord.rel ord, reqs }
      let s := (((s.acquirePlate p).always c.party 3).hold (.plateAtom core p.num g) (relScope ord sc)).fresh
      s.done fun c => c.addAtom g.token s.clk 1 (acqScope ord sc) (.lanes vd.toNat ty.wide) (some p.num)

/-! ## Fences and cache maintenance -/

/-- `fence` (R61, R194): `.rel` goes on, and orders the writes after it; `.ar` waits for its release; an acquire takes what the
crew has read. -/
def execFence (_st : BitVec 4) (ord : Ord) (sc : Scope) (s : State) : Out :=
  let win := fun (s : State) => s.winPush s.cur { crew := s.cur, at_ := s.clk, locs := [], fence := some (ord, sc), done := true }
  let acq := fun (s : State) => s.acquire s.cur sc s.me.readWts s.me.readSeen
  match ord with
  | .rlx => s.done id
  | .rel => (win (s.hold .fence (some sc))).done id
  | .acq => (win (acq s)).done id
  | .ar => s.withRelease (some sc) fun s => (win (acq s)).done id

/-- `cflush` and `cinv` name a line; they act on it once the crew's earlier stores have left the core (R196, R287). -/
def State.lineOp (s : State) (inv : Bool) (sc : Scope) (sb : SReg) (ofs : BitVec 11) : Out :=
  let c := s.me
  let va := c.ea sb ofs 1
  let pa : Except Nat Nat :=
    if !canonical va then .error 1
    else match s.walk c.ctx va with
      | none => .error 2
      | some lf => .ok (lf.pa va.toNat)
  match pa with
  | .error k => .next (s.trap 0x05 (BitVec.ofNat 64 k) va)
  | .ok pa => ((s.walks [⟨32, va, 0⟩] false).hold (.flush inv sc (s.locOf c.ctx pa / 128))).done id

/-- The cores within a scope of a core (R59). -/
def State.coresIn (s : State) (sc : Scope) (core : Nat) : List Nat :=
  match sc with
  | .crew => [core]
  | .clus => upFrom (core / 4 * 4) 4
  | .die => upFrom (36 * dieOfCore core) 36
  | _ => (devPairs s.mode.mode (devOfPair s.mode.mode (dieOfCore core))).flatMap fun p => upFrom (36 * p) 36

/-- Drops the L1 copies of a line in a scope. -/
def State.dropCopies (s : State) (sc : Scope) (core line : Nat) : State :=
  { s with cores := s.cores.map fun kc =>
      if (s.coresIn sc core).contains kc.1 then (kc.1, kc.2.dropL1 line 0 31) else kc }

/-- The agents that a scope of .dev or .sys includes: the die L2s of the core's device, and its companion-core caches (R340). -/
def State.agentsIn (s : State) (core : Nat) : List Nat :=
  let d := devOfPair s.mode.mode (dieOfCore core)
  let n := devShare s.mode.mode 48
  devPairs s.mode.mode d ++ upFrom (8 + d * n) n

/-- Agents write their modified spans of a line to the home and drop their copies. -/
def State.flushLine (s : State) (agents : List Nat) (line : Nat) : State :=
  (s.dir.filter (·.line == line)).foldl (fun s d =>
    (d.st.filter fun p => agents.contains p.1).foldl (fun s p => s.giveUp p.1 line d.f d.l) s) s

/-- What `cflush` does to a line. -/
def State.flushOut (s : State) (sc : Scope) (core line : Nat) : State :=
  let s := s.dropCopies sc core line
  match sc with
  | .dev => s.flushLine (s.agentsIn core) line
  | .sys =>
    let s := s.flushLine (56 :: s.agentsIn core) line
    { s with stale := s.stale.filter fun c => c.1 / 128 != line }
  | _ => s

/-- What `cinv` does to a line: modified bytes stand behind the L1. -/
def State.invOut (s : State) (sc : Scope) (core line : Nat) : State :=
  let s := s.dropCopies sc core line
  let cs := s.coresIn sc core
  { s with cores := s.cores.map fun kc =>
      if cs.contains kc.1 then (kc.1, { kc.2 with icache := kc.2.icache.filter fun x => x.line != line }) else kc }

def execCflush (_st : BitVec 4) (sc : Scope) (sb : SReg) (ofs : BitVec 11) (s : State) : Out := s.lineOp false sc sb ofs

def execCinv (_st : BitVec 4) (sc : Scope) (sb : SReg) (ofs : BitVec 11) (s : State) : Out :=
  if !s.me.priv then .next (s.trap 0x02) else s.lineOp true sc sb ofs

end Sys2Proof.Machine
end

