-- ==== Sys2Proof/Machine/Plates.lean ====
section
/-! DEFINITION. Plates, the matrix array, batches and accumulator transfers (R199 to R215). -/

namespace Sys2Proof.Machine

/-- Cause 0x0A comes before every other check of an instruction that needs a convergent crew (R199). -/
def State.conv (s : State) (k : State → Out) : Out := if s.me.convergent then k s else .next (s.trap 0x0A)

/-- Cause 0x0B (R200). -/
def State.trap0B (s : State) (kind num : Nat) (d1 : W64 := 0) (ls : W32 := 0) : Out :=
  .next (s.trap 0x0B (plateDetail kind num) d1 ls)

/-- Whether a plate may be named by a command of the array: CREW, or held by this crew's own batches (R207). -/
def Plate.mine (p : Plate) (k : Nat) : Bool := !p.owner || (p.eng == 3 && p.holder == k)

/-- The crew sees its own flips from its next instruction on (R205): a word that names a plate which the crew itself has
given to an engine traps as it issues. `batch` lets the plates of the crew's own batches pass. A handle that is not bound comes
first (R207). -/
def State.ownFlip (s : State) (batch : Bool) (ts : List TReg) (k : Out) : Out :=
  if s.me.released || ts.any (fun t => (s.plate? t).isNone) then k
  else match (ts.filterMap s.plate?).find? fun p => p.owner && p.holder == s.cur && !(batch && p.mine s.cur) with
    | some p => s.trap0B 2 p.num
    | none => k

/-! ## Plates and handles (R201 to R205) -/

/-- Whether granules [g, g + n) of a core lie in the party's pool there and in no plate. -/
def Party.freeRun (p : Party) (core : Nat) (g n : Nat) : Bool :=
  (p.pool.any fun b => b.1 == core && b.2.1 ≤ g && g + n ≤ b.2.1 + b.2.2) &&
    !(p.plates.any fun x => 4 * p.cluster + x.core == core && x.base < g + n && g < x.base + x.grans)

def execTres (_st : BitVec 4) (td : TReg) (n : BitVec 8) (core : Option (BitVec 2)) (stat : Option SReg) (s : State) : Out :=
  s.conv fun s => s.shared .crew fun s =>
    let p := s.myParty
    let c := match core with | some c => c.toNat | none => s.myCore % 4
    let size := n.toNat + 1
    let st := fun (x : W64) (d : Crew) => match stat with | some r => d.setS r x | none => d
    match firstN (fun i => !p.plates.any (·.num == i)) 256 0, firstN (fun g => p.freeRun (4 * p.cluster + c) g size) 512 0 with
    | some num, some base =>
      (s.onMyParty fun p => { p with plates := p.plates ++ [{ num, core := c, base, grans := size }] }).done fun d =>
        st 0 { d with t := Map.put d.t td.toNat num }
    | _, _ => match stat with
      | some _ => s.done (st 1)
      | none => s.trap0B 4 0

def execTrel (_st : BitVec 4) (td : TReg) (s : State) : Out :=
  s.conv fun s => s.ownFlip false [td] <| s.shared .crew fun s =>
    match s.plate? td with
    | none => s.trap0B 1 0
    | some p =>
      if p.owner then s.trap0B 2 p.num
      else
        let ks := s.myParty.crews
        let s := s.onMyParty fun q => { q with plates := q.plates.filter (·.num != p.num) }
        (ks.foldl (fun s k => s.onCrew k fun c => { c with t := c.t.filter fun x => x.2 != p.num }) s).done id

def execTcfgPlate (_st : BitVec 4) (td : TReg) (sa : SReg) (s : State) : Out :=
  let n := (s.me.sv sa).toNat % 256
  if s.myParty.plates.any (·.num == n) then s.done fun c => { c with t := Map.put c.t td.toNat n } else s.trap0B 1 n

def execTcfgRegion (_st : BitVec 4) (ak : AReg) (sa : SReg) (s : State) : Out :=
  s.done fun c => { c with a := Map.set 0 c.a ak.toNat ((c.sv sa).extractLsb' 0 32 &&& 0xFFFFFF00) }

/-- Whether a plate holds a poisoned sector. -/
def State.platePois (s : State) (p : Plate) : Bool :=
  (s.core (s.plateCore p)).platePoison.any fun x => 32 * p.base ≤ x && x < 32 * (p.base + p.grans)

/-- The plate record of R49. -/
def State.plateRec (s : State) (p : Plate) : W64 :=
  BitVec.ofNat 64 (p.owner.toNat * 2 ^ 63 + p.eng.toNat * 2 ^ 60 + (s.platePois p).toNat * 2 ^ 59 + p.num * 2 ^ 40 +
    (p.grans - 1) * 2 ^ 32 + p.core * 2 ^ 10 + p.base)

/-- A read of an owner bit as CREW is an acquire at .clus (R204). -/
def State.seeOwner (s : State) (p : Plate) : State := if p.owner then s else s.acquirePlate p

def execTrd (_st : BitVec 4) (sa : SReg) (ta : TReg) (s : State) : Out :=
  match s.plate? ta with
  | none => s.trap0B 1 0
  | some p => let r := s.plateRec p
              (s.seeOwner p).done fun c => c.setS sa r

def execTstat (_st : BitVec 4) (sa sb : SReg) (s : State) : Out :=
  let asked := (List.range 16).filterMap fun i =>
    if (s.me.sv sb).getLsbD i then (s.plate? (BitVec.ofNat 4 i)).map fun p => (i, p) else none
  let v := asked.foldl (fun v x => if x.2.owner then v + 2 ^ x.1 else v) 0
  (asked.foldl (fun s x => s.seeOwner x.2) s).done fun c => c.setS sa (BitVec.ofNat 64 v)

/-! ## Operands of the matrix array (R206) -/

/-- Bytes that K elements take, and the alignment of a descriptor. -/
def elemBytes (ty : Ty) (k : Nat) : Nat :=
  match ty with
  | .int _ => k
  | .flt .f16 => 2 * k
  | .flt _ => 4 * k
  | .blk t => k / 16 * t.size
def descAlign (ty : Ty) : Nat :=
  match ty with
  | .flt .f16 => 2
  | .flt .f32 => 4
  | _ => 1

/-- A descriptor's operand in a plate. -/
def State.matOp (s : State) (p : Plate) (d : W64) (packed : Nat) : MatOp :=
  { core := s.plateCore p, base := 1024 * p.base, plate := p.num, offs := descOffs d, pitch := descPitch d packed }

def descBad (ty : Ty) (d : W64) : Bool :=
  (bf d 0 18).toNat % descAlign ty != 0 || (bf d 20 18).toNat % descAlign ty != 0

/-- Whether `cnt` rows of `len` bytes leave the plate. -/
def MatOp.out (o : MatOp) (size cnt len : Nat) : Bool := size < o.offs + (cnt - 1) * o.pitch + len

/-- DETAIL1 of kind 3 for a command: the offset of its first row or unit that leaves the plate (R323; log entry 29). -/
def offOut (size : Nat) (rows : List (Nat × Nat)) : W64 :=
  match rows.find? fun x => decide (size < x.1 + x.2) with
  | some x => BitVec.ofNat 64 x.1
  | none => 0
def MatOp.offOut (o : MatOp) (size cnt len : Nat) : W64 :=
  Machine.offOut size ((List.range cnt).map fun i => (o.offs + i * o.pitch, len))

/-- Whether the array order of a core holds 64 commands (R207). -/
def State.arrayFull (s : State) (core : Nat) : Bool := 64 ≤ (s.core core).array.length

/-- Room in the array order, then the command's turn to leave the core (R205, R287). -/
def State.arrayTurn (s : State) (cores : List Nat) (batch : Bool) (ts : List TReg) (k : State → Out) : Out :=
  s.conv fun s => s.ownFlip batch ts <| if cores.any s.arrayFull then .next (s.waitMe .arrayRoom) else s.shared .crew k

def State.appendArr (s : State) (core : Nat) (x : ArrCmd) : State :=
  s.onCore core fun c => { c with array := c.array ++ [x] }

/-- The region that a handle names. -/
def Crew.region (c : Crew) (ak : AReg) : Region := regionOf (Map.get 0 c.a ak.toNat)

/-- Marks a plate as held by the crew's open batch (R207, R209). -/
def State.holdPlate (s : State) (num : Nat) : State :=
  let s := s.onPlate num fun p => { p with owner := true, eng := 3, holder := s.cur }
  s.onMe fun c => { c with openB := { c.openB with plates := insN num c.openB.plates } }

/-- A command of the open batch enters the array order. -/
def State.batchCmd (s : State) (r : Region) (op : ArrOp) (dur : Nat) : State :=
  (s.appendArr s.myCore ⟨s.cur, r, op, dur, false⟩).onMe fun c => { c with openB := { c.openB with left := c.openB.left + 1 } }

/-- Multiply-accumulates of a core's array per clk (R13). -/
def macRate : Ty → Nat
  | .blk .pb4 => 32768
  | .blk .pb6 => 16384
  | .blk .pb9 => 8192
  | .int _ => 16384
  | .flt .f16 => 4096
  | .flt _ => 1024

/-- Quotients of durations, rounded up. -/
def clkFor (work rate : Nat) : Nat := (work + rate - 1) / rate

/-- `mma` and `mmap` (R207, R208). -/
def State.mmaInstr (s : State) (partner : Option Nat) (ty : Ty) (ak : AReg) (ta tb : TReg) (sa sb : SReg) (kk : BitVec 8) : Out :=
  s.arrayTurn (s.myCore :: partner.toList) true [ta, tb] fun s =>
    let c := s.me
    let k := 16 * (kk.toNat + 1)
    let r := c.region ak
    let len := elemBytes ty k
    match s.plate? ta, s.plate? tb with
    | some pa, some pb =>
      let a := s.matOp pa (c.sv sa) len
      let b := s.matOp pb (c.sv sb) len
      if !pa.mine s.cur then s.trap0B 2 pa.num
      else if !pb.mine s.cur then s.trap0B 2 pb.num
      else if descBad ty (c.sv sa) then .next (s.trap 0x04 0 (c.sv sa))
      else if descBad ty (c.sv sb) then .next (s.trap 0x04 0 (c.sv sb))
      else if a.out pa.size r.rows len then s.trap0B 3 pa.num (a.offOut pa.size r.rows len)
      else if b.out pb.size r.cols len then s.trap0B 3 pb.num (b.offOut pb.size r.cols len)
      else if !s.inBand r then s.trap0B 5 0
      else
        let s := (s.seeOwner pa).seeOwner pb
        let dur := clkFor (r.rows * r.cols * k) ((if partner.isSome then 2 else 1) * macRate ty)
        let s := ((s.holdPlate pa.num).holdPlate pb.num).batchCmd r
          (.mma ty a b k (if partner.isSome then .own else .whole)) dur
        let s := match partner with
          | some q => s.appendArr q ⟨s.cur, r, .mma ty a b k .partner, dur, false⟩
          | none => s
        s.done id
    | _, _ => s.trap0B 1 0

def execMma (_st : BitVec 4) (ty : Ty) (ak : AReg) (ta tb : TReg) (sa sb : SReg) (k : BitVec 8) (s : State) : Out :=
  s.mmaInstr none ty ak ta tb sa sb k
/-- The partner core of `mmap` is core c XOR 1 of the cluster. -/
def execMmap (_st : BitVec 4) (ty : Ty) (ak : AReg) (ta tb : TReg) (sa sb : SReg) (k : BitVec 8) (s : State) : Out :=
  s.mmaInstr (some (s.myCore / 2 * 2 + (1 - s.myCore % 2))) ty ak ta tb sa sb k

/-! ## Batches (R209 to R212) -/

def execMbatch (_st : BitVec 4) (sd : SReg) (s : State) : Out :=
  s.conv fun s =>
    let c := s.me
    if 16 ≤ (c.closedB.filter fun b => !b.retired).length then .next (s.waitMe .batchRoom)
    else
      let n := if c.batch = 0xFFFFFFFF then 1 else c.batch + 1
      (s.done fun c => { c.setS sd (n.zeroExtend 64) with
        batch := n, openB := {}, closedB := c.closedB ++ [{ c.openB with num := n }] })

/-- Whether n lies ahead of %batch in the window of 2^31 (R211). -/
def Crew.batchAhead (c : Crew) (n : W32) : Bool := 2 ^ 31 ≤ (c.batch - n).toNat
def Crew.batchOpen (c : Crew) (n : W32) : Bool := c.closedB.any fun b => b.num == n && !b.retired

/-- Releases the plates of a batch that no other batch of the crew holds (R209). -/
def State.releasePlates (s : State) (k : Nat) (b : Batch) : State :=
  let c := s.crew k
  let still := c.openB.plates ++ c.closedB.flatMap (·.plates)
  b.plates.foldl (fun s n =>
    if still.contains n then s
    else s.onParty c.party fun p => p.onPlate n fun x =>
      if x.eng = 3 ∧ x.holder = k then { x with owner := false, eng := 0, holder := 0 } else x) s

/-- Waits the retired batches up to n, in ascending order (R211). -/
def State.waitBatches (s : State) (n : W32) : State :=
  let due := fun (b : Batch) => b.retired && (n - b.num).toNat < 2 ^ 31
  let bs := s.me.closedB.filter due
  let s := s.onMe fun c => { c with closedB := c.closedB.filter fun b => !due b }
  let s := bs.foldl (fun s b => (s.releasePlates s.cur b).onMe fun c => c.orCtFl b.flags) s
  match bs.find? fun b => b.poison.isSome with
  | none => s.onMe Crew.next
  | some b =>
    let (num, off) := b.poison.getD (0, 0)
    s.trap 0x06 (BitVec.ofNat 64 (16 + 256 * num + b.num.toNat * 2 ^ 32)) (BitVec.ofNat 64 off) 0 true

def execMwait (_st : BitVec 4) (sa : SReg) (s : State) : Out :=
  let c := s.me
  let n := (c.sv sa).extractLsb' 0 32
  if n = 0 then s.done id
  else if c.batchAhead n then s.trap0B 8 0 (n.zeroExtend 64)
  else if c.batchOpen n then .next (s.waitMe (.batch n))
  else s.shared .crew fun s => .next (s.waitBatches n)

def execMpoll (_st : BitVec 4) (sd sa : SReg) (s : State) : Out :=
  let c := s.me
  let n := (c.sv sa).extractLsb' 0 32
  if n = 0 then s.done fun c => c.setS sd 1
  else if c.batchAhead n then s.trap0B 8 0 (n.zeroExtend 64)
  else s.done fun c => c.setS sd (if c.batchOpen n then 0 else 1)

/-! ## Accumulator transfers (R213 to R215) -/

/-- The plate-side rows of a transfer: how many, and the elements of each. -/
def Region.sides (r : Region) (col : Bool) : Nat × Nat := if col then (r.cols, r.rows) else (r.rows, r.cols)

/-- The accumulator element of plate-side row i, element x. -/
def Region.elem (r : Region) (col : Bool) (i x : Nat) : Nat :=
  if col then (r.row0 + x) * 256 + r.col0 + i else (r.row0 + i) * 256 + r.col0 + x

/-- The checks of `acld` and `acst` (R213), which follow those of R207. -/
def State.acChecked (s : State) (half col : Bool) (ak : AReg) (ta : TReg) (sa : SReg)
    (k : State → Plate → Region → MatOp → Out) : Out :=
  s.arrayTurn [s.myCore] true [ta] fun s =>
    let c := s.me
    let r := c.region ak
    let ty : Ty := if half then .flt .f16 else .flt .f32
    let len := (r.sides col).2 * (if half then 2 else 4)
    match s.plate? ta with
    | none => s.trap0B 1 0
    | some p =>
      let o := s.matOp p (c.sv sa) len
      if !p.mine s.cur then s.trap0B 2 p.num
      else if descBad ty (c.sv sa) then .next (s.trap 0x04 0 (c.sv sa))
      else if o.out p.size (r.sides col).1 len then s.trap0B 3 p.num (o.offOut p.size (r.sides col).1 len)
      else if !s.inBand r then s.trap0B 5 0
      else k (s.seeOwner p) p r o

/-- `acld`: the plate is read now, and holds the crew until the read is done. -/
def execAcld (_st : BitVec 4) (half col : Bool) (ak : AReg) (ta : TReg) (sa : SReg) (s : State) : Out :=
  s.acChecked half col ak ta sa fun s p r o =>
    let e := if half then 2 else 4
    let (cnt, per) := r.sides col
    let core := s.core o.core
    let at_ := fun (i x : Nat) => o.base + o.offs + i * o.pitch + x * e
    let cells := (List.range cnt).flatMap fun i => (List.range per).map fun x => (i, x)
    let data := cells.map fun ix => BitVec.ofNat 32 (memNat core.plate (at_ ix.1 ix.2) e)
    let isBad := fun (ix : Nat × Nat) => core.platePoison.contains (at_ ix.1 ix.2 / 32)
    let first := (cells.find? isBad).map fun ix => (p.num, (at_ ix.1 ix.2 / 32 * 32) - o.base)
    let bad := if first.isSome then (cells.map fun ix => r.elem col ix.1 ix.2 / 8).eraseDups else []
    let dur := clkFor (cnt * per * e) 128
    let s := s.batchCmd r (.acld half col data bad first) dur
    s.done fun c => { c with phase := .waiting (.plateRead (s.clk + dur)), blockedSince := s.clk }

def execAcst (_st : BitVec 4) (half : Bool) (r : Rnd) (col : Bool) (ak : AReg) (ta : TReg) (sa : SReg) (s : State) : Out :=
  s.acChecked half col ak ta sa fun s _ rg o =>
    (s.appendArr s.myCore ⟨s.cur, rg, .acst half col r o, clkFor (rg.rows * rg.cols * (if half then 2 else 4)) 128, false⟩).done fun c =>
      { c with phase := .waiting .plateWrite, blockedSince := s.clk }

def execAczero (_st : BitVec 4) (ak : AReg) (s : State) : Out :=
  s.arrayTurn [s.myCore] false [] fun s =>
    let r := s.me.region ak
    if s.inBand r then (s.batchCmd r .aczero (clkFor (r.rows * r.cols) 1024)).done id else s.trap0B 5 0

/-- Whether the array still holds a command of a crew. -/
def State.arrayPending (s : State) (k : Nat) : Bool := (s.core (coreOfKey k)).array.any (·.crew == k)

/-- `acrd` enters the array order and is performed in its turn (R54, R208); then its lanes have their values. For a
poisoned sector DETAIL1 holds 256 times the row plus the column (R215; log entry 71). -/
def execAcrd (h : Hd) (col : Bool) (vd : VReg) (ak : AReg) (sa : SReg) (s : State) : Out :=
  let c := s.me
  let r := c.region ak
  if !c.released then
    if s.arrayFull s.myCore then .next (s.waitMe .arrayRoom)
    else .next ((s.appendArr s.myCore ⟨s.cur, r, .acrd, 1, false⟩).waitMe .accumulator)
  else
    let s := s.onMe fun c => { c with released := false }
    let c := s.me
    let g := c.gov h
    let i := (c.sv sa).toNat % 256
    let j := (c.sv sa).toNat / 256 % 256
    let at_ := fun (l : Nat) => if col then (i + l, j) else (i, j + l)
    let el := fun (l : Nat) => (r.row0 + (at_ l).1) * 256 + r.col0 + (at_ l).2
    let out := maskOf fun l => g.getLsbD l && (r.rows ≤ (at_ l).1 || r.cols ≤ (at_ l).2)
    let core := s.core s.myCore
    let bad := maskOf fun l => g.getLsbD l && core.accPoison.contains (el l / 8)
    if !s.inBand r then s.trap0B 5 0
    else if out ≠ 0 then s.trap0B 6 0 0 out
    else match lanesOf bad with
      | l :: _ => .next (s.trap 0x06 0 (BitVec.ofNat 64 (el l)) bad)
      | [] => s.done fun c => c.putV vd.toNat g fun l => Map.get 0 core.acc (el l)

/-! ## What the array performs (R54, R122, R123, R213) -/

/-- Element k of a row or column of an operand. -/
def MatOp.elem (o : MatOp) (plate : List Host.Cell) (ty : Ty) (i k : Nat) : FVal :=
  let a := o.base + o.offs + i * o.pitch
  match ty with
  | .int _ => let x := sInt (memNat plate (a + k) 1) 8
              .fin (x < 0) x.natAbs 0
  | .flt .f16 => fmt16.decode (memNat plate (a + 2 * k) 2)
  | .flt _ => fmt32.decode (memNat plate (a + 4 * k) 4)
  | .blk t => t.elem (memNat plate (a + k / 16 * t.size) t.size) (k % 16)

/-- The elements of one row or column, and whether it touches a poisoned sector. -/
def MatOp.vec (o : MatOp) (plate : List Host.Cell) (ty : Ty) (k i : Nat) : List FVal := (List.range k).map (o.elem plate ty i)
def MatOp.badSec (o : MatOp) (poison : List Nat) (ty : Ty) (k i : Nat) : Option Nat :=
  let a := o.base + o.offs + i * o.pitch
  (upFrom (a / 32) ((a + elemBytes ty k - 1) / 32 + 1 - a / 32)).find? poison.contains

/-- The group length G of R122. -/
def groupLen : Ty → Nat
  | .int _ => 16
  | .flt .f16 => 4
  | .flt _ => 1
  | .blk _ => 16

/-- One group's exact sum, rounded to binary32. Integer products have no negative zero. -/
def groupSum (ty : Ty) (ps : List (FVal × FVal)) : FRes :=
  let ms := ps.map fun p => p.1.mul p.2
  match ty with
  | .int _ =>
    let t := (ms.map fun m => (FVal.dy m.1).1).foldl (· + ·) 0
    fmt32.deliver .rn (.fin (t < 0) t.natAbs 0) false
  | _ =>
    let (v, nv) := sumVals .rn (ms.map (·.1))
    fmt32.deliver .rn v (nv || ms.any (·.2))

/-- C + the sum over k of one row and one column, group after group; `fuel` bounds the groups. -/
def accumulate (ty : Ty) : Nat → List FVal → List FVal → W32 × Fl → W32 × Fl
  | 0, _, _, acc => acc
  | _, [], _, acc => acc
  | n + 1, a :: as, bs, (c, fl) =>
    let g := groupLen ty
    let t := groupSum ty (((a :: as).take g).zip (bs.take g))
    let x := fmt32.add .rn c.toNat t.bits
    accumulate ty n ((a :: as).drop g) (bs.drop g) (BitVec.ofNat 32 x.bits, fl ||| t.fl ||| x.fl)

/-- Gives flags and poison to the batch that holds the crew's oldest command of a batch, which is performed. -/
def Crew.batchDone (c : Crew) (fl : Fl) (poison : Option (Nat × Nat)) : Crew :=
  let upd := fun (b : Batch) =>
    { b with left := b.left - 1, flags := b.flags ||| fl, poison := b.poison <|> poison }
  match (List.range c.closedB.length).find? fun i => ((c.closedB[i]?).map (·.left)).getD 0 ≠ 0 with
  | some i => { c with closedB := updAt upd i c.closedB }
  | none => { c with openB := upd c.openB }

/-- The batch to which a performed command of an ended crew gives flags and poison. -/
def Party.endDone (p : Party) (k : Nat) (fl : Fl) (poison : Option (Nat × Nat)) : Party :=
  match (List.range p.endB.length).find? fun i => match p.endB[i]? with | some x => x.1 == k && x.2.left != 0 | none => false with
  | some i => { p with endB := updAt (fun (x : Nat × Batch) =>
      (x.1, { x.2 with left := x.2.left - 1, flags := x.2.flags ||| fl, poison := x.2.poison <|> poison })) i p.endB }
  | none => p

/-- A command of a batch is performed: what it leaves stays through a replay of its crew. -/
def State.batchGot (s : State) (k : Nat) (fl : Fl) (poison : Option (Nat × Nat)) : State :=
  if !isEnded k then s.onCrewPast k fun c => c.batchDone fl poison
  else if (Map.find? s.parties (partyOfEnded k)).isSome then s.onParty (partyOfEnded k) fun p => p.endDone k fl poison
  else s

/-- Batches of ended crews whose commands are all performed give their plates back (R209). -/
def Party.endRetire (p : Party) : Party :=
  let gone := p.endB.filter fun x => x.2.left == 0
  let rest := p.endB.filter fun x => x.2.left != 0
  let free := (gone.flatMap fun x => x.2.plates.map fun n => (x.1, n)).filter fun y => !rest.any fun x => x.1 == y.1 && x.2.plates.contains y.2
  { p with
    endB := rest
    plates := p.plates.map fun x =>
      if x.owner && x.eng == 3 && free.any (fun y => y.2 == x.num && y.1 % 2 ^ 32 == x.holder) then { x with owner := false, eng := 0, holder := 0 }
      else x }

/-- Elements of the accumulator store written at once, with the poison of their sectors: set, cleared, or kept. -/
def Core.putAcc (c : Core) (xs : List (Nat × W32)) (set clr : List Nat) : Core :=
  { c with
    acc := xs.foldl (fun m x => Map.set 0 m x.1 x.2) c.acc
    accPoison := set.foldl (fun p x => insN x p) (c.accPoison.filter fun x => !clr.contains x) }

/-- Writes bytes to a plate store: a sector covered whole loses its poison, and `bad` sectors gain it (R58). -/
def Core.putPlate (c : Core) (cs : List Host.Cell) (bad : List Nat) : Core :=
  { c with
    plate := memPut c.plate cs
    platePoison := bad.foldl (fun p x => insN x p) (c.platePoison.filter fun x => !(wholeSectors cs).contains x) }

/-- Performs a command at the head of a core's array order. -/
def State.perform1 (s : State) (core : Nat) (x : ArrCmd) : State :=
  let cr := s.core core
  let r := x.reg
  match x.op with
  | .mma _ _ _ _ .partner => s
  | .mma ty a b k _ =>
    let pa := (s.core a.core).plate
    let pb := (s.core b.core).plate
    let av := (List.range r.rows).map (a.vec pa ty k)
    let bv := (List.range r.cols).map (b.vec pb ty k)
    let abad := (List.range r.rows).map (a.badSec (s.core a.core).platePoison ty k)
    let bbad := (List.range r.cols).map (b.badSec (s.core b.core).platePoison ty k)
    let cells := (List.range r.rows).flatMap fun i => (List.range r.cols).map fun j => (i, j)
    let res := cells.map fun ij =>
      let e := r.elem false ij.1 ij.2
      (e, accumulate ty k (av.getD ij.1 []) (bv.getD ij.2 []) (Map.get 0 cr.acc e, 0))
    let first := ((abad.filterMap id)[0]?).map (fun x => (a.plate, 32 * x - a.base)) <|>
      ((bbad.filterMap id)[0]?).map (fun x => (b.plate, 32 * x - b.base))
    let bad := if first.isSome then (cells.map fun ij => r.elem false ij.1 ij.2 / 8).eraseDups else []
    let s := s.onCore core fun c => c.putAcc (res.map fun y => (y.1, y.2.1)) bad []
    s.batchGot x.crew (res.foldl (fun f y => f ||| y.2.2) 0) first
  | .acld half col data bad first =>
    let (cnt, per) := r.sides col
    let es := (List.range cnt).flatMap fun i => (List.range per).map fun y => r.elem col i y
    let vals := data.map fun d => if half then floatToFloat fmt16 fmt32 .rn d.toNat else ⟨d.toNat, 0⟩
    let s := s.onCore core fun c =>
      c.putAcc (es.zip (vals.map fun v => BitVec.ofNat 32 v.bits)) bad ((es.map (· / 8)).eraseDups)
    s.batchGot x.crew (vals.foldl (fun f v => f ||| v.fl) 0) first
  | .acst half col rn o =>
    let (cnt, per) := r.sides col
    let e := if half then 2 else 4
    let ixs := (List.range cnt).flatMap fun i => (List.range per).map fun y => (i, y)
    let vals := ixs.map fun ix =>
      let el := r.elem col ix.1 ix.2
      let v := (Map.get 0 cr.acc el).toNat
      (o.base + o.offs + ix.1 * o.pitch + ix.2 * e, (if half then floatToFloat fmt32 fmt16 rn v else ⟨v, 0⟩),
        cr.accPoison.contains (el / 8))
    let s := s.onCore o.core fun c =>
      c.putPlate (vals.flatMap fun v => cellsOf v.1 (bytesOf e v.2.1.bits)) ((vals.filter (·.2.2)).map (·.1 / 32)).eraseDups
    (s.onCrewPast x.crew fun c => c.orCtFl (vals.foldl (fun f v => f ||| v.2.1.fl) 0)).push (.acstWritesDone x.crew)
  | .aczero =>
    let es := (List.range r.rows).flatMap fun i => (List.range r.cols).map fun j => r.elem false i j
    let s := s.onCore core fun c => c.putAcc (es.map fun e => (e, 0)) [] ((es.map (· / 8)).eraseDups)
    s.batchGot x.crew 0 none
  | .acrd =>
    match (s.crew x.crew).phase with
    | .waiting .accumulator => s.onCrew x.crew fun c => { c.wake s.clk with released := true }
    | _ => s

/-! ## Plate writes at the plate store (R205) -/

/-- A `patom` at the bank (R192): one event, the lanes in ascending order. -/
def State.plateOut (s : State) (k core : Nat) (g : AtomGroup) (met rel : Clocks) : State :=
  let w := tyBits g.ty / 8
  let s := g.reqs.foldl (fun s r =>
    let cr := s.core core
    if cr.platePoison.contains (r.loc / 32) then s.onCrew k fun c => c.onAtom g.token fun o => o.result r none none met
    else
      let old := memNat cr.plate r.loc w
      let s := match atomVal g.op g.ty g.sat old r.x.toNat r.c.toNat with
        | some v => s.onCore core fun x => x.putPlate (cellsOf r.loc (bytesOf w v)) []
        | none => if g.rel then s.onCrew k fun c => { c with fenceTs := joinStamps c.fenceTs rel } else s
      s.onCrew k fun c => c.onAtom g.token fun o => o.result r (some (BitVec.ofNat 64 old)) none met) s
  (s.onCrew k fun c => c.onAtom g.token fun o => { o with groups := o.groups - 1 }).push (.atomicReturn k)

/-- A crew's plate write as the plate store takes it: one that comes after a flip to ENGINE, or after a `trel`, traps (R17, R50) with
its lanes (R323). A write that is a release leaves its clocks in the plate's record (R61). -/
def State.plateArrive (s : State) (x : Nat × Held) : State :=
  let k := x.1
  let check := fun (num : Nat) (ls : W32) (go : Plate → State → State) =>
    match (s.party (s.crew k).party).plates.find? fun p => p.num == num with
    | none => s.trapOlder k x.2.at_ fun c => trapRec c 0x0B (plateDetail 1 num) 0 ls false
    | some p =>
      if p.owner then s.trapOlder k x.2.at_ fun c => trapRec c 0x0B (plateDetail 2 num) 0 ls false
      else (go p s).onParty (s.crew k).party fun y => y.onPlate num fun z => { z with clocks := joinStamps z.clocks x.2.relTs }
  match x.2.eff with
  | .plate core num ls cs => check num ls fun _ s => s.onCore core fun c => c.putPlate cs []
  | .plateAtom core num g => check num (maskL (g.reqs.map (·.lane))) fun p s => s.plateOut k core g p.clocks x.2.relTs
  | _ => s

/-- The plate writes that wait at a cluster's plate stores are taken in order of core and crew slot (R205): those of crews
up to a key, or all. -/
def State.platesUpTo (s : State) (cluster : Nat) (upTo : Option Nat) : State :=
  let first := fun (x : Nat × Held) => match upTo with | some k => decide (x.1 ≤ k) | none => true
  let xs := (upFrom (4 * cluster) 4).flatMap fun n => (s.core n).arrivals.filter first
  let s := (upFrom (4 * cluster) 4).foldl (fun (s : State) n =>
    if (s.core n).arrivals.isEmpty then s else s.onCore n fun c => { c with arrivals := c.arrivals.filter fun x => !first x }) s
  (sortBy (·.1) xs).foldl State.plateArrive s

/-- All plate writes that wait. -/
def State.platesAll (s : State) : State :=
  ((s.cores.filter fun (c : Nat × Core) => !c.2.arrivals.isEmpty).map fun c => clusterOfCore c.1).eraseDups.foldl
    (fun s cl => s.platesUpTo cl none) s

/-! ## Layout records (R216 to R218) -/

/-- A unit's global-side and plate-side offsets. -/
def layUnits (r : W64) : List (Nat × Nat) :=
  let f := fun (lo n : Nat) => fld r.toNat lo n
  let u := f 58 6 + 1
  (List.range (f 50 8 + 1)).flatMap fun i => (List.range (f 42 8 + 1)).map fun j =>
    (i * f 24 18 + j * u, if f 22 2 = 0 then i * f 4 18 + j * u else j * f 4 18 + i * u)
def layUnit (r : W64) : Nat := fld r.toNat 58 6 + 1
def layValid (r : W64) : Bool := fld r.toNat 22 2 ≤ 1 && fld r.toNat 0 4 == 0

/-- The cost of one wave of units at base b. -/
def waveCost (u b : Nat) (w : List (Nat × Nat)) : Nat :=
  let ws := (w.flatMap fun x => upFrom ((b + x.2) / 4) ((b + x.2 + u - 1) / 4 + 1 - (b + x.2) / 4)).eraseDups
  (List.range 32).foldl (fun m k => max m (ws.filter (· % 32 == k)).length) 0 - (ws.length + 31) / 32

/-- Waves of 32 units, by fuel. -/
def wavesCost (u b : Nat) : Nat → List (Nat × Nat) → Nat
  | 0, _ => 0
  | _, [] => 0
  | n + 1, x :: xs => waveCost u b ((x :: xs).take 32) + wavesCost u b n ((x :: xs).drop 32)

/-- The conflict count (R217). -/
def layConflicts (r : W64) (b : Nat) : Nat := wavesCost (layUnit r) b 2048 (layUnits r)

def execLaycfg (_st : BitVec 4) (sd sa sb : SReg) (s : State) : Out :=
  s.done fun c =>
    let r := c.sv sa
    c.setS sd (if layValid r then BitVec.ofNat 64 (layConflicts r ((c.sv sb).toNat % 2 ^ 18)) else 0xFFFFFFFFFFFFFFFF)

end Sys2Proof.Machine
end

