-- ==== Sys2Proof/Machine/Engines.lean ====
section
/-! DEFINITION. Engine commands: copy, gather and collective (R219 to R226), as a crew issues them and as the engines
perform them. -/

namespace Sys2Proof.Machine

def Engine.code : Engine → Nat
  | .copy => 1 | .gather => 2 | .matrix => 3 | .coll => 4

/-- A gather record (R224): DPITCH, ROWB, SSTRIDE and COUNT as the numbers they stand for. -/
def gthDpitch (r : W64) : Nat := fld r.toNat 46 18
def gthRow (r : W64) : Nat := fld r.toNat 34 12 + 1
def gthStride (r : W64) : Nat := fld r.toNat 16 18
def gthCount (r : W64) : Nat := fld r.toNat 0 16 + 1

/-- Trap of cause 0x0E (R228). -/
def trapObj (s : State) (kind num : Nat) : Out := .next (s.trap 0x0E (BitVec.ofNat 64 (kind + 256 * num)))

/-- The queue of a command with EV = 1 must be an event queue (R219). -/
def State.evOk (s : State) (ev : Option (BitVec 5)) (k : Out) : Out :=
  match ev with
  | none => k
  | some q =>
    match Map.find? s.myParty.queues q.toNat with
    | none => trapObj s 1 q.toNat
    | some x => if x.event then k else trapObj s 2 q.toNat

/-- The checks of R219 on the plate: bound, and OWNER = CREW. -/
def State.engPlate (s : State) (t : TReg) (k : Plate → Out) : Out :=
  match s.plate? t with
  | none => s.trap0B 1 0
  | some p => if p.owner then s.trap0B 2 p.num else k p

/-- A command is accepted: the plate flips to ENGINE, and the command joins its engine's order. -/
def State.accept (s : State) (e : Engine) (p : Plate) (c : EngCmd) (bk : Nat) : Out :=
  let me := s.me
  let s := (s.seeOwner p).onPlate p.num fun x => { x with owner := true, eng := BitVec.ofNat 3 (Engine.code e), holder := s.cur }
  let cmd := { c with crew := s.cur, party := me.party, ctx := me.ctx, lctr := me.lctr, plate := p.num,
                      seq := Map.get 0 me.seq (Engine.code e), at_ := s.clk }
  let s := s.onCore s.myCore fun x =>
    match e with
    | .copy => { x with copyQ := x.copyQ ++ [cmd] }
    | .gather => { x with gatherQ := x.gatherQ ++ [cmd] }
    | _ => { x with collQ := x.collQ ++ [cmd] }
  s.done fun c => { c with
    seq := Map.put c.seq (Engine.code e) ((Map.get 0 c.seq (Engine.code e) + 1) % 2 ^ 16)
    bkconf := c.bkconf + BitVec.ofNat 32 bk }

def blankCmd (e : Engine) : EngCmd := { eng := e, crew := 0, party := 0, ctx := 0, lctr := 0, plate := 0 }

def execCpy (_st : BitVec 4) (toGlobal : Bool) (t : TReg) (sd sa sb : SReg) (ev : Option (BitVec 5)) (s : State) : Out :=
  s.conv fun s => s.ownFlip false [t] <| s.shared .crew fun s =>
    let c := s.me
    let b := (c.sv sd).toNat % 2 ^ 18
    let r := c.sv sb
    let g := c.sv sa
    s.engPlate t fun p =>
      if !layValid r then s.trap0B 7 p.num
      else if p.size < (layUnits r).foldl (fun m x => max m (b + x.2 + layUnit r)) 0 then
        s.trap0B 3 p.num (offOut p.size ((layUnits r).map fun x => (b + x.2, layUnit r)))
      else s.evOk ev <|
        if !canonical g then .next (s.trap 0x05 1 g)
        else s.accept .copy p { blankCmd .copy with toGlobal, base := b, g, rec_ := r, ev := ev.map (·.toNat) } (layConflicts r b)

def execGth (_st : BitVec 4) (t : TReg) (sd sa sb : SReg) (ev : Option (BitVec 5)) (s : State) : Out :=
  s.conv fun s => s.ownFlip false [t] <| s.shared .crew fun s =>
    let c := s.me
    let r := c.sv sb
    let g := c.sv sa
    let ix := c.sv sd
    s.engPlate t fun p =>
      if p.size < (gthCount r - 1) * gthDpitch r + gthRow r then
        s.trap0B 3 p.num (offOut p.size ((List.range (gthCount r)).map fun i => (i * gthDpitch r, gthRow r)))
      else s.evOk ev <|
        if !canonical g then .next (s.trap 0x05 1 g)
        else if ix.toNat % 4 ≠ 0 then .next (s.trap 0x04 0 ix)
        else s.accept .gather p { blankCmd .gather with g, rec_ := r, idx := ix, ev := ev.map (·.toNat) } 0

def execColl (_st : BitVec 4) (op : Rop) (ty : Ty) (t : TReg) (sa sb : SReg) (ev : Option (BitVec 5)) (s : State) : Out :=
  s.conv fun s => s.ownFlip false [t] <| s.shared .crew fun s =>
    let c := s.me
    let g := (c.sv sa).toNat
    let x := (c.sv sb).toNat
    let offs := fld x 0 18
    let n := fld x 20 18
    s.engPlate t fun p =>
      if n = 0 ∨ n % (tyBits ty / 8) ≠ 0 then s.trap0B 7 p.num
      else if p.size < offs + n then s.trap0B 3 p.num (BitVec.ofNat 64 offs)
      else s.evOk ev <| s.accept .coll p
        { blankCmd .coll with op, ty, group := fld g 0 12, rank := fld g 16 12, offs, bytes := n, ev := ev.map (·.toNat) } 0

/-! ## How the engines perform commands -/

/-- Counted requests of a crew for bytes, one for each line: permission for the die's L2 first (R197), and with it the intervals
that this closes (R271). -/
def State.countLines (s : State) (k die : Nat) (cs : List Host.Cell) : State × List IvalRef :=
  (spansOf cs).foldl (fun (r : State × List IvalRef) x =>
    let s := r.1
    let refs := s.closing die x.1 x.2.1 x.2.2
    let merges := if isMerge (s.mapSpan x.1 x.2.1 x.2.2) then 1 else 0
    (((s.request die x.1 x.2.1 x.2.2 true (some k)).onCrew k fun c => { c with fence := c.fence + 1, merges := c.merges + merges }).push
      (.countedRequestAck k), r.2 ++ refs)) (s, [])

/-- The plate of a command in its party. -/
def State.cmdPlate (s : State) (c : EngCmd) : Option Plate := (s.party c.party).plates.find? (·.num == c.plate)

/-- The core whose plate store holds a plate of a party. -/
def State.plateHome (s : State) (party : Nat) (p : Plate) : Nat := 4 * (s.party party).cluster + p.core

/-- Bytes of global memory in their pages: the kind of cause 0x05 that some of them meets, or their locations. -/
def State.rangeLocs (s : State) (ctx : Nat) (va : W64) (n : Nat) (need : Need) : Except Nat (List Nat) :=
  let ends := [va, va + BitVec.ofNat 64 (n - 1)]
  match ends.filterMap fun a => match s.xlate ctx a need with | .ok _ => none | .error k => some k with
  | k :: _ => .error k
  | [] => .ok ((List.range n).map fun i => match s.xlate ctx (va + BitVec.ofNat 64 i) need with
      | .ok pa => s.locOf ctx pa
      | .error _ => 0)

/-- A unit or row that an engine moves: the global address, its bytes, and the offset in the core's plate store. -/
structure Unit_ where
  va : W64
  n : Nat
  at_ : Nat
  skip : Bool := false
  /-- the bytes of a gather's index, which the engine reads too -/
  index : List Nat := []
  /-- the row of a copy's layout -/
  row : Nat := 0
  deriving DecidableEq, Repr

/-- The units of a copy (R223). -/
def copyUnits (c : EngCmd) (base : Nat) : List Unit_ :=
  let cols := fld c.rec_.toNat 42 8 + 1
  ((List.range (layUnits c.rec_).length).zip (layUnits c.rec_)).map fun x =>
    { va := c.g + BitVec.ofNat 64 x.2.1, n := layUnit c.rec_, at_ := base + c.base + x.2.2, row := x.1 / cols }

/-- Whether a later row of a copy writes its byte at an offset on the global side: then no agent sees what an earlier row has for it
(R220). -/
def State.overwritten (s : State) (c : EngCmd) (row o : Nat) : Bool :=
  let rows := fld c.rec_.toNat 50 8
  let pitch := fld c.rec_.toNat 24 18
  let u := layUnit c.rec_
  let len := (fld c.rec_.toNat 42 8 + 1) * u
  if rows ≤ row || o < (row + 1) * pitch then false
  else (upFrom (row + 1) (rows - row)).any fun i => i * pitch ≤ o && o < i * pitch + len &&
    match s.rangeLocs c.ctx (c.g + BitVec.ofNat 64 (i * pitch + (o - i * pitch) / u * u)) u .write with
    | .error 1 => false
    | .error 3 => false
    | _ => true

/-- A byte that an engine reads for a core of a die: the control region reads as 0 (R337). -/
def State.engByte (s : State) (core l : Nat) : Byte := if locCtl l then 0 else s.byteAt (dieOfCore core) l

/-- The rows of a gather (R224). A row whose index cannot be read is not moved; nor is one whose index lies in a poisoned sector,
for which the spec names no effect (log entry 28). -/
def State.gatherUnits (s : State) (c : EngCmd) (base : Nat) : List Unit_ :=
  (List.range (gthCount c.rec_)).map fun n =>
    let at_ := base + n * gthDpitch c.rec_
    match s.rangeLocs c.ctx (c.idx + BitVec.ofNat 64 (4 * n)) 4 .read with
    | .ok (l :: ls) =>
      let i := sInt (ofBytes ((l :: ls).map (s.engByte (coreOfKey c.crew)))) 32
      if s.isPoisoned l then { va := c.idx + BitVec.ofNat 64 (4 * n), n := gthRow c.rec_, at_, skip := true, index := l :: ls }
      else { va := c.g + BitVec.ofInt 64 (i * (gthStride c.rec_ : Nat)), n := gthRow c.rec_, at_, index := l :: ls }
    | _ => { va := c.idx + BitVec.ofNat 64 (4 * n), n := gthRow c.rec_, at_, skip := true }

/-- OPC of the instruction that made a command (R219, R385). -/
def EngCmd.opc (c : EngCmd) : W64 := match c.eng with | .gather => 0xD1 | .coll => 0xD2 | _ => 0xD0

/-- The lowest nonzero status. -/
def minStatus (a b : Nat) : Nat := if a = 0 then b else if b = 0 then a else min a b

/-- What a command leaves as it runs: the state, STATUS, and the greatest wts of its global writes with the intervals that they
closed. -/
structure EngRun where
  s : State
  status : Nat := 0
  wts : Option Stamp := none
  ivals : List IvalRef := []

/-- Whether the crew of a command is still there: merges that the command causes count in its samples (R264, R389). -/
def State.cmdCrew (s : State) (c : EngCmd) : Bool := s.hasCrew c.crew && (s.crew c.crew).party == c.party

/-- Global reads of an engine: read requests of the die's L2, and the relaunch trace (R220, R360), which records reads of the
control region too. -/
def State.engReads (s : State) (c : EngCmd) (core : Nat) (locs : List Nat) : State :=
  let mem := locs.filter fun l => !locCtl l
  ((spansOf (mem.map fun l => (l, (0 : Byte)))).foldl (fun s x =>
    let s := if isMerge (s.mapSpan x.1 x.2.1 x.2.2) && s.cmdCrew c then
      s.onCrew c.crew fun y => { y with merges := y.merges + 1 } else s
    s.request (dieOfCore core) x.1 x.2.1 x.2.2 false) s).traceReads c.party locs

/-- One unit from global memory to the plate. Each unit is tested alone for the sectors that it covers whole (R58; log entry
28). -/
def EngRun.toPlate (r : EngRun) (c : EngCmd) (core : Nat) (home : Nat) (u : Unit_) : EngRun :=
  let s := r.s.engReads c core u.index
  let secs := (upFrom u.at_ u.n).map (· / 32)
  let poisonAll := fun (s : State) => s.onCore home fun x =>
    { x with platePoison := secs.eraseDups.foldl (fun p i => insN i p) x.platePoison }
  let fault := fun (k : Nat) => { r with
    s := (poisonAll s).report { src := 4, detail := c.opc, ctx := c.ctx, agent := dieOfCore core, core }
    status := minStatus r.status k }
  match s.rangeLocs c.ctx u.va (if u.skip then 4 else u.n) .read with
  | .error 3 => fault 1
  | .error _ => fault 2
  | .ok locs =>
    if u.skip then { r with s := poisonAll s, status := minStatus r.status 3 }
    else
      let s := s.engReads c core locs
      let bad := ((locs.zip secs).filter fun x => s.isPoisoned x.1).map (·.2)
      let cells := (upFrom u.at_ u.n).zip (locs.map (s.engByte core))
      { r with s := s.onCore home fun x => x.putPlate cells bad.eraseDups
               status := if bad.isEmpty then r.status else minStatus r.status 3 }

/-- One unit from the plate to global memory. -/
def EngRun.toGlobal (r : EngRun) (c : EngCmd) (core : Nat) (home : Nat) (u : Unit_) : EngRun :=
  let s := r.s
  let fault := fun (k : Nat) => { r with
    s := s.report { src := 4, detail := c.opc, ctx := c.ctx, agent := dieOfCore core, core }
    status := minStatus r.status k }
  match s.rangeLocs c.ctx u.va u.n .write with
  | .error 3 => fault 1
  | .error _ => fault 2
  | .ok locs =>
    let x := s.core home
    let o := (u.va - c.g).toNat
    let stays := (List.range u.n).filter fun i => !s.overwritten c u.row (o + i)
    let locs := stays.map fun i => locs.getD i 0
    let offs := stays.map (u.at_ + ·)
    let bad := ((locs.zip offs).filter fun p => x.platePoison.contains (p.2 / 32)).map (·.1 / 32)
    let cells := locs.zip (offs.map (memGet x.plate))
    let counted := if s.cmdCrew c then s.countLines c.crew (dieOfCore core) (cells.filter fun y => !locCtl y.1) else (s, [])
    let s := counted.1
    let s := (s.l2Cells core (some c.crew) (some c.lctr) cells).poisonSectors bad.eraseDups
    let wts := locs.foldl (fun (t : Option Stamp) l => match (s.die (dieOfCore core)).span? (l / 128) (l % 128 / 4) (l % 128 / 4) with
      | some y => some (match t with | some x => stampMax x y.wts | none => y.wts)
      | none => t) r.wts
    { s, status := if bad.isEmpty then r.status else minStatus r.status 3, wts, ivals := r.ivals ++ counted.2 }

/-- Whether a command waits, for a page that is not mapped (R222) or for a granule whose bias flips (R277). -/
def State.cmdWaits (s : State) (c : EngCmd) (us : List Unit_) : Bool :=
  us.any fun u => u.index.any s.flipping ||
    match s.rangeLocs c.ctx u.va (if u.skip then 4 else u.n) (if c.toGlobal then .write else .read) with
    | .error 2 => true
    | .error _ => false
    | .ok locs => locs.any s.flipping

/-- An event record (R221). -/
def eventItem (c : EngCmd) (status : Nat) : W32 :=
  BitVec.ofNat 32 (c.plate * 2 ^ 24 + Engine.code c.eng * 2 ^ 21 + status * 2 ^ 16 + c.seq)

/-- A command has finished: the plate goes back to CREW by the store's arbitration, and its record follows (R64). -/
def State.finishCmd (s : State) (c : EngCmd) (status : Nat) (wts : Stamp) (ivals : List IvalRef := []) : State :=
  match s.cmdPlate c with
  | none => s
  | some p =>
    let ev := c.ev.map fun q => (⟨coreOfKey c.crew, c.eng, c.party, q, eventItem c status, wts, s.evNext⟩ : EvRec)
    let home := s.plateHome c.party p
    let s : State := { s with evNext := s.evNext + 1 }
    let s := s.onCore home fun x => { x with setBacks := x.setBacks ++ [⟨c.party, p.num, wts, ivals.map fun r => (c.crew, r), ev⟩] }
    s.push (.plateStoreArbitration home)

/-- The units of a command from the one it goes on at: those of one chunk, 4 KiB of a copy or 64 rows of a gather (R331). -/
def State.chunk (s : State) (c : EngCmd) (base : Nat) : List Unit_ × Bool :=
  let (us, n) := match c.eng with
    | .gather => (s.gatherUnits c base, 64)
    | _ => (copyUnits c base, 4096 / layUnit c.rec_)
  ((us.drop c.pos).take n, us.length ≤ c.pos + n)

/-- Performs the next chunk of the command at the head of the copy or gather order: nothing while it waits for a page, else the
state and what is left of the command. The unit that waits stops those after it (R220, R222). -/
def State.runCmd (s : State) (core : Nat) (c : EngCmd) : State × Option EngCmd :=
  match s.cmdPlate c with
  | none => (s, none)
  | some p =>
    let home := s.plateHome c.party p
    let (us, last) := s.chunk c (1024 * p.base)
    let go := us.takeWhile fun u => !s.cmdWaits c [u]
    let r := go.foldl (fun r u => if c.toGlobal then r.toGlobal c core home u else r.toPlate c core home u)
      ({ s, status := c.status, wts := c.wts, ivals := c.ivals } : EngRun)
    if last && go.length == us.length then (r.s.finishCmd c r.status (r.wts.getD 0) r.ivals, none)
    else (r.s, some { c with pos := c.pos + go.length, status := r.status, wts := r.wts, ivals := r.ivals })

/-! ## Collectives (R225, R226) -/

/-- Poisons the range of a member. -/
def State.poisonRange (s : State) (c : EngCmd) : State :=
  match s.cmdPlate c with
  | none => s
  | some p =>
    let a := 1024 * p.base + c.offs
    s.onCore (s.plateHome c.party p) fun x =>
      { x with platePoison := (upFrom (a / 32) ((a + c.bytes - 1) / 32 + 1 - a / 32)).foldl (fun q i => insN i q) x.platePoison }

/-- A member whose command completes with an error. -/
def State.collFail (s : State) (core : Nat) (c : EngCmd) (status : Nat) : State := (s.poisonRange c).finishCmd c status 0

/-- The physical group of a command. -/
def State.groupOf (s : State) (c : EngCmd) : Nat := s.phys c.ctx 4096 c.group

/-- A rank arrives at its group: it waits, or completes with STATUS 5. DESIGN CHOICE: so does the `coll` of a group number at or beyond
the device's share, for which R226 gives no effect (log entry 78). -/
def State.collArrive (s : State) (core : Nat) (c : EngCmd) : State :=
  let n := s.groupOf c
  let g := Map.get {} s.groups n
  if g.members = 0 ∨ g.ctx.toNat ≠ c.ctx ∨ s.inShare 4096 c.group = false ∨ g.members.toNat ≤ c.rank ∨
      g.arrivals.any (·.rank == c.rank) = true then s.collFail core c 5
  else
    let g := { g with arrivals := g.arrivals ++ [⟨core, c.rank, c⟩] }
    let s := { s with groups := Map.put s.groups n g }
    if g.arrivals.length = g.members.toNat then s.push (.collectiveCombine n) else s

/-- The bytes of an arrival's range, as elements of its type. -/
def State.collElems (s : State) (a : Arrival) : List Nat :=
  match s.cmdPlate a.cmd with
  | none => []
  | some p =>
    let w := tyBits a.cmd.ty / 8
    let x := s.core (s.plateHome a.cmd.party p)
    (List.range (a.cmd.bytes / w)).map fun i => memNat x.plate (1024 * p.base + a.cmd.offs + w * i) w

/-- The result of the operation over the ranks' values: floating-point sums are exact and rounded once. -/
def collVal (op : Rop) (ty : Ty) (xs : List Nat) : Nat :=
  match ty, op with
  | .flt t, .add => (t.fmt.sum .rn (xs.map t.fmt.decode)).bits
  | _, _ =>
    match xs with
    | [] => 0
    | x :: xs => xs.foldl (redVal op ty false) x

/-- Combines a group whose ranks have all arrived. -/
def State.combine (s : State) (n : Nat) : State :=
  let g := Map.get {} s.groups n
  let as := sortBy (·.rank) g.arrivals
  let s := { s with groups := Map.put s.groups n { g with arrivals := [] } }
  match as with
  | [] => s
  | a :: _ =>
    if as.any fun b => b.cmd.op != a.cmd.op || b.cmd.ty != a.cmd.ty || b.cmd.bytes != a.cmd.bytes then
      as.foldl (fun s b => s.collFail b.core b.cmd 4) s
    else
      let w := tyBits a.cmd.ty / 8
      let vs := as.map s.collElems
      let res := (List.range (a.cmd.bytes / w)).map fun i => collVal a.cmd.op a.cmd.ty (vs.map fun v => v.getD i 0)
      let badByte := fun (i : Nat) => as.any fun b => match s.cmdPlate b.cmd with
        | none => false
        | some p => (s.core (s.plateHome b.cmd.party p)).platePoison.contains ((1024 * p.base + b.cmd.offs + i) / 32)
      let bads := (List.range a.cmd.bytes).filter badByte
      as.foldl (fun s b =>
        match s.cmdPlate b.cmd with
        | none => s
        | some p =>
          let o := 1024 * p.base + b.cmd.offs
          let s := s.onCore (s.plateHome b.cmd.party p) fun x =>
            x.putPlate (cellsOf o (res.flatMap (bytesOf w))) ((bads.map fun i => (o + i) / 32).eraseDups)
          s.finishCmd b.cmd (if bads.isEmpty then 0 else 3) 0) s

end Sys2Proof.Machine
end

