-- ==== Sys2Proof/Machine/Sync.lean ====
section
/-! DEFINITION. Barrier objects, cluster queues, watch and park, and contact sheets (R227 to R244). -/

namespace Sys2Proof.Machine

/-- A crew whose instance is cancelled ends at an instruction that blocks (R34). -/
def State.cancelEnds (s : State) (k : State → Out) : Out :=
  if s.me.cancel = 0 then k s else .next (s.endAll s.cur)

/-! ## Barrier objects (R229 to R232) -/

/-- The crews of a party with their keys, handler crews among them. -/
def State.partyCrews (s : State) (p : Nat) : List (Nat × Crew) := s.crews.filter fun kc => kc.2.party == p

/-- Crews blocked on a condition, the longest blocked first. -/
def State.blockedOn (s : State) (p : Nat) (w : Wait → Bool) : List (Nat × Crew) :=
  sortBy (fun kc => kc.2.blockedSince) ((s.partyCrews p).filter fun kc => match kc.2.phase with | .waiting x => w x | _ => false)

/-- The object, or the trap of kind 5. -/
def State.withBar (s : State) (n : BitVec 4) (k : Barrier → Out) : Out :=
  match Map.find? s.myParty.bars n.toNat with
  | none => trapObj s 5 n.toNat
  | some b => k b

def State.setBar (s : State) (p n : Nat) (b : Barrier) : State := s.onParty p fun x => { x with bars := Map.put x.bars n b }

/-- The distance of a phase from the current one (R229). -/
def Barrier.dist (b : Barrier) (p : BitVec 16) : Nat := (p - b.cur).toNat

def execBari (_st : BitVec 4) (bar : BitVec 4) (sa : SReg) (s : State) : Out :=
  let m := s.me.sv sa
  let p := s.myParty
  let waits := s.blockedOn s.me.party fun w => match w with | .barrier b _ => b == bar.toNat | _ => false
  let arrived := match Map.find? p.bars bar.toNat with | some b => b.arrived.any (· != 0) | none => false
  if m = 0 ∨ 2 ^ p.ncrews ≤ m.toNat ∨ arrived = true ∨ waits.isEmpty = false then trapObj s 8 bar.toNat
  else s.shared .crew fun s => (s.setBar s.me.party bar.toNat { mask := m }).done id

/-- The crew's bit of a 64-bit mask. -/
def crewBit (n : Nat) : W64 := 1 <<< n

/-- An arrival at the phase d ahead, with the stamp of its release: the phase keeps the greatest (R391). -/
def Barrier.arrive (b : Barrier) (crew d : Nat) (st : Clocks) : Barrier :=
  let first := b.arrived.getD d 0 == 0
  { b with
    arrived := updAt (· ||| crewBit crew) d b.arrived
    stamps := updAt (fun x => if first then st else joinStamps x st) d b.stamps }

/-- A release of the crew that executes has completed and arrives at an object (R275): the reorder checker may trap the crew
first. -/
def State.arriving (s : State) (k : State → Out) : Out :=
  let s := s.winArrive .clus
  if s.me.phase = .trapped then .next s else k s

/-- The object takes the clk's arrivals, and completes its phases at the end of it (R232). -/
def State.arrived (s : State) (p n : Nat) (b : Barrier) : State := (s.setBar p n b).pushLate (.barrierUpdate p n)

def execBarv (_st : BitVec 4) (bar : BitVec 4) (p : PhaseOp) (s : State) : Out :=
  s.withBar bar fun b =>
    let c := s.me
    let d := match p with
      | .ahead d => d.toNat
      | .named sa => b.dist ((c.sv sa).extractLsb' 0 16)
    if b.mask &&& crewBit c.num = 0 then trapObj s 7 bar.toNat
    else if 4 ≤ d then trapObj s 6 bar.toNat
    else if b.arrived.getD d 0 &&& crewBit c.num ≠ 0 then s.done fun c => { c with released := false }
    else s.shared .clus fun s => s.arriving fun s =>
      (s.arrived c.party bar.toNat (b.arrive c.num d s.me.relTs)).done id

/-- `bard` of a crew on an object: it drops, and arrives at the current phase. -/
def Barrier.drop (b : Barrier) (crew : Nat) (st : Clocks) : Barrier :=
  { b.arrive crew 0 st with mask := b.mask &&& ~~~(crewBit crew) }

def execBard (_st : BitVec 4) (bar : BitVec 4) (s : State) : Out :=
  s.withBar bar fun b =>
    let c := s.me
    if b.mask &&& crewBit c.num = 0 then trapObj s 7 bar.toNat
    else s.shared .clus fun s => s.arriving fun s =>
      (s.arrived c.party bar.toNat (b.drop c.num s.me.relTs)).done id

/-- The acquire of a crew that sees a completed phase, of the stamp that the phase keeps (R391), which the reorder checker notes
before the crew's later accesses (R275). -/
def State.seeBar (s : State) (k : Nat) (b : Barrier) (p : BitVec 16) : State :=
  (s.acquireKept k .clus (Map.get [] b.ended p.toNat)).winPush k
    { crew := k, at_ := s.clk, locs := [], acq := some .clus, done := true }

/-- Whether a phase lies behind the current one, so that it has completed. -/
def Barrier.past (b : Barrier) (p : BitVec 16) : Bool := 2 ^ 15 ≤ b.dist p

def execBarw (_st : BitVec 4) (bar : BitVec 4) (sa : SReg) (s : State) : Out :=
  s.cancelEnds fun s => s.withBar bar fun b =>
    let p := (s.me.sv sa).extractLsb' 0 16
    if b.past p then (s.seeBar s.cur b p).done id
    else .next (s.waitMe (.barrier bar.toNat p))

def execBart (_st : BitVec 4) (sd : SReg) (bar : BitVec 4) (sa : SReg) (s : State) : Out :=
  s.withBar bar fun b =>
    let p := (s.me.sv sa).extractLsb' 0 16
    if b.past p then (s.seeBar s.cur b p).done fun c => c.setS sd 1 else s.done fun c => c.setS sd 0

/-- Whether the current phase completes at the end of the clk: its arrivals cover the participants, and it has some. -/
def Barrier.covered (b : Barrier) : Bool := b.arrived.headD 0 != 0 && b.mask &&& ~~~(b.arrived.headD 0) == 0

/-- Completes phases while the arrivals cover the participants (R232); at most the open phases are covered. -/
def Barrier.complete : Nat → Barrier → Barrier
  | 0, b => b
  | n + 1, b =>
    match b.arrived, b.stamps with
    | a :: as, t :: ts =>
      if a ≠ 0 ∧ b.mask &&& ~~~a = 0 then
        Barrier.complete n { b with
          cur := b.cur + 1, arrived := as ++ [0], stamps := ts ++ [[]], ended := Map.put b.ended b.cur.toNat t }
      else b
    | _, _ => b

/-! ## Queues (R233 to R237) -/

def State.withQueue (s : State) (q : BitVec 5) (k : CQueue → Out) : Out :=
  match Map.find? s.myParty.queues q.toNat with
  | none => trapObj s 1 q.toNat
  | some x => k x

def State.setQueue (s : State) (p q : Nat) (x : CQueue) : State := s.onParty p fun y => { y with queues := Map.put y.queues q x }

def execQcfg (_st : BitVec 4) (q : BitVec 5) (sa sb : SReg) (s : State) : Out :=
  let c := s.me
  let m := c.sv sa
  let v := c.sv sb
  let waits := s.blockedOn c.party fun w => match w with
    | .queuePush x _ => x == q.toNat
    | .queuePop x _ => x == q.toNat
    | _ => false
  let items := match Map.find? s.myParty.queues q.toNat with | some x => x.items.isEmpty | none => true
  let event := v.getLsbD 8
  let bad := v &&& ~~~(0x13F : W64) ≠ 0 ∨ (event = false ∧ (m = 0 ∨ 2 ^ s.myParty.ncrews ≤ m.toNat)) ∨ (event = true ∧ m ≠ 0)
  if waits.isEmpty = false ∨ items = false then trapObj s 3 q.toNat
  else if bad then trapObj s 4 q.toNat
  else s.shared .crew fun s =>
    (s.setQueue c.party q.toNat { event, depth := v.toNat % 64 + 1, producers := m }).done id

/-- Whether a crew may push to a queue: not an event queue, and a producer of it. -/
def CQueue.producer (x : CQueue) (crew : Nat) : Bool := !x.event && x.producers.getLsbD crew
/-- Whether a push by a crew blocks (R36). -/
def CQueue.blocks (x : CQueue) (crew : Nat) : Bool := Map.get 0 x.allow crew == 0 || x.depth ≤ x.items.length
/-- A push takes one unit of allowance and appends the item with its release stamp. -/
def CQueue.pushItem (x : CQueue) (crew : Nat) (item : W32) (st : Clocks) : CQueue :=
  { x with allow := Map.set 0 x.allow crew (Map.get 0 x.allow crew - 1), items := x.items ++ [⟨item, st⟩] }

def execQpush (_st : BitVec 4) (q : BitVec 5) (sa : SReg) (s : State) : Out :=
  s.cancelEnds fun s => s.withQueue q fun x =>
    let c := s.me
    let item := (c.sv sa).extractLsb' 0 32
    if !x.producer c.num then trapObj s 2 q.toNat
    else s.shared .clus fun s =>
      if x.blocks c.num then .next (s.waitMe (.queuePush q.toNat item))
      else ((s.setQueue c.party q.toNat (x.pushItem c.num item s.me.relTs)).pushLate
        (.clusterQueueUpdate c.party q.toNat)).done id

/-- The effects of receiving an item on the crew's core and party (R36, R237): an event record also brings a crew the intervals that
its own command closed (R257). -/
def State.received (s : State) (k : Nat) (event : Bool) (i : QItem) : State :=
  let s := s.acquireKept k .clus i.stamp
  let s := if event then
      match (s.party (s.crew k).party).plates.find? fun p => p.num == (bf i.item 24 8).toNat with
      | some p => s.onCrew k fun c => c.takeIvals k p
      | none => s
    else s
  if event && bf i.item 21 3 == 4 then s.always (s.crew k).party 5 else s

/-- A pop by the crew that executes, whose effect in the queue waits out the fix window too where the queue is empty (R287). -/
def State.popNow (s : State) (q : Nat) (x : CQueue) (i : QItem) (upd : Crew → Crew) : Out :=
  let s := (s.setQueue s.me.party q { x with items := x.items.drop 1 }).received s.cur x.event i
  (s.pushLate (.clusterQueueUpdate s.me.party q)).done upd

def execQpop (_st : BitVec 4) (sd : SReg) (q : BitVec 5) (s : State) : Out :=
  s.cancelEnds fun s => s.withQueue q fun x =>
    s.shared .crew fun s =>
      match x.items with
      | i :: _ => s.popNow q.toNat x i fun c => c.setS sd (i.item.zeroExtend 64)
      | [] => .next (s.waitMe (.queuePop q.toNat sd))

def execQtryPop (_st : BitVec 4) (sd : SReg) (q : BitVec 5) (s : State) : Out :=
  s.withQueue q fun x =>
    match x.items with
    | [] => s.done fun c => { c with released := false }.setS sd 0
    | _ :: _ => s.shared .crew fun s =>
      match x.items with
      | i :: _ => s.popNow q.toNat x i fun c => c.setS sd (i.item.zeroExtend 64 + 0x100000000)
      | [] => s.done id

def execQtryPush (_st : BitVec 4) (sd : SReg) (q : BitVec 5) (sa : SReg) (s : State) : Out :=
  s.withQueue q fun x =>
    let c := s.me
    if !x.producer c.num then trapObj s 2 q.toNat
    else if x.blocks c.num then s.done fun c => { c with released := false }.setS sd 0
    else s.shared .clus fun s =>
      ((s.setQueue c.party q.toNat (x.pushItem c.num ((c.sv sa).extractLsb' 0 32) s.me.relTs)).pushLate
        (.clusterQueueUpdate c.party q.toNat)).done fun c => c.setS sd 1

def execQallow (_st : BitVec 4) (q : BitVec 5) (sa : SReg) (n : BitVec 5) (s : State) : Out :=
  s.withQueue q fun x =>
    let c := s.me
    let who := (c.sv sa).toNat
    if !(who < 64 && x.producer who) then trapObj s 2 q.toNat
    else s.shared .crew fun s =>
      let x := { x with allow := Map.set 0 x.allow who (min (Map.get 0 x.allow who + n.toNat + 1) x.depth) }
      ((s.setQueue c.party q.toNat x).pushLate (.clusterQueueUpdate c.party q.toNat)).done id

/-- Wakes a blocked crew at the word after the one it blocked in. -/
def State.wakeNext (s : State) (k : Nat) (f : Crew → Crew) : State :=
  (s.onCrew k fun c => (f c).next.wake s.clk).commit k

/-- The wake step of a queue (R37): poppers, then pushers, the longest blocked first. -/
def State.queueWake (s : State) (p q : Nat) : Nat → State
  | 0 => s
  | n + 1 =>
    match Map.find? (s.party p).queues q with
    | none => s
    | some x =>
      let pops := s.blockedOn p fun w => match w with | .queuePop y _ => y == q | _ => false
      let pushes := (s.blockedOn p fun w => match w with | .queuePush y _ => y == q | _ => false).filter fun kc =>
        !x.blocks kc.2.num
      match x.items, pops, pushes with
      | i :: is, (k, c) :: _, _ =>
        let sd := match c.phase with | .waiting (.queuePop _ sd) => sd | _ => 0
        let s := ((s.setQueue p q { x with items := is }).received k x.event i).wakeNext k fun c =>
          c.setS sd (i.item.zeroExtend 64)
        s.queueWake p q n
      | _, _, (k, c) :: _ =>
        let item := match c.phase with | .waiting (.queuePush _ item) => item | _ => 0
        let s := (s.setQueue p q (x.pushItem c.num item c.relTs)).wakeNext k id
        s.queueWake p q n
      | _, _, _ => s

/-! ## Watch and park (R238, R239) -/

def execWatch (_st : BitVec 4) (wide : Bool) (count : BitVec 5) (sb : SReg) (ofs : BitVec 11) (s : State) : Out :=
  let c := s.me
  let w := if wide then 8 else 4
  let r := w * (count.toNat + 1)
  let a := c.ea sb ofs w
  match s.checkAcc c.ctx .read r [(32, a)] with
  | .bad cause d0 d1 _ => .next (s.trap cause d0 d1)
  | .ok as =>
    let loc := match as with | x :: _ => x.loc | [] => 0
    (s.walks as false).done fun c => { c with mon := some { loc, len := r, va := a, hit := false } }

/-- Ends a park with a status: the monitor is disarmed; without a status register a timeout traps (R239), and a strike may still
discard that trap with the timeout that it found (R329). -/
def State.parked (s : State) (k : Nat) (sd : Option SReg) (status : Nat) : State :=
  let va := match (s.crew k).mon with | some m => m.va | none => 0
  let off := fun (s : State) => s.onCrew k fun c => { c with mon := none }
  match sd with
  | some r => (off s).wakeNext k fun c => c.setS r (BitVec.ofNat 64 status)
  | none =>
    if status = 1 then (off (s.snapshot k)).trapCrew k (trapRec (s.crew k) 0x09 0 va 0 false) else (off s).wakeNext k id

/-- `park` with or without a status register. -/
def State.parkInstr (s : State) (sd : Option SReg) (sa : SReg) : Out :=
  s.cancelEnds fun s =>
    let c := s.me
    match c.mon with
    | none => .next (s.parked s.cur sd 3)
    | some m =>
      if m.hit then .next (s.parked s.cur sd 0)
      else
        let t := (c.sv sa).toNat % 2 ^ 48
        .next (s.waitMe (.park (if t = 0 then none else some (s.clk + t)) sd))

def execPark (_st : BitVec 4) (sa : SReg) (s : State) : Out := s.parkInstr none sa
def execParkSt (_st : BitVec 4) (sd sa : SReg) (s : State) : Out := s.parkInstr (some sd) sa

/-! ## Contact sheets (R240 to R244) -/

/-- The home that a crew's board number names, when the board is configured for the crew's context (R228 kind 1). -/
def State.board (s : State) (k : Nat) (n : Nat) : Option (Nat × SheetHome) :=
  let c := s.crew k
  let h := s.phys c.ctx 256 n
  let x := Map.get {} s.sheets h
  if s.inShare 256 n && x.en && x.ctx.toNat == c.ctx then some (h, x) else none

/-- Trap of cause 0x0D (R228). -/
def sheetDetail (kind board : Nat) : W64 := BitVec.ofNat 64 (kind + 256 * board)

/-- The 16 bytes of a slot record (R240). -/
def slotBytes (level : W32) (gen : BitVec 16) (payload : W64) : List Byte :=
  bytesOf 16 (level.toNat * 2 ^ 96 + gen.toNat * 2 ^ 64 + payload.toNat)

/-- The home writes a slot record, as agent 57; a record that does not translate is not written (R242). -/
def State.writeSlot (s : State) (h : Nat) (x : SheetHome) (slot : Nat) (level : W32) (gen : BitVec 16) (payload : W64) : State :=
  let va := BitVec.ofNat 64 (x.image.toNat * 128 + 16 * slot)
  match s.devWrite x.ctx.toNat va (slotBytes level gen payload) none x.stamps with
  | some s => s
  | none => s.report { src := 14, detail := BitVec.ofNat 64 (h + slot * 2 ^ 16), ctx := x.ctx.toNat, agent := 57 }

def execShpv (_st : BitVec 4) (k : BitVec 2) (sd : SReg) (board : BitVec 8) (sa sb : SReg) (s : State) : Out :=
  let c := s.me
  s.shared .dev fun s =>
    match s.board s.cur board.toNat with
    | none => .next (s.trap 0x0D (sheetDetail 1 board.toNat))
    | some (h, x) =>
      let op : SheetOp := .post ((c.sv sa).toNat % 1024) ((c.sv sa).extractLsb' 32 32) (c.sv sb) k.toNat sd
      let y : SheetHome := { x with reqs := x.reqs ++ [⟨s.cur, op⟩] }
      .next (({ s with sheets := Map.put s.sheets h y }.pushLate (.sheetHomePost h)).waitMe .sheet)

/-- The view of a board: its posted mask (R241, R242). -/
def SheetHome.view (x : SheetHome) : BitVec 1024 := x.posted &&& BitVec.ofNat 1024 (2 ^ (x.slots.toNat + 1) - 1)

/-- The acquire of every post of a board that the level includes (R391, R296). -/
def State.acquireBoard (s : State) (k : Nat) (x : SheetHome) : State := s.acquireKept k .dev x.stamps

/-- GEN of the slot record in the board image (R240): 0 where its address does not translate. -/
def State.slotGen (s : State) (x : SheetHome) (slot : Nat) : BitVec 16 :=
  match s.xlate x.ctx.toNat (BitVec.ofNat 64 (x.image.toNat * 128 + 16 * slot)) .write with
  | .ok pa => BitVec.ofNat 16 (memNat s.mem (s.locOf x.ctx.toNat pa + 8) 2)
  | .error _ => 0

/-- One post at a board's home (R242). -/
def State.homePost (s : State) (h : Nat) (k : Nat) (slot : Nat) (epoch : W32) (payload : W64) (kn : Nat) (sd : SReg) : State :=
  let x := Map.get {} s.sheets h
  let c := s.crew k
  let n := s.local_ 256 h
  let bad := fun (kind : Nat) =>
    (s.snapshotOf k { c with phase := .running }).trapCrew k (trapRec c 0x0D (sheetDetail kind n) 0 0 false)
  if !(x.en && x.ctx.toNat == c.ctx) then bad 1
  else if x.slots.toNat < slot then bad 2
  else if epoch ≠ x.epoch then bad 3
  else if x.level = 0xFFFFFFFF then bad 4
  else
    let level := x.level + 1
    let gen := s.slotGen x slot + 1
    let x := { x with level, posted := x.posted ||| (1 <<< slot)
                      stamps := joinStamps x.stamps c.relTs }
    let s := ({ s with sheets := Map.put s.sheets h x }.writeSlot h x slot level gen payload).always c.party 4
    ((s.acquireBoard k x).onCrew k fun c => (c.setK kn x.view).setS sd (level.zeroExtend 64)).wakeNext k id

def execShlv (_st : BitVec 4) (k : BitVec 2) (sd : SReg) (board : BitVec 8) (s : State) : Out :=
  match s.board s.cur board.toNat with
  | none => .next (s.trap 0x0D (sheetDetail 1 board.toNat))
  | some (_, x) =>
    ((s.acquireBoard s.cur x).always s.me.party 1).done fun c => (c.setK k.toNat x.view).setS sd (x.epoch ++ x.level)

def execShrs (_st : BitVec 4) (sd : SReg) (board : BitVec 8) (s : State) : Out :=
  s.shared .crew fun s =>
    match s.board s.cur board.toNat with
    | none => .next (s.trap 0x0D (sheetDetail 1 board.toNat))
    | some (h, x) =>
      let y : SheetHome := { x with reqs := x.reqs ++ [⟨s.cur, .reset sd⟩] }
      .next (({ s with sheets := Map.put s.sheets h y }.pushLate (.sheetHomePost h)).waitMe .sheet)

/-- The reset of a board at its home, as one event (R244). -/
def State.homeReset (s : State) (h : Nat) (k : Nat) (sd : SReg) : State :=
  let x := Map.get {} s.sheets h
  let c := s.crew k
  if !(x.en && x.ctx.toNat == c.ctx) then
    (s.snapshotOf k { c with phase := .running }).trapCrew k (trapRec c 0x0D (sheetDetail 1 (s.local_ 256 h)) 0 0 false)
  else
    let y := { x with level := 0, posted := 0, epoch := x.epoch + 1 }
    let s := (List.range (x.slots.toNat + 1)).foldl (fun s i => s.writeSlot h { x with stamps := [] } i 0 0 0) s
    { s with sheets := Map.put s.sheets h y }.wakeNext k fun c => c.setS sd (y.epoch.zeroExtend 64)

end Sys2Proof.Machine
end

