-- ==== Sys2Proof/Machine/Checker.lean ====
section
/-! DEFINITION. The home checkers (R269 to R273, R276, R376). -/

namespace Sys2Proof.Machine

/-- Whether a crew covers a store in an interval: its release waits for the interval's clearance. -/
def Crew.covers (c : Crew) (r : IvalRef) : Bool :=
  c.ivals.any fun i => i.line == r.line && i.num == r.num && overlaps i.f i.l r.f r.l

/-- The release at .dev or .sys that a crew issued before a clk and has not completed: its scope, and the clk of the instruction that
it belongs to where that is held. -/
def Crew.waitScope (c : Crew) (clk : Nat) : Option (Scope × Option Nat) :=
  match c.held.find? fun h => (h.rel == some .dev || h.rel == some .sys) && h.at_ < clk with
  | some h => h.rel.map fun sc => (sc, some h.at_)
  | none => if clk ≤ c.blockedSince then none else match c.phase with
    | .waiting (.release .dev) => some (.dev, none)
    | .waiting (.release .sys) => some (.sys, none)
    | _ => none
def Crew.waitCode (c : Crew) (clk : Nat) : Nat := match c.waitScope clk with | some x => Scope.code x.1 | none => 0

/-- Whether two references name one interval of words in common. -/
def IvalRef.meets (i r : IvalRef) : Bool := i.line == r.line && i.num == r.num && overlaps i.f i.l r.f r.l

/-- Takes an interval out of what is waited for, by crews and by those that acquire an engine's writes later. -/
def State.clearIval (s : State) (r : IvalRef) : State :=
  let cmd := fun (c : EngCmd) => if c.ivals.isEmpty then c else { c with ivals := c.ivals.filter fun i => !i.meets r }
  let kept := fun (l : List (Nat × IvalRef)) => l.filter fun i => !i.2.meets r
  { s with
    crews := s.crews.map fun (kc : Nat × Crew) =>
      if kc.2.covers r then (kc.1, { kc.2 with ivals := kc.2.ivals.filter fun i => !i.meets r }) else kc
    cores := s.cores.map fun (c : Nat × Core) => (c.1, { c.2 with
      copyQ := c.2.copyQ.map cmd, setBacks := c.2.setBacks.map fun b => { b with ivals := kept b.ivals } })
    parties := s.parties.map fun (p : Nat × Party) => (p.1, { p.2 with
      plates := p.2.plates.map fun x => { x with ivals := kept x.ivals } }) }

/-- The counter of a violation kind (R383). -/
def MemCnt.count (m : MemCnt) (kind : Nat) : MemCnt :=
  match kind with
  | 2 => { m with ordv := satInc m.ordv }
  | 3 => { m with twow := satInc m.twow }
  | 4 => { m with hashv := satInc m.hashv }
  | 5 => { m with mergv := satInc m.mergv }
  | _ => { m with lost := satInc m.lost }

/-- A containment domain stops: its harts halt, and what its cores hold in M is written back; the sectors of a failed interval are
poisoned before (R353). -/
def State.haltDomain (s : State) (dom : Nat) : State :=
  let cores := (List.range 48).filter fun c => (Map.get ({} : SbxCtl) s.sbx c).dom.toNat == dom
  let s := cores.foldl (fun s c =>
    let s := { s with sbx := Map.modify {} s.sbx c fun x => { x with halted := true } }
    (s.dir.filter fun d => Map.find? d.st (8 + c) == some DirSt.m || Map.find? d.st (8 + c) == some DirSt.o).foldl
      (fun s d => s.giveUp (8 + c) d.line d.f d.l) s) s
  let cause : W64 := (Config.containCause s.free).zeroExtend 64
  ((s.fresh).report { src := 6, detail := cause, ctx := 0xFFFF, agent := 63 }).report
    { src := 10, detail := BitVec.ofNat 64 dom, agent := 63 }

/-- One failed test at the home of a line (R273), of the intervals `rs`: it is counted and reported once, by the first of them, and a
crew's frame names the one that its release waits on. It stops the containment domains of the companion cores among the writers
(R353). -/
def State.violation (s : State) (kind line : Nat) (rs : List IvalRef) (writers : List Nat) : State :=
  let loc := 128 * line
  let pa := BitVec.ofNat 64 (locPa loc)
  let ref := fun (c : Crew) => rs.find? c.covers
  let waits := s.crews.filter fun kc => (ref kc.2).isSome && (Crew.waitScope kc.2 s.clk).isSome
  let widest := waits.foldl (fun m kc => max m (Crew.waitCode kc.2 s.clk)) 0
  let num := fun (r : Option IvalRef) => match r with | some x => x.num | none => 0
  let before := s
  let s := s.onMem (s.checkerOf (s.lineDev line) loc) fun m => m.count kind
  let s := (s.report { src := 5, addr := pa, detail := violDetail kind widest (num rs.head?), agent := 63 }).report
    { src := 6, addr := pa, detail := 7, agent := 63 }
  let s := s.poisonSectors (rs.flatMap fun r => (upFrom (r.f / 8) (r.l / 8 + 1 - r.f / 8)).map fun i => 4 * r.line + i)
  let trapped := waits.filter fun kc => (s.ctx kc.2.ctx).cchk && (s.ctx kc.2.ctx).hold
  let clk := s.clk
  let s := trapped.foldl (fun s kc =>
    let detail := violDetail kind (Crew.waitCode kc.2 clk) (num (ref kc.2))
    let rec_ := fun (c : Crew) => trapRec c 0x07 detail pa 0 false
    match Crew.waitScope kc.2 clk with
    | some (_, some t) => s.trapOlder kc.1 t rec_
    | _ => s.trapCrew kc.1 (rec_ kc.2)) s
  let cores := writers.filterMap fun a => if 8 ≤ a ∧ a < 56 then some (a - 8) else none
  let doms := (cores.map fun c => (Map.get ({} : SbxCtl) s.sbx c).dom.toNat).eraseDups
  before.oneEvent (rs.foldl State.clearIval (doms.foldl State.haltDomain s))

/-- The checker's entry for the span of a record. -/
def State.ival? (s : State) (line f l : Nat) : Option ChkIval := s.ivals.find? fun i => i.line == line && i.f == f && i.l == l

/-- The entry of a span takes the place of those that overlap it. -/
def State.putIval (s : State) (x : ChkIval) : State :=
  { s with ivals := (s.ivals.filter fun i => !(i.line == x.line && overlaps i.f i.l x.f x.l)) ++ [x] }

def ChkIval.ref (e : ChkIval) : IvalRef := ⟨e.line, e.f, e.l, e.num⟩

/-- The intervals of an entry that are closed and not cleared, with the clks of their close records. -/
def ChkIval.owes (e : ChkIval) : List (IvalRef × Nat) := e.owed ++ if e.closeHash.isSome then [(e.ref, e.closed)] else []

/-- The entry of the interval num that a record of agent a starts, with what earlier intervals still owe. -/
def ChkIval.start (r : ChkRec) (owed : List (IvalRef × Nat)) : ChkIval :=
  { line := r.line, f := r.f, l := r.l, num := r.num, writer := none, openHash := none, closeHash := none, closed := 0, owed }

/-- The entries of the spans that a merge-open record merges. -/
def ChkRec.merged (r : ChkRec) (s : State) : List ChkIval := r.parts.filterMap fun p => s.ival? p.line p.f p.l

/-- The test of a merge-open record (R271): the merged spans' close hashes and the words that none covered. -/
def State.mergeHash (s : State) (r : ChkRec) : W32 := (r.merged s).foldl (fun h x => h ^^^ x.closeHash.getD 0) r.rest

/-- A merge-open record names the interval after the greatest of the merged spans' (R264, R271). -/
def ChkRec.mergeNext (r : ChkRec) (s : State) : Bool :=
  let num := fun (p : IvalRef) => match s.ival? p.line p.f p.l with | some x => x.num | none => p.num
  r.num == r.parts.foldl (fun (n : BitVec 24) p => if n.toNat ≤ (num p).toNat then num p else n) 0 + 1

/-- The writer that a record names. -/
def ChkRec.writers (r : ChkRec) : List Nat := if r.wr then [r.agent] else []

/-- A merge-open record arrives: the merged intervals are cleared where it passes every test (R272). -/
def State.takeMerge (s : State) (r : ChkRec) : State :=
  let es := r.merged s
  let ws := es.filterMap (·.writer)
  let hashOk := s.mergeHash r == r.hash
  let nextOk := r.mergeNext s
  let owed := if hashOk && nextOk then [] else if hashOk then es.flatMap ChkIval.owes else es.flatMap (·.owed)
  let s := if nextOk then s else s.violation 2 r.line [⟨r.line, r.f, r.l, r.num⟩] (ws ++ r.writers)
  let s := if !hashOk then s.violation 5 r.line r.parts ws else if nextOk then r.parts.foldl State.clearIval s else s
  s.putIval { ChkIval.start r owed with writer := if r.wr then some r.agent else none, openHash := some r.hash }

/-- A record arrives at its home checker. -/
def State.takeRecord (s : State) (r : ChkRec) : State :=
  let me : IvalRef := ⟨r.line, r.f, r.l, r.num⟩
  match r.kind with
  | .mergeOpen => s.takeMerge r
  | .created => s.putIval (ChkIval.start r [])
  | kind =>
    let old : ChkIval := (s.ival? r.line r.f r.l).getD (ChkIval.start r [])
    if r.num ≠ old.num ∧ r.num ≠ old.num + 1 then
      (s.violation 2 r.line [me] r.writers).putIval { ChkIval.start r old.owes with
        writer := if r.wr then some r.agent else none
        openHash := if kind = .open_ then some r.hash else none
        closeHash := if kind = .close then some r.hash else none
        closed := s.clk }
    else
      let e := if r.num = old.num then old else ChkIval.start r old.owes
      let two := r.wr && e.writer.any (· != r.agent)
      let s := if two then s.violation 3 r.line [me] (e.writer.toList ++ [r.agent]) else s
      let e : ChkIval := if r.wr && !two then { e with writer := some r.agent } else e
      match kind with
      | .close => s.putIval { e with closeHash := some r.hash, closed := s.clk }
      | .open_ =>
        let prev := old.ref
        match (if old.num = r.num - 1 then old.closeHash else none) with
        | some h =>
          let e := { e with openHash := some r.hash }
          if h ≠ r.hash then (s.violation 4 r.line [prev] old.writer.toList).putIval { e with owed := old.owed }
          else if two then s.putIval e
          else (s.clearIval prev).putIval { e with owed := old.owed }
        | none => s.putIval { e with openHash := some r.hash }
      | _ => s.putIval e

/-- All records on their way reach their checkers, in the order sent (R271). -/
def State.flushRecs (s : State) : State := s.recs.foldl State.takeRecord { s with recs := [] }

end Sys2Proof.Machine
end

