-- ==== Sys2Proof/Machine/Instances.lean ====
section
/-! DEFINITION. Instances: counters and their completion (R33, R314, R315), trace entries (R359, R362), cancelling (R34,
R35), dirty maps as crews see them (R250, R365), and checkpoints as operations (R369). -/

namespace Sys2Proof.Machine

/-! ## Counters -/

/-- An instance's counter takes steps; the last one completes it. -/
def State.stepCounter (s : State) (n k : Nat) : State :=
  if k = 0 then s
  else
    let c := s.counter n
    let count := c.count + BitVec.ofNat 24 k
    let s := s.onCounter n fun c => { c with count }
    if count = c.endv ∧ c.done = false then s.push (.instanceComplete n) else s

/-- The word of a counter (R248). -/
def Counter.word (c : Counter) : W64 :=
  BitVec.ofNat 64 (c.done.toNat * 2 ^ 63 + c.canc.toNat * 2 ^ 62 + c.endv.toNat * 2 ^ 24 + c.count.toNat)

/-- An instance completes (R315), by a release of all its crews. Records of its crews' intervals reach their checkers before its
release completes. -/
def State.complete (s : State) (n : Nat) : State :=
  let s := s.flushRecs
  let c := s.counter n
  let s := s.onCounter n fun c => { c with done := true, canc := c.cancelReq, relaunching := false }
  let d := s.counter n
  let v := if c.level = .launch then c.cval else d.word
  let s :=
    if c.caddr = 0 then s
    else match s.devWrite c.ctx.toNat c.caddr (bytesOf 8 v.toNat) none c.stamps with
      | some s => s
      | none => s.report { src := 13, detail := BitVec.ofNat 64 n, ctx := c.ctx.toNat, agent := 57 }
  match c.parents with
  | [] => s
  | (_, p) :: _ => (s.onCounter p fun x => { x with stamps := joinStamps x.stamps d.stamps }).stepCounter p 1

/-! ## Trace entries (R358, R359, R362) -/

def Trace.bytes (t : Trace) : List Byte :=
  let rs := (List.range t.ranges.length).foldl (fun x i =>
    let r := t.ranges.getD i (0, 0)
    x + (r.2 % 2 ^ 20 * 2 ^ 40 + r.1 % 2 ^ 40) * 2 ^ (60 * i + 64)) 0
  bytesOf 128 (rs + 2 ^ 63 + t.whole.toNat * 2 ^ 62 + (if t.why = 0 then 0 else 2 ^ 61) + t.ranges.length * 2 ^ 56 +
    t.why.toNat * 2 ^ 50 + t.run.toNat)

/-- A write to the trace area of a retained launch, as agent 57; one that faults ends the retention (R358). -/
def State.writeTrace (s : State) (lctr place : Nat) (bs : List Byte) : State :=
  match (s.counter lctr).retained with
  | none => s
  | some r =>
    match s.devWrite (s.counter lctr).ctx.toNat (r.trace + BitVec.ofNat 64 (128 * place)) bs with
    | some s => s
    | none => s.onCounter lctr fun c => { c with retained := none }

/-- A party of a launch is discarded: it counts as done, and its entry has RAN = 0 (R34, R362). -/
def State.discardParty (s : State) (lctr num : Nat) : State :=
  (s.writeTrace lctr (num + 1) (List.replicate 128 0)).stepCounter lctr 1

/-! ## Cancelling (R34, R35) -/

def Level.code : Level → Nat
  | .party => 0 | .launch => 1 | .graph => 2 | .stage => 3 | .job => 4

/-- Whether a launch belongs to the instance of a level with counter n. -/
def State.inInstance (s : State) (lv : Level) (n lctr : Nat) : Bool :=
  match lv with
  | .party => false
  | .launch => lctr == n
  | lv => (s.counter lctr).parents.contains (lv, n)

/-- The instance of a level that contains a crew: a party, or a counter. -/
def State.instanceOf (s : State) (c : Crew) (lv : Level) : Option Nat :=
  match lv with
  | .party => some c.party
  | .launch => some c.lctr
  | lv => (List.find? (fun p : Level × Nat => p.1 == lv) (s.counter c.lctr).parents).map (·.2)

/-- Whether a packet belongs to a graph, stage or job. -/
def State.pktIn (s : State) (ctx : Nat) (d : BitVec 1024) (lv : Level) (n : Nat) : Bool :=
  match lv with
  | .graph => bit d 368 && s.phys ctx 4096 (bf d 332 12).toNat == n
  | .stage => bit d 369 && s.phys ctx 4096 (bf d 344 12).toNat == n
  | .job => bit d 370 && s.phys ctx 4096 (bf d 356 12).toNat == n
  | _ => false

/-- The instances that enclose a packet's launch, the innermost first. -/
def State.pktParents (s : State) (ctx : Nat) (d : BitVec 1024) : List (Level × Nat) :=
  (if bit d 368 then [(Level.graph, s.phys ctx 4096 (bf d 332 12).toNat)] else []) ++
  (if bit d 369 then [(Level.stage, s.phys ctx 4096 (bf d 344 12).toNat)] else []) ++
  (if bit d 370 then [(Level.job, s.phys ctx 4096 (bf d 356 12).toNat)] else [])

/-- The counters of a packet's enclosing instances: each steps the next (R33). -/
def State.linkParents : List (Level × Nat) → State → State
  | [], s => s
  | (lv, n) :: ps, s => State.linkParents ps (s.onCounter n fun c => { c with level := lv, parents := ps })

/-- A launch that is discarded before its dequeue counts as done in the instance that encloses it. -/
def State.discardPacket (s : State) (ctx : Nat) (d : BitVec 1024) : State :=
  match s.pktParents ctx d with
  | (lv, p) :: ps => (State.linkParents ((lv, p) :: ps) s).stepCounter p 1
  | [] => s

/-- Parties and packets of an instance that are not yet placed are discarded, and count as done. -/
def State.discardUnplaced (s : State) (lv : Level) (n : Nat) : State :=
  let inI := fun (l : Nat) => s.inInstance lv n l
  let waits := s.dies.flatMap fun d => d.2.waiting.filter fun w => inI w.lctr && w.restore.isNone
  let s := { s with dies := s.dies.map fun (d : Nat × Die) => (d.1, { d.2 with waiting := d.2.waiting.filter fun w => !(inI w.lctr && w.restore.isNone) }) }
  let s := waits.foldl (fun s w => s.discardParty w.lctr w.num) s
  let slots := s.slots.filter fun (x : LaunchSlot) => inI x.lctr
  let s := { s with slots := s.slots.filter fun (x : LaunchSlot) => !inI x.lctr }
  let rest : LaunchSlot → List Nat := fun x => (x.passed.map fun (p : Nat × W32) => p.1) ++ match x.parties with
    | some ps => ps.map fun (p : Nat × W32) => p.1
    | none => upFrom x.next ((s.counter x.lctr).endv.toNat - x.next)
  let s := slots.foldl (fun s x => (rest x).foldl (fun (s : State) p => s.discardParty x.lctr p) s) s
  let hit := fun (q : HwQueue) (p : Pkt) => bf p.data 0 4 == 0 && s.pktIn q.ctx.toNat p.data lv n
  let drops := s.queues.flatMap fun (q : Nat × HwQueue) => (q.2.pkts.filter (hit q.2)).map fun p => (q.2.ctx.toNat, p.data)
  let s := { s with queues := s.queues.map fun (q : Nat × HwQueue) => (q.1, { q.2 with pkts := q.2.pkts.filter fun p => !hit q.2 p }) }
  drops.foldl (fun (s : State) (d : Nat × BitVec 1024) => s.discardPacket d.1 d.2) s

/-- A blocked crew of a cancelled instance ends, as though it had executed `exit`. -/
def Crew.cancelWait (c : Crew) : Bool :=
  match c.phase with
  | .waiting (.queuePush ..) => true
  | .waiting (.queuePop ..) => true
  | .waiting (.barrier ..) => true
  | .waiting (.park ..) => true
  | _ => false

/-- Cancels an instance. A second cancel, or one of a completed instance, has no effect (R35). A cancel of a launch, or of what
encloses it, counts as a cancel of its parties too: the model's choice (log entry 34). -/
def State.cancelInstance (s : State) (lv : Level) (n : Nat) : State :=
  let noEffect := match lv with
    | .party => (s.party n).cancelled
    | _ => (s.counter n).done || (s.counter n).cancelReq
  if noEffect then s
  else
    let inI := fun (c : Crew) => if lv = .party then c.party == n else s.inInstance lv n c.lctr
    let inP := fun (k : Nat) (p : Party) => if lv = .party then k == n else s.inInstance lv n p.lctr
    let mark := fun (c : Crew) => { c with cancel := c.cancel ||| (1 <<< Level.code lv) }
    let hits := s.crews.filter fun kc => inI kc.2
    let s := if lv = .party then s else s.onCounter n fun c => { c with cancelReq := true }
    let s := { s with
      crews := s.crews.map fun kc => if inI kc.2 then (kc.1, mark kc.2) else kc
      parties := s.parties.map fun kp => if inP kp.1 kp.2 then (kp.1, { kp.2 with cancelled := true }) else kp
      saved := s.saved.map fun x => if inP 0 x.party && lv != .party then { x with crews := x.crews.map mark } else x
      savedHand := s.savedHand.map fun c => if lv != .party && inI c then mark c else c }
    let s := hits.foldl (fun s kc =>
      if kc.2.cancelWait then s.endAll kc.1 else s) s
    if lv = .party then s else s.discardUnplaced lv n

/-! ## Dirty maps (R250, R365) -/

/-- A map that the context owns. -/
def State.ownMap (s : State) (ctx m : Nat) : Option (Nat × DirtyMap) :=
  let n := s.phys ctx 256 m
  let x := Map.get {} s.dirtyMaps n
  if s.inShare 256 m && x.en && x.ctx.toNat == ctx then some (n, x) else none

/-- The dirty parcels of a map among parcels lo to hi: a parcel that it does not track counts. -/
def DirtyMap.count (m : DirtyMap) (lo hi : Nat) : Nat :=
  let base := m.base.toNat
  let last := base + m.len.toNat
  let tracked := (min hi last + 1) - max lo base
  (hi + 1 - lo) - tracked + (m.bits.filter fun p => lo ≤ p && p ≤ hi).length

/-- Sets a parcel's bit, the parcel named by location, in the maps that track it, but for the map of the writer's own launch. -/
def State.setDirty (s : State) (parcel : Nat) (lctr : Option Nat) : State :=
  { s with dirtyMaps := s.dirtyMaps.map fun km =>
      let own := match lctr with
        | some l => s.phys km.2.ctx.toNat 4096 km.2.lctr.toNat == l
        | none => false
      if s.tracks km.2 parcel && !own then (km.1, { km.2 with bits := insN (parcelOfLoc (4096 * parcel)) km.2.bits }) else km }

/-! ## Checkpoints (R369) -/

/-- The directory at a checkpoint's point: every modified span of the device is written back, and every span in M, O or
E becomes S at its holder. -/
def State.ckptSpans (s : State) (dev : Nat) : State :=
  (s.dir.filter fun d => s.devCovers dev (128 * d.line)).foldl (fun s d =>
    match d.owner with
    | none => s
    | some a =>
      let s := s.sendClose d
      let s := if Map.find? d.st a = some .e then s else s.pass (portOf d.line (some a)) d.line d.f d.l 63
      let s := (s.newSource d.line d.f d.l 63 d.holders).sendOpen d.line d.f d.l (d.num + 1) none
      let s := s.setDir d.line d.f d.l (some { d with st := Map.put d.st a .s, num := d.num + 1, writer := none })
      if a < 8 then s.onDie a fun x => { x with l2 := x.l2.map fun y =>
        if y.line = d.line ∧ y.f = d.f then { y with unclean := false } else y }
      else s) s

/-- A checkpoint starts, and fixes its point. Its completion is the next step, so no request arrives that it would hold. -/
def State.ckptStart (s : State) (dev : Nat) : State :=
  let s := { s with ckpt := Map.modify {} s.ckpt dev fun c => { c with busy := true } }
  let s := s.ckptSpans dev
  { s with agenda := .checkpointComplete dev :: s.agenda }

/-- The checkpoint completes: the next generation opens, and its crews go on with its number. -/
def State.ckptDone (s : State) (dev : Nat) : State :=
  let c := Map.get {} s.ckpt dev
  let num := c.num + 1
  let s := { s with ckpt := Map.put s.ckpt dev { c with busy := false, num, valid := true, overf := false, kept := [], timer := s.clk } }
  let waits := s.crews.filter fun kc => s.ctxDev kc.2.ctx == dev && match kc.2.phase with | .waiting (.checkpoint ..) => true | _ => false
  waits.foldl (fun s kc => match kc.2.phase with
    | .waiting (.checkpoint _ sd) => s.wakeNext kc.1 fun c => c.setS sd (num.zeroExtend 64)
    | _ => s) s

end Sys2Proof.Machine
end

