-- ==== Sys2Proof/Machine/System.lean ====
section
/-! DEFINITION. Device-side launches, cancelling, counters, relaunch requests, dirty maps, traps, handler returns,
checkpoints and service programs, as a crew issues them (R245 to R254). -/

namespace Sys2Proof.Machine

/-! ## Pushes (R300, R301, R302) -/

/-- A push to a queue's window; `ts` are the clocks of the release that a crew's push makes (R316, R391). -/
def State.pushQueue (q : Nat) (who : Pusher) (full : Bool) (data : BitVec 1024) (ts : Clocks) (s : State) : State :=
  let x := Map.get {} s.queues q
  if !full then { s with queues := Map.put s.queues q { x with part := true } }
  else
    let f := match who with
      | .driver => x.fate false true none
      | .companion ctx => x.fate true true (some ctx)
      | .crew k => x.fate true (s.crew k).priv (some (s.crew k).ctx)
    match f with
    | .ok => s.appendPkt q { data, age := s.clk, stamp := ts }
    | _ => { s with queues := Map.put s.queues q { x with ovf := true } }

/-- The pushes of crews' stores that wait at the queues are applied in the order of their crews, by die, core and slot (R302): those
up to a crew, or all. -/
def State.pushesUpTo (s : State) (upTo : Option Nat) : State :=
  let first := fun (p : PushReq) => match upTo with | some k => decide (p.crew ≤ k) | none => true
  if s.pushes.isEmpty then s
  else
    (sortBy (fun (p : PushReq) => p.crew) (s.pushes.filter first)).foldl
      (fun s p => s.pushQueue p.q (.crew p.crew) p.full p.data p.stamp) { s with pushes := s.pushes.filter fun p => !first p }

/-! ## Device-side launches (R245, R246) -/

/-- The status of one packet, once its push is tried: the state after it. -/
def State.pushPacket (s : State) (q : Nat) (loc : Nat) : State × Nat :=
  let c := s.me
  let n := s.phys c.ctx 64 q
  let x := Map.get {} s.queues n
  if !s.inShare 64 q then (s, 2)
  else match x.fate true c.priv (some c.ctx) with
    | .no => (s, 2)
    | f =>
      if (List.range 4).any fun i => s.isPoisoned (loc + 32 * i) then (s, 3)
      else if f = .full then (s, 1)
      else (s.appendPkt n { data := BitVec.ofNat 1024 (memNat s.mem loc 128), age := s.clk, stamp := s.me.relTs }, 0)

/-- Pushes packets in lane order; the first refusal refuses every later one: accepted lanes, its status and its lane. -/
def State.pushPackets (s : State) (q : Nat) (as : List Acc) : State × List Nat × Nat × Nat :=
  as.foldl (fun (r : State × List Nat × Nat × Nat) a =>
    if r.2.2.1 ≠ 0 then r
    else
      let (s, st) := r.1.pushPacket q a.loc
      if st = 0 then (s, r.2.1 ++ [a.lane], 0, 0) else (s, r.2.1, st, a.lane)) (s, [], 0, 0)

def execDlaunch (h : Hd) (sd : SReg) (vx : VReg) (q : BitVec 6) (s : State) : Out :=
  let c := s.me
  match s.checkAcc c.ctx .read 128 (laneReqs (c.gov h) fun l => c.vpl vx.toNat l) with
  | .bad cause d0 d1 ls => .next (s.trap cause d0 d1 ls)
  | .ok as => s.shared .dev fun s =>
    let (s, ok, st, first) := ((s.walks as false).pushesUpTo (some s.cur)).pushPackets q.toNat as
    s.done fun c => c.setS sd (BitVec.ofNat 64 ((maskL ok).toNat + st * 2 ^ 32 + first * 2 ^ 34))

def execSdlaunch (_st : BitVec 4) (sd sa : SReg) (q : BitVec 6) (s : State) : Out :=
  let c := s.me
  match s.checkAcc c.ctx .read 128 [(32, c.sv sa)] with
  | .bad cause d0 d1 ls => .next (s.trap cause d0 d1 ls)
  | .ok as => s.shared .dev fun s =>
    let (s, _, st, _) := ((s.walks as false).pushesUpTo (some s.cur)).pushPackets q.toNat as
    s.done fun c => c.setS sd (BitVec.ofNat 64 st)

/-! ## Cancel, counters and relaunch (R247 to R249) -/

def execCancel (_st : BitVec 4) (lv : Level) (s : State) : Out :=
  s.shared .crew fun s =>
    match s.instanceOf s.me lv with
    | some n => (s.onMe Crew.next).cancelInstance lv n |> .next
    | none => s.done id

/-- A counter of the context, by its device-local number. -/
def State.ownCounter (s : State) (ctx n : Nat) : Option Nat :=
  let p := s.phys ctx 4096 n
  if s.inShare 4096 n && (s.counter p).ctx.toNat == ctx then some p else none

def execCntrd (_st : BitVec 4) (sd sa : SReg) (s : State) : Out :=
  let c := s.me
  let s := s.always c.party 0
  match s.ownCounter c.ctx ((c.sv sa).toNat % 4096) with
  | none => s.done fun c => c.setS sd 0
  | some n =>
    let x := s.counter n
    (if x.done then s.acquireKept s.cur .dev x.stamps else s).done fun c => c.setS sd x.word

/-- A retained launch of the crew's context. -/
def State.ownRetained (s : State) (ctx n : Nat) : Option Nat :=
  match s.ownCounter ctx n with
  | some p => if (s.counter p).retained.isSome then some p else none
  | none => none

/-- Whether a relaunch of a launch runs, or waits in a queue as an `rlnch` pushed it (R249). -/
def State.relaunchPending (s : State) (ctx p : Nat) : Bool :=
  (s.counter p).relaunching || s.queues.any fun q =>
    devOfPair s.mode.mode (q.1 / devShare s.mode.mode 64) == s.ctxDev ctx && q.2.pkts.any fun x =>
      x.byRlnch && s.phys q.2.ctx.toNat 4096 (bf x.data 320 12).toNat == p

def execRlnch (_st : BitVec 4) (sd sa : SReg) (q : BitVec 6) (s : State) : Out :=
  s.shared .dev fun s =>
    let s := s.pushesUpTo (some s.cur)
    let c := s.me
    let n := (c.sv sa).toNat % 4096
    let qn := s.phys c.ctx 64 q.toNat
    let fate := if s.inShare 64 q.toNat then (Map.get {} s.queues qn).fate true c.priv (some c.ctx) else .no
    match s.ownRetained c.ctx n, fate with
    | none, _ => s.done fun c => c.setS sd 2
    | _, .no => s.done fun c => c.setS sd 2
    | some p, f =>
      if s.relaunchPending c.ctx p then s.done fun c => c.setS sd 3
      else if f = .full then s.done fun c => c.setS sd 1
      else (s.appendPkt qn { data := BitVec.ofNat 1024 (n * 2 ^ 320 + 1), age := s.clk, stamp := s.me.relTs,
                             byRlnch := true }).done fun c => c.setS sd 0

def execTrrec (_st : BitVec 4) (sd sa : SReg) (s : State) : Out :=
  s.shared .crew fun s =>
    let c := s.me
    match s.ownRetained c.ctx ((c.sv sa).toNat % 4096) with
    | none => s.done fun c => c.setS sd 2
    | some p =>
      if s.relaunchPending c.ctx p then s.done fun c => c.setS sd 3
      else (s.onCounter p fun x => { x with retained := none }).done fun c => c.setS sd 0

/-! ## Dirty maps (R250) -/

/-- Both forms first perform the crew's earlier accesses, as `fence.ar.dev` would. -/
def State.fenced (s : State) (sc : Scope) (k : State → Out) : Out :=
  s.shared sc fun s => k (s.acquire s.cur sc s.me.readWts s.me.readSeen)

def execDmclr (_st : BitVec 4) (sd : SReg) (m : BitVec 8) (s : State) : Out :=
  s.fenced .dev fun s =>
    match s.ownMap s.me.ctx m.toNat with
    | none => s.done fun c => c.setS sd 0xFFFFFFFFFFFFFFFF
    | some (n, x) =>
      let e := x.epoch + 1
      { s with dirtyMaps := Map.put s.dirtyMaps n { x with bits := [], epoch := e } }.done fun c => c.setS sd (e.zeroExtend 64)

def execDmq (_st : BitVec 4) (sd sa sb : SReg) (m : BitVec 8) (s : State) : Out :=
  s.fenced .dev fun s =>
    match s.ownMap s.me.ctx m.toNat with
    | none => s.done fun c => c.setS sd 0xFFFFFFFFFFFFFFFF
    | some (_, x) => s.done fun c =>
      let a := (c.sv sa).toNat
      let n := (c.sv sb).toNat
      c.setS sd (if n = 0 then 0 else BitVec.ofNat 64 (x.count (a / 4096) ((a + n - 1) / 4096)))

/-! ## Traps and handler returns (R251, R252, R326) -/

def execTrap (h : Hd) (code : BitVec 16) (lane : Bool) (s : State) : Out :=
  let c := s.me
  let g := c.gov h
  if g = 0 then s.done id
  else if lane then
    .next ((s.onMe Crew.next).sendLanes ((lanesOf g).map fun l => s.laneTag c { code } 0 l))
  else .next (s.trap 0x10 (code.zeroExtend 64) 0 g)

def execBrkpt (h : Hd) (code : BitVec 16) (s : State) : Out :=
  let g := s.me.gov h
  if g = 0 then s.done id else .next (s.trap 0x11 (code.zeroExtend 64) 0 g)

def execHret (_st : BitVec 4) (sa : SReg) (s : State) : Out :=
  if !s.me.priv then .next (s.trap 0x02)
  else
    let c := s.me
    let a := c.sv sa
    match s.checkAcc c.ctx .read 1 ((List.range 128).map fun i => (32, a + BitVec.ofNat 64 i)) with
    | .bad cause d0 d1 _ => .next (s.trap cause d0 d1)
    | .ok as => s.shared .crew fun s =>
      match as.find? fun x => s.isPoisoned x.loc with
      | some x => .next (s.trap 0x06 0 (x.va &&& ~~~(0x1F : W64)))
      | none => .next ((s.onMe Crew.next).hretFrame (ofBytes (as.map fun x => memGet s.mem x.loc)))

/-- What a handler lane gives back to its origin lane. -/
def LaneTag.give (t : LaneTag) (x : W64) (fl : Fl) (o : Crew) : Crew :=
  let m : W32 := 1 <<< t.lane
  let o := match t.dest, t.predDest with
    | some (n, true), _ => o.putVP n m fun _ => x
    | some (n, false), _ => o.putV n m fun _ => x.extractLsb' 0 32
    | none, some p => o.putP p m (if x.getLsbD 0 then m else 0)
    | none, none => o
  o.orLaneFl t.lane fl

def execLhret (_st : BitVec 4) (wide : Bool) (va vb : VReg) (s : State) : Out :=
  let c := s.me
  if c.kind ≠ .handler then .next (s.trap 0x10 0xFFFF 0 c.active)
  else s.ofHandler fun s =>
    let c := s.me
    let ls := (lanesOf c.active).filterMap fun l => (c.tags[l]?).map fun t => (l, t)
    let bad := ls.any fun x => match x.2.dest with | some (_, w) => w != wide | none => false
    if bad then .next (s.secondError s.cur (trapRec c 0x12 0 0 c.active false))
    else
      let s' := ls.foldl (fun (s : State) x =>
        s.laneBack x.2 (x.2.give (if wide then c.vpl va.toNat x.1 else (c.vl va.toNat x.1).zeroExtend 64)
          ((c.vl vb.toNat x.1).extractLsb' 0 5))) s
      .next (s'.endRun s.cur (c.exitLanes c.active))

/-! ## Checkpoints and service programs (R253, R254) -/

def execCkpt (_st : BitVec 4) (sd : SReg) (s : State) : Out :=
  if !s.me.priv then .next (s.trap 0x02)
  else s.fenced .sys fun s =>
    let dev := s.ctxDev s.me.ctx
    let c := Map.get {} s.ckpt dev
    if c.busy then .next (s.waitMe .settle)
    else .next ((s.waitMe (.checkpoint (c.num + 1) sd)).ckptStart dev)

/-- A header of a service image (R254) read as a number. -/
def svcAop (hd : Nat) : Option Rop :=
  match fld hd 128 8 with
  | 0 => some .add | 1 => some .min | 2 => some .max | 3 => some .and | 4 => some .or | 5 => some .xor | _ => none
def svcTy (hd : Nat) : Option Ty :=
  match fld hd 136 8 with
  | 2 => some (.int .i32) | 3 => some (.int .i64) | 6 => some (.int .n32) | 7 => some (.int .n64)
  | 9 => some (.flt .f32) | 10 => some (.flt .f64) | _ => none

/-- The parcels of a range in a context, none where a page is not mapped. -/
def State.parcelsOf (s : State) (ctx : Nat) (base : W64) (n : Nat) : Option (List Nat) :=
  (List.range n).foldr (fun i r =>
    let va := base + BitVec.ofNat 64 (4096 * i)
    match r, (if canonical va then s.walk ctx va else none) with
    | some ps, some lf => some (lf.pa va.toNat / 4096 :: ps)
    | _, _ => none) (some [])

/-- The outcome of an installation: a status, and the slot's new program. -/
def State.svcImage (s : State) (ctx : Nat) (va : W64) (key : Nat) : Nat × Option SvcSlot :=
  match s.devRead ctx va 64 with
  | none => (2, none)
  | some hb =>
    let hd := ofBytes hb
    let len := fld hd 160 32
    if va.toNat % 4096 ≠ 0 ∨ len % 8 ≠ 0 ∨ len < 8 ∨ 65536 < len then (2, none)
    else match s.devRead ctx (va + 64) (len + 64) with
      | none => (2, none)
      | some rest =>
        if !Config.signatureOk (hb ++ rest) then (1, none)
        else
          let n := fld hd 64 64
          let base := fld hd 0 64
          match svcAop hd, svcTy hd with
          | some aop, some ty =>
            if hd / 2 ^ 192 ≠ 0 ∨ fld hd 144 16 ≠ 0 ∨ n = 0 ∨ n % 4096 ≠ 0 ∨ base % 4096 ≠ 0 ∨ atomOk (.red aop) ty false = false then
              (2, none)
            else match s.parcelsOf ctx (BitVec.ofNat 64 base) (n / 4096) with
              | none => (2, none)
              | some ps =>
                let hits := fun (n : Nat) (x : SvcSlot) => n / 8 == key / 8 && n != key && ps.any fun p => x.parcels.contains p
                if (s.svc.any fun x => hits x.1 x.2) || s.svcReqs.any fun r => match r.install with
                    | some x => hits r.slot x
                    | none => false then (3, none)
                else
                  let code := (List.range (len / 8)).map fun i => BitVec.ofNat 64 (ofBytes ((rest.drop (8 * i)).take 8))
                  (0, some ⟨ctx, aop, ty, ps, code⟩)
          | _, _ => (2, none)

def execSvccfg (_st : BitVec 4) (sd sa : SReg) (slot : BitVec 3) (s : State) : Out :=
  if !s.me.priv then .next (s.trap 0x02)
  else s.shared .crew fun s =>
    let c := s.me
    let key := 8 * s.ctxDev c.ctx + slot.toNat
    let va := c.sv sa
    let (st, inst) := if va = 0 then (0, none) else s.svcImage c.ctx va key
    let r : SvcReq := ⟨s.cur, key, BitVec.ofNat 64 st, inst, va == 0⟩
    .next ({ s with svcReqs := s.svcReqs ++ [r] }.waitMe (.service sd))

/-- Every service crew of the device has applied a crew's change. -/
def State.svcDone (s : State) (k : Nat) : State :=
  match s.svcReqs.find? fun r => r.crew == k with
  | none => s
  | some r =>
    let svc := match r.install with
      | some x => Map.put s.svc r.slot x
      | none => if r.remove then Map.erase s.svc r.slot else s.svc
    let s := { s with svc, svcReqs := s.svcReqs.filter fun x => x.crew != k }
    match (s.crew k).phase with
    | .waiting (.service sd) => s.wakeNext k fun c => c.setS sd r.result
    | _ => s

end Sys2Proof.Machine
end

