-- ==== Sys2Proof/Machine/Hazards.lean ====
section
/-! DEFINITION. The registers that an instruction names, reads and writes, the latencies of R284, and the stall-count
test (R55, R284, R285). -/

namespace Sys2Proof.Machine

/-- What an instruction reads and writes, and its fixed latency, 0 for none (R284). -/
structure Use where
  rd : List Res
  wr : List Res
  lat : Nat
  deriving DecidableEq, Repr

def rS (r : SReg) : List Res := if r = 0 then [] else [.s r.toNat]
def rP (p : PReg) : List Res := if p = 0 then [] else [.p p.toNat]
def rG (h : Hd) : List Res := rP h.pg
def rV (wide : Bool) (v : VReg) : List Res := if wide then [.v v.toNat, .v (v.toNat + 1)] else [.v v.toNat]
def rI (i : Option VReg) : List Res := match i with | some v => rV false v | none => []
def rT (t : TReg) : List Res := [.t t.toNat]
/-- The lane flags that an operation on a type may raise: integers raise none (R109). -/
def rF (ty : Ty) : List Res := match ty with | .int _ => [] | _ => [.flagsLanes]
def rOp2 (b : Op2) : List Res := match b with | .reg sb => rS sb | .imm _ => []

/-- The operand of a returning atomic stands in the register, or the pair, after VD (R187). -/
def rAfter (ty : Ty) (vd : VReg) : List Res := if ty.wide then [.v (vd.toNat + 2), .v (vd.toNat + 3)] else [.v (vd.toNat + 1)]

/-- The table of R284. Flags in a lane count only towards `rdsr` and `wrsr` of %flags. -/
def useOf : Instr → Use
  | .sadd _ _ sd sa b => ⟨rS sa ++ rOp2 b, rS sd, 1⟩
  | .ssub _ _ sd sa b => ⟨rS sa ++ rOp2 b, rS sd, 1⟩
  | .smul _ _ sd sa b => ⟨rS sa ++ rOp2 b, rS sd, 4⟩
  | .smulh _ _ sd sa b => ⟨rS sa ++ rOp2 b, rS sd, 4⟩
  | .sdiv _ _ sd sa b => ⟨rS sa ++ rOp2 b, rS sd, 20⟩
  | .srem _ _ sd sa b => ⟨rS sa ++ rOp2 b, rS sd, 20⟩
  | .sand _ _ sd sa b => ⟨rS sa ++ rOp2 b, rS sd, 1⟩
  | .sor _ _ sd sa b => ⟨rS sa ++ rOp2 b, rS sd, 1⟩
  | .sxor _ _ sd sa b => ⟨rS sa ++ rOp2 b, rS sd, 1⟩
  | .sandn _ _ sd sa b => ⟨rS sa ++ rOp2 b, rS sd, 1⟩
  | .sshl _ _ sd sa b => ⟨rS sa ++ rOp2 b, rS sd, 1⟩
  | .sshr _ _ sd sa b => ⟨rS sa ++ rOp2 b, rS sd, 1⟩
  | .ssra _ _ sd sa b => ⟨rS sa ++ rOp2 b, rS sd, 1⟩
  | .smin _ _ sd sa b => ⟨rS sa ++ rOp2 b, rS sd, 1⟩
  | .smax _ _ sd sa b => ⟨rS sa ++ rOp2 b, rS sd, 1⟩
  | .scmp _ _ sd sa b => ⟨rS sa ++ rOp2 b, rS sd, 1⟩
  | .ssel _ sd sc sa sb => ⟨rS sc ++ rS sa ++ rS sb, rS sd, 1⟩
  | .sli _ _ sd _ => ⟨[], rS sd, 1⟩
  | .slih _ sd sa _ => ⟨rS sa, rS sd, 1⟩
  | .smov _ sd sa => ⟨rS sa, rS sd, 1⟩
  | .sclz _ _ sd sa => ⟨rS sa, rS sd, 1⟩
  | .spopc _ _ sd sa => ⟨rS sa, rS sd, 1⟩
  | .sbfx _ _ sd sa sb => ⟨rS sa ++ rS sb, rS sd, 1⟩
  | .sbfi _ sd sa sb => ⟨rS sa ++ rS sb ++ rS sd, rS sd, 1⟩
  | .sext _ _ sd sa => ⟨rS sa, rS sd, 1⟩
  | .sld _ _ _ sd sb _ => ⟨rS sb, rS sd, 0⟩
  | .sst _ _ _ sa sb _ => ⟨rS sa ++ rS sb, [], 0⟩
  | .sprf _ sb _ => ⟨rS sb, [], 0⟩
  | .brc _ _ sa sb _ => ⟨rS sa ++ rS sb, [], 0⟩
  | .brz _ sa _ => ⟨rS sa, [], 0⟩
  | .brnz _ sa _ => ⟨rS sa, [], 0⟩
  | .brx _ sa _ => ⟨rS sa, [], 0⟩
  | .callx _ _ sa => ⟨rS sa, [], 0⟩
  | .exit h => ⟨rG h, [], 0⟩
  | .vbr h _ => ⟨rG h, [], 0⟩
  | .vbrx h va => ⟨rG h ++ rV true va, [], 0⟩
  | .pany _ sd p => ⟨rP p, rS sd, 2⟩
  | .pall _ sd p => ⟨rP p, rS sd, 2⟩
  | .pcnt _ sd p => ⟨rP p, rS sd, 2⟩
  | .pffs _ sd p => ⟨rP p, rS sd, 2⟩
  | .pget _ sd p => ⟨rP p, rS sd, 2⟩
  | .rdsrScalar _ sd r => ⟨if r = .flags then [.flagsCt] else [], rS sd, 2⟩
  | .rdsrVector h vd r => ⟨rG h ++ if r = .flags then [.flagsLanes] else [], rV r.wide vd, 2⟩
  | .wrsrScalar _ r sb => ⟨rS sb, if r = .flags then [.flagsCt] else [], 0⟩
  | .wrsrVector h va => ⟨rG h ++ rV false va, [.flagsLanes], 0⟩
  | .rdtime _ sd => ⟨[], rS sd, 0⟩
  | .vadd h ty _ vd va vb => ⟨rG h ++ rV ty.wide va ++ rV ty.wide vb, rV ty.wide vd, 2⟩
  | .vsub h ty _ vd va vb => ⟨rG h ++ rV ty.wide va ++ rV ty.wide vb, rV ty.wide vd, 2⟩
  | .vmul h ty _ vd va vb => ⟨rG h ++ rV ty.wide va ++ rV ty.wide vb, rV ty.wide vd, 4⟩
  | .vmulh h ty vd va vb => ⟨rG h ++ rV ty.wide va ++ rV ty.wide vb, rV ty.wide vd, 4⟩
  | .vdiv h ty _ vd va vb => ⟨rG h ++ rV ty.wide va ++ rV ty.wide vb, rV ty.wide vd, 24⟩
  | .vrem h ty vd va vb => ⟨rG h ++ rV ty.wide va ++ rV ty.wide vb, rV ty.wide vd, 24⟩
  | .vand h ty vd va vb => ⟨rG h ++ rV ty.wide va ++ rV ty.wide vb, rV ty.wide vd, 2⟩
  | .vor h ty vd va vb => ⟨rG h ++ rV ty.wide va ++ rV ty.wide vb, rV ty.wide vd, 2⟩
  | .vxor h ty vd va vb => ⟨rG h ++ rV ty.wide va ++ rV ty.wide vb, rV ty.wide vd, 2⟩
  | .vandn h ty vd va vb => ⟨rG h ++ rV ty.wide va ++ rV ty.wide vb, rV ty.wide vd, 2⟩
  | .vshl h ty vd va vb => ⟨rG h ++ rV ty.wide va ++ rV ty.wide vb, rV ty.wide vd, 2⟩
  | .vshr h ty vd va vb => ⟨rG h ++ rV ty.wide va ++ rV ty.wide vb, rV ty.wide vd, 2⟩
  | .vsra h ty vd va vb => ⟨rG h ++ rV ty.wide va ++ rV ty.wide vb, rV ty.wide vd, 2⟩
  | .vrot h ty vd va vb => ⟨rG h ++ rV ty.wide va ++ rV ty.wide vb, rV ty.wide vd, 2⟩
  | .vmin h ty vd va vb => ⟨rG h ++ rV ty.wide va ++ rV ty.wide vb, rV ty.wide vd, 2⟩
  | .vmax h ty vd va vb => ⟨rG h ++ rV ty.wide va ++ rV ty.wide vb, rV ty.wide vd, 2⟩
  | .vaddImm h ty vd va _ => ⟨rG h ++ rV ty.wide va, rV ty.wide vd, 2⟩
  | .vandImm h ty vd va _ => ⟨rG h ++ rV ty.wide va, rV ty.wide vd, 2⟩
  | .vorImm h ty vd va _ => ⟨rG h ++ rV ty.wide va, rV ty.wide vd, 2⟩
  | .vxorImm h ty vd va _ => ⟨rG h ++ rV ty.wide va, rV ty.wide vd, 2⟩
  | .vshlImm h ty vd va _ => ⟨rG h ++ rV ty.wide va, rV ty.wide vd, 2⟩
  | .vshrImm h ty vd va _ => ⟨rG h ++ rV ty.wide va, rV ty.wide vd, 2⟩
  | .vsraImm h ty vd va _ => ⟨rG h ++ rV ty.wide va, rV ty.wide vd, 2⟩
  | .vmad h ty vd va vb vc => ⟨rG h ++ rV ty.wide va ++ rV ty.wide vb ++ rV ty.wide vc, rV ty.wide vd, 4⟩
  | .vabs h ty _ vd va => ⟨rG h ++ rV ty.wide va, rV ty.wide vd, 2⟩
  | .vclz h ty vd va => ⟨rG h ++ rV ty.wide va, rV ty.wide vd, 2⟩
  | .vpopc h ty vd va => ⟨rG h ++ rV ty.wide va, rV ty.wide vd, 2⟩
  | .vbrev h ty vd va => ⟨rG h ++ rV ty.wide va, rV ty.wide vd, 2⟩
  | .vbfx h _ vd va vb => ⟨rG h ++ rV false va ++ rV false vb, rV false vd, 2⟩
  | .vbfi h vd va vb vc => ⟨rG h ++ rV false va ++ rV false vb ++ rV false vc, rV false vd, 2⟩
  | .vsel h ty pc vd va vb => ⟨rG h ++ rP pc ++ rV ty.wide va ++ rV ty.wide vb, rV ty.wide vd, 2⟩
  | .vmov h ty vd va => ⟨rG h ++ rV ty.wide va, rV ty.wide vd, 2⟩
  | .vli h ty vd _ => ⟨rG h, rV ty.wide vd, 2⟩
  | .vcmp h _ ty pd va vb => ⟨rG h ++ rV ty.wide va ++ rV ty.wide vb, rP pd, 2⟩
  | .vclmul h vd va vb => ⟨rG h ++ rV false va ++ rV false vb, rV false vd, 4⟩
  | .vclmulh h vd va vb => ⟨rG h ++ rV false va ++ rV false vb, rV false vd, 4⟩
  | .vaddc h wide pc vd va vb => ⟨rG h ++ rP pc ++ rV wide va ++ rV wide vb, rV wide vd ++ rP pc, 4⟩
  | .vfadd h _ ty vd va vb => ⟨rG h ++ rV ty.wide va ++ rV ty.wide vb, rV ty.wide vd ++ [.flagsLanes], if ty.wide then 8 else 4⟩
  | .vfsub h _ ty vd va vb => ⟨rG h ++ rV ty.wide va ++ rV ty.wide vb, rV ty.wide vd ++ [.flagsLanes], if ty.wide then 8 else 4⟩
  | .vfmul h _ ty vd va vb => ⟨rG h ++ rV ty.wide va ++ rV ty.wide vb, rV ty.wide vd ++ [.flagsLanes], if ty.wide then 8 else 4⟩
  | .vfmin h ty vd va vb => ⟨rG h ++ rV ty.wide va ++ rV ty.wide vb, rV ty.wide vd ++ [.flagsLanes], if ty.wide then 8 else 4⟩
  | .vfmax h ty vd va vb => ⟨rG h ++ rV ty.wide va ++ rV ty.wide vb, rV ty.wide vd ++ [.flagsLanes], if ty.wide then 8 else 4⟩
  | .vfmaF16 h _ vd va vb vc => ⟨rG h ++ rV false va ++ rV false vb ++ rV false vc, rV false vd ++ [.flagsLanes], 4⟩
  | .vfmaF32 h _ vd va vb vc => ⟨rG h ++ rV false va ++ rV false vb ++ rV false vc, rV false vd ++ [.flagsLanes], 4⟩
  | .vfmaF64 h _ vd va vb vc => ⟨rG h ++ rV true va ++ rV true vb ++ rV true vc, rV true vd ++ [.flagsLanes], 8⟩
  | .vfdiv h _ ty vd va vb => ⟨rG h ++ rV ty.wide va ++ rV ty.wide vb, rV ty.wide vd ++ [.flagsLanes], if ty.wide then 32 else 16⟩
  | .vfsqrt h _ ty vd va => ⟨rG h ++ rV ty.wide va, rV ty.wide vd ++ [.flagsLanes], if ty.wide then 32 else 16⟩
  | .vfrcp h ty vd va => ⟨rG h ++ rV ty.wide va, rV ty.wide vd ++ [.flagsLanes], 8⟩
  | .vfrsq h ty vd va => ⟨rG h ++ rV ty.wide va, rV ty.wide vd ++ [.flagsLanes], 8⟩
  | .vfexp2 h ty vd va => ⟨rG h ++ rV ty.wide va, rV ty.wide vd ++ [.flagsLanes], 8⟩
  | .vflog2 h ty vd va => ⟨rG h ++ rV ty.wide va, rV ty.wide vd ++ [.flagsLanes], 8⟩
  | .vfsin h ty vd va => ⟨rG h ++ rV ty.wide va, rV ty.wide vd ++ [.flagsLanes], 8⟩
  | .vfcos h ty vd va => ⟨rG h ++ rV ty.wide va, rV ty.wide vd ++ [.flagsLanes], 8⟩
  | .vfcmp h _ ty pd va vb => ⟨rG h ++ rV ty.wide va ++ rV ty.wide vb, rP pd ++ [.flagsLanes], if ty.wide then 8 else 4⟩
  | .vfcls h ty vd va => ⟨rG h ++ rV ty.wide va, rV false vd, if ty.wide then 8 else 4⟩
  | .vfrnd h _ ty vd va => ⟨rG h ++ rV ty.wide va, rV ty.wide vd ++ [.flagsLanes], if ty.wide then 8 else 4⟩
  | .vfdot h _ vd va vb => ⟨rG h ++ rV false va ++ rV false vb ++ rV false vd, rV false vd ++ [.flagsLanes], 6⟩
  | .vcvt h _ _ dst src vd va => ⟨rG h ++ rV src.wide va, rV dst.wide vd ++ (if rF dst ++ rF src = [] then [] else [.flagsLanes]), if dst = .flt .f64 ∨ src = .flt .f64 then 8 else 4⟩
  | .vpack h _ vd va => ⟨rG h ++ rV false va, rV false vd ++ [.flagsLanes], 6⟩
  | .vunpk h _ vd va => ⟨rG h ++ rV false va, rV false vd, 6⟩
  | .vshfl h _ vd va vb => ⟨rG h ++ rV false va ++ rV false vb, rV false vd, 4⟩
  | .vbcast h vd va _ => ⟨rG h ++ rV false va, rV false vd, 4⟩
  | .vred h _ ty _ vd va => ⟨rG h ++ rV ty.wide va, rV ty.wide vd ++ rF ty, 10⟩
  | .vscan h _ ty _ vd va => ⟨rG h ++ rV ty.wide va, rV ty.wide vd ++ rF ty, 10⟩
  | .vext _ wide sd va sb => ⟨rV wide va ++ rS sb, rS sd, 4⟩
  | .vins _ wide vd sa sb => ⟨rS sa ++ rS sb, rV wide vd, 4⟩
  | .vcompr h vd va => ⟨rG h ++ rV false va, rV false vd, 4⟩
  | .pand h pd pa pb => ⟨rG h ++ rP pa ++ rP pb, rP pd, 2⟩
  | .por h pd pa pb => ⟨rG h ++ rP pa ++ rP pb, rP pd, 2⟩
  | .pxor h pd pa pb => ⟨rG h ++ rP pa ++ rP pb, rP pd, 2⟩
  | .pnot h pd pa => ⟨rG h ++ rP pa, rP pd, 2⟩
  | .pmov h pd pa => ⟨rG h ++ rP pa, rP pd, 2⟩
  | .pset h pd sb => ⟨rG h ++ rS sb, rP pd, 2⟩
  | .kcnt _ sd k => ⟨[.k k.toNat], rS sd, 2⟩
  | .kffs _ sd k => ⟨[.k k.toNat], rS sd, 2⟩
  | .kbit _ sd k sa => ⟨.k k.toNat :: rS sa, rS sd, 2⟩
  | .kmvToVector _ vd k => ⟨[.k k.toNat], rV false vd, 4⟩
  | .kmvToMask _ k va => ⟨rV false va, [.k k.toNat], 4⟩
  | .vld h w _ v sb idx _ => ⟨rG h ++ rS sb ++ rI idx, rV (w == .d) v, 0⟩
  | .vst h w _ v sb idx _ => ⟨rG h ++ rS sb ++ rI idx ++ rV (w == .d) v, [], 0⟩
  | .vgth h w _ v sb idx _ => ⟨rG h ++ rS sb ++ rV true idx, rV (w == .d) v, 0⟩
  | .vsct h w _ v sb idx _ => ⟨rG h ++ rS sb ++ rV true idx ++ rV (w == .d) v, [], 0⟩
  | .vldp h w vd t sb idx _ => ⟨rG h ++ rT t ++ rS sb ++ rI idx, rV (w == .d) vd, 0⟩
  | .vstp h w va t sb idx _ => ⟨rG h ++ rT t ++ rS sb ++ rI idx ++ rV (w == .d) va, [], 0⟩
  | .vprf h _ sb idx _ => ⟨rG h ++ rS sb ++ rI idx, [], 0⟩
  | .sldp _ _ sd t sb _ => ⟨rT t ++ rS sb, rS sd, 0⟩
  | .vatom h _ ty _ _ _ vd sb idx => ⟨rG h ++ rS sb ++ rI idx ++ rV ty.wide vd ++ rAfter ty vd, rV ty.wide vd, 0⟩
  | .satom _ _ _ _ _ _ sd sa sb => ⟨rS sa ++ rS sb ++ rS sd, rS sd, 0⟩
  | .vredm h _ ty _ _ _ x sb idx => ⟨rG h ++ rS sb ++ rI idx ++ rV ty.wide x, [], 0⟩
  | .patom h _ ty _ _ _ vd t idx => ⟨rG h ++ rT t ++ rI idx ++ rV ty.wide vd ++ rAfter ty vd, rV ty.wide vd, 0⟩
  | .cflush _ _ sb _ => ⟨rS sb, [], 0⟩
  | .cinv _ _ sb _ => ⟨rS sb, [], 0⟩
  | .tres _ td _ _ stat => ⟨[], rT td ++ (match stat with | some r => rS r | none => []), 2⟩
  | .trel _ td => ⟨rT td, rT td, 0⟩
  | .tcfgPlate _ td sa => ⟨rS sa, rT td, 0⟩
  | .tcfgRegion _ ak sa => ⟨rS sa, [.a ak.toNat], 0⟩
  | .trd _ sa ta => ⟨rT ta, rS sa, 2⟩
  | .tstat _ sa sb => ⟨rS sb ++ (List.range 16).map Res.t, rS sa, 2⟩
  | .mma _ _ ak ta tb sa sb _ => ⟨.a ak.toNat :: rT ta ++ rT tb ++ rS sa ++ rS sb, [], 0⟩
  | .mmap _ _ ak ta tb sa sb _ => ⟨.a ak.toNat :: rT ta ++ rT tb ++ rS sa ++ rS sb, [], 0⟩
  | .mbatch _ sd => ⟨[], rS sd, 2⟩
  | .mwait _ sa => ⟨rS sa, [.flagsCt], 0⟩
  | .mpoll _ sd sa => ⟨rS sa, rS sd, 0⟩
  | .acld _ _ _ ak ta sa => ⟨.a ak.toNat :: rT ta ++ rS sa, [], 0⟩
  | .acst _ _ _ _ ak ta sa => ⟨.a ak.toNat :: rT ta ++ rS sa, [.flagsCt], 0⟩
  | .aczero _ ak => ⟨[.a ak.toNat], [], 0⟩
  | .acrd h _ vd ak sa => ⟨rG h ++ .a ak.toNat :: rS sa, rV false vd, 0⟩
  | .laycfg _ sd sa sb => ⟨rS sa ++ rS sb, rS sd, 2⟩
  | .cpy _ _ t sd sa sb _ => ⟨rT t ++ rS sd ++ rS sa ++ rS sb, [], 0⟩
  | .gth _ t sd sa sb _ => ⟨rT t ++ rS sd ++ rS sa ++ rS sb, [], 0⟩
  | .coll _ _ _ t sa sb _ => ⟨rT t ++ rS sa ++ rS sb, [], 0⟩
  | .bari _ _ sa => ⟨rS sa, [], 0⟩
  | .barv _ _ (.named sa) => ⟨rS sa, [], 0⟩
  | .barw _ _ sa => ⟨rS sa, [], 0⟩
  | .bart _ sd _ sa => ⟨rS sa, rS sd, 2⟩
  | .qcfg _ _ sa sb => ⟨rS sa ++ rS sb, [], 0⟩
  | .qpush _ _ sa => ⟨rS sa, [], 0⟩
  | .qpop _ sd _ => ⟨[], rS sd, 0⟩
  | .qtryPop _ sd _ => ⟨[], rS sd, 0⟩
  | .qtryPush _ sd _ sa => ⟨rS sa, rS sd, 0⟩
  | .qallow _ _ sa _ => ⟨rS sa, [], 0⟩
  | .watch _ _ _ sb _ => ⟨rS sb, [], 0⟩
  | .park _ sa => ⟨rS sa, [], 0⟩
  | .parkSt _ sd sa => ⟨rS sa, rS sd, 0⟩
  | .shpv _ k sd _ sa sb => ⟨rS sa ++ rS sb, .k k.toNat :: rS sd, 0⟩
  | .shlv _ k sd _ => ⟨[], .k k.toNat :: rS sd, 0⟩
  | .shrs _ sd _ => ⟨[], rS sd, 0⟩
  | .dlaunch h sd vx _ => ⟨rG h ++ rV true vx, rS sd, 0⟩
  | .sdlaunch _ sd sa _ => ⟨rS sa, rS sd, 0⟩
  | .cntrd _ sd sa => ⟨rS sa, rS sd, 2⟩
  | .rlnch _ sd sa _ => ⟨rS sa, rS sd, 0⟩
  | .trrec _ sd sa => ⟨rS sa, rS sd, 0⟩
  | .dmclr _ sd _ => ⟨[], rS sd, 0⟩
  | .dmq _ sd sa sb _ => ⟨rS sa ++ rS sb, rS sd, 0⟩
  | .trap h _ _ => ⟨rG h, [], 0⟩
  | .brkpt h _ => ⟨rG h, [], 0⟩
  | .hret _ sa => ⟨rS sa, [], 0⟩
  | .lhret _ wide va vb => ⟨rV wide va ++ rV false vb, [], 0⟩
  | .ckpt _ sd => ⟨[], rS sd, 0⟩
  | .svccfg _ sd sa _ => ⟨rS sa, rS sd, 0⟩
  | _ => ⟨[], [], 0⟩

/-- Whether an instruction names a window register at or past LIVE (R55). -/
def pastLive (i : Instr) (live : Nat) : Bool :=
  ((useOf i).rd ++ (useOf i).wr).any fun r => match r with | .v n => decide (live ≤ n) | _ => false

/-- Window registers are numbered by their logical register, which a slide of the window does not change. -/
def Crew.logical (c : Crew) (r : Res) : Res := match r with | .v n => .v (c.base.toNat + n) | r => r

/-- The lanes in which an instruction acts. -/
def Crew.actLanes (c : Crew) (i : Instr) : W32 := match i.hd? with | some h => c.gov h | none => c.active

/-- Whether an instruction depends on a result: it reads or writes a register that the result is written to (R284).
Two instructions that raise flags do not depend on each other. -/
def dependsOn (c : Crew) (i : Instr) (e : SbEntry) : Bool :=
  let u := useOf i
  let flagUse := match e.res with
    | .flagsLanes => (u.rd.contains .flagsLanes || (u.wr.contains .flagsLanes && u.lat == 0)) && (e.lanes &&& c.actLanes i) != 0
    | .flagsCt => u.rd.contains .flagsCt || (u.wr == [.flagsCt] && u.lat == 0)
    | _ => true
  flagUse && (u.rd ++ u.wr).any fun r => c.logical r == e.res

/-- The register kind and number of DETAIL0 for cause 0x08 (R285). -/
def resDetail (r : Res) : Nat :=
  match r with
  | .s n => 1 + 16 * n
  | .v n => 2 + 16 * n
  | .p n => 3 + 16 * n
  | .flagsCt => 4
  | .flagsLanes => 4
  | .k n => 5 + 16 * n
  | .t n => 6 + 16 * n
  | .a n => 6 + 16 * n

/-- The first stall-count violation of an instruction: its detail, and the clk in which its result is there. -/
def Crew.stallBad (c : Crew) (i : Instr) : Option (Nat × Nat) :=
  let short := c.sb.filter fun e => dependsOn c i e && e.sum < e.lat
  match short with
  | [] => none
  | e :: _ =>
    let r := match e.res with | .v n => Res.v (n - c.base.toNat) | r => r
    some (resDetail r + (e.lat - e.sum) * 2 ^ 16, short.foldl (fun m e => max m (e.at_ + e.lat)) 0)

/-- STALL of the crew's word (R83). -/
def stallOf (w : W64) : Nat := (bf w 52 4).toNat

/-- The scoreboard after an instruction issues in clk t. -/
def Crew.scored (c : Crew) (old : Crew) (i : Instr) (t : Nat) : Crew :=
  let n := 1 + stallOf old.word
  let u := useOf i
  let new := if u.lat = 0 then [] else u.wr.map fun r => (⟨old.logical r, t, u.lat, n, old.actLanes i⟩ : SbEntry)
  let kept := (c.sb.map fun e => { e with sum := e.sum + n }).filter fun e => e.sum < e.lat
  { c with sb := kept ++ new.filter fun e => e.sum < e.lat }

end Sys2Proof.Machine
end

