-- ==== Sys2Proof/Machine/Sequencer.lean ====
section
/-! DEFINITION. The sequencer of a crew and the choice of crews: blocks and frontiers (R22 to R29, R87, R88), window
moves (R288), issue (R280, R281), throttling (R282), and one step of a crew (R103 to R105, R285, R320). -/

namespace Sys2Proof.Machine

/-! ## The next block (R24, R25, R29) -/

/-- The lanes among which the next block is chosen: those of the innermost frame that have not returned. -/
def Crew.lanesIn (c : Crew) : W32 :=
  match c.frames with
  | [] => c.live
  | f :: _ => c.live &&& f.fmask &&& ~~~f.rmask

/-- The lowest pending block of the lanes of a mask. -/
def Crew.lowest (c : Crew) (m : W32) : Option W64 :=
  (minBy (fun x => x.2.toNat) (c.pend.filter fun x => m.getLsbD x.1)).map (·.2)

/-- R25: the lanes that wait at the lowest pending block run it together. -/
def Crew.choose (c : Crew) : Crew :=
  match c.lowest c.lanesIn with
  | none => c
  | some t =>
    let a := maskOf fun l => c.lanesIn.getLsbD l && Map.find? c.pend l == some t
    { c.clearPend a with active := a, pc := t, widx := 0 }

/-- Active lanes whose pending block is NONE. -/
def Crew.openLanes (c : Crew) : W32 := maskOf fun l => c.active.getLsbD l && (Map.find? c.pend l).isNone

def isHeader (w : W64) : Bool := bf w 56 8 == 0xFF

/-- Whether the block's last word falls through to a word that is not a header (R103 kind 2). -/
def State.fallBad (s : State) (k : Nat) (c : Crew) : Bool :=
  c.openLanes != 0 && match s.fetch k c.fallThrough with
    | .ok w => !isHeader w
    | .error _ => false

/-! ## Entering a block (R87, R88, R105, R288) -/

/-- Header checks of R88 that trap with kind 7. -/
def headerBad (h : W64) : Bool :=
  bf h 48 8 == 0 || bf h 0 6 != 0 || 2048 < hdrLive h ||
    (bf h 9 12 != 0 && bf h 7 2 != 2) || (bf h 7 2 == 2 && bf h 9 12 == 0)

/-- The logical register that a physical slot holds: at crew start slot i holds register i. -/
def Crew.holdsLog (c : Crew) (i : Nat) : Nat :=
  match Map.find? c.v i with
  | some x => x.log
  | none => i

/-- The registers of [base, base + live) that are not resident (R288). -/
def Crew.movesFor (c : Crew) (base live : Nat) : List Nat := (upFrom base live).filter fun n => c.holdsLog (n % c.alloc) != n

/-- The first address of a block's words that cannot be fetched: a page can only change at a word whose address begins
one. -/
def State.blockFault (s : State) (k : Nat) (pc : W64) (len : Nat) : Option (Nat × W64) :=
  (((upFrom 1 len).filter fun i => (pc.toNat + 8 * i) % 4096 < 8).filterMap fun i =>
    let a := pc + BitVec.ofNat 64 (8 * i)
    match s.fetch k a with
    | .ok _ => none
    | .error e => some (e, a))[0]?

/-- A trap at the entry of a block: word index 0. -/
def State.entryTrap (s : State) (k cause : Nat) (d0 d1 : W64) (word : W64) : State :=
  let c := s.crew k
  s.trapCrew k (trapRec { c with widx := 0, word } cause d0 d1 0 false)

/-! ## Spills and fills (R56, R288, R289): held like a store, and visible to the crew at once -/

/-- The locations of bytes in the crew's own area. -/
def State.ownLocs (s : State) (c : Crew) (va : W64) (n : Nat) (need : Need) : Option (List Nat) :=
  (List.range n).foldr (fun i r => match r, s.xlate c.ctx (va + BitVec.ofNat 64 i) need with
    | some ls, .ok pa => some (s.locOf c.ctx pa :: ls)
    | _, _ => none) (some [])

/-- Writes bytes to the crew's own area, none where one does not translate: a held effect (R287). The control region discards them
(R337). -/
def State.spillOut (s : State) (k : Nat) (va : W64) (bs : List Byte) (frame : Bool) : Option State :=
  let c := s.crew k
  (s.ownLocs c va bs.length .write).map fun ls =>
    s.onCrew k fun c => { c with held := c.held ++ [{ at_ := s.clk, eff := .spill ((ls.zip bs).filter fun x => !locCtl x.1) frame }] }

/-- Reads bytes of the crew's own area, its held writes first. -/
def State.fillIn (s : State) (k : Nat) (va : W64) (n : Nat) : Option (List Byte) :=
  let c := s.crew k
  (s.ownLocs c va n .read).map fun ls => ls.map fun l => (c.heldByte l).getD (memGet s.mem l)

/-- Writes the outermost record of a stack of nine to its place (R289); no word of the block runs before it is there (R142). -/
def State.spillFrame (s : State) (k : Nat) : Option State :=
  let c := s.crew k
  if c.frames.length ≤ 8 then some s
  else match c.frames.getLast? with
    | none => some s
    | some f =>
      let va := c.framePlace (c.depth - c.frames.length)
      (s.spillOut k va (bytesOf 64 f.nat) true).map fun s => s.onCrew k fun c => { c with frames := c.frames.dropLast }

/-- Reads back the records of popped frames that the core does not hold, and pops them too where their lanes are done; the
trap of a fill that fails (R56), or of a record whose RET is no header (R289). -/
def State.fillFrames (s : State) (k : Nat) : Nat → Except State State
  | 0 => .ok s
  | fuel + 1 =>
    let c := s.crew k
    if !c.frames.isEmpty || c.depth == 0 then .ok s
    else
      let va := c.framePlace (c.depth - 1)
      match s.fillIn k va 64 with
      | none => .error (s.entryTrap k 0x0C 1 va 0)
      | some bs =>
        match s.popFrames k { c with frames := [Frame.ofNat (ofBytes bs)] } 1 with
        | .error (cause, d0, d1) => .error (s.trapCrew k (trapRec c cause d0 d1 0 false))
        | .ok c' => (s.putCrew k c').fillFrames k fuel

/-- The entry of the block at pc, with the masks that the crew has: at its start, `first` = 0, or at the word `first` by a crew that
comes back into the block, which keeps the base that the block runs with (R149, R324). A move waits for what returning atomics owe
(R288). DESIGN CHOICE: of the header checks, LIVE above the allocation comes before those of kind 7 (log entry 74). -/
def State.enterBlock (s : State) (k first : Nat) : State :=
  let c := s.crew k
  match s.fetch k c.pc with
  | .error e => s.entryTrap k 0x05 (BitVec.ofNat 64 (e + 16)) c.pc 0
  | .ok w =>
    let s := s.fetched k c.pc
    let base : BitVec 17 := if first = 0 then c.baseNext else c.base.setWidth 17
    let len := (bf w 48 8).toNat
    let live := hdrLive w
    if c.pc.toNat % 8 ≠ 0 ∨ isHeader w = false then s.entryTrap k 0x03 1 c.pc w
    else match s.blockFault k c.pc len with
      | some (e, a) => s.entryTrap k 0x05 (BitVec.ofNat 64 (e + 16)) a 0
      | none =>
        if c.alloc < live then s.entryTrap k 0x01 6 0 w
        else if headerBad w ∨ len + 1 < first then s.entryTrap k 0x01 7 0 w
        else if 65535 < base.toNat + live then s.entryTrap k 0x0C 2 0 w
        else match s.spillFrame k with
          | none => s.entryTrap k 0x0C 1 (c.framePlace (c.depth - c.frames.length)) w
          | some s =>
            let s := s.fillBlock k c.pc len
            let c := s.crew k
            let ms := c.movesFor base.toNat live
            if !c.atoms.isEmpty && (!ms.isEmpty || base.setWidth 16 != c.base) then s.onCrew k fun c => { c with phase := .waiting .settle }
            else
              let c := { c with hdr := w, base := base.setWidth 16, widx := max first 1, moves := ms, blockedSince := s.clk }
              s.putCrew k { c with phase := if ms.isEmpty then .running else .moving }

/-- What a crew does between blocks, unless it traps while an older instruction still can (R191), or needs a register that a
returning atomic still owes: then it looks again in the next clk. -/
def State.unlessUnsettled (s : State) (k : Nat) (t : State) : State :=
  if (s.crew k).unsettled && ((t.crew k).phase == .trapped || (t.crew k).phase == .waiting .settle) then s else t

/-- BLOCK_ENTRY: the end of a block's run, and the entry of the next. -/
def execBlockEntry (k : Nat) (s : State) : Out :=
  let c := s.crew k
  let select := fun (s : State) => match s.fillFrames k 4097 with
    | .error t => t
    | .ok s => (s.putCrew k (s.crew k).choose).enterBlock k 0
  if !s.hasCrew k then .next s else match c.phase with
  | .running =>
    if c.widx ≤ c.len then .next s
    else if s.fallBad k c then
      .next (s.unlessUnsettled k ((s.snapshot k).trapCrew k (trapRec { c with widx := c.len } 0x03 2 c.fallThrough 0 true)))
    else
      .next (s.unlessUnsettled k (((s.snapshot k).putCrew k (c.setPend c.openLanes c.fallThrough).choose).enterBlock k 0))
  | .select => .next (s.unlessUnsettled k (select (s.snapshot k)))
  | .enter perf =>
    if c.frames.isEmpty && c.depth != 0 then .next (s.unlessUnsettled k (select (s.snapshot k)))
    else match s.fetch k c.pc with
    | .ok w =>
      if isHeader w && (bf w 48 8).toNat + perf.toNat < c.widx then .next ((s.snapshot k).entryTrap k 0x01 7 0 w)
      else .next ((s.snapshot k).enterBlock k c.widx)
    | .error _ => .next ((s.snapshot k).enterBlock k c.widx)
  | _ => .next s

/-- WINDOW_MOVE (R288): one register is spilled if it was written, and the next one filled. While a register is resident a
write of another agent to its spill place does not change it: R57 allows either value in each lane (log entry 70). -/
def execWindowMove (k : Nat) (s : State) : Out :=
  let c := s.crew k
  match c.moves with
  | [] => .next (if c.phase = .moving then s.putCrew k { c with phase := .running } else s)
  | n :: ms =>
    let place := fun (l : Nat) => c.spill + BitVec.ofNat 64 (128 * l)
    let old := c.holdsLog (n % c.alloc)
    let bad := fun (va : W64) => (Host.Outcome.next : State → Out)
      (((s.snapshot k).onCrew k fun c => { c with moves := [] }).entryTrap k 0x0C 1 va c.hdr)
    let s' : Option State := match Map.find? c.v (n % c.alloc) with
      | some x => if x.dirty then s.spillOut k (place old) (x.row.flatMap fun y => bytesOf 4 y.toNat) false else some s
      | none => some s
    match s' with
    | none => bad (place old)
    | some s =>
      match s.fillIn k (place n) 128 with
      | none => bad (place n)
      | some bs =>
        let row := mkRow fun l => BitVec.ofNat 32 (ofBytes ((bs.drop (4 * l)).take 4))
        .next (s.onCrew k fun c => { c with
          v := Map.put c.v (n % c.alloc) ⟨n, false, row⟩
          moves := ms
          phase := if ms.isEmpty then .running else .moving
          readyAt := if ms.isEmpty then max c.readyAt (s.clk + 1) else c.readyAt
          readySince := if ms.isEmpty then s.clk else c.readySince })

/-! ## Issue (R280 to R283) -/

/-- Whether a pre-emption holds a crew at its instruction boundary (R331). -/
def State.frozen (s : State) (c : Crew) : Bool :=
  s.preempt.busy && !s.preempt.restoring && s.preempt.nowCtx.toNat == c.ctx && c.kind != .test

/-- The next instruction word of a running crew. -/
def State.nextInstr (s : State) (k : Nat) (c : Crew) : Option Instr :=
  match s.fetch k (c.pc + BitVec.ofNat 64 (8 * c.widx)) with
  | .ok w => match decode w with
    | .ok i => some i
    | .error _ => none
  | .error _ => none

/-- The memory instructions that throttling holds (R282). -/
def isThrottled : Instr → Bool
  | .sld .. => true | .sst .. => true | .sprf .. => true | .vld .. => true | .vst .. => true | .vgth .. => true
  | .vsct .. => true | .vprf .. => true | .vatom .. => true | .satom .. => true | .vredm .. => true | _ => false

/-- Instructions whose effects wait in the commit buffer (R287): stores and requests, plate writes, and effects in shared
objects. -/
def makesHeld : Instr → Bool
  | .sst .. => true | .vst .. => true | .vsct .. => true | .vstp .. => true | .vatom .. => true | .satom .. => true
  | .vredm .. => true | .patom .. => true | .cflush .. => true | .cinv .. => true
  | .bari .. => true | .barv .. => true | .bard .. => true | .qcfg .. => true | .qpush .. => true | .qpop .. => true
  | .qtryPop .. => true | .qtryPush .. => true | .qallow .. => true | .shpv .. => true | .shrs .. => true
  | .dlaunch .. => true | .sdlaunch .. => true | .cancel .. => true | .rlnch .. => true | .trrec .. => true | .dmclr .. => true
  | .tres .. => true | .trel .. => true | .mma .. => true | .mmap .. => true | .acld .. => true | .acst .. => true
  | .aczero .. => true | .cpy .. => true | .gth .. => true | .coll .. => true | .hret .. => true | .lhret .. => true
  | .ckpt .. => true | .svccfg .. => true | .mwait .. => true | _ => false

/-- Instructions that a crew does not issue while an earlier one can still trap: what they do cannot be discarded (R320). -/
def needsSettled : Instr → Bool
  | .barw .. => true | .qpop .. => true | .park .. => true | .parkSt .. => true | .mwait .. => true
  | i => makesHeld i && match i with
    | .sst .. => false | .vst .. => false | .vsct .. => false | .vstp .. => false | .vatom .. => false | .satom .. => false
    | .vredm .. => false | .patom .. => false | .cflush .. => false | .cinv .. => false | _ => true

/-- Instructions that read or write memory or a plate: they follow an earlier acquire (R60). -/
def accesses : Instr → Bool
  | .sld .. => true | .vld .. => true | .vgth .. => true | .vldp .. => true | .sldp .. => true
  | .sst .. => true | .vst .. => true | .vsct .. => true | .vstp .. => true | .vatom .. => true | .satom .. => true
  | .vredm .. => true | .patom .. => true | .trd .. => true | .tstat .. => true | _ => false

/-- The registers that the values of a returning atomic go to, by logical number. -/
def AtomOp.regs (o : AtomOp) : List Res :=
  match o.dest with
  | .lanes vd wide => if wide then [.v vd, .v (vd + 1)] else [.v vd]
  | .scalar sd _ => rS sd

/-- Whether an instruction has to wait for earlier ones (R191, R284, R287): it depends on what a returning atomic will
write, it follows an acquire that has not happened, or nothing older may still trap when it acts. -/
def Crew.behind (c : Crew) (i : Instr) : Bool :=
  (c.atoms.any fun o => (o.acq.isSome && accesses i) ||
      o.regs.any fun r => ((useOf i).rd ++ (useOf i).wr).any fun x => c.logical x == r) ||
    (match i with | .fence _ o _ => (o == .acq || o == .ar) && !c.atoms.isEmpty | _ => needsSettled i && !c.drained)

/-- The crews of a partition. -/
def State.partCrews (s : State) (core part : Nat) : List (Nat × Crew) :=
  s.crews.filter fun kc => coreOfKey kc.1 == core && partOfSlot (slotOfKey kc.1) == part
def State.coreCrews (s : State) (core : Nat) : List (Nat × Crew) := s.crews.filter fun kc => coreOfKey kc.1 == core

/-- Whether throttling holds a crew's next instruction. -/
def State.throttleHolds (s : State) (k : Nat) (c : Crew) (i : Option Instr) : Bool :=
  (c.kind == .normal || c.kind == .notice) && c.throt && !c.admitted &&
    (match (s.core (coreOfKey k)).allowed with | some ks => !ks.contains (slotOfKey k) | none => false) &&
    (match i with | some i => isThrottled i | none => false)

/-- The commit buffer of a partition: 128 instructions with held effects. A crew that waits until its effect in a shared object
may take place holds one place (R287). -/
def bufferFull (cs : List (Nat × Crew)) : Bool :=
  128 ≤ (cs.map fun kc => kc.2.held.length + match kc.2.phase with | .waiting (.release _) => 1 | _ => 0).sum

/-- Whether a frame record that the crew's block entry spills has still to reach memory (R142). -/
def Crew.frameOut (c : Crew) : Bool := c.held.any fun h => match h.eff with | .spill _ f => f | _ => false

/-- Whether a crew stands at a word that its stall count lets it issue. -/
def Crew.canRun (c : Crew) (clk : Nat) : Bool := c.phase == .running && c.readyAt ≤ clk && c.widx ≤ c.len && !c.frameOut

/-- Whether an instruction's own rule holds its crew back: a core's array order or the crew's batches have no room (R207, R210). -/
def State.roomHolds (s : State) (k : Nat) (c : Crew) (i : Instr) : Bool :=
  let core := coreOfKey k
  match i with
  | .mma .. => s.arrayFull core | .acld .. => s.arrayFull core | .acst .. => s.arrayFull core
  | .aczero .. => s.arrayFull core | .acrd .. => s.arrayFull core
  | .mmap .. => s.arrayFull core || s.arrayFull (core / 2 * 2 + (1 - core % 2))
  | .mbatch .. => 16 ≤ (c.closedB.filter fun b => !b.retired).length
  | _ => false

/-- Whether something other than the stall count or the scoreboard holds back the crew's next instruction (R280, R281). -/
def State.otherHolds (s : State) (k : Nat) (c : Crew) (full : Bool) (i : Option Instr) : Bool :=
  s.frozen c || s.throttleHolds k c i || match i with
    | some i => (full && makesHeld i) || s.roomHolds k c i || (needsSettled i && !c.drained)
    | none => false

/-- Whether the scoreboard lets a crew issue an instruction (R284, R285). -/
def Crew.scoreOk (c : Crew) (clk : Nat) (i : Instr) : Bool :=
  !c.behind i && (c.check || match c.stallBad i with | some (_, t) => t ≤ clk | none => true)

/-- The age of R280: the later of the clk in which the crew last became ready and the clk in which it last issued. -/
def Crew.age (c : Crew) : Nat := max c.readySince c.lastIssue

/-- The wait of R280, up to and including a clk. -/
def Crew.waited (c : Crew) (clk : Nat) : Nat := clk + 1 - max c.readySince (if c.lastIssue = 0 then 0 else c.lastIssue + 1)

/-- The order of the issue slots (R280): waits of 192 clk or more, greatest first, then oldest age; ties by the lower slot, in
whose order the list comes. -/
def issueOrder (clk : Nat) (cs : List (Nat × Crew)) : List Nat :=
  let long := cs.filter fun kc => decide (192 ≤ kc.2.waited clk)
  let rest := cs.filter fun kc => !decide (192 ≤ kc.2.waited clk)
  ((sortBy (fun (kc : Nat × Crew) => clk + 1 - kc.2.waited clk) long) ++ sortBy (fun (kc : Nat × Crew) => kc.2.age) rest).map (·.1)

/-- The place of a request among those of one clk: by die (R266), then pops and grants before pushes at a queue (R37, R236),
then by core and crew slot (R205). -/
def State.requestKey (s : State) (k : Nat) : Nat :=
  let cls := match s.nextInstr k (s.crew k) with
    | some (.qpop ..) => 0 | some (.qtryPop ..) => 0 | some (.qallow ..) => 0 | some (.qpush ..) => 2 | some (.qtryPush ..) => 2
    | _ => 1
  dieOfCore (coreOfKey k) * 2 ^ 40 + cls * 2 ^ 36 + k

/-- Crews chosen later join those chosen before, in the order of their requests. -/
def State.inRequestOrder (s : State) (old new : List Nat) : List Nat :=
  let keyed := fun (ks : List Nat) => ks.map fun k => (s.requestKey k, k)
  let ns := sortBy (fun (x : Nat × Nat) => x.1) (keyed new)
  match old.getLast?, ns with
  | some k, n :: _ =>
    if s.requestKey k ≤ n.1 then old ++ ns.map (·.2) else (sortBy (fun (x : Nat × Nat) => x.1) (keyed old ++ ns)).map (·.2)
  | _, _ => old ++ ns.map (·.2)

/-- ISSUE_SELECT: a partition chooses at most two ready crews; partition 5 of a cluster's core 0 gives its first slot
to a service crew that has requests. A crew whose word has issued and awaits its result takes no slot for it again. The crews chosen in
a clk act in the order of their requests. -/
def execIssueSelect (core part : Nat) (s : State) : Out :=
  let cs := s.partCrews core part
  let full := bufferFull cs
  let view := cs.map fun kc => (kc, if kc.2.canRun s.clk then s.nextInstr kc.1 kc.2 else none)
  let score := fun (x : (Nat × Crew) × Option Instr) => match x.2 with | some i => x.1.2.scoreOk s.clk i | none => true
  let again := fun (x : (Nat × Crew) × Option Instr) => x.1.2.again && x.1.2.canRun s.clk && !s.frozen x.1.2 && score x
  let held := fun (x : (Nat × Crew) × Option Instr) => !x.1.2.again && x.1.2.canRun s.clk && s.otherHolds x.1.1 x.1.2 full x.2
  let throttled := fun (x : (Nat × Crew) × Option Instr) => held x && s.throttleHolds x.1.1 x.1.2 x.2
  let ready := fun (x : (Nat × Crew) × Option Instr) => !x.1.2.again && x.1.2.canRun s.clk && !held x && score x
  let slots := if part = 5 ∧ core % 4 = 0 ∧ (Map.get [] s.svcq (core / 4)).isEmpty = false then 1 else 2
  let s' := view.foldl (fun (s : State) x => s.putCrew x.1.1 { x.1.2 with
    readySince := if ready x && x.1.2.wasHeld then s.clk
      else if ready x || (x.1.2.phase == .running && x.1.2.readySince == s.clk) then x.1.2.readySince else s.clk + 1
    wasHeld := held x
    heldSince := if x.1.2.phase ≠ .running then x.1.2.heldSince
      else if !throttled x then 0 else if x.1.2.heldSince = 0 then s.clk else x.1.2.heldSince }) s
  let chosen := (issueOrder s.clk ((view.filter fun x => ready x && !x.1.2.wasHeld).map (·.1))).take slots
  .next { s' with runq := s'.inRequestOrder s'.runq ((view.filter again).map (·.1.1) ++ chosen) }

/-- THROTTLE_RECOMPUTE: the allowed set, which every crew is in while fewer than N are resident. -/
def execThrottleRecompute (core : Nat) (s : State) : Out :=
  let cs := (s.coreCrews core).filter fun kc => slotOfKey kc.1 < 96
  let n := max 4 (96 - (cs.map fun kc => kc.2.score).sum / 32)
  let allowed := if cs.length < n then none
    else some (((sortBy (fun (kc : Nat × Crew) => kc.2.score * 128 + slotOfKey kc.1) cs).take n).map fun kc => slotOfKey kc.1)
  .next (s.onCore core fun c => { c with allowed })

/-- SCORE_HALVING. -/
def execScoreHalving (core : Nat) (s : State) : Out :=
  .next { s with
    crews := s.crews.map fun (kc : Nat × Crew) =>
      if coreOfKey kc.1 = core then (kc.1, { kc.2 with score := kc.2.score / 2 }) else kc }

/-- THROTTLE_ADMIT_TIMEOUT: a crew held for 2,048 clk has its next memory instruction admitted. -/
def execThrottleAdmitTimeout (k : Nat) (s : State) : Out :=
  let c := s.crew k
  if c.phase = .running ∧ c.heldSince ≠ 0 ∧ c.heldSince + 2048 ≤ s.clk then .next (s.putCrew k { c with admitted := true })
  else .next s

/-! ## One step of a crew -/

/-- The privileged forms of R102. -/
def privForm : Instr → Bool
  | .cinv .. => true | .hret .. => true | .ckpt .. => true | .svccfg .. => true
  | .wrsrScalar _ r _ => r.privileged
  | _ => false

/-- The instructions that end a test as failed (R381): global accesses, engine commands, and the synchronisation,
launch and system group but for `trap` and `brkpt`. -/
def testForbids : Instr → Bool
  | .sld .. => true | .sst .. => true | .sprf .. => true | .vld .. => true | .vst .. => true | .vgth .. => true
  | .vsct .. => true | .vprf .. => true | .vatom .. => true | .satom .. => true | .vredm .. => true
  | .cflush .. => true | .cinv .. => true | .cpy .. => true | .gth .. => true | .coll .. => true
  | .bari .. => true | .barv .. => true | .barw .. => true | .bard .. => true | .bart .. => true
  | .qcfg .. => true | .qpush .. => true | .qpop .. => true | .qtryPop .. => true | .qtryPush .. => true
  | .qallow .. => true | .watch .. => true | .park .. => true | .parkSt .. => true | .shpv .. => true
  | .shlv .. => true | .shrs .. => true | .dlaunch .. => true | .sdlaunch .. => true | .cancel .. => true
  | .cntrd .. => true | .rlnch .. => true | .trrec .. => true | .dmclr .. => true | .dmq .. => true
  | .hret .. => true | .lhret .. => true | .ckpt .. => true | .svccfg .. => true
  | .rdsrScalar .. => true | .rdsrVector .. => true | .wrsrScalar .. => true | .wrsrVector .. => true | .rdtime .. => true
  | _ => false

/-- A wait after which the same word is executed again from its start. -/
def Wait.retried : Wait → Bool
  | .load => true | .settle => true | .release _ => true | .batch _ => true | .batchRoom => true | .arrayRoom => true
  | .accumulator => true | _ => false

/-- A wait of a word that has issued. -/
def Wait.hasIssued : Wait → Bool
  | .batchRoom => false | .arrayRoom => false | w => w.retried

/-- Whether the word did its work: the crew does not execute it again. -/
def issued (old new : Crew) : Bool :=
  match new.phase with
  | .waiting w => !(w.retried && new.widx == old.widx)
  | .trapped => false
  | .halted => false
  | _ => true

/-- Timing and stall counts after a word has issued (R284); a word that awaits its result issued when it was first chosen. -/
def State.afterIssue (s : State) (k : Nat) (old : Crew) (i : Instr) : State :=
  let at_ := if old.again then old.lastIssue else s.clk
  if !s.hasCrew k then s
  else if issued old (s.crew k) then
    s.onCrew k fun c => { c.scored old i s.clk with
      readyAt := max c.readyAt (max (s.clk + 1) (at_ + 1 + stallOf old.word)), lastIssue := at_, heldSince := 0, admitted := false
      again := false, replayed := false }
  else match (s.crew k).phase with
    | .waiting w => if w.hasIssued then s.onCrew k fun c => { c with again := true, lastIssue := at_ } else s
    | _ => s

/-- What the word of a crew leaves, when older instructions may still trap, or it traps itself (R191, R320): a trap waits until
every older instruction has its result, and a strike may still discard it and what it found. -/
def State.settled (s0 s s' : State) (k : Nat) : State :=
  if !(s'.hasCrew k && ((s'.crew k).phase == .trapped || (s'.crew k).phase == .halted)) then s'
  else if (s.crew k).unsettled then s.onCrew k fun c => { c with phase := .waiting .settle, blockedSince := s.clk }
  else { s' with past := s'.past.filter (fun p => p.key != k) ++ s0.past.filter fun p => p.key == k }

/-- Executes a decoded word. `run` gives the meaning of an instruction. -/
def State.runWord (s : State) (run : Instr → State → Out) (k : Nat) (i : Instr) : Out :=
  let c := s.crew k
  match run i (s.snapshot k) with
  | .next s' =>
    let s' := State.settled (s.snapshot k) s s' k
    let c' := s'.crew k
    let through := s'.hasCrew k && issued c c' && c.widx + 1 == c'.widx && c'.pc == c.pc && c'.len < c'.widx &&
      c'.phase != .ended && c'.phase != .select
    if through && s.fallBad k c' then
      .next (State.settled (s.snapshot k) s (s.trapCrew k (trapRec c 0x03 2 c.fallThrough 0 false)) k)
    else .next (s'.afterIssue k c i)
  | o => o

/-- The checks of R105 before the instruction's own, then the instruction. -/
def State.checkWord (s : State) (run : Instr → State → Out) (k : Nat) (i : Instr) : Out :=
  let c := s.crew k
  if pastLive i (hdrLive c.hdr) then .next (State.settled (s.snapshot k) s (s.trap 0x01 6) k)
  else if c.kind = .test ∧ testForbids i = true then
    .next (let s := s.testEnd k (some 0xFFFF); { s with test := { s.test with en := false } })
  else if privForm i && !c.priv then .next (State.settled (s.snapshot k) s (s.trap 0x02) k)
  else if c.behind i then .next s
  else match c.stallBad i with
    | some (d, t) =>
      if c.check then .next (State.settled (s.snapshot k) s (s.trap 0x08 (BitVec.ofNat 64 d)) k)
      else if t ≤ s.clk then s.runWord run k i
      else .next (s.putCrew k { c with readyAt := t })
    | none => s.runWord run k i

/-- Requests to a plate store (R205). -/
def plateRequest : Instr → Bool
  | .vldp .. => true | .vstp .. => true | .sldp .. => true | .patom .. => true | .tres .. => true | .trel .. => true
  | .mma .. => true | .mmap .. => true | .acld .. => true | .acst .. => true | .cpy .. => true | .gth .. => true
  | .coll .. => true | .trd .. => true | .tstat .. => true | _ => false

/-- Loads and pushes, which see the pushes of the clk that come before theirs (R302). -/
def queueRequest : Instr → Bool
  | .sld .. => true | .vld .. => true | .vgth .. => true | .dlaunch .. => true | .sdlaunch .. => true | .rlnch .. => true
  | _ => false

/-- One step of the crew with key k: it fetches its next word and executes it. -/
def State.crewStep (s : State) (run : Instr → State → Out) (k : Nat) : Out :=
  let c := s.crew k
  if !(s.hasCrew k && c.canRun s.clk) || s.frozen c then .next s
  else
    let s := { s with cur := k }
    let va := c.pc + BitVec.ofNat 64 (8 * c.widx)
    match s.fetch k va with
    | .error e =>
      .next (State.settled (s.snapshot k) s
        (s.trapCrew k (trapRec { c with word := 0 } 0x05 (BitVec.ofNat 64 (e + 16)) va 0 false)) k)
    | .ok w =>
      let s := (s.fetched k va).putCrew k { c with word := w }
      match decode w with
      | .error e => .next (State.settled (s.snapshot k) s (s.trap 0x01 (BitVec.ofNat 64 e)) k)
      | .ok i =>
        let s := if plateRequest i then s.platesUpTo (clusterOfCore (coreOfKey k)) (some k) else s
        let s := if queueRequest i then s.pushesUpTo (some k) else s
        if (s.crew k).phase = .running then s.checkWord run k i else .next s

end Sys2Proof.Machine
end

