-- ==== Sys2Proof/Machine/Fabric.lean ====
section
/-! DEFINITION. The steps of the memory system: effects that leave a core (R287), loads and walks (R45, R178, R259),
leases and timestamps (R259 to R261), drops and parks (R42, R239, R293), the directory (R265, R266), records (R271),
releases (R257) and atomics (R190, R198). -/

namespace Sys2Proof.Machine

/-! ## Effects that leave the core (R287, R274) -/

/-- Bytes of a crew written through its die L2, as counted requests (R197). -/
def State.storeOut (s : State) (k at_ : Nat) (cs : List Host.Cell) (ch : Clocks) : State :=
  let core := coreOfKey k
  let counted := s.countLines k (dieOfCore core) cs
  let s := counted.1.onCrew k fun c => { c with ivals := c.ivals ++ counted.2 }
  (s.l2Cells core (some k) (some (s.crew k).lctr) cs ch).winDone k fun r => r.at_ == at_ && r.lane == 32

/-- Requests held at the owner's queue: at most 256 lane requests (R38). -/
def queueRoom (q : List AtomGroup) (n : Nat) : Bool := q.isEmpty || (q.map fun g => g.reqs.length).sum + n ≤ 256

/-- A group enters its owner's request queue, in the order of arrival (R190). -/
def State.groupOut (s : State) (k : Nat) (g : AtomGroup) : State :=
  { s with svcq := Map.put s.svcq g.owner (Map.get [] s.svcq g.owner ++ [g]) }.onCrew k fun c =>
    { c with fence := c.fence + g.reqs.length }

/-- The clocks that a write of a crew carries: those of its own release, and of the crew's `fence`s before it (R61). -/
def Crew.carries (c : Crew) (h : Held) : Clocks := joinStamps c.fenceTs h.relTs

/-- Each group that finds room at its owner leaves; the others stay held (R38, R190). -/
def State.groupsOut (s : State) (k : Nat) (h : Held) (gs : List AtomGroup) : Option State :=
  let r := gs.foldl (fun (r : State × List AtomGroup) g =>
    if queueRoom (Map.get [] r.1.svcq g.owner) g.reqs.length then (r.1.groupOut k { g with relTs := (s.crew k).carries h }, r.2)
    else (r.1, r.2 ++ [g])) (s, [])
  if r.2.isEmpty then some r.1
  else if r.2.length = gs.length then none
  else some (r.1.onCrew k fun c => { c with held := { h with eff := .atoms r.2, rel := none } :: c.held })

/-- What a crew's store to the control region does (R300, R337, R347): a write that covers the window of a mapped queue
is a push, a smaller one is partial; any other write of a crew is discarded. -/
def State.ctlOut (s : State) (k : Nat) (push : Nat → Bool → BitVec 1024 → State → State)
    (xpush : Nat → Pusher → Bool → BitVec 1024 → State → State) (cs : List Host.Cell) : State :=
  let pages := (cs.map fun c => (locPa c.1 - ctlBase) / 4096).eraseDups
  pages.foldl (fun s p =>
    let inLine := cs.filter fun c => (locPa c.1 - ctlBase) / 4096 == p && (locPa c.1 - ctlBase) % 4096 < 128
    let m := inLine.foldl (fun m c => Map.put m ((locPa c.1 - ctlBase) % 128) c.2) ([] : Map Byte)
    let data := BitVec.ofNat 1024 (ofBytes ((List.range 128).map fun i => Map.get 0 m i))
    if inLine.isEmpty then s
    else if 0x100 ≤ p ∧ p < 0x140 then push (p - 0x100) (m.length == 128) data s
    else if 0x140 ≤ p ∧ p < 0x150 then xpush (p - 0x140) (.crew k) (m.length == 128) data s
    else s) s

/-! ## The oldest held effect of a crew -/

/-- The host-memory granules that a crew has stored to. -/
def addGrans (cs : List Host.Cell) (l : List Nat) : List Nat :=
  ((cs.filter fun c => locPair c.1 == 8).map fun c => locPa c.1 / 65536).foldl (fun l g => insN g l) l

/-- The effect leaves the core, unless it has to wait. `ctl` is what writes to the control region do. -/
def State.leave (s : State) (k : Nat) (ctl : List Host.Cell → State → State) (h : Held) : Option State :=
  match h.eff with
  | .store cs =>
    let s := s.onCrew k fun c => { c with grans := addGrans cs c.grans }
    let mem := cs.filter fun c => !locCtl c.1
    let reg := cs.filter fun c => locCtl c.1
    if mem.any fun c => s.flipping c.1 then none
    else
      let s := if mem.isEmpty then s else s.storeOut k h.at_ mem ((s.crew k).carries h)
      some (if reg.isEmpty then s else ctl reg s)
  | .spill cs _ =>
    if cs.any fun c => s.flipping c.1 then none else some (s.homeCells cs (some (s.crew k).lctr) (some k))
  | .plate core _ _ _ => some (s.onCore core fun c => { c with arrivals := c.arrivals ++ [(k, { h with relTs := (s.crew k).carries h })] })
  | .plateAtom core _ _ => some (s.onCore core fun c => { c with arrivals := c.arrivals ++ [(k, { h with relTs := (s.crew k).carries h })] })
  | .atoms gs => s.groupsOut k h gs
  | .fence => some (s.onCrew k fun c => { c with fenceTs := c.carries h })
  | .flush false sc line => some (s.flushOut sc (coreOfKey k) line)
  | .flush true sc line => some (s.invOut sc (coreOfKey k) line)

/-- Whether an owner still has to execute a reduction of the crew on bytes that a store writes: the store follows it in
coherence order (R62). -/
def State.behindReduction (s : State) (k : Nat) (cs : List Host.Cell) : Bool :=
  s.svcq.any fun q => q.2.any fun g => g.crew == k && g.reqs.any fun r =>
    cs.any fun c => r.loc ≤ c.1 && c.1 < r.loc + tyBits g.ty / 8

/-- The oldest held effect of a crew may leave its core (R286, R287): it is FIX_DEPTH clk old, every older returning atomic has
returned, its release is complete, and nothing earlier to its bytes is still on the way. -/
def State.mayLeave (s : State) (k : Nat) (c : Crew) : Bool :=
  match c.held with
  | [] => false
  | h :: _ => h.at_ + s.fixOf c.ctx ≤ s.clk && h.rel.isNone && !(c.atoms.any fun o => o.at_ < h.at_) &&
      !s.behindReduction k h.eff.cells

/-! ## Loads, walks and leases -/

/-- LOAD_RETURN: the crew looks at what its load's requests brought, by executing the load again. -/
def execLoadReturn (k : Nat) (s : State) : Out :=
  match (s.crew k).phase with
  | .waiting .load => .next (s.onCrew k fun c => c.wake s.clk)
  | _ => .next s

/-- The end of a walk: the A bit is set, and the D bit for a write, and the entry fills the TLB (R45, R338). -/
def State.walkEnds (s : State) (core ctx : Nat) (va : W64) (write : Bool) : State :=
  match (if canonical va then s.walk ctx va else none) with
  | none => s
  | some lf =>
    let bits := lf.pte ||| (if write then 0xC0 else 0x40)
    if bits ≠ lf.pte ∧ s.flipping lf.at_ = true then s.holdReq (.walk core ctx va write)
    else
      let s := if bits = lf.pte then s else s.homeCells (cellsOf lf.at_ (bytesOf 8 bits)) none
      let e : TlbEntry := { ctx, va := va.toNat / 2 ^ lf.size, size := lf.size, pa := lf.pa va.toNat / 2 ^ lf.size * 2 ^ lf.size,
                            r := lf.r, w := lf.w, x := lf.x, d := bits / 128 % 2 == 1 }
      s.onCore core fun c => { c with
        tlb := (e :: c.tlb.filter fun x => !(x.ctx == ctx && x.size == lf.size && x.va == e.va)).take 2048 }

/-- PAGE_WALK_DONE. A granule whose bias flips holds a walk that would write to it (R277). -/
def execPageWalkDone (core ctx : Nat) (va : W64) (write : Bool) (s : State) : Out := .next (s.walkEnds core ctx va write)

/-- A miss by a crew whose slot the victim tag array names raises its score (R282). -/
def State.missScore (s : State) (core line : Nat) : State :=
  let slot := slotOfKey s.cur
  if coreOfKey s.cur = core ∧ (s.core core).victims.contains (line, slot) = true then
    (s.onCore core fun c => { c with victims := c.victims.filter (· != (line, slot)) }).onMe fun c =>
      { c with score := min 1023 (c.score + 1) }
  else s

/-- L1_READ: a hit changes nothing; a miss asks the die L2, which asks the directory for a span it lacks. A copy older than what
the crew has written or read there is no hit for it (R62; log entry 68). -/
def execL1Read (core line f l : Nat) (s : State) : Out :=
  if ((s.core core).copy? line f l).isSome && !(coreOfKey s.cur == core && s.me.mustRead line f l) then .next s
  else
    let s := s.missScore core line
    let s := if coreOfKey s.cur = core ∧ s.hasCrew s.cur = true ∧ isMerge (s.mapSpan line f l) = true then
      s.onMe fun c => { c with merges := c.merges + 1 } else s
    let s := if ((s.die (dieOfCore core)).span? line f l).isSome then s else s.push (.getS (dieOfCore core) line f l)
    .next (s.push (.l2Read core line f l))

/-- L2_READ (R259). -/
def execL2Read (core line f l : Nat) (s : State) : Out :=
  let t := s.grantLease core line f l
  .next (match (s.die (dieOfCore core)).span? line f l with
    | some y => if coreOfKey s.cur = core ∧ s.hasCrew s.cur = true then
        t.onMe fun c => { c with must := c.must.filter fun x => !(x.1 == line && y.f ≤ x.2 && x.2 ≤ y.l) } else t
    | none => t)

/-- L2_WRITE (R259), with the drops of R293. -/
def execL2Write (core line f l : Nat) (s : State) : Out :=
  .next ((s.stampWrite core (slotOfKey s.cur) line f l).dropWatchers
    (fun k => k != s.cur && dieOfCore (coreOfKey k) == dieOfCore core) line f l)

/-- The cores of a die. -/
def dieCores (d : Nat) : List Nat := upFrom (36 * d) 36
/-- Tlead: the greatest core clock of a die (R261). -/
def State.tlead (s : State) (d : Nat) : Stamp := (dieCores d).foldl (fun t n => stampMax t (s.core n).ts) (s.core (36 * d)).ts

/-- A core clock more than 2^13 behind Tlead is raised (R261). -/
def State.clampClocks (s : State) (d : Nat) : State :=
  let t := s.tlead d
  (dieCores d).foldl (fun s n => if 2 ^ 13 < (t - (s.core n).ts).toNat then s.onCore n fun c => { c with ts := t - 8192 } else s) s

/-- LEASE_TICK: each core clock of the die advances by one. -/
def execLeaseTick (d : Nat) (s : State) : Out :=
  .next (((dieCores d).foldl (fun s n => s.onCore n fun c => { c with ts := c.ts + 1 }) s).clampClocks d)

/-- Whether a timestamp lies behind Tlead by at least n (R261). -/
def behind (t ts : Stamp) (n : Nat) : Bool := (t - ts).toNat < 2 ^ 15 && n ≤ (t - ts).toNat

/-- Clocks without a die's reading where that has fallen behind: no core clock can be so low. -/
def Clocks.sweep (d : Nat) (t : Stamp) (ch : Clocks) : Clocks := ch.filter fun x => !(x.1 == d && behind t x.2 (2 ^ 14))

/-- A crew's clocks at a sweep of a die. -/
def Crew.sweep (c : Crew) (d : Nat) (t : Stamp) : Crew :=
  { c with readSeen := Clocks.sweep d t c.readSeen, seen := Clocks.sweep d t c.seen, fenceTs := Clocks.sweep d t c.fenceTs }

/-- TIMESTAMP_SWEEP (R261). The stamps that the die's crews have read with are kept in reach as DIC is, and clocks of releases out of
reach are forgotten (log entry 68). -/
def execTimestampSweep (d : Nat) (s : State) : Out :=
  let s := s.clampClocks d
  let t := s.tlead d
  let low := t - 16384
  let s := s.onDie d fun x => { x with
    swept := t
    dic := if behind t x.dic (2 ^ 14) then low else x.dic
    l2 := x.l2.map fun y =>
      if behind t y.rts (2 ^ 14) then { y with wts := low, rts := low }
      else if behind t y.wts (2 ^ 14) then { y with wts := low } else y }
  let keep := fun (kc : Nat × Crew) =>
    if dieOfCore (coreOfKey kc.1) = d ∧ behind t kc.2.readWts (2 ^ 14) = true then (kc.1, { kc.2 with readWts := low }) else kc
  let s := { s with
    crews := s.crews.map fun (kc : Nat × Crew) => ((keep kc).1, (keep kc).2.sweep d t)
    relLines := (s.relLines.map fun (x : Nat × Clocks) => (x.1, Clocks.sweep d t x.2)).filter fun x => !x.2.isEmpty
    agentSeen := s.agentSeen.map fun (x : Nat × Clocks) => (x.1, Clocks.sweep d t x.2) }
  .next ((dieCores d).foldl (fun s n => s.onCore n fun c =>
    { c with l1 := c.l1.filter fun x => !(behind c.ts x.leaseEnd (2 ^ 14 + 1)) }) s)

/-- DROP_MESSAGE (R293). -/
def execDropMessage (core line f l : Nat) (s : State) : Out := .next (s.onCore core fun c => c.dropL1 line f l)

/-- PARK_WAKE (R42), once the drops of the triggering write have reached the core (R293). -/
def execParkWake (k : Nat) (s : State) : Out :=
  match (s.crew k).phase, (s.crew k).mon with
  | .waiting (.park _ sd), some m =>
    .next (if m.hit then s.parked k sd 0 else s)
  | _, _ => .next s

/-- PARK_TIMEOUT (R239): a trigger of the same clk comes first. -/
def execParkTimeout (k : Nat) (s : State) : Out :=
  match (s.crew k).phase with
  | .waiting (.park (some t) sd) =>
    .next (if t ≤ s.clk ∧ ((s.crew k).mon.any fun m => m.hit) = false then s.parked k sd 1 else s)
  | _ => .next s

/-! ## The directory -/

/-- A request of the directory, held while its granule flips. -/
def State.dirGet (s : State) (a line f l : Nat) (write asks : Bool) : State :=
  if s.flipping (128 * line) then s.holdReq (.get a line f l write asks) else s.request a line f l write none asks

def execGetS (a line f l : Nat) (s : State) : Out := .next (s.dirGet a line f l false true)
def execGetX (a line f l : Nat) (s : State) : Out := .next (s.dirGet a line f l true true)
def execUpg (a line f l : Nat) (s : State) : Out := .next (s.dirGet a line f l true false)

/-- The state in which an agent holds the span that covers words [f, l]. -/
def State.heldAs (s : State) (a line f l : Nat) : Option DirSt :=
  match s.dir.find? fun d => d.line == line && d.f ≤ f && l ≤ d.l with
  | some d => Map.find? d.st a
  | none => none

/-- WB: from M or O. -/
def execWb (a line f l : Nat) (s : State) : Out :=
  match s.heldAs a line f l with
  | some .m => .next (s.giveUp a line f l)
  | some .o => .next (s.giveUp a line f l)
  | _ => .next s

/-- A clean update (R257): the data go home, which an injection may corrupt on the way (R379), and the span stays with the agent, in
E. -/
def State.clean (s : State) (a line f l : Nat) : State :=
  match s.dir.find? fun d => d.line == line && d.f ≤ f && l ≤ d.l with
  | none => s
  | some d =>
    if Map.find? d.st a = some DirSt.m then
      let s := (s.pass (portOf line (some a)) line d.f d.l 63).setDir line d.f d.l (some { d with st := Map.put d.st a .e })
      if a < 8 then s.onDie a fun x => { x with
        l2 := x.l2.map fun y => if y.line = line ∧ y.f = d.f then { y with unclean := false } else y }
      else s
    else s

def execCln (a line f l : Nat) (s : State) : Out :=
  .next (if s.flipping (128 * line) then s.holdReq (.clean a line f l) else s.clean a line f l)

/-- EVICT: from E or S. -/
def execEvict (a line f l : Nat) (s : State) : Out :=
  match s.heldAs a line f l with
  | some .e => .next (s.giveUp a line f l)
  | some .s => .next (s.giveUp a line f l)
  | _ => .next s

/-- A held request proceeds. -/
def State.proceed (s : State) (r : HeldReq) : State :=
  match r with
  | .get a line f l w asks => s.request a line f l w none asks
  | .clean a line f l => s.clean a line f l
  | .home loc bytes lctr ch => s.homeCells (cellsOf loc bytes) lctr none ch
  | .walk core ctx va write => s.walkEnds core ctx va write

/-- SNOOP: an agent gives up a span to an invalidating snoop, or forwards it and keeps O or S. One that has already
written the span back holds nothing, and acknowledges without data (R266). -/
def execSnoop (a line f l : Nat) (inv : Bool) (s : State) : Out :=
  match s.dir.find? fun d => d.line == line && d.f ≤ f && l ≤ d.l with
  | none => .next s
  | some d =>
    match Map.find? d.st a, inv with
    | none, _ => .next s
    | some .s, true =>
      let s := s.lose a line d.f d.l
      .next (s.setDir line d.f d.l (some { d with st := Map.erase d.st a }))
    | some _, true => .next (s.giveUp a line d.f d.l)
    | some .s, false => .next s
    | some .e, false =>
      .next ((s.newSource line d.f d.l 63 d.holders).setDir line d.f d.l (some { d with st := Map.put d.st a .s }))
    | some _, false => .next (s.setDir line d.f d.l (some { d with st := Map.put d.st a .o }))

/-! ## Records, acknowledgements and releases -/

/-- CHECKER_RECORD: the oldest record reaches its home checker. -/
def execCheckerRecord (s : State) : Out :=
  match s.recs with
  | [] => .next s
  | r :: rs => .next ({ s with recs := rs }.takeRecord r)

/-- Intervals not cleared within 2^16 clk of their close records (R271). -/
def State.recordLost (s : State) (line f l : Nat) : State :=
  match s.ival? line f l with
  | none => s
  | some e =>
    let late := fun (x : IvalRef × Nat) => decide (x.2 + 65536 ≤ s.clk)
    let mine := e.closeHash.isSome && late (e.ref, e.closed)
    let lost := e.owes.filter late
    if lost.isEmpty then s
    else (lost.foldl (fun s x => s.violation 6 line [x.1] e.writer.toList) s).putIval { e with
      closeHash := if mine then none else e.closeHash, owed := e.owed.filter fun x => !late x }

def execRecordLostTimeout (line f l : Nat) (s : State) : Out := .next (s.recordLost line f l)

/-- COUNTED_REQUEST_ACK (R257). -/
def execCountedRequestAck (k : Nat) (s : State) : Out :=
  .next (if s.hasCrew k then s.onCrew k fun c => { c with fence := c.fence - 1 } else s)

/-- DIRTY_BIT_MESSAGE (R365). -/
def execDirtyBitMessage (parcel : Nat) (lctr : Option Nat) (s : State) : Out := .next (s.setDirty parcel lctr)

/-- The release that a crew's oldest held effect waits for, else the one that the crew itself waits in. -/
def Crew.relScope? (c : Crew) : Option Scope :=
  match c.held, c.phase with
  | h :: _, _ => h.rel
  | [], .waiting (.release sc) => some sc
  | _, _ => none

/-- The spans that a release at .dev or .sys cleans (R257). -/
def State.toClean (s : State) (core : Nat) : List L2Span :=
  (s.uncleanM (dieOfCore core)).filter fun x => stampLe x.wts (s.core core).ts

/-- Whether a crew's effects before its oldest release have left and been acknowledged; a word that waits in its release is
FIX_DEPTH clk old too. -/
def State.relReady (s : State) (c : Crew) (sc : Scope) : Bool :=
  (sc == .crew || c.fence == 0) &&
    match c.held with
    | h :: _ => !c.atoms.any fun o => o.at_ < h.at_
    | [] => c.atoms.isEmpty && decide (c.blockedSince + s.fixOf c.ctx ≤ s.clk)

/-- The release is complete, with the clocks as they stand (R65, R391). -/
def State.relDone (s : State) (k : Nat) (sc : Scope) : State :=
  let ts := s.clocksOf k
  (s.winHome k sc).onCrew k fun c =>
    match c.held with
    | h :: hs => { c with held := { h with rel := none, relTs := ts } :: hs }
    | [] => { c.wake s.clk with released := true, relTs := ts }

/-- Whether a crew's releases cover a store to the granule whose bias flips (R277). -/
def State.coversFlip (s : State) (c : Crew) : Bool := s.bias.busy && c.grans.contains s.bias.gran.toNat

/-- RELEASE_COMPLETE: at .dev or .sys the die first cleans, and the checkers clear the intervals of the crew's stores. A granule
whose bias flips holds a release that waits for a request to it (R277). -/
def execReleaseComplete (k : Nat) (s : State) : Out :=
  let c := s.crew k
  match c.relScope? with
  | none => .next s
  | some sc =>
    if !s.relReady c sc || s.coversFlip c then .next s
    else if sc = .dev ∨ sc = .sys then
      if s.bias.busy then .next s
      else
        let xs := s.toClean (coreOfKey k)
        if !xs.isEmpty then
          let s := s.onCrew k fun c => { c with fence := c.fence + xs.length }
          .next ((s.pushAll (xs.flatMap fun x => [.cln (dieOfCore (coreOfKey k)) x.line x.f x.l, .countedRequestAck k])).push
            (.releaseComplete k))
        else if (s.ctx c.ctx).cchk && !c.ivals.isEmpty then
          .next (if s.recs.isEmpty then s else s.pushAll (s.recs.map (fun _ => .checkerRecord) ++ [.releaseComplete k]))
        else .next ((s.onCrew k fun c => { c with ivals := [] }).relDone k sc)
    else .next (s.relDone k sc)

/-! ## Atomics at their owners -/

/-- Whether the oldest group of a queue waits for a bias flip (R277): one of its requests is to the granule, or a service program, which
may reach it, takes one. -/
def State.groupHeld (s : State) (g : AtomGroup) : Bool :=
  s.bias.busy && g.reqs.any fun r => s.flipping r.loc || (s.svcSlot g r).isSome

/-- ATOMIC_REQUEST_EXECUTE: the oldest group of an owner's queue, whole. -/
def execAtomicRequestExecute (cluster : Nat) (s : State) : Out :=
  match Map.get [] s.svcq cluster with
  | [] => .next s
  | g :: gs =>
    if s.groupHeld g then .next s
    else .next ({ s with svcq := if gs.isEmpty then Map.erase s.svcq cluster else Map.put s.svcq cluster gs }.runGroup g)

/-- The old value of a scalar atomic, extended by its type (R189). -/
def extOld (ty : Ty) (x : W64) : W64 :=
  match ty with
  | .int t => if t.signed then sext64 x.toNat t.bits else zext64 x.toNat t.bits
  | t => zext64 x.toNat (tyBits t)

/-- The values of a returning atomic in a crew, or in a snapshot of it, that waits for them. -/
def Crew.deliver (c : Crew) (o : AtomOp) : Crew :=
  if !(c.atoms.any fun x => x.token == o.token) then c
  else
    let vals : List (Nat × W64) := o.results.filterMap fun r => r.2.map fun v => (r.1, v)
    let c := { c with
      atoms := c.atoms.filter fun x => x.token != o.token
      readWts := match o.wts with | some t => stampMax c.readWts t | none => c.readWts
      readSeen := joinStamps c.readSeen o.clocks }
    match o.dest with
    | .lanes n wide =>
      let m := maskL (vals.map Prod.fst)
      let f := fun l => (Map.find? vals l).getD 0
      let d : Crew := { c with base := 0 }
      { (if wide then d.putVP n m f else d.putV n m fun l => (f l).extractLsb' 0 32) with base := c.base }
    | .scalar sd ty => match vals with
      | (_, x) :: _ => c.setS sd (extOld ty x)
      | [] => c

/-- A returning atomic whose values have all come: its destinations, its acquire, and for poison the trap that discards what the
crew did after it (R191). The stamp that it reads with is its span's where the owner's die is the crew's own; elsewhere, and for a
`patom`, it has only the clocks of releases (log entry 68). -/
def State.finishAtom (s : State) (k : Nat) (o : AtomOp) : State :=
  let s := s.onCrewPast k fun c => c.deliver o
  let s := match o.acq with
    | some sc => s.acquire k sc (o.wts.getD (s.core (coreOfKey k)).ts) o.clocks
    | none => s
  match sortBy (fun (b : Nat × W64) => b.1) o.bad with
  | [] => s
  | b :: bs =>
    let d0 := match o.plate with | some n => BitVec.ofNat 64 (16 + 256 * n) | none => 0
    let s := match s.past.find? fun p => p.key == k && decide (o.at_ < p.at_) with
      | some p => s.rewind k p
      | none => s
    s.trapCrew k { cause := 0x06, detail0 := d0, detail1 := b.2, lanes := maskL ((b :: bs).map (·.1)), perf := true,
                   pc := o.pc, widx := o.widx, word := o.word }

/-- ATOMIC_RETURN: a crew's returning atomics finish in program order, since each may trap (R191, R320). -/
def execAtomicReturn (k : Nat) (s : State) : Out :=
  match (s.crew k).atoms with
  | [] => .next s
  | o :: os =>
    if o.groups ≠ 0 then .next s
    else .next (if os.isEmpty then s.finishAtom k o else (s.finishAtom k o).push (.atomicReturn k))

end Sys2Proof.Machine
end

