-- ==== Sys2Proof/Machine/Objects.lean ====
section
/-! DEFINITION. The steps of shared objects and engines: plate stores (R205), queues (R37, R236), barriers (R232), sheet
homes (R242), the matrix array (R54, R207 to R213), and the copy, gather and collective engines (R64, R220, R225). -/

namespace Sys2Proof.Machine

/-- A crew that waits with a given condition runs again from the next clk. -/
def State.wakeIf (s : State) (k : Nat) (p : Wait → Bool) : State :=
  match (s.crew k).phase with
  | .waiting w => if p w then s.onCrew k fun c => c.wake s.clk else s
  | _ => s

/-! ## Plates that engines set back (R64, R205) -/

/-- One plate goes back to CREW; its event record waits at its engine. -/
def State.setBack (s : State) (b : SetBack) : State :=
  match Map.find? s.parties b.party with
  | none => s
  | some _ =>
    let s := s.onParty b.party fun p => p.onPlate b.plate fun x =>
      { x with owner := false, eng := 0, holder := 0, stamp := some b.stamp, ivals := b.ivals }
    match b.ev with
    | none => s
    | some e => s.onCore e.core fun c => { c with evs := c.evs ++ [e] }

/-- The plate store's own check of a plate that an engine sets back (R275): no unit of the command is left to write. A failed one is
reported as the reorder kind, by the crew that issued the command. -/
def State.setBackBad (s : State) (b : SetBack) : Option EngCmd :=
  (s.cores.flatMap fun (c : Nat × Core) => c.2.copyQ ++ c.2.gatherQ).find? fun c =>
    c.party == b.party && c.plate == b.plate && c.pos != 0

/-- A set-back behind its check. -/
def State.setBackChecked (s : State) (b : SetBack) : State :=
  match s.setBackBad b with
  | some c => if s.cmdCrew c && (s.ctx c.ctx).rchk then
      s.reorder c.crew { crew := c.crew, at_ := c.at_, locs := [], done := true } 1 else s.setBack b
  | none => s.setBack b

/-- PLATE_STORE_ARBITRATION: engines set plates back before crews' requests of the same clk. The records that follow are posted at
the end of the clk, after its pops and before its wakes (R37, R236). -/
def execPlateStoreArbitration (core : Nat) (s : State) : Out :=
  let bs := (s.core core).setBacks
  let s := bs.foldl State.setBackChecked (s.onCore core fun c => { c with setBacks := [] })
  .next ((((bs.filterMap (·.ev)).map fun e => (e.core, e.eng)).eraseDups).foldl (fun s x => s.pushLate (.eventRecordPost x.1 x.2)) s)

/-- Whether a record completed before another, both for one queue: it is posted first (R220). -/
def EvRec.before (r e : EvRec) : Bool := r.party == e.party && r.q == e.q && r.seq < e.seq

/-- The first record of an engine that its queue has a place for and that no earlier record of the queue precedes, at whatever engine
that waits. -/
def State.postable (s : State) (e : Engine) (core : Nat) : Option EvRec :=
  (s.core core).evs.find? fun r => r.eng == e && !(s.cores.any fun c => c.2.evs.any fun x => x.before r) &&
    match Map.find? s.parties r.party with
      | none => true
      | some p => match Map.find? p.queues r.q with
        | none => true
        | some x => !x.event || x.items.length < x.depth

/-- The records at engines for a queue: those that wait behind one may follow it. -/
def State.evWaits (s : State) (r : EvRec) : List Instr :=
  (s.cores.flatMap fun (c : Nat × Core) => (c.2.evs.filter fun x => x.party == r.party && x.q == r.q).map fun x =>
    Instr.eventRecordPost c.1 x.eng).eraseDups

/-- EVENT_RECORD_POST: the record enters its queue; a record whose queue is no event queue any more is dropped. -/
def execEventRecordPost (core : Nat) (e : Engine) (s : State) : Out :=
  match s.postable e core with
  | none => .next s
  | some r =>
    let s := s.onCore core fun c => { c with evs := c.evs.erase r }
    match Map.find? s.parties r.party with
    | none => .next s
    | some p => match Map.find? p.queues r.q with
      | none => .next s
      | some x =>
        if x.event then
          let s := s.setQueue r.party r.q { x with items := x.items ++ [⟨r.item, [(dieOfCore r.core, r.stamp)]⟩] }
          .next ({ s with late := s.evWaits r ++ s.late }.pushLate (.clusterQueueUpdate r.party r.q))
        else .next s

/-! ## Queues, barriers and sheets -/

/-- CLUSTER_QUEUE_UPDATE: the wake step of a queue; at most 64 items and 64 crews take part. -/
def execClusterQueueUpdate (party q : Nat) (s : State) : Out :=
  .next (if (Map.find? s.parties party).isSome then s.queueWake party q 129 else s)

/-- BARRIER_UPDATE: completion, then the crews whose phase has completed. -/
def execBarrierUpdate (party bar : Nat) (s : State) : Out :=
  match Map.find? (s.party party).bars bar with
  | none => .next s
  | some b =>
    let b := Barrier.complete 4 b
    let s := s.setBar party bar b
    let ws := s.blockedOn party fun w => match w with | .barrier n p => n == bar && b.past p | _ => false
    .next (ws.foldl (fun s kc => match kc.2.phase with
      | .waiting (.barrier _ p) => (s.seeBar kc.1 b p).wakeNext kc.1 id
      | _ => s) s)

/-- A home serves the first of the requests that have reached it: posts before resets, by logical core and then by slot. -/
def State.serveHome (h : Nat) (s : State) : State :=
  let x := Map.get {} s.sheets h
  let key := fun (r : SheetReq) => (match r.op with | .post .. => 0 | .reset _ => 2 ^ 20) +
    s.logCore (s.crew r.crew).ctx (coreOfKey r.crew) * 128 + slotOfKey r.crew
  match sortBy key x.reqs with
  | [] => s
  | r :: rs =>
    let s := { s with sheets := Map.put s.sheets h { x with reqs := rs } }
    match (s.crew r.crew).phase with
    | .waiting .sheet => match r.op with
      | .post slot epoch payload kn sd => s.homePost h r.crew slot epoch payload kn sd
      | .reset sd => s.homeReset h r.crew sd
    | _ => s

/-- SHEET_HOME_POST: one event takes one request; the others follow it in their order. -/
def execSheetHomePost (h : Nat) (s : State) : Out :=
  let s := s.serveHome h
  .next (if (Map.get {} s.sheets h).reqs.isEmpty then s else s.pushLate (.sheetHomePost h))

/-! ## The matrix array -/

/-- Whether the partner's array still has its part of an `mmap` at the head of a core's order to perform: the two parts enter the
two orders together, so the head's is still there while the partner holds as many as the core itself (R208). -/
def State.partBehind (s : State) (core : Nat) (x : ArrCmd) : Bool :=
  let q := core / 2 * 2 + (1 - core % 2)
  let of := fun (p : ArrPart) (y : ArrCmd) => match y.op with | .mma _ _ _ _ h => h == p | _ => false
  let ahead := match (s.core q).array, (s.core q).arrayUntil with
    | y :: _, some t => of .partner y && t ≤ s.clk
    | _, _ => false
  of .own x && ((s.core core).array.filter (of .own)).length + ahead.toNat ≤ ((s.core q).array.filter (of .partner)).length

/-- MATRIX_COMMAND_PERFORM: the first command of a core's order that is not stopped, once it has occupied the array for its time. The
next starts when it finishes. -/
def execMatrixCommandPerform (core : Nat) (s : State) : Out :=
  let ready := (s.core core).array.filter fun x => !x.stopped
  match ready with
  | [] => .next s
  | x :: xs => match (s.core core).arrayUntil with
   | none => .next (s.onCore core fun c => { c with arrayUntil := some (s.clk + x.dur) })
   | some t =>
    if s.clk < t ∨ s.partBehind core x = true then .next s else
    let s := s.onCore core fun c => { c with array := c.array.erase x, arrayUntil := (xs.head?).map fun y => max t s.clk + y.dur }
    .next ((s.perform1 core x).push (.batchRetire x.crew))

/-- Closed batches retire in order, each once its commands are performed. -/
def retireBatches : List Batch → List Batch
  | [] => []
  | b :: bs =>
    if b.retired then b :: retireBatches bs
    else if b.left = 0 then { b with retired := true } :: retireBatches bs
    else b :: bs

/-- BATCH_RETIRE, and the crew that waits for it (R210, R211). -/
def execBatchRetire (k : Nat) (s : State) : Out :=
  if isEnded k then
    .next (if (Map.find? s.parties (partyOfEnded k)).isSome then s.onParty (partyOfEnded k) Party.endRetire else s)
  else if !s.hasCrew k then .next s
  else
    let s := s.onCrewPast k fun c => { c with closedB := retireBatches c.closedB }
    let c := s.crew k
    .next (s.wakeIf k fun w => match w with
      | .batch n => !c.batchOpen n
      | .batchRoom => decide ((c.closedB.filter fun b => !b.retired).length < 16)
      | _ => false)

/-- ACLD_READ_DONE: the plate has been read, and the crew goes on. -/
def execAcldReadDone (k : Nat) (s : State) : Out :=
  .next (s.wakeIf k fun w => match w with | .plateRead t => t ≤ s.clk | _ => false)

/-- ACST_WRITES_DONE: the array has performed the crew's commands. -/
def execAcstWritesDone (k : Nat) (s : State) : Out := .next (if s.arrayPending k then s else s.wakeIf k (· == .plateWrite))

/-! ## Copy, gather and collective engines -/

def Core.engQ (c : Core) (e : Engine) : List EngCmd :=
  match e with | .copy => c.copyQ | .gather => c.gatherQ | .coll => c.collQ | .matrix => []
def Core.setEngQ (c : Core) (e : Engine) (q : List EngCmd) : Core :=
  match e with
  | .copy => { c with copyQ := q }
  | .gather => { c with gatherQ := q }
  | .coll => { c with collQ := q }
  | .matrix => c

/-- A `coll` waits at its engine while an earlier `coll` of the same crew holds its rank (R225): it is the next of that rank. DESIGN
CHOICE: a `coll` of another crew with that rank repeats it (log entry 78). -/
def State.collWaits (s : State) (c : EngCmd) : Bool :=
  (Map.get {} s.groups (s.groupOf c)).arrivals.any fun a => a.rank == c.rank && a.cmd.crew == c.crew && a.cmd.party == c.party

/-- ENGINE_COMMAND_COMPLETE: an engine runs the next chunk of the next command of its order that is not stopped. None finishes within
FIX_DEPTH clk of the flip, so the crew's instructions of that time see its plate with OWNER = ENGINE (R205). -/
def execEngineCommandComplete (core : Nat) (e : Engine) (s : State) : Out :=
  match e with
  | .coll =>
    match (s.core core).collQ.find? fun c => !c.stopped && !s.collWaits c with
    | none => .next s
    | some c =>
      if s.clk < c.at_ + s.fixOf c.ctx then .next s
      else .next ((s.onCore core fun x => { x with collQ := x.collQ.erase c }).collArrive core c)
  | e =>
    match ((s.core core).engQ e).find? fun c => !c.stopped with
    | none => .next s
    | some c =>
      if s.clk < c.at_ + s.fixOf c.ctx then .next s
      else
        let (s, rest) := s.runCmd core c
        .next (s.onCore core fun x => x.setEngQ e (match rest with
          | some d => (x.engQ e).map fun y => if y = c then d else y
          | none => (x.engQ e).erase c))

/-- COLLECTIVE_COMBINE. -/
def execCollectiveCombine (g : Nat) (s : State) : Out :=
  let x := Map.get {} s.groups g
  .next (if x.members ≠ 0 ∧ x.arrivals.length = x.members.toNat then s.combine g else s)

end Sys2Proof.Machine
end

