-- ==== Sys2Proof/Machine/Ends.lean ====
section
/-! DEFINITION. The ends of crews, parties and instances (R30, R33, R315, R362), handler crews (R39, R325), notices
(R322), and strike replay (R329). -/

namespace Sys2Proof.Machine

/-! ## Parties and instances -/

/-- Whether an engine still has a command of a party (R30). -/
def State.engineBusy (s : State) (p : Nat) : Bool :=
  (s.cores.any fun c => (c.2.copyQ ++ c.2.gatherQ ++ c.2.collQ).any (·.party == p) || c.2.setBacks.any (·.party == p)) ||
    s.groups.any fun g => g.2.arrivals.any (·.cmd.party == p)

/-- A party all of whose crews have ended, and whose plates no engine and no array holds, gives its pool and bands back. -/
def State.freeParty (s : State) (p : Nat) : State :=
  let x := s.party p
  if x.ended = x.ncrews ∧ s.engineBusy p = false ∧ x.endB.isEmpty = true then { s with parties := Map.erase s.parties p } else s

/-- PARTY_COMPLETE, with TRACE_ENTRY_WRITE (R33, R362). -/
def State.partyComplete (s : State) (p : Nat) : State :=
  let x := s.party p
  let s := if bit x.packet 6 then
      s.writeTrace x.lctr (x.num + 1) (if x.cancelled then List.replicate 128 0 else x.trace.bytes)
    else s
  let s := s.onCounter x.lctr fun c => { c with stamps := joinStamps c.stamps x.stamps }
  (s.stepCounter x.lctr 1).freeParty p

/-- Whether an ended crew's effects have left its core and its returning atomics have returned, all of them older than the fix
window (R30; log entry 13). -/
def State.crewDone (s : State) (k : Nat) (c : Crew) : Bool :=
  c.phase == .ended && c.drained && decide (c.lastIssue + s.fixOf c.ctx ≤ s.clk) && !(s.pushes.any fun p => p.crew == k) &&
    !(upFrom (4 * (s.party c.party).cluster) 4).any fun n => (s.core n).arrivals.any fun x => x.1 == k

/-- What an ended crew has under way goes on without it (R30): requests at their owners, commands of the arrays and the engines,
and its batches, whose plates go back as they retire (R209). Handler lanes that it sent have no origin any more (R326). -/
def State.leaveBehind (s : State) (k : Nat) : State :=
  let c := s.crew k
  let e := endedKey k c.party
  let re := fun (x : EngCmd) => if x.crew = k ∧ x.party = c.party then { x with crew := e } else x
  let grp := fun (g : AtomGroup) => if g.crew = k then { g with crew := e } else g
  let arr := fun (x : ArrCmd) => if x.crew = k then { x with crew := e } else x
  let ari := fun (a : Arrival) => { a with cmd := re a.cmd }
  let tag := fun (t : LaneTag) => if t.crew = k then { t with crew := e } else t
  let s := { s with
    crews := s.crews.map fun (x : Nat × Crew) => if x.2.tags.isEmpty then x else (x.1, { x.2 with tags := x.2.tags.map tag })
    savedHand := s.savedHand.map fun x => { x with tags := x.tags.map tag }
    svcq := s.svcq.map fun (q : Nat × List AtomGroup) => (q.1, q.2.map grp)
    groups := s.groups.map fun (g : Nat × CollGroup) => (g.1, { g.2 with arrivals := g.2.arrivals.map ari })
    cores := s.cores.map fun (n : Nat × Core) => (n.1, { n.2 with
      array := n.2.array.map arr
      copyQ := n.2.copyQ.map re, gatherQ := n.2.gatherQ.map re, collQ := n.2.collQ.map re
      laneWait := n.2.laneWait.filter fun t => t.crew != k
      window := n.2.window.filter fun r => r.crew != k }) }
  if (Map.find? s.parties c.party).isNone then s
  else s.onParty c.party fun p => Party.endRetire { p with endB := p.endB ++ (c.closedB ++ [c.openB]).map fun b => (e, b) }

/-- CREW_END: the crew's `bard` on every barrier object, its stamp, and its slot. -/
def execCrewEnd (k : Nat) (s : State) : Out :=
  let c := s.crew k
  if !(s.hasCrew k && s.crewDone k c) then .next s
  else
    let gone := fun (s : State) => { s with
      crews := Map.erase s.crews k
      runq := s.runq.filter (· != k)
      past := s.past.filter fun p => p.key != k }.onCore (coreOfKey k) fun x => { x with idleSince := s.clk }
    match c.kind with
    | .handler => .next (gone (s.leaveBehind k))
    | .test => .next (gone s)
    | _ =>
      let ts := s.clocksOf k
      let s := s.leaveBehind k
      let s := s.onParty c.party fun p => { p with
        bars := p.bars.map fun (b : Nat × Barrier) => if b.2.mask &&& crewBit c.num ≠ 0 then (b.1, b.2.drop c.num ts) else b
        stamps := joinStamps p.stamps ts
        crews := p.crews.filter (· != k)
        ended := p.ended + 1 }
      let s := gone s
      .next (if (s.party c.party).ended = (s.party c.party).ncrews then s.partyComplete c.party else s)

/-- The release at .sys that an instance's completion makes: its dies clean what its crews' stores left (R33, R257). -/
def State.cleanFor (s : State) (st : Map Stamp) : State :=
  st.foldl (fun s x => ((s.die x.1).l2.filter fun y => y.unclean && stampLe y.wts x.2).foldl
    (fun s y => s.clean x.1 y.line y.f y.l) s) s

/-- Whether requests or engine commands of an instance are still under way: its release waits for them (R33, R315, R317). -/
def State.instanceBusy (s : State) (n : Nat) : Bool :=
  let mine := fun (l : Nat) => l == n || (s.counter l).parents.any fun p => p.2 == n
  (s.svcq.any fun q => q.2.any fun g => mine g.lctr) ||
    (s.cores.any fun c => (c.2.copyQ ++ c.2.gatherQ ++ c.2.collQ).any fun x => mine x.lctr) ||
    s.groups.any fun g => g.2.arrivals.any fun a => mine a.cmd.lctr

/-- INSTANCE_COMPLETE. Its release waits for a bias flip that is under way (R277). -/
def execInstanceComplete (n : Nat) (s : State) : Out :=
  let c := s.counter n
  .next (if c.done = false ∧ c.count = c.endv ∧ s.instanceBusy n = false ∧ s.bias.busy = false then (s.cleanFor c.stamps).complete n else s)

/-! ## Handler crews -/

/-- A free handler slot of a core. -/
def State.handlerSlot (s : State) (core : Nat) : Option Nat := [96, 97].find? fun n => !s.hasCrew (crewKey core n)

/-- Lanes that wait for a handler crew; a lane trap may leave its crew only after the fix window. -/
def State.laneWaits (s : State) (core : Nat) : List LaneTag :=
  (s.core core).laneWait.filter fun t => t.since + s.fixOf (s.crew t.crew).ctx ≤ s.clk

/-- Registers of lanes 0 to n − 1 from the tags. -/
def tagRow (ts : List LaneTag) (f : LaneTag → Nat) : Row := mkRow fun l => match ts[l]? with | some t => BitVec.ofNat 32 (f t) | none => 0
def tagV (ts : List LaneTag) : Map VSlot :=
  let two := fun (n : Nat) (f : LaneTag → W64) =>
    [(n, (⟨n, true, tagRow ts fun t => (f t).toNat % 2 ^ 32⟩ : VSlot)), (n + 1, ⟨n + 1, true, tagRow ts fun t => (f t).toNat / 2 ^ 32⟩)]
  let one := fun (n : Nat) (f : LaneTag → Nat) => [(n, (⟨n, true, tagRow ts f⟩ : VSlot))]
  two 0 (·.word) ++ two 2 (·.pc) ++
    one 4 (fun t => t.widx % 256 + t.lane * 2 ^ 8 + slotOfKey t.crew * 2 ^ 16) ++
    one 5 (fun t => t.flags.toNat + t.code.toNat * 2 ^ 16) ++
    two 6 (·.a) ++ two 8 (·.b) ++ two 10 (·.c) ++ one 12 (fun t => t.old.toNat)

/-- The handler crew of some waiting lanes of one launch (R325). -/
def State.formHandler (s : State) (core slot : Nat) (ts : List LaneTag) : State :=
  match ts with
  | [] => s
  | t :: _ =>
    let o := s.crew t.crew
    let n := ts.length
    let entry := (Map.get {} s.trapCfg o.ctx).lhentry
    let live : W32 := maskOf fun l => decide (l < n)
    let c : Crew := {
      kind := .handler, party := o.party, ctx := o.ctx, lctr := o.lctr, check := o.check, throt := false, alloc := 256
      s := [(1, bf (s.party o.party).packet 128 64), (2, BitVec.ofNat 64 n)], v := tagV ts, live, active := live
      pend := (List.range n).map fun l => (l, entry)
      tags := ts, readyAt := s.clk + 1 }
    let s := s.onCore core fun x => { x with laneWait := x.laneWait.filter fun y => !ts.contains y }
    s.putCrew (crewKey core slot) c

/-- HANDLER_CREW_FORM: 32 lanes of one launch wait. -/
def execHandlerCrewForm (core : Nat) (s : State) : Out :=
  let ws := s.laneWaits core
  match s.handlerSlot core, ws.find? fun t => decide (32 ≤ (ws.filter fun u => u.lctr == t.lctr).length) with
  | some slot, some t => .next (s.formHandler core slot ((ws.filter fun u => u.lctr == t.lctr).take 32))
  | _, _ => .next s

/-- HANDLER_FORM_TIMEOUT: the oldest waiting lane has waited 256 clk. -/
def execHandlerFormTimeout (core : Nat) (s : State) : Out :=
  let ws := s.laneWaits core
  match s.handlerSlot core, ws.find? fun t => decide (t.since + 256 ≤ s.clk) with
  | some slot, some t => .next (s.formHandler core slot ((ws.filter fun u => u.lctr == t.lctr).take 32))
  | _, _ => .next s

/-! ## Frames and notices (R321, R322) -/

/-- Writes a trapped crew's pending-block vector and frame: none where one of them does not translate. -/
def State.writeFrame (s : State) (k : Nat) (r : TrapRec) : Option State :=
  let c := s.crew k
  match s.devWrite c.ctx (c.spill - 0x40180) c.pbvBytes with
  | none => none
  | some s => s.devWrite c.ctx (c.spill - 0x40080) (bytesOf 128 (s.frameNat k r))

/-- Makes the notice of a crew whose frame is written. -/
def State.sendNotice (s : State) (k : Nat) (r : TrapRec) : State :=
  let s := s.pushesUpTo (some k)
  let c := s.crew k
  let cfg := Map.get {} s.trapCfg c.ctx
  if !cfg.en then s.onCrew k fun c => { c with pushed := true }
  else
    let q := s.phys c.ctx 64 cfg.tq.toNat
    match s.devRead c.ctx cfg.tmpl 128, (Map.get {} s.queues q).fate false true none with
    | some bs, .ok =>
      let t := ofBytes bs
      let args := (c.spill - 0x40080).toNat
      let data := BitVec.ofNat 1024 (t - fld t 128 64 * 2 ^ 128 + args * 2 ^ 128)
      (s.appendPkt q { data, age := s.clk, notice := some r.cause }).onCrew k fun c => { c with pushed := true }
    | some _, _ => (({ s with
        queues := Map.modify {} s.queues q fun x => { x with ovf := true } } : State))
    | none, _ => s

/-- One attempt to write the frame and to push the notice. -/
def State.tryNotice (s : State) (k : Nat) : State :=
  match (s.crew k).trap with
  | none => s
  | some r =>
    let s := s.onCrew k fun c => { c with tries := c.tries + 1, heldSince := s.clk }
    if (s.crew k).noticed then s.sendNotice k r
    else match s.writeFrame k r with
      | none => s
      | some s => (s.onCrew k fun c => { c with noticed := true }).sendNotice k r

/-- Whether a crew waits for its notice. -/
def Crew.wantsNotice (c : Crew) : Bool := (c.phase == .trapped || c.phase == .halted) && c.trap.isSome && !c.pushed

/-- NOTICE_PUSH: the frame and the notice are held for FIX_DEPTH clk, after the crew's older effects (R320). -/
def execNoticePush (k : Nat) (s : State) : Out :=
  let c := s.crew k
  .next (if c.wantsNotice && c.tries == 0 && c.drained && decide (c.heldSince + s.fixOf c.ctx ≤ s.clk) then s.tryNotice k else s)

/-- NOTICE_RETRY: every 256 clk. -/
def execNoticeRetry (k : Nat) (s : State) : Out :=
  let c := s.crew k
  .next (if c.wantsNotice && c.tries != 0 && decide (c.heldSince + 256 ≤ s.clk) then s.tryNotice k else s)

/-- SVCCFG_DONE: every service crew of the device has applied the change (R254). -/
def execSvccfgDone (k : Nat) (s : State) : Out := .next (s.svcDone k)

/-! ## Strikes (R329) -/

/-- Replays one crew from its oldest instruction inside the fix window. -/
def State.replay (s : State) (k : Nat) : State :=
  match s.past.find? fun p => p.key == k && s.clk < p.at_ + s.fixOf (s.crew k).ctx with
  | none => s
  | some p => (s.rewind k p).onCrew k fun c => { c with replayed := true }

/-- Whether a crew committed a result between a strike and now. -/
def State.committedSince (s : State) (k at_ : Nat) (c : Crew) : Bool :=
  let fix := s.fixOf c.ctx
  (s.past.any fun p => p.key == k && at_ ≤ p.at_ + fix && p.at_ + fix ≤ s.clk) ||
    (c.lastIssue != 0 && at_ ≤ c.lastIssue + fix && c.lastIssue + fix ≤ s.clk) || (c.committed != 0 && at_ ≤ c.committed)

/-- STRIKE_REPORT: replay, or late-strike traps where the report comes more than FIX_DEPTH clk after the strike. A crew that waits
trapped, or that has ended and still holds its slot, takes that trap too: its new frame stands in place of the old one. -/
def execStrikeReport (core at_ : Nat) (s : State) : Out :=
  if !s.strike.en then .next s
  else
    let cs := s.coreCrews core
    let fix := cs.foldl (fun m kc => min m (s.fixOf kc.2.ctx)) 48
    let rep := fun (src : Nat) (d : W64) => ({ src, detail := d, agent := dieOfCore core, core } : Report)
    if s.clk ≤ at_ + fix then
      let s := cs.foldl (fun s kc => s.replay kc.1) s
      let s := s.onCnt core fun n => { n with strikes := satInc n.strikes }
      .next ({ s with replays := s.replays + 1, runq := s.runq.filter fun k => coreOfKey k != core }.report (rep 1 0))
    else
      let hit := cs.filter fun kc => s.committedSince kc.1 at_ kc.2 && kc.2.phase != .halted
      let s := hit.foldl (fun s kc => s.trapCrew kc.1 (match kc.2.trap with
        | some r => { r with cause := 0x07, detail0 := 7, detail1 := 0, lanes := 0 }
        | none => trapRec (s.crew kc.1) 0x07 7 0 0 false)) s
      let s := s.onCnt core fun n => { n with late := satInc n.late }
      .next ((s.report (rep 2 7)).report { rep 6 7 with ctx := 0xFFFF })

end Sys2Proof.Machine
end

