-- ==== Sys2Proof/Machine/Placement.lean ====
section
/-! DEFINITION. Placement of parties on cores (R15, R48, R53, R304, R311 to R313), and the return of saved parties
(R334). -/

namespace Sys2Proof.Machine

/-! ## Fields of a launch packet (R303) -/

def pkCode (d : BitVec 1024) : W64 := bf d 64 64
def pkArgs (d : BitVec 1024) : W64 := bf d 128 64
def pkSpill (d : BitVec 1024) : W64 := bf d 192 64
def pkSpstr (d : BitVec 1024) : Nat := (bf d 544 32).toNat
def pkCrews (d : BitVec 1024) : Nat := (bf d 10 6).toNat + 1
def pkAlloc (d : BitVec 1024) : Nat := 8 * ((bf d 16 8).toNat + 1)
def pkAcc (d : BitVec 1024) : Nat := (bf d 24 9).toNat
def pkPlates (d : BitVec 1024) : Nat := (bf d 33 12).toNat
def pkSpread (d : BitVec 1024) : Nat := (bf d 45 2).toNat + 1
def pkGrid (d : BitVec 1024) : Nat × Nat × Nat := ((bf d 256 16).toNat + 1, (bf d 272 16).toNat + 1, (bf d 288 16).toNat + 1)
def pkParties (d : BitVec 1024) : Nat := (pkGrid d).1 * (pkGrid d).2.1 * (pkGrid d).2.2
def pkLctr (d : BitVec 1024) : Nat := (bf d 320 12).toNat

/-- A party's key: its launch counter and its number. -/
def partyKey (lctr num : Nat) : Nat := lctr * 2 ^ 24 + num

/-! ## What a core has free -/

/-- A partition: its core and number, free registers and free core-wide slots. -/
structure PartFree where
  core : Nat
  regs : Nat
  slots : List Nat
  deriving DecidableEq, Repr

def State.partFree (s : State) (core part : Nat) : PartFree :=
  let cs := (s.partCrews core part).filter fun kc => slotOfKey kc.1 < 96
  { core, regs := 2048 - (cs.map fun kc => kc.2.alloc).sum
    slots := (upFrom (16 * part) 16).filter fun n => !cs.any fun kc => slotOfKey kc.1 == n }

def emptyPart (core part : Nat) : PartFree := { core, regs := 2048, slots := upFrom (16 * part) 16 }

/-- Runs in use on a core: first and length. -/
def State.usedRows (s : State) (core : Nat) : List (Nat × Nat) :=
  s.parties.flatMap fun p => if p.2.isTest then [] else (p.2.bands.filter fun b => b.1 == core).map (·.2)
def State.usedGrans (s : State) (core : Nat) : List (Nat × Nat) :=
  s.parties.flatMap fun p => if p.2.isTest then [] else (p.2.pool.filter fun b => b.1 == core).map (·.2)

/-- The lowest free run of n among `total` (R312). -/
def lowestRun (used : List (Nat × Nat)) (total n : Nat) : Option Nat :=
  firstN (fun a => a + n ≤ total && used.all fun u => a + n ≤ u.1 || u.1 + u.2 ≤ a || n == 0 || u.2 == 0) (total + 1) 0

/-- The partition that a crew with A registers takes among those that its core choice allows: the one with most free
registers, the first among equals (R312). -/
def bestPart (ps : List PartFree) (ok : PartFree → Bool) (a : Nat) : Option Nat :=
  (List.range ps.length).foldl (fun best i =>
    match ps[i]? with
    | none => best
    | some p =>
      if !(ok p && !p.slots.isEmpty && decide (a ≤ p.regs)) then best
      else match best with
        | none => some i
        | some j => match ps[j]? with
          | some q => if q.regs < p.regs then some i else best
          | none => some i) none

/-- Crews in ascending %crew take their places: the key of each. `req` gives each crew's registers and, for a restore,
the core it must go to. -/
def takePlaces : List (Nat × Option Nat) → List PartFree → Option (List Nat)
  | [], _ => some []
  | (a, want) :: rs, ps =>
    let ok := fun (p : PartFree) => match want with | some c => p.core == c | none => true
    match bestPart ps ok a with
    | none => none
    | some i =>
      match ps[i]? with
      | none => none
      | some p =>
        match p.slots with
        | [] => none
        | n :: ns =>
          (takePlaces rs (ps.set i { p with regs := p.regs - a, slots := ns })).map fun ks => crewKey p.core n :: ks

/-- Sets of k of the numbers of a list, in ascending lexicographic order. -/
def subsets : List Nat → Nat → List (List Nat)
  | _, 0 => [[]]
  | [], _ + 1 => []
  | x :: xs, k + 1 => (subsets xs k).map (x :: ·) ++ subsets xs (k + 1)

/-- Granules of chosen core j of k (R312). -/
def granShare (plates k j : Nat) : Nat := plates / k + if j < plates % k then 1 else 0

/-- A place for a party: its cores, crew keys, bands and pool. -/
structure Fit where
  cores : List Nat
  keys : List Nat
  bands : List (Nat × Nat × Nat)
  pool : List (Nat × Nat × Nat)
  deriving DecidableEq, Repr

/-- Whether a set of cores takes a party (R312). `grans` gives the granules of chosen core j. -/
def fitOn (parts : Nat → Nat → PartFree) (rows grans : Nat → List (Nat × Nat)) (acc : Nat) (share : Nat → Nat)
    (req : List (Nat × Option Nat)) (cores : List Nat) : Option Fit :=
  let req := req.map fun r => (r.1, r.2.bind fun j => cores[j]?)
  match takePlaces req (cores.flatMap fun c => (List.range 6).map (parts c)) with
  | none => none
  | some keys =>
    let held := cores.filter fun c => keys.any fun k => coreOfKey k == c
    let bands := held.map fun c => (lowestRun (rows c) 256 acc).map fun r => (c, r, acc)
    let pool := (List.range cores.length).map fun j =>
      let c := cores.getD j 0
      (lowestRun (grans c) 512 (share j)).map fun g => (c, g, share j)
    if bands.any (·.isNone) || pool.any (·.isNone) then none
    else some ⟨cores, keys, bands.filterMap id, pool.filterMap id⟩

/-- The first choice on a die: k ascending, clusters ascending, sets ascending. -/
def State.findFit (s : State) (die : Nat) (ks : List Nat) (acc : Nat) (share : Nat → Nat → Nat) (req : List (Nat × Option Nat)) :
    Option Fit :=
  (ks.flatMap fun k => (List.range 9).flatMap fun cl => (subsets (upFrom (36 * die + 4 * cl) 4) k).map fun cs => (k, cs)).foldl
    (fun r x => match r with
      | some f => some f
      | none => fitOn s.partFree s.usedRows s.usedGrans acc (share x.1) req x.2) none

/-- Whether a packet's party fits an empty cluster (R306 code 3). -/
def fitsEmpty (d : BitVec 1024) : Bool :=
  (upFrom 1 (pkSpread d)).any fun k => (subsets [0, 1, 2, 3] k).any fun cs =>
    (fitOn emptyPart (fun _ => []) (fun _ => []) (pkAcc d) (granShare (pkPlates d) k)
      (List.replicate (pkCrews d) (pkAlloc d, none)) cs).isSome

/-! ## Placing a party -/

/-- Zeroes granules of a plate store and rows of an accumulator store, with their poison (R48, R53). -/
def Core.zeroed (c : Core) (g n r m : Nat) : Core :=
  let inP := fun (a : Nat) => decide (1024 * g ≤ a ∧ a < 1024 * (g + n))
  let inA := fun (e : Nat) => decide (256 * r ≤ e ∧ e < 256 * (r + m))
  { c with
    plate := c.plate.filter fun x => !inP x.1
    platePoison := c.platePoison.filter fun x => !inP (32 * x)
    acc := c.acc.filter fun x => !inA x.1
    accPoison := c.accPoison.filter fun x => !inA (8 * x) }

def State.zeroFit (s : State) (f : Fit) : State :=
  let s := f.pool.foldl (fun s b => s.onCore b.1 fun c => c.zeroed b.2.1 b.2.2 0 0) s
  f.bands.foldl (fun s b => s.onCore b.1 fun c => c.zeroed 0 0 b.2.1 b.2.2) s

/-- A test crew gives way to a party (R381): its core's next test waits GAP from now. -/
def State.endTests (s : State) (cores : List Nat) : State :=
  let ended := (s.crews.filter fun kc => kc.2.kind == .test && cores.contains (coreOfKey kc.1)).map fun kc => coreOfKey kc.1
  let s := ended.foldl (fun s n => s.onCore n fun c => { c with lastTest := some s.clk }) s
  { s with
    crews := s.crews.filter fun (kc : Nat × Crew) => !(kc.2.kind == .test && cores.contains (coreOfKey kc.1))
    parties := s.parties.filter fun kp => !(kp.2.isTest && kp.2.cores.any cores.contains) }

/-- The acquire at the start of crews placed from a packet (R316, R391). -/
def State.startAcquire (s : State) (cores : List Nat) (st : Clocks) : State :=
  cores.foldl (fun s n => s.coreAcquire n .dev (s.core n).ts st) s

/-- The party's objects as its kernel's directives declare them (R76). -/
def State.kernelOf (s : State) (ctx : Nat) (code : W64) : Kernel :=
  (s.kernels.find? fun x => x.ctx == ctx && x.code == code).getD ⟨ctx, code, [], []⟩

/-- A crew as R304 starts it. -/
def startCrew (w : WaitParty) (party num clk : Nat) (ts : Stamp) : Crew :=
  let d := w.packet
  { kind := if w.notice.isSome then .notice else .normal
    priv := w.priv, party, num, ctx := w.ctx, lctr := w.lctr, prio := w.prio
    s := if pkArgs d = 0 then [] else [(1, pkArgs d)]
    alloc := pkAlloc d
    spill := pkSpill d + BitVec.ofNat 64 (pkSpstr d * (w.num * pkCrews d + num))
    pend := lanes.map fun l => (l, pkCode d)
    check := w.check, throt := w.throt, readWts := ts, seen := w.stamps, readyAt := clk + 1, first := w.notice.getD 0 }

/-- A declared queue as `qcfg` would configure it: empty, with no allowances, of a depth from 1 to 64 (R76, R234). -/
def CQueue.declared (q : CQueue) : CQueue := { q with items := [], allow := [], depth := max 1 (min q.depth 64) }

/-- The party, its crews, pools, bands and objects, all in one event (R15). A `.queue` is configured as declared, also where its
producers are none or no crews of the party (log entry 38). -/
def State.placeNew (s : State) (w : WaitParty) (die : Nat) (f : Fit) : State :=
  let d := w.packet
  let key := partyKey w.lctr w.num
  let (gx, gy, _) := pkGrid d
  let n := pkCrews d
  let kn := s.kernelOf w.ctx (pkCode d)
  let party : Party := {
    lctr := w.lctr, num := w.num, ctx := w.ctx
    px := w.num % gx, py := w.num / gx % gy, pz := w.num / gx / gy
    ncrews := n, crews := f.keys, cluster := clusterOfCore (f.cores.headD 0), cores := f.cores, homeDie := die
    prio := w.prio, packet := d, priv := w.priv, notice := w.notice, pool := f.pool, bands := f.bands
    bars := kn.bars.map fun b => (b, { mask := BitVec.ofNat 64 (2 ^ n - 1) })
    queues := kn.queues.map fun q => (q.1, q.2.declared), trace := { run := w.run }, spill0 := (startCrew w key 0 s.clk 0).spill }
  let s := ((s.endTests f.cores).zeroFit f).startAcquire f.cores w.stamps
  let s := { s with parties := Map.put s.parties key party }
  (List.range n).foldl (fun s i =>
    let k := f.keys.getD i 0
    s.putCrew k (startCrew w key i s.clk (s.core (coreOfKey k)).ts)) s

/-! ## The return of a saved party (R334) -/

/-- The displacement of a pool or band between two cores of the same index. -/
def shiftOf (old new : List (Nat × Nat × Nat)) (oldCore newCore : Nat) : Int :=
  match old.find? (fun b => b.1 == oldCore), new.find? (fun b => b.1 == newCore) with
  | some a, some b => (b.2.1 : Int) - (a.2.1 : Int)
  | _, _ => 0

/-- A crew as it returns: blocked crews block again, `park` returns, others go on. One that was cancelled and blocks again ends
(R34). -/
def Crew.restored (c : Crew) (shift : Int) (clk : Nat) (ts : Stamp) : Crew :=
  let a := c.a.map fun x => (x.1, BitVec.ofNat 32 ((x.2.toNat + (wrapN (shift * 2 ^ 24) 32)) % 2 ^ 32))
  let mon := c.mon.map fun (m : Monitor) => { m with hit := true }
  let c := { c with
    a, sb := [], readyAt := clk + 1, readWts := ts, heldSince := clk, readySince := 0, lastIssue := 0, score := 0
    pushed := false, tries := 0, released := false, again := false, wasHeld := false, replayed := false, tags := [], mon }
  match c.phase with
  | .waiting (.park _ sd) =>
    let c := { c with mon := none }
    match sd with
    | some r => { (c.setS r 2).next with phase := .running }
    | none => { c.next with phase := .running }
  | .waiting w => if w.retried then { c with phase := .running } else { c with blockedSince := clk }
  | _ => c

/-- IDENT in the frame of a restored crew that is trapped (R324). -/
def State.rewriteIdent (s : State) (k : Nat) : State :=
  let c := s.crew k
  match c.trap with
  | some r =>
    if c.noticed then
      (s.devWrite c.ctx (c.spill - 0x40080 + 77) (bytesOf 4 (fld (s.frameNat k r) 616 32))).getD s
    else s
  | none => s

/-! The bytes of the crew areas and of the party save area are used as found (R305): the model's own copy stands where they cannot be
read. -/

/-- A crew with its registers, frame records and pending blocks as its area holds them. -/
def State.reload (s : State) (c : Crew) : Crew :=
  let words := fun (bs : List Byte) (n w : Nat) => (List.range n).map fun i => ofBytes ((bs.drop (w * i)).take w)
  let slot := fun (m : Map VSlot) (i : Nat) =>
    match s.devRead c.ctx (c.spill + BitVec.ofNat 64 (128 * c.holdsLog i)) 128 with
    | some bs =>
      let row := (words bs 32 4).map (BitVec.ofNat 32)
      if (Map.find? m i).isNone ∧ row = zeroRow then m else Map.put m i ⟨c.holdsLog i, false, row⟩
    | none => m
  let frames := (List.range c.frames.length).filterMap fun i => match s.devRead c.ctx (c.framePlace (c.depth - 1 - i)) 64 with
    | some bs => some (Frame.ofNat (ofBytes bs))
    | none => c.frames[i]?
  let pend := match s.devRead c.ctx (c.spill - 0x40180) 256 with
    | some bs => (List.zip (List.range 32) (words bs 32 8)).filterMap fun x => if x.2 = 0 then none else some (x.1, BitVec.ofNat 64 x.2)
    | none => c.pend
  { c with v := (List.range c.alloc).foldl slot c.v, frames, pend }

/-- The poisoned sectors among n bytes at an address, counted from it. -/
def State.sectorsAt (s : State) (ctx : Nat) (va : W64) (n : Nat) : List Nat :=
  (List.range (n / 32)).filter fun i => match s.xlate ctx (va + BitVec.ofNat 64 (32 * i)) .read with
    | .ok pa => s.isPoisoned (s.locOf ctx pa)
    | .error _ => false

/-- The runs of a pool, then the rows of bands, as the party save area holds them. -/
def State.poolBack (s : State) (ctx : Nat) : W64 → List (Nat × Nat × Nat) → List (List Host.Cell × List Nat) → List (List Host.Cell × List Nat)
  | va, b :: bs, y :: ys =>
    let n := 1024 * b.2.2
    (match s.devRead ctx va n with
      | some d => ((List.zip (List.range n) d).filter fun x => x.2 != 0, s.sectorsAt ctx va n)
      | none => y) :: s.poolBack ctx (va + BitVec.ofNat 64 n) bs ys
  | _, _, ys => ys
def State.bandBack (s : State) (ctx : Nat) : W64 → List (Nat × Nat × Nat) → List (Map W32 × List Nat) → List (Map W32 × List Nat)
  | va, b :: bs, y :: ys =>
    let n := 1024 * b.2.2
    (match s.devRead ctx va n with
      | some d => (((List.range (256 * b.2.2)).map fun i => (i, BitVec.ofNat 32 (ofBytes ((d.drop (4 * i)).take 4)))).filter fun x => x.2 != 0,
          s.sectorsAt ctx va n)
      | none => y) :: s.bandBack ctx (va + BitVec.ofNat 64 n) bs ys
  | _, _, ys => ys

/-- Free bytes of a record whose layout is not architectural. -/
def recordBytes (seed n : Nat) : List Byte := (List.range n).map fun i => Config.recordByte (seed * 65536 + i)

/-- The bytes of a record where they are no longer those that its save wrote. -/
def State.changedRecord (s : State) (ctx : Nat) (va : W64) (seed : Nat) : Option (List Byte) :=
  match s.devRead ctx va 4096 with
  | some bs => if bs = recordBytes seed 4096 then none else some bs
  | none => none

/-- What a save record gives of a crew (R332), by free words: the layout is not architectural. -/
def Crew.fromRecord (c : Crew) (bs : List Byte) : Crew :=
  let w := Config.recordWord bs
  { c with
    s := (upFrom 1 127).foldl (fun m i => Map.set 0 m i (w i)) []
    p := (upFrom 1 7).foldl (fun m i => Map.set 0 m i ((w (128 + i)).extractLsb' 0 32)) []
    k := (upFrom 0 4).foldl (fun m i => Map.set 0 m i (BitVec.ofNat 1024 (ofBytes ((upFrom 0 16).flatMap fun j =>
      bytesOf 8 (w (136 + 16 * i + j)).toNat)))) []
    laneFlags := lanes.foldl (fun m l => Map.set 0 m l ((w (200 + l)).extractLsb' 0 5)) []
    ctFlags := (w 232).extractLsb' 0 5, tflags := (w 233).extractLsb' 0 6, bkconf := (w 234).extractLsb' 0 32
    base := (w 235).extractLsb' 0 16, live := (w 236).extractLsb' 0 32, active := (w 237).extractLsb' 0 32
    batch := (w 238).extractLsb' 0 32, cancel := (w 239).extractLsb' 0 5
    t := (upFrom 0 16).foldl (fun m i => Map.put m i ((w (240 + i)).toNat % 256)) []
    a := (upFrom 0 8).foldl (fun m i => Map.put m i ((w (256 + i)).extractLsb' 0 32)) [] }

/-- What the header of a party save area gives of a party (R332), by free words. -/
def Party.fromHeader (p : Party) (bs : List Byte) : Party :=
  let w := Config.recordWord bs
  { p with
    bars := p.bars.map fun (b : Nat × Barrier) => (b.1, { b.2 with
      mask := w (16 * b.1), cur := (w (16 * b.1 + 1)).extractLsb' 0 16, arrived := (upFrom 2 4).map fun i => w (16 * b.1 + i) })
    queues := p.queues.map fun (q : Nat × CQueue) => (q.1, { q.2 with
      depth := (w (512 + q.1)).toNat % 64 + 1, producers := w (544 + q.1)
      items := q.2.items.map fun x => { x with item := (w (576 + q.1)).extractLsb' 0 32 } })
    plates := p.plates.map fun x => { x with owner := (w (640 + x.num)).getLsbD 0, eng := (w (640 + x.num)).extractLsb' 1 3 } }

/-- A saved party as its areas in memory hold it. -/
def State.refresh (s : State) (x : SavedParty) : SavedParty :=
  let p := x.party
  let area := p.spill0 + 0x841000
  { x with
    party := match s.changedRecord p.ctx (area - 4096) x.seed with | some bs => p.fromHeader bs | none => p
    crews := x.crews.map fun c => s.reload (match s.changedRecord c.ctx (c.spill - 0x41180) (x.seed + 1 + c.num) with
      | some bs => c.fromRecord bs
      | none => c)
    pool := s.poolBack p.ctx area p.pool x.pool
    bands := s.bandBack p.ctx (area + BitVec.ofNat 64 (1024 * (p.pool.map fun b => b.2.2).sum)) p.bands x.bands }

/-- A command of an array order on its party's new cores. -/
def ArrCmd.moved (x : ArrCmd) (crew : Nat) (rows : Int) (core : Nat → Nat) (grans : Nat → Int) : ArrCmd :=
  let op := fun (o : MatOp) => { o with core := core o.core, base := ((o.base : Int) + 1024 * grans o.core).toNat }
  { x with
    crew, stopped := false, reg := { x.reg with row0 := ((x.reg.row0 : Int) + rows).toNat }
    op := match x.op with
      | .mma ty a b k h => .mma ty (op a) (op b) k h
      | .acst half col r o => .acst half col r (op o)
      | y => y }

/-- Puts a saved party back on the cores chosen for it. What its crews have written and read lies behind the greatest clock of their
new die, to which the clocks of its cores rise (R62; log entry 57). -/
def State.placeSaved (s : State) (x0 : SavedParty) (die : Nat) (f : Fit) : State :=
  let x := s.refresh x0
  let p := x.party
  let key := partyKey p.lctr p.num
  let newCore := fun (old : Nat) => match p.cores.findIdx? (· == old) with
    | some j => f.cores.getD j 0
    | none => f.cores.headD 0
  let plates := p.plates.map fun y =>
    let old := 4 * p.cluster + y.core
    let sh := shiftOf p.pool f.pool old (newCore old)
    { y with core := newCore old % 4, base := ((y.base : Int) + sh).toNat }
  let s := f.cores.foldl (fun s c => s.coreAcquire c .dev (s.tlead (dieOfCore c)) []) ((s.endTests f.cores).zeroFit f)
  let q : Party := { p with
    crews := f.keys, cluster := clusterOfCore (f.cores.headD 0), cores := f.cores, homeDie := die, pool := f.pool
    bands := f.bands, plates }
  let s := { s with parties := Map.put s.parties key q, saved := s.saved.filter (· != x0) }
  let s := (f.pool.zip x.pool).foldl (fun s b => s.onCore b.1.1 fun c => { c with
    plate := memPut c.plate (b.2.1.map fun y => (1024 * b.1.2.1 + y.1, y.2))
    platePoison := b.2.2.foldl (fun l y => insN (32 * b.1.2.1 + y) l) c.platePoison }) s
  let s := (f.bands.zip x.bands).foldl (fun s b => s.onCore b.1.1 fun c => { c with
    acc := b.2.1.foldl (fun m y => Map.put m (256 * b.1.2.1 + y.1) y.2) c.acc
    accPoison := b.2.2.foldl (fun l y => insN (32 * b.1.2.1 + y) l) c.accPoison }) s
  let keyOf := fun (num : Nat) => match x.crews.findIdx? fun c => c.num == num with
    | some i => f.keys.getD i 0
    | none => 0
  let oldKey := fun (k : Nat) =>
    if isEnded k then endedKey (crewKey (newCore (coreOfKey k)) (slotOfKey k)) key
    else match p.crews.findIdx? (· == k) with
      | some i => f.keys.getD i 0
      | none => crewKey (newCore (coreOfKey k)) (slotOfKey k)
  let s := (x.crews.zip f.keys).foldl (fun s b =>
    let oldCore := match p.crews.findIdx? fun k => oldKey k == keyOf b.1.num with
      | some i => coreOfKey (p.crews.getD i 0)
      | none => 0
    let nc := coreOfKey b.2
    let mine := fun (g : AtomGroup) => { g with crew := b.2 }
    let held := b.1.held.map fun h => match h.eff with
      | .atoms gs => { h with eff := .atoms (gs.map mine) }
      | _ => h
    s.putCrew b.2 { b.1.restored (shiftOf p.bands f.bands oldCore nc) s.clk (s.core nc).ts with held }) s
  let s := s.onParty key fun q => { q with
    plates := q.plates.map fun y => { y with holder := oldKey y.holder }
    endB := q.endB.map fun y => (oldKey y.1, y.2) }
  let s := x.arr.foldl (fun (s : State) y =>
    let c := newCore y.1
    let z := y.2.moved (oldKey y.2.crew) (shiftOf p.bands f.bands y.1 c) newCore fun n => shiftOf p.pool f.pool n (newCore n)
    s.onCore c fun d => { d with array := d.array ++ [z] }) s
  let s := (x.crews.zip f.keys).foldl (fun (s : State) b => s.onCore (coreOfKey b.2) fun y => { y with
    laneWait := y.laneWait ++ b.1.tags.map (fun (t : LaneTag) => { t with crew := b.2, since := s.clk }) }) s
  let s := (x.crews.zip f.keys).foldl (fun (s : State) b => s.rewriteIdent b.2) s
  let s := x.evs.foldl (fun (s : State) e => s.onCore (newCore e.core) fun y => { y with evs := y.evs ++ [{ e with core := newCore e.core }] }) s
  let s := x.cmds.foldl (fun (s : State) c =>
    let k := oldKey c.crew
    s.onCore (coreOfKey k) fun y =>
      let c := { c with crew := k, stopped := false }
      match c.eng with
      | .copy => { y with copyQ := y.copyQ ++ [c] }
      | .gather => { y with gatherQ := y.gatherQ ++ [c] }
      | _ => { y with collQ := y.collQ ++ [c] }) s
  f.keys.foldl (fun (s : State) k => if (s.crew k).cancel ≠ 0 ∧ (s.crew k).cancelWait = true then s.endAll k else s) s

/-! ## Distributors (R312, R313) -/

/-- Whether the dispatcher and the distributors place nothing for a context (R327, R331). -/
def State.ctxStopped (s : State) (ctx : Nat) : Bool :=
  (s.ctx ctx).contained || (s.preempt.busy && !s.preempt.restoring && s.preempt.nowCtx.toNat == ctx) ||
    s.saved.any fun x => x.party.ctx == ctx && !s.dies.any fun d => d.2.waiting.any fun w =>
      w.restore == some (partyKey x.party.lctr x.party.num)

/-- A waiting party's priority follows its queue (R309); a saved party keeps its own. -/
def State.waitPrio (s : State) (w : WaitParty) : Nat :=
  if w.restore.isSome then w.prio else (Map.get {} s.queues w.q).prio.toNat

/-- The order of a distributor's list: priority, restored parties first, dequeue clk, %party. -/
def State.waitOrder (s : State) (ws : List WaitParty) : List WaitParty :=
  sortBy (fun w => (3 - s.waitPrio w)) (sortBy (fun w => if w.restore.isSome then 0 else 1) (sortBy (·.dequeued) (sortBy (·.num) ws)))

/-- Where a waiting party would go. -/
def State.fitFor (s : State) (die : Nat) (w : WaitParty) : Option Fit :=
  match w.restore with
  | none => s.findFit die (upFrom 1 (pkSpread w.packet)) (pkAcc w.packet) (granShare (pkPlates w.packet))
      (List.replicate (pkCrews w.packet) (pkAlloc w.packet, none))
  | some key =>
    match s.saved.find? fun x => partyKey x.party.lctr x.party.num == key with
    | none => none
    | some x =>
      let p := x.party
      let idx := fun (k : Nat) => p.cores.findIdx? (· == coreOfKey k)
      let share := fun (_ : Nat) (j : Nat) => match p.pool.find? fun b => some b.1 == p.cores[j]? with | some b => b.2.2 | none => 0
      s.findFit die [p.cores.length] (pkAcc p.packet) share ((x.crews.zip p.crews).map fun c => (c.1.alloc, idx c.2))

def State.placeOne (s : State) (die : Nat) (w : WaitParty) (f : Fit) : State :=
  let w := { w with prio := s.waitPrio w }
  let s := s.onDie die fun d => { d with waiting := d.waiting.filter fun x => !(x.lctr == w.lctr && x.num == w.num) }
  match w.restore with
  | none => s.placeNew w die f
  | some key => match s.saved.find? fun x => partyKey x.party.lctr x.party.num == key with
    | none => s
    | some x => s.placeSaved x die f

/-- Every party that fits is placed, in list order. A party that has waited too long holds back younger ones of its
priority or below. -/
def State.placeAll (s : State) (die : Nat) : List WaitParty → List (Nat × Nat) → State
  | [], _ => s
  | w :: ws, olds =>
    let blocked := olds.any fun o => s.waitPrio w ≤ o.1 && o.2 < w.dequeued
    match (if s.ctxStopped w.ctx || blocked then none else s.fitFor die w) with
    | some f => (s.placeOne die w f).placeAll die ws olds
    | none => s.placeAll die ws (if w.late then (s.waitPrio w, w.dequeued) :: olds else olds)

/-- PARTY_PLACE. -/
def execPartyPlace (die : Nat) (s : State) : Out := .next (s.placeAll die (s.waitOrder (s.die die).waiting) [])

/-- Parties that have waited 65,536 clk hold back younger ones (R313). -/
def State.waitLimit (s : State) (die : Nat) : State :=
  s.onDie die fun d => { d with waiting := d.waiting.map fun w => if w.since + 65536 ≤ s.clk then { w with late := true } else w }

/-- PLACEMENT_WAIT_LIMIT. -/
def execPlacementWaitLimit (die : Nat) (s : State) : Out := .next (s.waitLimit die)

end Sys2Proof.Machine
end

