-- ==== Sys2Proof/Machine/Launch.lean ====
section
/-! DEFINITION. Hardware queues and their registers (R300 to R302), the dispatcher (R306 to R311, R342), relaunches
(R363, R366), and the records of counters (R314). -/

namespace Sys2Proof.Machine

/-- What a write to the control region does: before READY it is discarded (R356). -/
def State.reg (s : State) (f : State → State) : Out := .next (if s.status.ready then f s else s)

/-- Whether a context number may stand in a CTX field (R338). -/
def State.ctxOk (s : State) (c : BitVec 16) : Bool := s.ctxExists c.toNat

/-! ## Pushes (R300, R301) -/

/-- QUEUE_PUSH. -/
def execQueuePush (q : Nat) (who : Pusher) (full : Bool) (data : BitVec 1024) (s : State) : Out :=
  s.reg fun s => if q < 64 then s.pushQueue q who full data [] else s

/-! ## QCTL (R301) -/

def State.onQueue (s : State) (q : Nat) (f : HwQueue → HwQueue) : State := { s with queues := Map.modify {} s.queues q f }

def HwQueue.droph (x : HwQueue) : HwQueue := { x with pkts := x.pkts.drop 1 }

/-- A write of QCTL: RW fields, then the bits that act once. -/
def execQctlWrite (q : Nat) (v : W64) (s : State) : Out :=
  s.reg fun s => s.onQueue q fun x =>
    if bf v 41 9 ≠ 0 ∨ bf v 16 16 ≠ 0 ∨ s.ctxOk (bf v 0 16) = false then { x with err := true }
    else
      let x := if bit v 61 then x.droph else x
      { x with
        err := false, halt := bit v 62, ovf := x.ovf && !bit v 56, part := x.part && !bit v 55, en := bit v 54
        privq := bit v 53, devpush := bit v 52, prio := bf v 50 2, ctx := bf v 0 16 }

/-- QCTL_DROPH. -/
def execQctlDroph (q : Nat) (s : State) : Out := s.reg fun s => s.onQueue q HwQueue.droph

/-- QCTL_CLEAR_OVF. -/
def execQctlClearOvf (q : Nat) (s : State) : Out := s.reg fun s => s.onQueue q fun x => { x with ovf := false }

/-- QCTL_CLEAR_PART. -/
def execQctlClearPart (q : Nat) (s : State) : Out := s.reg fun s => s.onQueue q fun x => { x with part := false }

/-! ## The checks of a packet at the head (R306) -/

/-- A dependence word whose form is a fault (R307). -/
def depBad (w : W64) : Bool :=
  bf w 15 1 != 0 || bf w 40 24 != 0 || (if bit w 12 then bf w 13 2 == 3 else w != 0)

def misaligned (x : W64) (n : Nat) : Bool := x.toNat % n != 0 || !canonical x

/-- Counters that a packet's used fields name. -/
def pktCounters (d : BitVec 1024) : List Nat :=
  [pkLctr d] ++
  (if bit d 368 then [(bf d 332 12).toNat] else []) ++ (if bit d 369 then [(bf d 344 12).toNat] else []) ++
  (if bit d 370 then [(bf d 356 12).toNat] else []) ++
  (if bit d 588 then [(bf d 576 12).toNat] else []) ++ (if bit d 652 then [(bf d 640 12).toNat] else [])

/-- Whether a launch holds a counter (R306 code 6, R363). -/
def Counter.launchHeld (c : Counter) : Bool := (c.armed && c.level == .launch && !c.done) || c.retained.isSome

/-- Fields that a relaunch request uses. -/
def relaunchMask : BitVec 1024 := BitVec.ofNat 1024 ((2 ^ 128 - 1) * 2 ^ 768 + (2 ^ 12 - 1) * 2 ^ 320 + 15)

/-- The fault code of a head packet, 0 for none. -/
def State.pktFault (s : State) (x : HwQueue) (d : BitVec 1024) : Nat :=
  let ctx := x.ctx.toNat
  let kind := (bf d 0 4).toNat
  let caddr := bf d 768 64
  let own := fun (n : Nat) => (s.ownCounter ctx n).isSome
  if 1 < kind then 1
  else if kind = 1 then
    if d &&& ~~~relaunchMask ≠ 0 then 2
    else if misaligned caddr 8 then 4
    else if !own (pkLctr d) then 5
    else if (s.ownRetained ctx (pkLctr d)).isNone then 6
    else 0
  else if bf d 960 64 ≠ 0 ∨ bf d 371 13 ≠ 0 ∨ bf d 304 16 ≠ 0 ∨ bf d 47 17 ≠ 0 ∨ bf d 4 2 ≠ 0 ∨ depBad (bf d 576 64) = true ∨
      depBad (bf d 640 64) = true then 2
  else if 256 < pkAcc d ∨ 512 * pkSpread d < pkPlates d ∨ fitsEmpty d = false then 3
  else if misaligned (pkCode d) 8 || misaligned (pkArgs d) 8 || misaligned (pkSpill d) 128 || pkSpstr d % 128 != 0 ||
      misaligned caddr 8 || misaligned (bf d 896 64) 128 || (bit d 6 && bf d 896 64 == 0) then 4
  else if (pktCounters d).any fun n => !own n then 5
  else if (s.counter (s.phys ctx 4096 (pkLctr d))).launchHeld then 6
  else if bit d 7 && !x.privq then 7
  else if 2 ^ 24 - 1 < pkParties d then 8
  else 0

/-! ## The dispatcher's choice (R307, R308, R366) -/

/-- Whether a dependence word holds. -/
def State.depHolds (s : State) (ctx : Nat) (w : W64) : Bool :=
  if !bit w 12 then true
  else
    let c := s.counter (s.phys ctx 4096 (bf w 0 12).toNat)
    match (bf w 13 2).toNat with
    | 0 => c.done
    | 1 => decide ((bf w 16 24).toNat ≤ c.count.toNat) || c.done
    | 2 => c.done && !c.canc
    | _ => false

/-- Whether every launch dequeued earlier from a queue has completed. -/
def State.queueIdle (s : State) (q : Nat) : Bool :=
  s.counters.all fun c => !(c.2.armed && c.2.level == .launch && c.2.q == q && !c.2.done)

/-- Whether a head packet may be dequeued. -/
def State.eligible (s : State) (q : Nat) (x : HwQueue) (p : Pkt) : Bool :=
  let ctx := x.ctx.toNat
  let d := p.data
  let dev := s.ctxDev ctx
  !x.halt && s.pktFault x d == 0 && decide (s.slots.length < 16) && !s.ctxStopped ctx &&
    ((devPairs s.mode.mode dev).any fun p => s.status.pairs.getLsbD p) &&
    (if bf d 0 4 = 1 then (s.counter (s.phys ctx 4096 (pkLctr d))).done && s.queueIdle q
     else s.depHolds ctx (bf d 576 64) && s.depHolds ctx (bf d 640 64) &&
       (!bit d 9 || decide ((bf d 704 64).toNat ≤ s.datumTime)))

/-- Head packets that fail a check halt their queues. -/
def State.haltQueues (s : State) : State :=
  { s with queues := s.queues.map fun (kx : Nat × HwQueue) =>
      match kx.2.pkts with
      | [] => kx
      | p :: _ =>
        let f := s.pktFault kx.2 p.data
        if kx.2.halt ∨ f = 0 then kx else (kx.1, { kx.2 with halt := true, fault := BitVec.ofNat 4 f }) }

/-- Highest priority, then lowest age, then the lowest queue. -/
def State.chooseQueue (s : State) : Option (Nat × HwQueue × Pkt) :=
  let cs := s.queues.filterMap fun (kx : Nat × HwQueue) => match kx.2.pkts with
    | p :: _ => if s.eligible kx.1 kx.2 p then some (kx.1, kx.2, p) else none
    | [] => none
  minBy (fun (c : Nat × HwQueue × Pkt) => ((3 - c.2.1.prio.toNat) * 2 ^ 80 + c.2.2.age) * 64 + c.1) cs

/-- The stamps that a launch's crews acquire: the push's release, and those of its dependences. -/
def State.launchStamps (s : State) (ctx : Nat) (p : Pkt) : Clocks :=
  let dep := fun (w : W64) (m : Clocks) =>
    if bit w 12 then joinStamps m (s.counter (s.phys ctx 4096 (bf w 0 12).toNat)).stamps else m
  dep (bf p.data 640 64) (dep (bf p.data 576 64) p.stamp)

/-- The dequeue of a launch packet: its counter, its retention, and its launch slot. -/
def State.dequeueLaunch (s : State) (q : Nat) (x : HwQueue) (p : Pkt) : State :=
  let ctx := x.ctx.toNat
  let d := p.data
  let dev := s.ctxDev ctx
  let ps := s.pktParents ctx d
  let s := s.onQueue q HwQueue.droph
  if ps.any fun lp => (s.counter lp.2).cancelReq && !(s.counter lp.2).done then s.discardPacket ctx d
  else
    let lctr := s.phys ctx 4096 (pkLctr d)
    let s := State.linkParents ps s
    let cfg := Map.get {} s.devCfg dev
    let stamps := s.launchStamps ctx p
    let s := s.onCounter lctr fun c => { c with
      caddr := bf d 768 64, endv := BitVec.ofNat 24 (pkParties d), count := 0, done := false, canc := false
      level := .launch, cval := bf d 832 64, parents := ps, armed := true, cancelReq := false, relaunching := false, q
      stamps := []
      retained := if bit d 6 then some ⟨bf d 896 64, (Map.get {} s.ckpt dev).num⟩ else none }
    let s := if bit d 6 then s.writeTrace lctr 0 (bytesOf 128 d.toNat) else s
    { s with slots := s.slots ++ [{
        packet := d, ctx, dev, q, prio := x.prio.toNat, lctr, age := p.age, dequeued := s.clk, next := 0, parties := none
        priv := bit d 7, notice := p.notice, check := cfg.check, throt := cfg.throt, stamps }] }

/-! ## Relaunch (R366) -/

/-- The dirty map that serves a launch. -/
def State.mapOf (s : State) (ctx lctr : Nat) : Option (Nat × DirtyMap) :=
  List.find? (fun (m : Nat × DirtyMap) => m.2.en && m.2.ctx.toNat == ctx && s.phys ctx 4096 m.2.lctr.toNat == lctr) s.dirtyMaps

/-- Whether a party reruns, by its entry and the captured map. -/
def rerun (m : Option DirtyMap) (e : Nat) : Bool :=
  match m with
  | none => true
  | some m =>
    fld e 63 1 == 0 || fld e 62 1 == 1 || fld e 61 1 == 1 ||
      (List.range (fld e 56 5)).any fun i =>
        let first := fld e (60 * i + 64) 40
        let cnt := fld e (60 * i + 104) 20
        m.count first (first + cnt) != 0

/-- The parties that run again, with their run numbers. -/
def State.reruns (s : State) (ctx : Nat) (trace : W64) (m : Option DirtyMap) (n : Nat) : List (Nat × W32) :=
  (List.range n).filterMap fun i =>
    let e := match s.devRead ctx (trace + BitVec.ofNat 64 (128 * (i + 1))) 128 with | some bs => ofBytes bs | none => 0
    if rerun m e then some (i, BitVec.ofNat 32 (fld e 0 32 + 1)) else none

/-- The relaunch of a retained launch from a request packet. The counters of the header copy's enclosing instances step as at its
first dispatch (R33, R366). -/
def State.relaunch (s : State) (q : Nat) (x : HwQueue) (p : Pkt) : State :=
  let ctx := x.ctx.toNat
  let dev := s.ctxDev ctx
  let lctr := s.phys ctx 4096 (pkLctr p.data)
  let s := s.onQueue q HwQueue.droph
  match (s.counter lctr).retained with
  | none => s
  | some r =>
    let m := s.mapOf ctx lctr
    let s := match m with
      | some (n, y) => { s with dirtyMaps := Map.put s.dirtyMaps n { y with bits := [], epoch := y.epoch + 1 } }
      | none => s
    let s := s.onCounter lctr fun c => { c with
      caddr := bf p.data 768 64, cval := bf p.data 832 64, count := 0, done := false, canc := false, armed := true
      cancelReq := false, relaunching := true, q, stamps := [] }
    match s.devRead ctx r.trace 128 with
    | none => (s.onCounter lctr fun c => { c with retained := none, cancelReq := true, count := c.endv }).push (.instanceComplete lctr)
    | some bs =>
      let d := BitVec.ofNat 1024 (ofBytes bs)
      let n := pkParties d
      let ps := s.pktParents ctx d
      let s := (State.linkParents ps s).onCounter lctr fun c => { c with level := .launch, parents := ps }
      let rs := s.reruns ctx r.trace (m.map fun y => y.2) n
      let s := s.onCounter lctr fun c => { c with endv := BitVec.ofNat 24 n, count := BitVec.ofNat 24 (n - rs.length) }
      if rs.isEmpty then s.push (.instanceComplete lctr)
      else
        let cfg := Map.get {} s.devCfg dev
        { s with slots := s.slots ++ [{
            packet := d, ctx, dev, q, prio := x.prio.toNat, lctr, age := p.age, dequeued := s.clk, next := 0, parties := some rs
            priv := bit d 7 && x.privq, notice := none, check := cfg.check, throt := cfg.throt
            stamps := s.launchStamps ctx { p with data := 0 } }] }

/-- PACKET_DEQUEUE: the decision uses the queues and counters as they stand, and the packet leaves before any push of the clk (R302,
R308). -/
def execPacketDequeue (s : State) : Out :=
  let s := s.haltQueues
  match s.chooseQueue with
  | none => .next s
  | some (q, x, p) => .next (if bf p.data 0 4 = 1 then s.relaunch q x p else s.dequeueLaunch q x p)

/-- RELAUNCH_DEQUEUE. -/
def execRelaunchDequeue (q : Nat) (s : State) : Out :=
  let x := Map.get {} s.queues q
  match x.pkts with
  | [] => .next s
  | p :: _ => .next (if bf p.data 0 4 = 1 ∧ s.eligible q x p = true then s.relaunch q x p else s)

/-! ## Sending parties (R311, R342) -/

/-- A signed stride of a packet times an index. -/
def strideMul (d : BitVec 1024) (lo i : Nat) : Int := (bf d lo 32).toInt * i

/-- The logical home die of a party before lost pairs are passed over. -/
def State.homeOf (s : State) (x : LaunchSlot) (n : Nat) : Nat :=
  let d := x.packet
  let (gx, gy, _) := pkGrid d
  let va := bf d 384 64 + BitVec.ofInt 64
    (strideMul d 448 (n % gx) + strideMul d 480 (n / gx % gy) + strideMul d 512 (n / gx / gy))
  let plain := n % (devPairs s.mode.mode x.dev).length
  if !bit d 8 then plain
  else match (if canonical va then s.walk x.ctx va else none) with
    | some lf => homeE s.mode.mode (lf.pa va.toNat)
    | none => plain

/-- The physical home die: the next logical die whose pair is good. -/
def State.homeDie (s : State) (x : LaunchSlot) (n : Nat) : Option Nat :=
  let k := (devPairs s.mode.mode x.dev).length
  let e := s.homeOf x n
  ((List.range k).map fun i => (s.ctx x.ctx).pair ((e + i) % k)).find? fun p => s.status.pairs.getLsbD p

/-- The next party of a slot and its run number. -/
def LaunchSlot.head (x : LaunchSlot) : Option (Nat × W32) :=
  match x.parties with
  | none => if x.next < pkParties x.packet then some (x.next, 0) else none
  | some ps => ps[0]?
def LaunchSlot.tail (x : LaunchSlot) : LaunchSlot :=
  match x.parties with
  | none => { x with next := x.next + 1 }
  | some ps => { x with parties := some (ps.drop 1) }

/-- Whether a die's distributor holds all the waiting parties that it can. -/
def State.dieFull (s : State) (die : Nat) : Bool := 4096 ≤ (s.die die).waiting.length

/-- The next parties in order: those bound for full dies are passed over (R311). -/
def State.pickNext (s : State) : Nat → LaunchSlot → Option (LaunchSlot × Nat × Nat × W32)
  | 0, _ => none
  | fuel + 1, x =>
    match x.head with
    | none => none
    | some (n, run) => match s.homeDie x n with
      | none => none
      | some die =>
        if s.dieFull die then s.pickNext fuel { x.tail with passed := x.passed ++ [(n, run)] }
        else some (x.tail, die, n, run)

/-- The lowest party of a slot that can be sent: what the slot then holds, its die, and the party. -/
def State.sendable (s : State) (x : LaunchSlot) : Option (LaunchSlot × Nat × Nat × W32) :=
  if s.ctxStopped x.ctx || (devPairs s.mode.mode x.dev).all s.dieFull then none
  else
    let free := x.passed.filterMap fun (p : Nat × W32) => match s.homeDie x p.1 with
      | some die => if s.dieFull die then none else some (die, p)
      | none => none
    match free with
    | (die, p) :: _ => some ({ x with passed := x.passed.erase p }, die, p.1, p.2)
    | [] => s.pickNext (pkParties x.packet) x

/-- One party of the first slot, by priority and then the age of its packet, that can send one. -/
def State.sendOne (s : State) : State :=
  let cs := s.slots.filterMap fun x => (s.sendable x).map fun y => (x, y)
  match minBy (fun (c : LaunchSlot × LaunchSlot × Nat × Nat × W32) =>
      (3 - (Map.get {} s.queues c.1.q).prio.toNat) * 2 ^ 80 + c.1.age) cs with
  | none => s
  | some (x, y, die, n, run) =>
    let w : WaitParty := {
      lctr := x.lctr, num := n, ctx := x.ctx, q := x.q, prio := (Map.get {} s.queues x.q).prio.toNat, dequeued := x.dequeued
      since := s.clk, packet := x.packet, priv := x.priv, notice := x.notice, run, check := x.check, throt := x.throt
      stamps := x.stamps }
    let s := s.onDie die fun d => { d with waiting := d.waiting ++ [w] }
    { s with slots := if y.head.isNone && y.passed.isEmpty then s.slots.filter (· != x) else s.slots.map fun z => if z = x then y else z }

/-- PARTY_SEND: at most four parties. -/
def execPartySend (s : State) : Out := .next s.sendOne.sendOne.sendOne.sendOne

/-! ## Counter records (R314) -/

/-- COUNTER_CONTROL_WRITE. -/
def execCounterControlWrite (n : Nat) (v : BitVec 128) (s : State) : Out :=
  s.reg fun s => s.onCounter n fun c =>
    if bf v 0 23 ≠ 0 ∨ (bf v 64 64).toNat % 8 ≠ 0 ∨ s.ctxOk (bf v 48 16) = false ∨ (c.count ≠ 0 ∧ c.done = false) then
      { c with err := true }
    else
      let held := c.armed && c.level == .launch && !c.done
      { c with
        caddr := bf v 64 64, ctx := bf v 48 16, endv := bf v 24 24, err := false, count := 0, done := false, canc := false
        armed := true, cancelReq := false, stamps := []
        level := if held then c.level else .graph
        parents := if held then c.parents else [] }

end Sys2Proof.Machine
end

