-- ==== Sys2Proof/Machine/Transport.lean ====
section
/-! DEFINITION. The Falbundi transport (R346 to R349), and the effects that leave a core (R287), which may push to it. -/

namespace Sys2Proof.Machine

def State.onX (s : State) (x : Nat) (f : XQueue → XQueue) : State := { s with xqueues := Map.modify {} s.xqueues x f }

/-! ## XCTL and pushes (R347) -/

/-- A push to a transport queue's window. -/
def State.pushX (x : Nat) (who : Pusher) (full : Bool) (data : BitVec 1024) (s : State) : State :=
  s.onX x fun q =>
    if !full then { q with part := true }
    else
      let ok := match who with
        | .driver => true
        | .companion ctx => q.devpush && ctx == q.ctx.toNat
        | .crew k => q.devpush && (s.crew k).ctx == q.ctx.toNat
      if q.en && ok && decide (q.descs.length < 256) then { q with descs := q.descs ++ [data] } else { q with ovf := true }

/-- TRANSPORT_DESCRIPTOR_PUSH. -/
def execTransportDescriptorPush (x : Nat) (who : Pusher) (full : Bool) (data : BitVec 1024) (s : State) : Out :=
  s.reg fun s => if x < 16 then s.pushX x who full data else s

/-- XCTL_WRITE. -/
def execXctlWrite (x : Nat) (v : W64) (s : State) : Out :=
  s.reg fun s => s.onX x fun q =>
    if bf v 57 6 ≠ 0 ∨ bit v 53 = true ∨ bf v 41 11 ≠ 0 ∨ bf v 16 16 ≠ 0 ∨ s.ctxOk (bf v 0 16) = false ∨
        (bf v 0 16 ≠ q.ctx ∧ q.descs ≠ []) then { q with err := true }
    else { q with
      err := false, ovf := q.ovf && !bit v 56, part := q.part && !bit v 55, en := bit v 54, devpush := bit v 52, ctx := bf v 0 16 }

/-- XCTL_CLEAR_OVF. -/
def execXctlClearOvf (x : Nat) (s : State) : Out := s.reg fun s => s.onX x fun q => { q with ovf := false }

/-- XCTL_CLEAR_PART. -/
def execXctlClearPart (x : Nat) (s : State) : Out := s.reg fun s => s.onX x fun q => { q with part := false }

/-! ## Descriptors (R348) -/

def xdWrite (d : BitVec 1024) : Bool := bf d 0 4 == 0
def xdLen (d : BitVec 1024) : Nat := (bf d 224 32).toNat
def xdCaddr (d : BitVec 1024) : W64 := bf d 384 64
def xdCval (d : BitVec 1024) : W64 := bf d 448 64

/-- The physical number of a descriptor's peer record. -/
def State.xdPeer (s : State) (q : XQueue) (d : BitVec 1024) : Nat := s.phys q.ctx.toNat 1024 (bf d 192 10).toNat

/-- The first address of each page piece of a range, with the bytes it has there. -/
def pieces (va : W64) (n : Nat) : List (W64 × Nat) :=
  let first := va.toNat / 4096
  let last := (va.toNat + n - 1) / 4096
  (List.range (last + 1 - first)).map fun i =>
    let a := max va.toNat ((first + i) * 4096)
    (BitVec.ofNat 64 a, min (va.toNat + n) ((first + i + 1) * 4096) - a)

/-- Whether a sector of n bytes at a location is poisoned. -/
def State.poisonedIn (s : State) (loc n : Nat) : Bool :=
  (upFrom (loc / 32) ((loc + n - 1) / 32 + 1 - loc / 32)).any fun x => s.isPoisoned (32 * x)

/-- Why a descriptor fails before it is sent, 0 for no reason: the causes of SRC 12 (R385). -/
def State.xdFault (s : State) (x : Nat) (q : XQueue) (d : BitVec 1024) : Nat :=
  let ctx := q.ctx.toNat
  let p := s.xdPeer q d
  let r := Map.get {} s.peers p
  let wr := xdWrite d
  let src := pieces (bf d 256 64) (xdLen d)
  let pa : W64 → Need → Option Nat := fun v n => match s.xlate ctx v n with | .ok a => some (s.locOf ctx a) | .error _ => none
  if 1 < (bf d 0 4).toNat ∨ bf d 512 512 ≠ 0 ∨ bf d 202 22 ≠ 0 ∨ bf d 5 187 ≠ 0 ∨ (xdCaddr d).toNat % 8 ≠ 0 ∨
      (if wr then xdLen d = 0 ∨ 2 ^ 30 < xdLen d else bf d 320 64 ≠ 0 ∨ bf d 256 64 ≠ 0 ∨ xdLen d ≠ 0 ∨ bit d 4 = true) then 6
  else if s.inShare 1024 (bf d 192 10).toNat = false ∨ r.en = false ∨ r.ctx ≠ q.ctx then 1
  else match Map.find? r.failed x with
    | some c => c
    | none =>
      if xdCaddr d ≠ 0 ∧ (pa (xdCaddr d) .write).isNone = true then 2
      else if !wr then 0
      else if src.any fun y => (pa y.1 .read).isNone then 2
      else if src.any fun y => match pa y.1 .read with | some loc => s.poisonedIn loc y.2 | none => false then 4
      else 0

/-- A completion write of a descriptor, as agent 57. -/
def State.xdSignal (s : State) (q : XQueue) (d : BitVec 1024) (v : W64) : State :=
  if xdCaddr d = 0 then s
  else (s.devWrite q.ctx.toNat (xdCaddr d) (bytesOf 8 v.toNat)).getD s

/-- The head descriptor of a queue fails, and every later one to its peer will. -/
def State.xdFail (s : State) (x cause : Nat) : State :=
  let q := Map.get {} s.xqueues x
  match q.descs with
  | [] => s
  | d :: ds =>
    let p := s.xdPeer q d
    let s := s.onX x fun q => { q with descs := ds }
    let s := if s.inShare 1024 (bf d 192 10).toNat then
        { s with peers := Map.modify {} s.peers p fun r => { r with failed := Map.put r.failed x cause } } else s
    (s.xdSignal q d (xdCval d ^^^ 0x8000000000000000)).report
      { src := 12, detail := BitVec.ofNat 64 (p + cause * 2 ^ 16), ctx := q.ctx.toNat, agent := 57 }

/-- A head descriptor that cannot be sent fails as it starts. -/
def State.xdStart (s : State) (x : Nat) : State :=
  let q := Map.get {} s.xqueues x
  match q.descs with
  | [] => s
  | d :: _ => if s.xdFault x q d = 0 then s else s.xdFail x (s.xdFault x q d)

/-- TRANSPORT_DESCRIPTOR_COMPLETE: the head descriptor's bytes, or the writes before a fence, are acknowledged. -/
def execTransportDescriptorComplete (x : Nat) (s : State) : Out :=
  let q := Map.get {} s.xqueues x
  match q.descs with
  | [] => .next s
  | d :: ds =>
    if s.xdFault x q d ≠ 0 then .next (s.xdFail x (s.xdFault x q d))
    else .next ((s.onX x fun q => { q with descs := ds }).xdSignal q d (xdCval d))

/-- TRANSPORT_ACK_TIMEOUT. -/
def execTransportAckTimeout (x : Nat) (s : State) : Out := .next (s.xdFail x 5)

/-- TRANSPORT_PEER_REFUSAL. -/
def execTransportPeerRefusal (x : Nat) (s : State) : Out := .next (s.xdFail x 3)

/-- TRANSPORT_INCOMING_WRITE (R349): performed coherently as agent 57, or refused. -/
def execTransportIncomingWrite (rpeer : Nat) (mac : BitVec 48) (rctx : Nat) (raddr : W64) (_rel : Bool) (data : List Byte)
    (s : State) : Out :=
  let r := Map.get {} s.peers rpeer
  s.reg fun s =>
    if r.en && r.mac == mac && r.ctx.toNat == rctx && decide (rpeer < 1024) then (s.devWrite rctx raddr data).getD s else s

/-! ## Peer records (R349) -/

/-- Whether a descriptor to a peer is in flight: it stands at the head of its queue. -/
def State.peerBusy (s : State) (p : Nat) : Bool :=
  s.xqueues.any fun x => match x.2.descs with | d :: _ => s.xdPeer x.2 d == p | [] => false

/-- PEER_RECORD_WRITE. -/
def execPeerRecordWrite (p : Nat) (v : BitVec 128) (s : State) : Out :=
  s.reg fun s => { s with
    peers := Map.modify {} s.peers p fun r =>
      if bf v 76 4 ≠ 0 ∨ bf v 2 14 ≠ 0 ∨ (bit v 0 = true ∧ bf v 64 12 = 0) ∨ s.ctxOk (bf v 32 16) = false ∨ s.peerBusy p = true then
        { r with err := true }
      else { mac := bf v 80 48, ports := bf v 64 12, rctx := bf v 48 16, ctx := bf v 32 16, rpeer := bf v 16 16, en := bit v 0 } }

/-! ## Effects that leave a core (R287) -/

/-- EFFECT_LEAVES_CORE: the oldest held effect of a crew. -/
def execEffectLeavesCore (k : Nat) (s : State) : Out :=
  let c := s.crew k
  match c.held with
  | [] => .next s
  | h :: hs =>
    if !s.mayLeave k c then .next s
    else
      let push := fun (q : Nat) (full : Bool) (data : BitVec 1024) (s : State) => { s with pushes := s.pushes ++ [⟨k, q, full, data, (s.crew k).carries h⟩] }
      match (s.onCrew k fun c => { c with held := hs }).leave k (fun cs s => s.ctlOut k push State.pushX cs) h with
      | some s' => .next s'
      | none => .next s

end Sys2Proof.Machine
end

