-- ==== Sys2Proof/Machine/Records.lean ====
section
/-! DEFINITION. Writes of the records and registers of the control region that have no machinery of their own (R9, R337):
sheet homes (R319), trap configurations (R322), collective groups (R226), dirty maps (R364), injection (R377), counter
records (R382, R383) and the configuration registers (R262, R276, R283, R286, R328). -/

namespace Sys2Proof.Machine

/-! ## Sheet homes (R319) -/

/-- Whether every byte of a range translates with write permission. -/
def State.writable (s : State) (ctx : Nat) (va : W64) (n : Nat) : Bool :=
  (pieces va n).all fun x => match s.xlate ctx x.1 .write with | .ok _ => true | .error _ => false

/-- SHEET_HOME_WRITE: after the requests that have reached the home. -/
def execSheetHomeWrite (h : Nat) (v : BitVec 128) (s : State) : Out :=
  s.reg fun s =>
  let s := (Map.get {} s.sheets h).reqs.foldl (fun s _ => s.serveHome h) s
  { s with
    sheets := Map.modify {} s.sheets h fun x =>
      let ctx := bf v 80 16
      let image := bf v 7 57
      if bf v 75 4 ≠ 0 ∨ bf v 0 7 ≠ 0 ∨
          (bit v 74 = true ∧ (s.ctxOk ctx = false ∨
            s.writable ctx.toNat (BitVec.ofNat 64 (image.toNat * 128)) (16 * ((bf v 64 10).toNat + 1)) = false)) then
        { x with err := true }
      else { x with
        epoch := bf v 96 32, ctx, err := false, en := bit v 74, slots := bf v 64 10, image, level := 0, posted := 0
        stamps := [] } }

/-! ## Trap configurations (R322) -/

/-- TRAP_CONFIG_WRITE. -/
def execTrapConfigWrite (ctx : Nat) (v : BitVec 256) (s : State) : Out :=
  s.reg fun s => { s with
    trapCfg := Map.modify {} s.trapCfg ctx fun x =>
      if bf v 16 111 ≠ 0 ∨ bf v 1 9 ≠ 0 ∨ (bf v 192 64).toNat % 8 ≠ 0 ∨ (bf v 128 64).toNat % 128 ≠ 0 ∨
          s.inShare 64 (bf v 10 6).toNat = false ∨ 128 ≤ ctx then { x with err := true }
      else { lhentry := bf v 192 64, tmpl := bf v 128 64, err := false, tq := bf v 10 6, en := bit v 0 } }

/-! ## Collective groups (R226) -/

/-- COLL_GROUP_WRITE. -/
def execCollGroupWrite (g : Nat) (v : W64) (s : State) : Out :=
  s.reg fun s => { s with
    groups := Map.modify {} s.groups g fun x =>
      let m := bf v 0 11
      if bf v 48 15 ≠ 0 ∨ bf v 11 21 ≠ 0 ∨ m = 1 ∨ 1024 < m.toNat ∨ s.ctxOk (bf v 32 16) = false ∨ x.arrivals ≠ [] then
        { x with err := true }
      else { err := false, ctx := bf v 32 16, members := m, arrivals := [] } }

/-! ## Dirty maps (R364) -/

/-- Parcels of [lo, hi] that R47 homes at logical pair e: each aligned block of 8 parcels holds the same share. -/
def homedIn (mode : BitVec 4) (k e lo hi : Nat) : Nat :=
  let one := fun (ps : List Nat) => (ps.filter fun p => homeE mode (4096 * p) == e).length
  let a := (lo + 7) / 8
  let b := (hi + 1) / 8
  if a ≤ b then (b - a) * (8 / k) + one (upFrom lo (8 * a - lo)) + one (upFrom (8 * b) (hi + 1 - 8 * b))
  else one (upFrom lo (hi + 1 - lo))

/-- Bits that the enabled maps of a device need at the memory die of logical pair e. -/
def State.mapBits (s : State) (dev e : Nat) (ms : Map DirtyMap) : Nat :=
  let k := (devPairs s.mode.mode dev).length
  ((ms.filter fun m => m.2.en && s.ctxDev m.2.ctx.toNat == dev).map fun m =>
    homedIn s.mode.mode k e m.2.base.toNat (m.2.base.toNat + m.2.len.toNat)).sum

/-- DIRTY_MAP_WRITE: an accepted write clears every bit and sets EPOCH to 0. -/
def execDirtyMapWrite (m : Nat) (v : BitVec 128) (s : State) : Out :=
  s.reg fun s =>
    let x := Map.get {} s.dirtyMaps m
    let ctx := bf v 32 16
    let y : DirtyMap := { base := bf v 88 40, len := bf v 62 26, err := false, en := bit v 60, lctr := bf v 48 12, ctx }
    let dev := s.ctxDev ctx.toNat
    let all := Map.put s.dirtyMaps m y
    let twin := s.dirtyMaps.any fun z => z.1 != m && z.2.en && z.2.ctx == ctx && z.2.lctr == y.lctr
    let full := y.en && (List.range (devPairs s.mode.mode dev).length).any fun e => decide (2 ^ 25 < s.mapBits dev e all)
    { s with dirtyMaps := if s.ctxOk ctx = false ∨ twin = true ∨ full = true then Map.put s.dirtyMaps m { x with err := true } else all }

/-! ## Injection (R377) -/

/-- INJECT_CFG_WRITE. -/
def execInjectCfgWrite (v : BitVec 128) (s : State) : Out :=
  s.reg fun s => { s with
    inject :=
      let arm := bit v 61
      if bf v 72 6 ≠ 0 ∨ bf v 32 29 ≠ 0 ∨ 15 < (bf v 64 8).toNat ∨ (arm = true ∧ bf v 0 32 = 0) then { s.inject with err := true }
      else { line := bf v 83 45, word := bf v 78 5, port := bf v 64 8, err := false
             fired := s.inject.fired && !arm, arm, mask := bf v 0 32 } }

/-! ## Counter records (R382, R383) -/

/-- COUNTER_RECORD_CLEAR: the value written is ignored. -/
def execCounterRecordClear (r : CntRec) (s : State) : Out :=
  s.reg fun s => match r with
    | .core c => s.onCnt c fun _ => {}
    | .mem m => s.onMem m fun _ => {}
    | .switch => { s with swCnt := {} }

/-! ## Configuration registers -/

def State.onCfg (s : State) (d : Nat) (f : DevCfg → DevCfg) : State :=
  if s.devExists d then { s with devCfg := Map.modify {} s.devCfg d f } else s

/-- REGISTER_WRITE: LEASE_CFG, CHK_CFG, CRW_CFG, FIX_DEPTH and STRIKE_CFG. -/
def execRegisterWrite (r : CfgReg) (v : W32) (s : State) : Out :=
  s.reg fun s => match r with
    | .leaseCfg die => s.onDie die fun d =>
      if bf v 20 11 ≠ 0 ∨ bf v 0 8 = 0 ∨ (bf v 8 12).toNat < 16 then { d with leaseErr := true }
      else { d with leaseErr := false, tick := bf v 8 12, lease := bf v 0 8 }
    | .chkCfg d => s.onCfg d fun c =>
      if bf v 3 28 ≠ 0 then { c with chkErr := true }
      else { c with chkErr := false, hold := bit v 2, cchk := bit v 1, rchk := bit v 0 }
    | .crwCfg d => s.onCfg d fun c =>
      if bf v 2 29 ≠ 0 then { c with crwErr := true } else { c with crwErr := false, throt := bit v 1, check := bit v 0 }
    | .fixDepth d => s.onCfg d fun c =>
      if bf v 6 25 ≠ 0 ∨ (bf v 0 6).toNat < 16 ∨ 48 < (bf v 0 6).toNat then { c with fixErr := true }
      else { c with fixErr := false, fix := bf v 0 6 }
    | .strikeCfg => { s with
        strike := if bf v 12 19 ≠ 0 ∨ bf v 1 3 ≠ 0 then { s.strike with err := true }
          else { err := false, sens := bf v 4 8, en := bit v 0 } }

end Sys2Proof.Machine
end

