-- ==== Sys2Proof/Machine/Contexts.lean ====
section
/-! DEFINITION. Contexts (R338), partition modes (R339), the die table (R341), bias flips (R277, R344) and containment
domains (R353). -/

namespace Sys2Proof.Machine

/-! ## Who still has parties -/

/-- Whether a context has a party resident, waiting in a distributor or in a launch slot. -/
def State.ctxRuns (s : State) (ctx : Nat) : Bool :=
  (s.parties.any fun p => p.2.ctx == ctx && !p.2.isTest) || s.slots.any (·.ctx == ctx) || s.dies.any fun d => d.2.waiting.any (·.ctx == ctx)

/-- The same, or a party saved and not yet restored. -/
def State.ctxBusy (s : State) (ctx : Nat) : Bool := s.ctxRuns ctx || s.saved.any (·.party.ctx == ctx)

/-! ## Default maps (R341) -/

/-- The default map of a device. -/
def defaultMap (mode : BitVec 4) (dev : Nat) : W32 :=
  let ps := devPairs mode dev
  BitVec.ofNat 32 ((List.range ps.length).foldl (fun x e => x + (8 + ps.getD e 0) * 16 ^ e) 0)

/-- The lowest device that exists under a mode. -/
def lowestDev (mode : BitVec 4) (pairs : BitVec 8) : Nat := if mode = 8 then (firstN pairs.getLsbD 8 0).getD 0 else 0

/-! ## Context records (R338) -/

/-- A write of a context record. A mode-8 device whose pair is lost takes no new context (R342). -/
def State.ctxWrite (s : State) (n : Nat) (v : BitVec 128) : State :=
  let c := s.ctx n
  let root := bf v 88 40
  let dev := bf v 77 3
  let en := bit v 62
  let bad := bf v 80 8 != 0 || bf v 64 13 != 0 || bf v 0 62 != 0 || (en && !s.devExists dev.toNat) || decide (128 ≤ n) ||
    ((root != c.root || dev != c.dev || (c.en && !en)) && s.ctxBusy n) || (n == 0 && (dev != c.dev || en != c.en))
  if bad then { s with ctxs := Map.put s.ctxs n { c with err := true } }
  else
    let cfg := Map.get {} s.devCfg dev.toNat
    let new := en && !c.en
    if new && s.mode.mode == 8 && s.lost.getLsbD dev.toNat then { s with ctxs := Map.put s.ctxs n { c with err := true } } else
    let c := if new then { c with hold := cfg.hold, cchk := cfg.cchk, rchk := cfg.rchk, fix := cfg.fix, contained := false, mapErr := false } else c
    let ents := if en && (new || dev != c.dev) then defaultMap s.mode.mode dev.toNat else c.ents
    { s with ctxs := Map.put s.ctxs n { c with root, dev, err := false, en, ents, contained := c.contained && en } }

/-- CONTEXT_CREATE: a write of EN = 1 to a record whose context does not exist. -/
def execContextCreate (ctx : Nat) (v : BitVec 128) (s : State) : Out := s.reg fun s => s.ctxWrite ctx v
/-- CONTEXT_DESTROY: a write of EN = 0. -/
def execContextDestroy (ctx : Nat) (v : BitVec 128) (s : State) : Out := s.reg fun s => s.ctxWrite ctx v
/-- CONTEXT_ROOT_WRITE: a write of EN = 1 to a record whose context exists. -/
def execContextRootWrite (ctx : Nat) (v : BitVec 128) (s : State) : Out := s.reg fun s => s.ctxWrite ctx v

/-! ## Partition modes (R339) -/

/-- DEV_MODE_WRITE: RES tells what became of it. -/
def execDevModeWrite (v : W32) (s : State) : Out :=
  s.reg fun s =>
    let m := bf v 0 4
    let busy := (s.ctxs.any fun c => c.1 != 0 && c.2.en) || s.ctxBusy 0
    let res : BitVec 2 :=
      if bf v 4 26 ≠ 0 ∨ ¬(m = 1 ∨ m = 2 ∨ m = 8) then 2
      else if s.status.degr = true ∧ m ≠ 8 then 3
      else if busy then 1 else 0
    if res ≠ 0 then { s with mode := { s.mode with res } }
    else
      let dev := lowestDev m s.status.pairs
      { s with
        mode := { res, mode := m }
        ctxs := Map.put s.ctxs 0 { s.ctx 0 with dev := BitVec.ofNat 3 dev, ents := defaultMap m dev } }

/-! ## The die table (R341) -/

/-- Whether a table may stand: dense valid entries, one for each pair of the device's set. -/
def State.mapOk (s : State) (ctx : Nat) (ents : W32) : Bool :=
  let c := s.ctx ctx
  let n : Ctx := { c with ents }
  let set := devPairs s.mode.mode c.dev.toNat
  let k := set.length
  let ps := (List.range k).map n.pair
  (List.range 8).all (fun e => n.valid e == decide (e < k)) && ps.all set.contains && ps.eraseDups.length == k &&
    (List.range k).all fun e => s.status.pairs.getLsbD (n.pair e) || (s.lost.getLsbD (n.pair e) && c.valid e && c.pair e == n.pair e)

/-- Every copy that a compute die's agent holds is written back and dropped, with the copies of its cores. -/
def State.dropAgent (s : State) (a : Nat) : State :=
  let s := (s.dir.filter fun d => (Map.find? d.st a).isSome).foldl (fun s d => match Map.find? d.st a with
    | some .s => (s.lose a d.line d.f d.l).setDir d.line d.f d.l (some { d with st := Map.erase d.st a })
    | _ => s.giveUp a d.line d.f d.l) s
  if a < 8 then (dieCores a).foldl (fun s n => s.onCore n fun c => { c with l1 := [] }) s else s

/-- DIE_MAP_WRITE. -/
def execDieMapWrite (ctx : Nat) (v : W64) (s : State) : Out :=
  s.reg fun s =>
    let c := s.ctx ctx
    let ents := bf v 0 32
    if bf v 32 31 ≠ 0 ∨ 128 ≤ ctx ∨ s.ctxRuns ctx = true ∨ s.mapOk ctx ents = false then
      { s with ctxs := Map.put s.ctxs ctx { c with mapErr := true } }
    else
      let n : Ctx := { c with ents, mapErr := false }
      let moved := ((List.range 8).filter fun e => c.valid e && n.pair e != c.pair e).flatMap fun e => [c.pair e, n.pair e]
      let s := moved.eraseDups.foldl State.dropAgent s
      { s with ctxs := Map.put s.ctxs ctx n }

/-! ## Host bias (R277, R344) -/

/-- Spans of a granule. -/
def State.granSpans (s : State) (g : Nat) : List DirSpan :=
  s.dir.filter fun d => locPa (128 * d.line) / 65536 == g && locPair (128 * d.line) == 8

/-- BIAS_FLIP_GO: the losing side writes back and drops what it holds of the granule. -/
def execBiasFlipGo (v : W64) (s : State) : Out :=
  s.reg fun s =>
    if bf v 52 8 ≠ 0 ∨ bf v 0 16 ≠ 0 ∨ (bit v 61 = true ∧ s.bias.busy = true) then { s with bias := { s.bias with err := true } }
    else
      let g := bf v 16 36
      let target := bit v 60
      let s := { s with bias := { s.bias with err := false, target, gran := g } }
      if !bit v 61 || target == s.granules.contains g.toNat || !inWin s.host (g.toNat * 65536) then s
      else
        let loses := fun (a : Nat) => if target then a == 56 else a != 56
        let s := (s.granSpans g.toNat).foldl (fun s d => ((d.st.map (·.1)).filter loses).foldl (fun s a => match Map.find? d.st a with
          | some .s => s.lose a d.line d.f d.l
          | _ => s.giveUp a d.line d.f d.l) s) s
        let drop := fun (d : DirSpan) =>
          if locPa (128 * d.line) / 65536 == g.toNat && locPair (128 * d.line) == 8 then
            let st := d.st.filter fun x => !loses x.1
            if st.isEmpty then none else some { d with st }
          else some d
        let s := { s with dir := s.dir.filterMap drop }
        { s with bias := { s.bias with busy := true } }

/-- BIAS_FLIP_DONE: the home changes, every span's interval closes at the old home and opens at the new, and the held
requests proceed in order. A host that becomes the home is no agent of the granule any more. -/
def execBiasFlipDone (s : State) : Out :=
  if !s.bias.busy then .next s
  else
    let g := s.bias.gran.toNat
    let stays := fun (x : Nat × DirSt) => s.bias.target || x.1 != 56
    let s := (s.granSpans g).foldl (fun s d =>
      let s := (s.sendClose { d with st := [] }).sendOpen d.line d.f d.l (d.num + 1) none
      s.setDir d.line d.f d.l (some { d with
        st := d.st.filter stays, num := d.num + 1, writer := (List.find? (fun (x : Nat × DirSt) => x.2 == .m) d.st).map (·.1) })) s
    let hs := s.heldReqs
    let s := { s with
      granules := if s.bias.target then insN g s.granules else delN g s.granules
      bias := { s.bias with busy := false }, heldReqs := [] }
    .next (hs.foldl State.proceed s)

/-! ## Containment domains (R353) -/

/-- SBX_CTL_WRITE: it also lets a halted core restart. -/
def execSbxCtlWrite (core : Nat) (v : W64) (s : State) : Out :=
  s.reg fun s => { s with
    sbx := Map.modify {} s.sbx core fun x => if bf v 8 54 ≠ 0 then { x with err := true } else { halted := false, err := false, dom := bf v 0 8 } }

/-- SANDBOX_HALT: what else stops a domain, a hart's poisoned load or its double trap, arrives from outside. -/
def execSandboxHalt (dom : Nat) (s : State) : Out := .next (s.haltDomain dom)

end Sys2Proof.Machine
end

