-- ==== Sys2Proof/Machine/Clock.lean ====
section
/-! DEFINITION. Power, bring-up (R354, R356, R357), the host link (R343), and the datum clock (R350, R351). -/

namespace Sys2Proof.Machine

/-! ## The datum clock -/

/-- PTP_CFG_WRITE (R351). Clearing EN moves a Locked clock to Holdover. -/
def execPtpCfgWrite (v : W64) (s : State) : Out :=
  s.reg fun s =>
    let p := s.ptp
    let synci := (bf v 40 4).toInt
    let port := bf v 48 4
    let bad := bf v 52 8 ≠ 0 ∨ bf v 44 4 ≠ 0 ∨ bf v 0 8 ≠ 0 ∨ 11 < port.toNat ∨ synci < -7 ∨ 1 < synci ∨ 127 < (bf v 32 8).toNat ∨
      (p.en = true ∧ (port ≠ p.port ∨ bf v 32 8 ≠ p.domain ∨ bit v 60 ≠ p.twostep))
    if bad then { s with ptp := { p with err := true } }
    else
      let en := bit v 62
      let d := s.datum
      let held := d.locked && p.en && !en
      { s with
        ptp := { err := false, en, gm := bit v 61, twostep := bit v 60, port, synci := bf v 40 4, domain := bf v 32 8
                 prio1 := bf v 24 8, prio2 := bf v 16 8, cls := bf v 8 8 }
        datum := if held then { d with locked := false, holdover := true, holdSince := d.count, good := 0 } else d }

/-- The eighth offset in a row within 50 ns locks the clock. The first lock steps the count to the PTP time, unless that
lies behind it. -/
def Datum.lock (d : Datum) (time : Nat) : Datum :=
  if d.scale then { d with locked := true, holdover := false }
  else if time < d.count then d
  else { d with locked := true, holdover := false, scale := true, count := time, sinceMsg := time }

/-- PTP_MESSAGE: a message whose offset is within 50 ns or not, with the PTP time. -/
def execPtpMessage (close : Bool) (time : Nat) (s : State) : Out :=
  s.reg fun s =>
    if !s.ptp.en then s
    else
      let d := { s.datum with sinceMsg := s.datum.count, good := if close then min 8 (s.datum.good + 1) else 0 }
      { s with datum := if d.good = 8 ∧ d.locked = false then d.lock time else d }

/-- The sync interval 2^SYNCI s in ns. -/
def PtpCfg.interval (p : PtpCfg) : Nat := 1000000000 * 2 ^ (p.synci.toInt + 8).toNat / 256

/-- PTP_HOLDOVER_TIMEOUT: three sync intervals without a message. -/
def execPtpHoldoverTimeout (s : State) : Out :=
  let d := s.datum
  .next (if d.locked = true ∧ d.sinceMsg + 3 * s.ptp.interval ≤ d.count then
      { s with datum := { d with locked := false, holdover := true, holdSince := d.count, good := 0 } }
    else s)

/-- PTP_FREE_TIMEOUT: 600 s in Holdover. -/
def execPtpFreeTimeout (s : State) : Out :=
  let d := s.datum
  .next (if d.holdover = true ∧ d.holdSince + 600000000000 ≤ d.count then { s with datum := { d with holdover := false } } else s)

/-- The core clock in MHz after a number of steps of 25 MHz down from 2.1 GHz (R1, R354); it does not stop (log entry 54). -/
def clockMHz (down : Nat) : Nat := max 25 (2100 - 25 * down)

/-- Between two corrections of the datum clock, in clk of at most 10/21 ns: 2,000 ns at a slew of 0.05 %, and in holdover 20 ms at a
drift of 50 ns per second (R350). -/
def Datum.slewEvery (d : Datum) : Nat := if d.holdover then 42000000 else 4200

/-- The datum clock over one clk: it counts the clk's ns at the clock's frequency, and is corrected by at most 1 ns at a
time (R1, R350). -/
def Datum.tick (d : Datum) (down clk : Nat) : Datum :=
  let n := d.count + ((clk + 1) * 1000 / clockMHz down - clk * 1000 / clockMHz down)
  if (clk + 1) % d.slewEvery ≠ 0 then { d with count := n }
  else { d with count := n + Config.datumSlew ((clk + 1) / d.slewEvery) % 3 - 1 }

/-! ## Power and bring-up -/

/-- POWER_GOOD starts bring-up at stage 1. -/
def execPowerGood (s : State) : Out :=
  .next (if s.powered then s else { s with powered := true, status := { s.status with stage := 1 } })

/-- Stage 6 zeroes HBM and clears its poison; CXL and host memory keep their contents. -/
def State.zeroHbm (s : State) : State :=
  let far := fun (c : Host.Cell) => locPair c.1 == 8
  { s with mem := s.mem.filter far, stale := s.stale.filter far, poison := s.poison.filter fun x => locPair (32 * x) == 8 }

/-- READY: %clock starts, MODE takes its value, and context 0 exists with its default map (R338, R339, R356). -/
def State.ready (s : State) : State :=
  let pairs := s.status.pairs
  let mode : BitVec 4 := if pairs = 0xFF then 1 else 8
  let dev := lowestDev mode pairs
  { s with
    clk := 0
    status := { s.status with ready := true }
    mode := { res := 0, mode }
    datum := { s.datum with count := 0 }
    link := { s.link with retry := 0 }
    ctxs := Map.put s.ctxs 0 { s.ctx 0 with dev := BitVec.ofNat 3 dev, en := true, ents := defaultMap mode dev } }

/-- The windows of CXL memory that enumeration takes, in order: multiples of 1 GiB, up to 16 TiB in all (R14, R345). -/
def cxlWindows : Nat → List (Nat × Nat) → List PWindow
  | _, [] => []
  | room, w :: ws =>
    if w.2 % 2 ^ 30 = 0 ∧ w.2 ≤ room then ⟨w.1, w.2⟩ :: cxlWindows (room - w.2) ws else cxlWindows room ws

/-- What a stage that passed leaves. -/
def State.stageWork (s : State) (r : StageResult) : State :=
  match s.status.stage.toNat with
  | 3 => { s with strike := { s.strike with sens := r.sens } }
  | 4 =>
    let up := r.linkUp && r.linkRtt.toNat != 0 && decide (r.linkRtt.toNat ≤ 1024)
    { s with link := { up, width := if up then r.linkWidth else 3, rtt := if up then r.linkRtt else 0, retry := 0 } }
  | 5 => { s with status := { s.status with pairs := r.pairs, degr := r.pairs != 0xFF } }
  | 6 => s.zeroHbm
  | 7 => { s with
      cxl := cxlWindows (2 ^ 44) r.cxl
      host := r.host.map fun w => ⟨w.1, w.2⟩ }
  | _ => s

/-- Stages whose failure stops bring-up (R356). -/
def stageStops (n : Nat) : Bool := n ≤ 4 || n == 8 || n == 9

/-- BRINGUP_STAGE_DONE. -/
def execBringupStageDone (r : StageResult) (s : State) : Out :=
  let st := s.status
  if !s.powered || st.ready || st.fail then .next s
  else if !r.ok && stageStops st.stage.toNat then
    .next { s with status := { st with fail := true, fcode := r.code } }
  else
    let s := s.stageWork r
    .next (if 9 ≤ st.stage.toNat then s.ready else { s with status := { s.status with stage := s.status.stage + 1 } })

/-- Every context receives a containment event that no trap caused. -/
def State.containAll (s : State) : State :=
  let cause : W64 := (Config.containCause s.free).zeroExtend 64
  (s.ctxs.filter fun c => c.2.en).foldl (fun s c => s.report { src := 6, detail := cause, ctx := c.1 }) s.fresh

/-- LINK_FLIT_CRC_FAIL: the flit is replayed; RETRY counts the replays since READY. -/
def execLinkFlitCrcFail (s : State) : Out :=
  .next (if !s.status.ready then s else { s with
    link := { s.link with retry := satInc s.link.retry }
    swCnt := { s.swCnt with lretry := satInc s.swCnt.lretry } })

/-- LINK_REPLAY_TIMEOUT: the link goes down; host memory in host bias then reads as poisoned. -/
def execLinkReplayTimeout (s : State) : Out :=
  .next ({ s with link := { s.link with up := false, width := 3 } }.containAll)

/-- POWER_LIMIT: the core clock falls by one step of 25 MHz; counts of clk stay as they are. -/
def execPowerLimit (s : State) : Out := .next { s with step_ := s.step_ + 1 }

/-- POWER_OFF: all state is lost but for what lies behind the CXL ports and the host link. -/
def execPowerOff (s : State) : Out :=
  .next { State.reset with
    mem := s.zeroHbm.mem, poison := s.zeroHbm.poison, free := s.free, inputs := s.inputs, outside := s.outside, kernels := s.kernels }

end Sys2Proof.Machine
end

