-- ==== Sys2Proof/Machine/Fleet.lean ====
section
/-! DEFINITION. Test kernels (R380, R381), the error log (R384 to R386), stall sampling (R388, R389), attestation (R390)
and the thermal trip (R354). -/

namespace Sys2Proof.Machine

/-! ## Physical addresses that registers hold -/

/-- Bytes at a physical address, as context 0 reaches it; nothing lies above bit 51. -/
def State.physWrite (s : State) (a : Nat) (bs : List Byte) : State :=
  let cs := (cellsOf a bs).filterMap fun c => if c.1 < pairBase && !isCtl c.1 then some (s.locOf 0 c.1, c.2) else none
  if cs.any fun c => s.flipping c.1 then cs.foldl (fun s c => s.holdReq (.home c.1 [c.2] none [])) s else s.homeCells cs none
def State.physRead (s : State) (a n : Nat) : List Byte :=
  (upFrom a n).map fun x => if x < pairBase then memGet s.mem (s.locOf 0 x) else 0

/-! ## The error log -/

/-- ELOG_CTL_WRITE. A write of BASE or SIZE is one that changes them. -/
def execElogCtlWrite (v : BitVec 128) (s : State) : Out :=
  s.reg fun s =>
    let e := s.elog
    let base := bf v 76 52
    let size := bf v 40 8
    let moved := base != e.base || size != e.size
    let bad := bf v 64 12 != 0 || bf v 48 13 != 0 || bf v 32 8 != 0 || decide (64 * (size.toNat + 1) ≤ (bf v 0 16).toNat) || (moved && e.en)
    { s with
      elog := if bad then { e with err := true } else { e with
        base, err := false, en := bit v 62, ovf := e.ovf && !bit v 61, size
        head := if moved then 0 else e.head
        tail := if moved then 0 else bf v 0 16 } }

/-- ELOG_CLEAR_OVF. -/
def execElogClearOvf (s : State) : Out := s.reg fun s => { s with elog := { s.elog with ovf := false } }

/-- The 64 bytes of an entry (R385) as a number. -/
def State.entryNat (s : State) (r : Report) : Nat :=
  s.clk % 2 ^ 64 * 2 ^ 448 + r.addr.toNat * 2 ^ 384 + r.detail.toNat * 2 ^ 320 + r.ctx % 2 ^ 16 * 2 ^ 304 + r.src % 256 * 2 ^ 296 +
    r.agent % 256 * 2 ^ 288 + r.core % 512 * 2 ^ 279 + s.elog.seq.toNat * 2 ^ 247

/-- The oldest report enters the ring, or is dropped. -/
def State.logOne (s : State) : State :=
  match s.reports with
  | [] => s
  | r :: rs =>
    let e := s.elog
    let n := 64 * (e.size.toNat + 1)
    let next := (e.head.toNat + 1) % n
    let s := { s with reports := rs }
    if e.en = false ∨ next = e.tail.toNat then
      { s with
        elog := { e with ovf := true, seq := e.seq + 1 }
        swCnt := { s.swCnt with drops := satInc s.swCnt.drops } }
    else
      let s := s.physWrite (e.base.toNat * 4096 + 64 * e.head.toNat) (bytesOf 64 (s.entryNat r))
      { s with elog := { e with head := BitVec.ofNat 16 next, seq := e.seq + 1 } }

/-- ERROR_REPORT. -/
def execErrorReport (s : State) : Out := .next s.logOne

/-! ## The thermal trip -/

/-- THERMAL_TRIP: every context is told, the log takes what has been reported, and the dies stop. -/
def execThermalTrip (s : State) : Out :=
  let s := ({ s with status := { s.status with therm := true } }.containAll).report { src := 11, agent := 63 }
  let s := { s with reports := sortBy s.reportKey s.reports }
  let s := s.reports.foldl (fun s _ => s.logOne) s
  .next { s with stopped := true }

/-! ## Test kernels -/

/-- A write of TEST_CTL. -/
def State.testWrite (s : State) (v : BitVec 128) : State :=
  let t := s.test
  let load := bit v 61
  if bf v 64 12 ≠ 0 ∨ bf v 32 8 ≠ 0 ∨ (load = true ∧ (t.busy = true ∨ t.en = true)) then { s with test := { t with err := true } }
  else { s with
    test := { t with
      img := bf v 76 52, err := false, busy := t.busy || load, en := bit v 60, idle := bf v 40 16, gap := bf v 0 32 } }

/-- TEST_CTL_LOAD: a write with LOAD = 1. -/
def execTestCtlLoad (v : BitVec 128) (s : State) : Out := s.reg fun s => s.testWrite v
/-- TEST_CTL_WRITE: a write with LOAD = 0. -/
def execTestCtlWrite (v : BitVec 128) (s : State) : Out := s.reg fun s => s.testWrite v

/-- RES and the code of a test image. -/
def State.testImage (s : State) (a : Nat) : BitVec 4 × List W64 :=
  let hb := s.physRead a 64
  let hd := ofBytes hb
  let len := fld hd 160 32
  if len % 8 ≠ 0 ∨ len < 8 ∨ 65536 < len then (4, [])
  else
    let rest := s.physRead (a + 64) (len + 64)
    if !Config.signatureOk (hb ++ rest) then (2, [])
    else if Config.belowRollback (hb ++ rest) then (3, [])
    else if hd - len * 2 ^ 160 ≠ 0 then (4, [])
    else (1, (List.range (len / 8)).map fun i => BitVec.ofNat 64 (ofBytes ((rest.drop (8 * i)).take 8)))

/-- TEST_IMAGE_VERIFIED. -/
def execTestImageVerified (s : State) : Out :=
  let t := s.test
  if !t.busy then .next s
  else
    let (res, code) := s.testImage (t.img.toNat * 4096)
    .next { s with test := { t with busy := false, res, code } }

/-- Whether a test may start on a core (R381). -/
def State.testDue (s : State) (core : Nat) : Bool :=
  let t := s.test
  let c := s.core core
  t.en && t.res == 1 && !s.dead.contains (dieOfCore core) && (s.coreCrews core).isEmpty && decide (c.idleSince + 1024 * t.idle.toNat ≤ s.clk) &&
    (match c.lastTest with | some x => decide (x + 210000000 * t.gap.toNat ≤ s.clk) | none => true)

/-- TEST_START: one privileged crew in handler slot 0, with the core's stores for its own. -/
def execTestStart (core : Nat) (s : State) : Out :=
  if !s.testDue core then .next s
  else
    let key := 2 ^ 40 + core
    let party : Party := {
      ncrews := 0, cluster := clusterOfCore core, cores := [core], homeDie := dieOfCore core, priv := true
      pool := [(core, 0, 512)], bands := [(core, 0, 256)] }
    let crew : Crew := {
      kind := .test, priv := true, party := key, alloc := 256, throt := false, pend := lanes.map fun l => (l, 0), readyAt := s.clk + 1 }
    .next ({ s with parties := Map.put s.parties key party }.putCrew (crewKey core 96) crew)

/-! ## Stall sampling -/

/-- SAMPLE_CFG_WRITE. -/
def execSampleCfgWrite (v : BitVec 128) (s : State) : Out :=
  s.reg fun s =>
    let en := bit v 62
    if bf v 64 12 ≠ 0 ∨ bf v 56 5 ≠ 0 ∨ bf v 32 8 ≠ 0 ∨ (en = true ∧ bf v 40 16 = 0) ∨ s.ctxOk (bf v 0 16) = false then
      { s with sample := { s.sample with err := true } }
    else { s with
      sample := { buf := bf v 76 52, err := false, en, all := bit v 61, period := bf v 40 16, pages := bf v 16 16, ctx := bf v 0 16
                  next := 0, started := s.clk } }

/-- REASON of R389. -/
def State.reason (s : State) (k : Nat) (c : Crew) : Nat :=
  match c.phase with
  | .running =>
    if c.lastIssue = s.clk then 0
    else if c.replayed then 14
    else if s.clk < c.readyAt then 2
    else if c.heldSince ≠ 0 then 4
    else if bufferFull (s.partCrews (coreOfKey k) (partOfSlot (slotOfKey k))) &&
        (match s.nextInstr k c with | some i => makesHeld i | none => false) then 5
    else if (match s.nextInstr k c with | some i => !c.scoreOk s.clk i | none => false) then 3
    else 1
  | .moving => 6
  | .trapped => 12
  | .waiting w => match w with
    | .load => 3 | .settle => 3 | .queuePush .. => 7 | .queuePop .. => 7 | .barrier .. => 8 | .park .. => 9 | .batch _ => 10
    | .batchRoom => 11 | .arrayRoom => 11 | .accumulator => 11 | .plateWrite => 11 | .yielded _ => 13 | _ => 15
  | _ => 15

/-- A sampling record (R389) as a number. -/
def State.sampleNat (s : State) (k : Nat) (c : Crew) : Nat :=
  s.clk % 2 ^ 64 * 2 ^ 192 + c.pc.toNat * 2 ^ 128 + c.widx % 256 * 2 ^ 120 + s.logCore c.ctx (coreOfKey k) % 512 * 2 ^ 111 +
    slotOfKey k * 2 ^ 104 + s.reason k c * 2 ^ 100 + c.ctx % 2 ^ 16 * 2 ^ 80 + s.local_ 4096 c.lctr % 4096 * 2 ^ 68 +
    c.score % 1024 * 2 ^ 58 + min c.merges 65535 * 2 ^ 32 + min c.scopem 65535 * 2 ^ 16

/-- The record of a core's next resident crew. -/
def State.sampleCore (s : State) (core : Nat) : State :=
  let cfg := s.sample
  let cs := (s.coreCrews core).filter fun kc => slotOfKey kc.1 < 96 && (cfg.all || kc.2.ctx == cfg.ctx.toNat)
  let from_ := (s.core core).sampleNext
  match minBy (fun (kc : Nat × Crew) => (slotOfKey kc.1 + 96 - from_) % 96) cs with
  | none => s
  | some (k, c) =>
    let n := 128 * (cfg.pages.toNat + 1)
    let s := s.physWrite (cfg.buf.toNat * 4096 + 32 * cfg.next) (bytesOf 32 (s.sampleNat k c))
    let s := (s.onCrew k fun c => { c with merges := 0, scopem := 0 }).onCore core fun x => { x with sampleNext := (slotOfKey k + 1) % 96 }
    { s with sample := { s.sample with next := (cfg.next + 1) % n } }

/-- The cores that hold a crew, rising. -/
def State.liveCores (s : State) : List Nat := (s.crews.map fun kc => coreOfKey kc.1).eraseDups

/-- SAMPLE_TIMER. -/
def execSampleTimer (s : State) : Out := .next (s.liveCores.foldl State.sampleCore s)

/-- Whether the sample period ends in this clk. -/
def State.sampleDue (s : State) : Bool :=
  let c := s.sample
  c.en && c.period != 0 && c.started != s.clk && (s.clk - c.started) % (64 * c.period.toNat) == 0

/-! ## Attestation -/

/-- ATT_GO: a write of ATT_CTL. -/
def execAttGo (v : BitVec 128) (s : State) : Out :=
  s.reg fun s =>
    let a := s.att
    let go := bit v 61
    if bf v 64 6 ≠ 0 ∨ bf v 58 2 ≠ 0 ∨ (go = true ∧ a.busy = true) then { s with att := { a with err := true } }
    else { s with
      att := { nonce := bf v 70 58, err := false, busy := a.busy || go, done := a.done && !go, dest := bf v 0 58 } }

/-- What a report shows of the package in bytes 232 to 239 (R390): DEV_MODE, DEV_STATUS bits 63:16, CHK_CFG bits 2:0 and
STRIKE_CFG.SENS. How the bytes pack them is not given (log entry 81). -/
def State.attested (s : State) : List Byte :=
  let st := s.status
  let flags := st.ready.toNat + 2 * st.fail.toNat + 4 * st.degr.toNat + 8 * st.therm.toNat
  let cfg := Map.get {} s.devCfg 0
  [s.mode.mode.zeroExtend 8, s.mode.res.zeroExtend 8, BitVec.ofNat 8 flags, st.stage, bf st.fcode 0 8, bf st.fcode 8 8, st.pairs,
    BitVec.ofNat 8 (4 * cfg.hold.toNat + 2 * cfg.cchk.toNat + cfg.rchk.toNat), s.strike.sens]

/-- The bytes that a report's hash of the loaded test image is taken over: its code, whose length is all that its header holds
(R380). -/
def TestCtl.image (t : TestCtl) : List Byte := t.code.flatMap fun w => bytesOf 8 w.toNat

/-- The 512 bytes of a report (R390): what a byte depends on besides the part itself is what the layout names for it. -/
def State.attReport (s : State) : List Byte :=
  let nonce := s.physRead (s.att.nonce.toNat * 64) 64
  let body := nonce ++ (upFrom 64 384).map fun i =>
    if i < 128 then Config.attestByte [] i
    else if i < 192 then (if s.test.res = 1 then Config.attestByte s.test.image i else 0)
    else if i < 232 then Config.attestByte [] i
    else if i < 240 then Config.attestByte s.attested i
    else 0
  body ++ (upFrom 448 64).map fun i => Config.attestByte body i

/-- ATT_REPORT_DONE. -/
def execAttReportDone (s : State) : Out :=
  .next (if s.att.busy then
      { s.physWrite (s.att.dest.toNat * 64) s.attReport with att := { s.att with busy := false, done := true } }
    else s)

end Sys2Proof.Machine
end

