-- ==== Sys2Proof/Machine/Recovery.lean ====
section
/-! DEFINITION. Checkpoints and rollback (R368, R369, R371), heartbeats and dead agents (R342, R370). -/

namespace Sys2Proof.Machine

def State.onCkpt (s : State) (d : Nat) (f : CkptCtl → CkptCtl) : State := { s with ckpt := Map.modify {} s.ckpt d f }

/-- The device of a party's context. -/
def State.devBusy (s : State) (dev : Nat) : Bool := s.parties.any fun p => s.ctxDev p.2.ctx == dev && !p.2.isTest

/-- A write of CKPT_CTL (R368). -/
def State.ckptWrite (s : State) (dev : Nat) (v : BitVec 128) : State :=
  let c := Map.get {} s.ckpt dev
  let go := bit v 61
  let back := bit v 60
  if bf v 32 7 ≠ 0 ∨ ((go || back) && c.busy) = true ∨ (back = true ∧ (s.devBusy dev = true ∨ c.valid = false)) ∨
      s.devExists dev = false then s.onCkpt dev fun c => { c with err := true }
  else
    let s := s.onCkpt dev fun c => { c with area := bf v 88 40, size := bf v 64 24, err := false, period := bf v 48 10 }
    if back then (s.onCkpt dev fun c => { c with busy := true, rolling := true }).push (.rollbackComplete dev)
    else if go then s.ckptStart dev
    else s

/-- CKPT_GO: a write of CKPT_CTL with ROLLBACK = 0. -/
def execCkptGo (dev : Nat) (v : BitVec 128) (s : State) : Out := s.reg fun s => s.ckptWrite dev v
/-- CKPT_ROLLBACK: a write of CKPT_CTL with ROLLBACK = 1. -/
def execCkptRollback (dev : Nat) (v : BitVec 128) (s : State) : Out := s.reg fun s => s.ckptWrite dev v

/-- CHECKPOINT_COMPLETE. -/
def execCheckpointComplete (dev : Nat) (s : State) : Out :=
  let c := Map.get {} s.ckpt dev
  .next (if c.busy && !c.rolling then s.ckptDone dev else s)

/-- The firmware timer of PERIOD, in units of 100 ms. -/
def State.ckptTimer (s : State) (dev : Nat) : State :=
  let c := Map.get {} s.ckpt dev
  if c.period ≠ 0 ∧ c.busy = false ∧ c.timer + 210000000 * c.period.toNat ≤ s.clk then
    (s.onCkpt dev fun c => { c with timer := s.clk }).ckptStart dev
  else s

/-- CKPT_PERIOD_TIMER. -/
def execCkptPeriodTimer (dev : Nat) (s : State) : Out := .next (s.ckptTimer dev)

/-- Every cached copy of a parcel is dropped, and its spans start again at the home. -/
def State.dropParcel (s : State) (p : Nat) : State :=
  let ds := s.dir.filter fun d => d.line / 32 == p
  let s := (ds.foldl (fun s d => s.homeInval d.line d.f d.l) s)
  { s with
    offs := s.offs.filter fun o => o.line / 32 != p
    cores := s.cores.map fun (c : Nat × Core) => (c.1, { c.2 with
      l1 := c.2.l1.filter fun x => x.line / 32 != p, icache := c.2.icache.filter fun x => x.line / 32 != p }) }

/-- One preserved copy goes back to its parcel (R371 steps 1 and 2). -/
def State.restoreParcel (s : State) (k : Kept) : State :=
  let ds := s.dir.filter fun d => d.line / 32 == k.parcel
  let s := s.dropParcel k.parcel
  let other := fun (c : Host.Cell) => c.1 / 4096 != k.parcel
  let s := { s with
    mem := memPut (s.mem.filter other) k.cells
    stale := s.stale.filter other
    poison := k.poison.foldl (fun l x => insN x l) (s.poison.filter fun x => x / 128 != k.parcel) }
  (s.homeOpen ds).setDirty k.parcel none

/-- ROLLBACK_COMPLETE (R371). -/
def execRollbackComplete (dev : Nat) (s : State) : Out :=
  let c := Map.get {} s.ckpt dev
  if !(c.busy && c.rolling) then .next s
  else
    let s := c.kept.foldl State.restoreParcel s
    let s := { s with
      counters := s.counters.map fun (x : Nat × Counter) =>
        let late := x.1 / devShare s.mode.mode 4096 == dev && (match x.2.retained with | some r => decide (c.num.toNat ≤ r.since.toNat) | none => false)
        if late then (x.1, { x.2 with retained := none }) else x }
    .next (s.onCkpt dev fun c => { c with busy := false, rolling := false, kept := [] })

/-! ## Heartbeats and dead agents (R370) -/

/-- The agents that send heartbeats: those of R263, and memory die m as 64 + m. -/
def beatAgents : List Nat := List.range 58 ++ upFrom 64 8

/-- The die pair of a compute die's or memory die's agent. -/
def pairOfAgent (a : Nat) : Option Nat := if a < 8 then some a else if 64 ≤ a ∧ a < 72 then some (a - 64) else none

/-- HEARTBEAT. -/
def State.heartbeat (s : State) (a : Nat) : State := { s with beat := Map.put s.beat a s.clk }
def execHeartbeat (agent : Nat) (s : State) : Out := .next (s.heartbeat agent)

/-- Whether an agent has been silent for 50 µs, which is 105,000 clk. -/
def State.silent (s : State) (a : Nat) : Bool := !s.dead.contains a && decide (Map.get 0 s.beat a + 105000 ≤ s.clk)

/-- The spans that a dead agent held in M, O or E are poisoned at their homes, which serve them from then on, and it leaves every
sharer set. -/
def State.loseAgent (s : State) (a : Nat) : State :=
  (s.dir.filter fun d => (Map.find? d.st a).isSome).foldl (fun s d =>
    let owned := Map.find? d.st a != some DirSt.s
    let s := if !owned then s
      else (s.poisonSectors ((upFrom (d.f / 8) (d.l / 8 + 1 - d.f / 8)).map fun i => 4 * d.line + i)).newSource d.line d.f d.l 63
        (d.holders.filter (· != a))
    (s.lose a d.line d.f d.l).setDir d.line d.f d.l (some { d with
      st := Map.erase d.st a, writer := if owned then none else d.writer })) s

/-- The crews of a compute die are lost; their parties count as discarded. -/
def State.loseCrews (s : State) (die : Nat) : State :=
  let here := fun (k : Nat) => dieOfCore (coreOfKey k) == die
  let ps := s.parties.filter fun p => p.2.cores.any fun c => dieOfCore c == die
  let waits := (s.die die).waiting.filter fun w => w.restore.isNone
  let s := { s with
    crews := s.crews.filter fun (kc : Nat × Crew) => !here kc.1
    past := s.past.filter fun p => !here p.key
    runq := s.runq.filter fun k => !here k
    parties := s.parties.filter fun p => !(p.2.cores.any fun c => dieOfCore c == die)
    cores := s.cores.map fun (c : Nat × Core) => if dieOfCore c.1 = die then (c.1, { ts := c.2.ts, cnt := c.2.cnt }) else c
    svcq := s.svcq.map fun (q : Nat × List AtomGroup) => (q.1, q.2.filter fun g => !here g.crew)
    pushes := s.pushes.filter fun p => !here p.crew
    svcReqs := s.svcReqs.filter fun r => !here r.crew
    sheets := s.sheets.map fun (h : Nat × SheetHome) => (h.1, { h.2 with reqs := h.2.reqs.filter fun r => !here r.crew })
    groups := s.groups.map fun (g : Nat × CollGroup) => (g.1, { g.2 with arrivals := g.2.arrivals.filter fun a => !here a.cmd.crew })
    saved := s.saved }.onDie die fun d => { d with waiting := [] }
  let s := (ps.filter fun p => !p.2.isTest).foldl (fun s p => s.discardParty p.2.lctr p.2.num) s
  waits.foldl (fun s w => s.discardParty w.lctr w.num) s

/-- The devices whose CKPT_CTL names a dead agent. -/
def State.devsOf (s : State) (a : Nat) : List Nat :=
  let all := (List.range 8).filter s.devExists
  match pairOfAgent a with
  | some p => [devOfPair s.mode.mode p]
  | none => if 8 ≤ a ∧ a < 56 then [(a - 8) / devShare s.mode.mode 48] else all

/-- AGENT_DEAD. -/
def execAgentDead (a : Nat) (s : State) : Out :=
  if !s.silent a then .next s
  else
    let s := { s with
      dead := insN a s.dead
      swCnt := { s.swCnt with dead := satInc s.swCnt.dead }
      heldReqs := s.heldReqs.filter fun r => match r with
        | .get b .. => b != a
        | .clean b .. => b != a
        | .walk core .. => dieOfCore core != a
        | .home .. => true }
    let s := s.loseAgent a
    let s := if a < 8 then s.loseCrews a else s
    let devs := s.devsOf a
    let s := devs.foldl (fun s d => s.onCkpt d fun c => { c with dead := BitVec.ofNat 8 a, dv := true, valid := c.valid && a < 64 }) s
    let s := match pairOfAgent a with
      | some p => { s with
          lost := s.lost ||| BitVec.ofNat 8 (2 ^ p)
          status := { s.status with pairs := s.status.pairs &&& ~~~BitVec.ofNat 8 (2 ^ p), degr := true } }
      | none => s
    .next (s.containAll.report { src := 7, detail := BitVec.ofNat 64 a, agent := 57 })

end Sys2Proof.Machine
end

