-- ==== Sys2Proof/Machine/Preempt.lean ====
section
/-! DEFINITION. Pre-emption and restore (R330 to R336). -/

namespace Sys2Proof.Machine

/-! ## What a pre-emption stops (R331) -/

def State.ctxCrews (s : State) (ctx : Nat) : List (Nat × Crew) := s.crews.filter fun kc => kc.2.ctx == ctx && kc.2.kind != .test

/-- Whether only requests to owners that have not left the core are under way: those are saved with the crew (R331). Every returning
atomic has returned (R198). -/
def Crew.onlyRequests (c : Crew) (old : Nat) : Bool :=
  c.fence == 0 && (c.held.all fun h => decide (h.at_ ≤ old) && h.rel.isNone && !h.eff.groups.isEmpty) && c.atoms.isEmpty

/-- Whether a context's crew stands at an instruction boundary, with nothing of it under way outside. -/
def State.atBoundary (s : State) (c : Crew) : Bool :=
  decide (s.fixOf c.ctx ≤ s.clk) && c.onlyRequests (s.clk - s.fixOf c.ctx) && match c.phase with
    | .ended => false
    | .waiting w => match w with
      | .load => false | .sheet => false | .checkpoint .. => false | .service _ => false
      | .plateRead _ => false | _ => true
    | _ => true

/-- The context of an array command's crew, which may have ended. -/
def State.arrCtx (s : State) (x : ArrCmd) : Nat :=
  if isEnded x.crew then (s.party (partyOfEnded x.crew)).ctx else (s.crew x.crew).ctx

/-- Whether a core's array performs a part of the command that its partner's array performs, or the command itself. -/
def State.running (s : State) (core : Nat) (x : ArrCmd) : Bool :=
  let head := fun (n : Nat) => if (s.core n).arrayUntil.isSome then (s.core n).array.find? fun y => !y.stopped else none
  let part := fun (p : ArrPart) (y : ArrCmd) => match y.op with | .mma _ _ _ _ h => h == p | _ => false
  let q := core / 2 * 2 + (1 - core % 2)
  let first := fun (p : ArrPart) => (s.core core).array.find? (part p) == some x
  head core == some x ||
    (part .partner x && first .partner && (match head q with | some y => part .own y | none => false)) ||
    (part .own x && first .own && match head q with | some y => part .partner y | none => false)

/-- The units that a pre-emption of a context waits for. -/
def State.stopUnits (s : State) (ctx : Nat) : List StopUnit :=
  let cores := ((s.ctxCrews ctx).map fun kc => coreOfKey kc.1).eraseDups
  let homes := (s.sheets.filter fun h => h.2.reqs.any fun r => (s.crew r.crew).ctx == ctx).map (·.1)
  cores.flatMap (fun c => [.crews c, .array c, .engine c .copy, .engine c .gather, .engine c .coll]) ++
    homes.map .sheet ++ (s.svcq.filter fun q => q.2.any fun g => g.ctx == ctx).map fun q => .service q.1

/-- Whether a unit has reached its stopping point. -/
def State.stopReady (s : State) (ctx : Nat) (u : StopUnit) : Bool :=
  match u with
  | .crews core => ((s.ctxCrews ctx).filter fun kc => coreOfKey kc.1 == core).all fun kc => s.atBoundary kc.2
  | .array core => (s.core core).array.all fun x => x.stopped || s.arrCtx x != ctx
  | .engine .. => true
  | .sheet h => (Map.get {} s.sheets h).reqs.all fun r => (s.crew r.crew).ctx != ctx
  | .service n => !(Map.get [] s.svcq n).any fun g => g.ctx == ctx

/-! ## Saving (R332, R333) -/

/-- Writes for a launch that fail as a whole where one does not translate. -/
def State.writeAll (s : State) (ctx lctr : Nat) : List (W64 × List Byte) → Option State
  | [] => some s
  | (va, bs) :: ws => match s.devWrite ctx va bs (some lctr) with
    | some s => s.writeAll ctx lctr ws
    | none => none

/-- What a saved crew writes: its resident registers, its frame records, its pending-block vector and its record. -/
def Crew.saveWrites (c : Crew) (seed : Nat) : List (W64 × List Byte) :=
  ((List.range c.alloc).map fun i =>
    let row := match Map.find? c.v i with | some x => x.row | none => zeroRow
    (c.spill + BitVec.ofNat 64 (128 * c.holdsLog i), row.flatMap fun y => bytesOf 4 y.toNat)) ++
  ((List.range c.frames.length).filterMap fun i => (c.frames[i]?).map fun f =>
    (c.framePlace (c.depth - 1 - i), bytesOf 64 f.nat)) ++
  [(c.spill - 0x40180, c.pbvBytes), (c.spill - 0x41180, recordBytes seed 4096)]

/-- Bytes and poisoned sectors of a pool run, relative to its start. -/
def Core.poolPart (c : Core) (g n : Nat) : List Host.Cell × List Nat :=
  ((c.plate.filter fun x => 1024 * g ≤ x.1 && x.1 < 1024 * (g + n)).map fun x => (x.1 - 1024 * g, x.2),
   (c.platePoison.filter fun x => 32 * g ≤ x && x < 32 * (g + n)).map (· - 32 * g))
/-- Elements and poisoned sectors of a band, relative to its first row. -/
def Core.bandPart (c : Core) (r n : Nat) : Map W32 × List Nat :=
  ((c.acc.filter fun x => 256 * r ≤ x.1 && x.1 < 256 * (r + n)).map fun x => (x.1 - 256 * r, x.2),
   (c.accPoison.filter fun x => 32 * r ≤ x && x < 32 * (r + n)).map (· - 32 * r))

/-- The party save area: a header, then the pool's granules and the bands' rows, 1 KiB each. -/
def State.areaBytes (s : State) (p : Party) (seed : Nat) : List Byte :=
  recordBytes seed 4096 ++
  (p.pool.flatMap fun b => memBytes (s.core b.1).plate (1024 * b.2.1) (1024 * b.2.2)) ++
  (p.bands.flatMap fun b => (upFrom (256 * b.2.1) (256 * b.2.2)).flatMap fun e => bytesOf 4 (Map.get 0 (s.core b.1).acc e).toNat)

/-- The sectors of the area that carry poison, in order. -/
def State.areaPoison (s : State) (p : Party) : List Nat :=
  let pool := p.pool.flatMap fun b => (upFrom (32 * b.2.1) (32 * b.2.2)).map fun x => (s.core b.1).platePoison.contains x
  let band := p.bands.flatMap fun b => (upFrom (32 * b.2.1) (32 * b.2.2)).map fun x => (s.core b.1).accPoison.contains x
  (List.range (pool.length + band.length)).filter fun i => (pool ++ band).getD i false

/-- Writes everything that a party's save leaves in memory. -/
def State.saveMem (s : State) (p : Party) (cs : List Crew) : Option State :=
  let area := p.spill0 + 0x840000
  match s.writeAll p.ctx p.lctr ((cs.flatMap fun c => c.saveWrites (s.free + 1 + c.num)) ++ [(area, s.areaBytes p s.free)]) with
  | none => none
  | some s' =>
    let secs := (s.areaPoison p).filterMap fun i => match s.xlate p.ctx (area + BitVec.ofNat 64 (4096 + 32 * i)) .write with
      | .ok pa => some (s.locOf p.ctx pa / 32)
      | .error _ => none
    some (s'.poisonSectors secs)

/-- A party's entry in the save directory (R333) as a number. -/
def State.dirEntry (s : State) (p : Party) (failed : Bool) : Nat :=
  p.spill0.toNat * 2 ^ 448 + s.local_ 4096 p.lctr % 4096 * 2 ^ 436 + p.num % 2 ^ 24 * 2 ^ 412 + (p.ncrews - 1) % 64 * 2 ^ 406 +
    p.prio % 4 * 2 ^ 404 + s.logPair p.ctx p.homeDie % 8 * 2 ^ 401 + (p.cores.length - 1) % 4 * 2 ^ 399 + 2 ^ 398 + failed.toNat * 2 ^ 397

/-- Whether an array command of a core belongs to a party: to one of its crews, to one that has ended, or, by its region, to a handler
crew of them. -/
def Party.ownsCmd (p : Party) (key core : Nat) (x : ArrCmd) : Bool :=
  if isEnded x.crew then partyOfEnded x.crew == key
  else p.crews.contains x.crew || (96 ≤ slotOfKey x.crew &&
    p.bands.any fun b => b.1 == core && b.2.1 ≤ x.reg.row0 && x.reg.row0 < b.2.1 + b.2.2)

/-- Takes a party, its crews and its commands off the cores. -/
def State.takeAway (s : State) (key : Nat) : State :=
  let p := s.party key
  { s with
    parties := Map.erase s.parties key
    crews := s.crews.filter fun (kc : Nat × Crew) => !(kc.2.party == key && kc.2.kind != .handler)
    past := s.past.filter fun x => x.crew.party != key
    runq := s.runq.filter fun k => (s.crew k).party != key
    cores := s.cores.map fun (c : Nat × Core) => (c.1, { c.2 with
      copyQ := c.2.copyQ.filter (·.party != key), gatherQ := c.2.gatherQ.filter (·.party != key)
      collQ := c.2.collQ.filter (·.party != key), evs := c.2.evs.filter (·.party != key)
      array := c.2.array.filter fun x => !p.ownsCmd key c.1 x
      arrivals := c.2.arrivals.filter fun x => !p.crews.contains x.1
      window := c.2.window.filter fun r => !p.crews.contains r.crew
      laneWait := c.2.laneWait.filter fun t => !p.crews.contains t.crew })
    groups := s.groups.map fun (g : Nat × CollGroup) => (g.1, { g.2 with arrivals := g.2.arrivals.filter (·.cmd.party != key) }) }

/-- The commands of a party in its engines' orders, and those that wait in a group. -/
def State.cmdsOf (s : State) (key : Nat) : List EngCmd :=
  (((s.groups.flatMap fun g => g.2.arrivals.map fun a => a.cmd) ++ s.cores.flatMap fun c => c.2.copyQ ++ c.2.gatherQ ++ c.2.collQ).filter
    (·.party == key)).map fun c => { c with stopped := true }

/-- The commands of a party that wait in array orders, by core; an `acrd` is issued again instead. -/
def State.arrOf (s : State) (key : Nat) : List (Nat × ArrCmd) :=
  s.cores.flatMap fun c => (c.2.array.filter fun x => x.op != .acrd && (s.party key).ownsCmd key c.1 x).map fun x => (c.1, x)

/-- Saves a party, or loses it: the state, and whether the save failed. -/
def State.saveParty (s : State) (key : Nat) : State × Bool :=
  let p := s.party key
  let tagsOf := fun (k : Nat) => (s.core (coreOfKey k)).laneWait.filter fun t => t.crew == k
  let crews := p.crews.map fun k => { s.crew k with tags := tagsOf k, seen := s.clocksOf k }
  match s.saveMem p crews with
  | none =>
    let s := (s.takeAway key).onCounter p.lctr fun c => { c with cancelReq := true }
    (s.discardParty p.lctr p.num, true)
  | some s' =>
    let x : SavedParty := {
      party := p, crews, pool := p.pool.map fun b => (s.core b.1).poolPart b.2.1 b.2.2
      bands := p.bands.map fun b => (s.core b.1).bandPart b.2.1 b.2.2, cmds := s.cmdsOf key
      evs := s.cores.flatMap fun c => c.2.evs.filter (·.party == key), arr := s.arrOf key, seed := s.free }
    let s := s'.takeAway key
    ({ s with saved := s.saved ++ [x], free := s.free + 65 }, false)

/-- A tag that names its origin crew by party and number, as a saved handler crew keeps it. -/
def tagRef (party num : Nat) : Nat := 2 ^ 60 + party * 64 + num

/-- The first row of a party's band on a core. -/
def Party.bandRow (p : Party) (core : Nat) : Nat := match p.bands.find? fun b => b.1 == core with | some b => b.2.1 | none => 0

/-- Saved handler crews: their tags outlive the slots of their origins. Until they return `num` keeps the slot and `first` the first row
of the band on their core. -/
def State.saveHandlers (s : State) (ctx : Nat) : State :=
  let hs := s.crews.filter fun (kc : Nat × Crew) => kc.2.kind == .handler && kc.2.ctx == ctx
  let ref := fun (t : LaneTag) => let o := s.crew t.crew; { t with crew := tagRef o.party o.num }
  { s with
    crews := s.crews.filter fun (kc : Nat × Crew) => !(kc.2.kind == .handler && kc.2.ctx == ctx)
    cores := s.cores.map fun (c : Nat × Core) => (c.1, { c.2 with window := c.2.window.filter fun r => !hs.any fun kc => kc.1 == r.crew })
    savedHand := s.savedHand ++ hs.map fun (kc : Nat × Crew) => { kc.2 with
      tags := kc.2.tags.map ref, num := slotOfKey kc.1, first := (s.party kc.2.party).bandRow (coreOfKey kc.1), seen := s.clocksOf kc.1 } }

/-- Saves every party of the context, and writes the directory. -/
def State.saveAll (s : State) (ctx : Nat) : State :=
  let s := ((s.platesAll).pushesUpTo none).saveHandlers ctx
  let keys := (s.parties.filter fun (p : Nat × Party) => p.2.ctx == ctx && !p.2.isTest && p.2.ended < p.2.ncrews).map fun p => p.1
  let base := s.preempt.nowDir.toNat * 4096
  let (s, n, failed) := keys.foldl (fun (a : State × Nat × Bool) key =>
    let p := a.1.party key
    let (s, bad) := a.1.saveParty key
    (s.physWrite (base + 64 * a.2.1) (bytesOf 64 (s.dirEntry p bad)), a.2.1 + 1, a.2.2 || bad)) (s, 0, false)
  let s := s.physWrite (base + 64 * n) (List.replicate 64 0)
  { s with
    preempt := { s.preempt with
      busy := false, waitFor := [], count := BitVec.ofNat 16 n, status := if n = 0 then 2 else if failed then 4 else 1 } }

/-- A pre-emption of a context starts: nothing more is placed for it, and its units stop. -/
def State.preemptStart (s : State) (ctx : BitVec 16) : State :=
  let us := s.stopUnits ctx.toNat
  let stop := fun (c : EngCmd) => if c.ctx = ctx.toNat ∧ (s.party c.party).ended < (s.party c.party).ncrews then { c with stopped := true } else c
  let hold := fun (n : Nat) (x : ArrCmd) => if s.arrCtx x = ctx.toNat ∧ s.running n x = false then { x with stopped := true } else x
  let s := { s with
    preempt := { s.preempt with busy := true, restoring := false, status := 0, count := 0, nowCtx := ctx, nowDir := s.preempt.dir
                                waitFor := us }
    cores := s.cores.map fun (c : Nat × Core) => (c.1, { c.2 with
      array := c.2.array.map (hold c.1)
      copyQ := c.2.copyQ.map stop, gatherQ := c.2.gatherQ.map stop, collQ := c.2.collQ.map stop }) }
  if us.isEmpty then s.saveAll ctx.toNat else s

/-- Whether a write of PREEMPT_CTL is ignored. -/
def State.preemptBad (s : State) (v : BitVec 128) : Bool :=
  bf v 64 12 != 0 || bf v 48 8 != 0 || bf v 16 16 != 0 || !s.ctxOk (bf v 0 16) || ((bit v 61 || bit v 60) && s.preempt.busy)

/-- The entries of the save directory up to the one with VALID = 0. -/
def State.dirEntries (s : State) (base : Nat) : Nat → Nat → List Nat
  | 0, _ => []
  | fuel + 1, i =>
    let e := ofBytes (s.physRead (base + 64 * i) 64)
    if fld e 398 1 = 0 then [] else e :: s.dirEntries base fuel (i + 1)

/-- A saved party enters the list of its die. -/
def State.restoreParty (s : State) (ctx die lctr num : Nat) : State :=
  match s.saved.find? fun x => x.party.ctx == ctx && s.local_ 4096 x.party.lctr == lctr && x.party.num == num with
  | none => s
  | some x =>
    let p := x.party
    let k := (devPairs s.mode.mode (s.ctxDev ctx)).length
    let home := ((List.range k).map fun i => (s.ctx ctx).pair ((die + i) % k)).find? fun q => s.status.pairs.getLsbD q
    let w : WaitParty := {
      lctr := p.lctr, num := p.num, ctx, q := 0, prio := p.prio, dequeued := s.clk, since := s.clk, packet := p.packet
      priv := p.priv, notice := p.notice, run := p.trace.run, check := false, throt := true, stamps := p.stamps
      restore := some (partyKey p.lctr p.num) }
    s.onDie (home.getD ((s.ctx ctx).pair die)) fun d => { d with waiting := d.waiting ++ [w] }

/-- A restore: every entry of the directory enters its list. -/
def State.restoreStart (s : State) (ctx : BitVec 16) : State :=
  let es := s.dirEntries (s.preempt.dir.toNat * 4096) 65535 0
  let s := es.foldl (fun s e => if fld e 397 1 = 1 then s else s.restoreParty ctx.toNat (fld e 401 3) (fld e 436 12) (fld e 412 24)) s
  { s with preempt := { s.preempt with busy := true, restoring := true, nowCtx := ctx, count := BitVec.ofNat 16 es.length } }.push .preemptRestoreDone

/-- A write of PREEMPT_CTL (R330). -/
def State.preemptWrite (s : State) (v : BitVec 128) : State :=
  if s.preemptBad v then { s with preempt := { s.preempt with err := true } }
  else
    let s := { s with preempt := { s.preempt with dir := bf v 76 52, err := false, ctx := bf v 0 16 } }
    if bit v 61 then s.preemptStart (bf v 0 16) else if bit v 60 then s.restoreStart (bf v 0 16) else s

/-- PREEMPT_GO: a write with GO = 1. -/
def execPreemptGo (v : BitVec 128) (s : State) : Out := s.reg fun s => s.preemptWrite v
/-- PREEMPT_RESTORE: a write with RESTORE = 1. -/
def execPreemptRestore (v : BitVec 128) (s : State) : Out := s.reg fun s => s.preemptWrite v

/-- ENGINE_STOP_ACK: a unit acknowledges; when all have, the parties are saved. Engines go on with other contexts. -/
def execEngineStopAck (u : StopUnit) (s : State) : Out :=
  let p := s.preempt
  if !(p.busy && !p.restoring && p.waitFor.contains u) || !s.stopReady p.nowCtx.toNat u then .next s
  else
    let rest := p.waitFor.filter (· != u)
    let s := { s with preempt := { p with waitFor := rest } }
    .next (if rest.isEmpty then
        (if (s.stopUnits p.nowCtx.toNat).all (s.stopReady p.nowCtx.toNat) then s.saveAll p.nowCtx.toNat
         else { s with preempt := { p with waitFor := s.stopUnits p.nowCtx.toNat } })
      else s)

/-- PREEMPT_RESTORE_DONE. -/
def execPreemptRestoreDone (s : State) : Out :=
  .next (if s.preempt.busy && s.preempt.restoring then
      { s with preempt := { s.preempt with busy := false, restoring := false, status := 3 } }
    else s)

/-! ## The return of handler crews -/

/-- The crew that a saved tag names, once it is back. -/
def State.tagCrew (s : State) (t : LaneTag) : Option Nat :=
  (List.find? (fun kc : Nat × Crew => kc.2.kind != .handler && tagRef kc.2.party kc.2.num == t.crew) s.crews).map (·.1)

/-- Whether the crew that a saved tag names is gone for good: neither resident nor saved. -/
def State.tagGone (s : State) (t : LaneTag) : Bool :=
  (s.tagCrew t).isNone && !s.saved.any fun x => x.crews.any fun c => tagRef (partyKey x.party.lctr x.party.num) c.num == t.crew

/-- A saved handler crew returns to its handler slot, once that is free and the origins of the lanes that it still has are back (R335);
its state returns as that of the party's crews does (R334). Lanes whose origins are gone leave it. -/
def State.returnHandler (s : State) (h : Crew) : State :=
  let gone := maskOf fun l => h.live.getLsbD l && match h.tags[l]? with | some t => s.tagGone t | none => true
  let h' := if gone = 0 then h else h.exitLanes gone
  let rest := { s with savedHand := s.savedHand.filter (· != h) }
  let tags := h'.tags.map fun t => match s.tagCrew t with | some k => { t with crew := k } | none => t
  let back := (lanesOf h'.live).filterMap fun l => (h'.tags[l]?).map s.tagCrew
  match back with
  | [] => rest
  | b :: _ =>
    if back.any Option.isNone then s
    else
      let core := coreOfKey (b.getD 0)
      let k := crewKey core h.num
      if s.hasCrew k then s
      else
        let shift := ((s.party h.party).bandRow core : Int) - (h.first : Int)
        let held := h'.held.map fun x => match x.eff with
          | .atoms gs => { x with eff := .atoms (gs.map fun g => { g with crew := k }) }
          | _ => x
        let s := rest.coreAcquire core .dev (s.tlead (dieOfCore core)) []
        let s := s.putCrew k { h'.restored shift s.clk (s.core core).ts with tags, held, num := 0, first := 0 }
        if (s.crew k).cancel ≠ 0 ∧ (s.crew k).cancelWait = true then s.endAll k else s

def State.returnHandlers (s : State) : State := s.savedHand.foldl State.returnHandler s

end Sys2Proof.Machine
end

