-- ==== Sys2Proof/Machine/Registers.lean ====
section
/-! DEFINITION. The control region by its addresses (R9, R337): the word that each register or record reads as, and what a
write of the driver there does. -/

namespace Sys2Proof.Machine

/-- A register, record or push window of the control region (R337). -/
inductive CtlReg where
  | devStatus | devMode | linkStat | biasCtl | strikeCfg | ptpCfg | injectCfg | testCtl | elogCtl | sampleCfg | attCtl
  | preemptCtl | switchCnt
  | chkCfg (dev : Nat) | crwCfg (dev : Nat) | fixDepth (dev : Nat) | leaseCfg (die : Nat) | coreCnt (core : Nat) | memCnt (m : Nat)
  | qctl (q : Nat) | xctl (x : Nat) | counter (n : Nat) | sheet (h : Nat) | trapCfg (ctx : Nat) | context (ctx : Nat)
  | dieMap (ctx : Nat) | dirtyMap (m : Nat) | ckptCtl (dev : Nat) | sbxCtl (core : Nat) | peer (p : Nat) | group (g : Nat)
  | pushWin (q : Nat) | xpushWin (x : Nat)
  deriving DecidableEq, Repr

/-- A row of R337's table: the first byte, the number of items, their stride, their size in bytes. -/
structure CtlRow where
  base : Nat
  count : Nat := 1
  stride : Nat := 8
  size : Nat := 8
  reg : Nat → CtlReg

/-- The table of R337. -/
def ctlRows : List CtlRow := [
  { base := 0x000, reg := fun _ => .devStatus }, { base := 0x008, reg := fun _ => .devMode },
  { base := 0x010, reg := fun _ => .linkStat }, { base := 0x018, reg := fun _ => .biasCtl },
  { base := 0x020, reg := fun _ => .strikeCfg }, { base := 0x028, reg := fun _ => .ptpCfg },
  { base := 0x040, size := 16, reg := fun _ => .injectCfg }, { base := 0x050, size := 16, reg := fun _ => .testCtl },
  { base := 0x060, size := 16, reg := fun _ => .elogCtl }, { base := 0x070, size := 16, reg := fun _ => .sampleCfg },
  { base := 0x080, size := 16, reg := fun _ => .attCtl }, { base := 0x090, size := 16, reg := fun _ => .preemptCtl },
  { base := 0x0A0, size := 32, reg := fun _ => .switchCnt }] ++ [
  { base := 0x1000, count := 8, stride := 0x1000, reg := .chkCfg }, { base := 0x1008, count := 8, stride := 0x1000, reg := .crwCfg },
  { base := 0x1010, count := 8, stride := 0x1000, reg := .fixDepth },
  { base := 0x9000, count := 8, stride := 0x1000, reg := .leaseCfg }] ++
  ((List.range 8).map fun c => { base := 0x9100 + 0x1000 * c, count := 36, stride := 32, size := 32, reg := fun j => .coreCnt (36 * c + j) }) ++ [
  { base := 0x11000, count := 8, stride := 0x1000, size := 32, reg := .memCnt },
  { base := 0x20000, count := 64, reg := .qctl }, { base := 0x21000, count := 16, reg := .xctl },
  { base := 0x30000, count := 4096, stride := 16, size := 16, reg := .counter },
  { base := 0x40000, count := 256, stride := 16, size := 16, reg := .sheet },
  { base := 0x41000, count := 128, stride := 32, size := 32, reg := .trapCfg },
  { base := 0x42000, count := 128, stride := 16, size := 16, reg := .context },
  { base := 0x42800, count := 128, reg := .dieMap }, { base := 0x43000, count := 256, stride := 16, size := 16, reg := .dirtyMap },
  { base := 0x44000, count := 8, stride := 16, size := 16, reg := .ckptCtl }, { base := 0x45000, count := 48, reg := .sbxCtl },
  { base := 0x46000, count := 1024, stride := 16, size := 16, reg := .peer }, { base := 0x4A000, count := 4096, reg := .group },
  { base := 0x100000, count := 64, stride := 0x1000, size := 128, reg := .pushWin },
  { base := 0x140000, count := 16, stride := 0x1000, size := 128, reg := .xpushWin }]

/-- The item that an offset lies in, with its first byte and size. -/
def ctlAt (o : Nat) : Option (CtlReg × Nat × Nat) :=
  (ctlRows.find? fun (r : CtlRow) => r.base ≤ o && o < r.base + r.count * r.stride && (o - r.base) % r.stride < r.size).map
    fun r => (r.reg ((o - r.base) / r.stride), o - (o - r.base) % r.stride, r.size)

/-! ## What a register reads as -/

/-- Fields from the lowest bit up: width and value. -/
def packBits : List (Nat × Nat) → Nat
  | [] => 0
  | (w, v) :: fs => v % 2 ^ w + 2 ^ w * packBits fs

/-- Eight 32-bit fields, the first highest. -/
def packWords (ws : List W32) : Nat := packBits (ws.reverse.map fun w => (32, w.toNat))

/-- The value of a register or record, reserved and write-only bits 0. A push window holds the free places of its queue. -/
def State.ctlValue (s : State) : CtlReg → Nat
  | .devStatus =>
    let d := s.status
    packBits [(16, 0), (8, d.pairs.toNat), (8, 0), (16, d.fcode.toNat), (8, d.stage.toNat), (4, 0), (1, d.therm.toNat),
      (1, d.degr.toNat), (1, d.fail.toNat), (1, d.ready.toNat)]
  | .linkStat => packBits [(32, s.link.retry.toNat), (16, s.link.rtt.toNat), (13, 0), (2, s.link.width.toNat), (1, s.link.up.toNat)]
  | .devMode => packBits [(4, s.mode.mode.toNat), (26, 0), (2, s.mode.res.toNat)]
  | .biasCtl =>
    packBits [(16, 0), (36, s.bias.gran.toNat), (8, 0), (1, s.bias.target.toNat), (1, 0), (1, s.bias.busy.toNat), (1, s.bias.err.toNat)]
  | .strikeCfg => packBits [(1, s.strike.en.toNat), (3, 0), (8, s.strike.sens.toNat), (19, 0), (1, s.strike.err.toNat)]
  | .ptpCfg =>
    let p := s.ptp
    packBits [(8, 0), (8, p.cls.toNat), (8, p.prio2.toNat), (8, p.prio1.toNat), (8, p.domain.toNat), (4, p.synci.toNat), (4, 0),
      (4, p.port.toNat), (8, 0), (1, p.twostep.toNat), (1, p.gm.toNat), (1, p.en.toNat), (1, p.err.toNat)]
  | .injectCfg =>
    let j := s.inject
    packBits [(32, j.mask.toNat), (29, 0), (1, j.arm.toNat), (1, j.fired.toNat), (1, j.err.toNat), (8, j.port.toNat), (6, 0),
      (5, j.word.toNat), (45, j.line.toNat)]
  | .testCtl =>
    let t := s.test
    packBits [(32, t.gap.toNat), (8, 0), (16, t.idle.toNat), (4, t.res.toNat), (1, t.en.toNat), (1, 0), (1, t.busy.toNat),
      (1, t.err.toNat), (12, 0), (52, t.img.toNat)]
  | .elogCtl =>
    let e := s.elog
    packBits [(16, e.tail.toNat), (16, e.head.toNat), (8, 0), (8, e.size.toNat), (13, 0), (1, e.ovf.toNat), (1, e.en.toNat),
      (1, e.err.toNat), (12, 0), (52, e.base.toNat)]
  | .sampleCfg =>
    let c := s.sample
    packBits [(16, c.ctx.toNat), (16, c.pages.toNat), (8, 0), (16, c.period.toNat), (5, 0), (1, c.all.toNat), (1, c.en.toNat),
      (1, c.err.toNat), (12, 0), (52, c.buf.toNat)]
  | .attCtl =>
    let a := s.att
    packBits [(58, a.dest.toNat), (2, 0), (1, a.done.toNat), (1, 0), (1, a.busy.toNat), (1, a.err.toNat), (6, 0), (58, a.nonce.toNat)]
  | .preemptCtl =>
    let p := s.preempt
    packBits [(16, p.ctx.toNat), (16, 0), (16, p.count.toNat), (8, 0), (4, p.status.toNat), (2, 0), (1, p.busy.toNat),
      (1, p.err.toNat), (12, 0), (52, p.dir.toNat)]
  | .switchCnt => packWords [s.swCnt.merges, s.swCnt.dead, s.swCnt.drops, s.swCnt.lretry, 0, 0, 0, 0]
  | .chkCfg d =>
    let c := Map.get {} s.devCfg d
    if s.devExists d then packBits [(1, c.rchk.toNat), (1, c.cchk.toNat), (1, c.hold.toNat), (28, 0), (1, c.chkErr.toNat)] else 0
  | .crwCfg d =>
    let c := Map.get {} s.devCfg d
    if s.devExists d then packBits [(1, c.check.toNat), (1, c.throt.toNat), (29, 0), (1, c.crwErr.toNat)] else 0
  | .fixDepth d =>
    let c := Map.get {} s.devCfg d
    if s.devExists d then packBits [(6, c.fix.toNat), (25, 0), (1, c.fixErr.toNat)] else 0
  | .leaseCfg d => packBits [(8, (s.die d).lease.toNat), (12, (s.die d).tick.toNat), (11, 0), (1, (s.die d).leaseErr.toNat)]
  | .coreCnt n =>
    let c := (s.core n).cnt
    packWords [c.strikes, c.late, c.reord, c.scopem, c.tpass, c.tfail, c.poisc, c.dblf]
  | .memCnt m =>
    let c := Map.get {} s.memCnt m
    packWords [c.ordv, c.twow, c.hashv, c.mergv, c.lost, c.eccc, c.eccu, 0]
  | .qctl q =>
    let x := Map.get {} s.queues q
    packBits [(16, x.ctx.toNat), (16, 0), (9, x.pkts.length), (9, 0), (2, x.prio.toNat), (1, x.devpush.toNat), (1, x.privq.toNat),
      (1, x.en.toNat), (1, x.part.toNat), (1, x.ovf.toNat), (4, x.fault.toNat), (1, 0), (1, x.halt.toNat), (1, x.err.toNat)]
  | .xctl q =>
    let x := Map.get {} s.xqueues q
    packBits [(16, x.ctx.toNat), (16, 0), (9, x.descs.length), (11, 0), (1, x.devpush.toNat), (1, 0), (1, x.en.toNat),
      (1, x.part.toNat), (1, x.ovf.toNat), (6, 0), (1, x.err.toNat)]
  | .counter n =>
    let c := s.counter n
    packBits [(23, 0), (1, c.err.toNat), (24, c.endv.toNat), (16, c.ctx.toNat), (64, c.caddr.toNat)]
  | .sheet h =>
    let x := Map.get {} s.sheets h
    packBits [(7, 0), (57, x.image.toNat), (10, x.slots.toNat), (1, x.en.toNat), (4, 0), (1, x.err.toNat), (16, x.ctx.toNat),
      (32, x.epoch.toNat)]
  | .trapCfg n =>
    let t := Map.get {} s.trapCfg n
    packBits [(1, t.en.toNat), (9, 0), (6, t.tq.toNat), (111, 0), (1, t.err.toNat), (64, t.tmpl.toNat), (64, t.lhentry.toNat)]
  | .context n =>
    let c := s.ctx n
    packBits [(62, 0), (1, c.en.toNat), (1, c.err.toNat), (13, 0), (3, c.dev.toNat), (8, 0), (40, c.root.toNat)]
  | .dieMap n => packBits [(32, (s.ctx n).ents.toNat), (31, 0), (1, (s.ctx n).mapErr.toNat)]
  | .dirtyMap n =>
    let m := Map.get {} s.dirtyMaps n
    packBits [(32, m.epoch.toNat), (16, m.ctx.toNat), (12, m.lctr.toNat), (1, m.en.toNat), (1, m.err.toNat), (26, m.len.toNat),
      (40, m.base.toNat)]
  | .ckptCtl d =>
    let c := Map.get {} s.ckpt d
    packBits [(32, c.num.toNat), (7, 0), (1, c.dv.toNat), (8, c.dead.toNat), (10, c.period.toNat), (1, c.valid.toNat), (1, c.overf.toNat),
      (2, 0), (1, c.busy.toNat), (1, c.err.toNat), (24, c.size.toNat), (40, c.area.toNat)]
  | .sbxCtl n =>
    let x := Map.get {} s.sbx n
    packBits [(8, x.dom.toNat), (54, 0), (1, x.err.toNat), (1, x.halted.toNat)]
  | .peer n =>
    let p := Map.get {} s.peers n
    packBits [(1, p.en.toNat), (1, p.err.toNat), (14, 0), (16, p.rpeer.toNat), (16, p.ctx.toNat), (16, p.rctx.toNat), (12, p.ports.toNat),
      (4, 0), (48, p.mac.toNat)]
  | .group n =>
    let g := Map.get {} s.groups n
    packBits [(11, g.members.toNat), (21, 0), (16, g.ctx.toNat), (15, 0), (1, g.err.toNat)]
  | .pushWin q => 256 - (Map.get {} s.queues q).pkts.length
  | .xpushWin x => 256 - (Map.get {} s.xqueues x).descs.length

/-- The byte that the driver reads at an offset of the control region. Before READY only DEV_STATUS and LINK_STAT can be
read; every other register reads all ones (R356). -/
def State.ctlRead (s : State) (o : Nat) : Byte :=
  match ctlAt o with
  | none => 0
  | some (r, a, _) =>
    if s.status.ready || r == .devStatus || r == .linkStat then BitVec.ofNat 8 (s.ctlValue r / 256 ^ (o - a)) else 0xFF

/-! ## What a write does -/

/-- A register of 32 bits occupies the low half of its 8 bytes: a write whose high half is not 0 counts as one of a
reserved field. -/
def low32 (v : Nat) : W32 := BitVec.ofNat 32 (if v < 2 ^ 32 then v else 2 ^ 29)

/-- A write that covers a whole register or record. -/
def State.ctlPut (s : State) (r : CtlReg) (v : Nat) : Out :=
  let w : W64 := BitVec.ofNat 64 v
  let d : BitVec 128 := BitVec.ofNat 128 v
  match r with
  | .devStatus | .linkStat => .next s
  | .devMode => execDevModeWrite (low32 v) s
  | .biasCtl => execBiasFlipGo w s
  | .strikeCfg => execRegisterWrite .strikeCfg (low32 v) s
  | .ptpCfg => execPtpCfgWrite w s
  | .injectCfg => execInjectCfgWrite d s
  | .testCtl => if bit d 61 then execTestCtlLoad d s else execTestCtlWrite d s
  | .elogCtl => execElogCtlWrite d s
  | .sampleCfg => execSampleCfgWrite d s
  | .attCtl => execAttGo d s
  | .preemptCtl => if bit d 60 && !bit d 61 then execPreemptRestore d s else execPreemptGo d s
  | .switchCnt => execCounterRecordClear .switch s
  | .chkCfg n => execRegisterWrite (.chkCfg n) (low32 v) s
  | .crwCfg n => execRegisterWrite (.crwCfg n) (low32 v) s
  | .fixDepth n => execRegisterWrite (.fixDepth n) (low32 v) s
  | .leaseCfg n => execRegisterWrite (.leaseCfg n) (low32 v) s
  | .coreCnt n => execCounterRecordClear (.core n) s
  | .memCnt n => execCounterRecordClear (.mem n) s
  | .qctl q => execQctlWrite q w s
  | .xctl x => execXctlWrite x w s
  | .counter n => execCounterControlWrite n d s
  | .sheet h => execSheetHomeWrite h d s
  | .trapCfg n => execTrapConfigWrite n (BitVec.ofNat 256 v) s
  | .context n => if bit d 62 then (if (s.ctx n).en then execContextRootWrite n d s else execContextCreate n d s) else execContextDestroy n d s
  | .dieMap n => execDieMapWrite n w s
  | .dirtyMap n => execDirtyMapWrite n d s
  | .ckptCtl n => if bit d 60 then execCkptRollback n d s else execCkptGo n d s
  | .sbxCtl n => execSbxCtlWrite n w s
  | .peer n => execPeerRecordWrite n d s
  | .group n => execCollGroupWrite n w s
  | .pushWin q => execQueuePush q .driver true (BitVec.ofNat 1024 v) s
  | .xpushWin x => execTransportDescriptorPush x .driver true (BitVec.ofNat 1024 v) s

/-- A write that covers only part of a register or record is ignored and sets its ERR (R9); one that covers part of a push
window is discarded there (R300, R347); every write to a counter record acts the same. -/
def State.ctlPart (s : State) (r : CtlReg) : Out :=
  let f : State → State := fun s => match r with
    | .biasCtl => { s with bias := { s.bias with err := true } }
    | .strikeCfg => { s with strike := { s.strike with err := true } }
    | .ptpCfg => { s with ptp := { s.ptp with err := true } }
    | .injectCfg => { s with inject := { s.inject with err := true } }
    | .testCtl => { s with test := { s.test with err := true } }
    | .elogCtl => { s with elog := { s.elog with err := true } }
    | .sampleCfg => { s with sample := { s.sample with err := true } }
    | .attCtl => { s with att := { s.att with err := true } }
    | .preemptCtl => { s with preempt := { s.preempt with err := true } }
    | .devMode => { s with mode := { s.mode with res := 2 } }
    | .chkCfg n => s.onCfg n fun c => { c with chkErr := true }
    | .crwCfg n => s.onCfg n fun c => { c with crwErr := true }
    | .fixDepth n => s.onCfg n fun c => { c with fixErr := true }
    | .leaseCfg n => s.onDie n fun d => { d with leaseErr := true }
    | .qctl q => s.onQueue q fun x => { x with err := true }
    | .xctl x => s.onX x fun y => { y with err := true }
    | .counter n => s.onCounter n fun c => { c with err := true }
    | .sheet h => { s with sheets := Map.modify {} s.sheets h fun x => { x with err := true } }
    | .trapCfg n => { s with trapCfg := Map.modify {} s.trapCfg n fun x => { x with err := true } }
    | .context n => { s with ctxs := Map.put s.ctxs n { s.ctx n with err := true } }
    | .dieMap n => { s with ctxs := Map.put s.ctxs n { s.ctx n with mapErr := true } }
    | .dirtyMap n => { s with dirtyMaps := Map.modify {} s.dirtyMaps n fun x => { x with err := true } }
    | .ckptCtl n => s.onCkpt n fun x => { x with err := true }
    | .sbxCtl n => { s with sbx := Map.modify {} s.sbx n fun x => { x with err := true } }
    | .peer n => { s with peers := Map.modify {} s.peers n fun x => { x with err := true } }
    | .group n => { s with groups := Map.modify {} s.groups n fun x => { x with err := true } }
    | _ => s
  match r with
  | .switchCnt | .coreCnt _ | .memCnt _ => s.ctlPut r 0
  | .pushWin q => execQueuePush q .driver false 0 s
  | .xpushWin x => execTransportDescriptorPush x .driver false 0 s
  | r => s.reg fun _ => f s

/-- The least number of bytes that write a register whole: 4 for one of 32 bits. -/
def CtlReg.need (r : CtlReg) (size : Nat) : Nat :=
  match r with
  | .devMode | .strikeCfg | .chkCfg _ | .crwCfg _ | .fixDepth _ | .leaseCfg _ => 4
  | _ => size

/-- A write of bytes from an offset on, register by register. -/
def State.ctlWrite : Nat → Nat → List Byte → State → Out
  | 0, _, _, s => .next s
  | fuel + 1, o, bs, s =>
    match bs with
    | [] => .next s
    | _ :: rest =>
      match ctlAt o with
      | none => State.ctlWrite fuel (o + 1) rest s
      | some (r, a, size) =>
        let mine := bs.take (a + size - o)
        let out := if o = a ∧ r.need size ≤ mine.length then s.ctlPut r (ofBytes mine) else s.ctlPart r
        match out with
        | .next s' => State.ctlWrite fuel (a + size) (bs.drop (a + size - o)) s'
        | x => x

/-- Whether an agent caches a location and writes it in its own copy (R265): a companion core, and the host where it is not the
home (R277). -/
def State.cachesLoc (s : State) (agent loc : Nat) : Bool :=
  (8 ≤ agent && agent < 56) || (agent == 56 && !(locPair loc == 8 && inWin s.host (locPa loc) &&
    !s.granules.contains (locPa loc / 65536)))

/-- A store of an agent outside the compute dies: it obtains M, unless it holds it, and writes (R265, R352). Its lines take the
clocks that the agent has met, for a FENCE of its own may stand before the store (R65). -/
def State.agentStore (s : State) (agent : Nat) (cs : List Host.Cell) : State :=
  let sp := spansOf cs
  let s := sp.foldl (fun s x => s.request agent x.1 x.2.1 x.2.2 true) s
  let s := (s.carry (sp.map (·.1)) (Map.get [] s.agentSeen agent)).perform cs
  let s := sp.foldl (fun s x => s.dropWatchers (fun _ => true) x.1 x.2.1 x.2.2) s
  (s.trigger none cs).dirty cs none

/-- HOME_WRITE: a write at a line's home by an agent that need not cache it, or the store of an agent that does. The control
region takes writes from the host's privileged software, agent 56, and the security processor, agent 57. -/
def execHomeWrite (agent loc : Nat) (bytes : List Byte) (s : State) : Out :=
  if locCtl loc then
    if agent = 56 ∨ agent = 57 then State.ctlWrite bytes.length (locPa loc - ctlBase) bytes s else .next s
  else .next (if s.flipping loc then s.holdReq (.home loc bytes none [])
    else if s.cachesLoc agent loc then s.agentStore agent (cellsOf loc bytes) else s.homeCells (cellsOf loc bytes) none)

end Sys2Proof.Machine
end

