-- ==== Sys2Proof/Machine/Dispatch.lean ====
section
/-! DEFINITION. One arm for each constructor of `Instr`: a call of its meaning. -/

namespace Sys2Proof.Machine

def exec (i : Instr) (s : State) : Host.Outcome State Fault Refusal :=
  match i with
  | .sadd st ty sd sa b => Sys2Proof.Machine.execSadd st ty sd sa b s
  | .ssub st ty sd sa b => Sys2Proof.Machine.execSsub st ty sd sa b s
  | .smul st ty sd sa b => Sys2Proof.Machine.execSmul st ty sd sa b s
  | .smulh st ty sd sa b => Sys2Proof.Machine.execSmulh st ty sd sa b s
  | .sdiv st ty sd sa b => Sys2Proof.Machine.execSdiv st ty sd sa b s
  | .srem st ty sd sa b => Sys2Proof.Machine.execSrem st ty sd sa b s
  | .sand st ty sd sa b => Sys2Proof.Machine.execSand st ty sd sa b s
  | .sor st ty sd sa b => Sys2Proof.Machine.execSor st ty sd sa b s
  | .sxor st ty sd sa b => Sys2Proof.Machine.execSxor st ty sd sa b s
  | .sandn st ty sd sa b => Sys2Proof.Machine.execSandn st ty sd sa b s
  | .sshl st ty sd sa b => Sys2Proof.Machine.execSshl st ty sd sa b s
  | .sshr st ty sd sa b => Sys2Proof.Machine.execSshr st ty sd sa b s
  | .ssra st ty sd sa b => Sys2Proof.Machine.execSsra st ty sd sa b s
  | .smin st ty sd sa b => Sys2Proof.Machine.execSmin st ty sd sa b s
  | .smax st ty sd sa b => Sys2Proof.Machine.execSmax st ty sd sa b s
  | .scmp st c sd sa b => Sys2Proof.Machine.execScmp st c sd sa b s
  | .ssel st sd sc sa sb => Sys2Proof.Machine.execSsel st sd sc sa sb s
  | .sli st zx sd v => Sys2Proof.Machine.execSli st zx sd v s
  | .slih st sd sa v => Sys2Proof.Machine.execSlih st sd sa v s
  | .smov st sd sa => Sys2Proof.Machine.execSmov st sd sa s
  | .sclz st ty sd sa => Sys2Proof.Machine.execSclz st ty sd sa s
  | .spopc st ty sd sa => Sys2Proof.Machine.execSpopc st ty sd sa s
  | .sbfx st sx sd sa sb => Sys2Proof.Machine.execSbfx st sx sd sa sb s
  | .sbfi st sd sa sb => Sys2Proof.Machine.execSbfi st sd sa sb s
  | .sext st ty sd sa => Sys2Proof.Machine.execSext st ty sd sa s
  | .sld st w ord sd sb ofs => Sys2Proof.Machine.execSld st w ord sd sb ofs s
  | .sst st w ord sa sb ofs => Sys2Proof.Machine.execSst st w ord sa sb ofs s
  | .sprf st sb ofs => Sys2Proof.Machine.execSprf st sb ofs s
  | .br st disp => Sys2Proof.Machine.execBr st disp s
  | .brc st c sa sb disp => Sys2Proof.Machine.execBrc st c sa sb disp s
  | .brz st sa disp => Sys2Proof.Machine.execBrz st sa disp s
  | .brnz st sa disp => Sys2Proof.Machine.execBrnz st sa disp s
  | .brx st sa v => Sys2Proof.Machine.execBrx st sa v s
  | .call st n disp => Sys2Proof.Machine.execCall st n disp s
  | .callx st n sa => Sys2Proof.Machine.execCallx st n sa s
  | .ret st => Sys2Proof.Machine.execRet st s
  | .exit h => Sys2Proof.Machine.execExit h s
  | .yield st => Sys2Proof.Machine.execYield st s
  | .nop st => Sys2Proof.Machine.execNop st s
  | .vbr h disp => Sys2Proof.Machine.execVbr h disp s
  | .vbrx h va => Sys2Proof.Machine.execVbrx h va s
  | .pany st sd pn => Sys2Proof.Machine.execPany st sd pn s
  | .pall st sd pn => Sys2Proof.Machine.execPall st sd pn s
  | .pcnt st sd pn => Sys2Proof.Machine.execPcnt st sd pn s
  | .pffs st sd pn => Sys2Proof.Machine.execPffs st sd pn s
  | .rdsrScalar st sd r => Sys2Proof.Machine.execRdsrScalar st sd r s
  | .rdsrVector h vd r => Sys2Proof.Machine.execRdsrVector h vd r s
  | .wrsrScalar st r sb => Sys2Proof.Machine.execWrsrScalar st r sb s
  | .wrsrVector h va => Sys2Proof.Machine.execWrsrVector h va s
  | .rdtime st sd => Sys2Proof.Machine.execRdtime st sd s
  | .vadd h ty sat vd va vb => Sys2Proof.Machine.execVadd h ty sat vd va vb s
  | .vaddImm h ty vd va v => Sys2Proof.Machine.execVaddImm h ty vd va v s
  | .vsub h ty sat vd va vb => Sys2Proof.Machine.execVsub h ty sat vd va vb s
  | .vmul h ty sat vd va vb => Sys2Proof.Machine.execVmul h ty sat vd va vb s
  | .vmulh h ty vd va vb => Sys2Proof.Machine.execVmulh h ty vd va vb s
  | .vmad h ty vd va vb vc => Sys2Proof.Machine.execVmad h ty vd va vb vc s
  | .vdiv h ty sat vd va vb => Sys2Proof.Machine.execVdiv h ty sat vd va vb s
  | .vrem h ty vd va vb => Sys2Proof.Machine.execVrem h ty vd va vb s
  | .vand h ty vd va vb => Sys2Proof.Machine.execVand h ty vd va vb s
  | .vandImm h ty vd va v => Sys2Proof.Machine.execVandImm h ty vd va v s
  | .vor h ty vd va vb => Sys2Proof.Machine.execVor h ty vd va vb s
  | .vorImm h ty vd va v => Sys2Proof.Machine.execVorImm h ty vd va v s
  | .vxor h ty vd va vb => Sys2Proof.Machine.execVxor h ty vd va vb s
  | .vxorImm h ty vd va v => Sys2Proof.Machine.execVxorImm h ty vd va v s
  | .vandn h ty vd va vb => Sys2Proof.Machine.execVandn h ty vd va vb s
  | .vshl h ty vd va vb => Sys2Proof.Machine.execVshl h ty vd va vb s
  | .vshlImm h ty vd va v => Sys2Proof.Machine.execVshlImm h ty vd va v s
  | .vshr h ty vd va vb => Sys2Proof.Machine.execVshr h ty vd va vb s
  | .vshrImm h ty vd va v => Sys2Proof.Machine.execVshrImm h ty vd va v s
  | .vsra h ty vd va vb => Sys2Proof.Machine.execVsra h ty vd va vb s
  | .vsraImm h ty vd va v => Sys2Proof.Machine.execVsraImm h ty vd va v s
  | .vrot h ty vd va vb => Sys2Proof.Machine.execVrot h ty vd va vb s
  | .vmin h ty vd va vb => Sys2Proof.Machine.execVmin h ty vd va vb s
  | .vmax h ty vd va vb => Sys2Proof.Machine.execVmax h ty vd va vb s
  | .vabs h ty sat vd va => Sys2Proof.Machine.execVabs h ty sat vd va s
  | .vclz h ty vd va => Sys2Proof.Machine.execVclz h ty vd va s
  | .vpopc h ty vd va => Sys2Proof.Machine.execVpopc h ty vd va s
  | .vbrev h ty vd va => Sys2Proof.Machine.execVbrev h ty vd va s
  | .vbfx h sx vd va vb => Sys2Proof.Machine.execVbfx h sx vd va vb s
  | .vbfi h vd va vb vc => Sys2Proof.Machine.execVbfi h vd va vb vc s
  | .vsel h ty pc vd va vb => Sys2Proof.Machine.execVsel h ty pc vd va vb s
  | .vmov h ty vd va => Sys2Proof.Machine.execVmov h ty vd va s
  | .vli h ty vd v => Sys2Proof.Machine.execVli h ty vd v s
  | .vcmp h c ty pd va vb => Sys2Proof.Machine.execVcmp h c ty pd va vb s
  | .vclmul h vd va vb => Sys2Proof.Machine.execVclmul h vd va vb s
  | .vclmulh h vd va vb => Sys2Proof.Machine.execVclmulh h vd va vb s
  | .vaddc h wide pc vd va vb => Sys2Proof.Machine.execVaddc h wide pc vd va vb s
  | .vfadd h r ty vd va vb => Sys2Proof.Machine.execVfadd h r ty vd va vb s
  | .vfsub h r ty vd va vb => Sys2Proof.Machine.execVfsub h r ty vd va vb s
  | .vfmul h r ty vd va vb => Sys2Proof.Machine.execVfmul h r ty vd va vb s
  | .vfmaF16 h r vd va vb vc => Sys2Proof.Machine.execVfmaF16 h r vd va vb vc s
  | .vfmaF32 h r vd va vb vc => Sys2Proof.Machine.execVfmaF32 h r vd va vb vc s
  | .vfmaF64 h r vd va vb vc => Sys2Proof.Machine.execVfmaF64 h r vd va vb vc s
  | .vfdiv h r ty vd va vb => Sys2Proof.Machine.execVfdiv h r ty vd va vb s
  | .vfsqrt h r ty vd va => Sys2Proof.Machine.execVfsqrt h r ty vd va s
  | .vfrcp h ty vd va => Sys2Proof.Machine.execVfrcp h ty vd va s
  | .vfrsq h ty vd va => Sys2Proof.Machine.execVfrsq h ty vd va s
  | .vfexp2 h ty vd va => Sys2Proof.Machine.execVfexp2 h ty vd va s
  | .vflog2 h ty vd va => Sys2Proof.Machine.execVflog2 h ty vd va s
  | .vfsin h ty vd va => Sys2Proof.Machine.execVfsin h ty vd va s
  | .vfcos h ty vd va => Sys2Proof.Machine.execVfcos h ty vd va s
  | .vfmin h ty vd va vb => Sys2Proof.Machine.execVfmin h ty vd va vb s
  | .vfmax h ty vd va vb => Sys2Proof.Machine.execVfmax h ty vd va vb s
  | .vfcmp h c ty pd va vb => Sys2Proof.Machine.execVfcmp h c ty pd va vb s
  | .vfcls h ty vd va => Sys2Proof.Machine.execVfcls h ty vd va s
  | .vfrnd h r ty vd va => Sys2Proof.Machine.execVfrnd h r ty vd va s
  | .vfdot h r vd va vb => Sys2Proof.Machine.execVfdot h r vd va vb s
  | .vcvt h r sat dst src vd va => Sys2Proof.Machine.execVcvt h r sat dst src vd va s
  | .vpack h fmt vd va => Sys2Proof.Machine.execVpack h fmt vd va s
  | .vunpk h fmt vd va => Sys2Proof.Machine.execVunpk h fmt vd va s
  | .vshfl h m vd va vb => Sys2Proof.Machine.execVshfl h m vd va vb s
  | .vbcast h vd va lane => Sys2Proof.Machine.execVbcast h vd va lane s
  | .vred h op ty sat vd va => Sys2Proof.Machine.execVred h op ty sat vd va s
  | .vscan h op ty sat vd va => Sys2Proof.Machine.execVscan h op ty sat vd va s
  | .vext st wide sd va sb => Sys2Proof.Machine.execVext st wide sd va sb s
  | .vins st wide vd sa sb => Sys2Proof.Machine.execVins st wide vd sa sb s
  | .vcompr h vd va => Sys2Proof.Machine.execVcompr h vd va s
  | .pand h pd pa pb => Sys2Proof.Machine.execPand h pd pa pb s
  | .por h pd pa pb => Sys2Proof.Machine.execPor h pd pa pb s
  | .pxor h pd pa pb => Sys2Proof.Machine.execPxor h pd pa pb s
  | .pnot h pd pa => Sys2Proof.Machine.execPnot h pd pa s
  | .pmov h pd pa => Sys2Proof.Machine.execPmov h pd pa s
  | .pset h pd sb => Sys2Proof.Machine.execPset h pd sb s
  | .pget st sd pn => Sys2Proof.Machine.execPget st sd pn s
  | .kcnt st sd k => Sys2Proof.Machine.execKcnt st sd k s
  | .kffs st sd k => Sys2Proof.Machine.execKffs st sd k s
  | .kbit st sd k sa => Sys2Proof.Machine.execKbit st sd k sa s
  | .kmvToVector st vd k => Sys2Proof.Machine.execKmvToVector st vd k s
  | .kmvToMask st k va => Sys2Proof.Machine.execKmvToMask st k va s
  | .vld h w ord vd sb idx ofs => Sys2Proof.Machine.execVld h w ord vd sb idx ofs s
  | .vst h w ord va sb idx ofs => Sys2Proof.Machine.execVst h w ord va sb idx ofs s
  | .vgth h w ord vd sb idx ofs => Sys2Proof.Machine.execVgth h w ord vd sb idx ofs s
  | .vsct h w ord va sb idx ofs => Sys2Proof.Machine.execVsct h w ord va sb idx ofs s
  | .vldp h w vd t sb idx ofs => Sys2Proof.Machine.execVldp h w vd t sb idx ofs s
  | .vstp h w va t sb idx ofs => Sys2Proof.Machine.execVstp h w va t sb idx ofs s
  | .vprf h w sb idx ofs => Sys2Proof.Machine.execVprf h w sb idx ofs s
  | .sldp st w sd t sb ofs => Sys2Proof.Machine.execSldp st w sd t sb ofs s
  | .vatom h op ty sc ord sat vd sb idx => Sys2Proof.Machine.execVatom h op ty sc ord sat vd sb idx s
  | .satom st op ty sc ord sat sd sa sb => Sys2Proof.Machine.execSatom st op ty sc ord sat sd sa sb s
  | .vredm h op ty sc rel sat x sb idx => Sys2Proof.Machine.execVredm h op ty sc rel sat x sb idx s
  | .patom h op ty clus ord sat vd t idx => Sys2Proof.Machine.execPatom h op ty clus ord sat vd t idx s
  | .fence st ord sc => Sys2Proof.Machine.execFence st ord sc s
  | .cflush st sc sb ofs => Sys2Proof.Machine.execCflush st sc sb ofs s
  | .cinv st sc sb ofs => Sys2Proof.Machine.execCinv st sc sb ofs s
  | .tres st td n core stat => Sys2Proof.Machine.execTres st td n core stat s
  | .trel st td => Sys2Proof.Machine.execTrel st td s
  | .tcfgPlate st td sa => Sys2Proof.Machine.execTcfgPlate st td sa s
  | .tcfgRegion st ak sa => Sys2Proof.Machine.execTcfgRegion st ak sa s
  | .trd st sa ta => Sys2Proof.Machine.execTrd st sa ta s
  | .tstat st sa sb => Sys2Proof.Machine.execTstat st sa sb s
  | .mma st ty ak ta tb sa sb k => Sys2Proof.Machine.execMma st ty ak ta tb sa sb k s
  | .mmap st ty ak ta tb sa sb k => Sys2Proof.Machine.execMmap st ty ak ta tb sa sb k s
  | .mbatch st sd => Sys2Proof.Machine.execMbatch st sd s
  | .mwait st sa => Sys2Proof.Machine.execMwait st sa s
  | .mpoll st sd sa => Sys2Proof.Machine.execMpoll st sd sa s
  | .acld st half col ak ta sa => Sys2Proof.Machine.execAcld st half col ak ta sa s
  | .acst st half r col ak ta sa => Sys2Proof.Machine.execAcst st half r col ak ta sa s
  | .aczero st ak => Sys2Proof.Machine.execAczero st ak s
  | .acrd h col vd ak sa => Sys2Proof.Machine.execAcrd h col vd ak sa s
  | .laycfg st sd sa sb => Sys2Proof.Machine.execLaycfg st sd sa sb s
  | .cpy st toGlobal t sd sa sb ev => Sys2Proof.Machine.execCpy st toGlobal t sd sa sb ev s
  | .gth st t sd sa sb ev => Sys2Proof.Machine.execGth st t sd sa sb ev s
  | .coll st op ty t sa sb ev => Sys2Proof.Machine.execColl st op ty t sa sb ev s
  | .bari st bar sa => Sys2Proof.Machine.execBari st bar sa s
  | .barv st bar p => Sys2Proof.Machine.execBarv st bar p s
  | .barw st bar sa => Sys2Proof.Machine.execBarw st bar sa s
  | .bard st bar => Sys2Proof.Machine.execBard st bar s
  | .bart st sd bar sa => Sys2Proof.Machine.execBart st sd bar sa s
  | .qcfg st q sa sb => Sys2Proof.Machine.execQcfg st q sa sb s
  | .qpush st q sa => Sys2Proof.Machine.execQpush st q sa s
  | .qpop st sd q => Sys2Proof.Machine.execQpop st sd q s
  | .qtryPop st sd q => Sys2Proof.Machine.execQtryPop st sd q s
  | .qtryPush st sd q sa => Sys2Proof.Machine.execQtryPush st sd q sa s
  | .qallow st q sa n => Sys2Proof.Machine.execQallow st q sa n s
  | .watch st wide count sb ofs => Sys2Proof.Machine.execWatch st wide count sb ofs s
  | .park st sa => Sys2Proof.Machine.execPark st sa s
  | .parkSt st sd sa => Sys2Proof.Machine.execParkSt st sd sa s
  | .shpv st k sd board sa sb => Sys2Proof.Machine.execShpv st k sd board sa sb s
  | .shlv st k sd board => Sys2Proof.Machine.execShlv st k sd board s
  | .shrs st sd board => Sys2Proof.Machine.execShrs st sd board s
  | .dlaunch h sd vx q => Sys2Proof.Machine.execDlaunch h sd vx q s
  | .sdlaunch st sd sa q => Sys2Proof.Machine.execSdlaunch st sd sa q s
  | .cancel st lv => Sys2Proof.Machine.execCancel st lv s
  | .cntrd st sd sa => Sys2Proof.Machine.execCntrd st sd sa s
  | .rlnch st sd sa q => Sys2Proof.Machine.execRlnch st sd sa q s
  | .trrec st sd sa => Sys2Proof.Machine.execTrrec st sd sa s
  | .dmclr st sd m => Sys2Proof.Machine.execDmclr st sd m s
  | .dmq st sd sa sb m => Sys2Proof.Machine.execDmq st sd sa sb m s
  | .trap h code lane => Sys2Proof.Machine.execTrap h code lane s
  | .brkpt h code => Sys2Proof.Machine.execBrkpt h code s
  | .hret st sa => Sys2Proof.Machine.execHret st sa s
  | .lhret st wide va vb => Sys2Proof.Machine.execLhret st wide va vb s
  | .ckpt st sd => Sys2Proof.Machine.execCkpt st sd s
  | .svccfg st sd sa slot => Sys2Proof.Machine.execSvccfg st sd sa slot s
  | .blockEntry crew => Sys2Proof.Machine.execBlockEntry crew s
  | .windowMove crew => Sys2Proof.Machine.execWindowMove crew s
  | .issueSelect core part => Sys2Proof.Machine.execIssueSelect core part s
  | .throttleRecompute core => Sys2Proof.Machine.execThrottleRecompute core s
  | .scoreHalving core => Sys2Proof.Machine.execScoreHalving core s
  | .throttleAdmitTimeout crew => Sys2Proof.Machine.execThrottleAdmitTimeout crew s
  | .effectLeavesCore crew => Sys2Proof.Machine.execEffectLeavesCore crew s
  | .loadReturn crew => Sys2Proof.Machine.execLoadReturn crew s
  | .pageWalkDone core ctx va write => Sys2Proof.Machine.execPageWalkDone core ctx va write s
  | .l1Read core line f l => Sys2Proof.Machine.execL1Read core line f l s
  | .l2Read core line f l => Sys2Proof.Machine.execL2Read core line f l s
  | .l2Write core line f l => Sys2Proof.Machine.execL2Write core line f l s
  | .leaseTick die => Sys2Proof.Machine.execLeaseTick die s
  | .timestampSweep die => Sys2Proof.Machine.execTimestampSweep die s
  | .dropMessage core line f l => Sys2Proof.Machine.execDropMessage core line f l s
  | .parkWake crew => Sys2Proof.Machine.execParkWake crew s
  | .parkTimeout crew => Sys2Proof.Machine.execParkTimeout crew s
  | .getS agent line f l => Sys2Proof.Machine.execGetS agent line f l s
  | .getX agent line f l => Sys2Proof.Machine.execGetX agent line f l s
  | .cln agent line f l => Sys2Proof.Machine.execCln agent line f l s
  | .countedRequestAck crew => Sys2Proof.Machine.execCountedRequestAck crew s
  | .dirtyBitMessage parcel lctr => Sys2Proof.Machine.execDirtyBitMessage parcel lctr s
  | .releaseComplete crew => Sys2Proof.Machine.execReleaseComplete crew s
  | .atomicRequestExecute cluster => Sys2Proof.Machine.execAtomicRequestExecute cluster s
  | .atomicReturn crew => Sys2Proof.Machine.execAtomicReturn crew s
  | .plateStoreArbitration core => Sys2Proof.Machine.execPlateStoreArbitration core s
  | .clusterQueueUpdate party q => Sys2Proof.Machine.execClusterQueueUpdate party q s
  | .barrierUpdate party bar => Sys2Proof.Machine.execBarrierUpdate party bar s
  | .sheetHomePost home => Sys2Proof.Machine.execSheetHomePost home s
  | .matrixCommandPerform core => Sys2Proof.Machine.execMatrixCommandPerform core s
  | .batchRetire crew => Sys2Proof.Machine.execBatchRetire crew s
  | .acldReadDone crew => Sys2Proof.Machine.execAcldReadDone crew s
  | .acstWritesDone crew => Sys2Proof.Machine.execAcstWritesDone crew s
  | .engineCommandComplete core e => Sys2Proof.Machine.execEngineCommandComplete core e s
  | .eventRecordPost core e => Sys2Proof.Machine.execEventRecordPost core e s
  | .collectiveCombine group => Sys2Proof.Machine.execCollectiveCombine group s
  | .crewEnd crew => Sys2Proof.Machine.execCrewEnd crew s
  | .instanceComplete ctr => Sys2Proof.Machine.execInstanceComplete ctr s
  | .handlerCrewForm core => Sys2Proof.Machine.execHandlerCrewForm core s
  | .handlerFormTimeout core => Sys2Proof.Machine.execHandlerFormTimeout core s
  | .noticePush crew => Sys2Proof.Machine.execNoticePush crew s
  | .noticeRetry crew => Sys2Proof.Machine.execNoticeRetry crew s
  | .relaunchDequeue q => Sys2Proof.Machine.execRelaunchDequeue q s
  | .partyPlace die => Sys2Proof.Machine.execPartyPlace die s
  | .agentDead agent => Sys2Proof.Machine.execAgentDead agent s
  | .checkpointComplete dev => Sys2Proof.Machine.execCheckpointComplete dev s
  | .engineStopAck u => Sys2Proof.Machine.execEngineStopAck u s
  | .testStart core => Sys2Proof.Machine.execTestStart core s
  | .svccfgDone crew => Sys2Proof.Machine.execSvccfgDone crew s
  | .rollbackComplete dev => Sys2Proof.Machine.execRollbackComplete dev s
  | .upg agent line f l => Sys2Proof.Machine.execUpg agent line f l s
  | .wb agent line f l => Sys2Proof.Machine.execWb agent line f l s
  | .evict agent line f l => Sys2Proof.Machine.execEvict agent line f l s
  | .homeWrite agent loc bytes => Sys2Proof.Machine.execHomeWrite agent loc bytes s
  | .snoop agent line f l inv => Sys2Proof.Machine.execSnoop agent line f l inv s
  | .checkerRecord => Sys2Proof.Machine.execCheckerRecord s
  | .recordLostTimeout line f l => Sys2Proof.Machine.execRecordLostTimeout line f l s
  | .strikeReport core at_ => Sys2Proof.Machine.execStrikeReport core at_ s
  | .queuePush q who full data => Sys2Proof.Machine.execQueuePush q who full data s
  | .packetDequeue => Sys2Proof.Machine.execPacketDequeue s
  | .partySend => Sys2Proof.Machine.execPartySend s
  | .placementWaitLimit die => Sys2Proof.Machine.execPlacementWaitLimit die s
  | .heartbeat agent => Sys2Proof.Machine.execHeartbeat agent s
  | .ckptGo dev v => Sys2Proof.Machine.execCkptGo dev v s
  | .ckptPeriodTimer dev => Sys2Proof.Machine.execCkptPeriodTimer dev s
  | .ckptRollback dev v => Sys2Proof.Machine.execCkptRollback dev v s
  | .preemptGo v => Sys2Proof.Machine.execPreemptGo v s
  | .preemptRestore v => Sys2Proof.Machine.execPreemptRestore v s
  | .contextCreate ctx v => Sys2Proof.Machine.execContextCreate ctx v s
  | .contextDestroy ctx v => Sys2Proof.Machine.execContextDestroy ctx v s
  | .contextRootWrite ctx v => Sys2Proof.Machine.execContextRootWrite ctx v s
  | .devModeWrite v => Sys2Proof.Machine.execDevModeWrite v s
  | .dieMapWrite ctx v => Sys2Proof.Machine.execDieMapWrite ctx v s
  | .biasFlipGo v => Sys2Proof.Machine.execBiasFlipGo v s
  | .biasFlipDone => Sys2Proof.Machine.execBiasFlipDone s
  | .counterControlWrite n v => Sys2Proof.Machine.execCounterControlWrite n v s
  | .sheetHomeWrite home v => Sys2Proof.Machine.execSheetHomeWrite home v s
  | .trapConfigWrite ctx v => Sys2Proof.Machine.execTrapConfigWrite ctx v s
  | .collGroupWrite g v => Sys2Proof.Machine.execCollGroupWrite g v s
  | .dirtyMapWrite m v => Sys2Proof.Machine.execDirtyMapWrite m v s
  | .peerRecordWrite p v => Sys2Proof.Machine.execPeerRecordWrite p v s
  | .sbxCtlWrite core v => Sys2Proof.Machine.execSbxCtlWrite core v s
  | .sandboxHalt dom => Sys2Proof.Machine.execSandboxHalt dom s
  | .qctlWrite q v => Sys2Proof.Machine.execQctlWrite q v s
  | .qctlDroph q => Sys2Proof.Machine.execQctlDroph q s
  | .qctlClearOvf q => Sys2Proof.Machine.execQctlClearOvf q s
  | .qctlClearPart q => Sys2Proof.Machine.execQctlClearPart q s
  | .xctlWrite x v => Sys2Proof.Machine.execXctlWrite x v s
  | .xctlClearOvf x => Sys2Proof.Machine.execXctlClearOvf x s
  | .xctlClearPart x => Sys2Proof.Machine.execXctlClearPart x s
  | .transportDescriptorPush x who full data => Sys2Proof.Machine.execTransportDescriptorPush x who full data s
  | .transportDescriptorComplete x => Sys2Proof.Machine.execTransportDescriptorComplete x s
  | .transportAckTimeout x => Sys2Proof.Machine.execTransportAckTimeout x s
  | .transportIncomingWrite rpeer mac rctx raddr rel data => Sys2Proof.Machine.execTransportIncomingWrite rpeer mac rctx raddr rel data s
  | .ptpCfgWrite v => Sys2Proof.Machine.execPtpCfgWrite v s
  | .ptpMessage close time => Sys2Proof.Machine.execPtpMessage close time s
  | .ptpHoldoverTimeout => Sys2Proof.Machine.execPtpHoldoverTimeout s
  | .ptpFreeTimeout => Sys2Proof.Machine.execPtpFreeTimeout s
  | .testCtlLoad v => Sys2Proof.Machine.execTestCtlLoad v s
  | .testImageVerified => Sys2Proof.Machine.execTestImageVerified s
  | .testCtlWrite v => Sys2Proof.Machine.execTestCtlWrite v s
  | .elogCtlWrite v => Sys2Proof.Machine.execElogCtlWrite v s
  | .elogClearOvf => Sys2Proof.Machine.execElogClearOvf s
  | .errorReport => Sys2Proof.Machine.execErrorReport s
  | .sampleCfgWrite v => Sys2Proof.Machine.execSampleCfgWrite v s
  | .sampleTimer => Sys2Proof.Machine.execSampleTimer s
  | .injectCfgWrite v => Sys2Proof.Machine.execInjectCfgWrite v s
  | .attGo v => Sys2Proof.Machine.execAttGo v s
  | .attReportDone => Sys2Proof.Machine.execAttReportDone s
  | .counterRecordClear r => Sys2Proof.Machine.execCounterRecordClear r s
  | .registerWrite r v => Sys2Proof.Machine.execRegisterWrite r v s
  | .powerGood => Sys2Proof.Machine.execPowerGood s
  | .bringupStageDone r => Sys2Proof.Machine.execBringupStageDone r s
  | .linkFlitCrcFail => Sys2Proof.Machine.execLinkFlitCrcFail s
  | .linkReplayTimeout => Sys2Proof.Machine.execLinkReplayTimeout s
  | .thermalTrip => Sys2Proof.Machine.execThermalTrip s
  | .powerLimit => Sys2Proof.Machine.execPowerLimit s
  | .preemptRestoreDone => Sys2Proof.Machine.execPreemptRestoreDone s
  | .transportPeerRefusal x => Sys2Proof.Machine.execTransportPeerRefusal x s
  | .powerOff => Sys2Proof.Machine.execPowerOff s

end Sys2Proof.Machine
end

