-- ==== Sys2Proof/Machine/Place.lean ====
section
/-! DEFINITION. A word placed where the next step fetches it: a package past READY in which one privileged crew runs a block
of two words, the word given and `exit`. -/

namespace Sys2Proof.Machine

/-- A page table of three levels that maps the first GiB of virtual addresses to the first GiB of physical ones, with every
permission and the A and D bits set. -/
def placeTables : List (Nat × Nat) :=
  [(0x1000, 0x2000 / 4096 * 1024 + 1), (0x2000, 0x3000 / 4096 * 1024 + 1), (0x3000, 0xCF)]

/-- The header of the placed block: LEN 2, LIVE 2,047 (R87). -/
def placeHeader : W64 := BitVec.ofNat 64 (0xFF * 2 ^ 56 + 2 * 2 ^ 48 + 2047 * 2 ^ 37)

/-- `exit` (R144). -/
def placeExit : W64 := BitVec.ofNat 64 (0x25 * 2 ^ 56)

/-- The address of the placed block's header. -/
def placeAt : Nat := 0x10000

/-- Stores the words of the block and its tables, and one crew in slot 0 of core 0 that runs word 1 of it next. -/
def State.placeWord (s : State) (w : W64) : State :=
  let words := placeTables ++ [(placeAt, placeHeader.toNat), (placeAt + 8, w.toNat), (placeAt + 16, placeExit.toNat)]
  let s := { s with
    stopped := false, agenda := [], runq := [0], status := { s.status with ready := true, pairs := 0xFF }
    mode := { s.mode with mode := 1 }
    ctxs := Map.put s.ctxs 0 { s.ctx 0 with en := true, root := 1, ents := 0xFEDCBA98 } }
  let s := { s with
    mem := words.foldl (fun m (x : Nat × Nat) => memPut m ((upFrom 0 8).map fun i => (s.locOf 0 (x.1 + i), BitVec.ofNat 8 (x.2 / 256 ^ i)))) s.mem }
  let c : Crew := {
    phase := .running, priv := true, pc := BitVec.ofNat 64 placeAt, widx := 1, hdr := placeHeader, alloc := 2048, readyAt := s.clk }
  { s with
    crews := Map.put s.crews 0 c
    cores := Map.put s.cores 0 { s.core 0 with icache := [] } }

end Sys2Proof.Machine
end

