-- ==== Sys2Proof/Machine/Tick.lean ====
section
/-! DEFINITION. What one clk brings: the device's own steps that fall due in it, in the order in which the model lets
them happen. -/

namespace Sys2Proof.Machine

/-! ## Inputs -/

/-- What may arrive from outside: writes of the driver, requests of agents other than the compute dies, link, clock,
transport and power events. -/
def isInput : Instr → Bool
  | .queuePush _ who _ _ => match who with | .crew _ => false | _ => true
  | .transportDescriptorPush _ who _ _ => match who with | .crew _ => false | _ => true
  | .getS a .. => 8 ≤ a | .getX a .. => 8 ≤ a | .upg a .. => 8 ≤ a | .cln a .. => 8 ≤ a | .wb a .. => 8 ≤ a
  | .evict a .. => 8 ≤ a | .snoop a .. => 8 ≤ a
  | .homeWrite .. => true | .strikeReport .. => true
  | .qctlWrite .. => true | .qctlDroph _ => true | .qctlClearOvf _ => true | .qctlClearPart _ => true
  | .xctlWrite .. => true | .xctlClearOvf _ => true | .xctlClearPart _ => true
  | .transportDescriptorComplete _ => true | .transportAckTimeout _ => true | .transportIncomingWrite .. => true
  | .transportPeerRefusal _ => true
  | .ckptGo .. => true | .ckptRollback .. => true | .preemptGo _ => true | .preemptRestore _ => true
  | .contextCreate .. => true | .contextDestroy .. => true | .contextRootWrite .. => true
  | .devModeWrite _ => true | .dieMapWrite .. => true | .biasFlipGo _ => true
  | .counterControlWrite .. => true | .sheetHomeWrite .. => true | .trapConfigWrite .. => true | .collGroupWrite .. => true
  | .dirtyMapWrite .. => true | .peerRecordWrite .. => true | .sbxCtlWrite .. => true | .sandboxHalt _ => true
  | .ptpCfgWrite _ => true | .ptpMessage .. => true
  | .testCtlLoad _ => true | .testCtlWrite _ => true | .elogCtlWrite _ => true | .elogClearOvf => true
  | .sampleCfgWrite _ => true | .injectCfgWrite _ => true | .attGo _ => true | .counterRecordClear _ => true
  | .registerWrite .. => true
  | .powerGood => true | .bringupStageDone _ => true | .linkFlitCrcFail => true | .linkReplayTimeout => true
  | .thermalTrip => true | .powerLimit => true | .powerOff => true
  | _ => false

/-! ## Waits that the next clk ends -/

/-- Whether a waiting crew looks again, by executing its word again or by going on. -/
def State.looksAgain (s : State) (k : Nat) (c : Crew) : Bool :=
  match c.phase with
  | .waiting w => match w with
    | .settle => !c.unsettled
    | .batchRoom => decide ((c.closedB.filter fun b => !b.retired).length < 16)
    | .arrayRoom => !((coreOfKey k :: (match s.nextInstr k c with
        | some (.mmap ..) => [coreOfKey k / 2 * 2 + (1 - coreOfKey k % 2)]
        | _ => [])).any s.arrayFull)
    | .batch n => !c.batchOpen n
    | .yielded t => t ≤ s.clk
    | _ => false
  | _ => false

def State.wakeAll (s : State) : State :=
  { s with
    crews := s.crews.map fun (kc : Nat × Crew) =>
      if s.looksAgain kc.1 kc.2 then (kc.1, kc.2.wake s.clk) else kc }

/-! ## Device work without a step of its own in the agenda -/

/-- Heartbeats, every 10 µs (R370). -/
def State.beats (s : State) : State :=
  if s.clk % 21000 ≠ 0 then s
  else (beatAgents.filter fun a => !s.dead.contains a && Config.agentAlive a (s.clk / 21000)).foldl State.heartbeat s

/-- A contained context is pre-empted (R327). -/
def State.preemptContained (s : State) : State :=
  if s.preempt.busy then s
  else match List.find? (fun (c : Nat × Ctx) => c.2.contained && c.2.en &&
      s.parties.any fun p => p.2.ctx == c.1 && !p.2.isTest && decide (p.2.ended < p.2.ncrews)) s.ctxs with
    | some c => s.preemptStart (BitVec.ofNat 16 c.1)
    | none => s

/-- Parties all of whose crews have ended give their stores back once their engines are done. -/
def State.freeAll (s : State) : State :=
  (s.parties.filter fun (p : Nat × Party) => !p.2.isTest && p.2.ended == p.2.ncrews).foldl (fun s p => s.freeParty p.1) s

/-- Whatever falls due by the clock alone. -/
def State.timers (s : State) : State :=
  let s := s.beats
  let s := (s.ivals.filter fun i => i.owes.any fun x => decide (x.2 + 65536 ≤ s.clk)).foldl (fun s i => s.recordLost i.line i.f i.l) s
  let s := (s.dies.filter fun (d : Nat × Die) => d.2.waiting.any fun w => !w.late && decide (w.since + 65536 ≤ s.clk)).foldl
    (fun s d => s.waitLimit d.1) s
  let s := s.xqueues.foldl (fun s x => s.xdStart x.1) s
  let s := s.preemptContained.returnHandlers.freeAll.wakeAll
  s.ckpt.foldl (fun s c => s.ckptTimer c.1) { s with reports := sortBy s.reportKey s.reports }

/-! ## The steps of one clk -/

/-- Events that fall due on a condition. -/
def dueIf (b : Bool) (is : List Instr) : List Instr := if b then is else []

/-- The dispatcher and the distributors. -/
def State.dueLaunch (s : State) : List Instr :=
  dueIf (s.queues.any fun q => !q.2.pkts.isEmpty) [.packetDequeue] ++
  dueIf (!s.slots.isEmpty) [.partySend] ++
  ((s.dies.filter fun (d : Nat × Die) => !d.2.waiting.isEmpty).map fun d => Instr.partyPlace d.1)

/-- The memory system. -/
def State.dueFabric (s : State) : List Instr :=
  dueIf s.bias.busy [.biasFlipDone] ++
  ((s.recs.takeWhile fun r => r.sent + Config.recordDelay ≤ s.clk).map fun _ => Instr.checkerRecord) ++
  ((List.range 8).filter fun d => s.clk % (s.die d).tick.toNat == 0).map Instr.leaseTick ++
  ((List.range 8).filter fun d => 2 ^ 12 ≤ (s.tlead d - (s.die d).swept).toNat).map Instr.timestampSweep

/-- Requests that wait at owners of a die. -/
def State.dueOwners (s : State) (d : Nat) : List Instr :=
  (s.svcq.filter fun (q : Nat × List AtomGroup) => q.1 / 9 == d && !q.2.isEmpty).map fun q => Instr.atomicRequestExecute q.1

/-- Cores of a die: arrays, engines and what waits at them. -/
def State.dueCores (s : State) (d : Nat) : List Instr :=
  (s.cores.filter fun (c : Nat × Core) => dieOfCore c.1 == d).flatMap fun (c : Nat × Core) =>
    dueIf (!c.2.array.isEmpty) [.matrixCommandPerform c.1] ++
    dueIf (!c.2.copyQ.isEmpty) [.engineCommandComplete c.1 .copy] ++
    dueIf (!c.2.gatherQ.isEmpty) [.engineCommandComplete c.1 .gather] ++
    dueIf (!c.2.collQ.isEmpty) [.engineCommandComplete c.1 .coll] ++
    dueIf (!c.2.laneWait.isEmpty) [.handlerCrewForm c.1, .handlerFormTimeout c.1]

/-- What a crew's own state brings. -/
def State.dueCrew (s : State) (k : Nat) (c : Crew) : List Instr :=
  dueIf ((Crew.relScope? c).isSome) [.releaseComplete k] ++
  ((c.held.takeWhile fun h => decide (h.at_ + s.fixOf c.ctx ≤ s.clk)).take 4).map (fun _ => Instr.effectLeavesCore k) ++
  dueIf ((c.atoms.take 1).any (·.groups == 0)) [.atomicReturn k] ++
  (match c.phase with
    | .waiting w => match w with
      | .plateRead _ => [.acldReadDone k]
      | .plateWrite => [.acstWritesDone k]
      | .service _ => [.svccfgDone k]
      | .load => [.loadReturn k]
      | _ => []
    | .ended => [.crewEnd k]
    | _ => []) ++
  dueIf (c.closedB.any (fun b => !b.retired && b.left == 0)) [.batchRetire k] ++
  dueIf c.wantsNotice [.noticePush k, .noticeRetry k] ++
  dueIf (c.phase == .running && c.heldSince != 0 && decide (c.heldSince + 2048 ≤ s.clk)) [.throttleAdmitTimeout k]

/-- The crews of a die. -/
def State.dieCrews (s : State) (d : Nat) : List (Nat × Crew) := s.crews.filter fun (kc : Nat × Crew) => dieOfCore (coreOfKey kc.1) == d

/-- The issue hardware of a die: blocks and window moves, then the choice of crews, then throttling (R280 to R282, R288). -/
def State.dueIssue (s : State) (d : Nat) : List Instr :=
  let here := s.dieCrews d
  let parts := (here.map fun kc => (coreOfKey kc.1, partOfSlot (slotOfKey kc.1))).eraseDups
  let cores := (here.map fun kc => coreOfKey kc.1).eraseDups
  ((here.filter fun kc => !s.frozen kc.2 && match kc.2.phase with
    | .select => true
    | .enter _ => true
    | .running => decide (kc.2.len < kc.2.widx)
    | _ => false).map fun kc => Instr.blockEntry kc.1) ++
  dueIf (s.clk % 2 == 0) (parts.filterMap fun cp =>
      (minBy (fun (kc : Nat × Crew) => kc.2.blockedSince) ((s.partCrews cp.1 cp.2).filter fun kc => kc.2.phase == .moving)).map
        fun kc => Instr.windowMove kc.1) ++
  (parts.map fun cp => Instr.issueSelect cp.1 cp.2) ++
  dueIf (s.clk % 16 == 0) (cores.map Instr.throttleRecompute) ++
  dueIf (s.clk % 4096 == 0) (cores.map Instr.scoreHalving)

/-- What a compute die brings: requests at its owners, engines, what leaves its cores, and the choice of the crews whose words follow. -/
def State.dueDie (s : State) (d : Nat) : List Instr :=
  s.dueOwners d ++ s.dueCores d ++ ((s.dieCrews d).flatMap fun kc => s.dueCrew kc.1 kc.2) ++ s.dueIssue d

/-- What a clk ends with: records that wait at engines for a place in their queue, after the clk's pops (R37, R236), barrier phases
that the requests of the clk before complete (R232), and parks, after every trigger of the clk (R239). -/
def State.dueLate (s : State) : List Instr :=
  (s.cores.flatMap fun (c : Nat × Core) => (c.2.evs.map (·.eng)).eraseDups.map fun e => Instr.eventRecordPost c.1 e) ++
  (s.parties.flatMap fun (p : Nat × Party) => (p.2.bars.filter fun (b : Nat × Barrier) => b.2.covered).map fun b =>
    Instr.barrierUpdate p.1 b.1) ++
  s.crews.flatMap fun (kc : Nat × Crew) => match kc.2.phase with
    | .waiting (.park ..) => [.parkWake kc.1, .parkTimeout kc.1]
    | .waiting (.barrier b _) => [.barrierUpdate kc.2.party b]
    | _ => []

/-- Instances whose parties are all done (R33). -/
def State.dueInstances (s : State) : List Instr :=
  (s.counters.filter fun (c : Nat × Counter) => c.2.armed && !c.2.done && c.2.endv != 0 && c.2.count == c.2.endv).map fun c =>
    Instr.instanceComplete c.1

/-- Collective groups, registers with work in progress. -/
def State.dueUnits (s : State) : List Instr :=
  ((s.groups.filter fun (g : Nat × CollGroup) => g.2.members != 0 && g.2.arrivals.length == g.2.members.toNat).map fun g =>
    Instr.collectiveCombine g.1) ++
  ((beatAgents.filter s.silent).map Instr.agentDead) ++
  dueIf (s.preempt.busy && !s.preempt.restoring) (s.preempt.waitFor.map Instr.engineStopAck) ++
  dueIf s.test.busy [.testImageVerified] ++ dueIf s.att.busy [.attReportDone] ++
  dueIf s.datum.locked [.ptpHoldoverTimeout] ++ dueIf s.datum.holdover [.ptpFreeTimeout] ++
  dueIf s.sampleDue [.sampleTimer] ++
  (s.reports.map fun _ => Instr.errorReport) ++
  dueIf s.test.en (((List.range 288).filter s.testDue).map Instr.testStart)

/-- The stages of a clk after the launch hardware's and the memory system's: the compute dies in ascending agent number (R266), then
what the switch die does for itself. -/
def State.stages (s : State) : List (List Instr) :=
  (((List.range 8).map s.dueDie).filter fun is => !is.isEmpty) ++ [s.dueUnits ++ s.dueInstances]

/-- An AMO of a companion core as its owner receives it (R186, R352): a returning `satom` of one request, with the clocks that a
form which releases carries. -/
def State.amoGroup (s : State) (core : Nat) (g : AtomGroup) : AtomGroup :=
  let r := (g.reqs.map (·.loc)).headD 0
  let owner := if locPair r < 8 then 9 * locPair r + locPa r / 4096 % 9 else s.owner g.ctx (locPa r)
  { g with
    crew := companionKey + 128 * (core % 48), owner, returns := true, lctr := 4096, reqs := g.reqs.take 1
    relTs := if g.rel then Map.get [] s.agentSeen (8 + core % 48) else [] }

/-- What arrives from outside in this clk without an instruction: AMOs join the queues of their owners once they find room there; an
LR obtains the span in M and reserves its line, and an SC stores while the core has held it so without loss; poison that a CXL device
reports, and ECC errors, which poison their sectors where they cannot be corrected (R38, R58, R345, R352, R383, R385). -/
def State.arrive (s : State) (x : Outside) : State :=
  match x with
  | .amo core g =>
    let g := s.amoGroup core g
    let q := Map.get [] s.svcq g.owner
    if queueRoom q g.reqs.length then { s with svcq := Map.put s.svcq g.owner (q ++ [g]) }
    else { s with outside := s.outside ++ [(s.clk, x)] }
  | .lr core loc =>
    let a := 8 + core % 48
    let s := s.request a (loc / 128) (loc % 128 / 4) (loc % 128 / 4) true
    { s with resv := Map.put s.resv (core % 48) (loc / 128) }
  | .sc core cells =>
    let a := 8 + core % 48
    let line := ((cells.map (·.1 / 128)).headD 0)
    let held := Map.find? s.resv (core % 48) = some line ∧
      ((spansOf cells).all fun x => x.1 == line && s.canWrite a x.1 x.2.1 x.2.2) = true
    let t := { s with resv := Map.erase s.resv (core % 48) }
    if held then t.agentStore a cells else t
  | .cxlPoison loc => if locPair loc = 8 ∧ inWin s.cxl (locPa loc) = true then s.poisonSectors [loc / 32] else s
  | .ecc loc corrected =>
    if 8 ≤ locPair loc then s
    else if corrected then s.onMem (locPair loc) fun m => { m with eccc := satInc m.eccc }
    else ((s.poisonSectors [loc / 32]).onMem (locPair loc) fun m => { m with eccu := satInc m.eccu }).report
      { src := 8, addr := BitVec.ofNat 64 (locPa loc / 32 * 32), agent := 63 }
  | .plateEcc core sec =>
    (s.onCore core fun c => { c with platePoison := insN sec c.platePoison }).report { src := 8, agent := dieOfCore core, core }
  | .accEcc core sec =>
    (s.onCore core fun c => { c with accPoison := insN sec c.accPoison }).report { src := 8, agent := dieOfCore core, core }

def State.arrivals (s : State) : State :=
  let now := fun (x : Nat × Outside) => decide (x.1 ≤ s.clk)
  (s.outside.filter now).foldl (fun s x => s.arrive x.2) { s with outside := s.outside.filter fun x => !now x }

/-- One clk passes. Before READY nothing runs but what arrives from outside. The requests that still wait at plate stores and queues
come before it does (R205, R302). -/
def State.tick (s : State) : State :=
  if !s.status.ready then s
  else
    let s := s.platesAll.pushesUpTo none
    let s := { s with clk := s.clk + 1, datum := s.datum.tick s.step_ s.clk }.timers
    { s with agenda := s.agenda ++ s.dueLaunch ++ s.dueFabric, plan := s.stages, late := s.late ++ s.dueLate }

/-- The input that arrives now, if one does. -/
def State.input? (s : State) : Option (Instr × List (Nat × Instr)) :=
  match s.inputs with
  | [] => none
  | (t, i) :: is => if !s.status.ready || decide (t ≤ s.clk) then some (i, is) else none

/-- Once the compute dies have had their stages, agents 8 to 56 have theirs, and agent 57 follows (R266): `ex` is what an input does. What
crews have stored to queues comes before an input's pushes (R302). -/
def State.outsideStage (ex : Instr → State → Out) (last : List Instr) (s : State) : Out :=
  let rest := fun (t : State) => if t.status.ready then { t.arrivals with agenda := t.agenda ++ last } else t
  match s.input? with
  | none => .next (rest s)
  | some (i, is) =>
    if isInput i then
      match ex i ({ s with inputs := is }.platesAll.pushesUpTo none) with
      | .next t => .next (rest t)
      | o => o
    else .next (rest { s with inputs := is })

end Sys2Proof.Machine
end

