-- ==== Sys2Proof/Machine/Step.lean ====
section
/-! DEFINITION. One step of the package: the next step that is due, else one word of the next chosen crew, else one clk. -/

namespace Sys2Proof.Machine

/-- One step. Events that are due come first, then the crews chosen to issue, then the next stage of the clk, in the last of which an
input may arrive, then what ends the clk, then the next clk. Before READY only inputs act. -/
def step (s : State) : Host.Outcome State Fault Refusal :=
  if s.stopped then .fault .diesStopped
  else match s.agenda with
    | i :: is => exec i { s with agenda := is }
    | [] => match s.runq with
      | k :: ks => { s with runq := ks }.crewStep exec k
      | [] => match s.plan with
        | [last] => { s with plan := [] }.outsideStage exec last
        | is :: ps => .next { s with agenda := is, plan := ps }
        | [] => match s.late with
          | i :: is => exec i { s with late := is }
          | [] => if s.status.ready then .next s.tick else s.outsideStage exec []

/-- The state with an instruction placed so that the next step runs it. -/
def State.withFetchWord (s : State) (nbits w : Nat) : State := s.placeWord (BitVec.ofNat 64 (w % 2 ^ nbits))

end Sys2Proof.Machine
end

