-- ==== Sys2Proof/Safety.lean ====
section
/-! DEFINITION. The terms in which statements about the machine are made: what a step leaves as it was, which crews may
execute, and where the instructions of one shape put their results. -/

namespace Sys2Proof.Machine

/-! ## Invariants -/

/-- The invariant of every step: memory keeps its canonical form. -/
def State.Inv (s : State) : Prop := Memory.wf s.mem = true

/-! ## Frames -/

/-- Nothing but the record of the crew that executes differs: every byte of memory reads as before, every other crew is as
before, and so is everything else that the state holds. -/
structure OnlyMe (s t : State) : Prop where
  mem : ∀ a, memGet t.mem a = memGet s.mem a
  others : ∀ k, k ≠ s.cur → Map.find? t.crews k = Map.find? s.crews k
  rest : { t with crews := s.crews } = s

/-- Of a crew's record only the scalar register sd and the place in its program differ. -/
structure OnlyScalar (sd : SReg) (c d : Crew) : Prop where
  regs : ∀ r, r ≠ sd → d.sv r = c.sv r
  zero : d.sv 0 = 0
  rest : { c with s := d.s, widx := c.widx + 1 } = d

/-- Of a crew's record only the lanes of a mask in the vector register vd, or in the pair vd and vd + 1, and the place in its
program differ. Registers are compared by the slots of the register file that hold them. -/
structure OnlyLanes (m : W32) (wide : Bool) (vd : VReg) (c d : Crew) : Prop where
  regs : ∀ n l, l < 32 →
    ¬(m.getLsbD l = true ∧ (c.slot n = c.slot vd.toNat ∨ (wide = true ∧ c.slot n = c.slot (vd.toNat + 1)))) →
    d.vl n l = c.vl n l
  rest : { c with v := d.v, widx := c.widx + 1 } = d

/-- Of a crew's record only the lanes of a mask in the predicate pd and the place in its program differ. -/
structure OnlyPred (m : W32) (pd : PReg) (c d : Crew) : Prop where
  regs : ∀ r, r ≠ pd → d.pr r = c.pr r
  lanes : d.pr pd &&& ~~~m = c.pr pd &&& ~~~m
  rest : { c with p := d.p, widx := c.widx + 1 } = d

/-- As OnlyLanes, with sticky flags: those of the lanes of the mask may rise. -/
structure OnlyLanesFlags (m : W32) (wide : Bool) (vd : VReg) (c d : Crew) : Prop where
  regs : ∀ n l, l < 32 →
    ¬(m.getLsbD l = true ∧ (c.slot n = c.slot vd.toNat ∨ (wide = true ∧ c.slot n = c.slot (vd.toNat + 1)))) →
    d.vl n l = c.vl n l
  flags : ∀ l, d.laneFl l &&& c.laneFl l = c.laneFl l
  quiet : ∀ l, m.getLsbD l = false → d.laneFl l = c.laneFl l
  rest : { c with v := d.v, laneFlags := d.laneFlags, widx := c.widx + 1 } = d

/-! ## Instructions of one shape -/

/-- The destination of the instructions whose whole effect is the write of one scalar register. -/
def scalarDest : Instr → Option SReg
  | .sadd _ _ sd _ _ => some sd | .ssub _ _ sd _ _ => some sd | .smul _ _ sd _ _ => some sd | .smulh _ _ sd _ _ => some sd
  | .sdiv _ _ sd _ _ => some sd | .srem _ _ sd _ _ => some sd | .sand _ _ sd _ _ => some sd | .sor _ _ sd _ _ => some sd
  | .sxor _ _ sd _ _ => some sd | .sandn _ _ sd _ _ => some sd | .sshl _ _ sd _ _ => some sd | .sshr _ _ sd _ _ => some sd
  | .ssra _ _ sd _ _ => some sd | .smin _ _ sd _ _ => some sd | .smax _ _ sd _ _ => some sd | .scmp _ _ sd _ _ => some sd
  | .ssel _ sd _ _ _ => some sd | .sli _ _ sd _ => some sd | .slih _ sd _ _ => some sd | .smov _ sd _ => some sd
  | .sclz _ _ sd _ => some sd | .spopc _ _ sd _ => some sd | .sbfx _ _ sd _ _ => some sd | .sbfi _ sd _ _ => some sd
  | .sext _ _ sd _ => some sd | .pany _ sd _ => some sd | .pall _ sd _ => some sd | .pcnt _ sd _ => some sd
  | .pffs _ sd _ => some sd | .vext _ _ sd _ _ => some sd | .pget _ sd _ => some sd | .kcnt _ sd _ => some sd
  | .kffs _ sd _ => some sd | .kbit _ sd _ _ => some sd | .laycfg _ sd _ _ => some sd
  | _ => none

/-- The lanes and the destination of the instructions whose whole effect is the write of a vector register or a pair, and
that raise no flag: the governed lanes, but for `vins`, `vcompr` and `kmv`. -/
def laneDest (c : Crew) : Instr → Option (W32 × Bool × VReg)
  | .vadd h ty _ vd _ _ => some (c.gov h, ty.wide, vd) | .vaddImm h ty vd _ _ => some (c.gov h, ty.wide, vd)
  | .vsub h ty _ vd _ _ => some (c.gov h, ty.wide, vd) | .vmul h ty _ vd _ _ => some (c.gov h, ty.wide, vd)
  | .vmulh h ty vd _ _ => some (c.gov h, ty.wide, vd) | .vmad h ty vd _ _ _ => some (c.gov h, ty.wide, vd)
  | .vand h ty vd _ _ => some (c.gov h, ty.wide, vd) | .vandImm h ty vd _ _ => some (c.gov h, ty.wide, vd)
  | .vor h ty vd _ _ => some (c.gov h, ty.wide, vd) | .vorImm h ty vd _ _ => some (c.gov h, ty.wide, vd)
  | .vxor h ty vd _ _ => some (c.gov h, ty.wide, vd) | .vxorImm h ty vd _ _ => some (c.gov h, ty.wide, vd)
  | .vandn h ty vd _ _ => some (c.gov h, ty.wide, vd)
  | .vshl h ty vd _ _ => some (c.gov h, ty.wide, vd) | .vshlImm h ty vd _ _ => some (c.gov h, ty.wide, vd)
  | .vshr h ty vd _ _ => some (c.gov h, ty.wide, vd) | .vshrImm h ty vd _ _ => some (c.gov h, ty.wide, vd)
  | .vsra h ty vd _ _ => some (c.gov h, ty.wide, vd) | .vsraImm h ty vd _ _ => some (c.gov h, ty.wide, vd)
  | .vrot h ty vd _ _ => some (c.gov h, ty.wide, vd)
  | .vmin h ty vd _ _ => some (c.gov h, ty.wide, vd) | .vmax h ty vd _ _ => some (c.gov h, ty.wide, vd)
  | .vabs h ty _ vd _ => some (c.gov h, ty.wide, vd) | .vclz h ty vd _ => some (c.gov h, ty.wide, vd)
  | .vpopc h ty vd _ => some (c.gov h, ty.wide, vd) | .vbrev h ty vd _ => some (c.gov h, ty.wide, vd)
  | .vbfx h _ vd _ _ => some (c.gov h, false, vd) | .vbfi h vd _ _ _ => some (c.gov h, false, vd)
  | .vsel h ty _ vd _ _ => some (c.gov h, ty.wide, vd) | .vmov h ty vd _ => some (c.gov h, ty.wide, vd)
  | .vli h ty vd _ => some (c.gov h, ty.wide, vd)
  | .vclmul h vd _ _ => some (c.gov h, false, vd) | .vclmulh h vd _ _ => some (c.gov h, false, vd)
  | .vshfl h _ vd _ _ => some (c.gov h, false, vd) | .vbcast h vd _ _ => some (c.gov h, false, vd)
  | .vfcls h _ vd _ => some (c.gov h, false, vd) | .vunpk h _ vd _ => some (c.gov h, false, vd)
  | .vins _ wide vd _ sb => some (c.active &&& (1 <<< ((c.sv sb).toNat % 32)), wide, vd)
  | .vcompr _ vd _ => some (c.active, false, vd) | .kmvToVector _ vd _ => some (c.active, false, vd)
  | _ => none

/-- The lanes and the destination of the lane-wise instructions that raise flags: the governed lanes, but for `vpack`, whose
words lie in active lanes. -/
def flagLaneDest (c : Crew) : Instr → Option (W32 × Bool × VReg)
  | .vdiv h ty _ vd _ _ => some (c.gov h, ty.wide, vd) | .vrem h ty vd _ _ => some (c.gov h, ty.wide, vd)
  | .vfadd h _ ty vd _ _ => some (c.gov h, ty == .f64, vd) | .vfsub h _ ty vd _ _ => some (c.gov h, ty == .f64, vd)
  | .vfmul h _ ty vd _ _ => some (c.gov h, ty == .f64, vd) | .vfdiv h _ ty vd _ _ => some (c.gov h, ty == .f64, vd)
  | .vfmaF16 h _ vd _ _ _ => some (c.gov h, false, vd) | .vfmaF32 h _ vd _ _ _ => some (c.gov h, false, vd)
  | .vfmaF64 h _ vd _ _ _ => some (c.gov h, true, vd)
  | .vfsqrt h _ ty vd _ => some (c.gov h, ty == .f64, vd) | .vfrcp h ty vd _ => some (c.gov h, ty == .f64, vd)
  | .vfrsq h ty vd _ => some (c.gov h, ty == .f64, vd) | .vfexp2 h ty vd _ => some (c.gov h, ty == .f64, vd)
  | .vflog2 h ty vd _ => some (c.gov h, ty == .f64, vd) | .vfsin h ty vd _ => some (c.gov h, ty == .f64, vd)
  | .vfcos h ty vd _ => some (c.gov h, ty == .f64, vd) | .vfmin h ty vd _ _ => some (c.gov h, ty == .f64, vd)
  | .vfmax h ty vd _ _ => some (c.gov h, ty == .f64, vd) | .vfrnd h _ ty vd _ => some (c.gov h, ty == .f64, vd)
  | .vfdot h _ vd _ _ => some (c.gov h, false, vd) | .vcvt h _ _ dst _ vd _ => some (c.gov h, dst.wide, vd)
  | .vred h _ ty _ vd _ => some (c.gov h, ty.wide, vd) | .vscan h _ ty _ vd _ => some (c.gov h, ty.wide, vd)
  | .vpack _ _ vd _ => some (c.active, false, vd)
  | _ => none

/-- The governing fields and the destination of the instructions whose whole effect is the write of one predicate. -/
def predDest : Instr → Option (Hd × PReg)
  | .vcmp h _ _ pd _ _ => some (h, pd)
  | .pand h pd _ _ => some (h, pd) | .por h pd _ _ => some (h, pd) | .pxor h pd _ _ => some (h, pd)
  | .pnot h pd _ => some (h, pd) | .pmov h pd _ => some (h, pd) | .pset h pd _ => some (h, pd)
  | _ => none


/-! ## What the integer instructions compute (R109, R110, R127, R153)

The same functions as the tables of the manual, on bit vectors of the type's width. -/

/-- The low bits of a register as a value of a type's width. -/
def bvIn (ty : ITy) (x : Nat) : BitVec ty.bits := BitVec.ofNat ty.bits x
/-- The number that a value of a type stands for. -/
def bvInt (ty : ITy) (x : BitVec ty.bits) : Int := if ty.signed then x.toInt else x.toNat
/-- A result in a scalar register (R110). -/
def bvOutS (ty : ITy) (x : BitVec ty.bits) : W64 := if ty.signed then x.signExtend 64 else x.setWidth 64
/-- A result in a lane, or in the lane of a pair (R110). -/
def bvOutV (ty : ITy) (x : BitVec ty.bits) : Nat :=
  if ty.wide then x.toNat else if ty.signed then (x.signExtend 32).toNat else (x.setWidth 32).toNat
/-- Bits 2w - 1 to w of the exact product. -/
def bvHigh (ty : ITy) (x y : BitVec ty.bits) : BitVec ty.bits :=
  let w := ty.bits
  let e := fun (z : BitVec w) => if ty.signed then z.signExtend (2 * w) else z.setWidth (2 * w)
  (e x * e y).extractLsb' w w
/-- Quotient and remainder; a divisor of 0 gives 0 and the dividend. -/
def bvDiv (ty : ITy) (x y : BitVec ty.bits) : BitVec ty.bits :=
  if y = 0 then 0 else if ty.signed then x.sdiv y else x / y
def bvRem (ty : ITy) (x y : BitVec ty.bits) : BitVec ty.bits :=
  if y = 0 then x else if ty.signed then x.srem y else x % y
/-- The shift count of R127. -/
def bvCnt (ty : ITy) (y : BitVec ty.bits) : Nat := y.toNat % ty.bits
/-- Whether x is at most y, under the type's signedness. -/
def bvLe (ty : ITy) (x y : BitVec ty.bits) : Bool := bvInt ty x ≤ bvInt ty y
def bvMin (ty : ITy) (x y : BitVec ty.bits) : BitVec ty.bits := if bvLe ty x y then x else y
def bvMax (ty : ITy) (x y : BitVec ty.bits) : BitVec ty.bits := if bvLe ty x y then y else x
/-- An exact number in a type: clamped to its range with SAT, else reduced (R109). -/
def bvFit (ty : ITy) (sat : Bool) (x : Int) : BitVec ty.bits :=
  let lo : Int := if ty.signed then -(2 ^ (ty.bits - 1)) else 0
  let hi : Int := if ty.signed then 2 ^ (ty.bits - 1) - 1 else 2 ^ ty.bits - 1
  BitVec.ofInt ty.bits (if sat then (if x < lo then lo else if hi < x then hi else x) else x)

/-- The second operand of R126. -/
def op2Val (c : Crew) : Op2 → W64
  | .reg sb => c.sv sb
  | .imm v => v.signExtend 64

/-- The result of the fifteen operations of R127. -/
def scalarArith (c : Crew) : Instr → Option W64
  | .sadd _ ty _ sa b => some (bvOutS ty (bvIn ty (c.sv sa).toNat + bvIn ty (op2Val c b).toNat))
  | .ssub _ ty _ sa b => some (bvOutS ty (bvIn ty (c.sv sa).toNat - bvIn ty (op2Val c b).toNat))
  | .smul _ ty _ sa b => some (bvOutS ty (bvIn ty (c.sv sa).toNat * bvIn ty (op2Val c b).toNat))
  | .smulh _ ty _ sa b => some (bvOutS ty (bvHigh ty (bvIn ty (c.sv sa).toNat) (bvIn ty (op2Val c b).toNat)))
  | .sdiv _ ty _ sa b => some (bvOutS ty (bvDiv ty (bvIn ty (c.sv sa).toNat) (bvIn ty (op2Val c b).toNat)))
  | .srem _ ty _ sa b => some (bvOutS ty (bvRem ty (bvIn ty (c.sv sa).toNat) (bvIn ty (op2Val c b).toNat)))
  | .sand _ ty _ sa b => some (bvOutS ty (bvIn ty (c.sv sa).toNat &&& bvIn ty (op2Val c b).toNat))
  | .sor _ ty _ sa b => some (bvOutS ty (bvIn ty (c.sv sa).toNat ||| bvIn ty (op2Val c b).toNat))
  | .sxor _ ty _ sa b => some (bvOutS ty (bvIn ty (c.sv sa).toNat ^^^ bvIn ty (op2Val c b).toNat))
  | .sandn _ ty _ sa b => some (bvOutS ty (bvIn ty (c.sv sa).toNat &&& ~~~bvIn ty (op2Val c b).toNat))
  | .sshl _ ty _ sa b => some (bvOutS ty (bvIn ty (c.sv sa).toNat <<< bvCnt ty (bvIn ty (op2Val c b).toNat)))
  | .sshr _ ty _ sa b => some (bvOutS ty (bvIn ty (c.sv sa).toNat >>> bvCnt ty (bvIn ty (op2Val c b).toNat)))
  | .ssra _ ty _ sa b => some (bvOutS ty ((bvIn ty (c.sv sa).toNat).sshiftRight (bvCnt ty (bvIn ty (op2Val c b).toNat))))
  | .smin _ ty _ sa b => some (bvOutS ty (bvMin ty (bvIn ty (c.sv sa).toNat) (bvIn ty (op2Val c b).toNat)))
  | .smax _ ty _ sa b => some (bvOutS ty (bvMax ty (bvIn ty (c.sv sa).toNat) (bvIn ty (op2Val c b).toNat)))
  | _ => none

/-- A condition of R81 and R128 on values of one width. -/
def bvCond {w : Nat} (cd : Cond) (x y : BitVec w) : Bool :=
  match cd with
  | .eq => x == y
  | .ne => !(x == y)
  | .lt => x.slt y
  | .le => x.sle y
  | .gt => y.slt x
  | .ge => y.sle x
  | .lo => x.ult y
  | .ls => x.ule y
  | .hi => y.ult x
  | .hs => y.ule x

/-- The number of 1 bits of a value. -/
def bvOnes {w : Nat} (x : BitVec w) : Nat := ((List.range w).filter fun i => x.getLsbD i).length
/-- The number of 0 bits above the highest 1 bit. -/
def bvLead {w : Nat} (x : BitVec w) : Nat := ((List.range w).takeWhile fun i => !x.getLsbD (w - 1 - i)).length
/-- The lowest 1 bit of a value, its width where there is none. -/
def bvLow {w : Nat} (x : BitVec w) : Nat := ((List.range w).takeWhile fun i => !x.getLsbD i).length

/-- The results of R128 to R133, R148, R170, R172, R174 and R217, bit for bit where a field is meant. -/
def scalarMisc (c : Crew) : Instr → Option W64
  | .scmp _ cd _ sa b => some (if bvCond cd (c.sv sa) (op2Val c b) then 1 else 0)
  | .ssel _ _ sc sa sb => some (if c.sv sc = 0 then c.sv sb else c.sv sa)
  | .sli _ zx _ v => some (if zx then v.setWidth 64 else v.signExtend 64)
  | .slih _ _ sa v => some (v.setWidth 64 * 0x100000000 + (c.sv sa &&& 0xFFFFFFFF))
  | .smov _ _ sa => some (c.sv sa)
  | .sclz _ ty _ sa => some (BitVec.ofNat 64 (bvLead (bvIn ty (c.sv sa).toNat)))
  | .spopc _ ty _ sa => some (BitVec.ofNat 64 (bvOnes (bvIn ty (c.sv sa).toNat)))
  | .sbfx _ sx _ sa sb =>
    let d := (c.sv sb).toNat
    let n := min (d / 256 % 128) (64 - d % 64)
    let f := ((c.sv sa) >>> (d % 64)).setWidth n
    some (if sx then f.signExtend 64 else f.setWidth 64)
  | .sbfi _ sd sa sb =>
    let d := (c.sv sb).toNat
    let p := d % 64
    let n := min (d / 256 % 128) (64 - p)
    some (BitVec.ofFnLE fun i : Fin 64 =>
      if p ≤ i.val ∧ i.val < p + n then (c.sv sa).getLsbD (i.val - p) else (c.sv sd).getLsbD i.val)
  | .sext _ ty _ sa => some (bvOutS ty (bvIn ty (c.sv sa).toNat))
  | .pany _ _ n => some (if c.active &&& c.pr n = 0 then 0 else 1)
  | .pall _ _ n => some (if c.active &&& ~~~(c.pr n) = 0 then 1 else 0)
  | .pcnt _ _ n => some (BitVec.ofNat 64 (bvOnes (c.active &&& c.pr n)))
  | .pffs _ _ n => some (BitVec.ofNat 64 (bvLow (c.active &&& c.pr n)))
  | .vext _ wide _ va sb =>
    let l := (c.sv sb).toNat % 32
    some (if c.live.getLsbD l then (if wide then c.vpl va.toNat l else (c.vl va.toNat l).setWidth 64) else 0)
  | .pget _ _ n => some ((c.active &&& c.pr n).setWidth 64)
  | .kcnt _ _ k => some (BitVec.ofNat 64 (bvOnes (c.kv k.toNat)))
  | .kffs _ _ k => some (BitVec.ofNat 64 (bvLow (c.kv k.toNat)))
  | .kbit _ _ k sa => some (if (c.kv k.toNat).getLsbD ((c.sv sa).toNat % 1024) then 1 else 0)
  | _ => none

/-! ## Lanes -/

/-- Exact operands of a lane. -/
def laneInt (c : Crew) (ty : ITy) (v : VReg) (l : Nat) : Int := bvInt ty (bvIn ty (c.vn ty.wide v l))
def laneBv (c : Crew) (ty : ITy) (v : VReg) (l : Nat) : BitVec ty.bits := bvIn ty (c.vn ty.wide v l)
def immBv (ty : ITy) (v : BitVec 20) : BitVec ty.bits := bvIn ty (v.signExtend 64).toNat

/-- The carry-less product of two lanes, in 64 bits (R155). -/
def bvClmul (x y : W32) : W64 :=
  (List.range 32).foldl (fun r i => if y.getLsbD i then r ^^^ (x.setWidth 64 <<< i) else r) 0

/-- The results of the integer instructions of R153 to R157 in lane l of the destination. -/
def vectorArith (c : Crew) (l : Nat) : Instr → Option Nat
  | .vadd _ ty sat _ va vb => some (bvOutV ty (bvFit ty sat (laneInt c ty va l + laneInt c ty vb l)))
  | .vaddImm _ ty _ va v => some (bvOutV ty (laneBv c ty va l + immBv ty v))
  | .vsub _ ty sat _ va vb => some (bvOutV ty (bvFit ty sat (laneInt c ty va l - laneInt c ty vb l)))
  | .vmul _ ty sat _ va vb => some (bvOutV ty (bvFit ty sat (laneInt c ty va l * laneInt c ty vb l)))
  | .vmulh _ ty _ va vb => some (bvOutV ty (bvHigh ty (laneBv c ty va l) (laneBv c ty vb l)))
  | .vmad _ ty _ va vb vc => some (bvOutV ty (laneBv c ty va l * laneBv c ty vb l + laneBv c ty vc l))
  | .vand _ ty _ va vb => some (bvOutV ty (laneBv c ty va l &&& laneBv c ty vb l))
  | .vandImm _ ty _ va v => some (bvOutV ty (laneBv c ty va l &&& immBv ty v))
  | .vor _ ty _ va vb => some (bvOutV ty (laneBv c ty va l ||| laneBv c ty vb l))
  | .vorImm _ ty _ va v => some (bvOutV ty (laneBv c ty va l ||| immBv ty v))
  | .vxor _ ty _ va vb => some (bvOutV ty (laneBv c ty va l ^^^ laneBv c ty vb l))
  | .vxorImm _ ty _ va v => some (bvOutV ty (laneBv c ty va l ^^^ immBv ty v))
  | .vandn _ ty _ va vb => some (bvOutV ty (laneBv c ty va l &&& ~~~laneBv c ty vb l))
  | .vshl _ ty _ va vb => some (bvOutV ty (laneBv c ty va l <<< bvCnt ty (laneBv c ty vb l)))
  | .vshlImm _ ty _ va v => some (bvOutV ty (laneBv c ty va l <<< bvCnt ty (immBv ty v)))
  | .vshr _ ty _ va vb => some (bvOutV ty (laneBv c ty va l >>> bvCnt ty (laneBv c ty vb l)))
  | .vshrImm _ ty _ va v => some (bvOutV ty (laneBv c ty va l >>> bvCnt ty (immBv ty v)))
  | .vsra _ ty _ va vb => some (bvOutV ty ((laneBv c ty va l).sshiftRight (bvCnt ty (laneBv c ty vb l))))
  | .vsraImm _ ty _ va v => some (bvOutV ty ((laneBv c ty va l).sshiftRight (bvCnt ty (immBv ty v))))
  | .vrot _ ty _ va vb => some (bvOutV ty ((laneBv c ty va l).rotateLeft (bvCnt ty (laneBv c ty vb l))))
  | .vmin _ ty _ va vb => some (bvOutV ty (bvMin ty (laneBv c ty va l) (laneBv c ty vb l)))
  | .vmax _ ty _ va vb => some (bvOutV ty (bvMax ty (laneBv c ty va l) (laneBv c ty vb l)))
  | .vabs _ ty sat _ va => some (bvOutV ty (bvFit ty sat |laneInt c ty va l|))
  | .vclz _ ty _ va => some (bvLead (laneBv c ty va l))
  | .vpopc _ ty _ va => some (bvOnes (laneBv c ty va l))
  | .vbrev _ ty _ va => some (bvOutV ty (laneBv c ty va l).reverse)
  | .vclmul _ _ va vb => some ((bvClmul (c.vl va.toNat l) (c.vl vb.toNat l)).setWidth 32).toNat
  | .vclmulh _ _ va vb => some ((bvClmul (c.vl va.toNat l) (c.vl vb.toNat l)).extractLsb' 32 32).toNat
  | .vbfx _ sx _ va vb =>
    let d := (c.vl vb.toNat l).toNat
    let n := min (d / 256 % 64) (32 - d % 32)
    let f := ((c.vl va.toNat l) >>> (d % 32)).setWidth n
    some (if sx then (f.signExtend 32).toNat else f.toNat)
  | .vbfi _ _ va vb vc =>
    let d := (c.vl vc.toNat l).toNat
    let p := d % 32
    let n := min (d / 256 % 64) (32 - p)
    some (BitVec.ofFnLE fun i : Fin 32 =>
      if p ≤ i.val ∧ i.val < p + n then (c.vl va.toNat l).getLsbD (i.val - p) else (c.vl vb.toNat l).getLsbD i.val).toNat
  | .vsel _ (.int ty) pc _ va vb => some (bvOutV ty (if (c.pr pc).getLsbD l then laneBv c ty va l else laneBv c ty vb l))
  | .vsel _ (.flt ty) pc _ va vb =>
    some ((if (c.pr pc).getLsbD l then c.vn ty.wide va l else c.vn ty.wide vb l) % 2 ^ ty.bits)
  | .vmov _ (.int ty) _ va => some (bvOutV ty (laneBv c ty va l))
  | .vmov _ (.flt ty) _ va => some (c.vn ty.wide va l % 2 ^ ty.bits)
  | .vli _ (.int ty) _ v => some (bvOutV ty (immBv ty v))
  | .vli _ (.flt .f16) _ v => some (v.toNat % 2 ^ 16)
  | .vli _ (.flt .f32) _ v => some (v.toNat * 2 ^ 12)
  | .vli _ (.flt .f64) _ v => some (v.toNat * 2 ^ 44)
  | _ => none

/-- The source lane of a shuffle (R167). -/
def shuffleFrom (m : Shfl) (l x : Nat) : Nat :=
  match m with
  | .idx => x
  | .xor => l ^^^ x
  | .up => if x ≤ l then l - x else l
  | .dn => if l + x ≤ 31 then l + x else l

/-- A register's value in a source lane: 0 from a lane that is not live (R166). -/
def liveLane (c : Crew) (wide : Bool) (v : VReg) (l : Nat) : Nat := if c.live.getLsbD l then c.vn wide v l else 0

/-- The results of the moves between lanes (R166 to R168, R170, R171, R174) in lane l of the destination. -/
def crossLane (c : Crew) (l : Nat) : Instr → Option Nat
  | .vshfl _ m _ va vb => some (liveLane c false va (shuffleFrom m l ((c.vl vb.toNat l).toNat % 32)))
  | .vbcast _ _ va lane => some (liveLane c false va lane.toNat)
  | .vins _ wide _ sa _ => some (if wide then (c.sv sa).toNat else (c.sv sa).toNat % 2 ^ 32)
  | .vcompr h _ va =>
    some (match ((List.range 32).filter fun i => (c.gov h).getLsbD i)[l]? with
      | some i => (c.vl va.toNat i).toNat
      | none => 0)
  | .kmvToVector _ _ k => some ((c.kv k.toNat).extractLsb' (32 * l) 32).toNat
  | _ => none

/-- What the instructions that write one predicate put there in lane l (R154, R172, R173). -/
def predBit (c : Crew) (l : Nat) : Instr → Bool
  | .vcmp _ cd ty _ va vb => bvCond cd (laneBv c ty va l) (laneBv c ty vb l)
  | .pand _ _ pa pb => (c.pr pa).getLsbD l && (c.pr pb).getLsbD l
  | .por _ _ pa pb => (c.pr pa).getLsbD l || (c.pr pb).getLsbD l
  | .pxor _ _ pa pb => (c.pr pa).getLsbD l != (c.pr pb).getLsbD l
  | .pnot _ _ pa => !(c.pr pa).getLsbD l
  | .pmov _ _ pa => (c.pr pa).getLsbD l
  | .pset _ _ sb => (c.sv sb).getLsbD l
  | _ => false

/-! ## Floating point (R111 to R114, R159 to R164, R169) -/

/-- The rational number that a finite datum stands for. -/
def ratOf : FVal → Option ℚ
  | .fin neg m e => some ((if neg then -1 else 1) * (m : ℚ) * (2 : ℚ) ^ e)
  | _ => none

/-- A bit pattern of a format that stands for a finite number. -/
def holdsRat (f : Fmt) (b : Nat) (v : ℚ) : Prop := b < 2 ^ f.width ∧ ratOf (f.decode b) = some v

/-- The value of a rounding that does not overflow, for the exact number x (R113). -/
def Rounded (f : Fmt) (r : Rnd) (x : ℚ) (b : Nat) (v : ℚ) : Prop :=
  holdsRat f b v ∧
  match r with
  | .rz => |v| ≤ |x| ∧ 0 ≤ v * x ∧ ∀ c w, holdsRat f c w → |w| ≤ |x| → |w| ≤ |v|
  | .ru => x ≤ v ∧ ∀ c w, holdsRat f c w → x ≤ w → v ≤ w
  | .rd => v ≤ x ∧ ∀ c w, holdsRat f c w → w ≤ x → w ≤ v
  | .rn => ∀ c w, holdsRat f c w → |x - v| ≤ |x - w| ∧ (|x - v| = |x - w| → w = v ∨ b % 2 = 0)
  | .ra => ∀ c w, holdsRat f c w → |x - v| ≤ |x - w| ∧ (|x - v| = |x - w| → |w| ≤ |v|)

/-- An operand of a binary type: the low bits of its lane. -/
def fIn (c : Crew) (ty : FTy) (v : VReg) (l : Nat) : Nat := c.vn (ty == .f64) v l % 2 ^ ty.bits

/-- The root of x rounded by a code (R113): no value of a format lies halfway. -/
def RootRounded (f : Fmt) (r : Rnd) (x : ℚ) (b : Nat) (v : ℚ) : Prop :=
  holdsRat f b v ∧ 0 < v ∧
  match r with
  | .ru => x ≤ v ^ 2 ∧ ∀ c w, holdsRat f c w → 0 ≤ w → x ≤ w ^ 2 → v ≤ w
  | .rz => v ^ 2 ≤ x ∧ ∀ c w, holdsRat f c w → 0 ≤ w → w ^ 2 ≤ x → w ≤ v
  | .rd => v ^ 2 ≤ x ∧ ∀ c w, holdsRat f c w → 0 ≤ w → w ^ 2 ≤ x → w ≤ v
  | _ => ∀ c w, holdsRat f c w → 0 ≤ w → (w < v → ((v + w) / 2) ^ 2 < x) ∧ (v < w → x < ((v + w) / 2) ^ 2)

/-- A result rounded once from the exact number q (R113, R114): neither NV nor DZ, and, short of an overflow, the rounding of q, with NX
where it differs from q. An exact zero has the sign given. -/
def OnceRounded (f : Fmt) (r : Rnd) (q : ℚ) (zeroNeg : Bool) (z : FRes) : Prop :=
  (q = 0 → z = ⟨f.signBit zeroNeg, 0⟩) ∧
  (q ≠ 0 → z.fl &&& (flNV ||| flDZ) = 0 ∧ (z.fl &&& flOF = 0 → ∃ v, Rounded f r q z.bits v ∧ (z.fl &&& flNX = 0 ↔ v = q)))

/-- An infinity as a result. -/
def infRes (f : Fmt) (neg : Bool) : FRes := ⟨f.signBit neg + f.infBits, 0⟩
/-- The default NaN of an invalid operation (R112, R114). -/
def invalid (f : Fmt) : FRes := ⟨f.nanBits, flNV⟩
/-- The result of an operand that is a NaN (R112, R114). -/
def nanRes (f : Fmt) (xs : List FVal) : FRes := ⟨f.nanBits, if xs.any FVal.isSig then flNV else 0⟩

/-- The sum of two operands of which one is not finite (R114, R123). -/
def specialSum (f : Fmt) (a b : FVal) : Option FRes :=
  if a.isNan || b.isNan then some (nanRes f [a, b])
  else match a, b with
    | .inf m, .inf n => some (if m = n then infRes f m else invalid f)
    | .inf m, _ => some (infRes f m)
    | _, .inf n => some (infRes f n)
    | _, _ => none
/-- The product of two operands of which one is not finite. -/
def specialMul (f : Fmt) (a b : FVal) : Option FRes :=
  let sign := a.isNeg != b.isNeg
  if a.isNan || b.isNan then some (nanRes f [a, b])
  else match a, b with
    | .inf _, .inf _ => some (infRes f sign)
    | .inf _, .fin _ m _ => some (if m = 0 then invalid f else infRes f sign)
    | .fin _ m _, .inf _ => some (if m = 0 then invalid f else infRes f sign)
    | _, _ => none
/-- The quotient of operands that are not both finite, or by a zero. -/
def specialDiv (f : Fmt) (a b : FVal) : Option FRes :=
  let sign := a.isNeg != b.isNeg
  if a.isNan || b.isNan then some (nanRes f [a, b])
  else match a, b with
    | .inf _, .inf _ => some (invalid f)
    | .inf _, _ => some (infRes f sign)
    | _, .inf _ => some ⟨f.signBit sign, 0⟩
    | .fin _ m _, .fin _ n _ =>
      if n ≠ 0 then none else some (if m = 0 then invalid f else { infRes f sign with fl := flDZ })
    | _, _ => none
/-- The root of an operand that is not finite, or below −0. -/
def specialRoot (f : Fmt) : FVal → Option FRes
  | .nan s => some (nanRes f [.nan s])
  | .inf neg => some (if neg then invalid f else infRes f false)
  | .fin neg m _ => if neg ∧ m ≠ 0 then some (invalid f) else none

/-! ## Approximations (R161) -/

/-- The function that an approximation approximates: y is its value at x. -/
def ApproxFn (op : Approx) (x y : ℝ) : Prop :=
  match op with
  | .rcp => y = x⁻¹
  | .rsq => y = (Real.sqrt x)⁻¹
  | .exp2 => y = (2 : ℝ) ^ x
  | .log2 => y = Real.logb 2 x
  | .sin => y = Real.sin (Real.pi * x)
  | .cos => y = Real.cos (Real.pi * x)

/-- The finite operands of the Exact column. -/
def ExactCase (op : Approx) (f : Fmt) (x : ℚ) : Prop :=
  match op with
  | .rcp => x = 0 ∨ ∃ k : ℤ, |x| = (2 : ℚ) ^ k ∧ ∃ b, holdsRat f b ((2 : ℚ) ^ (-k))
  | .rsq => x ≤ 0 ∨ ∃ k : ℤ, x = (4 : ℚ) ^ k
  | .exp2 => ∃ n : ℤ, x = n ∧ f.emin ≤ n ∧ ∃ b, holdsRat f b ((2 : ℚ) ^ n)
  | .log2 => x ≤ 0 ∨ ∃ k : ℤ, x = (2 : ℚ) ^ k
  | .sin => ∃ n : ℤ, x = n
  | .cos => ∃ n : ℤ, 2 * x = n

/-- The bound of R161: v lies within the ulps of its row, or the absolute error, of the function's value y at x. -/
def InBound (op : Approx) (f : Fmt) (x v : ℚ) (y : ℝ) : Prop :=
  (∃ k : ℤ, (2 : ℝ) ^ k ≤ |y| ∧ |y| < (2 : ℝ) ^ (k + 1) ∧
    |(v : ℝ) - y| ≤ (if f.p = 24 ∧ op ≠ .rcp ∧ op ≠ .rsq then 2 else 1) * (2 : ℝ) ^ (max k f.emin - (f.p - 1 : ℕ))) ∨
  (f.p = 24 ∧ (op = .sin ∨ op = .cos) ∧ |(v : ℝ) - y| ≤ (2 : ℝ) ^ (-23 : ℤ)) ∨
  (f.p = 24 ∧ op = .log2 ∧ 1 / 2 ≤ x ∧ x ≤ 2 ∧ |(v : ℝ) - y| ≤ (2 : ℝ) ^ (-22 : ℤ))

/-! ## Packing (R117 to R120) -/

/-- The nearest integer to a number, the even one of two. -/
def NearestEven (q : ℚ) (n : Nat) : Prop := |q - n| ≤ 1 / 2 ∧ (|q - n| = 1 / 2 → n % 2 = 0)

/-- A block and flags that R120 makes of 16 binary32 patterns. -/
def PacksBlock (fmt : PTy) (xs : Nat → Nat) (blk : Nat) (fl : Fl) : Prop :=
  let v := fun i => fmt32.decode (xs i)
  let e := fld blk 0 8
  let step := fun q => fld blk (8 + 2 * q) 2
  let mag := fun i => fld blk (16 + i * (fmt.m + 1)) fmt.m
  let top := 2 ^ fmt.m - 1
  blk < 2 ^ (8 * fmt.size) ∧
  ((∃ i, i < 16 ∧ ratOf (v i) = none) → blk = 255 ∧ fl &&& ~~~flNV = 0 ∧
    (fl ≠ 0 ↔ ∃ i, i < 16 ∧ ((v i).isSig = true ∨ ∃ n, v i = .inf n))) ∧
  (∀ x : Nat → ℚ, (∀ i, i < 16 → ratOf (v i) = some (x i)) →
    (∀ i, i < 16 → fld blk (16 + i * (fmt.m + 1) + fmt.m) 1 = (v i).isNeg.toNat) ∧
    ((∀ i, i < 16 → x i = 0) → e = 0 ∧ (∀ q, q < 4 → step q = 0) ∧ (∀ i, i < 16 → mag i = 0) ∧ fl = 0) ∧
    ((∃ i, i < 16 ∧ x i ≠ 0) →
      (∃ g : ℤ, (∃ i, i < 16 ∧ (2 : ℚ) ^ g ≤ |x i|) ∧ (∀ i, i < 16 → |x i| < (2 : ℚ) ^ (g + 1)) ∧ (e : ℤ) = max 1 (min 254 (g + 127))) ∧
      (∀ q, q < 4 → ∀ s : Nat, 1 ≤ s → s ≤ 3 → (s ≤ step q ↔ ∀ k, k < 4 → |x (4 * q + k)| < (2 : ℚ) ^ ((e : ℤ) - 127 - s))) ∧
      ∃ n : Nat → Nat,
        let u := fun i => (2 : ℚ) ^ ((e : ℤ) - 127 - step (i / 4) - (fmt.m - 1 : ℕ))
        (∀ i, i < 16 → NearestEven (|x i| / u i) (n i) ∧ mag i = min (n i) top) ∧
        (fl.getLsbD 4 = false ∧ fl.getLsbD 3 = false) ∧ (fl.getLsbD 2 = true ↔ ∃ i, i < 16 ∧ top < n i) ∧
        (fl.getLsbD 1 = true ↔ ∃ i, i < 16 ∧ x i ≠ 0 ∧ mag i = 0) ∧
        (fl.getLsbD 0 = true ↔ ∃ i, i < 16 ∧ (mag i : ℚ) * u i ≠ |x i|)))

/-- What block b of a `vpack` is made of: the governed lanes' values, and +0 for the others (R164). -/
def packInput (c : Crew) (h : Hd) (va : VReg) (b i : Nat) : Nat :=
  if (c.gov h).getLsbD (16 * b + i) then (c.vl va.toNat (16 * b + i)).toNat else 0

/-- Whether word d of two packed blocks holds a byte of block b (R164). -/
def wordOfBlock (fmt : PTy) (b d : Nat) : Prop := ∃ j, fmt.size * b ≤ j ∧ j < fmt.size * (b + 1) ∧ j / 4 = d

/-- The results and flags of the lane-wise instructions that raise flags, from the operations on numbers (R116, R158 to
R163, R169); `vpack` writes whole blocks, as `PacksBlock` says. -/
def flagLane (c : Crew) (l : Nat) : Instr → Option FRes
  | .vdiv _ ty sat _ va vb =>
    let y := laneInt c ty vb l
    some ⟨bvOutV ty (if y = 0 then 0 else bvFit ty sat ((laneInt c ty va l).tdiv y)), 0⟩
  | .vrem _ ty _ va vb =>
    let y := laneInt c ty vb l
    some ⟨bvOutV ty (if y = 0 then laneBv c ty va l else bvFit ty false ((laneInt c ty va l).tmod y)), 0⟩
  | .vfadd _ r ty _ va vb => some (ty.fmt.add r (fIn c ty va l) (fIn c ty vb l))
  | .vfsub _ r ty _ va vb => some (ty.fmt.sub r (fIn c ty va l) (fIn c ty vb l))
  | .vfmul _ r ty _ va vb => some (ty.fmt.mul r (fIn c ty va l) (fIn c ty vb l))
  | .vfdiv _ r ty _ va vb => some (ty.fmt.div r (fIn c ty va l) (fIn c ty vb l))
  | .vfmaF16 _ r _ va vb vc => some (fmt16.fma r (fIn c .f16 va l) (fIn c .f16 vb l) (fIn c .f16 vc l))
  | .vfmaF32 _ r _ va vb vc => some (fmt32.fma r (fIn c .f32 va l) (fIn c .f32 vb l) (fIn c .f32 vc l))
  | .vfmaF64 _ r _ va vb vc => some (fmt64.fma r (fIn c .f64 va l) (fIn c .f64 vb l) (fIn c .f64 vc l))
  | .vfsqrt _ r ty _ va => some (ty.fmt.sqrt r (fIn c ty va l))
  | .vfrcp _ ty _ va => some (approx .rcp ty.fmt (fIn c ty va l))
  | .vfrsq _ ty _ va => some (approx .rsq ty.fmt (fIn c ty va l))
  | .vfexp2 _ ty _ va => some (approx .exp2 ty.fmt (fIn c ty va l))
  | .vflog2 _ ty _ va => some (approx .log2 ty.fmt (fIn c ty va l))
  | .vfsin _ ty _ va => some (approx .sin ty.fmt (fIn c ty va l))
  | .vfcos _ ty _ va => some (approx .cos ty.fmt (fIn c ty va l))
  | .vfmin _ ty _ va vb => some (ty.fmt.minmax false (fIn c ty va l) (fIn c ty vb l))
  | .vfmax _ ty _ va vb => some (ty.fmt.minmax true (fIn c ty va l) (fIn c ty vb l))
  | .vfrnd _ r ty _ va => some (ty.fmt.rnd r (fIn c ty va l))
  | .vfdot _ r vd va vb =>
    let lo := fun (v : VReg) => fmt16.decode ((c.vl v.toNat l).toNat % 2 ^ 16)
    let hi := fun (v : VReg) => fmt16.decode ((c.vl v.toNat l).toNat / 2 ^ 16)
    some (fmt32.dot r .rn (fmt32.decode (c.vl vd.toNat l).toNat) [(lo va, lo vb), (hi va, hi vb)])
  | .vcvt _ r sat (.int t) src _ va =>
    let x := cvt r sat (.int t) src (c.vn src.wide va l)
    some ⟨bvOutV t (bvIn t x.bits), x.fl⟩
  | .vcvt _ r sat dst src _ va => some (cvt r sat dst src (c.vn src.wide va l))
  | .vred h op ty sat _ va =>
    some (redVals op ty sat (((List.range 32).filter fun j => (c.gov h).getLsbD j).map fun j => liveLane c ty.wide va j))
  | .vscan h op ty sat _ va =>
    some (redVals op ty sat
      (((List.range 32).filter fun j => (c.gov h).getLsbD j && decide (j ≤ l)).map fun j => liveLane c ty.wide va j))
  | _ => none

/-- The conditions of %tflags that a lane meets: the flags of its result, and bit 5 for an integer division by zero (R115, R158). -/
def flagConds (c : Crew) (l : Nat) (i : Instr) : BitVec 6 :=
  match i with
  | .vdiv _ ty _ _ _ vb => if laneInt c ty vb l = 0 then 32 else 0
  | .vrem _ ty _ _ vb => if laneInt c ty vb l = 0 then 32 else 0
  | .vpack h fmt _ va => if (c.gov h).getLsbD l then (fmt.pack ((List.range 16).map (packInput c h va (l / 16)))).2.setWidth 6 else 0
  | i => match flagLane c l i with | some r => r.fl.setWidth 6 | none => 0

/-- No lane of the crew that executes meets an enabled condition. -/
def NoLaneTraps (c : Crew) (i : Instr) (m : W32) : Prop := ∀ l, l < 32 → m.getLsbD l = true → c.tflags &&& flagConds c l i = 0

/-- A lane's source operands a, b and c, as its handler finds them (R325). -/
def flagOperands (c : Crew) (l : Nat) : Instr → Nat × Nat × Nat
  | .vdiv _ ty _ _ va vb => (c.vn ty.wide va l, c.vn ty.wide vb l, 0) | .vrem _ ty _ va vb => (c.vn ty.wide va l, c.vn ty.wide vb l, 0)
  | .vfadd _ _ ty _ va vb => (fIn c ty va l, fIn c ty vb l, 0) | .vfsub _ _ ty _ va vb => (fIn c ty va l, fIn c ty vb l, 0)
  | .vfmul _ _ ty _ va vb => (fIn c ty va l, fIn c ty vb l, 0) | .vfdiv _ _ ty _ va vb => (fIn c ty va l, fIn c ty vb l, 0)
  | .vfmaF16 _ _ _ va vb vc => (fIn c .f16 va l, fIn c .f16 vb l, fIn c .f16 vc l)
  | .vfmaF32 _ _ _ va vb vc => (fIn c .f32 va l, fIn c .f32 vb l, fIn c .f32 vc l)
  | .vfmaF64 _ _ _ va vb vc => (fIn c .f64 va l, fIn c .f64 vb l, fIn c .f64 vc l)
  | .vfsqrt _ _ ty _ va => (fIn c ty va l, 0, 0) | .vfrcp _ ty _ va => (fIn c ty va l, 0, 0) | .vfrsq _ ty _ va => (fIn c ty va l, 0, 0)
  | .vfexp2 _ ty _ va => (fIn c ty va l, 0, 0) | .vflog2 _ ty _ va => (fIn c ty va l, 0, 0) | .vfsin _ ty _ va => (fIn c ty va l, 0, 0)
  | .vfcos _ ty _ va => (fIn c ty va l, 0, 0) | .vfrnd _ _ ty _ va => (fIn c ty va l, 0, 0)
  | .vfmin _ ty _ va vb => (fIn c ty va l, fIn c ty vb l, 0) | .vfmax _ ty _ va vb => (fIn c ty va l, fIn c ty vb l, 0)
  | .vfcmp _ _ ty _ va vb => (fIn c ty va l, fIn c ty vb l, 0)
  | .vfdot _ _ vd va vb => (c.vn false va l, c.vn false vb l, c.vn false vd l)
  | .vcvt _ _ _ _ src _ va => (c.vn src.wide va l, 0, 0)
  | .vred _ _ ty _ _ va => (liveLane c ty.wide va l, 0, 0) | .vscan _ _ ty _ _ va => (liveLane c ty.wide va l, 0, 0)
  | .vpack _ _ _ va => (c.vn false va l, 0, 0)
  | _ => (0, 0, 0)

/-- The lanes of z leave for a handler crew, each with its enabled conditions and its operands, and their crew stands until they come
back (R39, R115, R325); the crew is at the word after the one that trapped. -/
structure LanesTrap (s t : State) (i : Instr) (z : W32) (conds : Nat → BitVec 6) (dest : Option (Nat × Bool)) (pd : Option PReg) : Prop where
  mem : t.mem = s.mem
  others : ∀ k, k ≠ s.cur → Map.find? t.crews k = Map.find? s.crews k
  me : t.me = { s.me with
    v := t.me.v, p := t.me.p, laneFlags := t.me.laneFlags, widx := s.me.widx + 1, phase := .lanesOut, out := s.me.out ||| z }
  quiet : ∀ l, l < 32 → z.getLsbD l = true → t.me.laneFl l = s.me.laneFl l
  sent : ∃ tags, (t.core s.myCore).laneWait = (s.core s.myCore).laneWait ++ tags ∧
    tags.map (·.lane) = (List.range 32).filter (fun l => z.getLsbD l) ∧
    ∀ g ∈ tags, g.crew = s.cur ∧ g.since = s.clk ∧ g.word = s.me.word ∧ g.pc = s.me.pc ∧ g.widx = s.me.widx ∧ g.lctr = s.me.lctr ∧
      g.old = s.me.laneFl g.lane ∧ g.code = 0 ∧ g.dest = dest ∧ g.predDest = pd ∧ g.flags = s.me.tflags &&& conds g.lane ∧
      g.a = BitVec.ofNat 64 (flagOperands s.me g.lane i).1 ∧ g.b = BitVec.ofNat 64 (flagOperands s.me g.lane i).2.1 ∧
      g.c = BitVec.ofNat 64 (flagOperands s.me g.lane i).2.2

/-- The context's die table maps logical die e, and no other, to the die of the crew that executes (R5, R341). -/
def LogicalDie (s : State) (e : Nat) : Prop :=
  let c := s.ctx s.me.ctx
  e < 8 ∧ ∀ i, i < 8 → ((c.valid i = true ∧ c.pair i = dieOfCore s.myCore) ↔ i = e)

/-- What a read of a special register gives that is the same in every lane, where the context's die table maps logical die e to the
crew's (R99, R341). %cancel and %clock are those of the clk of issue (log entry 64). -/
def uniformSpec (s : State) (e : Nat) : SpecReg → Option Nat
  | .crew => some s.me.num
  | .party => some (s.party s.me.party).num
  | .px => some (s.party s.me.party).px
  | .py => some (s.party s.me.party).py
  | .pz => some (s.party s.me.party).pz
  | .core => some (36 * e + s.myCore % 36)
  | .clus => some (9 * e + s.myCore % 36 / 4)
  | .die => some e
  | .launch => some (s.me.lctr % devShare s.mode.mode 4096)
  | .cancel => some s.me.cancel.toNat
  | .batch => some s.me.batch.toNat
  | .tflags => some s.me.tflags.toNat
  | .frontier => some (s.me.live ++ s.me.active).toNat
  | .spill => some s.me.spill.toNat
  | .window => some (s.me.baseNext.toNat % 2 ^ 16 + (s.me.alloc / 8 - 1) * 2 ^ 16)
  | .bkconf => some s.me.bkconf.toNat
  | .clock => some s.clk
  | .datum => some (s.datum.locked.toNat + 2 * s.datum.holdover.toNat + 4 * s.datum.scale.toNat)
  | .lane => none
  | .flags => none

/-- The instructions whose result in a lane is a NaN of the format's default pattern whenever it is a NaN (R112). -/
def arithFmt : Instr → Option FTy
  | .vfadd _ _ ty .. => some ty | .vfsub _ _ ty .. => some ty | .vfmul _ _ ty .. => some ty | .vfdiv _ _ ty .. => some ty
  | .vfmaF16 .. => some .f16 | .vfmaF32 .. => some .f32 | .vfmaF64 .. => some .f64
  | .vfsqrt _ _ ty .. => some ty | .vfrcp _ ty .. => some ty | .vfrsq _ ty .. => some ty | .vfexp2 _ ty .. => some ty
  | .vflog2 _ ty .. => some ty | .vfsin _ ty .. => some ty | .vfcos _ ty .. => some ty
  | .vfmin _ ty .. => some ty | .vfmax _ ty .. => some ty | .vfrnd _ _ ty .. => some ty | .vfdot .. => some .f32
  | .vred _ _ (.flt ty) .. => some ty | .vscan _ _ (.flt ty) .. => some ty
  | .vcvt _ _ _ (.flt t) _ _ _ => some t
  | _ => none

/-! ## A crew's step -/

/-- Crew k is chosen to issue next and may run, and the word at its next address is w. -/
structure Fetches (s : State) (k : Nat) (ks : List Nat) (w : W64) : Prop where
  going : s.stopped = false
  quiet : s.agenda = []
  chosen : s.runq = k :: ks
  here : s.hasCrew k = true
  ready : (s.crew k).canRun s.clk = true
  free : s.frozen (s.crew k) = false
  word : s.fetch k ((s.crew k).pc + BitVec.ofNat 64 (8 * (s.crew k).widx)) = .ok w

/-- The state in which the word that crew k fetched is checked and executed: the crew is the one that executes, its word is
noted, and the line of the word is in the instruction cache (R106). Requests of earlier crews to the plate stores or the queues that
the word asks come before it (R205, R302). -/
def State.issuing (s : State) (k : Nat) (ks : List Nat) (w : W64) (i : Instr) : State :=
  let c := s.crew k
  let s := ({ s with runq := ks, cur := k }.fetched k (c.pc + BitVec.ofNat 64 (8 * c.widx))).putCrew k { c with word := w }
  let s := if plateRequest i then s.platesUpTo (clusterOfCore (coreOfKey k)) (some k) else s
  if queueRequest i then s.pushesUpTo (some k) else s

/-- What a word that traps leaves: the trap stands once every older instruction has its result, and until then the crew waits at the
word (R191, R320); what a strike would go back to is kept (R329). -/
def trapStands (s t : State) (k : Nat) : State :=
  if t.hasCrew k = true ∧ ((t.crew k).phase = .trapped ∨ (t.crew k).phase = .halted) then
    if (s.crew k).unsettled then s.onCrew k fun c => { c with phase := .waiting .settle, blockedSince := s.clk }
    else { t with past := t.past.filter (fun p => p.key != k) ++ (s.snapshot k).past.filter fun p => p.key == k }
  else t

/-- What a step adds after the instruction's own meaning: the trap of a block that falls through to a word which is no header
(R140), or the timing of the word (R284). -/
def wordEnds (s : State) (k : Nat) (i : Instr) (o : Out) : Out :=
  match o with
  | .next t =>
    let c := s.crew k
    let t := trapStands s t k
    let d := t.crew k
    if t.hasCrew k && issued c d && c.widx + 1 == d.widx && d.pc == c.pc && d.len < d.widx && d.phase != .ended &&
        d.phase != .select && s.fallBad k d then
      .next (trapStands s (s.trapCrew k (trapRec c 0x03 2 c.fallThrough 0 false)) k)
    else .next (t.afterIssue k c i)
  | o => o

/-! ## Traps (R320, R321) -/

/-- The instruction takes a crew trap and nothing else: the trap is recorded with the instruction's own address and word, no
register and no flag changes, and neither do memory, the other crews and the rest of the state. -/
structure TakesTrap (s t : State) (cause : Nat) (d0 d1 : W64) (ls : W32) : Prop where
  only : OnlyMe s t
  crew : t.me = { s.me with
    phase := .trapped
    trap := some { cause, detail0 := d0, detail1 := d1, lanes := ls, pc := s.me.pc, widx := s.me.widx, word := s.me.word }
    noticed := false, pushed := false, tries := 0, heldSince := s.clk, released := false }

/-! ## Control flow -/

/-- A target that passes the checks of R140: it is fetched, aligned, and a header. -/
def GoodTarget (s : State) (va : W64) : Prop :=
  ∃ w, s.fetch s.cur va = .ok w ∧ va.toNat % 8 = 0 ∧ w.extractLsb' 56 8 = 0xFF

/-- Scalar branches: whether they are taken, and their target (R139, R141). -/
def branchOf (c : Crew) : Instr → Option (Bool × W64)
  | .br _ d => some (true, c.pc + BitVec.ofNat 64 (8 * c.widx) + 8 * d.signExtend 64)
  | .brc _ cd sa sb d => some (bvCond cd (c.sv sa) (c.sv sb), c.pc + BitVec.ofNat 64 (8 * c.widx) + 8 * d.signExtend 64)
  | .brz _ sa d => some (c.sv sa == 0, c.pc + BitVec.ofNat 64 (8 * c.widx) + 8 * d.signExtend 64)
  | .brnz _ sa d => some (c.sv sa != 0, c.pc + BitVec.ofNat 64 (8 * c.widx) + 8 * d.signExtend 64)
  | .brx _ sa v => some (true, c.sv sa + 8 * v.signExtend 64)
  | _ => none

/-- Calls: the window slide and the target (R142). -/
def callOf (c : Crew) : Instr → Option (BitVec 11 × W64)
  | .call _ n d => some (n, c.pc + BitVec.ofNat 64 (8 * c.widx) + 8 * d.signExtend 64)
  | .callx _ n sa => some (n, c.sv sa)
  | _ => none

/-- The pending blocks of the lanes of a mask are t, and those of the other lanes are as they were (R24). -/
def PendOf (m : W32) (t : W64) (c d : Crew) : Prop :=
  ∀ l, l < 32 → Map.find? d.pend l = if m.getLsbD l then some t else Map.find? c.pend l

/-! ## Memory accesses -/

/-- The lanes of a mask, rising, each with its address. -/
def lanesAt (m : W32) (a : Nat → W64) : List (Nat × W64) := ((List.range 32).filter fun l => m.getLsbD l).map fun l => (l, a l)

/-- S(SBASE) + SExt(V(VIDX, l), 32) * w + SExt(OFS11, 11) * w (R175, R187). -/
def addrIdx (c : Crew) (sb : SReg) (idx : Option VReg) (ofs : BitVec 11) (w : Nat) (l : Nat) : W64 :=
  c.sv sb + ofs.signExtend 64 * BitVec.ofNat 64 w +
    (match idx with | none => 0 | some v => (c.vl v.toNat l).signExtend 64 * BitVec.ofNat 64 w)
/-- VP(VIDX, l) + S(SBASE) + SExt(OFS11, 11) * w (R175). -/
def addrPtr (c : Crew) (sb : SReg) (idx : VReg) (ofs : BitVec 11) (w : Nat) (l : Nat) : W64 :=
  c.vpl idx.toNat l + (c.sv sb + ofs.signExtend 64 * BitVec.ofNat 64 w)

/-- What a global access needs of its pages, its width, and its lanes' addresses; lane 32 is the control thread
(R134, R175, R187). -/
def accessOf (c : Crew) : Instr → Option (Need × Nat × List (Nat × W64))
  | .sld _ w _ _ sb ofs => some (.read, w.bytes, [(32, addrIdx c sb none ofs w.bytes 32)])
  | .sst _ w _ _ sb ofs => some (.write, w.bytes, [(32, addrIdx c sb none ofs w.bytes 32)])
  | .vld h w _ _ sb idx ofs => some (.read, w.bytes, lanesAt (c.gov h) (addrIdx c sb idx ofs w.bytes))
  | .vst h w _ _ sb idx ofs => some (.write, w.bytes, lanesAt (c.gov h) (addrIdx c sb idx ofs w.bytes))
  | .vgth h w _ _ sb idx ofs => some (.read, w.bytes, lanesAt (c.gov h) (addrPtr c sb idx ofs w.bytes))
  | .vsct h w _ _ sb idx ofs => some (.write, w.bytes, lanesAt (c.gov h) (addrPtr c sb idx ofs w.bytes))
  | .vatom h _ ty _ _ _ _ sb idx => some (.both, tyBits ty / 8, lanesAt (c.gov h) (addrIdx c sb idx 0 (tyBits ty / 8)))
  | .satom _ _ ty _ _ _ _ _ sb => some (.both, tyBits ty / 8, [(32, c.sv sb)])
  | .vredm h _ ty _ _ _ _ sb idx => some (.write, tyBits ty / 8, lanesAt (c.gov h) (addrIdx c sb idx 0 (tyBits ty / 8)))
  | _ => none

/-- Every request is aligned and translates with what it needs; the accesses that result. -/
def Reaches (s : State) (need : Need) (w : Nat) (reqs : List (Nat × W64)) (as : List Acc) : Prop :=
  (∀ r ∈ reqs, r.2.toNat % w = 0) ∧ as.map (fun a => (a.lane, a.va)) = reqs ∧
    ∀ a ∈ as, ∃ pa, s.xlate s.me.ctx a.va need = .ok pa ∧ a.loc = s.locOf s.me.ctx pa

/-- Every byte of the accesses lies in a live copy of the core's L1 that is not older than an atomic of the crew's own on its words
(R62), none of them is poisoned for the crew, and none waits for such an atomic. -/
def InReach (s : State) (as : List Acc) (w : Nat) : Prop :=
  (∀ x ∈ spansOf (((accLocs as w).filter fun a => !locCtl a).map fun a => (a, (0 : Byte))),
    ((s.core s.myCore).copy? x.1 x.2.1 x.2.2).isSome = true) ∧
  (∀ x ∈ spansOf (((accLocs as w).filter fun a => !locCtl a).map fun a => (a, (0 : Byte))), s.me.mustRead x.1 x.2.1 x.2.2 = false) ∧
  (∀ a ∈ as, s.poisonFor s.myCore s.me a.loc = false) ∧ s.atomPending s.cur (accLocs as w) = false

/-- The little-endian value that the crew reads at an access: the bytes of its own stores still in the core, and otherwise
those of the core's L1 (R7, R52, R62). -/
def readValue (s : State) (a : Acc) (w : Nat) : Nat := ofBytes ((List.range w).map fun i => s.readByte s.myCore s.me (a.loc + i))

/-- The bytes that a store's accesses write, each at its address, in lane order (R136, R177, R181). -/
def storedBytes (as : List Acc) (w : Nat) (val : Nat → Nat) : List Host.Cell :=
  as.flatMap fun a => (List.range w).map fun i => (a.loc + i, BitVec.ofNat 8 (val a.lane / 256 ^ i))

/-- The value that a store takes from a lane, or from the scalar register. -/
def storeValue (c : Crew) : Instr → Nat → Nat
  | .sst _ _ _ sa _ _ => fun _ => (c.sv sa).toNat
  | .vst _ w _ va _ _ _ => fun l => c.vn (w == .d) va l
  | .vsct _ w _ va _ _ _ => fun l => c.vn (w == .d) va l
  | _ => fun _ => 0

/-- What a held effect waits for besides its age: a release at a scope wider than the crew (R60, R107). -/
def relOf (o : Option Scope) : Option Scope := if o = some .crew then none else o

/-- The reorder checker is off for the context, or it sees no earlier operation of the crew that has not been performed and that
orders a read of these bytes (R274). -/
def InOrder (s : State) (acq : Option Scope) (locs : List Nat) : Prop :=
  (s.ctx s.me.ctx).rchk = false ∨ ∀ ls : List Nat, (∀ a ∈ ls, a ∈ locs ∧ (s.me.heldByte a).isNone = true) →
    winBad { crew := s.cur, at_ := s.clk, locs := ls, read := true, acq, done := true } (s.core s.myCore).window [] = none

/-- The same for an arrival with a release (R275). -/
def ArrivesInOrder (s : State) : Prop :=
  (s.ctx s.me.ctx).rchk = false ∨
    winBad { crew := s.cur, at_ := s.clk, locs := [], rel := some .clus, done := true } (s.core s.myCore).window [] = none

/-- The order of a store (R136, R181). -/
def storeOrder : Instr → Option (Option Scope)
  | .sst _ _ o _ _ _ => some o | .vst _ _ o _ _ _ _ => some o | .vsct _ _ o _ _ _ _ => some o
  | _ => none

/-- Memory, the other crews, and everything but what a crew's access leaves in its core, in its party's trace and among the
events that are due, is as before. -/
structure OnlyAccess (s t : State) : Prop where
  mem : ∀ a, memGet t.mem a = memGet s.mem a
  others : ∀ k, k ≠ s.cur → Map.find? t.crews k = Map.find? s.crews k
  rest : { t with crews := s.crews, cores := s.cores, parties := s.parties, agenda := s.agenda } = s

/-! ## Plates -/

/-- A handle is bound to a plate of the crew's party that no engine holds, and every offset is aligned and inside it. -/
structure PlateReach (s : State) (t : TReg) (w : Nat) (offs : List (Nat × Int)) (p : Plate) : Prop where
  bound : s.plate? t = some p
  crew : p.owner = false
  aligned : ∀ o ∈ offs, o.2 % (w : Int) = 0
  inside : ∀ o ∈ offs, 0 ≤ o.2 ∧ o.2 + (w : Int) ≤ ((1024 * p.grans : Nat) : Int)

/-- The offset of R183. -/
def offsetOf (c : Crew) (base : Int) (idx : Option VReg) (ofs : BitVec 11) (w : Nat) (l : Nat) : Int :=
  base + (match idx with | none => 0 | some v => (c.vl v.toNat l).toInt * (w : Int)) + ofs.toInt * (w : Int)

/-- The little-endian value at an offset of a plate, as the crew reads it (R52). -/
def plateValue (s : State) (p : Plate) (o : Int) (w : Nat) : Nat :=
  ofBytes ((List.range w).map fun i => s.plateByte s.me (s.plateCore p) (1024 * p.base + o.toNat + i))

/-- The sectors that lanes of a plate read would consume hold no poison. -/
def plateClean (s : State) (p : Plate) (offs : List (Nat × Int)) : Prop :=
  ∀ o ∈ offs, s.platePoisoned s.me (s.plateCore p) (1024 * p.base + o.2.toNat) = false

/-- No `patom` of the crew on the bytes that lanes of a plate read would load is still in the core (R192). -/
def noPatomHeld (s : State) (p : Plate) (w : Nat) (offs : List (Nat × Int)) : Prop :=
  s.me.patomHeld (s.plateCore p) (offs.flatMap fun o => (List.range w).map fun j => 1024 * p.base + o.2.toNat + j) = false

/-! ## Instructions that take their turn (R287)

An instruction whose effect lies in an object that other crews see waits until its effect may leave the core, and is then
executed with `released` set. -/

/-- The crew is convergent, and the instruction has its turn. -/
structure Turn (s : State) : Prop where
  conv : s.me.active = s.me.live
  turn : s.me.released = true

/-- The value of a register, or of a pair, in a lane, by its number. -/
def laneNat (c : Crew) (wide : Bool) (n l : Nat) : Nat := if wide then (c.vpl n l).toNat else (c.vl n l).toNat

/-- The operand and the compare value of an atomic in a lane, from the registers numbered x and y (R187). -/
def atomArgs (c : Crew) (wide : Bool) (x y l : Nat) : W64 × W64 :=
  (BitVec.ofNat 64 (laneNat c wide x l), BitVec.ofNat 64 (laneNat c wide y l))

/-- The requests of an atomic or reduction stand held in lane order, one group for each owner cluster, behind the release of its
order; a form that returns a value waits for nothing and notes where the old values go (R188 to R191). Memory, the other crews and
every register are as before. -/
structure AtomicSent (s t : State) (as : List Acc) (op : Aop) (ty : Ty) (sc : Scope) (ord : Ord) (sat : Bool)
    (dst : Option AtomDest) (arg : Nat → W64 × W64) : Prop where
  mem : ∀ a, memGet t.mem a = memGet s.mem a
  others : ∀ k, k ≠ s.cur → Map.find? t.crews k = Map.find? s.crews k
  crew : { s.me with held := t.me.held, atoms := t.me.atoms, scopem := t.me.scopem, widx := s.me.widx + 1 } = t.me
  groups : ∃ gs, t.me.held = s.me.held ++ [⟨s.clk, .atoms gs, relOf (relScope ord sc), []⟩] ∧
    (∀ g ∈ gs, g.op = op ∧ g.ty = ty ∧ g.sat = sat ∧ g.crew = s.cur ∧ g.returns = dst.isSome ∧ g.reqs ≠ [] ∧
      ∀ r ∈ g.reqs, s.owner s.me.ctx (locPa r.loc) = g.owner) ∧
    (∀ a ∈ as, ∃ g ∈ gs, (⟨a.lane, a.loc, a.va, (arg a.lane).1, (arg a.lane).2⟩ : AtomReq) ∈ g.reqs) ∧
    (dst = none → t.me.atoms = s.me.atoms) ∧
    ∀ d, dst = some d → ∃ o, t.me.atoms = s.me.atoms ++ [o] ∧ o.dest = d.logical s.me ∧ o.acq = acqScope ord sc ∧
      o.groups = gs.length ∧ o.results = []

/-- A form without an acting lane sends nothing; its release still orders what follows it. -/
structure AtomicIdle (s t : State) (sc : Scope) (ord : Ord) : Prop where
  mem : ∀ a, memGet t.mem a = memGet s.mem a
  others : ∀ k, k ≠ s.cur → Map.find? t.crews k = Map.find? s.crews k
  crew : t.me = { s.me with
    held := if (relScope ord sc).isSome then s.me.held ++ [⟨s.clk, .fence, relOf (relScope ord sc), []⟩] else s.me.held
    widx := s.me.widx + 1 }

/-- The handle, the width and the offsets of an access to a plate (R183, R192). -/
def plateOf (c : Crew) : Instr → Option (TReg × Nat × List (Nat × Int))
  | .vldp h w _ t sb idx ofs =>
    some (t, w.bytes, ((List.range 32).filter fun l => (c.gov h).getLsbD l).map fun l =>
      (l, offsetOf c (c.sv sb).toNat idx ofs w.bytes l))
  | .sldp _ w _ t sb ofs => some (t, w.bytes, [(32, offsetOf c (c.sv sb).toNat none ofs w.bytes 32)])
  | .vstp h w _ t sb idx ofs =>
    some (t, w.bytes, ((List.range 32).filter fun l => (c.gov h).getLsbD l).map fun l =>
      (l, offsetOf c (c.sv sb).toNat idx ofs w.bytes l))
  | .patom h _ ty _ _ _ _ t idx =>
    some (t, tyBits ty / 8, ((List.range 32).filter fun l => (c.gov h).getLsbD l).map fun l =>
      (l, offsetOf c 0 idx 0 (tyBits ty / 8) l))
  | _ => none

/-- The lanes that a list names; lane 32, the control thread, is none of them. -/
def lanesMask (ls : List Nat) : W32 := maskOf fun l => ls.contains l

/-- The crew takes a crew trap with its registers as they were; what it shares with others may have been committed first. -/
structure Trapped (s t : State) (cause : Nat) (d0 d1 : W64) (ls : W32) : Prop where
  mem : t.mem = s.mem
  phase : t.me.phase = .trapped
  trap : t.me.trap = some { cause, detail0 := d0, detail1 := d1, lanes := ls, pc := s.me.pc, widx := s.me.widx, word := s.me.word }
  sregs : t.me.s = s.me.s
  vregs : t.me.v = s.me.v
  preds : t.me.p = s.me.p

/-! ## Plates, the matrix array and the engines (R199 to R226) -/

/-- Memory, the other crews, and everything but what an instruction's turn leaves in its crew, its party, its core and among the
crew's earlier states is as before. -/
structure OnlyShared (s t : State) : Prop where
  mem : ∀ a, memGet t.mem a = memGet s.mem a
  others : ∀ k, k ≠ s.cur → Map.find? t.crews k = Map.find? s.crews k
  parties : ∀ p, p ≠ s.me.party → Map.find? t.parties p = Map.find? s.parties p
  rest : { t with crews := s.crews, parties := s.parties, cores := s.cores, past := s.past, agenda := s.agenda } = s

/-- A crew's record after an instruction that had its turn: it goes on, and its turn is over. -/
def Crew.turned (c : Crew) (clk : Nat) : Crew := { c with widx := c.widx + 1, released := false, committed := clk }

/-- The least free plate number of a party. -/
def FreeNum (p : Party) (n : Nat) : Prop :=
  n < 256 ∧ (∀ q ∈ p.plates, q.num ≠ n) ∧ ∀ j < n, ∃ q ∈ p.plates, q.num = j

/-- The first granule of the lowest free run of a core's pool. -/
def FreeRun (p : Party) (core n g : Nat) : Prop :=
  g < 512 ∧ p.freeRun core g n = true ∧ ∀ j < g, p.freeRun core j n = false

/-- The core that `tres` reserves on. -/
def tresCore (s : State) (core : Option (BitVec 2)) : Nat := match core with | some c => c.toNat | none => s.myCore % 4

/-- The number of bytes that rows of an operand take in its plate (R206, R207). -/
def extentOf (d : W64) (packed rows : Nat) : Nat := descOffs d + (rows - 1) * descPitch d packed + packed

/-- A descriptor is aligned for its type. -/
def DescOk (ty : Ty) (d : W64) : Prop :=
  (d.extractLsb' 0 18).toNat % descAlign ty = 0 ∧ (d.extractLsb' 20 18).toNat % descAlign ty = 0

/-- The region of an accumulator handle (R53). -/
def regOf (c : Crew) (ak : AReg) : Region := regionOf (Map.get 0 c.a ak.toNat)

/-- A region inside the party's band on the crew's core (R53). -/
def InBand (s : State) (r : Region) : Prop :=
  (s.myParty.band s.myCore).1 ≤ r.row0 ∧ r.row0 + r.rows ≤ (s.myParty.band s.myCore).1 + (s.myParty.band s.myCore).2 ∧
    r.col0 + r.cols ≤ 256

/-- The operands of a multiply pass the checks of R207. -/
structure MatReady (s : State) (ty : Ty) (ak : AReg) (ta tb : TReg) (sa sb : SReg) (k : Nat) (pa pb : Plate) : Prop where
  boundA : s.plate? ta = some pa
  boundB : s.plate? tb = some pb
  mineA : pa.owner = false ∨ (pa.eng = 3 ∧ pa.holder = s.cur)
  mineB : pb.owner = false ∨ (pb.eng = 3 ∧ pb.holder = s.cur)
  okA : DescOk ty (s.me.sv sa)
  okB : DescOk ty (s.me.sv sb)
  inA : extentOf (s.me.sv sa) (elemBytes ty k) (regOf s.me ak).rows ≤ 1024 * pa.grans
  inB : extentOf (s.me.sv sb) (elemBytes ty k) (regOf s.me ak).cols ≤ 1024 * pb.grans
  band : InBand s (regOf s.me ak)

/-- An operand of the array. -/
def operandOf (s : State) (p : Plate) (d : W64) (packed : Nat) : MatOp :=
  { core := 4 * s.myParty.cluster + p.core, base := 1024 * p.base, plate := p.num, offs := descOffs d, pitch := descPitch d packed }

/-- A transfer's plate and region pass the checks of R213. -/
structure TransferReady (s : State) (half col : Bool) (ak : AReg) (ta : TReg) (sa : SReg) (p : Plate) : Prop where
  bound : s.plate? ta = some p
  mine : p.owner = false ∨ (p.eng = 3 ∧ p.holder = s.cur)
  ok : DescOk (if half then .flt .f16 else .flt .f32) (s.me.sv sa)
  inside : extentOf (s.me.sv sa) ((if col then (regOf s.me ak).rows else (regOf s.me ak).cols) * (if half then 2 else 4))
    (if col then (regOf s.me ak).cols else (regOf s.me ak).rows) ≤ 1024 * p.grans
  band : InBand s (regOf s.me ak)

/-- A plate with CREW as its owner, and an event queue if one is named (R219). -/
structure EngineReady (s : State) (t : TReg) (ev : Option (BitVec 5)) (p : Plate) : Prop where
  bound : s.plate? t = some p
  crew : p.owner = false
  event : ∀ q, ev = some q → ∃ x, Map.find? s.myParty.queues q.toNat = some x ∧ x.event = true

/-- What an accepted command leaves: the plate is the engine's, and of the crew only its command number, its bank conflicts and
its place have changed. -/
structure Accepted (s t : State) (e p bk : Nat) : Prop where
  only : OnlyShared s t
  flip : ∀ y ∈ t.myParty.plates, y.num = p → y.owner = true ∧ y.eng = BitVec.ofNat 3 e ∧ y.holder = s.cur
  crew : t.me = { s.me.turned s.clk with seq := t.me.seq, bkconf := s.me.bkconf + BitVec.ofNat 32 bk }
  seq : Map.get 0 t.me.seq e = (Map.get 0 s.me.seq e + 1) % 2 ^ 16

/-- A command as its crew gives it to an engine. -/
def commandOf (s : State) (e : Engine) (n p : Nat) (ev : Option (BitVec 5)) : EngCmd :=
  { eng := e, crew := s.cur, party := s.me.party, ctx := s.me.ctx, lctr := s.me.lctr, plate := p, ev := ev.map (·.toNat)
    seq := Map.get 0 s.me.seq n, at_ := s.clk }

/-- Batches that a wait for n covers (R211). -/
def Batch.due (n : W32) (b : Batch) : Bool := b.retired && decide ((n - b.num).toNat < 2 ^ 31)

/-! ## Barriers, queues, monitors, sheets, launches and traps (R227 to R254) -/

/-- As OnlyShared, with the objects of the device that the instructions of R240 to R254 change. -/
structure OnlyDevice (s t : State) : Prop where
  mem : ∀ a, memGet t.mem a = memGet s.mem a
  others : ∀ k, k ≠ s.cur → Map.find? t.crews k = Map.find? s.crews k
  parties : ∀ p, p ≠ s.me.party → Map.find? t.parties p = Map.find? s.parties p
  rest : { t with
    crews := s.crews, parties := s.parties, cores := s.cores, past := s.past, agenda := s.agenda, queues := s.queues
    counters := s.counters, dirtyMaps := s.dirtyMaps, sheets := s.sheets, svcReqs := s.svcReqs } = s

/-- The crew went on after its turn, with a value in one scalar register. -/
structure TurnGives (s t : State) (sd : SReg) (x : W64) : Prop where
  crew : t.me = { s.me.turned s.clk with s := t.me.s }
  regs : ∀ r, r ≠ sd → t.me.sv r = s.me.sv r
  val : t.me.sv sd = if sd = 0 then 0 else x

/-- The same after an acquire of clocks that other crews' releases carry (R65, R391), which may also bring the intervals of engine
writes (R257). -/
structure TurnTakes (s t : State) (sd : SReg) (x : W64) (ch : Clocks) : Prop where
  crew : t.me = { s.me.turned s.clk with s := t.me.s, seen := joinStamps s.me.seen ch, ivals := t.me.ivals }
  kept : ∀ r ∈ s.me.ivals, r ∈ t.me.ivals
  regs : ∀ r, r ≠ sd → t.me.sv r = s.me.sv r
  val : t.me.sv sd = if sd = 0 then 0 else x

/-- The crew went on at once, with a value in one scalar register. -/
structure Gives (s t : State) (sd : SReg) (x : W64) : Prop where
  crew : t.me = { s.me with s := t.me.s, widx := s.me.widx + 1 }
  regs : ∀ r, r ≠ sd → t.me.sv r = s.me.sv r
  val : t.me.sv sd = if sd = 0 then 0 else x

/-- The crew waits, after its turn or before it. -/
def WaitsTurned (s t : State) (w : Wait) : Prop :=
  t.me = { s.me with released := false, committed := s.clk, phase := .waiting w, blockedSince := s.clk }
def Waits (s t : State) (w : Wait) : Prop :=
  t.me = { s.me with phase := .waiting w, blockedSince := s.clk, released := false }

/-- What an arrival of a crew at the phase d ahead makes of a barrier (R231, R391). -/
structure Arrives (b b' : Barrier) (crew d : Nat) (st : Clocks) : Prop where
  cur : b'.cur = b.cur
  ended : b'.ended = b.ended
  arrived : ∀ i, i < 4 → b'.arrived.getD i 0 = b.arrived.getD i 0 ||| (if i = d then 1 <<< crew else 0)
  stamps : ∀ i, i < 4 → b'.stamps.getD i [] =
    if i = d then (if b.arrived.getD d 0 = 0 then st else joinStamps (b.stamps.getD i []) st) else b.stamps.getD i []

/-- A barrier keeps four open phases. -/
def Barrier.Four (b : Barrier) : Prop := b.arrived.length = 4 ∧ b.stamps.length = 4

/-- The core clock of a crew on a die that meets clocks which an object keeps: the greater of its own and the die's, where they hold
one (R391). -/
def keptClock (ch : Clocks) (die : Nat) (ts : Stamp) : Stamp := match Map.find? ch die with | some x => stampMax ts x | none => ts

/-- The core clock of a crew on a die that sees the completed phase p of a barrier (R391). -/
def Barrier.seen (b : Barrier) (p : BitVec 16) (die : Nat) (ts : Stamp) : Stamp := keptClock (Map.get [] b.ended p.toNat) die ts

/-- No crew of the party waits at an object. -/
def NoneWaits (s : State) (p : Wait → Prop) : Prop := ∀ kc ∈ s.crews, kc.2.party = s.me.party → ∀ w, kc.2.phase = .waiting w → ¬p w

/-- An event that is due at the end of the clk, after the requests of the clk's crews (R37). -/
def EndsWith (s t : State) (i : Instr) : Prop := t.late = if s.late.contains i then s.late else s.late ++ [i]

/-- No push of a crew that comes earlier in the order of R302 waits at a queue. -/
def NoEarlierPush (s : State) : Prop := ∀ p ∈ s.pushes, s.cur < p.crew

/-- What a push by a crew makes of a queue (R234): one unit of allowance, and the item with its release stamp. -/
structure Pushed (x x' : CQueue) (crew : Nat) (item : W32) (st : Clocks) : Prop where
  rest : { x' with allow := x.allow, items := x.items } = x
  items : x'.items = x.items ++ [⟨item, st⟩]
  allow : ∀ n, Map.get 0 x'.allow n = if n = crew then Map.get 0 x.allow n - 1 else Map.get 0 x.allow n

/-- A crew that may push, and whose push does not block (R36). -/
structure MayPush (x : CQueue) (crew : Nat) : Prop where
  plain : x.event = false
  producer : x.producers.getLsbD crew = true
  allow : Map.get 0 x.allow crew ≠ 0
  room : x.items.length < x.depth

/-- The trace of the party after a pop: an event record of the collective engine marks it always-rerun (R361). -/
def PopMarks (s t : State) (x : CQueue) (i : QItem) : Prop :=
  (t.party s.me.party).trace =
    if x.event = true ∧ i.item.extractLsb' 21 3 = 4 then { s.myParty.trace with why := s.myParty.trace.why ||| 32 } else s.myParty.trace

/-- A hardware queue of the crew's device that takes the crew's pushes (R245, R301). -/
structure QueueTakes (s : State) (q : BitVec 6) (n : Nat) (x : HwQueue) : Prop where
  share : s.inShare 64 q.toNat = true
  num : n = s.phys s.me.ctx 64 q.toNat
  rec_ : x = Map.get {} s.queues n
  en : x.en = true
  devpush : x.devpush = true
  priv : x.privq = true → s.me.priv = true
  ctx : x.ctx.toNat = s.me.ctx

/-- A retained launch of the crew's context (R248, R249, R363). -/
structure Retains (s : State) (n p : Nat) : Prop where
  share : s.inShare 4096 n = true
  num : p = s.phys s.me.ctx 4096 n
  ctx : (s.counter p).ctx.toNat = s.me.ctx
  kept : (s.counter p).retained.isSome = true

/-- A dirty map, and a board, of the crew's context (R250, R228). -/
structure OwnsMap (s : State) (m n : Nat) (x : DirtyMap) : Prop where
  share : s.inShare 256 m = true
  num : n = s.phys s.me.ctx 256 m
  rec_ : x = Map.get {} s.dirtyMaps n
  en : x.en = true
  ctx : x.ctx.toNat = s.me.ctx
structure OwnsBoard (s : State) (b h : Nat) (x : SheetHome) : Prop where
  share : s.inShare 256 b = true
  num : h = s.phys s.me.ctx 256 b
  rec_ : x = Map.get {} s.sheets h
  en : x.en = true
  ctx : x.ctx.toNat = s.me.ctx

/-- The packet that a push of the crew leaves in a queue (R245, R300). -/
def pktAt (s : State) (loc : Nat) : Pkt :=
  { data := BitVec.ofNat 1024 (memNat s.mem loc 128), age := s.clk, stamp := s.me.relTs }

/-- A queue after a push of packets; the others are as they were. -/
def QueueGets (s t : State) (n : Nat) (x : HwQueue) (ps : List Pkt) : Prop :=
  Map.get {} t.queues n = { x with pkts := x.pkts ++ ps } ∧ ∀ m, m ≠ n → Map.find? t.queues m = Map.find? s.queues m

/-- The acquire of a stamp kept for the crew's die, where one is kept (R296, R391), at .dev. -/
def keptAcquire (s : State) (ch : Clocks) : Stamp :=
  stampMax (keptClock ch (dieOfCore s.myCore) (s.core s.myCore).ts) (s.die (dieOfCore s.myCore)).dic

/-- The privileged forms of R102. -/
def privileged : Instr → Bool
  | .cinv .. => true | .hret .. => true | .ckpt .. => true | .svccfg .. => true
  | .wrsrScalar _ .spill _ => true | .wrsrScalar _ .window _ => true
  | _ => false

/-- The instructions that act on the crew as a whole (R199). -/
def crewWide : Instr → Bool
  | .tres .. => true | .trel .. => true | .mma .. => true | .mmap .. => true | .mbatch .. => true | .acld .. => true
  | .acst .. => true | .aczero .. => true | .cpy .. => true | .gth .. => true | .coll .. => true
  | _ => false

/-! ## Events (R10 to R19 and the rules that each step names) -/

/-- Memory and every crew but one are as before. -/
structure OnlyCrew (s t : State) (k : Nat) : Prop where
  mem : ∀ a, memGet t.mem a = memGet s.mem a
  others : ∀ j, j ≠ k → Map.find? t.crews j = Map.find? s.crews j

/-- A header that a crew may enter (R87, R88, R105), and that passes every check of its entry. -/
structure EntersAt (s : State) (k : Nat) (pc w : W64) : Prop where
  fetched : s.fetch k pc = .ok w
  aligned : pc.toNat % 8 = 0
  header : w.extractLsb' 56 8 = 0xFF
  words : ∀ i, i ≤ (w.extractLsb' 48 8).toNat → ∃ x, s.fetch k (pc + BitVec.ofNat 64 (8 * i)) = .ok x
  len : w.extractLsb' 48 8 ≠ 0
  zero : w.extractLsb' 0 6 = 0
  live : hdrLive w ≤ 2048 ∧ hdrLive w ≤ (s.crew k).alloc
  reconv : w.extractLsb' 7 2 = 2 ↔ w.extractLsb' 9 12 ≠ 0
  window : (s.crew k).baseNext.toNat + hdrLive w ≤ 65535
  frames : (s.crew k).frames = []

/-- The bytes that cells leave in memory, the later of two for one byte. -/
def Wrote (s t : State) (cs : List Host.Cell) : Prop :=
  ∀ a, memGet t.mem a = match (cs.filter fun c => c.1 == a).getLast? with
    | some c => c.2
    | none => memGet s.mem a

/-- The clk in which an effect or a report is as old as the fix window (R286). -/
def fixDue (s : State) (c : Crew) (at_ : Nat) : Prop := at_ + (s.ctx c.ctx).fix.toNat ≤ s.clk

/-- The frame of a trapped crew, written in an attempt to send its notice (R320 to R322). -/
def frameWritten (s : State) (k : Nat) (r : TrapRec) (s1 : State) : Prop :=
  (s.onCrew k fun c => { c with tries := c.tries + 1, heldSince := s.clk }).writeFrame k r = some s1

/-- The next word of a crew that woke: it goes on at the next clk at the earliest, and has the age of the clk of the event
(R281). -/
def Crew.woken (c : Crew) (clk : Nat) : Crew := { c with phase := .running, readyAt := max c.readyAt (clk + 1), readySince := clk }

/-- A crew that went on past the word in which it was blocked. -/
def Crew.goesOn (c : Crew) (clk : Nat) : Crew := { c.woken clk with widx := c.widx + 1, committed := clk }

/-- A crew that is blocked at a queue of its party. -/
def atQueue (q : Nat) (c : Crew) : Bool :=
  match c.phase with
  | .waiting (.queuePush y _) => y == q
  | .waiting (.queuePop y _) => y == q
  | _ => false

/-- A crew that is blocked at a barrier object of its party. -/
def atBarrier (bar : Nat) (c : Crew) : Bool :=
  match c.phase with
  | .waiting (.barrier y _) => y == bar
  | _ => false

/-- The one crew of a party that is blocked at an object. -/
structure LoneWaiter (s : State) (party : Nat) (at_ : Crew → Bool) (k : Nat) (c : Crew) : Prop where
  found : Map.find? s.crews k = some c
  alone : (s.crews.filter fun kc => kc.2.party == party && at_ kc.2) = [(k, c)]

/-- A crew that has ended and for which nothing is under way (R30). -/
structure CrewOver (s : State) (k : Nat) : Prop where
  there : s.hasCrew k = true
  kind : (s.crew k).kind = .normal
  ended : (s.crew k).phase = .ended
  held : (s.crew k).held = []
  atoms : (s.crew k).atoms = []
  pushes : ∀ p ∈ s.pushes, p.crew ≠ k
  plates : ∀ n, ∀ x ∈ (s.core n).arrivals, x.1 ≠ k
  old : fixDue s (s.crew k) (s.crew k).lastIssue

/-- No companion core writes in an interval that a checker tests: a violation found there would stop its domain (R353). -/
structure NoCompanionWrites (s : State) : Prop where
  intervals : ∀ i ∈ s.ivals, ∀ a, i.writer = some a → a < 8 ∨ 56 ≤ a
  records : ∀ r ∈ s.recs, r.wr = true → r.agent < 8 ∨ 56 ≤ r.agent

/-- The handler crew of waiting lanes of one launch (R325): where it runs, what its registers hold, and whose context it has. -/
structure HandlerFormed (s t : State) (core : Nat) (ts : List LaneTag) (o h : Crew) : Prop where
  mem : ∀ a, memGet t.mem a = memGet s.mem a
  others : ∀ k, k ≠ crewKey core 96 → Map.find? t.crews k = Map.find? s.crews k
  waits : (t.core core).laneWait = []
  kind : h.kind = .handler
  user : h.priv = false
  ctx : h.ctx = o.ctx
  tags : h.tags = ts
  live : ∀ l, l < 32 → h.live.getLsbD l = decide (l < ts.length)
  active : h.active = h.live
  pend : ∀ l, l < ts.length → Map.find? h.pend l = some (Map.get {} s.trapCfg o.ctx).lhentry
  count : h.sv 2 = BitVec.ofNat 64 ts.length
  regs : ∀ l x, l < 32 → ts[l]? = some x → h.vpl 0 l = x.word ∧ h.vpl 2 l = x.pc ∧ h.vpl 6 l = x.a ∧ h.vpl 8 l = x.b ∧ h.vpl 10 l = x.c

/-- The lanes that wait at a core: all of one launch, and all older than the fix window. -/
structure LanesWait (s : State) (core : Nat) (ts : List LaneTag) (t0 : LaneTag) : Prop where
  all : (s.core core).laneWait = ts
  first : ts.head? = some t0
  one : ∀ x ∈ ts, x.lctr = t0.lctr
  old : ∀ x ∈ ts, fixDue s (s.crew x.crew) x.since
  most : ts.length ≤ 32
  slot : s.hasCrew (crewKey core 96) = false

/-- A trapped crew whose notice falls due: at first once its frame is as old as the fix window and its older effects have left,
and then every 256 clk (R320, R322). -/
def NoticeDue (s : State) (k : Nat) : Instr → Prop
  | .noticePush j => j = k ∧ (s.crew k).tries = 0 ∧ (s.crew k).held = [] ∧ (s.crew k).atoms = [] ∧ fixDue s (s.crew k) (s.crew k).heldSince
  | .noticeRetry j => j = k ∧ (s.crew k).tries ≠ 0 ∧ (s.crew k).heldSince + 256 ≤ s.clk
  | _ => False

/-- A write to the control region leaves t; before READY it is discarded (R356). -/
def Writes (s : State) (i : Instr) (t : State) : Prop := exec i s = .next (if s.status.ready = true then t else s)

/-- A crew that waits for a checkpoint. -/
def atCheckpoint (c : Crew) : Bool := match c.phase with | .waiting (.checkpoint ..) => true | _ => false

/-- Memory as it is without CXL or host windows: no bias flips, no injection is armed or has left words that differ, and every physical
address below the control region has its home at a compute die. -/
structure PlainMemory (s : State) : Prop where
  flip : s.bias.busy = false
  cxl : s.cxl = []
  host : s.host = []
  arm : s.inject.arm = false
  offs : s.offs = []

/-- Where context 0 finds a physical address below the control region (R47, R341). -/
def homeOf0 (s : State) (pa : Nat) : Nat := s.homePair 0 pa * 2 ^ 52 + pa

end Sys2Proof.Machine
end

