-- ==== Sys2Proof/Certificates/Slice0/Obligations.lean ====
section
/-! DEFINITION. The statements for the provers, one definition each. -/

open Sys2Proof Sys2Proof.Machine

/-! ## Encodings -/

/-- R82 to R101: every instruction whose fields pass the checks of R103 has a word, and that word decodes to it, so that no
bit of an operand is dropped. -/
def Obligations.EncodeThenDecodeIsIdentity : Prop :=
  ∀ i, WellFormed i = true → ∃ w, encode i = some w ∧ decode w = .ok i

/-- R85, R103: a word that decodes has only fields that the checks of R103 pass, and it is the word of the instruction that it
decodes to, so that no unused bit is passed over. -/
def Obligations.DecodedWordsAreTheirOwnEncodings : Prop :=
  ∀ w i, decode w = .ok i → WellFormed i = true ∧ encode i = some w

/-- Words of the manual's examples, each with the instruction that stands beside it there. -/
def Obligations.WorkedWordsDecode : Prop :=
  decode 0x0100081000700001 = .ok (.sadd 0 .i64 4 4 (.imm 1)) ∧
  decode 0x1A0000407FFB0000 = .ok (.sld 0 .d none 2 1 0) ∧
  decode 0x200008193FFFFFFC = .ok (.brc 0 .le 4 6 0x3FFFFFFC) ∧
  decode 0x302701602C048200 = .ok (.vadd ⟨2, 3, true⟩ .i32 false 11 11 9) ∧
  decode 0x6400008004010031 = .ok (.vfmaF32 ⟨0, 0, false⟩ .rz 4 1 2 3) ∧
  decode 0x7002004014030902 = .ok (.vfcmp ⟨0, 1, false⟩ .lt .f32 2 5 6) ∧
  decode 0x9200006008000900 = .ok (.vred ⟨0, 0, false⟩ .add (.flt .f32) false 3 2) ∧
  decode 0x940000800C000000 = .ok (.vext 0 false 4 3 0) ∧
  decode 0xAC00000001300000 = .ok (.fence 0 .rel .dev) ∧
  decode 0xC000100000000007 = .ok (.tres 0 1 7 none none) ∧
  decode 0xC500012000000C01 = .ok (.mma 0 (.blk .pb6) 0 1 2 0 0 1) ∧
  decode 0xD000001030000607 = .ok (.cpy 0 false 1 0 4 6 (some 7)) ∧
  decode 0xE600002800000003 = .ok (.qpush 0 3 10) ∧
  decode 0xF60000000008002A = .ok (.trap ⟨0, 0, false⟩ 0x2A true)

/-! ## A step -/

/-- R103, R104: a word that stands for no instruction traps its crew with cause 0x01, and DETAIL0 holds the kind. While an older
instruction may still trap, the crew waits at the word (R320). -/
def Obligations.UndefinedWordsTrap : Prop :=
  ∀ s k ks w e, Fetches s k ks w → decode w = .error e → (s.crew k).kind = .normal →
    ∃ t, step s = .next t ∧ t.mem = s.mem ∧ (t.crew k).s = (s.crew k).s ∧ (t.crew k).v = (s.crew k).v ∧ (t.crew k).p = (s.crew k).p ∧
      (t.crew k).widx = (s.crew k).widx ∧
      ((s.crew k).unsettled = false → (t.crew k).phase = .trapped ∧
        (t.crew k).trap = some { cause := 0x01, detail0 := BitVec.ofNat 64 e, pc := (s.crew k).pc, widx := (s.crew k).widx, word := w }) ∧
      ((s.crew k).unsettled = true → (t.crew k).phase = .waiting .settle)

/-- R103 to R105: when the word at a crew's next address decodes to an instruction that passes the checks made before its
own, a step executes that instruction. Around it, the step keeps the crew as it stood (R329), traps a crew whose block it
cannot leave (R140), and notes the timing of the word (R284). -/
def Obligations.StepRunsTheDecodedWord : Prop :=
  ∀ s k ks w i, Fetches s k ks w → decode w = .ok i →
    let s1 := s.issuing k ks w i
    let c := s1.crew k
    c.phase = .running → pastLive i (hdrLive c.hdr) = false → (c.kind = .test → testForbids i = false) →
    (privForm i = true → c.priv = true) → c.behind i = false →
    (c.stallBad i = none ∨ (c.check = false ∧ ∃ d t, c.stallBad i = some (d, t) ∧ t ≤ s1.clk)) →
    step s = wordEnds s1 k i (exec i (s1.snapshot k))

/-- What is due comes first: the oldest event of the agenda is executed before any crew's word. Once no crew is left to issue, the next
stage of the clk falls due; with the last of them an input that has arrived, of a kind that comes from outside, is executed after what
crews have stored to queues (R302), and what came from outside without an instruction follows. What ends the clk comes then, and the
next clk. The stages are those of the compute dies in ascending agent number, before the agents outside them (R266). Where events of
one agent fall in a clk is the model's choice (log entries 2 and 11). -/
def Obligations.StepRunsWhatIsDue : Prop :=
  (∀ s i is, s.stopped = false → s.agenda = i :: is → step s = exec i { s with agenda := is }) ∧
  (∀ s is p ps, s.stopped = false → s.agenda = [] → s.runq = [] → s.plan = is :: p :: ps →
    step s = .next { s with agenda := is, plan := p :: ps }) ∧
  (∀ s last, s.stopped = false → s.agenda = [] → s.runq = [] → s.plan = [last] → s.status.ready = true → s.input? = none →
    step s = .next { ({ s with plan := [] } : State).arrivals with agenda := ({ s with plan := [] } : State).arrivals.agenda ++ last }) ∧
  (∀ s last i is t, s.stopped = false → s.agenda = [] → s.runq = [] → s.plan = [last] → s.input? = some (i, is) → isInput i = true →
    exec i (({ s with plan := [], inputs := is } : State).platesAll.pushesUpTo none) = .next t → t.status.ready = true →
    step s = .next { t.arrivals with agenda := t.arrivals.agenda ++ last }) ∧
  (∀ s i is, s.stopped = false → s.agenda = [] → s.runq = [] → s.plan = [] → s.late = i :: is → step s = exec i { s with late := is }) ∧
  (∀ s, s.stopped = false → s.agenda = [] → s.runq = [] → s.plan = [] → s.late = [] → s.status.ready = true → step s = .next s.tick) ∧
  (∀ s i is, s.stopped = false → s.agenda = [] → s.runq = [] → s.plan = [] → s.late = [] → s.status.ready = false →
    s.input? = some (i, is) → isInput i = true →
    ∃ t, exec i (({ s with inputs := is } : State).platesAll.pushesUpTo none) = .next t ∧
      (t.status.ready = false → step s = .next t)) ∧
  (∀ s : State, ∃ dies : List Nat, dies.Pairwise (· < ·) ∧ (∀ d, d ∈ dies ↔ d < 8 ∧ s.dueDie d ≠ []) ∧
    s.stages = dies.map s.dueDie ++ [s.dueUnits ++ s.dueInstances])

/-- The machine stops with a fault only where a thermal trip has stopped its dies (R354): no instruction and no event ends a
run, whatever the state and the operands are. -/
def Obligations.OnlyAThermalTripStopsTheMachine : Prop :=
  (∀ i s, ∃ t, exec i s = .next t) ∧ (∀ s, s.stopped = false → ∃ t, step s = .next t) ∧
    (∀ s, s.stopped = true → step s = .fault .diesStopped)

/-- The values of the registers before power-good: R262, R276, R283, R286, R328, R341 and R350 give them. That DEV_MODE.MODE, whose value
the manual gives only at READY, is 0 until then is the model's choice (log entry 6). -/
def Obligations.ResetLeavesTheStatedValues : Prop :=
  State.reset.status.ready = false ∧ State.reset.status.stage = 0 ∧ State.reset.mode.mode = 0 ∧
  (∀ d, (State.reset.die d).tick = 64 ∧ (State.reset.die d).lease = 10) ∧
  (∀ d, Map.get {} State.reset.devCfg d = { chkErr := false, hold := true, cchk := true, rchk := true, crwErr := false,
                                            throt := true, check := false, fixErr := false, fix := 24 }) ∧
  State.reset.strike.en = true ∧
  (∀ c, (State.reset.ctx c).en = false ∧ (State.reset.ctx c).root = 0) ∧
  (∀ q, (Map.get {} State.reset.queues q).en = false ∧ (Map.get {} State.reset.queues q).pkts = []) ∧
  (∀ n, (State.reset.counter n).count = 0 ∧ (State.reset.counter n).done = false) ∧
  (∀ h, (Map.get {} State.reset.sheets h).en = false ∧ (Map.get {} State.reset.sheets h).epoch = 0) ∧
  State.reset.crews = [] ∧ State.reset.parties = []

/-- Memory is in its canonical form at reset; what an unlisted byte reads as is the model's choice (log entry 4). -/
def Obligations.ResetMemoryIsCanonical : Prop := State.reset.Inv

/-- Every step keeps memory in its canonical form: addresses rise, and no byte that reads as 0 is listed. That
unwritten bytes read as 0 is the model's choice (log entry 4). -/
def Obligations.EveryStepKeepsMemoryCanonical : Prop := ∀ s t, s.Inv → step s = .next t → t.Inv

/-! ## Scalar instructions -/

/-- The instructions whose effect is the write of one scalar register complete, write s0 without effect (R20), and change
nothing else: no other register, no flag, no byte of memory, no other crew (R126: "Scalar arithmetic raises no flag"). -/
def Obligations.ScalarInstructionsWriteOneRegister : Prop :=
  ∀ i s sd, scalarDest i = some sd → ∃ t, exec i s = .next t ∧ OnlyMe s t ∧ OnlyScalar sd s.me t.me

/-- R126, R127, on bit vectors of the type's width; a divisor of 0 is covered.
R128 to R133, R148, R170, R173, R174: the results of the other scalar instructions.
R217 and R216: `laycfg` answers all ones for a record that is not valid, and otherwise the conflict count, which R217
bounds by 31 for each unit. -/
def Obligations.ScalarResults : Prop :=
  (∀ i s sd r, scalarArith s.me i = some r → scalarDest i = some sd →
     ∃ t, exec i s = .next t ∧ t.me.sv sd = if sd = 0 then 0 else r) ∧
  (∀ i s sd r, scalarMisc s.me i = some r → scalarDest i = some sd →
     ∃ t, exec i s = .next t ∧ t.me.sv sd = if sd = 0 then 0 else r) ∧
  (∀ s st sd sa sb, sd ≠ 0 →
     ∃ t, exec (.laycfg st sd sa sb) s = .next t ∧
       (layValid (s.me.sv sa) = false → t.me.sv sd = 0xFFFFFFFFFFFFFFFF) ∧
       (layValid (s.me.sv sa) = true →
         t.me.sv sd = BitVec.ofNat 64 (layConflicts (s.me.sv sa) ((s.me.sv sb).toNat % 2 ^ 18))))

/-! ## Lanes -/

/-- R152: an instruction whose effect is the write of a vector register or pair, and that raises no flag, completes and
changes only the lanes that act: no other lane, no other register, no flag, no byte of memory, no other crew. -/
def Obligations.LaneInstructionsWriteTheirLanes : Prop :=
  ∀ i s m wide vd, laneDest s.me i = some (m, wide, vd) →
    ∃ t, exec i s = .next t ∧ OnlyMe s t ∧ OnlyLanes m wide vd s.me t.me

/-- R153 to R157: what the integer instructions write in each acting lane. A window register's lane reads as written when
the allocation holds the two registers of a pair apart, as R55 has it.
R166 to R168, R170, R171, R174: what the moves between lanes write. -/
def Obligations.LaneResults : Prop :=
  (∀ i s m wide vd l r, laneDest s.me i = some (m, wide, vd) → vectorArith s.me l i = some r → l < 32 →
     m.getLsbD l = true → 8 ≤ s.me.alloc → ∃ t, exec i s = .next t ∧ t.me.vn wide vd l = r) ∧
  (∀ i s m wide vd l r, laneDest s.me i = some (m, wide, vd) → crossLane s.me l i = some r → l < 32 →
     m.getLsbD l = true → 8 ≤ s.me.alloc → ∃ t, exec i s = .next t ∧ t.me.vn wide vd l = r)

/-- R108, R154, R172, R173: an instruction that writes one predicate writes it in the governed lanes, from operands read
before the write; p0 is never written, and nothing else changes.
R160: `vfcmp` writes the relation, .ne true and every other condition false where an operand is a NaN, and raises NV for a
signalling NaN alone. -/
def Obligations.PredicatesAreWritten : Prop :=
  (∀ i s h pd, predDest i = some (h, pd) →
    ∃ t, exec i s = .next t ∧ OnlyMe s t ∧ OnlyPred (s.me.gov h) pd s.me t.me ∧
      (pd ≠ 0 → ∀ l, l < 32 → (s.me.gov h).getLsbD l = true → (t.me.pr pd).getLsbD l = predBit s.me l i)) ∧
  (∀ s h cd ty pd va vb, pd ≠ 0 → (s.me.tflags.getLsbD 4 = true → ∀ l, l < 32 → (s.me.gov h).getLsbD l = true →
      (ty.fmt.decode (fIn s.me ty va l)).isSig = false ∧ (ty.fmt.decode (fIn s.me ty vb l)).isSig = false) →
    ∃ t, exec (.vfcmp h cd ty pd va vb) s = .next t ∧ OnlyMe s t ∧
      { s.me with p := t.me.p, laneFlags := t.me.laneFlags, widx := s.me.widx + 1 } = t.me ∧
      (∀ q, q ≠ pd → t.me.pr q = s.me.pr q) ∧ t.me.pr pd &&& ~~~(s.me.gov h) = s.me.pr pd &&& ~~~(s.me.gov h) ∧
      (∀ l, (s.me.gov h).getLsbD l = false → t.me.laneFl l = s.me.laneFl l) ∧
      ∀ l, l < 32 → (s.me.gov h).getLsbD l = true →
        let a := ty.fmt.decode (fIn s.me ty va l)
        let b := ty.fmt.decode (fIn s.me ty vb l)
        t.me.laneFl l = s.me.laneFl l ||| (if a.isSig || b.isSig then flNV else 0) ∧
        ((a.isNan || b.isNan) = true → (t.me.pr pd).getLsbD l = (cd == .ne)) ∧
        ∀ x y, ratOf a = some x → ratOf b = some y →
          (cd = .eq → (t.me.pr pd).getLsbD l = decide (x = y)) ∧ (cd = .ne → (t.me.pr pd).getLsbD l = decide (x ≠ y)) ∧
          (cd = .lt → (t.me.pr pd).getLsbD l = decide (x < y)) ∧ (cd = .le → (t.me.pr pd).getLsbD l = decide (x ≤ y)) ∧
          (cd = .gt → (t.me.pr pd).getLsbD l = decide (y < x)) ∧ (cd = .ge → (t.me.pr pd).getLsbD l = decide (y ≤ x)))

/-- R153, R174: `vaddc` writes sum and carry, and `kmv` to a view mask writes the words of the active lanes.
R160, R164, R165: `vfcls` gives one bit for the class of its operand; `vunpk` gives the exact values of the elements of
the two blocks of its operand; and `vpack` writes the words of the two blocks that R120 makes of its governed lanes' values to the
active lanes that have a word, with each block's flags in the governed lanes that supply it. With no governed lane it packs zeros, by
the model's choice (log entry 76). -/
def Obligations.CarryMaskClassAndBlockResults : Prop :=
  ((∀ s h wide pc vd va vb, pc ≠ 0 → 8 ≤ s.me.alloc →
     ∃ t, exec (.vaddc h wide pc vd va vb) s = .next t ∧ OnlyMe s t ∧
       { s.me with v := t.me.v, p := t.me.p, widx := s.me.widx + 1 } = t.me ∧
       (∀ q, q ≠ pc → t.me.pr q = s.me.pr q) ∧ t.me.pr pc &&& ~~~(s.me.gov h) = s.me.pr pc &&& ~~~(s.me.gov h) ∧
       ∀ l, l < 32 → (s.me.gov h).getLsbD l = true →
         let w := if wide then 64 else 32
         let sum := s.me.vn wide va l + s.me.vn wide vb l + if (s.me.pr pc).getLsbD l then 1 else 0
         t.me.vn wide vd l = sum % 2 ^ w ∧ (t.me.pr pc).getLsbD l = decide (2 ^ w ≤ sum)) ∧
   (∀ s st (k : BitVec 2) va,
     ∃ t, exec (.kmvToMask st k va) s = .next t ∧ OnlyMe s t ∧ { s.me with k := t.me.k, widx := s.me.widx + 1 } = t.me ∧
       (∀ j : BitVec 2, j ≠ k → t.me.kv j.toNat = s.me.kv j.toNat) ∧
       ∀ l, l < 32 → (t.me.kv k.toNat).extractLsb' (32 * l) 32 =
         if s.me.active.getLsbD l then s.me.vl va.toNat l else (s.me.kv k.toNat).extractLsb' (32 * l) 32)) ∧
  ((∀ s h ty vd va l, l < 32 → (s.me.gov h).getLsbD l = true → 8 ≤ s.me.alloc →
     ∃ t, exec (.vfcls h ty vd va) s = .next t ∧
       ∃ n, n < 10 ∧ t.me.vl vd.toNat l = 1 <<< n ∧
         match ty.fmt.decode (fIn s.me ty va l) with
         | .nan sig => n = if sig then 8 else 9
         | .inf neg => n = if neg then 0 else 7
         | .fin neg m _ =>
           if m = 0 then n = if neg then 3 else 4
           else if m < 2 ^ (ty.fmt.p - 1) then n = if neg then 2 else 5
           else n = if neg then 1 else 6) ∧
   (∀ s h fmt vd va l, l < 32 → (s.me.gov h).getLsbD l = true → 8 ≤ s.me.alloc →
     ∃ t, exec (.vunpk h fmt vd va) s = .next t ∧
       let blk := ofBytes (((List.range (2 * fmt.size)).map fun i =>
         (s.me.vl va.toNat (i / 4)).extractLsb' (8 * (i % 4)) 8).drop (fmt.size * (l / 16)) |>.take fmt.size)
       ratOf (fmt.elem blk (l % 16)) = ratOf (fmt32.decode (t.me.vl vd.toNat l).toNat)) ∧
   (∀ s h fmt vd va, NoLaneTraps s.me (.vpack h fmt vd va) (s.me.gov h) → 8 ≤ s.me.alloc →
     ∃ t b0 b1 f0 f1, exec (.vpack h fmt vd va) s = .next t ∧ OnlyMe s t ∧
       PacksBlock fmt (packInput s.me h va 0) b0 f0 ∧ PacksBlock fmt (packInput s.me h va 1) b1 f1 ∧
       { s.me with v := t.me.v, laneFlags := t.me.laneFlags, widx := s.me.widx + 1 } = t.me ∧
       ∀ l, l < 32 →
         (t.me.vl vd.toNat l = if s.me.active.getLsbD l && decide (l < fmt.size / 2)
           then BitVec.ofNat 32 ((b0 + b1 * 2 ^ (8 * fmt.size)) / 2 ^ (32 * l)) else s.me.vl vd.toNat l) ∧
         t.me.laneFl l = s.me.laneFl l ||| (if (s.me.gov h).getLsbD l then (if l < 16 then f0 else f1) else 0)))

/-- R108, R115, R152: where no lane meets a condition enabled in %tflags, an instruction that raises flags completes; it writes the lanes
that act, and raises flags only there. -/
def Obligations.FlaggingInstructionsWriteTheirLanes : Prop :=
  ∀ i s m wide vd, flagLaneDest s.me i = some (m, wide, vd) → NoLaneTraps s.me i m →
    ∃ t, exec i s = .next t ∧ OnlyMe s t ∧ OnlyLanesFlags m wide vd s.me t.me

/-- R116, R158 to R163, R169: the lanes and flags of the instructions that raise flags, from the exact operations. -/
def Obligations.FlaggingResults : Prop :=
  ∀ i s m wide vd l r, flagLaneDest s.me i = some (m, wide, vd) → flagLane s.me l i = some r → l < 32 →
    m.getLsbD l = true → 8 ≤ s.me.alloc → NoLaneTraps s.me i m →
    ∃ t, exec i s = .next t ∧ t.me.vn wide vd l = r.bits % 2 ^ (if wide then 64 else 32) ∧ t.me.laneFl l = s.me.laneFl l ||| r.fl

/-- R113, R114: an exact finite number is rounded once, to the value that the rounding code selects, and NX says whether
the delivered value differs from it; one that overflows gives what the table of codes gives. R112, R113, R125, R159: so the sum,
difference, product, quotient, fused product and sum, and root of finite operands are the exact results rounded once, and the exact zeros
have the signs of R113. The sign of a fused sum that cancels is that of code 0, by the model's reading (log entry 72). -/
def Obligations.ResultsAreRoundedOnce : Prop :=
  (∀ (ty : FTy) (r : Rnd) (neg : Bool) (num den : Nat) (e : Int), 0 < num → 0 < den →
    let x : ℚ := (if neg then -1 else 1) * ((num : ℚ) / (den : ℚ)) * (2 : ℚ) ^ e
    let f := ty.fmt
    let y := f.round r neg num den e
    (y.fl &&& flOF = 0 → ∃ v, Rounded f r x y.bits v ∧ ((y.fl &&& flNX = 0) ↔ v = x)) ∧
    (y.fl &&& flOF ≠ 0 → y.fl = flOF ||| flNX ∧ (∀ b w, holdsRat f b w → |w| < |x|) ∧
      y.bits = f.signBit neg +
        if r = .rz ∨ (r = .ru ∧ neg = true) ∨ (r = .rd ∧ neg = false) then f.maxBits else f.infBits)) ∧
  (∀ (ty : FTy) (r : Rnd) (a b : Nat) (x y : ℚ), let f := ty.fmt
    ratOf (f.decode a) = some x → ratOf (f.decode b) = some y →
    let na := (f.decode a).isNeg
    let nb := (f.decode b).isNeg
    OnceRounded f r (x + y) (if na = nb then na else r == .rd) (f.add r a b) ∧
    OnceRounded f r (x - y) (if na ≠ nb then na else r == .rd) (f.sub r a b) ∧
    OnceRounded f r (x * y) (na != nb) (f.mul r a b) ∧
    (y ≠ 0 → OnceRounded f r (x / y) (na != nb) (f.div r a b)) ∧
    (∀ c w, ratOf (f.decode c) = some w →
      OnceRounded f r (x * y + w) ((na != nb) && (f.decode c).isNeg) (f.fma r a b c)) ∧
    (0 < x → let z := f.sqrt r a
      z.fl &&& ~~~flNX = 0 ∧ ∃ v, RootRounded f r x z.bits v ∧ (z.fl &&& flNX = 0 ↔ v ^ 2 = x)) ∧
    (x = 0 → f.sqrt r a = ⟨f.signBit na, 0⟩))

/-- R112: a result of arithmetic or of a conversion that is a NaN is the default NaN, whatever the operands held.
R114: what sums, differences, products, quotients and roots give of a NaN or an infinity, of a zero divisor, and of a value below −0: the
default NaN with NV for an invalid operation, and an infinity with DZ for a quotient by zero. -/
def Obligations.NanResultsAreTheDefaultNan : Prop :=
  (∀ i s ty m wide vd l, arithFmt i = some ty → flagLaneDest s.me i = some (m, wide, vd) → l < 32 → m.getLsbD l = true →
    8 ≤ s.me.alloc → NoLaneTraps s.me i m →
    ∃ t, exec i s = .next t ∧
      ((ty.fmt.decode (t.me.vn wide vd l)).isNan = true → t.me.vn wide vd l = ty.fmt.nanBits)) ∧
  (∀ (ty : FTy) (r : Rnd) (a b : Nat) (z : FRes), let f := ty.fmt
    let x := f.decode a
    let y := f.decode b
    (specialSum f x y = some z → f.add r a b = z) ∧ (specialSum f x y.neg = some z → f.sub r a b = z) ∧
    (specialMul f x y = some z → f.mul r a b = z) ∧ (specialDiv f x y = some z → f.div r a b = z) ∧
    (specialRoot f x = some z → f.sqrt r a = z) ∧
    ∀ c, let w := f.decode c
      (specialMul f x y = some z → w.isNan = false →
        (z.bits = f.nanBits → f.fma r a b c = z) ∧
        ∀ n, z = infRes f n → f.fma r a b c = if w = .inf (!n) then invalid f else infRes f n) ∧
      (specialMul f x y = none → w.isNan = true → f.fma r a b c = nanRes f [w]) ∧
      (specialMul f x y = none → ∀ n, w = .inf n → f.fma r a b c = infRes f n))

/-- R161: the approximations give the values of the Exact column, with the flags shown there alone. Of a NaN, of which R161 itself says
nothing, they give the default NaN, with NV where it is signalling (R112, R114; log entry 75). -/
def Obligations.ApproximationsAreExactInTheExactColumn : Prop :=
  ∀ (ty : FTy) (a : Nat), ty ≠ .f64 → let f := ty.fmt
    a < 2 ^ f.width →
    (∀ op sig, f.decode a = .nan sig → approx op f a = ⟨f.nanBits, if sig then flNV else 0⟩) ∧
    (∀ neg, f.decode a = .inf neg →
      approx .rcp f a = ⟨f.signBit neg, 0⟩ ∧ approx .rsq f a = (if neg then invalid f else ⟨0, 0⟩) ∧
      approx .exp2 f a = (if neg then ⟨0, 0⟩ else infRes f false) ∧ approx .log2 f a = (if neg then invalid f else infRes f false) ∧
      approx .sin f a = invalid f ∧ approx .cos f a = invalid f) ∧
    (∀ x, ratOf (f.decode a) = some x → let neg := (f.decode a).isNeg
      let gives := fun (op : Approx) (v : ℚ) => (approx op f a).fl = 0 ∧ holdsRat f (approx op f a).bits v
      (x = 0 → approx .rcp f a = { infRes f neg with fl := flDZ } ∧ approx .rsq f a = { infRes f neg with fl := flDZ } ∧
        approx .log2 f a = { infRes f true with fl := flDZ }) ∧
      (x < 0 → approx .rsq f a = invalid f ∧ approx .log2 f a = invalid f) ∧
      (∀ k : ℤ, |x| = (2 : ℚ) ^ k → (∃ b, holdsRat f b ((2 : ℚ) ^ (-k))) → gives .rcp x⁻¹) ∧
      (∀ k : ℤ, x = (4 : ℚ) ^ k → gives .rsq ((2 : ℚ) ^ (-k))) ∧
      (∀ n : ℤ, x = n → f.emin ≤ n → (∃ b, holdsRat f b ((2 : ℚ) ^ n)) → gives .exp2 ((2 : ℚ) ^ n)) ∧
      (∀ k : ℤ, x = (2 : ℚ) ^ k → gives .log2 k) ∧
      (∀ n : ℤ, x = n → approx .sin f a = ⟨f.signBit neg, 0⟩ ∧ gives .cos (if n % 2 = 0 then 1 else -1)) ∧
      (∀ n : ℤ, x = n + 1 / 2 → approx .cos f a = ⟨0, 0⟩))

/-- R161: an approximation that the Exact column does not list delivers a value within the bound of its row of the exact function, with
NX, with OF where the result is infinite, and with UF where it is nonzero and below the smallest normal. Which value it is stays open
(log entry 61). -/
def Obligations.ApproximationsStayInTheirBounds : Prop :=
  ∀ (op : Approx) (ty : FTy) (a : Nat) (x : ℚ) (y : ℝ), ty ≠ .f64 → let f := ty.fmt
    a < 2 ^ f.width → ratOf (f.decode a) = some x → ¬ExactCase op f x → ApproxFn op x y →
    let r := approx op f a
    r.fl &&& flNX ≠ 0 ∧ r.fl &&& (flNV ||| flDZ) = 0 ∧
    ((∃ v, holdsRat f r.bits v ∧ InBound op f x v y ∧ r.fl &&& flOF = 0 ∧
        (r.fl &&& flUF ≠ 0 ↔ v ≠ 0 ∧ |v| < (2 : ℚ) ^ f.emin)) ∨
      (∃ n, f.decode r.bits = .inf n ∧ r.fl = flOF ||| flNX ∧ (n = true ↔ y < 0) ∧ ∀ b w, holdsRat f b w → |(w : ℝ)| < |y|))

/-- R39, R115, R158, R164, R325: a lane that meets a condition enabled in %tflags traps, in every instruction that raises flags: it writes
nothing and raises no flag, its crew of a launch stands with that lane out, and the lane waits for a handler with its operands. The other
lanes complete and raise their own flags. A `vpack` traps all the lanes that supply a block whose flags are enabled, and writes no word
that holds a byte of it. -/
def Obligations.EnabledConditionsTrapTheirLanes : Prop :=
  (∀ i s m wide vd, flagLaneDest s.me i = some (m, wide, vd) → (∀ h fmt d a, i ≠ .vpack h fmt d a) →
    s.me.kind ≠ .handler → s.me.kind ≠ .test → 8 ≤ s.me.alloc →
    let z := maskOf fun l => m.getLsbD l && (s.me.tflags &&& flagConds s.me l i) != 0
    z ≠ 0 →
    ∃ t, exec i s = .next t ∧ LanesTrap s t i z (fun l => flagConds s.me l i) (some (vd.toNat, wide)) none ∧ t.me.p = s.me.p ∧
      (∀ l, l < 32 → z.getLsbD l = true → t.me.vn wide vd l = s.me.vn wide vd l) ∧
      (∀ l, l < 32 → m.getLsbD l = false → t.me.vn wide vd l = s.me.vn wide vd l ∧ t.me.laneFl l = s.me.laneFl l) ∧
      (∀ l r, l < 32 → m.getLsbD l = true → z.getLsbD l = false → flagLane s.me l i = some r →
        t.me.vn wide vd l = r.bits % 2 ^ (if wide then 64 else 32) ∧ t.me.laneFl l = s.me.laneFl l ||| r.fl)) ∧
  (∀ s h cd ty pd va vb, pd ≠ 0 → s.me.kind ≠ .handler → s.me.kind ≠ .test → s.me.tflags.getLsbD 4 = true →
    let a := fun l => ty.fmt.decode (fIn s.me ty va l)
    let b := fun l => ty.fmt.decode (fIn s.me ty vb l)
    let z := maskOf fun l => (s.me.gov h).getLsbD l && ((a l).isSig || (b l).isSig)
    z ≠ 0 →
    ∃ t, exec (.vfcmp h cd ty pd va vb) s = .next t ∧
      LanesTrap s t (.vfcmp h cd ty pd va vb) z (fun _ => 16) none (some pd) ∧ t.me.v = s.me.v ∧
      (∀ q, q ≠ pd → t.me.pr q = s.me.pr q) ∧
      ∀ l, l < 32 → t.me.laneFl l = s.me.laneFl l ∧ (t.me.pr pd).getLsbD l =
        if (s.me.gov h).getLsbD l && !z.getLsbD l then FVal.holds cd (a l) (b l) else (s.me.pr pd).getLsbD l) ∧
  (∀ s h fmt vd va, s.me.kind ≠ .handler → s.me.kind ≠ .test → 8 ≤ s.me.alloc →
    ∃ t b0 b1 f0 f1, exec (.vpack h fmt vd va) s = .next t ∧
      PacksBlock fmt (packInput s.me h va 0) b0 f0 ∧ PacksBlock fmt (packInput s.me h va 1) b1 f1 ∧
      let fl := fun (l : Nat) => (if l < 16 then f0 else f1).setWidth 6
      let z := maskOf fun l => (s.me.gov h).getLsbD l && (s.me.tflags &&& fl l) != 0
      (z ≠ 0 → LanesTrap s t (.vpack h fmt vd va) z fl (some (vd.toNat, false)) none ∧ t.me.p = s.me.p ∧
        (∀ l, l < 32 → z.getLsbD l = false →
          t.me.laneFl l = s.me.laneFl l ||| (if (s.me.gov h).getLsbD l then (if l < 16 then f0 else f1) else 0)) ∧
        ∀ d, d < 32 →
          let kept := s.me.active.getLsbD d = false ∨ fmt.size / 2 ≤ d ∨
            ∃ l, l < 32 ∧ z.getLsbD l = true ∧ wordOfBlock fmt (l / 16) d
          (kept → t.me.vl vd.toNat d = s.me.vl vd.toNat d) ∧
          (¬kept → t.me.vl vd.toNat d = BitVec.ofNat 32 ((b0 + b1 * 2 ^ (8 * fmt.size)) / 2 ^ (32 * d)))))

/-! ## Control flow and the frontier -/

/-- R24, R139, R141: a taken branch gives every active lane its target as pending block and ends the run of its block; a
branch that is not taken only goes on to the next word.
R146, R147: `vbr` and `vbrx` set the pending blocks of the governed lanes and go on; with no governed lane nothing is
checked and nothing changes. -/
def Obligations.BranchesSetPendingBlocks : Prop :=
  (∀ i s p T, branchOf s.me i = some (p, T) →
     (p = true → GoodTarget s T → ∃ t, exec i s = .next t ∧ OnlyMe s t ∧ PendOf s.me.active T s.me t.me ∧
       t.me = { s.me with pend := t.me.pend, phase := .select }) ∧
     (p = false → ∃ t, exec i s = .next t ∧ OnlyMe s t ∧ t.me = { s.me with widx := s.me.widx + 1 })) ∧
  ((∀ s h d, let T := s.me.pc + BitVec.ofNat 64 (8 * s.me.widx) + 8 * d.signExtend 64
     (s.me.gov h ≠ 0 → GoodTarget s T) →
     ∃ t, exec (.vbr h d) s = .next t ∧ OnlyMe s t ∧ PendOf (s.me.gov h) T s.me t.me ∧
       t.me = { s.me with pend := t.me.pend, widx := s.me.widx + 1 }) ∧
   (∀ s h va, (∀ l, l < 32 → (s.me.gov h).getLsbD l = true → GoodTarget s (s.me.vpl va.toNat l)) →
     ∃ t, exec (.vbrx h va) s = .next t ∧ OnlyMe s t ∧ t.me = { s.me with pend := t.me.pend, widx := s.me.widx + 1 } ∧
       ∀ l, l < 32 → Map.find? t.me.pend l =
         if (s.me.gov h).getLsbD l then some (s.me.vpl va.toNat l) else Map.find? s.me.pend l))

/-- R140: a transfer whose target fails the check traps before it takes effect, with the cause of the first check that
fails: translation, then alignment, then the header. Of a `vbrx` the lowest failing lane gives the kind and the address, and LANES holds
every lane that fails as it does: in translation, or, where none does, in one of the other checks. -/
def Obligations.BadTargetsTrap : Prop :=
  (∀ i s T, s.me.kind = .normal →
    (branchOf s.me i = some (true, T) ∨ (∃ n, callOf s.me i = some (n, T)) ∨
      ∃ h d, i = .vbr h d ∧ s.me.gov h ≠ 0 ∧ T = s.me.pc + BitVec.ofNat 64 (8 * s.me.widx) + 8 * d.signExtend 64) →
    (∀ e, s.fetch s.cur T = .error e → ∃ t, exec i s = .next t ∧ TakesTrap s t 0x05 (BitVec.ofNat 64 (e + 16)) T 0) ∧
    (∀ w, s.fetch s.cur T = .ok w → T.toNat % 8 ≠ 0 → ∃ t, exec i s = .next t ∧ TakesTrap s t 0x03 3 T 0) ∧
    (∀ w, s.fetch s.cur T = .ok w → T.toNat % 8 = 0 → w.extractLsb' 56 8 ≠ 0xFF →
      ∃ t, exec i s = .next t ∧ TakesTrap s t 0x03 1 T 0)) ∧
  (∀ s h va l, s.me.kind = .normal → l < 32 → (s.me.gov h).getLsbD l = true →
    let T := fun j => s.me.vpl va.toNat j
    let unmapped := fun j => (s.me.gov h).getLsbD j = true ∧ ∃ e, s.fetch s.cur (T j) = .error e
    let bad := fun j => (s.me.gov h).getLsbD j = true ∧ ¬GoodTarget s (T j)
    (∀ e, s.fetch s.cur (T l) = .error e → (∀ j, j < l → ¬unmapped j) →
      ∃ t ls, exec (.vbrx h va) s = .next t ∧ TakesTrap s t 0x05 (BitVec.ofNat 64 (e + 16)) (T l) ls ∧
        ∀ j, j < 32 → (ls.getLsbD j = true ↔ unmapped j)) ∧
    ((∀ j, j < 32 → ¬unmapped j) → bad l → (∀ j, j < l → ¬bad j) →
      ∃ t ls, exec (.vbrx h va) s = .next t ∧ TakesTrap s t 0x03 (if (T l).toNat % 8 = 0 then 1 else 3) (T l) ls ∧
        ∀ j, j < 32 → (ls.getLsbD j = true ↔ bad j)))

/-- R29, R142, R289: a call pushes a frame with the fall-through, the active lanes and the window base, moves the window by
the slide, and sends the active lanes to its target; at a depth of 4,096 it traps with cause 0x0C, kind 3. After a `wrsr` of %window
in the same run it is the written base that is recorded and moved, by the model's choice (log entry 70). -/
def Obligations.CallsPushAFrame : Prop :=
  ∀ i s n T, callOf s.me i = some (n, T) → GoodTarget s T →
    (s.me.depth < 4096 → ∃ t, exec i s = .next t ∧ OnlyMe s t ∧ PendOf s.me.active T s.me t.me ∧
      t.me = { s.me with
        pend := t.me.pend, phase := .select, depth := s.me.depth + 1, baseNext := s.me.baseNext + n.setWidth 17
        frames := { ret := s.me.pc + BitVec.ofNat 64 (8 * (s.me.len + 1)), fmask := s.me.active, rmask := 0,
                    basep := s.me.baseNext.setWidth 16, slide := n } :: s.me.frames }) ∧
    (4096 ≤ s.me.depth → s.me.kind = .normal → ∃ t, exec i s = .next t ∧ TakesTrap s t 0x0C 3 0 0)

/-- R29, R143: `ret` adds the active lanes to the frame's returned lanes. While a lane of the frame is still inside, the frame
stays; when none is, it is popped, its returned lanes wait at the return header, and the window base is as before the call.
Outside any call `ret` traps with cause 0x03, kind 4. That a record which the core does not hold is read at the next block entry, not at
the pop, is the model's reading (log entry 41). -/
def Obligations.RetPopsAFrameWhenItsLanesHaveReturned : Prop :=
  (∀ s st, s.me.frames = [] → s.me.kind = .normal → ∃ t, exec (.ret st) s = .next t ∧ TakesTrap s t 0x03 4 0 0) ∧
  (∀ s st f fs, s.me.frames = f :: fs → f.fmask &&& s.me.live &&& ~~~(f.rmask ||| s.me.active) ≠ 0 →
    ∃ t, exec (.ret st) s = .next t ∧ OnlyMe s t ∧
      t.me = { s.me with pend := t.me.pend, phase := .select, frames := { f with rmask := f.rmask ||| s.me.active } :: fs } ∧
      ∀ l, l < 32 → Map.find? t.me.pend l = if s.me.active.getLsbD l then none else Map.find? s.me.pend l) ∧
  (∀ s st f fs, s.me.frames = f :: fs → s.me.live ≠ 0 → f.fmask &&& s.me.live &&& ~~~(f.rmask ||| s.me.active) = 0 →
    GoodTarget s f.ret → ((fs = [] ∧ s.me.depth ≤ 1) ∨ ∃ g gs, fs = g :: gs ∧ g.fmask &&& s.me.live &&& ~~~g.rmask ≠ 0) →
    ∃ t, exec (.ret st) s = .next t ∧ OnlyMe s t ∧
      t.me = { s.me with
        pend := t.me.pend, phase := .select, frames := fs, depth := s.me.depth - 1, baseNext := f.basep.setWidth 17 } ∧
      ∀ l, l < 32 → Map.find? t.me.pend l =
        if (f.fmask &&& (f.rmask ||| s.me.active) &&& s.me.live).getLsbD l then some f.ret
        else if s.me.active.getLsbD l then none else Map.find? s.me.pend l) ∧
  (∀ s st f, s.me.frames = [f] → 1 < s.me.depth → s.me.live ≠ 0 → f.fmask &&& s.me.live &&& ~~~(f.rmask ||| s.me.active) = 0 →
    GoodTarget s f.ret → ∃ t, exec (.ret st) s = .next t ∧ OnlyMe s t ∧
      t.me = { s.me with
        pend := t.me.pend, phase := .select, frames := [], depth := s.me.depth - 1, baseNext := f.basep.setWidth 17, pc := f.ret, widx := 0 })

/-- R144, R30: `exit` takes the governed lanes out of the live mask and their pending blocks away. The block goes on for the
active lanes that are left, the next block is chosen when there are none, and the crew ends when no lane is live. Inside a call the lanes
leave its frame, which is popped when none of its lanes is still inside, as by `ret` (R29).
R326: a lane of a handler crew that exits takes its origin lane out of the origin's live mask. A handler crew's exit takes place FIX_DEPTH
clk after it issues, by the model's choice (log entry 16).
R145: `nop` has no effect, and `yield` only makes the crew not ready in the next clk; both go on to the next word. -/
def Obligations.ExitRemovesLanesAndNopDoesNothing : Prop :=
  (∀ s h, s.me.kind = .normal → s.me.frames = [] →
     ∃ t, exec (.exit h) s = .next t ∧ OnlyMe s t ∧
       t.me.live = s.me.live &&& ~~~(s.me.gov h) ∧ t.me.active = s.me.active &&& ~~~(s.me.gov h) ∧
       (t.me.live ≠ 0 → ∀ l, l < 32 → Map.find? t.me.pend l = if (s.me.gov h).getLsbD l then none else Map.find? s.me.pend l) ∧
       (t.me.active ≠ 0 → t.me.widx = s.me.widx + 1 ∧ t.me.phase = s.me.phase) ∧
       (t.me.active = 0 → t.me.live ≠ 0 → t.me.phase = .select) ∧
       (t.me.active = 0 → t.me.live = 0 → t.me.phase = .ended) ∧
       t.me.s = s.me.s ∧ t.me.v = s.me.v ∧ t.me.p = s.me.p ∧ t.me.held = s.me.held) ∧
  (∀ s h f fs, s.me.kind = .normal → s.me.frames = f :: fs →
     let live := s.me.live &&& ~~~(s.me.gov h)
     let back := f.fmask &&& f.rmask &&& live
     let pend := fun (l : Nat) => if (s.me.gov h).getLsbD l then none else Map.find? s.me.pend l
     (s.me.active &&& ~~~(s.me.gov h) ≠ 0 → ∃ t, exec (.exit h) s = .next t ∧ OnlyMe s t ∧
       t.me = { s.me with live, active := s.me.active &&& ~~~(s.me.gov h), pend := t.me.pend, widx := s.me.widx + 1 } ∧
       ∀ l, l < 32 → Map.find? t.me.pend l = pend l) ∧
     (s.me.active &&& ~~~(s.me.gov h) = 0 → live = 0 → ∃ t, exec (.exit h) s = .next t ∧ OnlyMe s t ∧
       t.me = { s.me with live := 0, active := 0, pend := [], frames := [], depth := 0, phase := .ended }) ∧
     (s.me.active &&& ~~~(s.me.gov h) = 0 → f.fmask &&& live &&& ~~~f.rmask ≠ 0 → ∃ t, exec (.exit h) s = .next t ∧ OnlyMe s t ∧
       t.me = { s.me with live, active := 0, pend := t.me.pend, phase := .select } ∧ ∀ l, l < 32 → Map.find? t.me.pend l = pend l) ∧
     (s.me.active &&& ~~~(s.me.gov h) = 0 → live ≠ 0 → f.fmask &&& live &&& ~~~f.rmask = 0 → (back ≠ 0 → GoodTarget s f.ret) →
       ((fs = [] ∧ s.me.depth ≤ 1) ∨ ∃ g gs, fs = g :: gs ∧ g.fmask &&& live &&& ~~~g.rmask ≠ 0) →
       ∃ t, exec (.exit h) s = .next t ∧ OnlyMe s t ∧
         t.me = { s.me with
           live, active := 0, pend := t.me.pend, phase := .select, frames := fs, depth := s.me.depth - 1
           baseNext := f.basep.setWidth 17 } ∧
         ∀ l, l < 32 → Map.find? t.me.pend l = if back.getLsbD l then some f.ret else pend l) ∧
     (s.me.active &&& ~~~(s.me.gov h) = 0 → live ≠ 0 → f.fmask &&& live &&& ~~~f.rmask = 0 → (back ≠ 0 → GoodTarget s f.ret) →
       fs = [] → 1 < s.me.depth → ∃ t, exec (.exit h) s = .next t ∧ OnlyMe s t ∧
         t.me = { s.me with
           live, active := 0, pend := t.me.pend, phase := .select, frames := [], depth := s.me.depth - 1
           baseNext := f.basep.setWidth 17, pc := f.ret, widx := 0 })) ∧
  (∀ s h, s.me.kind = .handler → s.me.released = false → ∃ t, exec (.exit h) s = .next t ∧ OnlyMe s t ∧ Waits s t (.release .crew)) ∧
  (∀ s h, s.me.kind = .handler → s.me.released = true → s.me.frames = [] →
     (∀ (l : Nat) (g : LaneTag), s.me.tags[l]? = some g → g.crew ≠ s.cur ∧ g.lane < 32 ∧ s.hasCrew g.crew = true ∧ (s.crew g.crew).kind = .normal) →
     ∃ t, exec (.exit h) s = .next t ∧ t.mem = s.mem ∧
       t.me.live = s.me.live &&& ~~~(s.me.gov h) ∧ t.me.active = s.me.active &&& ~~~(s.me.gov h) ∧
       (t.me.active ≠ 0 → t.me.widx = s.me.widx + 1 ∧ t.me.phase = s.me.phase) ∧ (t.me.live = 0 → t.me.phase = .ended) ∧
       ∀ (l : Nat) (g : LaneTag), l < 32 → (s.me.gov h).getLsbD l = true → s.me.tags[l]? = some g → let o := t.crew g.crew
         o.live.getLsbD g.lane = false ∧ o.active.getLsbD g.lane = false ∧ o.out.getLsbD g.lane = false ∧
           Map.find? o.pend g.lane = none ∧ o.v = (s.crew g.crew).v) ∧
  ((∀ s st, ∃ t, exec (.nop st) s = .next t ∧ OnlyMe s t ∧ t.me = { s.me with widx := s.me.widx + 1 }) ∧
   (∀ s st, ∃ t, exec (.yield st) s = .next t ∧ OnlyMe s t ∧
     t.me = { s.me with widx := s.me.widx + 1, phase := .waiting (.yielded (s.clk + 2)), blockedSince := s.clk }))

/-! ## Special registers and time -/

/-- R99, R100, R149, R341: what a read of each special register gives, in s or in the governed lanes of v. %cancel and %clock are those of
the clk of issue, where R149 leaves the clk open (log entry 64).
R99, R102, R149: what a write of a special register sets; %spill and %window trap with cause 0x02 in user mode. -/
def Obligations.SpecialRegistersAreReadAndWritten : Prop :=
  ((∀ s st sd r, sd ≠ 0 → r ≠ .lane → ∃ t, exec (.rdsrScalar st sd r) s = .next t ∧ t.mem = s.mem ∧
       { s.me with s := t.me.s, widx := s.me.widx + 1 } = t.me ∧ (∀ x, x ≠ sd → t.me.sv x = s.me.sv x) ∧
       (r ≠ .clock → r ≠ .datum → OnlyMe s t) ∧
       (r = .flags → t.me.sv sd = s.me.ctFlags.setWidth 64) ∧
       ∀ e n, (r = .core ∨ r = .clus ∨ r = .die → LogicalDie s e) → uniformSpec s e r = some n → t.me.sv sd = BitVec.ofNat 64 n) ∧
   (∀ s st r, ∃ t, exec (.rdsrScalar st 0 r) s = .next t ∧ t.mem = s.mem ∧ t.me = { s.me with widx := s.me.widx + 1 }) ∧
   (∀ s h vd r, 8 ≤ s.me.alloc → ∃ t, exec (.rdsrVector h vd r) s = .next t ∧ t.mem = s.mem ∧
       OnlyLanes (s.me.gov h) r.wide vd s.me t.me ∧ (r ≠ .clock → r ≠ .datum → OnlyMe s t) ∧
       ∀ l, l < 32 → (s.me.gov h).getLsbD l = true →
         (r = .lane → t.me.vn r.wide vd l = l) ∧ (r = .flags → t.me.vn r.wide vd l = (s.me.laneFl l).toNat) ∧
         ∀ e n, (r = .core ∨ r = .clus ∨ r = .die → LogicalDie s e) → uniformSpec s e r = some n → t.me.vn r.wide vd l = n % 2 ^ (if r.wide then 64 else 32))) ∧
  ((∀ s st r sb, r.writable = true → (r.privileged = true → s.me.priv = true) →
     ∃ t, exec (.wrsrScalar st r sb) s = .next t ∧ OnlyMe s { t with parties := s.parties } ∧
       (∀ p, p ≠ s.me.party → Map.find? t.parties p = Map.find? s.parties p) ∧ (r ≠ .spill → t.parties = s.parties) ∧
       let x := s.me.sv sb
       match r with
       | .flags => t.me = { s.me with ctFlags := x.setWidth 5, widx := s.me.widx + 1 }
       | .tflags => t.me = { s.me with tflags := x.setWidth 6, widx := s.me.widx + 1 }
       | .bkconf => t.me = { s.me with bkconf := x.setWidth 32, widx := s.me.widx + 1 }
       | .spill => t.me = { s.me with spill := x &&& 0xFFFFFFFFFFFFFF80, widx := s.me.widx + 1 }
       | .window => t.me = { s.me with baseNext := (x.setWidth 16).setWidth 17, widx := s.me.widx + 1 }
       | _ => False) ∧
   (∀ s st r sb, r.privileged = true → s.me.priv = false → s.me.kind = .normal →
     ∃ t, exec (.wrsrScalar st r sb) s = .next t ∧ TakesTrap s t 0x02 0 0 0) ∧
   (∀ s h va, ∃ t, exec (.wrsrVector h va) s = .next t ∧ OnlyMe s t ∧
     { s.me with laneFlags := t.me.laneFlags, widx := s.me.widx + 1 } = t.me ∧
     ∀ l, l < 32 → t.me.laneFl l = if (s.me.gov h).getLsbD l then (s.me.vl va.toNat l).setWidth 5 else s.me.laneFl l))

/-- R150: `rdtime` gives a time within 16 ns of the datum clock, or the latest time already returned where that is greater, so
that no later read is below it; it marks its party always-rerun. Which of those times it is stays open (log entry 54). -/
def Obligations.TimeNeverGoesBack : Prop :=
  ∀ s st sd, sd ≠ 0 → s.datum.count < 2 ^ 64 → s.datum.last < 2 ^ 64 →
    ∃ t, exec (.rdtime st sd) s = .next t ∧ t.mem = s.mem ∧ { s.me with s := t.me.s, widx := s.me.widx + 1 } = t.me ∧
      (∀ x, x ≠ sd → t.me.sv x = s.me.sv x) ∧ s.datum.last ≤ (t.me.sv sd).toNat ∧ t.datum.last = (t.me.sv sd).toNat ∧
      ((t.me.sv sd).toNat = s.datum.last ∨ (s.datum.count - 16 ≤ (t.me.sv sd).toNat ∧ (t.me.sv sd).toNat ≤ s.datum.count)) ∧
      (t.party s.me.party).trace.why.getLsbD 2 = true

/-! ## Memory -/

/-- R44, R45, R134, R176, R178, R187: an access with a misaligned lane traps with cause 0x04, the mask of those lanes, and the
address of the lowest. An aligned access of which a lane does not translate traps with cause 0x05; the detail gives the kind and
the address of the lowest such lane (log entry 21), and the mask. Neither changes a register or memory. -/
def Obligations.AccessesThatCannotBeMadeTrap : Prop :=
  ∀ i s need w reqs r rs, accessOf s.me i = some (need, w, reqs) → s.me.kind = .normal →
    (reqs.filter (fun r => decide (r.2.toNat % w ≠ 0)) = r :: rs →
      ∃ t, exec i s = .next t ∧ TakesTrap s t 0x04 0 r.2 (lanesMask ((r :: rs).map (·.1)))) ∧
    (∀ e, (∀ r ∈ reqs, r.2.toNat % w = 0) →
      reqs.filter (fun r => match s.xlate s.me.ctx r.2 need with | .ok _ => false | .error _ => true) = r :: rs →
      s.xlate s.me.ctx r.2 need = .error e →
      ∃ t, exec i s = .next t ∧ TakesTrap s t 0x05 (BitVec.ofNat 64 e) r.2 (lanesMask ((r :: rs).map (·.1))))

/-- R44, R45, R338: what a translation answers: kind 1 for an address that is not canonical, kind 2 where no leaf maps it,
kind 3 where the leaf does not allow the access, and otherwise the address in the leaf's page. That every translation agrees with the tables as
they stand is the model's choice (log entry 12), and so are the high bits of a page's number (log entry 67). -/
def Obligations.TranslationAnswers : Prop :=
  ∀ (s : State) (ctx : Nat) (va : W64) need,
    ((∃ b : Bool, ∀ i, 56 ≤ i → i < 64 → va.getLsbD i = b) ∨ s.xlate ctx va need = .error 1) ∧
    (∀ pa, s.xlate ctx va need = .ok pa → ∃ lf, s.walk ctx va = some lf ∧ lf.allows need = true ∧
      pa % 2 ^ lf.size = va.toNat % 2 ^ lf.size) ∧
    (s.xlate ctx va need = .error 2 → s.walk ctx va = none) ∧
    (s.xlate ctx va need = .error 3 → ∃ lf, s.walk ctx va = some lf ∧ lf.allows need = false)

/-- R135, R180, R274: a load whose bytes are in the core's L1, and that overtakes no operation which orders it, delivers them, zero-extended, to its register or to the governed lanes,
and changes no other register and no memory. -/
def Obligations.LoadsDeliverTheirBytes : Prop :=
  (∀ s st w o sd sb ofs a, Reaches s .read w.bytes [(32, addrIdx s.me sb none ofs w.bytes 32)] [a] → InReach s [a] w.bytes →
    InOrder s o (accLocs [a] w.bytes) →
    ∃ t, exec (.sld st w o sd sb ofs) s = .next t ∧ OnlyAccess s t ∧
      { s.me with s := t.me.s, readWts := t.me.readWts, readSeen := t.me.readSeen, seen := t.me.seen, widx := s.me.widx + 1 } = t.me ∧
      (∀ r, r ≠ sd → t.me.sv r = s.me.sv r) ∧ t.me.sv sd = if sd = 0 then 0 else BitVec.ofNat 64 (readValue s a w.bytes)) ∧
  (∀ i s w o vd reqs as, 8 ≤ s.me.alloc → accessOf s.me i = some (.read, w.bytes, reqs) →
    ((∃ h sb idx ofs, i = .vld h w o vd sb idx ofs) ∨ ∃ h sb idx ofs, i = .vgth h w o vd sb idx ofs) →
    Reaches s .read w.bytes reqs as → InReach s as w.bytes → InOrder s o (accLocs as w.bytes) →
    ∃ t, exec i s = .next t ∧ OnlyAccess s t ∧
      { s.me with v := t.me.v, readWts := t.me.readWts, readSeen := t.me.readSeen, seen := t.me.seen, widx := s.me.widx + 1 } = t.me ∧
      OnlyLanes (maskOf fun l => (reqs.map (·.1)).contains l) (w == .d) vd s.me { t.me with readWts := s.me.readWts, readSeen := s.me.readSeen, seen := s.me.seen } ∧
      ∀ a ∈ as, t.me.vn (w == .d) vd a.lane = readValue s a w.bytes)

/-- R52, R60, R62, R136, R177, R181, R287: a store holds its bytes, the highest lane's last, behind the release that its order asks
for, until they leave the core; memory does not change before, and no register does. The crew goes on at once, and itself reads
what it stored, outside the control region: of two stores to a byte the later. -/
def Obligations.StoresHoldTheirBytes : Prop :=
  (∀ i s need w reqs as o, accessOf s.me i = some (need, w, reqs) → storeOrder i = some o → Reaches s .write w reqs as →
    ∃ t, exec i s = .next t ∧ OnlyAccess s t ∧
      t.me = { s.me with
        held := if as = [] ∨ w = 0 then (if o.isSome then s.me.held ++ [⟨s.clk, .fence, relOf o, []⟩] else s.me.held)
          else s.me.held ++ [⟨s.clk, .store (storedBytes as w (storeValue s.me i)), relOf o, []⟩]
        widx := s.me.widx + 1 }) ∧
  (∀ (s : State) (core : Nat) cs (loc : Nat), locCtl loc = false → (s.hold (.store cs)).readByte core (s.hold (.store cs)).me loc =
    match (cs.filter fun c => c.1 == loc).getLast? with
    | some c => c.2
    | none => s.readByte core s.me loc)

/-- R135, R180: a load whose bytes are not in the core's L1 leaves the crew waiting, by the model's choice (log entry 15), with the
reads of the missing spans among the events that are due. No register and no memory changes.
R137, R182: a prefetch changes no architectural state, whatever its addresses are: it only asks for lines. -/
def Obligations.AccessesWaitAndPrefetchesChangeNothing : Prop :=
  ((∀ i s w reqs as x, accessOf s.me i = some (.read, w, reqs) → Reaches s .read w reqs as →
     s.atomPending s.cur (accLocs as w) = false →
     x ∈ spansOf (((accLocs as w).filter fun a => !locCtl a).map fun a => (a, (0 : Byte))) →
     ((s.core s.myCore).copy? x.1 x.2.1 x.2.2).isNone = true →
     ∃ t, exec i s = .next t ∧ Waits s t .load ∧
       Instr.l1Read s.myCore x.1 x.2.1 x.2.2 ∈ t.agenda ∧ t.mem = s.mem ∧ t.cores = s.cores)) ∧
  ((∀ s st sb ofs, ∃ t is, exec (.sprf st sb ofs) s = .next t ∧ t.me = { s.me with widx := s.me.widx + 1 } ∧
     (∀ k, k ≠ s.cur → Map.find? t.crews k = Map.find? s.crews k) ∧ { t with crews := s.crews, agenda := s.agenda } = s ∧
     t.agenda = s.agenda ++ is ∧ ∀ i ∈ is, ∃ line, i = .l1Read s.myCore line 0 31) ∧
   (∀ s h w sb idx ofs, ∃ t is, exec (.vprf h w sb idx ofs) s = .next t ∧ t.me = { s.me with widx := s.me.widx + 1 } ∧
     (∀ k, k ≠ s.cur → Map.find? t.crews k = Map.find? s.crews k) ∧ { t with crews := s.crews, agenda := s.agenda } = s ∧
     t.agenda = s.agenda ++ is ∧ ∀ i ∈ is, ∃ line, i = .l1Read s.myCore line 0 31))

/-- R183 to R185: `vldp` and `sldp` deliver the bytes at their offsets to the governed lanes or to the register, when the plate is the
crew's, every offset is aligned and inside it, and no sector that they read is poisoned; `vstp` holds its bytes until they leave the
core. Each adds its bank conflicts to %bkconf, and goes on. No memory changes, and of the rest of the state nothing but the core's
clock. With no governed lane, `vldp` and `vstp` only go on. R192: a load of bytes on which a `patom` of the crew is still in the core
waits for it.
R184, R200, R323: the order of the checks of a plate access: the handle, the owner, the alignment, the bounds. The lanes of
the first two are the governed lanes (log entry 20), and an offset reads S(SBASE) as unsigned (log entry 26). -/
def Obligations.PlateAccessesCompleteOrTrap : Prop :=
  (∀ s h (wd : Width) vd t' sb idx ofs, 8 ≤ s.me.alloc →
     let w := wd.bytes
     let offs := ((List.range 32).filter fun l => (s.me.gov h).getLsbD l).map fun l =>
       (l, offsetOf s.me (s.me.sv sb).toNat idx ofs w l)
     (offs = [] → ∃ t, exec (.vldp h wd vd t' sb idx ofs) s = .next t ∧ OnlyMe s t ∧ t.me = { s.me with widx := s.me.widx + 1 }) ∧
     (∀ p, offs ≠ [] → PlateReach s t' w offs p → plateClean s p offs → ¬noPatomHeld s p w offs →
       ∃ t, exec (.vldp h wd vd t' sb idx ofs) s = .next t ∧ OnlyAccess s t ∧ Waits s t .load) ∧
     (∀ p, offs ≠ [] → PlateReach s t' w offs p → plateClean s p offs → noPatomHeld s p w offs →
       ∃ t, exec (.vldp h wd vd t' sb idx ofs) s = .next t ∧ OnlyAccess s t ∧
         { s.me with v := t.me.v, bkconf := t.me.bkconf, readSeen := t.me.readSeen, ivals := t.me.ivals, widx := s.me.widx + 1 } = t.me ∧
         t.me.bkconf = (s.me.addConf w (offs.map fun o => (o.1, 1024 * p.base + o.2.toNat))).bkconf ∧
         OnlyLanes (s.me.gov h) (wd == .d) vd s.me { t.me with bkconf := s.me.bkconf, readSeen := s.me.readSeen, ivals := s.me.ivals } ∧
         ∀ o ∈ offs, t.me.vn (wd == .d) vd o.1 = plateValue s p o.2 w)) ∧
  (∀ s st (wd : Width) sd t' sb ofs p,
     let w := wd.bytes
     let o := offsetOf s.me (s.me.sv sb).toNat none ofs w 32
     PlateReach s t' w [(32, o)] p → plateClean s p [(32, o)] →
       (¬noPatomHeld s p w [(32, o)] →
         ∃ t, exec (.sldp st wd sd t' sb ofs) s = .next t ∧ OnlyAccess s t ∧ Waits s t .load) ∧
       (noPatomHeld s p w [(32, o)] → ∃ t, exec (.sldp st wd sd t' sb ofs) s = .next t ∧ OnlyAccess s t ∧
         { s.me with s := t.me.s, bkconf := t.me.bkconf, readSeen := t.me.readSeen, ivals := t.me.ivals, widx := s.me.widx + 1 } = t.me ∧
         t.me.bkconf = (s.me.addConf w [(32, 1024 * p.base + o.toNat)]).bkconf ∧ (∀ r, r ≠ sd → t.me.sv r = s.me.sv r) ∧
         t.me.sv sd = if sd = 0 then 0 else BitVec.ofNat 64 (plateValue s p o w))) ∧
  (∀ s h (wd : Width) va t' sb idx ofs,
     let w := wd.bytes
     let offs := ((List.range 32).filter fun l => (s.me.gov h).getLsbD l).map fun l =>
       (l, offsetOf s.me (s.me.sv sb).toNat idx ofs w l)
     (offs = [] → ∃ t, exec (.vstp h wd va t' sb idx ofs) s = .next t ∧ OnlyMe s t ∧ t.me = { s.me with widx := s.me.widx + 1 }) ∧
     (∀ p, offs ≠ [] → PlateReach s t' w offs p →
       ∃ t, exec (.vstp h wd va t' sb idx ofs) s = .next t ∧ OnlyAccess s t ∧
         t.me = { s.me with
           ivals := t.me.ivals, bkconf := (s.me.addConf w (offs.map fun o => (o.1, 1024 * p.base + o.2.toNat))).bkconf, widx := s.me.widx + 1
           held := s.me.held ++ [⟨s.clk, .plate (s.plateCore p) p.num (lanesMask (offs.map (·.1))) (offs.flatMap fun o => (List.range w).map fun j =>
             (1024 * p.base + o.2.toNat + j, BitVec.ofNat 8 (s.me.vn (wd == .d) va o.1 / 256 ^ j))), none, []⟩] })) ∧
  (∀ i s t' w offs, plateOf s.me i = some (t', w, offs) → offs ≠ [] → s.me.kind = .normal →
     (s.plate? t' = none → ∃ t, exec i s = .next t ∧ TakesTrap s t 0x0B 1 0 (lanesMask (offs.map (·.1)))) ∧
     (∀ p, s.plate? t' = some p → p.owner = true →
       ∃ t, exec i s = .next t ∧ TakesTrap s t 0x0B (BitVec.ofNat 64 (2 + 256 * p.num)) 0 (lanesMask (offs.map (·.1)))) ∧
     (∀ p o os, s.plate? t' = some p → p.owner = false → offs.filter (fun o => decide (o.2 % (w : Int) ≠ 0)) = o :: os →
       ∃ t, exec i s = .next t ∧ TakesTrap s t 0x04 0 (BitVec.ofInt 64 o.2) (lanesMask ((o :: os).map (·.1)))) ∧
     (∀ p o os, s.plate? t' = some p → p.owner = false → (∀ o ∈ offs, o.2 % (w : Int) = 0) →
       offs.filter (fun o => decide (o.2 < 0 ∨ ((1024 * p.grans : Nat) : Int) < o.2 + (w : Int))) = o :: os →
       ∃ t, exec i s = .next t ∧
         TakesTrap s t 0x0B (BitVec.ofNat 64 (3 + 256 * p.num)) (BitVec.ofInt 64 o.2) (lanesMask ((o :: os).map (·.1)))))

/-! ## Atomics and fences -/

/-- R187 to R192, R287: `vatom`, `satom` and `vredm` whose addresses are aligned and translate, and `patom` inside a plate of the
crew's, send their requests on in lane order and go on to the next word, behind the release of their order; a form that returns a
value notes where the old values go. Memory and the registers do not change before the requests are performed. A form with no
governed lane sends nothing. -/
def Obligations.AtomicsSendTheirRequests : Prop :=
  (∀ s h op ty sc ord sat vd sb idx as,
    Reaches s .both (tyBits ty / 8) (lanesAt (s.me.gov h) (addrIdx s.me sb idx 0 (tyBits ty / 8))) as →
    ∃ t, exec (.vatom h op ty sc ord sat vd sb idx) s = .next t ∧ (as = [] → AtomicIdle s t sc ord) ∧
      (as ≠ [] → AtomicSent s t as op ty sc ord sat (some (.lanes vd.toNat ty.wide))
        (atomArgs s.me ty.wide (vd.toNat + if ty.wide then 2 else 1) vd.toNat))) ∧
  (∀ s st op ty sc ord sat sd sa sb a, Reaches s .both (tyBits ty / 8) [(32, s.me.sv sb)] [a] →
    ∃ t, exec (.satom st op ty sc ord sat sd sa sb) s = .next t ∧
      AtomicSent s t [a] op ty sc ord sat (some (.scalar sd ty)) fun _ => (s.me.sv sa, s.me.sv sd)) ∧
  (∀ s h op ty sc rel sat (x : VReg) sb idx as,
    Reaches s .write (tyBits ty / 8) (lanesAt (s.me.gov h) (addrIdx s.me sb idx 0 (tyBits ty / 8))) as →
    let ord : Ord := if rel then .rel else .rlx
    ∃ t, exec (.vredm h op ty sc rel sat x sb idx) s = .next t ∧ (as = [] → AtomicIdle s t sc ord) ∧
      (as ≠ [] → AtomicSent s t as (.red op) ty sc ord sat none (atomArgs s.me ty.wide x.toNat x.toNat))) ∧
  (∀ s h op ty clus ord sat (vd : VReg) t' idx,
    let w := tyBits ty / 8
    let sc : Scope := if clus then .clus else .crew
    let offs := ((List.range 32).filter fun l => (s.me.gov h).getLsbD l).map fun l => (l, offsetOf s.me 0 idx 0 w l)
    (offs = [] → ∃ t, exec (.patom h op ty clus ord sat vd t' idx) s = .next t ∧ AtomicIdle s t sc ord) ∧
    (∀ p, offs ≠ [] → PlateReach s t' w offs p →
      ∃ t g o, exec (.patom h op ty clus ord sat vd t' idx) s = .next t ∧ (∀ a, memGet t.mem a = memGet s.mem a) ∧
        (∀ k, k ≠ s.cur → Map.find? t.crews k = Map.find? s.crews k) ∧
        t.me = { s.me with
          ivals := t.me.ivals, held := s.me.held ++ [⟨s.clk, .plateAtom (s.plateCore p) p.num g, relOf (relScope ord sc), []⟩]
          atoms := s.me.atoms ++ [o], widx := s.me.widx + 1 } ∧
        g.op = op ∧ g.ty = ty ∧ g.sat = sat ∧ o.dest = (AtomDest.lanes vd.toNat ty.wide).logical s.me ∧ o.acq = acqScope ord sc ∧
        g.reqs.map (fun r => (r.lane, r.loc, r.x, r.c)) = offs.map fun o => (o.1, 1024 * p.base + o.2.toNat,
          atomArgs s.me ty.wide (vd.toNat + if ty.wide then 2 else 1) vd.toNat o.1)))

/-- R188: the value that each operation puts in memory, on integers and on binary numbers, whose sums are rounded once by code 0 and whose
minimum and maximum are those of `vfmin` and `vfmax`; and R63: what `cas` leaves when it does not match. -/
def Obligations.AtomicOperationResults : Prop :=
  (∀ (ty : FTy) (sat : Bool) (old x c : Nat), ty ≠ .f16 → old < 2 ^ ty.bits → let f := ty.fmt
    let a := f.decode old
    let b := f.decode x
    let val := fun (op : Aop) => atomVal op (.flt ty) sat old x c
    (∃ z, val (.red .add) = some z.bits ∧
      (∀ p q, ratOf a = some p → ratOf b = some q → OnceRounded f .rn (p + q) (a.isNeg && b.isNeg) z) ∧
      ∀ y, specialSum f a b = some y → z = y) ∧
    (∀ mx : Bool, let v := val (.red (if mx then .max else .min))
      ((a.isNan && b.isNan) = true → v = some f.nanBits) ∧ (a.isNan = true → b.isNan = false → v = some x) ∧
      (a.isNan = false → b.isNan = true → v = some old) ∧
      ∀ p q, ratOf a = some p → ratOf b = some q → ∃ z, v = some z ∧ (z = old ∨ z = x) ∧
        ratOf (f.decode z) = some (if mx then max p q else min p q) ∧
        (p = 0 → q = 0 → (f.decode z).isNeg = if mx then a.isNeg && b.isNeg else a.isNeg || b.isNeg)) ∧
    val .xchg = some (x % 2 ^ ty.bits) ∧ val .cas = if old = c % 2 ^ ty.bits then some (x % 2 ^ ty.bits) else none) ∧
  (∀ (ty : ITy) (sat : Bool) (old x c : Nat), ty.bits = 32 ∨ ty.bits = 64 →
    let o := bvIn ty old
    let y := bvIn ty x
    atomVal (.red .add) (.int ty) sat old x c = some (bvFit ty sat (bvInt ty o + bvInt ty y)).toNat ∧
    atomVal (.red .min) (.int ty) sat old x c = some (bvMin ty o y).toNat ∧
    atomVal (.red .max) (.int ty) sat old x c = some (bvMax ty o y).toNat ∧
    atomVal (.red .and) (.int ty) sat old x c = some (o &&& y).toNat ∧
    atomVal (.red .or) (.int ty) sat old x c = some (o ||| y).toNat ∧
    atomVal (.red .xor) (.int ty) sat old x c = some (o ^^^ y).toNat ∧
    atomVal .xchg (.int ty) sat old x c = some y.toNat ∧
    atomVal .cas (.int ty) sat o.toNat x c = if o = bvIn ty c then some y.toNat else none)

/-- R61, R194, R257: a `fence` with .rel goes on and orders the writes after it; one with .ar wider than the crew waits until its
release has completed; one that acquires moves the core's clock to the latest write that the crew has read, and to the clock of its die that the releases which it has met
carry, and at .dev or .sys past the leases that its die has lost (log entry 68).
R102, R196: `cflush` and `cinv` of a mapped line go on, and act on it once the crew's earlier stores have left its core: then they
drop the L1 copies of the line within the scope; `cinv` drops those of the instruction caches too, and traps with cause 0x02 in
user mode. -/
def Obligations.FencesAndCacheMaintenanceComplete : Prop :=
  (∀ s st ord sc, (ord = .ar → sc = .crew ∨ s.me.released = true) →
     ∃ t, exec (.fence st ord sc) s = .next t ∧ (∀ a, memGet t.mem a = memGet s.mem a) ∧
       t.me = { s.me with
         widx := s.me.widx + 1
         seen := if (ord = .acq ∨ ord = .ar) ∧ sc ≠ .crew then joinStamps s.me.seen s.me.readSeen else s.me.seen
         held := if ord = .rel then s.me.held ++ [⟨s.clk, .fence, relOf (some sc), []⟩] else s.me.held
         released := if ord = .ar ∧ sc ≠ .crew then false else s.me.released } ∧
       (∀ n, n ≠ s.myCore → t.core n = s.core n) ∧
       { t.core s.myCore with ts := (s.core s.myCore).ts, window := (s.core s.myCore).window } = s.core s.myCore ∧
       (t.core s.myCore).ts =
         if ord = .acq ∨ ord = .ar then
           let ts := stampMax (s.core s.myCore).ts (keptClock s.me.readSeen (dieOfCore s.myCore) s.me.readWts)
           match sc with
           | .crew => (s.core s.myCore).ts
           | .clus => ts
           | .die => ts
           | _ => stampMax ts (s.die (dieOfCore s.myCore)).dic
         else (s.core s.myCore).ts) ∧
  (∀ s st sc, sc ≠ .crew → s.me.released = false →
     ∃ t, exec (.fence st .ar sc) s = .next t ∧ OnlyMe s t ∧ Waits s t (.release sc)) ∧
  ((∀ s st sc sb ofs lf, canonical (s.me.ea sb ofs 1) = true → s.walk s.me.ctx (s.me.ea sb ofs 1) = some lf →
     let line := s.locOf s.me.ctx (lf.pa (s.me.ea sb ofs 1).toNat) / 128
     (∃ t, exec (.cflush st sc sb ofs) s = .next t ∧ OnlyAccess s t ∧
       t.me = { s.me with held := s.me.held ++ [⟨s.clk, .flush false sc line, none, []⟩], widx := s.me.widx + 1 }) ∧
     (s.me.priv = true → ∃ t, exec (.cinv st sc sb ofs) s = .next t ∧ OnlyAccess s t ∧
       t.me = { s.me with held := s.me.held ++ [⟨s.clk, .flush true sc line, none, []⟩], widx := s.me.widx + 1 })) ∧
   (∀ (s : State) sc core line, ∀ n ∈ s.coresIn sc core,
     (∀ x ∈ ((s.flushOut sc core line).core n).l1, x.line = line → 31 < x.f) ∧
     (∀ x ∈ ((s.invOut sc core line).core n).l1, x.line = line → 31 < x.f) ∧
     (∀ x ∈ ((s.invOut sc core line).core n).icache, x.line ≠ line) ∧ (s.invOut sc core line).mem = s.mem) ∧
   (∀ s st sc sb ofs, s.me.priv = false → s.me.kind = .normal →
     ∃ t, exec (.cinv st sc sb ofs) s = .next t ∧ TakesTrap s t 0x02 0 0 0))

/-! ## Plates and the matrix array -/

/-- R201 to R203: `tres` reserves the lowest free number and the lowest free run, and reports or traps where there is none;
`trel` gives a plate back and unbinds its number in every crew of the party; `tcfg` binds a handle. -/
def Obligations.PlatesAreReservedBoundAndReleased : Prop :=
  (∀ s st td n core stat num base, Turn s → FreeNum s.myParty num →
    FreeRun s.myParty (4 * s.myParty.cluster + tresCore s core) (n.toNat + 1) base →
    ∃ t, exec (.tres st td n core stat) s = .next t ∧ OnlyShared s t ∧
      t.myParty = { s.myParty with
        plates := s.myParty.plates ++ [{ num, core := tresCore s core, base, grans := n.toNat + 1 }] } ∧
      t.me = { s.me.turned s.clk with s := t.me.s, t := Map.put s.me.t td.toNat num } ∧
      (∀ r, some r ≠ stat → t.me.sv r = s.me.sv r) ∧ ∀ r, stat = some r → t.me.sv r = 0) ∧
  (∀ s st td n core, Turn s →
    ((∀ j < 256, ∃ q ∈ s.myParty.plates, q.num = j) ∨
      ∀ g < 512, s.myParty.freeRun (4 * s.myParty.cluster + tresCore s core) g (n.toNat + 1) = false) →
    (∀ r, ∃ t, exec (.tres st td n core (some r)) s = .next t ∧ OnlyShared s t ∧ t.myParty = s.myParty ∧
      t.me = { s.me.turned s.clk with s := t.me.s } ∧ (∀ x, x ≠ r → t.me.sv x = s.me.sv x) ∧ (r ≠ 0 → t.me.sv r = 1)) ∧
    (s.me.kind = .normal → ∃ t, exec (.tres st td n core none) s = .next t ∧ Trapped s t 0x0B 4 0 0)) ∧
  (∀ s st td p, Turn s → s.plate? td = some p → p.owner = false →
    ∃ t, exec (.trel st td) s = .next t ∧ t.mem = s.mem ∧
      t.myParty = { s.myParty with plates := s.myParty.plates.filter (·.num != p.num) } ∧
      (∀ k ∈ s.myParty.crews, ∀ n, Map.find? (t.crew k).t n ≠ some p.num) ∧
      (∀ k, k ∉ s.myParty.crews → k ≠ s.cur → Map.find? t.crews k = Map.find? s.crews k) ∧
      t.me = { s.me.turned s.clk with t := t.me.t }) ∧
  (∀ s st td sa, let n := (s.me.sv sa).toNat % 256
    ((∃ q ∈ s.myParty.plates, q.num = n) → ∃ t, exec (.tcfgPlate st td sa) s = .next t ∧ OnlyMe s t ∧
      t.me = { s.me with t := Map.put s.me.t td.toNat n, widx := s.me.widx + 1 }) ∧
    (s.me.kind = .normal → (∀ q ∈ s.myParty.plates, q.num ≠ n) →
      ∃ t, exec (.tcfgPlate st td sa) s = .next t ∧ TakesTrap s t 0x0B (BitVec.ofNat 64 (1 + 256 * n)) 0 0)) ∧
  (∀ s st ak sa, ∃ t, exec (.tcfgRegion st ak sa) s = .next t ∧ OnlyMe s t ∧
    { s.me with a := t.me.a, widx := s.me.widx + 1 } = t.me ∧
    ∀ k, Map.get 0 t.me.a k =
      if k = ak.toNat then (s.me.sv sa).setWidth 32 &&& 0xFFFFFF00 else Map.get 0 s.me.a k)

/-- R49, R64, R204: `trd` reads a plate's record and `tstat` the owners of the handles asked for; an owner read as CREW is an
acquire of the engine's writes. An unbound handle traps. -/
def Obligations.PlateRecordsAreRead : Prop :=
  (∀ s st sa ta p, s.plate? ta = some p → sa ≠ 0 → p.num < 256 → 1 ≤ p.grans → p.grans ≤ 256 → p.core < 4 → p.base < 512 →
    ∃ t, exec (.trd st sa ta) s = .next t ∧ OnlyAccess s t ∧
      { s.me with s := t.me.s, ivals := t.me.ivals, widx := s.me.widx + 1 } = t.me ∧ (p.owner = true → t.me.ivals = s.me.ivals) ∧
      (∀ r, r ≠ sa → t.me.sv r = s.me.sv r) ∧
      (t.me.sv sa).getLsbD 63 = p.owner ∧ (t.me.sv sa).extractLsb' 60 3 = p.eng ∧
      ((t.me.sv sa).getLsbD 59 = true ↔
        ∃ x ∈ (s.core (s.plateCore p)).platePoison, 32 * p.base ≤ x ∧ x < 32 * (p.base + p.grans)) ∧
      (t.me.sv sa).extractLsb' 48 11 = 0 ∧ (t.me.sv sa).extractLsb' 40 8 = BitVec.ofNat 8 p.num ∧
      (t.me.sv sa).extractLsb' 32 8 = BitVec.ofNat 8 (p.grans - 1) ∧ (t.me.sv sa).extractLsb' 12 20 = 0 ∧
      (t.me.sv sa).extractLsb' 10 2 = BitVec.ofNat 2 p.core ∧ (t.me.sv sa).getLsbD 9 = false ∧
      (t.me.sv sa).extractLsb' 0 9 = BitVec.ofNat 9 p.base ∧
      (t.core s.myCore).ts = match (if p.owner then none else p.stamp) with
        | some x => stampMax (s.core s.myCore).ts x
        | none => (s.core s.myCore).ts) ∧
  (∀ s st sa ta, s.plate? ta = none → s.me.kind = .normal →
    ∃ t, exec (.trd st sa ta) s = .next t ∧ TakesTrap s t 0x0B 1 0 0) ∧
  (∀ s st sa sb, sa ≠ 0 → ∃ t, exec (.tstat st sa sb) s = .next t ∧ OnlyAccess s t ∧
    { s.me with s := t.me.s, ivals := t.me.ivals, widx := s.me.widx + 1 } = t.me ∧ (∀ r, r ≠ sa → t.me.sv r = s.me.sv r) ∧
    ∀ i, i < 64 → (t.me.sv sa).getLsbD i =
      (decide (i < 16) && (s.me.sv sb).getLsbD i && match s.plate? (BitVec.ofNat 4 i) with | some p => p.owner | none => false))

/-- R207, R213, R214: the commands of the matrix array, once their checks pass and a place in the order of each core they use is
free, hold their plates for the open batch and join the order; `acld` holds its crew until the plate is read, and `acst` until
it is written. -/
def Obligations.ArrayCommandsJoinTheOrderOfTheirCore : Prop :=
  (∀ s st ty ak ta tb sa sb (kk : BitVec 8) pa pb (pair : Bool), Turn s →
    let k := 16 * (kk.toNat + 1)
    let partner := s.myCore / 2 * 2 + (1 - s.myCore % 2)
    let op := fun b => ArrOp.mma ty (operandOf s pa (s.me.sv sa) (elemBytes ty k)) (operandOf s pb (s.me.sv sb) (elemBytes ty k)) k b
    MatReady s ty ak ta tb sa sb k pa pb → (s.core s.myCore).array.length < 64 →
    (pair = true → (s.core partner).array.length < 64) →
    ∃ t dur, exec (if pair then .mmap st ty ak ta tb sa sb kk else .mma st ty ak ta tb sa sb kk) s = .next t ∧ OnlyShared s t ∧
      (t.core s.myCore).array = (s.core s.myCore).array ++ [⟨s.cur, regOf s.me ak, op (if pair then .own else .whole), dur, false⟩] ∧
      (pair = true → (t.core partner).array = (s.core partner).array ++ [⟨s.cur, regOf s.me ak, op .partner, dur, false⟩]) ∧
      t.me = { s.me.turned s.clk with openB := { s.me.openB with plates := t.me.openB.plates, left := s.me.openB.left + 1 } } ∧
      (∀ n, n ∈ t.me.openB.plates ↔ n = pa.num ∨ n = pb.num ∨ n ∈ s.me.openB.plates) ∧
      ∀ y ∈ t.myParty.plates, y.num = pa.num ∨ y.num = pb.num → y.owner = true ∧ y.eng = 3 ∧ y.holder = s.cur) ∧
  (∀ s st half col ak ta sa p, Turn s → TransferReady s half col ak ta sa p → (s.core s.myCore).array.length < 64 →
    let r := regOf s.me ak
    let e := if half then 2 else 4
    let cnt := if col then r.cols else r.rows
    let per := if col then r.rows else r.cols
    let o := operandOf s p (s.me.sv sa) (per * e)
    let data := (List.range cnt).flatMap fun i => (List.range per).map fun x =>
      BitVec.ofNat 32 (memNat (s.core o.core).plate (o.base + o.offs + i * o.pitch + x * e) e)
    ∃ t dur bad first, exec (.acld st half col ak ta sa) s = .next t ∧ OnlyShared s t ∧
      (t.core s.myCore).array = (s.core s.myCore).array ++ [⟨s.cur, r, .acld half col data bad first, dur, false⟩] ∧
      t.me = { s.me.turned s.clk with
        openB := { s.me.openB with left := s.me.openB.left + 1 }, phase := .waiting (.plateRead (s.clk + dur)), blockedSince := s.clk }) ∧
  (∀ s st half rn col ak ta sa p, Turn s → TransferReady s half col ak ta sa p → (s.core s.myCore).array.length < 64 →
    let r := regOf s.me ak
    let per := if col then r.rows else r.cols
    ∃ t dur, exec (.acst st half rn col ak ta sa) s = .next t ∧ OnlyShared s t ∧
      (t.core s.myCore).array = (s.core s.myCore).array ++
        [⟨s.cur, r, .acst half col rn (operandOf s p (s.me.sv sa) (per * if half then 2 else 4)), dur, false⟩] ∧
      t.me = { s.me.turned s.clk with phase := .waiting .plateWrite, blockedSince := s.clk }) ∧
  (∀ s st ak, Turn s → InBand s (regOf s.me ak) → (s.core s.myCore).array.length < 64 →
    ∃ t dur, exec (.aczero st ak) s = .next t ∧ OnlyShared s t ∧
      (t.core s.myCore).array = (s.core s.myCore).array ++ [⟨s.cur, regOf s.me ak, .aczero, dur, false⟩] ∧
      t.me = { s.me.turned s.clk with openB := { s.me.openB with left := s.me.openB.left + 1 } })

/-- R209 to R211, R215: `mbatch` closes the open batch under the next number; `mwait` of a retired batch releases the plates
that no later batch holds and merges the flags; `mpoll` tells whether a batch has retired; a number that lies ahead traps;
`acrd` joins the order of its core's array, and when its turn has come reads accumulator elements into the governed lanes. -/
def Obligations.BatchesAreClosedWaitedAndPolled : Prop :=
  (∀ s st sd, s.me.active = s.me.live → (s.me.closedB.filter fun b => !b.retired).length < 16 →
    let n : W32 := if s.me.batch = 0xFFFFFFFF then 1 else s.me.batch + 1
    ∃ t, exec (.mbatch st sd) s = .next t ∧ OnlyMe s t ∧
      t.me = { s.me with
        s := t.me.s, batch := n, openB := {}, closedB := s.me.closedB ++ [{ s.me.openB with num := n }], widx := s.me.widx + 1 } ∧
      (∀ r, r ≠ sd → t.me.sv r = s.me.sv r) ∧ (sd ≠ 0 → t.me.sv sd = n.setWidth 64)) ∧
  (∀ s st sa, let n := (s.me.sv sa).setWidth 32
    (n = 0 → ∃ t, exec (.mwait st sa) s = .next t ∧ OnlyMe s t ∧ t.me = { s.me with widx := s.me.widx + 1 }) ∧
    (n ≠ 0 → s.me.kind = .normal → 2 ^ 31 ≤ (s.me.batch - n).toNat →
      ∃ t, exec (.mwait st sa) s = .next t ∧ TakesTrap s t 0x0B 8 (n.setWidth 64) 0) ∧
    (n ≠ 0 → (s.me.batch - n).toNat < 2 ^ 31 → (∃ b ∈ s.me.closedB, b.num = n ∧ b.retired = false) →
      ∃ t, exec (.mwait st sa) s = .next t ∧ OnlyMe s t ∧ Waits s t (.batch n)) ∧
    (n ≠ 0 → (s.me.batch - n).toNat < 2 ^ 31 → (∀ b ∈ s.me.closedB, b.num = n → b.retired = true) → s.me.released = true →
      (∀ b ∈ s.me.closedB, b.due n = true → b.poison = none) →
      ∃ t, exec (.mwait st sa) s = .next t ∧ OnlyShared s t ∧
        t.me = { s.me.turned s.clk with
          closedB := s.me.closedB.filter fun b => !b.due n
          ctFlags := (s.me.closedB.filter fun b => b.due n).foldl (fun f b => f ||| b.flags) s.me.ctFlags } ∧
        ∀ b ∈ s.me.closedB, b.due n = true → ∀ m ∈ b.plates, m ∉ s.me.openB.plates →
          (∀ b' ∈ s.me.closedB, b'.due n = false → m ∉ b'.plates) →
          ∀ y ∈ t.myParty.plates, y.num = m → ¬(y.eng = 3 ∧ y.holder = s.cur))) ∧
  (∀ s st sd sa, let n := (s.me.sv sa).setWidth 32
    ((n = 0 ∨ (s.me.batch - n).toNat < 2 ^ 31) → ∃ t, exec (.mpoll st sd sa) s = .next t ∧ OnlyMe s t ∧ OnlyScalar sd s.me t.me ∧
      (sd ≠ 0 → t.me.sv sd = if n ≠ 0 ∧ ∃ b ∈ s.me.closedB, b.num = n ∧ b.retired = false then 0 else 1)) ∧
    (n ≠ 0 → s.me.kind = .normal → 2 ^ 31 ≤ (s.me.batch - n).toNat →
      ∃ t, exec (.mpoll st sd sa) s = .next t ∧ TakesTrap s t 0x0B 8 (n.setWidth 64) 0)) ∧
  (∀ s h col vd ak sa, s.me.released = false → (s.core s.myCore).array.length < 64 →
    ∃ t, exec (.acrd h col vd ak sa) s = .next t ∧ OnlyAccess s t ∧ Waits s t .accumulator ∧
      (t.core s.myCore).array = (s.core s.myCore).array ++ [⟨s.cur, regOf s.me ak, .acrd, 1, false⟩]) ∧
  (∀ s h col vd ak sa, s.me.released = true → InBand s (regOf s.me ak) → 8 ≤ s.me.alloc →
    let r := regOf s.me ak
    let i := fun (l : Nat) => (s.me.sv sa).toNat % 256 + if col then l else 0
    let j := fun (l : Nat) => (s.me.sv sa).toNat / 256 % 256 + if col then 0 else l
    let el := fun (l : Nat) => (r.row0 + i l) * 256 + r.col0 + j l
    (∀ l, l < 32 → (s.me.gov h).getLsbD l = true →
      i l < r.rows ∧ j l < r.cols ∧ (s.core s.myCore).accPoison.contains (el l / 8) = false) →
    ∃ t, exec (.acrd h col vd ak sa) s = .next t ∧ OnlyMe s t ∧
      OnlyLanes (s.me.gov h) false vd { s.me with released := false } t.me ∧
      ∀ l, l < 32 → (s.me.gov h).getLsbD l = true → t.me.vl vd.toNat l = Map.get 0 (s.core s.myCore).acc (el l))

/-- R17, R205, R219, R223 to R225: an engine command whose checks pass flips its plate to its engine and joins the engine's
order; `cpy` adds its layout's bank conflicts to %bkconf. -/
def Obligations.EngineCommandsFlipTheirPlate : Prop :=
  (∀ s st dir t' sd sa sb ev p, Turn s → EngineReady s t' ev p →
    let b := (s.me.sv sd).toNat % 2 ^ 18
    layValid (s.me.sv sb) = true → (∀ x ∈ layUnits (s.me.sv sb), b + x.2 + layUnit (s.me.sv sb) ≤ 1024 * p.grans) →
    canonical (s.me.sv sa) = true →
    ∃ t, exec (.cpy st dir t' sd sa sb ev) s = .next t ∧ Accepted s t 1 p.num (layConflicts (s.me.sv sb) b) ∧
      (t.core s.myCore).copyQ = (s.core s.myCore).copyQ ++
        [{ commandOf s .copy 1 p.num ev with toGlobal := dir, base := b, g := s.me.sv sa, rec_ := s.me.sv sb }]) ∧
  (∀ s st t' sd sa sb ev p, Turn s → EngineReady s t' ev p →
    (gthCount (s.me.sv sb) - 1) * gthDpitch (s.me.sv sb) + gthRow (s.me.sv sb) ≤ 1024 * p.grans →
    canonical (s.me.sv sa) = true → (s.me.sv sd).toNat % 4 = 0 →
    ∃ t, exec (.gth st t' sd sa sb ev) s = .next t ∧ Accepted s t 2 p.num 0 ∧
      (t.core s.myCore).gatherQ = (s.core s.myCore).gatherQ ++
        [{ commandOf s .gather 2 p.num ev with g := s.me.sv sa, rec_ := s.me.sv sb, idx := s.me.sv sd }]) ∧
  (∀ s st op ty t' sa sb ev p, Turn s → EngineReady s t' ev p →
    let offs := fld (s.me.sv sb).toNat 0 18
    let n := fld (s.me.sv sb).toNat 20 18
    n ≠ 0 → n % (tyBits ty / 8) = 0 → offs + n ≤ 1024 * p.grans →
    ∃ t, exec (.coll st op ty t' sa sb ev) s = .next t ∧ Accepted s t 4 p.num 0 ∧
      (t.core s.myCore).collQ = (s.core s.myCore).collQ ++
        [{ commandOf s .coll 4 p.num ev with
           op, ty, group := fld (s.me.sv sa).toNat 0 12, rank := fld (s.me.sv sa).toNat 16 12, offs, bytes := n }]) ∧
  (∀ s st dir t' sd sa sb ev, Turn s → s.me.kind = .normal →
    (s.plate? t' = none → ∃ t, exec (.cpy st dir t' sd sa sb ev) s = .next t ∧ Trapped s t 0x0B 1 0 0) ∧
    (∀ p, s.plate? t' = some p → p.owner = true →
      ∃ t, exec (.cpy st dir t' sd sa sb ev) s = .next t ∧ Trapped s t 0x0B (BitVec.ofNat 64 (2 + 256 * p.num)) 0 0))

/-! ## Barriers and cluster queues -/

/-- R229 to R231, R286, R287: `bari` initialises an object, `barv` and `bard` arrive once at a phase with a release at .clus,
`barw` waits for a phase that has not completed, and `bart` tells whether it has; an object that is not initialised, a phase too far
ahead and a crew that is no participant trap. The stamps of a phase are the model's reading (log entry 32). -/
def Obligations.BarriersAreArrivedAtAndWaitedOn : Prop :=
  (∀ s st bar sa, s.me.released = true → s.me.sv sa ≠ 0 → (s.me.sv sa).toNat < 2 ^ s.myParty.ncrews →
    (∀ b, Map.find? s.myParty.bars bar.toNat = some b → ∀ a ∈ b.arrived, a = 0) →
    NoneWaits s (fun w => ∃ p, w = .barrier bar.toNat p) →
    ∃ t, exec (.bari st bar sa) s = .next t ∧ OnlyShared s t ∧ t.me = s.me.turned s.clk ∧
      t.myParty = { s.myParty with bars := Map.put s.myParty.bars bar.toNat { mask := s.me.sv sa } }) ∧
  (∀ s st bar p b, Map.find? s.myParty.bars bar.toNat = some b → b.Four → b.mask.getLsbD s.me.num = true →
    let d := match p with | .ahead d => d.toNat | .named sa => ((s.me.sv sa).setWidth 16 - b.cur).toNat
    (d < 4 → (b.arrived.getD d 0).getLsbD s.me.num = true →
      ∃ t, exec (.barv st bar p) s = .next t ∧ OnlyMe s t ∧ t.me = { s.me with released := false, widx := s.me.widx + 1 }) ∧
    (d < 4 → (b.arrived.getD d 0).getLsbD s.me.num = false → s.me.released = true → ArrivesInOrder s →
      ∃ t b', exec (.barv st bar p) s = .next t ∧ OnlyShared s t ∧ t.me = s.me.turned s.clk ∧
        t.myParty = { s.myParty with bars := Map.put s.myParty.bars bar.toNat b' } ∧ b'.mask = b.mask ∧
        Arrives b b' s.me.num d s.me.relTs) ∧
    (4 ≤ d → s.me.kind = .normal →
      ∃ t, exec (.barv st bar p) s = .next t ∧ TakesTrap s t 0x0E (BitVec.ofNat 64 (6 + 256 * bar.toNat)) 0 0)) ∧
  (∀ s st bar b, Map.find? s.myParty.bars bar.toNat = some b → b.Four → b.mask.getLsbD s.me.num = true → s.me.released = true →
    ArrivesInOrder s → ∃ t b', exec (.bard st bar) s = .next t ∧ OnlyShared s t ∧ t.me = s.me.turned s.clk ∧
      t.myParty = { s.myParty with bars := Map.put s.myParty.bars bar.toNat b' } ∧
      b'.mask = b.mask &&& ~~~((1 : W64) <<< s.me.num) ∧ Arrives b b' s.me.num 0 s.me.relTs) ∧
  (∀ s st bar sa b, Map.find? s.myParty.bars bar.toNat = some b → s.me.cancel = 0 →
    let p := (s.me.sv sa).setWidth 16
    (2 ^ 15 ≤ (p - b.cur).toNat → ∃ t, exec (.barw st bar sa) s = .next t ∧ OnlyAccess s t ∧
      t.me = { s.me with seen := joinStamps s.me.seen (Map.get [] b.ended p.toNat), widx := s.me.widx + 1 } ∧
      (t.core s.myCore).ts = b.seen p (dieOfCore s.myCore) (s.core s.myCore).ts) ∧
    ((p - b.cur).toNat < 2 ^ 15 → ∃ t, exec (.barw st bar sa) s = .next t ∧ OnlyMe s t ∧ Waits s t (.barrier bar.toNat p))) ∧
  (∀ s st sd bar sa b, Map.find? s.myParty.bars bar.toNat = some b →
    let p := (s.me.sv sa).setWidth 16
    let past := decide (2 ^ 15 ≤ (p - b.cur).toNat)
    ∃ t, exec (.bart st sd bar sa) s = .next t ∧ OnlyAccess s t ∧
      t.me = { s.me with s := t.me.s, seen := t.me.seen, widx := s.me.widx + 1 } ∧ (∀ r, r ≠ sd → t.me.sv r = s.me.sv r) ∧
      t.me.sv sd = (if sd = 0 then 0 else if past then 1 else 0) ∧
      t.me.seen = (if past then joinStamps s.me.seen (Map.get [] b.ended p.toNat) else s.me.seen) ∧
      (t.core s.myCore).ts = if past then b.seen p (dieOfCore s.myCore) (s.core s.myCore).ts else (s.core s.myCore).ts) ∧
  (∀ s i bar, s.me.kind = .normal →
    ((∃ st p, i = .barv st bar p) ∨ (∃ st, i = .bard st bar) ∨ (∃ st sd sa, i = .bart st sd bar sa) ∨
      (s.me.cancel = 0 ∧ ∃ st sa, i = .barw st bar sa)) →
    (Map.find? s.myParty.bars bar.toNat = none →
      ∃ t, exec i s = .next t ∧ TakesTrap s t 0x0E (BitVec.ofNat 64 (5 + 256 * bar.toNat)) 0 0) ∧
    (∀ b, Map.find? s.myParty.bars bar.toNat = some b → b.mask.getLsbD s.me.num = false →
      ((∃ st p, i = .barv st bar p) ∨ ∃ st, i = .bard st bar) →
      ∃ t, exec i s = .next t ∧ TakesTrap s t 0x0E (BitVec.ofNat 64 (7 + 256 * bar.toNat)) 0 0))

/-- R36, R233 to R237, R287: `qcfg` configures a queue; a push takes one unit of allowance and appends its item, a pop takes the
oldest item with an acquire at .clus, and `qallow` grants up to the depth; a push or a pop that cannot be made blocks, and the
tried forms answer 0. Each leaves the queue's wake step due at the end of the clk. -/
def Obligations.ClusterQueuesArePushedAndPopped : Prop :=
  (∀ s st q sa sb, s.me.released = true → let m := s.me.sv sa
    let v := s.me.sv sb
    v &&& ~~~(0x13F : W64) = 0 → (v.getLsbD 8 = false → m ≠ 0 ∧ m.toNat < 2 ^ s.myParty.ncrews) → (v.getLsbD 8 = true → m = 0) →
    (∀ x, Map.find? s.myParty.queues q.toNat = some x → x.items = []) →
    NoneWaits s (fun w => (∃ i, w = .queuePush q.toNat i) ∨ ∃ sd, w = .queuePop q.toNat sd) →
    ∃ t, exec (.qcfg st q sa sb) s = .next t ∧ OnlyShared s t ∧ t.me = s.me.turned s.clk ∧
      t.myParty = { s.myParty with
        queues := Map.put s.myParty.queues q.toNat { event := v.getLsbD 8, depth := v.toNat % 64 + 1, producers := m } }) ∧
  (∀ s (q : BitVec 5) sa x, Map.find? s.myParty.queues q.toNat = some x → x.event = false → x.producers.getLsbD s.me.num = true →
    s.me.released = true →
    let item : W32 := (s.me.sv sa).setWidth 32
    (∀ st, MayPush x s.me.num → s.me.cancel = 0 → ∃ t x', exec (.qpush st q sa) s = .next t ∧ OnlyShared s { t with late := s.late } ∧
      t.me = s.me.turned s.clk ∧ t.myParty = { s.myParty with queues := Map.put s.myParty.queues q.toNat x' } ∧
      Pushed x x' s.me.num item s.me.relTs ∧ EndsWith s t (.clusterQueueUpdate s.me.party q.toNat)) ∧
    (∀ st sd, MayPush x s.me.num → ∃ t x', exec (.qtryPush st sd q sa) s = .next t ∧ OnlyShared s { t with late := s.late } ∧
      TurnGives s t sd 1 ∧ t.myParty = { s.myParty with queues := Map.put s.myParty.queues q.toNat x' } ∧
      Pushed x x' s.me.num item s.me.relTs ∧ EndsWith s t (.clusterQueueUpdate s.me.party q.toNat)) ∧
    (∀ st, (Map.get 0 x.allow s.me.num = 0 ∨ x.depth ≤ x.items.length) → s.me.cancel = 0 →
      ∃ t, exec (.qpush st q sa) s = .next t ∧ OnlyShared s t ∧ t.myParty = s.myParty ∧ WaitsTurned s t (.queuePush q.toNat item)) ∧
    (∀ st sd, (Map.get 0 x.allow s.me.num = 0 ∨ x.depth ≤ x.items.length) →
      ∃ t, exec (.qtryPush st sd q sa) s = .next t ∧ OnlyMe s t ∧
        t.me = { s.me with s := t.me.s, released := false, widx := s.me.widx + 1 } ∧ (∀ r, r ≠ sd → t.me.sv r = s.me.sv r) ∧
        t.me.sv sd = 0)) ∧
  (∀ s (q : BitVec 5) x, Map.find? s.myParty.queues q.toNat = some x →
    (∀ i is, x.items = i :: is → s.me.released = true →
      let gone := fun (t : State) => OnlyShared s { t with late := s.late } ∧
        t.myParty = { s.myParty with queues := Map.put s.myParty.queues q.toNat { x with items := is }, trace := t.myParty.trace } ∧
        PopMarks s t x i ∧ EndsWith s t (.clusterQueueUpdate s.me.party q.toNat) ∧
        (t.core s.myCore).ts = keptClock i.stamp (dieOfCore s.myCore) (s.core s.myCore).ts
      (∀ st sd, s.me.cancel = 0 → ∃ t, exec (.qpop st sd q) s = .next t ∧ gone t ∧ TurnTakes s t sd (i.item.setWidth 64) i.stamp) ∧
      (∀ st sd, ∃ t, exec (.qtryPop st sd q) s = .next t ∧ gone t ∧ TurnTakes s t sd (i.item.setWidth 64 + 0x100000000) i.stamp)) ∧
    (x.items = [] →
      (∀ st sd, s.me.cancel = 0 → s.me.released = true → ∃ t, exec (.qpop st sd q) s = .next t ∧ OnlyShared s t ∧ t.myParty = s.myParty ∧
        WaitsTurned s t (.queuePop q.toNat sd)) ∧
      (∀ st sd, ∃ t, exec (.qtryPop st sd q) s = .next t ∧ OnlyMe s t ∧
        t.me = { s.me with s := t.me.s, released := false, widx := s.me.widx + 1 } ∧ (∀ r, r ≠ sd → t.me.sv r = s.me.sv r) ∧
        t.me.sv sd = 0))) ∧
  (∀ s st (q : BitVec 5) sa (n : BitVec 5) x, Map.find? s.myParty.queues q.toNat = some x → x.event = false → s.me.released = true →
    let who := (s.me.sv sa).toNat
    who < 64 → x.producers.getLsbD who = true →
    ∃ t x', exec (.qallow st q sa n) s = .next t ∧ OnlyShared s { t with late := s.late } ∧ t.me = s.me.turned s.clk ∧
      t.myParty = { s.myParty with queues := Map.put s.myParty.queues q.toNat x' } ∧ { x' with allow := x.allow } = x ∧
      (∀ k, Map.get 0 x'.allow k = if k = who then min (Map.get 0 x.allow who + n.toNat + 1) x.depth else Map.get 0 x.allow k) ∧
      EndsWith s t (.clusterQueueUpdate s.me.party q.toNat)) ∧
  (∀ s st (q : BitVec 5) sa sd n, s.me.kind = .normal →
    (Map.find? s.myParty.queues q.toNat = none → ∀ i ∈ ([.qtryPop st sd q, .qtryPush st sd q sa, .qallow st q sa n] : List Instr),
      ∃ t, exec i s = .next t ∧ TakesTrap s t 0x0E (BitVec.ofNat 64 (1 + 256 * q.toNat)) 0 0) ∧
    (∀ x, Map.find? s.myParty.queues q.toNat = some x → x.event = true ∨ x.producers.getLsbD s.me.num = false →
      ∃ t, exec (.qtryPush st sd q sa) s = .next t ∧ TakesTrap s t 0x0E (BitVec.ofNat 64 (2 + 256 * q.toNat)) 0 0))

/-! ## Monitors and contact sheets -/

/-- R42, R238 to R242, R287: `watch` arms the monitor on an aligned range; `park` answers 3 with no monitor armed and 0 after a
trigger, and otherwise waits for one, or for its timeout. `shpv` sends a post to the board's home, `shlv` reads a board's level,
epoch and posted mask with an acquire, and `shrs` sends a reset there, which starts the board's next epoch; a board that is not configured for the crew's context
traps. An instruction that may block ends the crew of a cancelled instance (R34),
whole by the model's reading (log entry 33). The clocks that the releases on a board carry are the model's reading (log entry 68). -/
def Obligations.MonitorsAndSheetsAreUsed : Prop :=
  (∀ s st wide count sb ofs pa, let w := if wide then 8 else 4
    let a := addrIdx s.me sb none ofs w 32
    let n := w * ((count : BitVec 5).toNat + 1)
    (a.toNat % n = 0 → s.xlate s.me.ctx a .read = .ok pa → ∃ t, exec (.watch st wide count sb ofs) s = .next t ∧ OnlyAccess s t ∧
      t.me = { s.me with mon := some { loc := s.locOf s.me.ctx pa, len := n, va := a, hit := false }, widx := s.me.widx + 1 }) ∧
    (a.toNat % n ≠ 0 → s.me.kind = .normal → ∃ t, exec (.watch st wide count sb ofs) s = .next t ∧ TakesTrap s t 0x04 0 a 0)) ∧
  (∀ s st sa o, s.me.cancel = 0 →
    let i := match o with | none => Instr.park st sa | some sd => .parkSt st sd sa
    let back := fun (t : State) (x : W64) => OnlyShared s t ∧ (∀ r, some r ≠ o → t.me.sv r = s.me.sv r) ∧
      (∀ r, o = some r → t.me.sv r = if r = 0 then 0 else x) ∧
      t.me = { s.me with
        s := t.me.s, mon := none, widx := s.me.widx + 1, phase := .running, readyAt := max s.me.readyAt (s.clk + 1), readySince := s.clk
        committed := s.clk }
    (s.me.mon = none → ∃ t, exec i s = .next t ∧ back t 3) ∧
    (∀ m, s.me.mon = some m → m.hit = true → ∃ t, exec i s = .next t ∧ back t 0) ∧
    (∀ m, s.me.mon = some m → m.hit = false → ∃ t, exec i s = .next t ∧ OnlyMe s t ∧
      Waits s t (.park (if (s.me.sv sa).toNat % 2 ^ 48 = 0 then none else some (s.clk + (s.me.sv sa).toNat % 2 ^ 48)) o))) ∧
  (∀ s i, s.me.cancel ≠ 0 →
    ((∃ st sa, i = .park st sa) ∨ (∃ st sd sa, i = .parkSt st sd sa) ∨ (∃ st bar sa, i = .barw st bar sa) ∨
      (∃ st q sa, i = .qpush st q sa) ∨ ∃ st sd q, i = .qpop st sd q) →
    ∃ t, exec i s = .next t ∧ (s.me.kind ≠ .handler → OnlyMe s t) ∧ t.me.phase = .ended ∧ t.me.live = 0 ∧ t.me.s = s.me.s ∧ t.me.v = s.me.v ∧ t.me.p = s.me.p) ∧
  (∀ s st k sd (b : BitVec 8) sa sb, s.me.released = true →
    (∀ h x, OwnsBoard s b.toNat h x → ∃ t, exec (.shpv st k sd b sa sb) s = .next t ∧ OnlyDevice s { t with late := s.late } ∧
      WaitsTurned s t .sheet ∧ EndsWith s t (.sheetHomePost h) ∧
      Map.get {} t.sheets h = { x with
        reqs := x.reqs ++ [⟨s.cur, .post ((s.me.sv sa).toNat % 1024) ((s.me.sv sa).extractLsb' 32 32) (s.me.sv sb) k.toNat sd⟩] } ∧
      ∀ j, j ≠ h → Map.find? t.sheets j = Map.find? s.sheets j) ∧
    (s.me.kind = .normal → (∀ h x, ¬OwnsBoard s b.toNat h x) →
      ∃ t, exec (.shpv st k sd b sa sb) s = .next t ∧ Trapped s t 0x0D (BitVec.ofNat 64 (1 + 256 * b.toNat)) 0 0)) ∧
  (∀ s st k sd (b : BitVec 8),
    (∀ h x, OwnsBoard s b.toNat h x → ∃ t, exec (.shlv st k sd b) s = .next t ∧ OnlyAccess s t ∧
      { s.me with s := t.me.s, k := t.me.k, seen := joinStamps s.me.seen x.stamps, widx := s.me.widx + 1 } = t.me ∧ (∀ r, r ≠ sd → t.me.sv r = s.me.sv r) ∧
      (t.me.sv sd = if sd = 0 then 0 else x.epoch ++ x.level) ∧ (∀ j : BitVec 2, j ≠ k → t.me.kv j.toNat = s.me.kv j.toNat) ∧
      (∀ j, j < 1024 → (t.me.kv k.toNat).getLsbD j = (x.posted.getLsbD j && decide (j ≤ x.slots.toNat))) ∧
      (t.party s.me.party).trace.why.getLsbD 1 = true ∧ (t.core s.myCore).ts = keptAcquire s x.stamps) ∧
    (s.me.kind = .normal → (∀ h x, ¬OwnsBoard s b.toNat h x) →
      ∃ t, exec (.shlv st k sd b) s = .next t ∧ TakesTrap s t 0x0D (BitVec.ofNat 64 (1 + 256 * b.toNat)) 0 0)) ∧
  (∀ s st sd (b : BitVec 8), s.me.released = true →
    (∀ h x, OwnsBoard s b.toNat h x → ∃ t, exec (.shrs st sd b) s = .next t ∧ OnlyDevice s { t with late := s.late } ∧
      WaitsTurned s t .sheet ∧ EndsWith s t (.sheetHomePost h) ∧
      Map.get {} t.sheets h = { x with reqs := x.reqs ++ [⟨s.cur, .reset sd⟩] } ∧
      ∀ j, j ≠ h → Map.find? t.sheets j = Map.find? s.sheets j) ∧
    (s.me.kind = .normal → (∀ h x, ¬OwnsBoard s b.toNat h x) →
      ∃ t, exec (.shrs st sd b) s = .next t ∧ Trapped s t 0x0D (BitVec.ofNat 64 (1 + 256 * b.toNat)) 0 0))

/-! ## Launches, counters, dirty maps -/

/-- R245, R247 to R250, R287, R302: after the pushes of the crews before it in the clk, `dlaunch` and `sdlaunch` push packets in lane
order, and the first refusal refuses the rest; `rlnch` pushes a relaunch request, and `trrec` releases a retention; `cntrd` reads a
counter of the context, and 0 of another; `dmclr` starts a map's next epoch, and `dmq` counts the dirty parcels of a range; `cancel`
marks every crew of the instance, those inside it too. Choices (log entry 34): the crews inside, the order of what `rlnch` does, a map with EN = 0 as not owned, and `dmq` on
physical parcels; and the clocks that a counter's releases carry (log entry 68). -/
def Obligations.LaunchesCountersAndMapsAreUsed : Prop :=
  (∀ s h sd vx (q : BitVec 6) as, s.me.released = true → NoEarlierPush s → Reaches s .read 128 (lanesAt (s.me.gov h) fun l => s.me.vpl vx.toNat l) as →
    (∀ n x, QueueTakes s q n x → as.length + x.pkts.length ≤ 256 → (∀ a ∈ as, ∀ j, j < 4 → s.isPoisoned (a.loc + 32 * j) = false) →
      ∃ t, exec (.dlaunch h sd vx q) s = .next t ∧ OnlyDevice s t ∧ TurnGives s t sd ((s.me.gov h).setWidth 64) ∧
        QueueGets s t n x (as.map fun a => pktAt s a.loc)) ∧
    ((∀ n x, ¬QueueTakes s q n x) → ∀ a rest, as = a :: rest →
      ∃ t, exec (.dlaunch h sd vx q) s = .next t ∧ OnlyDevice s t ∧ t.queues = s.queues ∧
        TurnGives s t sd (BitVec.ofNat 64 (2 * 2 ^ 32 + a.lane * 2 ^ 34)))) ∧
  (∀ s st sd sa (q : BitVec 6) a, s.me.released = true → NoEarlierPush s → Reaches s .read 128 [(32, s.me.sv sa)] [a] →
    ((∀ n x, ¬QueueTakes s q n x) →
      ∃ t, exec (.sdlaunch st sd sa q) s = .next t ∧ OnlyDevice s t ∧ t.queues = s.queues ∧ TurnGives s t sd 2) ∧
    (∀ n x, QueueTakes s q n x →
      ((∃ j, j < 4 ∧ s.isPoisoned (a.loc + 32 * j) = true) →
        ∃ t, exec (.sdlaunch st sd sa q) s = .next t ∧ OnlyDevice s t ∧ t.queues = s.queues ∧ TurnGives s t sd 3) ∧
      ((∀ j, j < 4 → s.isPoisoned (a.loc + 32 * j) = false) → 256 ≤ x.pkts.length →
        ∃ t, exec (.sdlaunch st sd sa q) s = .next t ∧ OnlyDevice s t ∧ t.queues = s.queues ∧ TurnGives s t sd 1) ∧
      ((∀ j, j < 4 → s.isPoisoned (a.loc + 32 * j) = false) → x.pkts.length < 256 →
        ∃ t, exec (.sdlaunch st sd sa q) s = .next t ∧ OnlyDevice s t ∧ TurnGives s t sd 0 ∧ QueueGets s t n x [pktAt s a.loc]))) ∧
  (∀ s st sd sa (q : BitVec 6), s.me.released = true → NoEarlierPush s → let n := (s.me.sv sa).toNat % 4096
    (((∀ p, ¬Retains s n p) ∨ ∀ m x, ¬QueueTakes s q m x) →
      ∃ t, exec (.rlnch st sd sa q) s = .next t ∧ OnlyDevice s t ∧ t.queues = s.queues ∧ TurnGives s t sd 2) ∧
    (∀ p m x, Retains s n p → QueueTakes s q m x →
      (s.relaunchPending s.me.ctx p = true →
        ∃ t, exec (.rlnch st sd sa q) s = .next t ∧ OnlyDevice s t ∧ t.queues = s.queues ∧ TurnGives s t sd 3) ∧
      (s.relaunchPending s.me.ctx p = false → 256 ≤ x.pkts.length →
        ∃ t, exec (.rlnch st sd sa q) s = .next t ∧ OnlyDevice s t ∧ t.queues = s.queues ∧ TurnGives s t sd 1) ∧
      (s.relaunchPending s.me.ctx p = false → x.pkts.length < 256 →
        ∃ t, exec (.rlnch st sd sa q) s = .next t ∧ OnlyDevice s t ∧ TurnGives s t sd 0 ∧
          QueueGets s t m x [{ pktAt s 0 with data := BitVec.ofNat 1024 (1 + n * 2 ^ 320), byRlnch := true }]))) ∧
  (∀ s st sd sa, s.me.released = true → let n := (s.me.sv sa).toNat % 4096
    ((∀ p, ¬Retains s n p) → ∃ t, exec (.trrec st sd sa) s = .next t ∧ OnlyShared s t ∧ TurnGives s t sd 2) ∧
    (∀ p, Retains s n p →
      (s.relaunchPending s.me.ctx p = true → ∃ t, exec (.trrec st sd sa) s = .next t ∧ OnlyShared s t ∧ TurnGives s t sd 3) ∧
      (s.relaunchPending s.me.ctx p = false → ∃ t, exec (.trrec st sd sa) s = .next t ∧ OnlyDevice s t ∧ TurnGives s t sd 0 ∧
        t.counter p = { s.counter p with retained := none } ∧ ∀ m, m ≠ p → Map.find? t.counters m = Map.find? s.counters m))) ∧
  (∀ s st sd sa, let n := (s.me.sv sa).toNat % 4096
    let p := s.phys s.me.ctx 4096 n
    ∃ t, exec (.cntrd st sd sa) s = .next t ∧ OnlyAccess s t ∧ (t.party s.me.party).trace.why.getLsbD 0 = true ∧
      let mine := s.inShare 4096 n = true ∧ (s.counter p).ctx.toNat = s.me.ctx
      t.me = { s.me with s := t.me.s, seen := t.me.seen, widx := s.me.widx + 1 } ∧ (∀ r, r ≠ sd → t.me.sv r = s.me.sv r) ∧
      t.me.seen = (if mine ∧ (s.counter p).done = true then joinStamps s.me.seen (s.counter p).stamps else s.me.seen) ∧
      t.me.sv sd = (if sd = 0 then 0 else if mine then
        BitVec.ofBool (s.counter p).done ++ BitVec.ofBool (s.counter p).canc ++ 0#14 ++ (s.counter p).endv ++ (s.counter p).count else 0) ∧
      (t.core s.myCore).ts = if mine ∧ (s.counter p).done = true then
        keptAcquire s (s.counter p).stamps else (s.core s.myCore).ts) ∧
  (∀ s st sd (m : BitVec 8), s.me.released = true →
    ((∀ n x, ¬OwnsMap s m.toNat n x) →
      ∃ t, exec (.dmclr st sd m) s = .next t ∧ OnlyDevice s t ∧ t.dirtyMaps = s.dirtyMaps ∧ TurnTakes s t sd 0xFFFFFFFFFFFFFFFF s.me.readSeen) ∧
    (∀ n x, OwnsMap s m.toNat n x →
      ∃ t, exec (.dmclr st sd m) s = .next t ∧ OnlyDevice s t ∧ TurnTakes s t sd ((x.epoch + 1).setWidth 64) s.me.readSeen ∧
        Map.get {} t.dirtyMaps n = { x with bits := [], epoch := x.epoch + 1 } ∧
        ∀ j, j ≠ n → Map.find? t.dirtyMaps j = Map.find? s.dirtyMaps j)) ∧
  (∀ s st sd sa sb (m : BitVec 8), s.me.released = true →
    ((∀ n x, ¬OwnsMap s m.toNat n x) →
      ∃ t, exec (.dmq st sd sa sb m) s = .next t ∧ OnlyShared s t ∧ TurnTakes s t sd 0xFFFFFFFFFFFFFFFF s.me.readSeen) ∧
    (∀ n x, OwnsMap s m.toNat n x → x.bits.Nodup → (∀ p ∈ x.bits, x.base.toNat ≤ p ∧ p ≤ x.base.toNat + x.len.toNat) →
      let a := (s.me.sv sa).toNat
      let b := (s.me.sv sb).toNat
      let hit := fun p => decide (p < x.base.toNat ∨ x.base.toNat + x.len.toNat < p ∨ p ∈ x.bits)
      ∃ t, exec (.dmq st sd sa sb m) s = .next t ∧ OnlyShared s t ∧
        TurnTakes s t sd (if b = 0 then 0 else BitVec.ofNat 64
          (((List.range ((a + b - 1) / 4096 + 1)).filter fun p => decide (a / 4096 ≤ p) && hit p).length)) s.me.readSeen)) ∧
  (∀ s st lv, s.me.released = true →
    (s.instanceOf s.me lv = none → ∃ t, exec (.cancel st lv) s = .next t ∧ OnlyShared s t ∧ t.me = s.me.turned s.clk) ∧
    (∀ n, s.instanceOf s.me lv = some n → s.me.phase = .running →
      (∀ k c, Map.find? s.crews k = some c → c.kind ≠ .test ∧ (c.kind = .handler → c.cancelWait = false)) →
      (if lv = .party then (s.party n).cancelled = false else (s.counter n).done = false ∧ (s.counter n).cancelReq = false) →
      ∃ t, exec (.cancel st lv) s = .next t ∧ t.me.widx = s.me.widx + 1 ∧ t.me.s = s.me.s ∧
        (lv ≠ .party → (t.counter n).cancelReq = true) ∧
        ∀ k c, Map.find? s.crews k = some c → (if lv = .party then c.party = n else s.inInstance lv n c.lctr = true) →
          (t.crew k).cancel.getLsbD (match lv with | .party => 0 | .launch => 1 | .graph => 2 | .stage => 3 | .job => 4) = true))

/-! ## Traps and returns -/

/-- R39, R251, R252, R324, R326: `trap` and `brkpt` with a governed lane take the crew trap of cause 0x10 or 0x11 with their code and the
lanes, or send the lanes to a handler, and have no effect with none. `hret` resumes the crew that a frame names, at the frame's word or
the one after it, or ends it; `lhret` gives each active lane's result and flags to its origin lane, which is out no more.
R253, R254, R369: `ckpt` waits while a checkpoint runs and otherwise starts one, whose number its crew will receive; `svccfg` hands
its slot's change to the service crews and waits for them; an image that is not aligned installs nothing. Choices: log entries 35 to 37. -/
def Obligations.TrapsCheckpointsAndServicesComplete : Prop :=
  ((∀ s h code, let g := s.me.gov h
     (g = 0 → ∀ i ∈ ([.trap h code false, .trap h code true, .brkpt h code] : List Instr),
       ∃ t, exec i s = .next t ∧ OnlyMe s t ∧ t.me = { s.me with widx := s.me.widx + 1 }) ∧
     (g ≠ 0 → s.me.kind = .normal →
       (∃ t, exec (.trap h code false) s = .next t ∧ TakesTrap s t 0x10 (code.setWidth 64) 0 g) ∧
       (∃ t, exec (.brkpt h code) s = .next t ∧ TakesTrap s t 0x11 (code.setWidth 64) 0 g) ∧
       ∃ t tags, exec (.trap h code true) s = .next t ∧ t.mem = s.mem ∧
         t.me = { s.me with widx := s.me.widx + 1, phase := .lanesOut, out := s.me.out ||| g } ∧
         (t.core s.myCore).laneWait = (s.core s.myCore).laneWait ++ tags ∧
         tags.map (·.lane) = (List.range 32).filter (fun l => g.getLsbD l) ∧
         ∀ x ∈ tags, x.crew = s.cur ∧ x.code = code ∧ x.dest = none ∧ x.predDest = none)) ∧
   (∀ s st sa as, s.me.priv = true → s.me.released = true → s.me.phase = .running →
     Reaches s .read 1 ((List.range 128).map fun i => (32, s.me.sv sa + BitVec.ofNat 64 i)) as →
     (∀ a ∈ as, s.isPoisoned a.loc = false) →
     let f := ofBytes (as.map fun a => memGet s.mem a.loc)
     (s.frameCrew f = none → ∃ t, exec (.hret st sa) s = .next t ∧ OnlyShared s t ∧ t.me = s.me.turned s.clk) ∧
     (∀ k, s.frameCrew f = some k → k ≠ s.cur → ∃ t, exec (.hret st sa) s = .next t ∧ t.mem = s.mem ∧
       t.me = s.me.turned s.clk ∧ (∀ j, j ≠ s.cur → j ≠ k → Map.find? t.crews j = Map.find? s.crews j) ∧
       (fld f 940 4 = 0 → (s.crew k).live ≠ 0 ∨ (s.crew k).frames ≠ [] → t.crew k = { s.crew k with
         phase := .enter (fld f 939 1 == 1), trap := none, noticed := false, sb := [], heldSince := 0, out := 0, again := false
         pc := BitVec.ofNat 64 (fld f 960 64), widx := fld f 952 8 + fld f 939 1 }) ∧
       (fld f 940 4 ≠ 0 → (t.crew k).phase = .ended ∧ (t.crew k).live = 0))) ∧
   (∀ s st wide va vb, s.me.kind = .normal → ∃ t, exec (.lhret st wide va vb) s = .next t ∧ TakesTrap s t 0x10 0xFFFF 0 s.me.active) ∧
   (∀ s st wide va vb, s.me.kind = .handler → s.me.released = true → s.me.live = s.me.active →
     (∀ l, l < 32 → s.me.active.getLsbD l = true → ∃ g n, s.me.tags[l]? = some g ∧ g.dest = some (n, wide) ∧ g.crew ≠ s.cur ∧ g.lane < 32 ∧
       8 ≤ (s.crew g.crew).alloc ∧ (s.crew g.crew).active ≠ 0) →
     (∀ l l' g g', l < 32 → l' < 32 → s.me.tags[l]? = some g → s.me.tags[l']? = some g' → l ≠ l' → ¬(g.crew = g'.crew ∧ g.lane = g'.lane)) →
     ∃ t, exec (.lhret st wide va vb) s = .next t ∧ t.mem = s.mem ∧ t.me.phase = .ended ∧ t.me.live = 0 ∧
       ∀ l g n, l < 32 → s.me.active.getLsbD l = true → s.me.tags[l]? = some g → g.dest = some (n, wide) →
         let o := s.crew g.crew
         let d := t.crew g.crew
         d.out.getLsbD g.lane = false ∧ d.laneFl g.lane = o.laneFl g.lane ||| (s.me.vl vb.toNat l).setWidth 5 ∧
         (if wide then d.vpl n g.lane = s.me.vpl va.toNat l else d.vl n g.lane = s.me.vl va.toNat l) ∧
         ((∀ j, d.out.getLsbD j = false) → o.phase = .lanesOut → d.phase = .running))) ∧
  ((∀ s st sd, s.me.priv = true → s.me.released = true → let dev := s.ctxDev s.me.ctx
     let c := Map.get {} s.ckpt dev
     let waits := fun (t : State) (w : Wait) => t.me = { s.me with
       released := false, committed := s.clk, phase := .waiting w, blockedSince := s.clk, seen := joinStamps s.me.seen s.me.readSeen }
     (c.busy = true → ∃ t, exec (.ckpt st sd) s = .next t ∧ OnlyShared s t ∧ waits t .settle) ∧
     (c.busy = false → ∃ t, exec (.ckpt st sd) s = .next t ∧ waits t (.checkpoint (c.num + 1) sd) ∧
       Map.get {} t.ckpt dev = { c with busy := true } ∧ Instr.checkpointComplete dev ∈ t.agenda ∧
       (∀ k, k ≠ s.cur → Map.find? t.crews k = Map.find? s.crews k))) ∧
   (∀ s st sd sa (slot : BitVec 3), s.me.priv = true → s.me.released = true →
     ∃ t r, exec (.svccfg st sd sa slot) s = .next t ∧ OnlyDevice s t ∧ WaitsTurned s t (.service sd) ∧ t.svcReqs = s.svcReqs ++ [r] ∧
       r.crew = s.cur ∧ r.slot = 8 * s.ctxDev s.me.ctx + slot.toNat ∧ (r.remove = true ↔ s.me.sv sa = 0) ∧
       (s.me.sv sa = 0 → r.result = 0 ∧ r.install = none) ∧
       (s.me.sv sa ≠ 0 → (r.install.isSome = true ↔ r.result = 0)) ∧ ((s.me.sv sa).toNat % 4096 ≠ 0 → r.result = 2)))

/-- R102: the privileged forms, by their words, and the trap that each of them takes in user mode, with no effect. -/
def Obligations.PrivilegedFormsTrapInUserMode : Prop :=
  (∀ w i, decode w = .ok i → (privileged i = true ↔
    w.extractLsb' 56 8 = 0xAE ∨ (w.extractLsb' 56 8 = 0xF7 ∧ w.extractLsb' 8 7 = 0) ∨ w.extractLsb' 56 8 = 0xF8 ∨
      w.extractLsb' 56 8 = 0xF9 ∨
      (w.extractLsb' 56 8 = 0xFA ∧ w.extractLsb' 12 2 = 2 ∧ (w.extractLsb' 0 5 = 0x0F ∨ w.extractLsb' 0 5 = 0x10)))) ∧
  (∀ i s, privileged i = true → s.me.priv = false → s.me.kind = .normal →
    ∃ t, exec i s = .next t ∧ TakesTrap s t 0x02 0 0 0)

/-- R27: an instruction that acts on the crew as a whole traps with cause 0x0A when the active mask differs from the live mask. -/
def Obligations.CrewWideInstructionsNeedConvergence : Prop :=
  ∀ i s, crewWide i = true → s.me.active ≠ s.me.live → s.me.kind = .normal →
    ∃ t, exec i s = .next t ∧ TakesTrap s t 0x0A 0 0 0

/-! ## Events of crews -/

/-- R12, R24, R25, R257, R280 to R283, R286 to R288, R293: the steps of the issue hardware and of what a crew waits for. A block is
entered at the lowest pending address by the lanes that wait there; a window move fills one register; at most two crews that can run
are chosen, beside those whose word has issued and awaits its result (log entry 15); effects leave in order once they are FIX_DEPTH clk old; and a crew wakes when what it waits for has come. Where the manual
leaves the order of steps open, it is the model's (log entries 7, 8 and 16), and so are the clocks that a release carries
and a returning atomic meets (log entry 68). -/
def Obligations.CrewsEnterIssueAndWake : Prop :=
  (∀ s k T w, let c := s.crew k
    c.phase = .select → c.depth = 0 → c.atoms = [] → (∃ x ∈ c.pend, c.live.getLsbD x.1 = true ∧ x.2 = T) →
    (∀ x ∈ c.pend, c.live.getLsbD x.1 = true → T.toNat ≤ x.2.toNat) → EntersAt s k T w →
    let a := maskOf fun l => c.live.getLsbD l && Map.find? c.pend l == some T
    ∃ t, exec (.blockEntry k) s = .next t ∧ OnlyCrew s t k ∧
      t.crew k = { c with
        pend := (t.crew k).pend, active := a, pc := T, hdr := w, base := c.baseNext.setWidth 16, widx := 1
        moves := (t.crew k).moves, phase := if (t.crew k).moves = [] then .running else .moving, blockedSince := s.clk } ∧
      (∀ l, l < 32 → Map.find? (t.crew k).pend l = if a.getLsbD l then none else Map.find? c.pend l) ∧
      ∀ n, n ∈ (t.crew k).moves ↔
        c.baseNext.toNat ≤ n ∧ n < c.baseNext.toNat + hdrLive w ∧ c.holdsLog (n % c.alloc) ≠ n) ∧
  (∀ s k n ms, let c := s.crew k
    let place := fun (n : Nat) => c.spill + BitVec.ofNat 64 (128 * n)
    let filled := fun (t : State) (held : List Held) (bs : List Byte) => OnlyCrew s t k ∧
      ∃ row : Row, t.crew k = { c with
        v := Map.put c.v (n % c.alloc) ⟨n, false, row⟩, moves := ms, phase := if ms = [] then .running else .moving
        readyAt := if ms = [] then max c.readyAt (s.clk + 1) else c.readyAt
        readySince := if ms = [] then s.clk else c.readySince, held := held } ∧
      ∀ l, l < 32 → row.at_ l = BitVec.ofNat 32 (ofBytes ((bs.drop (4 * l)).take 4))
    c.moves = n :: ms →
    ((∀ x, Map.find? c.v (n % c.alloc) = some x → x.dirty = false) → ∀ bs, s.fillIn k (place n) 128 = some bs →
      ∃ t, exec (.windowMove k) s = .next t ∧ filled t c.held bs) ∧
    (∀ x ls, Map.find? c.v (n % c.alloc) = some x → x.dirty = true → s.ownLocs c (place x.log) 128 .write = some ls →
      x.row.length = 32 →
      let h : Held := {
        at_ := s.clk, eff := .spill ((ls.zip (x.row.flatMap fun y => bytesOf 4 y.toNat)).filter fun b => !locCtl b.1) false }
      ∀ bs, (s.putCrew k { c with held := c.held ++ [h] }).fillIn k (place n) 128 = some bs →
        ∃ t, exec (.windowMove k) s = .next t ∧ filled t (c.held ++ [h]) bs)) ∧
  (∀ s core part, ∃ t old ks, exec (.issueSelect core part) s = .next t ∧ (∀ a, memGet t.mem a = memGet s.mem a) ∧
    List.Perm t.runq (s.runq ++ old ++ ks) ∧ ks.length ≤ 2 ∧
    (part = 5 → core % 4 = 0 → Map.get [] s.svcq (core / 4) ≠ [] → ks.length ≤ 1) ∧
    (∀ k ∈ old ++ ks, coreOfKey k = core ∧ partOfSlot (slotOfKey k) = part ∧
      ∃ c, (k, c) ∈ s.crews ∧ c.canRun s.clk = true ∧ s.frozen c = false) ∧
    (∀ k ∈ ks, ∃ c, (k, c) ∈ s.crews ∧ c.again = false ∧ c.wasHeld = false) ∧ (∀ k ∈ old, ∃ c, (k, c) ∈ s.crews ∧ c.again = true) ∧
    ((∃ kc ∈ s.crews, coreOfKey kc.1 = core ∧ partOfSlot (slotOfKey kc.1) = part ∧ kc.2.canRun s.clk = true ∧
      s.frozen kc.2 = false ∧ kc.2.throt = false ∧ kc.2.again = false ∧ kc.2.wasHeld = false ∧
      ∀ i, s.nextInstr kc.1 kc.2 = some i → kc.2.scoreOk s.clk i = true ∧ s.roomHolds kc.1 kc.2 i = false ∧
        (needsSettled i = true → kc.2.drained = true)) →
      bufferFull (s.partCrews core part) = false → ks ≠ [])) ∧
  (∀ s core, let cs := s.crews.filter fun kc => decide (coreOfKey kc.1 = core ∧ slotOfKey kc.1 < 96)
    let n := max 4 (96 - (cs.map fun kc => kc.2.score).sum / 32)
    ∃ t, exec (.throttleRecompute core) s = .next t ∧ { t with cores := s.cores } = s ∧
      (∀ j, j ≠ core → Map.find? t.cores j = Map.find? s.cores j) ∧
      t.core core = { s.core core with allowed := (t.core core).allowed } ∧
      ((t.core core).allowed = none ↔ cs.length < n) ∧ ∀ ks, (t.core core).allowed = some ks → ks.length = n) ∧
  (∀ s core, ∃ t, exec (.scoreHalving core) s = .next t ∧ { t with crews := s.crews } = s ∧
    ∀ k, Map.find? t.crews k = (Map.find? s.crews k).map fun c =>
      if coreOfKey k = core then { c with score := c.score / 2 } else c) ∧
  (∀ s k, (s.crew k).phase = .running → (s.crew k).heldSince ≠ 0 → (s.crew k).heldSince + 2048 ≤ s.clk →
    ∃ t, exec (.throttleAdmitTimeout k) s = .next t ∧ OnlyCrew s t k ∧ t.crew k = { s.crew k with admitted := true }) ∧
  (∀ s k h hs, (s.crew k).held = h :: hs → fixDue s (s.crew k) h.at_ → h.rel = none → (∀ o ∈ (s.crew k).atoms, h.at_ ≤ o.at_) →
    (s.crew k).kind = .normal → s.inject.arm = false → s.offs = [] → s.bias.busy = false →
    (∀ cs, h.eff = .store cs → (∀ c ∈ cs, locCtl c.1 = false) → s.behindReduction k cs = false →
      ∃ t, exec (.effectLeavesCore k) s = .next t ∧ Wrote s t cs ∧ (t.crew k).held = hs) ∧
    (∀ core num ls cs p, h.eff = .plate core num ls cs → (∀ n, clusterOfCore n = clusterOfCore core → (s.core n).arrivals = []) →
      (s.party (s.crew k).party).plates.find? (fun x => x.num == num) = some p → p.owner = false →
      ∃ t, exec (.effectLeavesCore k) s = .next t ∧ OnlyCrew s t k ∧ t.crew k = { s.crew k with held := hs } ∧
        (t.core core).arrivals = [(k, { h with relTs := (s.crew k).carries h })] ∧
        ∀ a, memGet ((t.platesUpTo (clusterOfCore core) none).core core).plate a = match (cs.filter fun c => c.1 == a).getLast? with
          | some c => c.2
          | none => memGet (s.core core).plate a)) ∧
  (∀ s k, (s.crew k).phase = .waiting .load →
    ∃ t, exec (.loadReturn k) s = .next t ∧ OnlyCrew s t k ∧ t.crew k = (s.crew k).woken s.clk) ∧
  (∀ s k d sd m, (s.crew k).phase = .waiting (.park d sd) → (s.crew k).mon = some m →
    let back := fun (t : State) (x : W64) => OnlyCrew s t k ∧
      t.crew k = { (s.crew k).woken s.clk with
        s := (t.crew k).s, mon := none, widx := (s.crew k).widx + 1, committed := s.clk } ∧
      (∀ r, some r ≠ sd → (t.crew k).sv r = (s.crew k).sv r) ∧ ∀ r, sd = some r → (t.crew k).sv r = if r = 0 then 0 else x
    (m.hit = true → ∃ t, exec (.parkWake k) s = .next t ∧ back t 0) ∧
    (m.hit = false → ∃ t, exec (.parkWake k) s = .next t ∧ t = s) ∧
    (∀ at_, d = some at_ → at_ ≤ s.clk → m.hit = false →
      (sd ≠ none → ∃ t, exec (.parkTimeout k) s = .next t ∧ back t 1) ∧
      (sd = none → (s.crew k).kind = .normal → ∃ t, exec (.parkTimeout k) s = .next t ∧ OnlyCrew s t k ∧
        (t.crew k).phase = .trapped ∧ (t.crew k).mon = none ∧
        (t.crew k).trap = some { cause := 0x09, detail1 := m.va, pc := (s.crew k).pc, widx := (s.crew k).widx, word := (s.crew k).word }))) ∧
  (∀ s k sc, let c := s.crew k
    let ts := s.clocksOf k
    c.relScope? = some sc → s.relReady c sc = true → s.coversFlip c = false →
    (((sc ≠ .dev ∧ sc ≠ .sys) ∨ (s.bias.busy = false ∧ s.toClean (coreOfKey k) = [] ∧ ((s.ctx c.ctx).cchk = false ∨ c.ivals = []))) →
      ∃ t, exec (.releaseComplete k) s = .next t ∧ OnlyCrew s t k ∧ t.crew k = match c.held with
        | [] => { c.woken s.clk with released := true, relTs := ts, ivals := (t.crew k).ivals }
        | h :: hs => { c with held := { h with rel := none, relTs := ts } :: hs, ivals := (t.crew k).ivals }) ∧
    ((sc = .dev ∨ sc = .sys) → s.bias.busy = false → s.toClean (coreOfKey k) ≠ [] →
      ∃ t, exec (.releaseComplete k) s = .next t ∧ OnlyCrew s t k ∧
        t.crew k = { c with fence := c.fence + (s.toClean (coreOfKey k)).length } ∧
        ∀ x ∈ s.toClean (coreOfKey k), Instr.cln (dieOfCore (coreOfKey k)) x.line x.f x.l ∈ t.agenda)) ∧
  (∀ s k sc, let c := s.crew k
    (c.phase = .waiting (.release sc) → c.held = [] →
      (s.relReady c sc = true ↔ (sc = .crew ∨ c.fence = 0) ∧ c.atoms = [] ∧ fixDue s c c.blockedSince)) ∧
    (∀ h hs, c.held = h :: hs → h.rel = some sc →
      (s.relReady c sc = true ↔ (sc = .crew ∨ c.fence = 0) ∧ ∀ o ∈ c.atoms, h.at_ ≤ o.at_))) ∧
  (∀ s k o os, let c := s.crew k
    c.atoms = o :: os → o.groups = 0 → (o.results.map (·.1)).Nodup → 8 ≤ c.alloc →
    (o.bad = [] → ∃ t, exec (.atomicReturn k) s = .next t ∧ OnlyCrew s t k ∧
      (t.crew k).atoms = (os.filter fun x => x.token != o.token) ∧ (t.crew k).phase = c.phase ∧
      (t.crew k).readWts = (match o.wts with | some x => stampMax c.readWts x | none => c.readWts) ∧
      (t.crew k).readSeen = joinStamps c.readSeen o.clocks ∧
      (∀ vd wide, o.dest = .lanes vd wide → vd < 2048 → ∀ l v, l < 32 → (l, some v) ∈ o.results →
        ({ t.crew k with base := 0 } : Crew).vn wide (BitVec.ofNat 11 vd) l = if wide then v.toNat else v.toNat % 2 ^ 32) ∧
      (∀ sd ty v, o.dest = .scalar sd ty → o.results = [(32, some v)] → (t.crew k).sv sd = if sd = 0 then 0 else extOld ty v)) ∧
    (∀ l va, o.bad = [(l, va)] → l < 33 → c.kind = .normal → (∀ p ∈ s.past, p.key = k → p.at_ ≤ o.at_) →
      ∃ t r, exec (.atomicReturn k) s = .next t ∧ OnlyCrew s t k ∧ (t.crew k).phase = .trapped ∧ (t.crew k).trap = some r ∧
        r.cause = 0x06 ∧ r.detail1 = va ∧ r.perf = true ∧ r.pc = o.pc ∧ r.widx = o.widx ∧ r.word = o.word ∧
        ∀ j, j < 32 → r.lanes.getLsbD j = decide (j = l)))

/-! ## Events of the memory system -/

/-- R42, R45, R196, R257 to R261, R264 to R266, R271, R293, R365: the steps of the walker, the caches, the leases, the directory, the
records and the owners of atomics. A request leaves its span with the agent, in M for a write; a span that is given up leaves no copy;
a home write leaves its bytes in memory; an atomic leaves the value of its operation. The times of these steps are the model's (log
entries 7, 8 and 24). -/
def Obligations.TheMemorySystemTakesItsSteps : Prop :=
  (∀ s core ctx va write lf, canonical va = true → s.walk ctx va = some lf → s.flipping lf.at_ = false →
    (∀ j, j < 8 → locCtl (lf.at_ + j) = false) → s.inject.arm = false → s.offs = [] →
    ∃ t, exec (.pageWalkDone core ctx va write) s = .next t ∧ t.tlbHas core ctx va write = true ∧
      memNat t.mem lf.at_ 8 = lf.pte ||| (if write then 0xC0 else 0x40) ∧
      ∀ a, (a < lf.at_ ∨ lf.at_ + 8 ≤ a) → memGet t.mem a = memGet s.mem a) ∧
  (∀ s core line f l, (((s.core core).copy? line f l).isSome = true → coreOfKey s.cur ≠ core ∨ s.me.mustRead line f l = false →
      ∃ t, exec (.l1Read core line f l) s = .next t ∧ t = s) ∧
    (((s.core core).copy? line f l).isNone = true → ∃ t, exec (.l1Read core line f l) s = .next t ∧
      (∀ a, memGet t.mem a = memGet s.mem a) ∧ Instr.l2Read core line f l ∈ t.agenda ∧
      (((s.die (dieOfCore core)).span? line f l).isNone = true → Instr.getS (dieOfCore core) line f l ∈ t.agenda))) ∧
  (∀ s core line f l x, (s.die (dieOfCore core)).span? line f l = some x → s.offs = [] →
    let ts := (s.core core).ts
    (∃ t y, exec (.l2Read core line f l) s = .next t ∧ (∀ a, memGet t.mem a = memGet s.mem a) ∧ (t.core core).l1.head? = some y ∧
      y.line = line ∧ y.f = x.f ∧ y.l = x.l ∧ y.words = s.spanWords line x.f x.l ∧ y.wts = x.wts ∧
      y.leaseEnd = stampMax x.rts (ts + (s.die (dieOfCore core)).lease.setWidth 16) ∧ (t.core core).ts = ts) ∧
    (∃ t y, exec (.l2Write core line f l) s = .next t ∧ (∀ a, memGet t.mem a = memGet s.mem a) ∧ (t.core core).l1.head? = some y ∧
      (t.core core).ts = stampMax ts (x.rts + 1) ∧ y.wts = (t.core core).ts ∧ y.leaseEnd = (t.core core).ts ∧
      ({ x with wts := (t.core core).ts, rts := (t.core core).ts, unclean := true } : L2Span) ∈ (t.die (dieOfCore core)).l2)) ∧
  (∀ s d n, 36 * d ≤ n → n < 36 * d + 36 → ∃ t, exec (.leaseTick d) s = .next t ∧ (∀ a, memGet t.mem a = memGet s.mem a) ∧
    ((t.core n).ts = (s.core n).ts + 1 ∨
      ∃ m, 36 * d ≤ m ∧ m < 36 * d + 36 ∧ 2 ^ 13 < ((s.core m).ts - (s.core n).ts).toNat ∧ (t.core n).ts = (s.core m).ts + 1 - 8192)) ∧
  (∀ s d n x, 36 * d ≤ n → n < 36 * d + 36 → ∃ t, exec (.timestampSweep d) s = .next t ∧ (∀ a, memGet t.mem a = memGet s.mem a) ∧
    (x ∈ (t.core n).l1 ↔ x ∈ (s.core n).l1 ∧
      ¬(((t.core n).ts - x.leaseEnd).toNat < 2 ^ 15 ∧ 2 ^ 14 < ((t.core n).ts - x.leaseEnd).toNat))) ∧
  (∀ s core line f l x, ∃ t, exec (.dropMessage core line f l) s = .next t ∧ { t with cores := s.cores } = s ∧
    (∀ j, j ≠ core → Map.find? t.cores j = Map.find? s.cores j) ∧
    (x ∈ (t.core core).l1 ↔ x ∈ (s.core core).l1 ∧ ¬(x.line = line ∧ f ≤ x.l ∧ x.f ≤ l))) ∧
  (∀ s a line f l, f ≤ l → l < 32 → s.flipping (128 * line) = false →
    (∃ t, exec (.getS a line f l) s = .next t ∧ (t.heldAs a line f l).isSome = true) ∧
    (∀ i ∈ ([.getX a line f l, .upg a line f l] : List Instr), ∃ t, exec i s = .next t ∧ t.heldAs a line f l = some .m ∧
      (s.heldAs a line f l = none → ∀ b, b ≠ a → t.heldAs b line f l = none)) ∧
    (s.heldAs a line f l = some .m → ∃ t, exec (.cln a line f l) s = .next t ∧ t.mem = s.mem ∧ t.heldAs a line f l = some .e) ∧
    ((s.heldAs a line f l = some .m ∨ s.heldAs a line f l = some .o) →
      ∃ t, exec (.wb a line f l) s = .next t ∧ t.heldAs a line f l = none) ∧
    (s.heldAs a line f l = some .e → ∃ t, exec (.evict a line f l) s = .next t ∧ t.heldAs a line f l = none) ∧
    (s.heldAs a line f l = some .s → a < 8 → ∃ t, exec (.evict a line f l) s = .next t ∧ t.mem = s.mem ∧
      ∀ x ∈ (t.die a).l2, ¬(x.line = line ∧ f ≤ x.l ∧ x.f ≤ l)) ∧
    (∃ t, exec (.snoop a line f l true) s = .next t ∧ t.heldAs a line f l = none) ∧
    (s.heldAs a line f l = some .m → ∃ t, exec (.snoop a line f l false) s = .next t ∧ t.mem = s.mem ∧ t.heldAs a line f l = some .o) ∧
    (s.heldAs a line f l = some .e → s.offs = [] → ∃ t, exec (.snoop a line f l false) s = .next t ∧ t.mem = s.mem ∧ t.heldAs a line f l = some .s)) ∧
  (∀ s agent loc bs, locCtl loc = false → (∀ c ∈ cellsOf loc bs, locCtl c.1 = false) → s.flipping loc = false → s.inject.arm = false →
    s.offs = [] →
    ∃ t, exec (.homeWrite agent loc bs) s = .next t ∧ Wrote s t (cellsOf loc bs)) ∧
  (∀ s agent loc bs, locCtl loc = true → agent ≠ 56 → agent ≠ 57 → ∃ t, exec (.homeWrite agent loc bs) s = .next t ∧ t = s) ∧
  (∀ s k, s.hasCrew k = true → ∃ t, exec (.countedRequestAck k) s = .next t ∧ OnlyCrew s t k ∧
    t.crew k = { s.crew k with fence := (s.crew k).fence - 1 }) ∧
  (∀ s parcel lctr, ∃ t, exec (.dirtyBitMessage parcel lctr) s = .next t ∧ { t with dirtyMaps := s.dirtyMaps } = s ∧
    ∀ n m, Map.find? s.dirtyMaps n = some m → ∃ m', Map.find? t.dirtyMaps n = some m' ∧ { m' with bits := m.bits } = m ∧
      ∀ p, p ∈ m'.bits ↔ p ∈ m.bits ∨ (p = parcelOfLoc (4096 * parcel) ∧ m.en = true ∧ m.base.toNat ≤ p ∧
        p ≤ m.base.toNat + m.len.toNat ∧ (locPair (4096 * parcel) = 8 ∨ s.ctxDev m.ctx.toNat = devOfPair s.mode.mode (locPair (4096 * parcel))) ∧
        ∀ x, lctr = some x → s.phys m.ctx.toNat 4096 m.lctr.toNat ≠ x)) ∧
  (∀ s cluster g gs r, Map.get [] s.svcq cluster = g :: gs → g.reqs = [r] → s.flipping r.loc = false → s.svcSlot g r = none →
    locCtl r.loc = false → r.loc % (tyBits g.ty / 8) = 0 → s.inject.arm = false → s.offs = [] →
    s.dead.contains (dieOfCore (4 * g.owner)) = false → s.isPoisoned r.loc = false → (tyBits g.ty = 32 ∨ tyBits g.ty = 64) →
    let w := tyBits g.ty / 8
    ∃ t, exec (.atomicRequestExecute cluster) s = .next t ∧ Map.get [] t.svcq cluster = gs ∧
      memNat t.mem r.loc w = (match atomVal g.op g.ty g.sat (memNat s.mem r.loc w) r.x.toNat r.c.toNat with
        | some v => v % 2 ^ (8 * w)
        | none => memNat s.mem r.loc w) ∧
      ∀ a, (a < r.loc ∨ r.loc + w ≤ a) → memGet t.mem a = memGet s.mem a) ∧
  (∀ s r rs, s.recs = r :: rs → r.f ≤ r.l → NoCompanionWrites s → ∃ t, exec .checkerRecord s = .next t ∧ (∀ a, memGet t.mem a = memGet s.mem a) ∧ t.recs = rs ∧
    ∃ e, t.ival? r.line r.f r.l = some e ∧ e.num = r.num ∧ (r.kind = .close → e.closeHash = some r.hash) ∧
      (r.kind = .open_ → e.openHash = some r.hash)) ∧
  (∀ s line f l e, f ≤ l → s.ival? line f l = some e → e.closeHash.isSome = true → e.closed + 65536 ≤ s.clk → e.owed = [] →
    NoCompanionWrites s → let home := s.checkerOf (s.lineDev line) (128 * line)
    ∃ t, exec (.recordLostTimeout line f l) s = .next t ∧ (∀ a, memGet t.mem a = memGet s.mem a) ∧
      (Map.get {} t.memCnt home).lost = satInc (Map.get {} s.memCnt home).lost ∧
      ∃ e', t.ival? line f l = some e' ∧ e'.closeHash = none)

/-- R37, R54, R64, R205, R207 to R213, R220 to R225, R232, R236, R242: the steps of plate stores, queues, barriers, sheet homes, the
matrix array and the engines. The times at which they take place are the model's (log entries 17 and 18),
and the stamp that a barrier's phase keeps is its reading (log entry 32). -/
def Obligations.ObjectsAndEnginesTakeTheirSteps : Prop :=
  (∀ s core b p, (s.core core).setBacks = [b] → Map.find? s.parties b.party = some p → s.setBackBad b = none →
    ∃ t, exec (.plateStoreArbitration core) s = .next t ∧ t.mem = s.mem ∧ t.crews = s.crews ∧ (t.core core).setBacks = [] ∧
      (∀ j, j ≠ b.party → Map.find? t.parties j = Map.find? s.parties j) ∧
      t.party b.party = { p with plates := p.plates.map fun y =>
        if y.num = b.plate then { y with owner := false, eng := 0, holder := 0, stamp := some b.stamp, ivals := b.ivals } else y } ∧
      ∀ e, b.ev = some e → e ∈ (t.core e.core).evs ∧ EndsWith s t (.eventRecordPost e.core e.eng)) ∧
  (∀ s p q P x k c, Map.find? s.parties p = some P → Map.find? P.queues q = some x → LoneWaiter s p (atQueue q) k c →
    (∀ sd i, c.phase = .waiting (.queuePop q sd) → x.items = [i] →
      ∃ t, exec (.clusterQueueUpdate p q) s = .next t ∧ OnlyCrew s t k ∧
        Map.find? (t.party p).queues q = some { x with items := [] } ∧ t.crew k = { c.goesOn s.clk with
          s := (t.crew k).s, seen := joinStamps c.seen i.stamp, ivals := (t.crew k).ivals } ∧
        (∀ r, r ≠ sd → (t.crew k).sv r = c.sv r) ∧ (t.crew k).sv sd = if sd = 0 then 0 else i.item.setWidth 64) ∧
    (∀ item, c.phase = .waiting (.queuePush q item) → Map.get 0 x.allow c.num ≠ 0 → x.items.length + 1 = x.depth →
      ∃ t y, exec (.clusterQueueUpdate p q) s = .next t ∧ OnlyCrew s t k ∧ Map.find? (t.party p).queues q = some y ∧
        Pushed x y c.num item c.relTs ∧ t.crew k = c.goesOn s.clk)) ∧
  (∀ s p bar b k c a a1 a2 a3 st sts, Map.find? (s.party p).bars bar = some b → LoneWaiter s p (atBarrier bar) k c →
    c.phase = .waiting (.barrier bar b.cur) → b.arrived = [a, a1, a2, a3] → b.stamps = st :: sts → sts.length = 3 →
    b.mask &&& ~~~a1 ≠ 0 →
    (a ≠ 0 → b.mask &&& ~~~a = 0 →
      ∃ t y, exec (.barrierUpdate p bar) s = .next t ∧ OnlyCrew s t k ∧ Map.find? (t.party p).bars bar = some y ∧ y.mask = b.mask ∧
        y.cur = b.cur + 1 ∧ y.arrived = [a1, a2, a3, 0] ∧ y.stamps = sts ++ [[]] ∧
        y.ended = Map.put b.ended b.cur.toNat st ∧ t.crew k = { c.goesOn s.clk with seen := joinStamps c.seen st } ∧
        (t.core (coreOfKey k)).ts = keptClock st (dieOfCore (coreOfKey k)) (s.core (coreOfKey k)).ts) ∧
    (b.mask &&& ~~~a ≠ 0 →
      ∃ t, exec (.barrierUpdate p bar) s = .next t ∧ t.mem = s.mem ∧ t.crews = s.crews ∧ Map.find? (t.party p).bars bar = some b)) ∧
  (∀ s h x k slot epoch payload kn sd, Map.get {} s.sheets h = x → x.reqs = [⟨k, .post slot epoch payload kn sd⟩] →
    (s.crew k).phase = .waiting .sheet → x.en = true → x.ctx.toNat = (s.crew k).ctx → slot ≤ x.slots.toNat → epoch = x.epoch →
    x.level ≠ 0xFFFFFFFF →
    ∃ t y, exec (.sheetHomePost h) s = .next t ∧ Map.find? t.sheets h = some y ∧
      { y with stamps := x.stamps } = { x with
        level := x.level + 1, posted := x.posted ||| (1 <<< slot), reqs := [] } ∧
      (∀ j, j ≠ k → { t.crew j with mon := (s.crew j).mon } = s.crew j) ∧
      t.crew k = { (s.crew k).goesOn s.clk with
        s := (t.crew k).s, k := (t.crew k).k, mon := (t.crew k).mon, seen := joinStamps (s.crew k).seen y.stamps } ∧
      (∀ r, r ≠ sd → (t.crew k).sv r = (s.crew k).sv r) ∧ (t.crew k).sv sd = (if sd = 0 then 0 else (x.level + 1).setWidth 64) ∧
      (∀ j, j ≠ kn → (t.crew k).kv j = (s.crew k).kv j) ∧
      (t.crew k).kv kn = y.posted &&& BitVec.ofNat 1024 (2 ^ (x.slots.toNat + 1) - 1) ∧
      ∀ s1, { s with sheets := t.sheets }.devWrite x.ctx.toNat (BitVec.ofNat 64 (x.image.toNat * 128 + 16 * slot))
        (bytesOf 16 ((x.level + 1).toNat * 2 ^ 96 + (s.slotGen x slot + 1).toNat * 2 ^ 64 + payload.toNat)) = some s1 →
        t.mem = s1.mem) ∧
  (∀ s h x k sd, Map.get {} s.sheets h = x → x.reqs = [⟨k, .reset sd⟩] → (s.crew k).phase = .waiting .sheet → x.en = true →
    x.ctx.toNat = (s.crew k).ctx →
    ∃ t, exec (.sheetHomePost h) s = .next t ∧
      Map.get {} t.sheets h = { x with level := 0, posted := 0, epoch := x.epoch + 1, reqs := [] } ∧
      (∀ j, j ≠ h → Map.find? t.sheets j = Map.find? s.sheets j) ∧
      (∀ j, j ≠ k → { t.crew j with mon := (s.crew j).mon } = s.crew j) ∧
      t.crew k = { (s.crew k).goesOn s.clk with s := (t.crew k).s, mon := (t.crew k).mon } ∧
      (∀ r, r ≠ sd → (t.crew k).sv r = (s.crew k).sv r) ∧ (t.crew k).sv sd = if sd = 0 then 0 else (x.epoch + 1).setWidth 64) ∧
  (∀ s core x xs, (s.core core).array = x :: xs → x.stopped = false →
    ((s.core core).arrayUntil = none → ∃ t, exec (.matrixCommandPerform core) s = .next t ∧ { t with cores := s.cores } = s ∧
      t.core core = { s.core core with arrayUntil := some (s.clk + x.dur) }) ∧
    (∀ u, (s.core core).arrayUntil = some u → s.clk < u → ∃ t, exec (.matrixCommandPerform core) s = .next t ∧ t = s) ∧
    (∀ u, (s.core core).arrayUntil = some u → u ≤ s.clk → s.partBehind core x = true →
      ∃ t, exec (.matrixCommandPerform core) s = .next t ∧ t = s) ∧
    (∀ u, (s.core core).arrayUntil = some u → u ≤ s.clk → s.partBehind core x = false →
      ∃ t, exec (.matrixCommandPerform core) s = .next t ∧ t.mem = s.mem ∧ (t.core core).array = xs ∧
      (t.core core).arrayUntil = (xs.find? fun y => !y.stopped).map (fun y => s.clk + y.dur) ∧ Instr.batchRetire x.crew ∈ t.agenda ∧
      (∀ e, (∀ i j, i < x.reg.rows → j < x.reg.cols → e ≠ (x.reg.row0 + i) * 256 + x.reg.col0 + j) →
        Map.get 0 (t.core core).acc e = Map.get 0 (s.core core).acc e) ∧
      (x.op = .aczero → ∀ i j, i < x.reg.rows → j < x.reg.cols →
        Map.get 0 (t.core core).acc ((x.reg.row0 + i) * 256 + x.reg.col0 + j) = 0) ∧
      ∀ ty a b n part, x.op = .mma ty a b n part → part ≠ .partner → x.reg.col0 + x.reg.cols ≤ 256 → ∀ i j, i < x.reg.rows → j < x.reg.cols →
        Map.get 0 (t.core core).acc ((x.reg.row0 + i) * 256 + x.reg.col0 + j) =
          (accumulate ty n (a.vec (s.core a.core).plate ty n i) (b.vec (s.core b.core).plate ty n j)
            (Map.get 0 (s.core core).acc ((x.reg.row0 + i) * 256 + x.reg.col0 + j), 0)).1)) ∧
  (∀ s k b, s.hasCrew k = true → isEnded k = false → (s.crew k).closedB = [b] → b.retired = false → b.left = 0 →
    ∃ t, exec (.batchRetire k) s = .next t ∧ OnlyCrew s t k ∧ (t.crew k).closedB = [{ b with retired := true }] ∧
      ((s.crew k).phase = .waiting (.batch b.num) ∨ (s.crew k).phase = .waiting .batchRoom →
        t.crew k = { (s.crew k).woken s.clk with closedB := [{ b with retired := true }] })) ∧
  (∀ s k u, (s.crew k).phase = .waiting (.plateRead u) →
    (u ≤ s.clk → ∃ t, exec (.acldReadDone k) s = .next t ∧ OnlyCrew s t k ∧ t.crew k = (s.crew k).woken s.clk) ∧
    (s.clk < u → ∃ t, exec (.acldReadDone k) s = .next t ∧ t = s)) ∧
  (∀ s k, (s.crew k).phase = .waiting .plateWrite →
    ((∀ x ∈ (s.core (coreOfKey k)).array, x.crew ≠ k) →
      ∃ t, exec (.acstWritesDone k) s = .next t ∧ OnlyCrew s t k ∧ t.crew k = (s.crew k).woken s.clk) ∧
    ((∃ x ∈ (s.core (coreOfKey k)).array, x.crew = k) → ∃ t, exec (.acstWritesDone k) s = .next t ∧ t = s)) ∧
  (∀ s core c, (s.core core).copyQ = [c] → c.stopped = false → c.eng = .copy →
    (s.clk < c.at_ + (s.ctx c.ctx).fix.toNat → ∃ t, exec (.engineCommandComplete core .copy) s = .next t ∧ t = s) ∧
    (∀ p x, c.at_ + (s.ctx c.ctx).fix.toNat ≤ s.clk → s.cmdPlate c = some p → layUnits c.rec_ = [x] → c.toGlobal = false →
      c.pos = 0 → c.status = 0 → s.inject.arm = false → s.offs = [] → s.bias.busy = false →
      (∀ i, i < layUnit c.rec_ → ∃ pa, s.xlate c.ctx (c.g + BitVec.ofNat 64 x.1 + BitVec.ofNat 64 i) .read = .ok pa ∧
        s.isPoisoned (s.locOf c.ctx pa) = false ∧ locCtl (s.locOf c.ctx pa) = false) →
      let home := 4 * (s.party c.party).cluster + p.core
      ∃ t, exec (.engineCommandComplete core .copy) s = .next t ∧ (∀ a, memGet t.mem a = memGet s.mem a) ∧
        (∀ k, { t.crew k with merges := (s.crew k).merges } = s.crew k) ∧ (t.core core).copyQ = [] ∧ Instr.plateStoreArbitration home ∈ t.agenda ∧
        (∃ b, (t.core home).setBacks = (s.core home).setBacks ++ [b] ∧ b.party = c.party ∧ b.plate = p.num ∧
          ∀ q, c.ev = some q → ∃ e, b.ev = some e ∧ e.party = c.party ∧ e.q = q ∧
            e.item = BitVec.ofNat 32 (c.plate * 2 ^ 24 + 1 * 2 ^ 21 + c.seq)) ∧
        ∀ i pa, i < layUnit c.rec_ → s.xlate c.ctx (c.g + BitVec.ofNat 64 x.1 + BitVec.ofNat 64 i) .read = .ok pa →
          memGet (t.core home).plate (1024 * p.base + c.base + x.2 + i) = memGet s.mem (s.locOf c.ctx pa))) ∧
  (∀ s core c, (s.core core).collQ = [c] → c.stopped = false → c.at_ + (s.ctx c.ctx).fix.toNat ≤ s.clk →
    let n := s.phys c.ctx 4096 c.group
    let g : CollGroup := Map.get {} s.groups n
    g.ctx.toNat = c.ctx → s.inShare 4096 c.group = true → c.rank < g.members.toNat → (∀ a ∈ g.arrivals, a.rank ≠ c.rank) →
    ∃ t, exec (.engineCommandComplete core .coll) s = .next t ∧ t.mem = s.mem ∧ t.crews = s.crews ∧ (t.core core).collQ = [] ∧
      Map.find? t.groups n = some { g with arrivals := g.arrivals ++ [⟨core, c.rank, c⟩] } ∧
      (g.arrivals.length + 1 = g.members.toNat → Instr.collectiveCombine n ∈ t.agenda)) ∧
  (∀ s core e r p x, (s.core core).evs = [r] → r.eng = e → Map.find? s.parties r.party = some p → Map.find? p.queues r.q = some x →
    x.event = true → (∀ c ∈ s.cores, ∀ y ∈ c.2.evs, y.before r = false) →
    (x.items.length < x.depth → ∃ t, exec (.eventRecordPost core e) s = .next t ∧ t.mem = s.mem ∧ t.crews = s.crews ∧
      (t.core core).evs = [] ∧ Instr.clusterQueueUpdate r.party r.q ∈ t.late ∧
      Map.find? (t.party r.party).queues r.q = some { x with items := x.items ++ [⟨r.item, [(dieOfCore r.core, r.stamp)]⟩] }) ∧
    (x.depth ≤ x.items.length → ∃ t, exec (.eventRecordPost core e) s = .next t ∧ t = s)) ∧
  (∀ s g a b pa pb (ty : ITy) i, let x : CollGroup := Map.get {} s.groups g
    x.members = 2 → x.arrivals = [a, b] → a.rank < b.rank → a.cmd.op = .add → b.cmd.op = .add → a.cmd.ty = .int ty → b.cmd.ty = .int ty →
    ty.bits = 32 ∨ ty.bits = 64 → a.cmd.bytes = b.cmd.bytes → s.cmdPlate a.cmd = some pa → s.cmdPlate b.cmd = some pb →
    let ha := 4 * (s.party a.cmd.party).cluster + pa.core
    let hb := 4 * (s.party b.cmd.party).cluster + pb.core
    let w := ty.bits / 8
    ha ≠ hb → i < a.cmd.bytes / w →
    let xa := memNat (s.core ha).plate (1024 * pa.base + a.cmd.offs + w * i) w
    let xb := memNat (s.core hb).plate (1024 * pb.base + b.cmd.offs + w * i) w
    ∃ t, exec (.collectiveCombine g) s = .next t ∧ t.mem = s.mem ∧ t.crews = s.crews ∧ (Map.get {} t.groups g).arrivals = [] ∧
      memNat (t.core ha).plate (1024 * pa.base + a.cmd.offs + w * i) w = (xa + xb) % 2 ^ (8 * w) ∧
      memNat (t.core hb).plate (1024 * pb.base + b.cmd.offs + w * i) w = (xa + xb) % 2 ^ (8 * w) ∧
      Instr.plateStoreArbitration ha ∈ t.agenda ∧ Instr.plateStoreArbitration hb ∈ t.agenda)

/-! ## Events of crews, parties and launches -/

/-- R30, R33, R254, R315, R320 to R322, R325, R329: the ends of crews and of instances, handler crews, notices, service changes and
strikes. Choices: the replay's registers and held effects (log entry 14), records at an instance's completion (log entry 9), a notice
whatever the queue's context (log entry 42), and log entries 13, 40 and 43. -/
def Obligations.CrewsEndAndAreHandled : Prop :=
  (∀ s k, CrewOver s k → let c := s.crew k
    let p := s.party c.party
    (p.ended + 1 < p.ncrews ∨ (p.ended + 1 = p.ncrews ∧ p.packet.getLsbD 6 = false)) →
    ∃ t, exec (.crewEnd k) s = .next t ∧ t.mem = s.mem ∧ t.hasCrew k = false ∧
      (∀ j, j ≠ k → t.hasCrew j = s.hasCrew j ∧ { t.crew j with tags := (s.crew j).tags } = s.crew j) ∧
      (t.core (coreOfKey k)).idleSince = s.clk ∧
      (p.ended + 1 < p.ncrews → (t.party c.party).ended = p.ended + 1 ∧ k ∉ (t.party c.party).crews ∧
        ∀ n b a as, Map.find? p.bars n = some b → b.mask.getLsbD c.num = true → b.arrived = a :: as →
          ∃ b', Map.find? (t.party c.party).bars n = some b' ∧ b'.mask = b.mask &&& ~~~((1 : W64) <<< c.num) ∧
            b'.arrived = (a ||| ((1 : W64) <<< c.num)) :: as) ∧
      (p.ended + 1 = p.ncrews → (t.counter p.lctr).count = (s.counter p.lctr).count + 1 ∧
        ((s.counter p.lctr).count + 1 = (s.counter p.lctr).endv → (s.counter p.lctr).done = false →
          Instr.instanceComplete p.lctr ∈ t.agenda))) ∧
  (∀ s n, let c := s.counter n
    c.done = false → c.count = c.endv → s.instanceBusy n = false → s.bias.busy = false → NoCompanionWrites s → c.caddr = 0 →
    ∃ t, exec (.instanceComplete n) s = .next t ∧ (∀ a, memGet t.mem a = memGet s.mem a) ∧ t.recs = [] ∧ (t.counter n).done = true ∧
      (t.counter n).canc = c.cancelReq ∧ (t.counter n).endv = c.endv ∧
      ∀ lv p ps, c.parents = (lv, p) :: ps → p ≠ n → (t.counter p).count = (s.counter p).count + 1) ∧
  (∀ s n pa, let c := s.counter n
    c.done = false → c.count = c.endv → s.instanceBusy n = false → NoCompanionWrites s → c.caddr ≠ 0 → c.caddr.toNat % 8 = 0 →
    s.bias.busy = false → s.inject.arm = false → s.offs = [] → s.cxl = [] → s.host = [] →
    s.xlate c.ctx.toNat c.caddr .write = .ok pa → pa < ctlBase →
    let v := if c.level = .launch then c.cval.toNat
      else 2 ^ 63 + (if c.cancelReq then 2 ^ 62 else 0) + c.endv.toNat * 2 ^ 24 + c.endv.toNat
    ∃ t, exec (.instanceComplete n) s = .next t ∧ (t.counter n).done = true ∧
      let at_ := s.homePair c.ctx.toNat pa * 2 ^ 52 + pa
      memNat t.mem at_ 8 = v ∧ ∀ a, (a < at_ ∨ at_ + 8 ≤ a) → memGet t.mem a = memGet s.mem a) ∧
  (∀ s core ts t0, LanesWait s core ts t0 →
    (ts.length = 32 → ∃ t h, exec (.handlerCrewForm core) s = .next t ∧ Map.find? t.crews (crewKey core 96) = some h ∧
      HandlerFormed s t core ts (s.crew t0.crew) h) ∧
    (ts.length < 32 → ∃ t, exec (.handlerCrewForm core) s = .next t ∧ t = s) ∧
    ((∃ x ∈ ts, x.since + 256 ≤ s.clk) → ∃ t h, exec (.handlerFormTimeout core) s = .next t ∧
      Map.find? t.crews (crewKey core 96) = some h ∧ HandlerFormed s t core ts (s.crew t0.crew) h)) ∧
  (∀ s k r i, let c := s.crew k
    c.phase = .trapped → c.trap = some r → c.pushed = false → c.noticed = false → NoticeDue s k i →
    ((s.onCrew k fun c => { c with tries := c.tries + 1, heldSince := s.clk }).writeFrame k r = none →
      ∃ t, exec i s = .next t ∧ OnlyCrew s t k ∧ t.crew k = { c with tries := c.tries + 1, heldSince := s.clk }) ∧
    (∀ s1, frameWritten s k r s1 → let cfg : TrapCfg := Map.get {} s.trapCfg c.ctx
      (cfg.en = false → ∃ t, exec i s = .next t ∧ t.mem = s1.mem ∧
        t.crew k = { c with tries := c.tries + 1, heldSince := s.clk, noticed := true, pushed := true, mon := (t.crew k).mon }) ∧
      (∀ bs x, let q := s.phys c.ctx 64 cfg.tq.toNat
        (∀ p ∈ s.pushes, k < p.crew) → cfg.en = true → s1.devRead c.ctx cfg.tmpl 128 = some bs → Map.get {} s.queues q = x → x.en = true →
        x.pkts.length < 256 →
        ∃ t p, exec i s = .next t ∧ t.mem = s1.mem ∧ QueueGets s t q x [p] ∧ (t.crew k).noticed = true ∧ (t.crew k).pushed = true ∧
          p.age = s.clk ∧ p.notice = some r.cause ∧ p.data.extractLsb' 128 64 = c.spill - 0x40080 ∧
          ∀ n, n < 1024 → (n < 128 ∨ 192 ≤ n) → p.data.getLsbD n = (BitVec.ofNat 1024 (ofBytes bs)).getLsbD n))) ∧
  (∀ (s : State) (k : Nat) (r : TrapRec), let c := s.crew k
    let f := s.frameNat k r
    s.logCore c.ctx (coreOfKey k) < 512 →
    fld f 960 64 = r.pc.toNat ∧ fld f 952 8 = r.widx % 256 ∧ fld f 944 8 = r.cause % 256 ∧ fld f 940 4 = 0 ∧
      fld f 939 1 = r.perf.toNat ∧ fld f 938 1 = c.priv.toNat ∧ fld f 904 32 = c.active.toNat ∧ fld f 872 32 = c.live.toNat ∧
      fld f 808 64 = (c.spill - 0x40180).toNat ∧ fld f 744 64 = r.detail0.toNat ∧ fld f 680 64 = r.detail1.toNat ∧
      fld f 648 32 = r.lanes.toNat ∧ fld f 620 7 = slotOfKey k ∧ fld f 627 9 = s.logCore c.ctx (coreOfKey k) ∧
      fld f 552 64 = r.word.toNat) ∧
  (∀ s k sd r, s.svcReqs = [r] → r.crew = k → (s.crew k).phase = .waiting (.service sd) →
    ∃ t, exec (.svccfgDone k) s = .next t ∧ OnlyCrew s t k ∧ t.svcReqs = [] ∧
      Map.find? t.svc r.slot = (match r.install with
        | some x => some x
        | none => if r.remove then none else Map.find? s.svc r.slot) ∧
      (∀ n, n ≠ r.slot → Map.find? t.svc n = Map.find? s.svc n) ∧
      t.crew k = { (s.crew k).goesOn s.clk with s := (t.crew k).s } ∧
      (∀ x, x ≠ sd → (t.crew k).sv x = (s.crew k).sv x) ∧ (t.crew k).sv sd = if sd = 0 then 0 else r.result) ∧
  (∀ s core at_, (s.strike.en = false → ∃ t, exec (.strikeReport core at_) s = .next t ∧ t = s) ∧
    (∀ k c, s.strike.en = true → Map.find? s.crews k = some c → (s.crews.filter fun kc => coreOfKey kc.1 == core) = [(k, c)] →
      c.kind = .normal → (s.ctx c.ctx).fix.toNat ≤ 48 →
      (s.clk ≤ at_ + (s.ctx c.ctx).fix.toNat → ∃ t, exec (.strikeReport core at_) s = .next t ∧ OnlyCrew s t k ∧
        (t.core core).cnt = { (s.core core).cnt with strikes := satInc (s.core core).cnt.strikes } ∧
        t.reports = s.reports ++ [{ src := 1, agent := dieOfCore core, core }] ∧ (∀ j ∈ t.runq, coreOfKey j ≠ core) ∧
        match s.past.find? fun p => p.key == k && s.clk < p.at_ + (s.ctx c.ctx).fix.toNat with
        | none => t.crew k = c
        | some p => (t.crew k).s = p.crew.s ∧ (t.crew k).v = p.crew.v ∧ (t.crew k).p = p.crew.p ∧ (t.crew k).pc = p.crew.pc ∧
          (t.crew k).widx = p.crew.widx ∧ (t.crew k).phase = p.crew.phase ∧ (t.crew k).active = p.crew.active ∧
          (t.crew k).live = p.crew.live ∧
          ∀ h ∈ (t.crew k).held, h ∈ c.held ∧ ∃ x ∈ p.crew.held, x.at_ = h.at_) ∧
      (at_ + (s.ctx c.ctx).fix.toNat < s.clk → c.committed ≠ 0 → at_ ≤ c.committed → c.phase ≠ .halted →
        ∃ t, exec (.strikeReport core at_) s = .next t ∧ OnlyCrew s t k ∧ (t.crew k).phase = .trapped ∧
          (t.crew k).trap = some (match c.trap with
            | some r => { r with cause := 0x07, detail0 := 7, detail1 := 0, lanes := 0 }
            | none => { cause := 0x07, detail0 := 7, pc := c.pc, widx := c.widx, word := c.word }) ∧
          (t.core core).cnt = { (s.core core).cnt with late := satInc (s.core core).cnt.late })))

/-- R300, R301, R306 to R308, R311 to R313, R316, R362, R363, R366: packets enter the hardware queues, are checked and dequeued, and
their parties are sent to dies and placed on cores. Choices: the privilege and the P of a relaunched instance, and a queue's
head checked anew each clk (log entry 49). -/
def Obligations.LaunchesAreDequeuedSentAndPlaced : Prop :=
  (∀ s q who full data, s.status.ready = false → ∃ t, exec (.queuePush q who full data) s = .next t ∧ t = s) ∧
  (∀ s q data, s.status.ready = true → q < 64 → let x : HwQueue := Map.get {} s.queues q
    (∀ who, ∃ t, exec (.queuePush q who false data) s = .next t ∧ t = { s with queues := Map.put s.queues q { x with part := true } }) ∧
    (x.en = true → x.pkts.length < 256 → ∃ t p, exec (.queuePush q .driver true data) s = .next t ∧
      { t with queues := s.queues } = s ∧ QueueGets s t q x [p] ∧ p.data = data ∧ p.age = s.clk ∧ p.notice = none) ∧
    (x.en = false ∨ 256 ≤ x.pkts.length →
      ∃ t, exec (.queuePush q .driver true data) s = .next t ∧ t = { s with queues := Map.put s.queues q { x with ovf := true } }) ∧
    (∀ ctx, x.devpush = false ∨ ctx ≠ x.ctx.toNat →
      ∃ t, exec (.queuePush q (.companion ctx) true data) s = .next t ∧
        t = { s with queues := Map.put s.queues q { x with ovf := true } })) ∧
  (∀ s q x p ps, s.queues = [(q, x)] → x.pkts = p :: ps → x.halt = false →
    (∀ f, s.pktFault x p.data = f → f ≠ 0 → ∃ t, exec .packetDequeue s = .next t ∧
      t = { s with queues := [(q, { x with halt := true, fault := BitVec.ofNat 4 f })] }) ∧
    (s.eligible q x p = true → p.data.extractLsb' 0 4 = 1 → exec .packetDequeue s = exec (.relaunchDequeue q) s) ∧
    (s.eligible q x p = true → p.data.extractLsb' 0 4 = 0 → p.data.getLsbD 6 = false → p.data.extractLsb' 368 3 = 0 →
      let n := s.phys x.ctx.toNat 4096 (p.data.extractLsb' 320 12).toNat
      ∃ t y, exec .packetDequeue s = .next t ∧ t.mem = s.mem ∧ t.crews = s.crews ∧ Map.find? t.queues q = some { x with pkts := ps } ∧
        t.slots = s.slots ++ [y] ∧ y.packet = p.data ∧ y.ctx = x.ctx.toNat ∧ y.lctr = n ∧ y.next = 0 ∧ y.parties = none ∧
        y.dequeued = s.clk ∧ y.age = p.age ∧ y.passed = [] ∧ y.priv = p.data.getLsbD 7 ∧
        (t.counter n).done = false ∧ (t.counter n).canc = false ∧ (t.counter n).count = 0 ∧ (t.counter n).level = .launch ∧
        (t.counter n).caddr = p.data.extractLsb' 768 64 ∧ (t.counter n).cval = p.data.extractLsb' 832 64 ∧
        (t.counter n).endv = BitVec.ofNat 24 (pkParties p.data) ∧ (t.counter n).parents = [] ∧ (t.counter n).retained = none ∧
        ∀ j, j ≠ n → t.counter j = s.counter j)) ∧
  (∀ s q x p ps r bs, Map.get {} s.queues q = x → x.pkts = p :: ps → s.eligible q x p = true → p.data.extractLsb' 0 4 = 1 →
    let n := s.phys x.ctx.toNat 4096 (p.data.extractLsb' 320 12).toNat
    (s.counter n).retained = some r → s.mapOf x.ctx.toNat n = none → s.devRead x.ctx.toNat r.trace 128 = some bs →
    let h := BitVec.ofNat 1024 (ofBytes bs)
    ∃ t y rs, exec (.relaunchDequeue q) s = .next t ∧ t.mem = s.mem ∧ t.crews = s.crews ∧
      Map.find? t.queues q = some { x with pkts := ps } ∧ t.slots = s.slots ++ [y] ∧ y.packet = h ∧ y.lctr = n ∧ y.age = p.age ∧
      y.parties = some rs ∧ rs.map (·.1) = List.range (pkParties h) ∧ y.priv = (h.getLsbD 7 && x.privq) ∧
      (t.counter n).done = false ∧ (t.counter n).count = 0 ∧ (t.counter n).endv = BitVec.ofNat 24 (pkParties h) ∧
      (t.counter n).relaunching = true ∧ (t.counter n).caddr = p.data.extractLsb' 768 64 ∧
      (t.counter n).cval = p.data.extractLsb' 832 64) ∧
  (∀ s x die, s.slots = [x] → x.parties = none → x.next < pkParties x.packet → s.ctxStopped x.ctx = false →
    x.passed = [] → s.homeDie x x.next = some die → die ∈ devPairs s.mode.mode x.dev → (s.die die).waiting.length < 4096 →
    ∃ t w, exec .partySend s = .next t ∧ t.mem = s.mem ∧ t.crews = s.crews ∧ w ∈ (t.die die).waiting ∧ w.lctr = x.lctr ∧ w.num = x.next ∧
      w.packet = x.packet ∧ w.ctx = x.ctx ∧ w.since = s.clk ∧ w.restore = none ∧
      (pkParties x.packet = x.next + 1 → t.slots = []) ∧
      ∀ d, (s.die d).waiting <+: (t.die d).waiting) ∧
  (∀ s die w, (s.die die).waiting = [w] → w.restore = none →
    (s.ctxStopped w.ctx = true ∨ s.fitFor die w = none → ∃ t, exec (.partyPlace die) s = .next t ∧ t = s) ∧
    (∀ f, s.ctxStopped w.ctx = false → s.fitFor die w = some f → f.keys.Nodup → f.keys.length = pkCrews w.packet → w.notice = none →
      ∃ t p, exec (.partyPlace die) s = .next t ∧ t.mem = s.mem ∧ (t.die die).waiting = [] ∧
        Map.find? t.parties (partyKey w.lctr w.num) = some p ∧ p.ncrews = pkCrews w.packet ∧ p.crews = f.keys ∧ p.cores = f.cores ∧
        p.pool = f.pool ∧ p.bands = f.bands ∧ p.ended = 0 ∧ p.plates = [] ∧ p.packet = w.packet ∧
        ∀ i k, i < pkCrews w.packet → f.keys[i]? = some k → let c := t.crew k
          t.hasCrew k = true ∧ c.phase = .select ∧ c.kind = .normal ∧ c.num = i ∧ c.priv = w.priv ∧ c.ctx = w.ctx ∧ c.lctr = w.lctr ∧
            c.party = partyKey w.lctr w.num ∧ c.live = 0xFFFFFFFF ∧ (∀ l, l < 32 → Map.find? c.pend l = some (pkCode w.packet)) ∧
            (∀ r, c.sv r = if r = 1 then pkArgs w.packet else 0) ∧ c.v = [] ∧ c.p = [] ∧ c.alloc = pkAlloc w.packet ∧
            c.spill = pkSpill w.packet + BitVec.ofNat 64 (pkSpstr w.packet * (w.num * pkCrews w.packet + i)))) ∧
  (∀ s die, ∃ t, exec (.placementWaitLimit die) s = .next t ∧ { t with dies := s.dies } = s ∧
    (∀ d, d ≠ die → t.die d = s.die d) ∧ { t.die die with waiting := (s.die die).waiting } = s.die die ∧
    (t.die die).waiting = (s.die die).waiting.map fun w => { w with late := w.late || decide (w.since + 65536 ≤ s.clk) })

/-! ## Writes of the driver (R9, R337, R356) -/

/-- R226, R301, R314, R319, R322, R338, R347, R349, R353, R364: what a write of a record leaves. A write that breaks a rule of its
record changes nothing but ERR. Which fields such a write leaves is the model's reading (log entry 52). -/
def Obligations.RecordsAreWritten : Prop :=
  (∀ s n (v : BitVec 128) i, i ∈ ([.contextCreate n v, .contextDestroy n v, .contextRootWrite n v] : List Instr) →
    let c := s.ctx n
    let bad := { s with ctxs := Map.put s.ctxs n { c with err := true } }
    let en := v.getLsbD 62
    let root := v.extractLsb' 88 40
    let dev := v.extractLsb' 77 3
    let lostDev := s.mode.mode = 8 ∧ s.lost.getLsbD dev.toNat = true
    (v.extractLsb' 80 8 ≠ 0 ∨ v.extractLsb' 64 13 ≠ 0 ∨ v.extractLsb' 0 62 ≠ 0 ∨ (en = true ∧ s.devExists dev.toNat = false) ∨
      (en = true ∧ c.en = false ∧ lostDev) ∨ (s.ctxBusy n = true ∧ (root ≠ c.root ∨ dev ≠ c.dev ∨ (c.en = true ∧ en = false))) → Writes s i bad) ∧
    (v.extractLsb' 80 8 = 0 → v.extractLsb' 64 13 = 0 → v.extractLsb' 0 62 = 0 → s.ctxBusy n = false → n ≠ 0 → n < 128 →
      (∀ cfg : DevCfg, Map.get {} s.devCfg dev.toNat = cfg → en = true → s.devExists dev.toNat = true → ¬lostDev → c.en = false →
        Writes s i { s with
          ctxs := Map.put s.ctxs n {
            root, dev, err := false, en := true, hold := cfg.hold, cchk := cfg.cchk, rchk := cfg.rchk, fix := cfg.fix
            contained := false, mapErr := false, ents := defaultMap s.mode.mode dev.toNat } }) ∧
      (en = true → s.devExists dev.toNat = true → c.en = true → dev = c.dev →
        Writes s i { s with ctxs := Map.put s.ctxs n { c with root, err := false } }) ∧
      (en = false → Writes s i { s with ctxs := Map.put s.ctxs n { c with root, dev, err := false, en := false, contained := false } }))) ∧
  (∀ s n (v : BitVec 128), let c := s.counter n
    let bad := v.extractLsb' 0 23 ≠ 0 ∨ v.extractLsb' 64 3 ≠ 0 ∨ s.ctxExists (v.extractLsb' 48 16).toNat = false ∨
      (c.count ≠ 0 ∧ c.done = false)
    (bad → Writes s (.counterControlWrite n v) { s with counters := Map.put s.counters n { c with err := true } }) ∧
    let held := c.armed = true ∧ c.level = .launch ∧ c.done = false
    (¬bad → Writes s (.counterControlWrite n v) { s with
      counters := Map.put s.counters n { c with
        caddr := v.extractLsb' 64 64, ctx := v.extractLsb' 48 16, endv := v.extractLsb' 24 24, err := false, count := 0, done := false
        canc := false, armed := true, cancelReq := false, stamps := []
        level := if held then c.level else .graph, parents := if held then c.parents else [] } })) ∧
  (∀ s h (v : BitVec 128), let x : SheetHome := Map.get {} s.sheets h
    let ctx := v.extractLsb' 80 16
    let image := v.extractLsb' 7 57
    let bad := v.extractLsb' 75 4 ≠ 0 ∨ v.extractLsb' 0 7 ≠ 0 ∨
      (v.getLsbD 74 = true ∧ (s.ctxExists ctx.toNat = false ∨
        s.writable ctx.toNat (BitVec.ofNat 64 (image.toNat * 128)) (16 * ((v.extractLsb' 64 10).toNat + 1)) = false))
    (bad → x.reqs = [] → Writes s (.sheetHomeWrite h v) { s with sheets := Map.put s.sheets h { x with err := true } }) ∧
    (¬bad → x.reqs = [] → Writes s (.sheetHomeWrite h v) { s with
      sheets := Map.put s.sheets h {
        epoch := v.extractLsb' 96 32, ctx, err := false, en := v.getLsbD 74, slots := v.extractLsb' 64 10, image, level := 0, posted := 0
        stamps := [], reqs := [] } })) ∧
  (∀ s n (v : BitVec 256), let x : TrapCfg := Map.get {} s.trapCfg n
    let bad := v.extractLsb' 16 111 ≠ 0 ∨ v.extractLsb' 1 9 ≠ 0 ∨ v.extractLsb' 192 3 ≠ 0 ∨ v.extractLsb' 128 7 ≠ 0 ∨
      s.inShare 64 (v.extractLsb' 10 6).toNat = false
    (bad → Writes s (.trapConfigWrite n v) { s with trapCfg := Map.put s.trapCfg n { x with err := true } }) ∧
    (¬bad → n < 128 → Writes s (.trapConfigWrite n v) { s with
      trapCfg := Map.put s.trapCfg n {
        lhentry := v.extractLsb' 192 64, tmpl := v.extractLsb' 128 64, err := false, tq := v.extractLsb' 10 6, en := v.getLsbD 0 } })) ∧
  (∀ s g (v : W64), let x : CollGroup := Map.get {} s.groups g
    let m := v.extractLsb' 0 11
    let bad := v.extractLsb' 48 15 ≠ 0 ∨ v.extractLsb' 11 21 ≠ 0 ∨ m = 1 ∨ 1024 < m.toNat ∨
      s.ctxExists (v.extractLsb' 32 16).toNat = false ∨ x.arrivals ≠ []
    (bad → Writes s (.collGroupWrite g v) { s with groups := Map.put s.groups g { x with err := true } }) ∧
    (¬bad → Writes s (.collGroupWrite g v) { s with
      groups := Map.put s.groups g { err := false, ctx := v.extractLsb' 32 16, members := m, arrivals := [] } })) ∧
  (∀ s m (v : BitVec 128), let x : DirtyMap := Map.get {} s.dirtyMaps m
    let ctx := v.extractLsb' 32 16
    (s.ctxExists ctx.toNat = false ∨ (∃ z ∈ s.dirtyMaps, z.1 ≠ m ∧ z.2.en = true ∧ z.2.ctx = ctx ∧ z.2.lctr = v.extractLsb' 48 12) →
      Writes s (.dirtyMapWrite m v) { s with dirtyMaps := Map.put s.dirtyMaps m { x with err := true } }) ∧
    (s.ctxExists ctx.toNat = true → (∀ z ∈ s.dirtyMaps, z.1 ≠ m → ¬(z.2.en = true ∧ z.2.ctx = ctx ∧ z.2.lctr = v.extractLsb' 48 12)) →
      let y : DirtyMap := {
        base := v.extractLsb' 88 40, len := v.extractLsb' 62 26, err := false, en := v.getLsbD 60, lctr := v.extractLsb' 48 12, ctx
        epoch := 0, bits := [] }
      let dev := s.ctxDev ctx.toNat
      let full := y.en = true ∧ ∃ e, e < (devPairs s.mode.mode dev).length ∧ 2 ^ 25 < s.mapBits dev e (Map.put s.dirtyMaps m y)
      (full → Writes s (.dirtyMapWrite m v) { s with dirtyMaps := Map.put s.dirtyMaps m { x with err := true } }) ∧
      (¬full → Writes s (.dirtyMapWrite m v) { s with dirtyMaps := Map.put s.dirtyMaps m y }))) ∧
  (∀ s p (v : BitVec 128), let r : PeerRec := Map.get {} s.peers p
    let bad := v.extractLsb' 76 4 ≠ 0 ∨ v.extractLsb' 2 14 ≠ 0 ∨ (v.getLsbD 0 = true ∧ v.extractLsb' 64 12 = 0) ∨
      s.ctxExists (v.extractLsb' 32 16).toNat = false ∨ s.peerBusy p = true
    (bad → Writes s (.peerRecordWrite p v) { s with peers := Map.put s.peers p { r with err := true } }) ∧
    (¬bad → Writes s (.peerRecordWrite p v) { s with
      peers := Map.put s.peers p {
        mac := v.extractLsb' 80 48, ports := v.extractLsb' 64 12, rctx := v.extractLsb' 48 16, ctx := v.extractLsb' 32 16
        rpeer := v.extractLsb' 16 16, err := false, en := v.getLsbD 0, failed := [] } })) ∧
  (∀ s n (v : W64), let x : SbxCtl := Map.get {} s.sbx n
    (v.extractLsb' 8 54 ≠ 0 → Writes s (.sbxCtlWrite n v) { s with sbx := Map.put s.sbx n { x with err := true } }) ∧
    (v.extractLsb' 8 54 = 0 → Writes s (.sbxCtlWrite n v) { s with
      sbx := Map.put s.sbx n { halted := false, err := false, dom := v.extractLsb' 0 8 } })) ∧
  (∀ s q (v : W64), let x : HwQueue := Map.get {} s.queues q
    let bad := v.extractLsb' 41 9 ≠ 0 ∨ v.extractLsb' 16 16 ≠ 0 ∨ s.ctxExists (v.extractLsb' 0 16).toNat = false
    (bad → Writes s (.qctlWrite q v) { s with queues := Map.put s.queues q { x with err := true } }) ∧
    (¬bad → Writes s (.qctlWrite q v) { s with
      queues := Map.put s.queues q { x with
        err := false, halt := v.getLsbD 62, ovf := x.ovf && !v.getLsbD 56, part := x.part && !v.getLsbD 55, en := v.getLsbD 54
        privq := v.getLsbD 53, devpush := v.getLsbD 52, prio := v.extractLsb' 50 2, ctx := v.extractLsb' 0 16
        pkts := if v.getLsbD 61 then x.pkts.drop 1 else x.pkts } }) ∧
    Writes s (.qctlDroph q) { s with queues := Map.put s.queues q { x with pkts := x.pkts.drop 1 } } ∧
    Writes s (.qctlClearOvf q) { s with queues := Map.put s.queues q { x with ovf := false } } ∧
    Writes s (.qctlClearPart q) { s with queues := Map.put s.queues q { x with part := false } }) ∧
  (∀ s n (v : W64), let x : XQueue := Map.get {} s.xqueues n
    let ctx := v.extractLsb' 0 16
    let bad := v.extractLsb' 57 6 ≠ 0 ∨ v.getLsbD 53 = true ∨ v.extractLsb' 41 11 ≠ 0 ∨ v.extractLsb' 16 16 ≠ 0 ∨
      s.ctxExists ctx.toNat = false ∨ (ctx ≠ x.ctx ∧ x.descs ≠ [])
    (bad → Writes s (.xctlWrite n v) { s with xqueues := Map.put s.xqueues n { x with err := true } }) ∧
    (¬bad → Writes s (.xctlWrite n v) { s with
      xqueues := Map.put s.xqueues n { x with
        err := false, ovf := x.ovf && !v.getLsbD 56, part := x.part && !v.getLsbD 55, en := v.getLsbD 54, devpush := v.getLsbD 52, ctx } }) ∧
    Writes s (.xctlClearOvf n) { s with xqueues := Map.put s.xqueues n { x with ovf := false } } ∧
    Writes s (.xctlClearPart n) { s with xqueues := Map.put s.xqueues n { x with part := false } })

/-- R262, R276, R277, R283, R286, R328, R339, R341, R344, R351, R377, R380 to R384, R388, R390: what a write of a register leaves. A
write that breaks a rule of its register changes nothing but ERR; one of DEV_MODE tells what became of it in RES. Which fields a bad write leaves is the model's reading (log entry 52). -/
def Obligations.RegistersAreWritten : Prop :=
  (∀ s (v : W32), let m := v.extractLsb' 0 4
    let res := fun (n : BitVec 2) => { s with mode := { s.mode with res := n } }
    let busy := (∃ c ∈ s.ctxs, c.1 ≠ 0 ∧ c.2.en = true) ∨ s.ctxBusy 0 = true
    let legal := v.extractLsb' 4 26 = 0 ∧ (m = 1 ∨ m = 2 ∨ m = 8)
    (¬legal → Writes s (.devModeWrite v) (res 2)) ∧
    (legal → s.status.degr = true → m ≠ 8 → Writes s (.devModeWrite v) (res 3)) ∧
    (legal → (s.status.degr = false ∨ m = 8) → busy → Writes s (.devModeWrite v) (res 1)) ∧
    (legal → (s.status.degr = false ∨ m = 8) → ¬busy → Writes s (.devModeWrite v) { s with
      mode := { res := 0, mode := m }
      ctxs := Map.put s.ctxs 0 { s.ctx 0 with
        dev := BitVec.ofNat 3 (lowestDev m s.status.pairs), ents := defaultMap m (lowestDev m s.status.pairs) } })) ∧
  (∀ s n (v : W64), let c := s.ctx n
    (v.extractLsb' 32 31 ≠ 0 ∨ 128 ≤ n ∨ s.ctxRuns n = true ∨ s.mapOk n (v.extractLsb' 0 32) = false →
      Writes s (.dieMapWrite n v) { s with ctxs := Map.put s.ctxs n { c with mapErr := true } }) ∧
    (v.extractLsb' 32 31 = 0 → n < 128 → s.ctxRuns n = false → s.mapOk n (v.extractLsb' 0 32) = true → s.status.ready = true →
      s.inject.arm = false → s.offs = [] → ∃ t, exec (.dieMapWrite n v) s = .next t ∧ (∀ a, memGet t.mem a = memGet s.mem a) ∧ t.crews = s.crews ∧
        t.ctxs = Map.put s.ctxs n { c with ents := v.extractLsb' 0 32, mapErr := false })) ∧
  (∀ s (v : W64), let g := v.extractLsb' 16 36
    let go := v.getLsbD 61
    let target := v.getLsbD 60
    let reserved := v.extractLsb' 52 8 ≠ 0 ∨ v.extractLsb' 0 16 ≠ 0
    (reserved ∨ (go = true ∧ s.bias.busy = true) → Writes s (.biasFlipGo v) { s with bias := { s.bias with err := true } }) ∧
    (¬reserved → (go = false ∨ (s.bias.busy = false ∧ inWin s.host (g.toNat * 65536) = false)) →
      Writes s (.biasFlipGo v) { s with bias := { s.bias with err := false, target, gran := g } }) ∧
    (¬reserved → go = true → s.bias.busy = false → inWin s.host (g.toNat * 65536) = true → (target = true ↔ g.toNat ∉ s.granules) →
      s.status.ready = true → s.inject.arm = false → s.offs = [] →
      ∃ t, exec (.biasFlipGo v) s = .next t ∧ (∀ a, memGet t.mem a = memGet s.mem a) ∧ t.crews = s.crews ∧
        t.bias = { err := false, busy := true, target, gran := g } ∧ t.granules = s.granules ∧
        ∀ d ∈ t.dir, locPa (128 * d.line) / 65536 = g.toNat → locPair (128 * d.line) = 8 →
          ∀ x ∈ d.st, if target then x.1 ≠ 56 else x.1 = 56)) ∧
  (∀ s : State, (s.bias.busy = false → ∃ t, exec .biasFlipDone s = .next t ∧ t = s) ∧
    (s.bias.busy = true → s.heldReqs = [] → ∃ t, exec .biasFlipDone s = .next t ∧ t.mem = s.mem ∧ t.crews = s.crews ∧
      t.bias = { s.bias with busy := false } ∧ (∀ g, g ∈ t.granules ↔ if g = s.bias.gran.toNat then s.bias.target = true else g ∈ s.granules) ∧
      ((∀ d ∈ s.dir, d.f ≤ d.l) → s.bias.target = false → ∀ d ∈ t.dir, locPa (128 * d.line) / 65536 = s.bias.gran.toNat →
        locPair (128 * d.line) = 8 → ∀ x ∈ d.st, x.1 ≠ 56))) ∧
  (∀ s (v : W64), let p := s.ptp
    let synci := v.extractLsb' 40 4
    let bad := v.extractLsb' 52 8 ≠ 0 ∨ v.extractLsb' 44 4 ≠ 0 ∨ v.extractLsb' 0 8 ≠ 0 ∨ 11 < (v.extractLsb' 48 4).toNat ∨
      synci.toInt < -7 ∨ 1 < synci.toInt ∨ 127 < (v.extractLsb' 32 8).toNat ∨
      (p.en = true ∧ (v.extractLsb' 48 4 ≠ p.port ∨ v.extractLsb' 32 8 ≠ p.domain ∨ v.getLsbD 60 ≠ p.twostep))
    let q : PtpCfg := {
      err := false, en := v.getLsbD 62, gm := v.getLsbD 61, twostep := v.getLsbD 60, port := v.extractLsb' 48 4, synci
      domain := v.extractLsb' 32 8, prio1 := v.extractLsb' 24 8, prio2 := v.extractLsb' 16 8, cls := v.extractLsb' 8 8 }
    (bad → Writes s (.ptpCfgWrite v) { s with ptp := { p with err := true } }) ∧
    (¬bad → (s.datum.locked = false ∨ p.en = false ∨ v.getLsbD 62 = true) → Writes s (.ptpCfgWrite v) { s with ptp := q }) ∧
    (¬bad → s.datum.locked = true → p.en = true → v.getLsbD 62 = false → Writes s (.ptpCfgWrite v) { s with
      ptp := q, datum := { s.datum with locked := false, holdover := true, holdSince := s.datum.count, good := 0 } })) ∧
  (∀ s (v : BitVec 128) i, i ∈ ([.testCtlLoad v, .testCtlWrite v] : List Instr) →
    let bad := v.extractLsb' 64 12 ≠ 0 ∨ v.extractLsb' 32 8 ≠ 0 ∨ (v.getLsbD 61 = true ∧ (s.test.busy = true ∨ s.test.en = true))
    (bad → Writes s i { s with test := { s.test with err := true } }) ∧
    (¬bad → Writes s i { s with
      test := { s.test with
        img := v.extractLsb' 76 52, err := false, busy := s.test.busy || v.getLsbD 61, en := v.getLsbD 60, idle := v.extractLsb' 40 16
        gap := v.extractLsb' 0 32 } })) ∧
  (∀ s (v : BitVec 128), let e := s.elog
    let base := v.extractLsb' 76 52
    let size := v.extractLsb' 40 8
    let moved := base ≠ e.base ∨ size ≠ e.size
    let bad := v.extractLsb' 64 12 ≠ 0 ∨ v.extractLsb' 48 13 ≠ 0 ∨ v.extractLsb' 32 8 ≠ 0 ∨
      64 * (size.toNat + 1) ≤ (v.extractLsb' 0 16).toNat ∨ (moved ∧ e.en = true)
    (bad → Writes s (.elogCtlWrite v) { s with elog := { e with err := true } }) ∧
    (¬bad → moved → Writes s (.elogCtlWrite v) { s with
      elog := { base, err := false, en := v.getLsbD 62, ovf := e.ovf && !v.getLsbD 61, size, head := 0, tail := 0, seq := e.seq } }) ∧
    (¬bad → ¬moved → Writes s (.elogCtlWrite v) { s with
      elog := { e with err := false, en := v.getLsbD 62, ovf := e.ovf && !v.getLsbD 61, tail := v.extractLsb' 0 16 } }) ∧
    Writes s .elogClearOvf { s with elog := { e with ovf := false } }) ∧
  (∀ s (v : BitVec 128), let en := v.getLsbD 62
    let bad := v.extractLsb' 64 12 ≠ 0 ∨ v.extractLsb' 56 5 ≠ 0 ∨ v.extractLsb' 32 8 ≠ 0 ∨ (en = true ∧ v.extractLsb' 40 16 = 0) ∨
      s.ctxExists (v.extractLsb' 0 16).toNat = false
    (bad → Writes s (.sampleCfgWrite v) { s with sample := { s.sample with err := true } }) ∧
    (¬bad → Writes s (.sampleCfgWrite v) { s with
      sample := {
        buf := v.extractLsb' 76 52, err := false, en, all := v.getLsbD 61, period := v.extractLsb' 40 16, pages := v.extractLsb' 16 16
        ctx := v.extractLsb' 0 16, next := 0, started := s.clk } })) ∧
  (∀ s (v : BitVec 128), let arm := v.getLsbD 61
    let bad := v.extractLsb' 72 6 ≠ 0 ∨ v.extractLsb' 32 29 ≠ 0 ∨ 15 < (v.extractLsb' 64 8).toNat ∨ (arm = true ∧ v.extractLsb' 0 32 = 0)
    (bad → Writes s (.injectCfgWrite v) { s with inject := { s.inject with err := true } }) ∧
    (¬bad → Writes s (.injectCfgWrite v) { s with
      inject := {
        line := v.extractLsb' 83 45, word := v.extractLsb' 78 5, port := v.extractLsb' 64 8, err := false
        fired := s.inject.fired && !arm, arm, mask := v.extractLsb' 0 32 } })) ∧
  (∀ s (v : BitVec 128), let go := v.getLsbD 61
    let bad := v.extractLsb' 64 6 ≠ 0 ∨ v.extractLsb' 58 2 ≠ 0 ∨ (go = true ∧ s.att.busy = true)
    (bad → Writes s (.attGo v) { s with att := { s.att with err := true } }) ∧
    (¬bad → Writes s (.attGo v) { s with
      att := { nonce := v.extractLsb' 70 58, err := false, busy := s.att.busy || go, done := s.att.done && !go, dest := v.extractLsb' 0 58 } })) ∧
  (∀ s n, Writes s (.counterRecordClear (.core n)) { s with cores := Map.put s.cores n { s.core n with cnt := {} } } ∧
    Writes s (.counterRecordClear (.mem n)) { s with memCnt := Map.put s.memCnt n {} } ∧
    Writes s (.counterRecordClear .switch) { s with swCnt := {} }) ∧
  (∀ s n (v : W32), let d := s.die n
    let c : DevCfg := Map.get {} s.devCfg n
    let cfg := fun (c : DevCfg) => { s with devCfg := Map.put s.devCfg n c }
    (v.extractLsb' 20 11 ≠ 0 ∨ v.extractLsb' 0 8 = 0 ∨ (v.extractLsb' 8 12).toNat < 16 →
      Writes s (.registerWrite (.leaseCfg n) v) { s with dies := Map.put s.dies n { d with leaseErr := true } }) ∧
    (v.extractLsb' 20 11 = 0 → v.extractLsb' 0 8 ≠ 0 → 16 ≤ (v.extractLsb' 8 12).toNat →
      Writes s (.registerWrite (.leaseCfg n) v) { s with
        dies := Map.put s.dies n { d with leaseErr := false, tick := v.extractLsb' 8 12, lease := v.extractLsb' 0 8 } }) ∧
    (s.devExists n = true →
      (v.extractLsb' 3 28 ≠ 0 → Writes s (.registerWrite (.chkCfg n) v) (cfg { c with chkErr := true })) ∧
      (v.extractLsb' 3 28 = 0 → Writes s (.registerWrite (.chkCfg n) v)
        (cfg { c with chkErr := false, hold := v.getLsbD 2, cchk := v.getLsbD 1, rchk := v.getLsbD 0 })) ∧
      (v.extractLsb' 2 29 ≠ 0 → Writes s (.registerWrite (.crwCfg n) v) (cfg { c with crwErr := true })) ∧
      (v.extractLsb' 2 29 = 0 → Writes s (.registerWrite (.crwCfg n) v)
        (cfg { c with crwErr := false, throt := v.getLsbD 1, check := v.getLsbD 0 })) ∧
      (v.extractLsb' 6 25 ≠ 0 ∨ (v.extractLsb' 0 6).toNat < 16 ∨ 48 < (v.extractLsb' 0 6).toNat →
        Writes s (.registerWrite (.fixDepth n) v) (cfg { c with fixErr := true })) ∧
      (v.extractLsb' 6 25 = 0 → 16 ≤ (v.extractLsb' 0 6).toNat → (v.extractLsb' 0 6).toNat ≤ 48 →
        Writes s (.registerWrite (.fixDepth n) v) (cfg { c with fixErr := false, fix := v.extractLsb' 0 6 }))) ∧
    (v.extractLsb' 12 19 ≠ 0 ∨ v.extractLsb' 1 3 ≠ 0 →
      Writes s (.registerWrite .strikeCfg v) { s with strike := { s.strike with err := true } }) ∧
    (v.extractLsb' 12 19 = 0 → v.extractLsb' 1 3 = 0 → Writes s (.registerWrite .strikeCfg v) { s with
      strike := { err := false, sens := v.extractLsb' 4 8, en := v.getLsbD 0 } }))

/-! ## Events of the package -/

/-- R324, R330 to R335, R342, R368 to R371, R380, R381: heartbeats and dead agents, checkpoints and rollback, pre-emption and restore,
and the start of tests. Choices: what a write with both GO and another bit does (log entry 52), the spans of a checkpoint (log entry
37), and log entries 56 and 57. -/
def Obligations.RecoveryAndPreemptionTakeTheirSteps : Prop :=
  (∀ s a, ∃ t, exec (.heartbeat a) s = .next t ∧ t = { s with beat := Map.put s.beat a s.clk }) ∧
  (∀ s a, (s.silent a = false → ∃ t, exec (.agentDead a) s = .next t ∧ t = s) ∧
    (a ∉ s.dead → Map.get 0 s.beat a + 105000 ≤ s.clk → ∃ t, exec (.agentDead a) s = .next t ∧ a ∈ t.dead ∧
      t.swCnt = { s.swCnt with dead := satInc s.swCnt.dead } ∧
      t.reports.getLast? = some { src := 7, detail := BitVec.ofNat 64 a, agent := 57 } ∧
      (a < 8 → t.lost.getLsbD a = true ∧ t.status.pairs.getLsbD a = false ∧ t.status.degr = true ∧
        (Map.get {} t.ckpt (devOfPair s.mode.mode a)).dead = BitVec.ofNat 8 a ∧
        (Map.get {} t.ckpt (devOfPair s.mode.mode a)).dv = true ∧ ∀ k, dieOfCore (coreOfKey k) = a → t.hasCrew k = false) ∧
      (8 ≤ a → t.crews = s.crews ∧ (s.offs = [] → t.mem = s.mem) ∧ ∀ d ∈ s.dir, (Map.find? d.st a = some .m ∨ Map.find? d.st a = some .o ∨
        Map.find? d.st a = some .e) → ∀ i, d.f ≤ i → i ≤ d.l → t.isPoisoned (128 * d.line + 4 * i) = true))) ∧
  (∀ s dev, let c : CkptCtl := Map.get {} s.ckpt dev
    (c.busy = false ∨ c.rolling = true → ∃ t, exec (.checkpointComplete dev) s = .next t ∧ t = s) ∧
    (∀ k w n sd, c.busy = true → c.rolling = false → Map.find? s.crews k = some w → w.phase = .waiting (.checkpoint n sd) →
      (s.crews.filter fun kc => s.ctxDev kc.2.ctx == dev && atCheckpoint kc.2) = [(k, w)] →
      ∃ t, exec (.checkpointComplete dev) s = .next t ∧ OnlyCrew s t k ∧
        t.ckpt = Map.put s.ckpt dev { c with
          busy := false, num := c.num + 1, valid := true, overf := false, kept := [], timer := s.clk } ∧
        t.crew k = { w.goesOn s.clk with s := (t.crew k).s } ∧ (∀ r, r ≠ sd → (t.crew k).sv r = w.sv r) ∧
        (t.crew k).sv sd = if sd = 0 then 0 else (c.num + 1).setWidth 64)) ∧
  (∀ s dev (v : BitVec 128) i, i ∈ ([.ckptGo dev v, .ckptRollback dev v] : List Instr) →
    let c : CkptCtl := Map.get {} s.ckpt dev
    let go := v.getLsbD 61
    let back := v.getLsbD 60
    let bad := v.extractLsb' 32 7 ≠ 0 ∨ ((go = true ∨ back = true) ∧ c.busy = true) ∨
      (back = true ∧ (s.devBusy dev = true ∨ c.valid = false)) ∨ s.devExists dev = false
    let new := { c with area := v.extractLsb' 88 40, size := v.extractLsb' 64 24, err := false, period := v.extractLsb' 48 10 }
    (bad → Writes s i { s with ckpt := Map.put s.ckpt dev { c with err := true } }) ∧
    (¬bad → s.status.ready = true →
      (go = false → back = false → ∃ t, exec i s = .next t ∧ { t with ckpt := s.ckpt } = s ∧ Map.find? t.ckpt dev = some new) ∧
      (back = true → ∃ t, exec i s = .next t ∧ { t with ckpt := s.ckpt, agenda := s.agenda } = s ∧
        Map.find? t.ckpt dev = some { new with busy := true, rolling := true } ∧ Instr.rollbackComplete dev ∈ t.agenda) ∧
      (go = true → back = false → s.inject.arm = false → s.offs = [] → ∃ t, exec i s = .next t ∧ t.mem = s.mem ∧ t.crews = s.crews ∧
        Map.find? t.ckpt dev = some { new with busy := true } ∧ Instr.checkpointComplete dev ∈ t.agenda ∧
        ∀ d a, s.dir = [d] → d.owner = some a → d.f ≤ d.l → s.devCovers dev (128 * d.line) = true →
          t.dir = [{ d with st := Map.put d.st a .s, num := d.num + 1, writer := none }]))) ∧
  (∀ s dev, let c : CkptCtl := Map.get {} s.ckpt dev
    (c.period = 0 ∨ c.busy = true ∨ s.clk < c.timer + 210000000 * c.period.toNat →
      ∃ t, exec (.ckptPeriodTimer dev) s = .next t ∧ t = s) ∧
    (c.period ≠ 0 → c.busy = false → c.timer + 210000000 * c.period.toNat ≤ s.clk → s.inject.arm = false → s.offs = [] →
      ∃ t, exec (.ckptPeriodTimer dev) s = .next t ∧ t.mem = s.mem ∧ t.crews = s.crews ∧
        Map.find? t.ckpt dev = some { c with timer := s.clk, busy := true } ∧ Instr.checkpointComplete dev ∈ t.agenda)) ∧
  (∀ s dev, let c : CkptCtl := Map.get {} s.ckpt dev
    (c.busy = false ∨ c.rolling = false → ∃ t, exec (.rollbackComplete dev) s = .next t ∧ t = s) ∧
    (∀ κ, c.busy = true → c.rolling = true → c.kept = [κ] → (∀ x ∈ κ.cells, x.1 / 4096 = κ.parcel) →
      ∃ t, exec (.rollbackComplete dev) s = .next t ∧ t.crews = s.crews ∧
        Map.find? t.ckpt dev = some { c with busy := false, rolling := false, kept := [] } ∧
        ∀ a, memGet t.mem a = if a / 4096 = κ.parcel
          then (match (κ.cells.filter fun x => x.1 == a).getLast? with
            | some x => x.2
            | none => 0)
          else memGet s.mem a)) ∧
  (∀ s (v : BitVec 128) i, i ∈ ([.preemptGo v, .preemptRestore v] : List Instr) →
    let p := s.preempt
    let ctx := v.extractLsb' 0 16
    let go := v.getLsbD 61
    let back := v.getLsbD 60
    let bad := v.extractLsb' 64 12 ≠ 0 ∨ v.extractLsb' 48 8 ≠ 0 ∨ v.extractLsb' 16 16 ≠ 0 ∨ s.ctxExists ctx.toNat = false ∨
      ((go = true ∨ back = true) ∧ p.busy = true)
    (bad → Writes s i { s with preempt := { p with err := true } }) ∧
    (¬bad → go = false → back = false → Writes s i { s with
      preempt := { p with dir := v.extractLsb' 76 52, err := false, ctx } }) ∧
    (¬bad → go = true → s.status.ready = true → s.stopUnits ctx.toNat ≠ [] → ∃ t, exec i s = .next t ∧ t.mem = s.mem ∧
      t.crews = s.crews ∧ t.preempt = { p with
        dir := v.extractLsb' 76 52, err := false, busy := true, restoring := false, status := 0, count := 0, ctx
        nowCtx := ctx, nowDir := v.extractLsb' 76 52, waitFor := s.stopUnits ctx.toNat } ∧
      (∀ core, ∀ c ∈ (t.core core).copyQ, c.ctx = ctx.toNat → (s.party c.party).ended < (s.party c.party).ncrews → c.stopped = true)) ∧
    (¬bad → go = true → s.status.ready = true → s.stopUnits ctx.toNat = [] → (∀ x ∈ s.parties, x.2.ctx ≠ ctx.toNat) →
      (∀ x ∈ s.cores, x.2.arrivals = []) →
      ∃ t, exec i s = .next t ∧ t.preempt.busy = false ∧ t.preempt.status = 2 ∧ t.preempt.count = 0 ∧ t.preempt.ctx = ctx) ∧
    (¬bad → go = false → back = true → s.status.ready = true → ∃ t, exec i s = .next t ∧ t.mem = s.mem ∧ t.crews = s.crews ∧
      t.preempt.busy = true ∧ t.preempt.restoring = true ∧ t.preempt.ctx = ctx ∧ t.preempt.nowCtx = ctx ∧ Instr.preemptRestoreDone ∈ t.agenda)) ∧
  (∀ s u, let p := s.preempt
    (p.busy = false ∨ p.restoring = true ∨ u ∉ p.waitFor ∨ s.stopReady p.nowCtx.toNat u = false →
      ∃ t, exec (.engineStopAck u) s = .next t ∧ t = s) ∧
    (p.busy = true → p.restoring = false → u ∈ p.waitFor → s.stopReady p.nowCtx.toNat u = true →
      ((∃ x ∈ p.waitFor, x ≠ u) → ∃ t, exec (.engineStopAck u) s = .next t ∧
        t = { s with preempt := { p with waitFor := p.waitFor.filter (· ≠ u) } }) ∧
      ((∀ x ∈ p.waitFor, x = u) → (∀ x ∈ s.stopUnits p.nowCtx.toNat, s.stopReady p.nowCtx.toNat x = true) →
        (∀ x ∈ s.parties, x.2.ctx ≠ p.nowCtx.toNat) → (∀ x ∈ s.cores, x.2.arrivals = []) →
        ∃ t, exec (.engineStopAck u) s = .next t ∧ t.preempt.busy = false ∧ t.preempt.status = 2 ∧ t.preempt.count = 0))) ∧
  (∀ s : State, (s.preempt.busy = true ∧ s.preempt.restoring = true → ∃ t, exec .preemptRestoreDone s = .next t ∧
      t = { s with preempt := { s.preempt with busy := false, restoring := false, status := 3 } }) ∧
    (s.preempt.busy = false ∨ s.preempt.restoring = false → ∃ t, exec .preemptRestoreDone s = .next t ∧ t = s)) ∧
  (∀ s core, (s.testDue core = false → ∃ t, exec (.testStart core) s = .next t ∧ t = s) ∧
    (s.test.en = true → s.test.res = 1 → dieOfCore core ∉ s.dead → (∀ kc ∈ s.crews, coreOfKey kc.1 ≠ core) →
      (s.core core).idleSince + 1024 * s.test.idle.toNat ≤ s.clk → (s.core core).lastTest = none →
      ∃ t, exec (.testStart core) s = .next t ∧ OnlyCrew s t (crewKey core 96) ∧ let c := t.crew (crewKey core 96)
        t.hasCrew (crewKey core 96) = true ∧ c.kind = .test ∧ c.priv = true ∧ c.alloc = 256 ∧ c.phase = .select ∧
        c.live = 0xFFFFFFFF ∧ (∀ l, l < 32 → Map.find? c.pend l = some 0) ∧ ∀ r, c.sv r = 0))

/-- R268, R339 to R343, R346 to R350, R353 to R357, R380, R384 to R390: power and bring-up, the host link, the datum clock, the
transport, test images, the error log, sampling, attestation and sandboxes. Choices: stage 7's windows come with its report (log entry
3), the error log's home and the number of a dropped entry (log entry 50), and log entries 51, 53 to 55, 58, 63 and 81. -/
def Obligations.ThePackageTakesItsSteps : Prop :=
  (∀ s : State, (s.powered = true → ∃ t, exec .powerGood s = .next t ∧ t = s) ∧
    (s.powered = false → ∃ t, exec .powerGood s = .next t ∧ t = { s with powered := true, status := { s.status with stage := 1 } })) ∧
  (∀ s r, let st := s.status
    (s.powered = false ∨ st.ready = true ∨ st.fail = true → ∃ t, exec (.bringupStageDone r) s = .next t ∧ t = s) ∧
    (s.powered = true → st.ready = false → st.fail = false →
      (r.ok = false → (st.stage.toNat ≤ 4 ∨ st.stage = 8 ∨ st.stage = 9) →
        ∃ t, exec (.bringupStageDone r) s = .next t ∧ t = { s with status := { st with fail := true, fcode := r.code } }) ∧
      (r.ok = true → (st.stage = 1 ∨ st.stage = 2 ∨ st.stage = 8) →
        ∃ t, exec (.bringupStageDone r) s = .next t ∧ t = { s with status := { st with stage := st.stage + 1 } }) ∧
      (r.ok = true → st.stage = 3 → ∃ t, exec (.bringupStageDone r) s = .next t ∧
        t = { s with strike := { s.strike with sens := r.sens }, status := { st with stage := 4 } }) ∧
      (r.ok = true → st.stage = 4 → ∃ t, exec (.bringupStageDone r) s = .next t ∧ t.status = { st with stage := 5 } ∧
        (t.link.up = true ↔ r.linkUp = true ∧ r.linkRtt ≠ 0 ∧ r.linkRtt.toNat ≤ 1024) ∧
        (t.link.up = true → t.link.rtt = r.linkRtt ∧ t.link.width = r.linkWidth) ∧ (t.link.up = false → t.link.width = 3)) ∧
      (st.stage = 5 → ∃ t, exec (.bringupStageDone r) s = .next t ∧
        t = { s with status := { st with pairs := r.pairs, degr := r.pairs != 0xFF, stage := 6 } }) ∧
      (st.stage = 6 → ∃ t, exec (.bringupStageDone r) s = .next t ∧ t.status = { st with stage := 7 } ∧
        ∀ a, memGet t.mem a = if locPair a = 8 then memGet s.mem a else 0) ∧
      (st.stage = 7 → ∃ t, exec (.bringupStageDone r) s = .next t ∧ t.status = { st with stage := 8 } ∧ t.mem = s.mem ∧
        t.cxl = cxlWindows (2 ^ 44) r.cxl ∧ t.host = r.host.map (fun w => ⟨w.1, w.2⟩)) ∧
      (r.ok = true → st.stage = 9 → ∃ t, exec (.bringupStageDone r) s = .next t ∧ t.mem = s.mem ∧ t.clk = 0 ∧
        t.status = { st with ready := true } ∧ t.mode = { res := 0, mode := if (0xFF : BitVec 8) = st.pairs then 1 else 8 } ∧ t.datum.count = 0 ∧
        t.link.retry = 0 ∧ (t.ctx 0).en = true ∧ (t.ctx 0).ents = defaultMap t.mode.mode (lowestDev t.mode.mode st.pairs)))) ∧
  (∀ s, s.status.ready = false → ∃ t, exec .linkFlitCrcFail s = .next t ∧ t = s) ∧
  (∀ s, s.status.ready = true → ∃ t, exec .linkFlitCrcFail s = .next t ∧ t = { s with
    link := { s.link with retry := satInc s.link.retry }, swCnt := { s.swCnt with lretry := satInc s.swCnt.lretry } }) ∧
  (∀ s, ∃ t, exec .linkReplayTimeout s = .next t ∧ t.mem = s.mem ∧ t.crews = s.crews ∧ t.link = { s.link with up := false, width := 3 } ∧
    ∀ c ∈ s.ctxs, c.2.en = true → ∃ r ∈ t.reports, r.src = 6 ∧ r.ctx = c.1) ∧
  (∀ s, ∃ t, exec .thermalTrip s = .next t ∧ t.stopped = true ∧ t.status.therm = true ∧ t.reports = []) ∧
  (∀ s, ∃ t, exec .powerLimit s = .next t ∧ t = { s with step_ := s.step_ + 1 }) ∧
  (∀ s, ∃ t, exec .powerOff s = .next t ∧ (∀ a, memGet t.mem a = if locPair a = 8 then memGet s.mem a else 0) ∧
    { t with mem := [], poison := [], free := 0, inputs := [], outside := [], kernels := [] } = State.reset ∧
    t.poison = s.poison.filter fun x => locPair (32 * x) == 8) ∧
  (∀ s close time, let d := s.datum
    (s.status.ready = false ∨ s.ptp.en = false → ∃ t, exec (.ptpMessage close time) s = .next t ∧ t = s) ∧
    (s.status.ready = true → s.ptp.en = true →
      (∃ t, exec (.ptpMessage false time) s = .next t ∧ t = { s with datum := { d with sinceMsg := d.count, good := 0 } }) ∧
      (d.good < 7 ∨ d.locked = true → ∃ t, exec (.ptpMessage true time) s = .next t ∧
        t = { s with datum := { d with sinceMsg := d.count, good := min 8 (d.good + 1) } }) ∧
      (7 ≤ d.good → d.locked = false → d.scale = true → ∃ t, exec (.ptpMessage true time) s = .next t ∧
        t = { s with datum := { d with sinceMsg := d.count, good := 8, locked := true, holdover := false } }) ∧
      (7 ≤ d.good → d.locked = false → d.scale = false → time < d.count → ∃ t, exec (.ptpMessage true time) s = .next t ∧
        t = { s with datum := { d with sinceMsg := d.count, good := 8 } }) ∧
      (7 ≤ d.good → d.locked = false → d.scale = false → d.count ≤ time → ∃ t, exec (.ptpMessage true time) s = .next t ∧
        t = { s with datum := { d with
          sinceMsg := time, good := 8, locked := true, holdover := false, scale := true, count := time } }))) ∧
  (∀ s : State, let d := s.datum
    (d.locked = true → d.sinceMsg + 3 * s.ptp.interval ≤ d.count → ∃ t, exec .ptpHoldoverTimeout s = .next t ∧
      t = { s with datum := { d with locked := false, holdover := true, holdSince := d.count, good := 0 } }) ∧
    (d.locked = false ∨ d.count < d.sinceMsg + 3 * s.ptp.interval → ∃ t, exec .ptpHoldoverTimeout s = .next t ∧ t = s) ∧
    (d.holdover = true → d.holdSince + 600000000000 ≤ d.count → ∃ t, exec .ptpFreeTimeout s = .next t ∧
      t = { s with datum := { d with holdover := false } }) ∧
    (d.holdover = false ∨ d.count < d.holdSince + 600000000000 → ∃ t, exec .ptpFreeTimeout s = .next t ∧ t = s)) ∧
  (∀ s n data, let q : XQueue := Map.get {} s.xqueues n
    let put := fun (q : XQueue) => { s with xqueues := Map.put s.xqueues n q }
    n < 16 → (∀ who, Writes s (.transportDescriptorPush n who false data) (put { q with part := true })) ∧
      (q.en = true → q.descs.length < 256 →
        Writes s (.transportDescriptorPush n .driver true data) (put { q with descs := q.descs ++ [data] })) ∧
      (q.en = true → q.descs.length < 256 → q.devpush = true → ∀ ctx, ctx = q.ctx.toNat →
        Writes s (.transportDescriptorPush n (.companion ctx) true data) (put { q with descs := q.descs ++ [data] })) ∧
      (q.en = false ∨ 256 ≤ q.descs.length → ∀ who, Writes s (.transportDescriptorPush n who true data) (put { q with ovf := true }))) ∧
  (∀ s n d ds, let q : XQueue := Map.get {} s.xqueues n
    q.descs = d :: ds →
    let p := s.xdPeer q d
    let failed := fun (t : State) (cause : Nat) => Map.find? t.xqueues n = some { q with descs := ds } ∧
      (s.inShare 1024 (d.extractLsb' 192 10).toNat = true → Map.find? (Map.get {} t.peers p).failed n = some cause) ∧
      (s.inShare 1024 (d.extractLsb' 192 10).toNat = false → t.peers = s.peers) ∧
      t.reports.getLast? = some { src := 12, detail := BitVec.ofNat 64 (p + cause * 2 ^ 16), ctx := q.ctx.toNat, agent := 57 }
    (s.xdFault n q d = 0 → xdCaddr d = 0 → ∃ t, exec (.transportDescriptorComplete n) s = .next t ∧ { t with xqueues := s.xqueues } = s ∧
      Map.find? t.xqueues n = some { q with descs := ds }) ∧
    (∀ s1, s.xdFault n q d = 0 → xdCaddr d ≠ 0 → s.devWrite q.ctx.toNat (xdCaddr d) (bytesOf 8 (xdCval d).toNat) = some s1 →
      ∃ t, exec (.transportDescriptorComplete n) s = .next t ∧ t.mem = s1.mem ∧ Map.find? t.xqueues n = some { q with descs := ds }) ∧
    (∀ f, s.xdFault n q d = f → f ≠ 0 → ∃ t, exec (.transportDescriptorComplete n) s = .next t ∧ failed t f) ∧
    (∃ t, exec (.transportAckTimeout n) s = .next t ∧ failed t 5) ∧
    (∃ t, exec (.transportPeerRefusal n) s = .next t ∧ failed t 3)) ∧
  (∀ s p mac rctx raddr rel data, let r : PeerRec := Map.get {} s.peers p
    (s.status.ready = false ∨ r.en = false ∨ r.mac ≠ mac ∨ r.ctx.toNat ≠ rctx ∨ 1024 ≤ p →
      ∃ t, exec (.transportIncomingWrite p mac rctx raddr rel data) s = .next t ∧ t = s) ∧
    (s.status.ready = true → r.en = true → r.mac = mac → r.ctx.toNat = rctx → p < 1024 →
      (∀ s1, s.devWrite rctx raddr data = some s1 → ∃ t, exec (.transportIncomingWrite p mac rctx raddr rel data) s = .next t ∧ t = s1) ∧
      (s.devWrite rctx raddr data = none → ∃ t, exec (.transportIncomingWrite p mac rctx raddr rel data) s = .next t ∧ t = s))) ∧
  (∀ s : State, (s.test.busy = false → ∃ t, exec .testImageVerified s = .next t ∧ t = s) ∧
    (s.test.busy = true → ∃ t, exec .testImageVerified s = .next t ∧ { t with test := s.test } = s ∧ t.test.busy = false ∧
      let a := s.test.img.toNat * 4096
      let len := fld (ofBytes (s.physRead a 64)) 160 32
      let img := s.physRead a 64 ++ s.physRead (a + 64) (len + 64)
      let fits := len % 8 = 0 ∧ 8 ≤ len ∧ len ≤ 65536
      (¬fits → t.test.res = 4) ∧ (fits → Config.signatureOk img = false → t.test.res = 2) ∧
      (fits → Config.signatureOk img = true → Config.belowRollback img = true → t.test.res = 3) ∧
      (t.test.res = 1 ↔ fits ∧ Config.signatureOk img = true ∧ Config.belowRollback img = false ∧
        ofBytes (s.physRead a 64) = len * 2 ^ 160))) ∧
  (∀ s r rs, s.reports = r :: rs → let e := s.elog
    let size := 64 * (e.size.toNat + 1)
    let next := (e.head.toNat + 1) % size
    let at_ := e.base.toNat * 4096 + 64 * e.head.toNat
    (e.en = false ∨ next = e.tail.toNat → ∃ t, exec .errorReport s = .next t ∧ t = { s with
      reports := rs, elog := { e with ovf := true, seq := e.seq + 1 }, swCnt := { s.swCnt with drops := satInc s.swCnt.drops } }) ∧
    (e.en = true → next ≠ e.tail.toNat → PlainMemory s → at_ + 64 ≤ ctlBase → ∃ t, exec .errorReport s = .next t ∧ t.reports = rs ∧
        t.elog = { e with head := BitVec.ofNat 16 next, seq := e.seq + 1 } ∧
        (∀ a, (a < homeOf0 s at_ ∨ homeOf0 s at_ + 64 ≤ a) → memGet t.mem a = memGet s.mem a) ∧
        let f := memNat t.mem (homeOf0 s at_) 64
        fld f 448 64 = s.clk % 2 ^ 64 ∧ fld f 384 64 = r.addr.toNat ∧ fld f 320 64 = r.detail.toNat ∧ fld f 304 16 = r.ctx % 2 ^ 16 ∧
          fld f 296 8 = r.src % 256 ∧ fld f 288 8 = r.agent % 256 ∧ fld f 279 9 = r.core % 512 ∧ fld f 247 32 = e.seq.toNat)) ∧
  (∀ s k c, let g := s.sample
    let at_ := g.buf.toNat * 4096 + 32 * g.next
    s.crews = [(k, c)] → slotOfKey k < 96 → (g.all = true ∨ c.ctx = g.ctx.toNat) → PlainMemory s → at_ + 32 ≤ ctlBase →
    ∃ t, exec .sampleTimer s = .next t ∧ { t.crew k with mon := c.mon } = { c with merges := 0, scopem := 0 } ∧
      t.sample = { g with next := (g.next + 1) % (128 * (g.pages.toNat + 1)) } ∧
      (∀ a, (a < homeOf0 s at_ ∨ homeOf0 s at_ + 32 ≤ a) → memGet t.mem a = memGet s.mem a) ∧
      let f := memNat t.mem (homeOf0 s at_) 32
      fld f 192 64 = s.clk % 2 ^ 64 ∧ fld f 128 64 = c.pc.toNat ∧ fld f 120 8 = c.widx % 256 ∧ fld f 104 7 = slotOfKey k ∧
        fld f 80 16 = c.ctx % 2 ^ 16 ∧ fld f 58 10 = c.score % 1024 ∧ fld f 32 16 = min c.merges 65535 ∧ fld f 16 16 = min c.scopem 65535) ∧
  (∀ s : State, (s.att.busy = false → ∃ t, exec .attReportDone s = .next t ∧ t = s) ∧
    (s.att.busy = true → ∃ t, exec .attReportDone s = .next t ∧ t.att = { s.att with busy := false, done := true } ∧
      let at_ := s.att.dest.toNat * 64
      PlainMemory s → at_ + 512 ≤ ctlBase → s.att.nonce.toNat * 64 + 64 ≤ ctlBase →
        (∀ i, i < 64 → memGet t.mem (homeOf0 s (at_ + i)) = memGet s.mem (homeOf0 s (s.att.nonce.toNat * 64 + i))) ∧
        (s.test.res ≠ 1 → ∀ i, 128 ≤ i → i < 192 → memGet t.mem (homeOf0 s (at_ + i)) = 0) ∧
        ∀ i, 240 ≤ i → i < 448 → memGet t.mem (homeOf0 s (at_ + i)) = 0)) ∧
  (∀ s dom, ∃ t, exec (.sandboxHalt dom) s = .next t ∧ t.crews = s.crews ∧
    (∀ n, n < 48 → (Map.get {} t.sbx n).halted = ((Map.get {} s.sbx n).halted || decide ((Map.get {} s.sbx n).dom.toNat = dom))) ∧
    t.reports.getLast? = some { src := 10, detail := BitVec.ofNat 64 dom, agent := 63 } ∧
    (s.inject.arm = false → s.offs = [] → ∀ a, memGet t.mem a = memGet s.mem a)) ∧
  (∀ (s : State) (line f l : Nat), s.hash line f l = ((List.range (l + 1 - f)).map fun i =>
    (BitVec.ofNat 32 (memNat s.mem (128 * line + 4 * (f + i)) 4)).rotateLeft (f + i)).foldl (· ^^^ ·) 0)
end

