-- ==== Sys2Proof/Laws/State.lean ====
section
/-! SUPPORT. The fields of the state after each of the named updates: one lemma per field per update, true by rfl, so that no
proof unfolds a record update; then the readers of crews, cores, dies, parties and counters, and the updates built on them. -/

namespace Sys2Proof.Machine

variable (s : State)

/-! ## State.putCrew -/

@[simp] theorem State.putCrew_clk (k : Nat) (c : Crew) : (s.putCrew k c).clk = s.clk := rfl
@[simp] theorem State.putCrew_free (k : Nat) (c : Crew) : (s.putCrew k c).free = s.free := rfl
@[simp] theorem State.putCrew_agenda (k : Nat) (c : Crew) : (s.putCrew k c).agenda = s.agenda := rfl
@[simp] theorem State.putCrew_runq (k : Nat) (c : Crew) : (s.putCrew k c).runq = s.runq := rfl
@[simp] theorem State.putCrew_late (k : Nat) (c : Crew) : (s.putCrew k c).late = s.late := rfl
@[simp] theorem State.putCrew_pushes (k : Nat) (c : Crew) : (s.putCrew k c).pushes = s.pushes := rfl
@[simp] theorem State.putCrew_outside (k : Nat) (c : Crew) : (s.putCrew k c).outside = s.outside := rfl
@[simp] theorem State.putCrew_inputs (k : Nat) (c : Crew) : (s.putCrew k c).inputs = s.inputs := rfl
@[simp] theorem State.putCrew_cur (k : Nat) (c : Crew) : (s.putCrew k c).cur = s.cur := rfl
@[simp] theorem State.putCrew_crews (k : Nat) (c : Crew) : (s.putCrew k c).crews = Map.put s.crews k c := rfl
@[simp] theorem State.putCrew_parties (k : Nat) (c : Crew) : (s.putCrew k c).parties = s.parties := rfl
@[simp] theorem State.putCrew_cores (k : Nat) (c : Crew) : (s.putCrew k c).cores = s.cores := rfl
@[simp] theorem State.putCrew_dies (k : Nat) (c : Crew) : (s.putCrew k c).dies = s.dies := rfl
@[simp] theorem State.putCrew_past (k : Nat) (c : Crew) : (s.putCrew k c).past = s.past := rfl
@[simp] theorem State.putCrew_mem (k : Nat) (c : Crew) : (s.putCrew k c).mem = s.mem := rfl
@[simp] theorem State.putCrew_stale (k : Nat) (c : Crew) : (s.putCrew k c).stale = s.stale := rfl
@[simp] theorem State.putCrew_poison (k : Nat) (c : Crew) : (s.putCrew k c).poison = s.poison := rfl
@[simp] theorem State.putCrew_cxl (k : Nat) (c : Crew) : (s.putCrew k c).cxl = s.cxl := rfl
@[simp] theorem State.putCrew_host (k : Nat) (c : Crew) : (s.putCrew k c).host = s.host := rfl
@[simp] theorem State.putCrew_lost (k : Nat) (c : Crew) : (s.putCrew k c).lost = s.lost := rfl
@[simp] theorem State.putCrew_dir (k : Nat) (c : Crew) : (s.putCrew k c).dir = s.dir := rfl
@[simp] theorem State.putCrew_lastNum (k : Nat) (c : Crew) : (s.putCrew k c).lastNum = s.lastNum := rfl
@[simp] theorem State.putCrew_recs (k : Nat) (c : Crew) : (s.putCrew k c).recs = s.recs := rfl
@[simp] theorem State.putCrew_ivals (k : Nat) (c : Crew) : (s.putCrew k c).ivals = s.ivals := rfl
@[simp] theorem State.putCrew_granules (k : Nat) (c : Crew) : (s.putCrew k c).granules = s.granules := rfl
@[simp] theorem State.putCrew_heldReqs (k : Nat) (c : Crew) : (s.putCrew k c).heldReqs = s.heldReqs := rfl
@[simp] theorem State.putCrew_svcq (k : Nat) (c : Crew) : (s.putCrew k c).svcq = s.svcq := rfl
@[simp] theorem State.putCrew_svc (k : Nat) (c : Crew) : (s.putCrew k c).svc = s.svc := rfl
@[simp] theorem State.putCrew_svcReqs (k : Nat) (c : Crew) : (s.putCrew k c).svcReqs = s.svcReqs := rfl
@[simp] theorem State.putCrew_status (k : Nat) (c : Crew) : (s.putCrew k c).status = s.status := rfl
@[simp] theorem State.putCrew_link (k : Nat) (c : Crew) : (s.putCrew k c).link = s.link := rfl
@[simp] theorem State.putCrew_mode (k : Nat) (c : Crew) : (s.putCrew k c).mode = s.mode := rfl
@[simp] theorem State.putCrew_bias (k : Nat) (c : Crew) : (s.putCrew k c).bias = s.bias := rfl
@[simp] theorem State.putCrew_strike (k : Nat) (c : Crew) : (s.putCrew k c).strike = s.strike := rfl
@[simp] theorem State.putCrew_ptp (k : Nat) (c : Crew) : (s.putCrew k c).ptp = s.ptp := rfl
@[simp] theorem State.putCrew_datum (k : Nat) (c : Crew) : (s.putCrew k c).datum = s.datum := rfl
@[simp] theorem State.putCrew_inject (k : Nat) (c : Crew) : (s.putCrew k c).inject = s.inject := rfl
@[simp] theorem State.putCrew_test (k : Nat) (c : Crew) : (s.putCrew k c).test = s.test := rfl
@[simp] theorem State.putCrew_elog (k : Nat) (c : Crew) : (s.putCrew k c).elog = s.elog := rfl
@[simp] theorem State.putCrew_reports (k : Nat) (c : Crew) : (s.putCrew k c).reports = s.reports := rfl
@[simp] theorem State.putCrew_sample (k : Nat) (c : Crew) : (s.putCrew k c).sample = s.sample := rfl
@[simp] theorem State.putCrew_att (k : Nat) (c : Crew) : (s.putCrew k c).att = s.att := rfl
@[simp] theorem State.putCrew_preempt (k : Nat) (c : Crew) : (s.putCrew k c).preempt = s.preempt := rfl
@[simp] theorem State.putCrew_saved (k : Nat) (c : Crew) : (s.putCrew k c).saved = s.saved := rfl
@[simp] theorem State.putCrew_savedHand (k : Nat) (c : Crew) : (s.putCrew k c).savedHand = s.savedHand := rfl
@[simp] theorem State.putCrew_kernels (k : Nat) (c : Crew) : (s.putCrew k c).kernels = s.kernels := rfl
@[simp] theorem State.putCrew_memCnt (k : Nat) (c : Crew) : (s.putCrew k c).memCnt = s.memCnt := rfl
@[simp] theorem State.putCrew_swCnt (k : Nat) (c : Crew) : (s.putCrew k c).swCnt = s.swCnt := rfl
@[simp] theorem State.putCrew_devCfg (k : Nat) (c : Crew) : (s.putCrew k c).devCfg = s.devCfg := rfl
@[simp] theorem State.putCrew_queues (k : Nat) (c : Crew) : (s.putCrew k c).queues = s.queues := rfl
@[simp] theorem State.putCrew_xqueues (k : Nat) (c : Crew) : (s.putCrew k c).xqueues = s.xqueues := rfl
@[simp] theorem State.putCrew_peers (k : Nat) (c : Crew) : (s.putCrew k c).peers = s.peers := rfl
@[simp] theorem State.putCrew_counters (k : Nat) (c : Crew) : (s.putCrew k c).counters = s.counters := rfl
@[simp] theorem State.putCrew_slots (k : Nat) (c : Crew) : (s.putCrew k c).slots = s.slots := rfl
@[simp] theorem State.putCrew_sheets (k : Nat) (c : Crew) : (s.putCrew k c).sheets = s.sheets := rfl
@[simp] theorem State.putCrew_trapCfg (k : Nat) (c : Crew) : (s.putCrew k c).trapCfg = s.trapCfg := rfl
@[simp] theorem State.putCrew_ctxs (k : Nat) (c : Crew) : (s.putCrew k c).ctxs = s.ctxs := rfl
@[simp] theorem State.putCrew_dirtyMaps (k : Nat) (c : Crew) : (s.putCrew k c).dirtyMaps = s.dirtyMaps := rfl
@[simp] theorem State.putCrew_ckpt (k : Nat) (c : Crew) : (s.putCrew k c).ckpt = s.ckpt := rfl
@[simp] theorem State.putCrew_sbx (k : Nat) (c : Crew) : (s.putCrew k c).sbx = s.sbx := rfl
@[simp] theorem State.putCrew_groups (k : Nat) (c : Crew) : (s.putCrew k c).groups = s.groups := rfl
@[simp] theorem State.putCrew_beat (k : Nat) (c : Crew) : (s.putCrew k c).beat = s.beat := rfl
@[simp] theorem State.putCrew_dead (k : Nat) (c : Crew) : (s.putCrew k c).dead = s.dead := rfl
@[simp] theorem State.putCrew_stopped (k : Nat) (c : Crew) : (s.putCrew k c).stopped = s.stopped := rfl
@[simp] theorem State.putCrew_step_ (k : Nat) (c : Crew) : (s.putCrew k c).step_ = s.step_ := rfl
@[simp] theorem State.putCrew_powered (k : Nat) (c : Crew) : (s.putCrew k c).powered = s.powered := rfl
@[simp] theorem State.putCrew_replays (k : Nat) (c : Crew) : (s.putCrew k c).replays = s.replays := rfl
@[simp] theorem State.putCrew_plan (k : Nat) (c : Crew) : (s.putCrew k c).plan = s.plan := rfl
@[simp] theorem State.putCrew_offs (k : Nat) (c : Crew) : (s.putCrew k c).offs = s.offs := rfl
@[simp] theorem State.putCrew_relLines (k : Nat) (c : Crew) : (s.putCrew k c).relLines = s.relLines := rfl
@[simp] theorem State.putCrew_agentSeen (k : Nat) (c : Crew) : (s.putCrew k c).agentSeen = s.agentSeen := rfl
@[simp] theorem State.putCrew_resv (k : Nat) (c : Crew) : (s.putCrew k c).resv = s.resv := rfl
@[simp] theorem State.putCrew_evNext (k : Nat) (c : Crew) : (s.putCrew k c).evNext = s.evNext := rfl

/-! ## State.onCore -/

@[simp] theorem State.onCore_clk (n : Nat) (f : Core → Core) : (s.onCore n f).clk = s.clk := rfl
@[simp] theorem State.onCore_free (n : Nat) (f : Core → Core) : (s.onCore n f).free = s.free := rfl
@[simp] theorem State.onCore_agenda (n : Nat) (f : Core → Core) : (s.onCore n f).agenda = s.agenda := rfl
@[simp] theorem State.onCore_runq (n : Nat) (f : Core → Core) : (s.onCore n f).runq = s.runq := rfl
@[simp] theorem State.onCore_late (n : Nat) (f : Core → Core) : (s.onCore n f).late = s.late := rfl
@[simp] theorem State.onCore_pushes (n : Nat) (f : Core → Core) : (s.onCore n f).pushes = s.pushes := rfl
@[simp] theorem State.onCore_outside (n : Nat) (f : Core → Core) : (s.onCore n f).outside = s.outside := rfl
@[simp] theorem State.onCore_inputs (n : Nat) (f : Core → Core) : (s.onCore n f).inputs = s.inputs := rfl
@[simp] theorem State.onCore_cur (n : Nat) (f : Core → Core) : (s.onCore n f).cur = s.cur := rfl
@[simp] theorem State.onCore_crews (n : Nat) (f : Core → Core) : (s.onCore n f).crews = s.crews := rfl
@[simp] theorem State.onCore_parties (n : Nat) (f : Core → Core) : (s.onCore n f).parties = s.parties := rfl
@[simp] theorem State.onCore_cores (n : Nat) (f : Core → Core) : (s.onCore n f).cores = Map.put s.cores n (f (s.core n)) := rfl
@[simp] theorem State.onCore_dies (n : Nat) (f : Core → Core) : (s.onCore n f).dies = s.dies := rfl
@[simp] theorem State.onCore_past (n : Nat) (f : Core → Core) : (s.onCore n f).past = s.past := rfl
@[simp] theorem State.onCore_mem (n : Nat) (f : Core → Core) : (s.onCore n f).mem = s.mem := rfl
@[simp] theorem State.onCore_stale (n : Nat) (f : Core → Core) : (s.onCore n f).stale = s.stale := rfl
@[simp] theorem State.onCore_poison (n : Nat) (f : Core → Core) : (s.onCore n f).poison = s.poison := rfl
@[simp] theorem State.onCore_cxl (n : Nat) (f : Core → Core) : (s.onCore n f).cxl = s.cxl := rfl
@[simp] theorem State.onCore_host (n : Nat) (f : Core → Core) : (s.onCore n f).host = s.host := rfl
@[simp] theorem State.onCore_lost (n : Nat) (f : Core → Core) : (s.onCore n f).lost = s.lost := rfl
@[simp] theorem State.onCore_dir (n : Nat) (f : Core → Core) : (s.onCore n f).dir = s.dir := rfl
@[simp] theorem State.onCore_lastNum (n : Nat) (f : Core → Core) : (s.onCore n f).lastNum = s.lastNum := rfl
@[simp] theorem State.onCore_recs (n : Nat) (f : Core → Core) : (s.onCore n f).recs = s.recs := rfl
@[simp] theorem State.onCore_ivals (n : Nat) (f : Core → Core) : (s.onCore n f).ivals = s.ivals := rfl
@[simp] theorem State.onCore_granules (n : Nat) (f : Core → Core) : (s.onCore n f).granules = s.granules := rfl
@[simp] theorem State.onCore_heldReqs (n : Nat) (f : Core → Core) : (s.onCore n f).heldReqs = s.heldReqs := rfl
@[simp] theorem State.onCore_svcq (n : Nat) (f : Core → Core) : (s.onCore n f).svcq = s.svcq := rfl
@[simp] theorem State.onCore_svc (n : Nat) (f : Core → Core) : (s.onCore n f).svc = s.svc := rfl
@[simp] theorem State.onCore_svcReqs (n : Nat) (f : Core → Core) : (s.onCore n f).svcReqs = s.svcReqs := rfl
@[simp] theorem State.onCore_status (n : Nat) (f : Core → Core) : (s.onCore n f).status = s.status := rfl
@[simp] theorem State.onCore_link (n : Nat) (f : Core → Core) : (s.onCore n f).link = s.link := rfl
@[simp] theorem State.onCore_mode (n : Nat) (f : Core → Core) : (s.onCore n f).mode = s.mode := rfl
@[simp] theorem State.onCore_bias (n : Nat) (f : Core → Core) : (s.onCore n f).bias = s.bias := rfl
@[simp] theorem State.onCore_strike (n : Nat) (f : Core → Core) : (s.onCore n f).strike = s.strike := rfl
@[simp] theorem State.onCore_ptp (n : Nat) (f : Core → Core) : (s.onCore n f).ptp = s.ptp := rfl
@[simp] theorem State.onCore_datum (n : Nat) (f : Core → Core) : (s.onCore n f).datum = s.datum := rfl
@[simp] theorem State.onCore_inject (n : Nat) (f : Core → Core) : (s.onCore n f).inject = s.inject := rfl
@[simp] theorem State.onCore_test (n : Nat) (f : Core → Core) : (s.onCore n f).test = s.test := rfl
@[simp] theorem State.onCore_elog (n : Nat) (f : Core → Core) : (s.onCore n f).elog = s.elog := rfl
@[simp] theorem State.onCore_reports (n : Nat) (f : Core → Core) : (s.onCore n f).reports = s.reports := rfl
@[simp] theorem State.onCore_sample (n : Nat) (f : Core → Core) : (s.onCore n f).sample = s.sample := rfl
@[simp] theorem State.onCore_att (n : Nat) (f : Core → Core) : (s.onCore n f).att = s.att := rfl
@[simp] theorem State.onCore_preempt (n : Nat) (f : Core → Core) : (s.onCore n f).preempt = s.preempt := rfl
@[simp] theorem State.onCore_saved (n : Nat) (f : Core → Core) : (s.onCore n f).saved = s.saved := rfl
@[simp] theorem State.onCore_savedHand (n : Nat) (f : Core → Core) : (s.onCore n f).savedHand = s.savedHand := rfl
@[simp] theorem State.onCore_kernels (n : Nat) (f : Core → Core) : (s.onCore n f).kernels = s.kernels := rfl
@[simp] theorem State.onCore_memCnt (n : Nat) (f : Core → Core) : (s.onCore n f).memCnt = s.memCnt := rfl
@[simp] theorem State.onCore_swCnt (n : Nat) (f : Core → Core) : (s.onCore n f).swCnt = s.swCnt := rfl
@[simp] theorem State.onCore_devCfg (n : Nat) (f : Core → Core) : (s.onCore n f).devCfg = s.devCfg := rfl
@[simp] theorem State.onCore_queues (n : Nat) (f : Core → Core) : (s.onCore n f).queues = s.queues := rfl
@[simp] theorem State.onCore_xqueues (n : Nat) (f : Core → Core) : (s.onCore n f).xqueues = s.xqueues := rfl
@[simp] theorem State.onCore_peers (n : Nat) (f : Core → Core) : (s.onCore n f).peers = s.peers := rfl
@[simp] theorem State.onCore_counters (n : Nat) (f : Core → Core) : (s.onCore n f).counters = s.counters := rfl
@[simp] theorem State.onCore_slots (n : Nat) (f : Core → Core) : (s.onCore n f).slots = s.slots := rfl
@[simp] theorem State.onCore_sheets (n : Nat) (f : Core → Core) : (s.onCore n f).sheets = s.sheets := rfl
@[simp] theorem State.onCore_trapCfg (n : Nat) (f : Core → Core) : (s.onCore n f).trapCfg = s.trapCfg := rfl
@[simp] theorem State.onCore_ctxs (n : Nat) (f : Core → Core) : (s.onCore n f).ctxs = s.ctxs := rfl
@[simp] theorem State.onCore_dirtyMaps (n : Nat) (f : Core → Core) : (s.onCore n f).dirtyMaps = s.dirtyMaps := rfl
@[simp] theorem State.onCore_ckpt (n : Nat) (f : Core → Core) : (s.onCore n f).ckpt = s.ckpt := rfl
@[simp] theorem State.onCore_sbx (n : Nat) (f : Core → Core) : (s.onCore n f).sbx = s.sbx := rfl
@[simp] theorem State.onCore_groups (n : Nat) (f : Core → Core) : (s.onCore n f).groups = s.groups := rfl
@[simp] theorem State.onCore_beat (n : Nat) (f : Core → Core) : (s.onCore n f).beat = s.beat := rfl
@[simp] theorem State.onCore_dead (n : Nat) (f : Core → Core) : (s.onCore n f).dead = s.dead := rfl
@[simp] theorem State.onCore_stopped (n : Nat) (f : Core → Core) : (s.onCore n f).stopped = s.stopped := rfl
@[simp] theorem State.onCore_step_ (n : Nat) (f : Core → Core) : (s.onCore n f).step_ = s.step_ := rfl
@[simp] theorem State.onCore_powered (n : Nat) (f : Core → Core) : (s.onCore n f).powered = s.powered := rfl
@[simp] theorem State.onCore_replays (n : Nat) (f : Core → Core) : (s.onCore n f).replays = s.replays := rfl
@[simp] theorem State.onCore_plan (n : Nat) (f : Core → Core) : (s.onCore n f).plan = s.plan := rfl
@[simp] theorem State.onCore_offs (n : Nat) (f : Core → Core) : (s.onCore n f).offs = s.offs := rfl
@[simp] theorem State.onCore_relLines (n : Nat) (f : Core → Core) : (s.onCore n f).relLines = s.relLines := rfl
@[simp] theorem State.onCore_agentSeen (n : Nat) (f : Core → Core) : (s.onCore n f).agentSeen = s.agentSeen := rfl
@[simp] theorem State.onCore_resv (n : Nat) (f : Core → Core) : (s.onCore n f).resv = s.resv := rfl
@[simp] theorem State.onCore_evNext (n : Nat) (f : Core → Core) : (s.onCore n f).evNext = s.evNext := rfl

/-! ## State.onDie -/

@[simp] theorem State.onDie_clk (d : Nat) (f : Die → Die) : (s.onDie d f).clk = s.clk := rfl
@[simp] theorem State.onDie_free (d : Nat) (f : Die → Die) : (s.onDie d f).free = s.free := rfl
@[simp] theorem State.onDie_agenda (d : Nat) (f : Die → Die) : (s.onDie d f).agenda = s.agenda := rfl
@[simp] theorem State.onDie_runq (d : Nat) (f : Die → Die) : (s.onDie d f).runq = s.runq := rfl
@[simp] theorem State.onDie_late (d : Nat) (f : Die → Die) : (s.onDie d f).late = s.late := rfl
@[simp] theorem State.onDie_pushes (d : Nat) (f : Die → Die) : (s.onDie d f).pushes = s.pushes := rfl
@[simp] theorem State.onDie_outside (d : Nat) (f : Die → Die) : (s.onDie d f).outside = s.outside := rfl
@[simp] theorem State.onDie_inputs (d : Nat) (f : Die → Die) : (s.onDie d f).inputs = s.inputs := rfl
@[simp] theorem State.onDie_cur (d : Nat) (f : Die → Die) : (s.onDie d f).cur = s.cur := rfl
@[simp] theorem State.onDie_crews (d : Nat) (f : Die → Die) : (s.onDie d f).crews = s.crews := rfl
@[simp] theorem State.onDie_parties (d : Nat) (f : Die → Die) : (s.onDie d f).parties = s.parties := rfl
@[simp] theorem State.onDie_cores (d : Nat) (f : Die → Die) : (s.onDie d f).cores = s.cores := rfl
@[simp] theorem State.onDie_dies (d : Nat) (f : Die → Die) : (s.onDie d f).dies = Map.put s.dies d (f (s.die d)) := rfl
@[simp] theorem State.onDie_past (d : Nat) (f : Die → Die) : (s.onDie d f).past = s.past := rfl
@[simp] theorem State.onDie_mem (d : Nat) (f : Die → Die) : (s.onDie d f).mem = s.mem := rfl
@[simp] theorem State.onDie_stale (d : Nat) (f : Die → Die) : (s.onDie d f).stale = s.stale := rfl
@[simp] theorem State.onDie_poison (d : Nat) (f : Die → Die) : (s.onDie d f).poison = s.poison := rfl
@[simp] theorem State.onDie_cxl (d : Nat) (f : Die → Die) : (s.onDie d f).cxl = s.cxl := rfl
@[simp] theorem State.onDie_host (d : Nat) (f : Die → Die) : (s.onDie d f).host = s.host := rfl
@[simp] theorem State.onDie_lost (d : Nat) (f : Die → Die) : (s.onDie d f).lost = s.lost := rfl
@[simp] theorem State.onDie_dir (d : Nat) (f : Die → Die) : (s.onDie d f).dir = s.dir := rfl
@[simp] theorem State.onDie_lastNum (d : Nat) (f : Die → Die) : (s.onDie d f).lastNum = s.lastNum := rfl
@[simp] theorem State.onDie_recs (d : Nat) (f : Die → Die) : (s.onDie d f).recs = s.recs := rfl
@[simp] theorem State.onDie_ivals (d : Nat) (f : Die → Die) : (s.onDie d f).ivals = s.ivals := rfl
@[simp] theorem State.onDie_granules (d : Nat) (f : Die → Die) : (s.onDie d f).granules = s.granules := rfl
@[simp] theorem State.onDie_heldReqs (d : Nat) (f : Die → Die) : (s.onDie d f).heldReqs = s.heldReqs := rfl
@[simp] theorem State.onDie_svcq (d : Nat) (f : Die → Die) : (s.onDie d f).svcq = s.svcq := rfl
@[simp] theorem State.onDie_svc (d : Nat) (f : Die → Die) : (s.onDie d f).svc = s.svc := rfl
@[simp] theorem State.onDie_svcReqs (d : Nat) (f : Die → Die) : (s.onDie d f).svcReqs = s.svcReqs := rfl
@[simp] theorem State.onDie_status (d : Nat) (f : Die → Die) : (s.onDie d f).status = s.status := rfl
@[simp] theorem State.onDie_link (d : Nat) (f : Die → Die) : (s.onDie d f).link = s.link := rfl
@[simp] theorem State.onDie_mode (d : Nat) (f : Die → Die) : (s.onDie d f).mode = s.mode := rfl
@[simp] theorem State.onDie_bias (d : Nat) (f : Die → Die) : (s.onDie d f).bias = s.bias := rfl
@[simp] theorem State.onDie_strike (d : Nat) (f : Die → Die) : (s.onDie d f).strike = s.strike := rfl
@[simp] theorem State.onDie_ptp (d : Nat) (f : Die → Die) : (s.onDie d f).ptp = s.ptp := rfl
@[simp] theorem State.onDie_datum (d : Nat) (f : Die → Die) : (s.onDie d f).datum = s.datum := rfl
@[simp] theorem State.onDie_inject (d : Nat) (f : Die → Die) : (s.onDie d f).inject = s.inject := rfl
@[simp] theorem State.onDie_test (d : Nat) (f : Die → Die) : (s.onDie d f).test = s.test := rfl
@[simp] theorem State.onDie_elog (d : Nat) (f : Die → Die) : (s.onDie d f).elog = s.elog := rfl
@[simp] theorem State.onDie_reports (d : Nat) (f : Die → Die) : (s.onDie d f).reports = s.reports := rfl
@[simp] theorem State.onDie_sample (d : Nat) (f : Die → Die) : (s.onDie d f).sample = s.sample := rfl
@[simp] theorem State.onDie_att (d : Nat) (f : Die → Die) : (s.onDie d f).att = s.att := rfl
@[simp] theorem State.onDie_preempt (d : Nat) (f : Die → Die) : (s.onDie d f).preempt = s.preempt := rfl
@[simp] theorem State.onDie_saved (d : Nat) (f : Die → Die) : (s.onDie d f).saved = s.saved := rfl
@[simp] theorem State.onDie_savedHand (d : Nat) (f : Die → Die) : (s.onDie d f).savedHand = s.savedHand := rfl
@[simp] theorem State.onDie_kernels (d : Nat) (f : Die → Die) : (s.onDie d f).kernels = s.kernels := rfl
@[simp] theorem State.onDie_memCnt (d : Nat) (f : Die → Die) : (s.onDie d f).memCnt = s.memCnt := rfl
@[simp] theorem State.onDie_swCnt (d : Nat) (f : Die → Die) : (s.onDie d f).swCnt = s.swCnt := rfl
@[simp] theorem State.onDie_devCfg (d : Nat) (f : Die → Die) : (s.onDie d f).devCfg = s.devCfg := rfl
@[simp] theorem State.onDie_queues (d : Nat) (f : Die → Die) : (s.onDie d f).queues = s.queues := rfl
@[simp] theorem State.onDie_xqueues (d : Nat) (f : Die → Die) : (s.onDie d f).xqueues = s.xqueues := rfl
@[simp] theorem State.onDie_peers (d : Nat) (f : Die → Die) : (s.onDie d f).peers = s.peers := rfl
@[simp] theorem State.onDie_counters (d : Nat) (f : Die → Die) : (s.onDie d f).counters = s.counters := rfl
@[simp] theorem State.onDie_slots (d : Nat) (f : Die → Die) : (s.onDie d f).slots = s.slots := rfl
@[simp] theorem State.onDie_sheets (d : Nat) (f : Die → Die) : (s.onDie d f).sheets = s.sheets := rfl
@[simp] theorem State.onDie_trapCfg (d : Nat) (f : Die → Die) : (s.onDie d f).trapCfg = s.trapCfg := rfl
@[simp] theorem State.onDie_ctxs (d : Nat) (f : Die → Die) : (s.onDie d f).ctxs = s.ctxs := rfl
@[simp] theorem State.onDie_dirtyMaps (d : Nat) (f : Die → Die) : (s.onDie d f).dirtyMaps = s.dirtyMaps := rfl
@[simp] theorem State.onDie_ckpt (d : Nat) (f : Die → Die) : (s.onDie d f).ckpt = s.ckpt := rfl
@[simp] theorem State.onDie_sbx (d : Nat) (f : Die → Die) : (s.onDie d f).sbx = s.sbx := rfl
@[simp] theorem State.onDie_groups (d : Nat) (f : Die → Die) : (s.onDie d f).groups = s.groups := rfl
@[simp] theorem State.onDie_beat (d : Nat) (f : Die → Die) : (s.onDie d f).beat = s.beat := rfl
@[simp] theorem State.onDie_dead (d : Nat) (f : Die → Die) : (s.onDie d f).dead = s.dead := rfl
@[simp] theorem State.onDie_stopped (d : Nat) (f : Die → Die) : (s.onDie d f).stopped = s.stopped := rfl
@[simp] theorem State.onDie_step_ (d : Nat) (f : Die → Die) : (s.onDie d f).step_ = s.step_ := rfl
@[simp] theorem State.onDie_powered (d : Nat) (f : Die → Die) : (s.onDie d f).powered = s.powered := rfl
@[simp] theorem State.onDie_replays (d : Nat) (f : Die → Die) : (s.onDie d f).replays = s.replays := rfl
@[simp] theorem State.onDie_plan (d : Nat) (f : Die → Die) : (s.onDie d f).plan = s.plan := rfl
@[simp] theorem State.onDie_offs (d : Nat) (f : Die → Die) : (s.onDie d f).offs = s.offs := rfl
@[simp] theorem State.onDie_relLines (d : Nat) (f : Die → Die) : (s.onDie d f).relLines = s.relLines := rfl
@[simp] theorem State.onDie_agentSeen (d : Nat) (f : Die → Die) : (s.onDie d f).agentSeen = s.agentSeen := rfl
@[simp] theorem State.onDie_resv (d : Nat) (f : Die → Die) : (s.onDie d f).resv = s.resv := rfl
@[simp] theorem State.onDie_evNext (d : Nat) (f : Die → Die) : (s.onDie d f).evNext = s.evNext := rfl

/-! ## State.onParty -/

@[simp] theorem State.onParty_clk (p : Nat) (f : Party → Party) : (s.onParty p f).clk = s.clk := rfl
@[simp] theorem State.onParty_free (p : Nat) (f : Party → Party) : (s.onParty p f).free = s.free := rfl
@[simp] theorem State.onParty_agenda (p : Nat) (f : Party → Party) : (s.onParty p f).agenda = s.agenda := rfl
@[simp] theorem State.onParty_runq (p : Nat) (f : Party → Party) : (s.onParty p f).runq = s.runq := rfl
@[simp] theorem State.onParty_late (p : Nat) (f : Party → Party) : (s.onParty p f).late = s.late := rfl
@[simp] theorem State.onParty_pushes (p : Nat) (f : Party → Party) : (s.onParty p f).pushes = s.pushes := rfl
@[simp] theorem State.onParty_outside (p : Nat) (f : Party → Party) : (s.onParty p f).outside = s.outside := rfl
@[simp] theorem State.onParty_inputs (p : Nat) (f : Party → Party) : (s.onParty p f).inputs = s.inputs := rfl
@[simp] theorem State.onParty_cur (p : Nat) (f : Party → Party) : (s.onParty p f).cur = s.cur := rfl
@[simp] theorem State.onParty_crews (p : Nat) (f : Party → Party) : (s.onParty p f).crews = s.crews := rfl
@[simp] theorem State.onParty_parties (p : Nat) (f : Party → Party) : (s.onParty p f).parties = Map.put s.parties p (f (s.party p)) := rfl
@[simp] theorem State.onParty_cores (p : Nat) (f : Party → Party) : (s.onParty p f).cores = s.cores := rfl
@[simp] theorem State.onParty_dies (p : Nat) (f : Party → Party) : (s.onParty p f).dies = s.dies := rfl
@[simp] theorem State.onParty_past (p : Nat) (f : Party → Party) : (s.onParty p f).past = s.past := rfl
@[simp] theorem State.onParty_mem (p : Nat) (f : Party → Party) : (s.onParty p f).mem = s.mem := rfl
@[simp] theorem State.onParty_stale (p : Nat) (f : Party → Party) : (s.onParty p f).stale = s.stale := rfl
@[simp] theorem State.onParty_poison (p : Nat) (f : Party → Party) : (s.onParty p f).poison = s.poison := rfl
@[simp] theorem State.onParty_cxl (p : Nat) (f : Party → Party) : (s.onParty p f).cxl = s.cxl := rfl
@[simp] theorem State.onParty_host (p : Nat) (f : Party → Party) : (s.onParty p f).host = s.host := rfl
@[simp] theorem State.onParty_lost (p : Nat) (f : Party → Party) : (s.onParty p f).lost = s.lost := rfl
@[simp] theorem State.onParty_dir (p : Nat) (f : Party → Party) : (s.onParty p f).dir = s.dir := rfl
@[simp] theorem State.onParty_lastNum (p : Nat) (f : Party → Party) : (s.onParty p f).lastNum = s.lastNum := rfl
@[simp] theorem State.onParty_recs (p : Nat) (f : Party → Party) : (s.onParty p f).recs = s.recs := rfl
@[simp] theorem State.onParty_ivals (p : Nat) (f : Party → Party) : (s.onParty p f).ivals = s.ivals := rfl
@[simp] theorem State.onParty_granules (p : Nat) (f : Party → Party) : (s.onParty p f).granules = s.granules := rfl
@[simp] theorem State.onParty_heldReqs (p : Nat) (f : Party → Party) : (s.onParty p f).heldReqs = s.heldReqs := rfl
@[simp] theorem State.onParty_svcq (p : Nat) (f : Party → Party) : (s.onParty p f).svcq = s.svcq := rfl
@[simp] theorem State.onParty_svc (p : Nat) (f : Party → Party) : (s.onParty p f).svc = s.svc := rfl
@[simp] theorem State.onParty_svcReqs (p : Nat) (f : Party → Party) : (s.onParty p f).svcReqs = s.svcReqs := rfl
@[simp] theorem State.onParty_status (p : Nat) (f : Party → Party) : (s.onParty p f).status = s.status := rfl
@[simp] theorem State.onParty_link (p : Nat) (f : Party → Party) : (s.onParty p f).link = s.link := rfl
@[simp] theorem State.onParty_mode (p : Nat) (f : Party → Party) : (s.onParty p f).mode = s.mode := rfl
@[simp] theorem State.onParty_bias (p : Nat) (f : Party → Party) : (s.onParty p f).bias = s.bias := rfl
@[simp] theorem State.onParty_strike (p : Nat) (f : Party → Party) : (s.onParty p f).strike = s.strike := rfl
@[simp] theorem State.onParty_ptp (p : Nat) (f : Party → Party) : (s.onParty p f).ptp = s.ptp := rfl
@[simp] theorem State.onParty_datum (p : Nat) (f : Party → Party) : (s.onParty p f).datum = s.datum := rfl
@[simp] theorem State.onParty_inject (p : Nat) (f : Party → Party) : (s.onParty p f).inject = s.inject := rfl
@[simp] theorem State.onParty_test (p : Nat) (f : Party → Party) : (s.onParty p f).test = s.test := rfl
@[simp] theorem State.onParty_elog (p : Nat) (f : Party → Party) : (s.onParty p f).elog = s.elog := rfl
@[simp] theorem State.onParty_reports (p : Nat) (f : Party → Party) : (s.onParty p f).reports = s.reports := rfl
@[simp] theorem State.onParty_sample (p : Nat) (f : Party → Party) : (s.onParty p f).sample = s.sample := rfl
@[simp] theorem State.onParty_att (p : Nat) (f : Party → Party) : (s.onParty p f).att = s.att := rfl
@[simp] theorem State.onParty_preempt (p : Nat) (f : Party → Party) : (s.onParty p f).preempt = s.preempt := rfl
@[simp] theorem State.onParty_saved (p : Nat) (f : Party → Party) : (s.onParty p f).saved = s.saved := rfl
@[simp] theorem State.onParty_savedHand (p : Nat) (f : Party → Party) : (s.onParty p f).savedHand = s.savedHand := rfl
@[simp] theorem State.onParty_kernels (p : Nat) (f : Party → Party) : (s.onParty p f).kernels = s.kernels := rfl
@[simp] theorem State.onParty_memCnt (p : Nat) (f : Party → Party) : (s.onParty p f).memCnt = s.memCnt := rfl
@[simp] theorem State.onParty_swCnt (p : Nat) (f : Party → Party) : (s.onParty p f).swCnt = s.swCnt := rfl
@[simp] theorem State.onParty_devCfg (p : Nat) (f : Party → Party) : (s.onParty p f).devCfg = s.devCfg := rfl
@[simp] theorem State.onParty_queues (p : Nat) (f : Party → Party) : (s.onParty p f).queues = s.queues := rfl
@[simp] theorem State.onParty_xqueues (p : Nat) (f : Party → Party) : (s.onParty p f).xqueues = s.xqueues := rfl
@[simp] theorem State.onParty_peers (p : Nat) (f : Party → Party) : (s.onParty p f).peers = s.peers := rfl
@[simp] theorem State.onParty_counters (p : Nat) (f : Party → Party) : (s.onParty p f).counters = s.counters := rfl
@[simp] theorem State.onParty_slots (p : Nat) (f : Party → Party) : (s.onParty p f).slots = s.slots := rfl
@[simp] theorem State.onParty_sheets (p : Nat) (f : Party → Party) : (s.onParty p f).sheets = s.sheets := rfl
@[simp] theorem State.onParty_trapCfg (p : Nat) (f : Party → Party) : (s.onParty p f).trapCfg = s.trapCfg := rfl
@[simp] theorem State.onParty_ctxs (p : Nat) (f : Party → Party) : (s.onParty p f).ctxs = s.ctxs := rfl
@[simp] theorem State.onParty_dirtyMaps (p : Nat) (f : Party → Party) : (s.onParty p f).dirtyMaps = s.dirtyMaps := rfl
@[simp] theorem State.onParty_ckpt (p : Nat) (f : Party → Party) : (s.onParty p f).ckpt = s.ckpt := rfl
@[simp] theorem State.onParty_sbx (p : Nat) (f : Party → Party) : (s.onParty p f).sbx = s.sbx := rfl
@[simp] theorem State.onParty_groups (p : Nat) (f : Party → Party) : (s.onParty p f).groups = s.groups := rfl
@[simp] theorem State.onParty_beat (p : Nat) (f : Party → Party) : (s.onParty p f).beat = s.beat := rfl
@[simp] theorem State.onParty_dead (p : Nat) (f : Party → Party) : (s.onParty p f).dead = s.dead := rfl
@[simp] theorem State.onParty_stopped (p : Nat) (f : Party → Party) : (s.onParty p f).stopped = s.stopped := rfl
@[simp] theorem State.onParty_step_ (p : Nat) (f : Party → Party) : (s.onParty p f).step_ = s.step_ := rfl
@[simp] theorem State.onParty_powered (p : Nat) (f : Party → Party) : (s.onParty p f).powered = s.powered := rfl
@[simp] theorem State.onParty_replays (p : Nat) (f : Party → Party) : (s.onParty p f).replays = s.replays := rfl
@[simp] theorem State.onParty_plan (p : Nat) (f : Party → Party) : (s.onParty p f).plan = s.plan := rfl
@[simp] theorem State.onParty_offs (p : Nat) (f : Party → Party) : (s.onParty p f).offs = s.offs := rfl
@[simp] theorem State.onParty_relLines (p : Nat) (f : Party → Party) : (s.onParty p f).relLines = s.relLines := rfl
@[simp] theorem State.onParty_agentSeen (p : Nat) (f : Party → Party) : (s.onParty p f).agentSeen = s.agentSeen := rfl
@[simp] theorem State.onParty_resv (p : Nat) (f : Party → Party) : (s.onParty p f).resv = s.resv := rfl
@[simp] theorem State.onParty_evNext (p : Nat) (f : Party → Party) : (s.onParty p f).evNext = s.evNext := rfl

/-! ## State.onCounter -/

@[simp] theorem State.onCounter_clk (n : Nat) (f : Counter → Counter) : (s.onCounter n f).clk = s.clk := rfl
@[simp] theorem State.onCounter_free (n : Nat) (f : Counter → Counter) : (s.onCounter n f).free = s.free := rfl
@[simp] theorem State.onCounter_agenda (n : Nat) (f : Counter → Counter) : (s.onCounter n f).agenda = s.agenda := rfl
@[simp] theorem State.onCounter_runq (n : Nat) (f : Counter → Counter) : (s.onCounter n f).runq = s.runq := rfl
@[simp] theorem State.onCounter_late (n : Nat) (f : Counter → Counter) : (s.onCounter n f).late = s.late := rfl
@[simp] theorem State.onCounter_pushes (n : Nat) (f : Counter → Counter) : (s.onCounter n f).pushes = s.pushes := rfl
@[simp] theorem State.onCounter_outside (n : Nat) (f : Counter → Counter) : (s.onCounter n f).outside = s.outside := rfl
@[simp] theorem State.onCounter_inputs (n : Nat) (f : Counter → Counter) : (s.onCounter n f).inputs = s.inputs := rfl
@[simp] theorem State.onCounter_cur (n : Nat) (f : Counter → Counter) : (s.onCounter n f).cur = s.cur := rfl
@[simp] theorem State.onCounter_crews (n : Nat) (f : Counter → Counter) : (s.onCounter n f).crews = s.crews := rfl
@[simp] theorem State.onCounter_parties (n : Nat) (f : Counter → Counter) : (s.onCounter n f).parties = s.parties := rfl
@[simp] theorem State.onCounter_cores (n : Nat) (f : Counter → Counter) : (s.onCounter n f).cores = s.cores := rfl
@[simp] theorem State.onCounter_dies (n : Nat) (f : Counter → Counter) : (s.onCounter n f).dies = s.dies := rfl
@[simp] theorem State.onCounter_past (n : Nat) (f : Counter → Counter) : (s.onCounter n f).past = s.past := rfl
@[simp] theorem State.onCounter_mem (n : Nat) (f : Counter → Counter) : (s.onCounter n f).mem = s.mem := rfl
@[simp] theorem State.onCounter_stale (n : Nat) (f : Counter → Counter) : (s.onCounter n f).stale = s.stale := rfl
@[simp] theorem State.onCounter_poison (n : Nat) (f : Counter → Counter) : (s.onCounter n f).poison = s.poison := rfl
@[simp] theorem State.onCounter_cxl (n : Nat) (f : Counter → Counter) : (s.onCounter n f).cxl = s.cxl := rfl
@[simp] theorem State.onCounter_host (n : Nat) (f : Counter → Counter) : (s.onCounter n f).host = s.host := rfl
@[simp] theorem State.onCounter_lost (n : Nat) (f : Counter → Counter) : (s.onCounter n f).lost = s.lost := rfl
@[simp] theorem State.onCounter_dir (n : Nat) (f : Counter → Counter) : (s.onCounter n f).dir = s.dir := rfl
@[simp] theorem State.onCounter_lastNum (n : Nat) (f : Counter → Counter) : (s.onCounter n f).lastNum = s.lastNum := rfl
@[simp] theorem State.onCounter_recs (n : Nat) (f : Counter → Counter) : (s.onCounter n f).recs = s.recs := rfl
@[simp] theorem State.onCounter_ivals (n : Nat) (f : Counter → Counter) : (s.onCounter n f).ivals = s.ivals := rfl
@[simp] theorem State.onCounter_granules (n : Nat) (f : Counter → Counter) : (s.onCounter n f).granules = s.granules := rfl
@[simp] theorem State.onCounter_heldReqs (n : Nat) (f : Counter → Counter) : (s.onCounter n f).heldReqs = s.heldReqs := rfl
@[simp] theorem State.onCounter_svcq (n : Nat) (f : Counter → Counter) : (s.onCounter n f).svcq = s.svcq := rfl
@[simp] theorem State.onCounter_svc (n : Nat) (f : Counter → Counter) : (s.onCounter n f).svc = s.svc := rfl
@[simp] theorem State.onCounter_svcReqs (n : Nat) (f : Counter → Counter) : (s.onCounter n f).svcReqs = s.svcReqs := rfl
@[simp] theorem State.onCounter_status (n : Nat) (f : Counter → Counter) : (s.onCounter n f).status = s.status := rfl
@[simp] theorem State.onCounter_link (n : Nat) (f : Counter → Counter) : (s.onCounter n f).link = s.link := rfl
@[simp] theorem State.onCounter_mode (n : Nat) (f : Counter → Counter) : (s.onCounter n f).mode = s.mode := rfl
@[simp] theorem State.onCounter_bias (n : Nat) (f : Counter → Counter) : (s.onCounter n f).bias = s.bias := rfl
@[simp] theorem State.onCounter_strike (n : Nat) (f : Counter → Counter) : (s.onCounter n f).strike = s.strike := rfl
@[simp] theorem State.onCounter_ptp (n : Nat) (f : Counter → Counter) : (s.onCounter n f).ptp = s.ptp := rfl
@[simp] theorem State.onCounter_datum (n : Nat) (f : Counter → Counter) : (s.onCounter n f).datum = s.datum := rfl
@[simp] theorem State.onCounter_inject (n : Nat) (f : Counter → Counter) : (s.onCounter n f).inject = s.inject := rfl
@[simp] theorem State.onCounter_test (n : Nat) (f : Counter → Counter) : (s.onCounter n f).test = s.test := rfl
@[simp] theorem State.onCounter_elog (n : Nat) (f : Counter → Counter) : (s.onCounter n f).elog = s.elog := rfl
@[simp] theorem State.onCounter_reports (n : Nat) (f : Counter → Counter) : (s.onCounter n f).reports = s.reports := rfl
@[simp] theorem State.onCounter_sample (n : Nat) (f : Counter → Counter) : (s.onCounter n f).sample = s.sample := rfl
@[simp] theorem State.onCounter_att (n : Nat) (f : Counter → Counter) : (s.onCounter n f).att = s.att := rfl
@[simp] theorem State.onCounter_preempt (n : Nat) (f : Counter → Counter) : (s.onCounter n f).preempt = s.preempt := rfl
@[simp] theorem State.onCounter_saved (n : Nat) (f : Counter → Counter) : (s.onCounter n f).saved = s.saved := rfl
@[simp] theorem State.onCounter_savedHand (n : Nat) (f : Counter → Counter) : (s.onCounter n f).savedHand = s.savedHand := rfl
@[simp] theorem State.onCounter_kernels (n : Nat) (f : Counter → Counter) : (s.onCounter n f).kernels = s.kernels := rfl
@[simp] theorem State.onCounter_memCnt (n : Nat) (f : Counter → Counter) : (s.onCounter n f).memCnt = s.memCnt := rfl
@[simp] theorem State.onCounter_swCnt (n : Nat) (f : Counter → Counter) : (s.onCounter n f).swCnt = s.swCnt := rfl
@[simp] theorem State.onCounter_devCfg (n : Nat) (f : Counter → Counter) : (s.onCounter n f).devCfg = s.devCfg := rfl
@[simp] theorem State.onCounter_queues (n : Nat) (f : Counter → Counter) : (s.onCounter n f).queues = s.queues := rfl
@[simp] theorem State.onCounter_xqueues (n : Nat) (f : Counter → Counter) : (s.onCounter n f).xqueues = s.xqueues := rfl
@[simp] theorem State.onCounter_peers (n : Nat) (f : Counter → Counter) : (s.onCounter n f).peers = s.peers := rfl
@[simp] theorem State.onCounter_counters (n : Nat) (f : Counter → Counter) : (s.onCounter n f).counters = Map.put s.counters n (f (s.counter n)) := rfl
@[simp] theorem State.onCounter_slots (n : Nat) (f : Counter → Counter) : (s.onCounter n f).slots = s.slots := rfl
@[simp] theorem State.onCounter_sheets (n : Nat) (f : Counter → Counter) : (s.onCounter n f).sheets = s.sheets := rfl
@[simp] theorem State.onCounter_trapCfg (n : Nat) (f : Counter → Counter) : (s.onCounter n f).trapCfg = s.trapCfg := rfl
@[simp] theorem State.onCounter_ctxs (n : Nat) (f : Counter → Counter) : (s.onCounter n f).ctxs = s.ctxs := rfl
@[simp] theorem State.onCounter_dirtyMaps (n : Nat) (f : Counter → Counter) : (s.onCounter n f).dirtyMaps = s.dirtyMaps := rfl
@[simp] theorem State.onCounter_ckpt (n : Nat) (f : Counter → Counter) : (s.onCounter n f).ckpt = s.ckpt := rfl
@[simp] theorem State.onCounter_sbx (n : Nat) (f : Counter → Counter) : (s.onCounter n f).sbx = s.sbx := rfl
@[simp] theorem State.onCounter_groups (n : Nat) (f : Counter → Counter) : (s.onCounter n f).groups = s.groups := rfl
@[simp] theorem State.onCounter_beat (n : Nat) (f : Counter → Counter) : (s.onCounter n f).beat = s.beat := rfl
@[simp] theorem State.onCounter_dead (n : Nat) (f : Counter → Counter) : (s.onCounter n f).dead = s.dead := rfl
@[simp] theorem State.onCounter_stopped (n : Nat) (f : Counter → Counter) : (s.onCounter n f).stopped = s.stopped := rfl
@[simp] theorem State.onCounter_step_ (n : Nat) (f : Counter → Counter) : (s.onCounter n f).step_ = s.step_ := rfl
@[simp] theorem State.onCounter_powered (n : Nat) (f : Counter → Counter) : (s.onCounter n f).powered = s.powered := rfl
@[simp] theorem State.onCounter_replays (n : Nat) (f : Counter → Counter) : (s.onCounter n f).replays = s.replays := rfl
@[simp] theorem State.onCounter_plan (n : Nat) (f : Counter → Counter) : (s.onCounter n f).plan = s.plan := rfl
@[simp] theorem State.onCounter_offs (n : Nat) (f : Counter → Counter) : (s.onCounter n f).offs = s.offs := rfl
@[simp] theorem State.onCounter_relLines (n : Nat) (f : Counter → Counter) : (s.onCounter n f).relLines = s.relLines := rfl
@[simp] theorem State.onCounter_agentSeen (n : Nat) (f : Counter → Counter) : (s.onCounter n f).agentSeen = s.agentSeen := rfl
@[simp] theorem State.onCounter_resv (n : Nat) (f : Counter → Counter) : (s.onCounter n f).resv = s.resv := rfl
@[simp] theorem State.onCounter_evNext (n : Nat) (f : Counter → Counter) : (s.onCounter n f).evNext = s.evNext := rfl

/-! ## State.onMem -/

@[simp] theorem State.onMem_clk (m : Nat) (f : MemCnt → MemCnt) : (s.onMem m f).clk = s.clk := rfl
@[simp] theorem State.onMem_free (m : Nat) (f : MemCnt → MemCnt) : (s.onMem m f).free = s.free := rfl
@[simp] theorem State.onMem_agenda (m : Nat) (f : MemCnt → MemCnt) : (s.onMem m f).agenda = s.agenda := rfl
@[simp] theorem State.onMem_runq (m : Nat) (f : MemCnt → MemCnt) : (s.onMem m f).runq = s.runq := rfl
@[simp] theorem State.onMem_late (m : Nat) (f : MemCnt → MemCnt) : (s.onMem m f).late = s.late := rfl
@[simp] theorem State.onMem_pushes (m : Nat) (f : MemCnt → MemCnt) : (s.onMem m f).pushes = s.pushes := rfl
@[simp] theorem State.onMem_outside (m : Nat) (f : MemCnt → MemCnt) : (s.onMem m f).outside = s.outside := rfl
@[simp] theorem State.onMem_inputs (m : Nat) (f : MemCnt → MemCnt) : (s.onMem m f).inputs = s.inputs := rfl
@[simp] theorem State.onMem_cur (m : Nat) (f : MemCnt → MemCnt) : (s.onMem m f).cur = s.cur := rfl
@[simp] theorem State.onMem_crews (m : Nat) (f : MemCnt → MemCnt) : (s.onMem m f).crews = s.crews := rfl
@[simp] theorem State.onMem_parties (m : Nat) (f : MemCnt → MemCnt) : (s.onMem m f).parties = s.parties := rfl
@[simp] theorem State.onMem_cores (m : Nat) (f : MemCnt → MemCnt) : (s.onMem m f).cores = s.cores := rfl
@[simp] theorem State.onMem_dies (m : Nat) (f : MemCnt → MemCnt) : (s.onMem m f).dies = s.dies := rfl
@[simp] theorem State.onMem_past (m : Nat) (f : MemCnt → MemCnt) : (s.onMem m f).past = s.past := rfl
@[simp] theorem State.onMem_mem (m : Nat) (f : MemCnt → MemCnt) : (s.onMem m f).mem = s.mem := rfl
@[simp] theorem State.onMem_stale (m : Nat) (f : MemCnt → MemCnt) : (s.onMem m f).stale = s.stale := rfl
@[simp] theorem State.onMem_poison (m : Nat) (f : MemCnt → MemCnt) : (s.onMem m f).poison = s.poison := rfl
@[simp] theorem State.onMem_cxl (m : Nat) (f : MemCnt → MemCnt) : (s.onMem m f).cxl = s.cxl := rfl
@[simp] theorem State.onMem_host (m : Nat) (f : MemCnt → MemCnt) : (s.onMem m f).host = s.host := rfl
@[simp] theorem State.onMem_lost (m : Nat) (f : MemCnt → MemCnt) : (s.onMem m f).lost = s.lost := rfl
@[simp] theorem State.onMem_dir (m : Nat) (f : MemCnt → MemCnt) : (s.onMem m f).dir = s.dir := rfl
@[simp] theorem State.onMem_lastNum (m : Nat) (f : MemCnt → MemCnt) : (s.onMem m f).lastNum = s.lastNum := rfl
@[simp] theorem State.onMem_recs (m : Nat) (f : MemCnt → MemCnt) : (s.onMem m f).recs = s.recs := rfl
@[simp] theorem State.onMem_ivals (m : Nat) (f : MemCnt → MemCnt) : (s.onMem m f).ivals = s.ivals := rfl
@[simp] theorem State.onMem_granules (m : Nat) (f : MemCnt → MemCnt) : (s.onMem m f).granules = s.granules := rfl
@[simp] theorem State.onMem_heldReqs (m : Nat) (f : MemCnt → MemCnt) : (s.onMem m f).heldReqs = s.heldReqs := rfl
@[simp] theorem State.onMem_svcq (m : Nat) (f : MemCnt → MemCnt) : (s.onMem m f).svcq = s.svcq := rfl
@[simp] theorem State.onMem_svc (m : Nat) (f : MemCnt → MemCnt) : (s.onMem m f).svc = s.svc := rfl
@[simp] theorem State.onMem_svcReqs (m : Nat) (f : MemCnt → MemCnt) : (s.onMem m f).svcReqs = s.svcReqs := rfl
@[simp] theorem State.onMem_status (m : Nat) (f : MemCnt → MemCnt) : (s.onMem m f).status = s.status := rfl
@[simp] theorem State.onMem_link (m : Nat) (f : MemCnt → MemCnt) : (s.onMem m f).link = s.link := rfl
@[simp] theorem State.onMem_mode (m : Nat) (f : MemCnt → MemCnt) : (s.onMem m f).mode = s.mode := rfl
@[simp] theorem State.onMem_bias (m : Nat) (f : MemCnt → MemCnt) : (s.onMem m f).bias = s.bias := rfl
@[simp] theorem State.onMem_strike (m : Nat) (f : MemCnt → MemCnt) : (s.onMem m f).strike = s.strike := rfl
@[simp] theorem State.onMem_ptp (m : Nat) (f : MemCnt → MemCnt) : (s.onMem m f).ptp = s.ptp := rfl
@[simp] theorem State.onMem_datum (m : Nat) (f : MemCnt → MemCnt) : (s.onMem m f).datum = s.datum := rfl
@[simp] theorem State.onMem_inject (m : Nat) (f : MemCnt → MemCnt) : (s.onMem m f).inject = s.inject := rfl
@[simp] theorem State.onMem_test (m : Nat) (f : MemCnt → MemCnt) : (s.onMem m f).test = s.test := rfl
@[simp] theorem State.onMem_elog (m : Nat) (f : MemCnt → MemCnt) : (s.onMem m f).elog = s.elog := rfl
@[simp] theorem State.onMem_reports (m : Nat) (f : MemCnt → MemCnt) : (s.onMem m f).reports = s.reports := rfl
@[simp] theorem State.onMem_sample (m : Nat) (f : MemCnt → MemCnt) : (s.onMem m f).sample = s.sample := rfl
@[simp] theorem State.onMem_att (m : Nat) (f : MemCnt → MemCnt) : (s.onMem m f).att = s.att := rfl
@[simp] theorem State.onMem_preempt (m : Nat) (f : MemCnt → MemCnt) : (s.onMem m f).preempt = s.preempt := rfl
@[simp] theorem State.onMem_saved (m : Nat) (f : MemCnt → MemCnt) : (s.onMem m f).saved = s.saved := rfl
@[simp] theorem State.onMem_savedHand (m : Nat) (f : MemCnt → MemCnt) : (s.onMem m f).savedHand = s.savedHand := rfl
@[simp] theorem State.onMem_kernels (m : Nat) (f : MemCnt → MemCnt) : (s.onMem m f).kernels = s.kernels := rfl
@[simp] theorem State.onMem_memCnt (m : Nat) (f : MemCnt → MemCnt) : (s.onMem m f).memCnt = Map.put s.memCnt m (f (Map.get {} s.memCnt m)) := rfl
@[simp] theorem State.onMem_swCnt (m : Nat) (f : MemCnt → MemCnt) : (s.onMem m f).swCnt = s.swCnt := rfl
@[simp] theorem State.onMem_devCfg (m : Nat) (f : MemCnt → MemCnt) : (s.onMem m f).devCfg = s.devCfg := rfl
@[simp] theorem State.onMem_queues (m : Nat) (f : MemCnt → MemCnt) : (s.onMem m f).queues = s.queues := rfl
@[simp] theorem State.onMem_xqueues (m : Nat) (f : MemCnt → MemCnt) : (s.onMem m f).xqueues = s.xqueues := rfl
@[simp] theorem State.onMem_peers (m : Nat) (f : MemCnt → MemCnt) : (s.onMem m f).peers = s.peers := rfl
@[simp] theorem State.onMem_counters (m : Nat) (f : MemCnt → MemCnt) : (s.onMem m f).counters = s.counters := rfl
@[simp] theorem State.onMem_slots (m : Nat) (f : MemCnt → MemCnt) : (s.onMem m f).slots = s.slots := rfl
@[simp] theorem State.onMem_sheets (m : Nat) (f : MemCnt → MemCnt) : (s.onMem m f).sheets = s.sheets := rfl
@[simp] theorem State.onMem_trapCfg (m : Nat) (f : MemCnt → MemCnt) : (s.onMem m f).trapCfg = s.trapCfg := rfl
@[simp] theorem State.onMem_ctxs (m : Nat) (f : MemCnt → MemCnt) : (s.onMem m f).ctxs = s.ctxs := rfl
@[simp] theorem State.onMem_dirtyMaps (m : Nat) (f : MemCnt → MemCnt) : (s.onMem m f).dirtyMaps = s.dirtyMaps := rfl
@[simp] theorem State.onMem_ckpt (m : Nat) (f : MemCnt → MemCnt) : (s.onMem m f).ckpt = s.ckpt := rfl
@[simp] theorem State.onMem_sbx (m : Nat) (f : MemCnt → MemCnt) : (s.onMem m f).sbx = s.sbx := rfl
@[simp] theorem State.onMem_groups (m : Nat) (f : MemCnt → MemCnt) : (s.onMem m f).groups = s.groups := rfl
@[simp] theorem State.onMem_beat (m : Nat) (f : MemCnt → MemCnt) : (s.onMem m f).beat = s.beat := rfl
@[simp] theorem State.onMem_dead (m : Nat) (f : MemCnt → MemCnt) : (s.onMem m f).dead = s.dead := rfl
@[simp] theorem State.onMem_stopped (m : Nat) (f : MemCnt → MemCnt) : (s.onMem m f).stopped = s.stopped := rfl
@[simp] theorem State.onMem_step_ (m : Nat) (f : MemCnt → MemCnt) : (s.onMem m f).step_ = s.step_ := rfl
@[simp] theorem State.onMem_powered (m : Nat) (f : MemCnt → MemCnt) : (s.onMem m f).powered = s.powered := rfl
@[simp] theorem State.onMem_replays (m : Nat) (f : MemCnt → MemCnt) : (s.onMem m f).replays = s.replays := rfl
@[simp] theorem State.onMem_plan (m : Nat) (f : MemCnt → MemCnt) : (s.onMem m f).plan = s.plan := rfl
@[simp] theorem State.onMem_offs (m : Nat) (f : MemCnt → MemCnt) : (s.onMem m f).offs = s.offs := rfl
@[simp] theorem State.onMem_relLines (m : Nat) (f : MemCnt → MemCnt) : (s.onMem m f).relLines = s.relLines := rfl
@[simp] theorem State.onMem_agentSeen (m : Nat) (f : MemCnt → MemCnt) : (s.onMem m f).agentSeen = s.agentSeen := rfl
@[simp] theorem State.onMem_resv (m : Nat) (f : MemCnt → MemCnt) : (s.onMem m f).resv = s.resv := rfl
@[simp] theorem State.onMem_evNext (m : Nat) (f : MemCnt → MemCnt) : (s.onMem m f).evNext = s.evNext := rfl

/-! ## State.push -/

@[simp] theorem State.push_clk (i : Instr) : (s.push i).clk = s.clk := rfl
@[simp] theorem State.push_free (i : Instr) : (s.push i).free = s.free := rfl
@[simp] theorem State.push_agenda (i : Instr) : (s.push i).agenda = s.agenda ++ [i] := rfl
@[simp] theorem State.push_runq (i : Instr) : (s.push i).runq = s.runq := rfl
@[simp] theorem State.push_late (i : Instr) : (s.push i).late = s.late := rfl
@[simp] theorem State.push_pushes (i : Instr) : (s.push i).pushes = s.pushes := rfl
@[simp] theorem State.push_outside (i : Instr) : (s.push i).outside = s.outside := rfl
@[simp] theorem State.push_inputs (i : Instr) : (s.push i).inputs = s.inputs := rfl
@[simp] theorem State.push_cur (i : Instr) : (s.push i).cur = s.cur := rfl
@[simp] theorem State.push_crews (i : Instr) : (s.push i).crews = s.crews := rfl
@[simp] theorem State.push_parties (i : Instr) : (s.push i).parties = s.parties := rfl
@[simp] theorem State.push_cores (i : Instr) : (s.push i).cores = s.cores := rfl
@[simp] theorem State.push_dies (i : Instr) : (s.push i).dies = s.dies := rfl
@[simp] theorem State.push_past (i : Instr) : (s.push i).past = s.past := rfl
@[simp] theorem State.push_mem (i : Instr) : (s.push i).mem = s.mem := rfl
@[simp] theorem State.push_stale (i : Instr) : (s.push i).stale = s.stale := rfl
@[simp] theorem State.push_poison (i : Instr) : (s.push i).poison = s.poison := rfl
@[simp] theorem State.push_cxl (i : Instr) : (s.push i).cxl = s.cxl := rfl
@[simp] theorem State.push_host (i : Instr) : (s.push i).host = s.host := rfl
@[simp] theorem State.push_lost (i : Instr) : (s.push i).lost = s.lost := rfl
@[simp] theorem State.push_dir (i : Instr) : (s.push i).dir = s.dir := rfl
@[simp] theorem State.push_lastNum (i : Instr) : (s.push i).lastNum = s.lastNum := rfl
@[simp] theorem State.push_recs (i : Instr) : (s.push i).recs = s.recs := rfl
@[simp] theorem State.push_ivals (i : Instr) : (s.push i).ivals = s.ivals := rfl
@[simp] theorem State.push_granules (i : Instr) : (s.push i).granules = s.granules := rfl
@[simp] theorem State.push_heldReqs (i : Instr) : (s.push i).heldReqs = s.heldReqs := rfl
@[simp] theorem State.push_svcq (i : Instr) : (s.push i).svcq = s.svcq := rfl
@[simp] theorem State.push_svc (i : Instr) : (s.push i).svc = s.svc := rfl
@[simp] theorem State.push_svcReqs (i : Instr) : (s.push i).svcReqs = s.svcReqs := rfl
@[simp] theorem State.push_status (i : Instr) : (s.push i).status = s.status := rfl
@[simp] theorem State.push_link (i : Instr) : (s.push i).link = s.link := rfl
@[simp] theorem State.push_mode (i : Instr) : (s.push i).mode = s.mode := rfl
@[simp] theorem State.push_bias (i : Instr) : (s.push i).bias = s.bias := rfl
@[simp] theorem State.push_strike (i : Instr) : (s.push i).strike = s.strike := rfl
@[simp] theorem State.push_ptp (i : Instr) : (s.push i).ptp = s.ptp := rfl
@[simp] theorem State.push_datum (i : Instr) : (s.push i).datum = s.datum := rfl
@[simp] theorem State.push_inject (i : Instr) : (s.push i).inject = s.inject := rfl
@[simp] theorem State.push_test (i : Instr) : (s.push i).test = s.test := rfl
@[simp] theorem State.push_elog (i : Instr) : (s.push i).elog = s.elog := rfl
@[simp] theorem State.push_reports (i : Instr) : (s.push i).reports = s.reports := rfl
@[simp] theorem State.push_sample (i : Instr) : (s.push i).sample = s.sample := rfl
@[simp] theorem State.push_att (i : Instr) : (s.push i).att = s.att := rfl
@[simp] theorem State.push_preempt (i : Instr) : (s.push i).preempt = s.preempt := rfl
@[simp] theorem State.push_saved (i : Instr) : (s.push i).saved = s.saved := rfl
@[simp] theorem State.push_savedHand (i : Instr) : (s.push i).savedHand = s.savedHand := rfl
@[simp] theorem State.push_kernels (i : Instr) : (s.push i).kernels = s.kernels := rfl
@[simp] theorem State.push_memCnt (i : Instr) : (s.push i).memCnt = s.memCnt := rfl
@[simp] theorem State.push_swCnt (i : Instr) : (s.push i).swCnt = s.swCnt := rfl
@[simp] theorem State.push_devCfg (i : Instr) : (s.push i).devCfg = s.devCfg := rfl
@[simp] theorem State.push_queues (i : Instr) : (s.push i).queues = s.queues := rfl
@[simp] theorem State.push_xqueues (i : Instr) : (s.push i).xqueues = s.xqueues := rfl
@[simp] theorem State.push_peers (i : Instr) : (s.push i).peers = s.peers := rfl
@[simp] theorem State.push_counters (i : Instr) : (s.push i).counters = s.counters := rfl
@[simp] theorem State.push_slots (i : Instr) : (s.push i).slots = s.slots := rfl
@[simp] theorem State.push_sheets (i : Instr) : (s.push i).sheets = s.sheets := rfl
@[simp] theorem State.push_trapCfg (i : Instr) : (s.push i).trapCfg = s.trapCfg := rfl
@[simp] theorem State.push_ctxs (i : Instr) : (s.push i).ctxs = s.ctxs := rfl
@[simp] theorem State.push_dirtyMaps (i : Instr) : (s.push i).dirtyMaps = s.dirtyMaps := rfl
@[simp] theorem State.push_ckpt (i : Instr) : (s.push i).ckpt = s.ckpt := rfl
@[simp] theorem State.push_sbx (i : Instr) : (s.push i).sbx = s.sbx := rfl
@[simp] theorem State.push_groups (i : Instr) : (s.push i).groups = s.groups := rfl
@[simp] theorem State.push_beat (i : Instr) : (s.push i).beat = s.beat := rfl
@[simp] theorem State.push_dead (i : Instr) : (s.push i).dead = s.dead := rfl
@[simp] theorem State.push_stopped (i : Instr) : (s.push i).stopped = s.stopped := rfl
@[simp] theorem State.push_step_ (i : Instr) : (s.push i).step_ = s.step_ := rfl
@[simp] theorem State.push_powered (i : Instr) : (s.push i).powered = s.powered := rfl
@[simp] theorem State.push_replays (i : Instr) : (s.push i).replays = s.replays := rfl
@[simp] theorem State.push_plan (i : Instr) : (s.push i).plan = s.plan := rfl
@[simp] theorem State.push_offs (i : Instr) : (s.push i).offs = s.offs := rfl
@[simp] theorem State.push_relLines (i : Instr) : (s.push i).relLines = s.relLines := rfl
@[simp] theorem State.push_agentSeen (i : Instr) : (s.push i).agentSeen = s.agentSeen := rfl
@[simp] theorem State.push_resv (i : Instr) : (s.push i).resv = s.resv := rfl
@[simp] theorem State.push_evNext (i : Instr) : (s.push i).evNext = s.evNext := rfl

/-! ## State.pushAll -/

@[simp] theorem State.pushAll_clk (is : List Instr) : (s.pushAll is).clk = s.clk := rfl
@[simp] theorem State.pushAll_free (is : List Instr) : (s.pushAll is).free = s.free := rfl
@[simp] theorem State.pushAll_agenda (is : List Instr) : (s.pushAll is).agenda = s.agenda ++ is := rfl
@[simp] theorem State.pushAll_runq (is : List Instr) : (s.pushAll is).runq = s.runq := rfl
@[simp] theorem State.pushAll_late (is : List Instr) : (s.pushAll is).late = s.late := rfl
@[simp] theorem State.pushAll_pushes (is : List Instr) : (s.pushAll is).pushes = s.pushes := rfl
@[simp] theorem State.pushAll_outside (is : List Instr) : (s.pushAll is).outside = s.outside := rfl
@[simp] theorem State.pushAll_inputs (is : List Instr) : (s.pushAll is).inputs = s.inputs := rfl
@[simp] theorem State.pushAll_cur (is : List Instr) : (s.pushAll is).cur = s.cur := rfl
@[simp] theorem State.pushAll_crews (is : List Instr) : (s.pushAll is).crews = s.crews := rfl
@[simp] theorem State.pushAll_parties (is : List Instr) : (s.pushAll is).parties = s.parties := rfl
@[simp] theorem State.pushAll_cores (is : List Instr) : (s.pushAll is).cores = s.cores := rfl
@[simp] theorem State.pushAll_dies (is : List Instr) : (s.pushAll is).dies = s.dies := rfl
@[simp] theorem State.pushAll_past (is : List Instr) : (s.pushAll is).past = s.past := rfl
@[simp] theorem State.pushAll_mem (is : List Instr) : (s.pushAll is).mem = s.mem := rfl
@[simp] theorem State.pushAll_stale (is : List Instr) : (s.pushAll is).stale = s.stale := rfl
@[simp] theorem State.pushAll_poison (is : List Instr) : (s.pushAll is).poison = s.poison := rfl
@[simp] theorem State.pushAll_cxl (is : List Instr) : (s.pushAll is).cxl = s.cxl := rfl
@[simp] theorem State.pushAll_host (is : List Instr) : (s.pushAll is).host = s.host := rfl
@[simp] theorem State.pushAll_lost (is : List Instr) : (s.pushAll is).lost = s.lost := rfl
@[simp] theorem State.pushAll_dir (is : List Instr) : (s.pushAll is).dir = s.dir := rfl
@[simp] theorem State.pushAll_lastNum (is : List Instr) : (s.pushAll is).lastNum = s.lastNum := rfl
@[simp] theorem State.pushAll_recs (is : List Instr) : (s.pushAll is).recs = s.recs := rfl
@[simp] theorem State.pushAll_ivals (is : List Instr) : (s.pushAll is).ivals = s.ivals := rfl
@[simp] theorem State.pushAll_granules (is : List Instr) : (s.pushAll is).granules = s.granules := rfl
@[simp] theorem State.pushAll_heldReqs (is : List Instr) : (s.pushAll is).heldReqs = s.heldReqs := rfl
@[simp] theorem State.pushAll_svcq (is : List Instr) : (s.pushAll is).svcq = s.svcq := rfl
@[simp] theorem State.pushAll_svc (is : List Instr) : (s.pushAll is).svc = s.svc := rfl
@[simp] theorem State.pushAll_svcReqs (is : List Instr) : (s.pushAll is).svcReqs = s.svcReqs := rfl
@[simp] theorem State.pushAll_status (is : List Instr) : (s.pushAll is).status = s.status := rfl
@[simp] theorem State.pushAll_link (is : List Instr) : (s.pushAll is).link = s.link := rfl
@[simp] theorem State.pushAll_mode (is : List Instr) : (s.pushAll is).mode = s.mode := rfl
@[simp] theorem State.pushAll_bias (is : List Instr) : (s.pushAll is).bias = s.bias := rfl
@[simp] theorem State.pushAll_strike (is : List Instr) : (s.pushAll is).strike = s.strike := rfl
@[simp] theorem State.pushAll_ptp (is : List Instr) : (s.pushAll is).ptp = s.ptp := rfl
@[simp] theorem State.pushAll_datum (is : List Instr) : (s.pushAll is).datum = s.datum := rfl
@[simp] theorem State.pushAll_inject (is : List Instr) : (s.pushAll is).inject = s.inject := rfl
@[simp] theorem State.pushAll_test (is : List Instr) : (s.pushAll is).test = s.test := rfl
@[simp] theorem State.pushAll_elog (is : List Instr) : (s.pushAll is).elog = s.elog := rfl
@[simp] theorem State.pushAll_reports (is : List Instr) : (s.pushAll is).reports = s.reports := rfl
@[simp] theorem State.pushAll_sample (is : List Instr) : (s.pushAll is).sample = s.sample := rfl
@[simp] theorem State.pushAll_att (is : List Instr) : (s.pushAll is).att = s.att := rfl
@[simp] theorem State.pushAll_preempt (is : List Instr) : (s.pushAll is).preempt = s.preempt := rfl
@[simp] theorem State.pushAll_saved (is : List Instr) : (s.pushAll is).saved = s.saved := rfl
@[simp] theorem State.pushAll_savedHand (is : List Instr) : (s.pushAll is).savedHand = s.savedHand := rfl
@[simp] theorem State.pushAll_kernels (is : List Instr) : (s.pushAll is).kernels = s.kernels := rfl
@[simp] theorem State.pushAll_memCnt (is : List Instr) : (s.pushAll is).memCnt = s.memCnt := rfl
@[simp] theorem State.pushAll_swCnt (is : List Instr) : (s.pushAll is).swCnt = s.swCnt := rfl
@[simp] theorem State.pushAll_devCfg (is : List Instr) : (s.pushAll is).devCfg = s.devCfg := rfl
@[simp] theorem State.pushAll_queues (is : List Instr) : (s.pushAll is).queues = s.queues := rfl
@[simp] theorem State.pushAll_xqueues (is : List Instr) : (s.pushAll is).xqueues = s.xqueues := rfl
@[simp] theorem State.pushAll_peers (is : List Instr) : (s.pushAll is).peers = s.peers := rfl
@[simp] theorem State.pushAll_counters (is : List Instr) : (s.pushAll is).counters = s.counters := rfl
@[simp] theorem State.pushAll_slots (is : List Instr) : (s.pushAll is).slots = s.slots := rfl
@[simp] theorem State.pushAll_sheets (is : List Instr) : (s.pushAll is).sheets = s.sheets := rfl
@[simp] theorem State.pushAll_trapCfg (is : List Instr) : (s.pushAll is).trapCfg = s.trapCfg := rfl
@[simp] theorem State.pushAll_ctxs (is : List Instr) : (s.pushAll is).ctxs = s.ctxs := rfl
@[simp] theorem State.pushAll_dirtyMaps (is : List Instr) : (s.pushAll is).dirtyMaps = s.dirtyMaps := rfl
@[simp] theorem State.pushAll_ckpt (is : List Instr) : (s.pushAll is).ckpt = s.ckpt := rfl
@[simp] theorem State.pushAll_sbx (is : List Instr) : (s.pushAll is).sbx = s.sbx := rfl
@[simp] theorem State.pushAll_groups (is : List Instr) : (s.pushAll is).groups = s.groups := rfl
@[simp] theorem State.pushAll_beat (is : List Instr) : (s.pushAll is).beat = s.beat := rfl
@[simp] theorem State.pushAll_dead (is : List Instr) : (s.pushAll is).dead = s.dead := rfl
@[simp] theorem State.pushAll_stopped (is : List Instr) : (s.pushAll is).stopped = s.stopped := rfl
@[simp] theorem State.pushAll_step_ (is : List Instr) : (s.pushAll is).step_ = s.step_ := rfl
@[simp] theorem State.pushAll_powered (is : List Instr) : (s.pushAll is).powered = s.powered := rfl
@[simp] theorem State.pushAll_replays (is : List Instr) : (s.pushAll is).replays = s.replays := rfl
@[simp] theorem State.pushAll_plan (is : List Instr) : (s.pushAll is).plan = s.plan := rfl
@[simp] theorem State.pushAll_offs (is : List Instr) : (s.pushAll is).offs = s.offs := rfl
@[simp] theorem State.pushAll_relLines (is : List Instr) : (s.pushAll is).relLines = s.relLines := rfl
@[simp] theorem State.pushAll_agentSeen (is : List Instr) : (s.pushAll is).agentSeen = s.agentSeen := rfl
@[simp] theorem State.pushAll_resv (is : List Instr) : (s.pushAll is).resv = s.resv := rfl
@[simp] theorem State.pushAll_evNext (is : List Instr) : (s.pushAll is).evNext = s.evNext := rfl

/-! ## State.report -/

@[simp] theorem State.report_clk (r : Report) : (s.report r).clk = s.clk := rfl
@[simp] theorem State.report_free (r : Report) : (s.report r).free = s.free := rfl
@[simp] theorem State.report_agenda (r : Report) : (s.report r).agenda = s.agenda := rfl
@[simp] theorem State.report_runq (r : Report) : (s.report r).runq = s.runq := rfl
@[simp] theorem State.report_late (r : Report) : (s.report r).late = s.late := rfl
@[simp] theorem State.report_pushes (r : Report) : (s.report r).pushes = s.pushes := rfl
@[simp] theorem State.report_outside (r : Report) : (s.report r).outside = s.outside := rfl
@[simp] theorem State.report_inputs (r : Report) : (s.report r).inputs = s.inputs := rfl
@[simp] theorem State.report_cur (r : Report) : (s.report r).cur = s.cur := rfl
@[simp] theorem State.report_crews (r : Report) : (s.report r).crews = s.crews := rfl
@[simp] theorem State.report_parties (r : Report) : (s.report r).parties = s.parties := rfl
@[simp] theorem State.report_cores (r : Report) : (s.report r).cores = s.cores := rfl
@[simp] theorem State.report_dies (r : Report) : (s.report r).dies = s.dies := rfl
@[simp] theorem State.report_past (r : Report) : (s.report r).past = s.past := rfl
@[simp] theorem State.report_mem (r : Report) : (s.report r).mem = s.mem := rfl
@[simp] theorem State.report_stale (r : Report) : (s.report r).stale = s.stale := rfl
@[simp] theorem State.report_poison (r : Report) : (s.report r).poison = s.poison := rfl
@[simp] theorem State.report_cxl (r : Report) : (s.report r).cxl = s.cxl := rfl
@[simp] theorem State.report_host (r : Report) : (s.report r).host = s.host := rfl
@[simp] theorem State.report_lost (r : Report) : (s.report r).lost = s.lost := rfl
@[simp] theorem State.report_dir (r : Report) : (s.report r).dir = s.dir := rfl
@[simp] theorem State.report_lastNum (r : Report) : (s.report r).lastNum = s.lastNum := rfl
@[simp] theorem State.report_recs (r : Report) : (s.report r).recs = s.recs := rfl
@[simp] theorem State.report_ivals (r : Report) : (s.report r).ivals = s.ivals := rfl
@[simp] theorem State.report_granules (r : Report) : (s.report r).granules = s.granules := rfl
@[simp] theorem State.report_heldReqs (r : Report) : (s.report r).heldReqs = s.heldReqs := rfl
@[simp] theorem State.report_svcq (r : Report) : (s.report r).svcq = s.svcq := rfl
@[simp] theorem State.report_svc (r : Report) : (s.report r).svc = s.svc := rfl
@[simp] theorem State.report_svcReqs (r : Report) : (s.report r).svcReqs = s.svcReqs := rfl
@[simp] theorem State.report_status (r : Report) : (s.report r).status = s.status := rfl
@[simp] theorem State.report_link (r : Report) : (s.report r).link = s.link := rfl
@[simp] theorem State.report_mode (r : Report) : (s.report r).mode = s.mode := rfl
@[simp] theorem State.report_bias (r : Report) : (s.report r).bias = s.bias := rfl
@[simp] theorem State.report_strike (r : Report) : (s.report r).strike = s.strike := rfl
@[simp] theorem State.report_ptp (r : Report) : (s.report r).ptp = s.ptp := rfl
@[simp] theorem State.report_datum (r : Report) : (s.report r).datum = s.datum := rfl
@[simp] theorem State.report_inject (r : Report) : (s.report r).inject = s.inject := rfl
@[simp] theorem State.report_test (r : Report) : (s.report r).test = s.test := rfl
@[simp] theorem State.report_elog (r : Report) : (s.report r).elog = s.elog := rfl
@[simp] theorem State.report_reports (r : Report) : (s.report r).reports = s.reports ++ [r] := rfl
@[simp] theorem State.report_sample (r : Report) : (s.report r).sample = s.sample := rfl
@[simp] theorem State.report_att (r : Report) : (s.report r).att = s.att := rfl
@[simp] theorem State.report_preempt (r : Report) : (s.report r).preempt = s.preempt := rfl
@[simp] theorem State.report_saved (r : Report) : (s.report r).saved = s.saved := rfl
@[simp] theorem State.report_savedHand (r : Report) : (s.report r).savedHand = s.savedHand := rfl
@[simp] theorem State.report_kernels (r : Report) : (s.report r).kernels = s.kernels := rfl
@[simp] theorem State.report_memCnt (r : Report) : (s.report r).memCnt = s.memCnt := rfl
@[simp] theorem State.report_swCnt (r : Report) : (s.report r).swCnt = s.swCnt := rfl
@[simp] theorem State.report_devCfg (r : Report) : (s.report r).devCfg = s.devCfg := rfl
@[simp] theorem State.report_queues (r : Report) : (s.report r).queues = s.queues := rfl
@[simp] theorem State.report_xqueues (r : Report) : (s.report r).xqueues = s.xqueues := rfl
@[simp] theorem State.report_peers (r : Report) : (s.report r).peers = s.peers := rfl
@[simp] theorem State.report_counters (r : Report) : (s.report r).counters = s.counters := rfl
@[simp] theorem State.report_slots (r : Report) : (s.report r).slots = s.slots := rfl
@[simp] theorem State.report_sheets (r : Report) : (s.report r).sheets = s.sheets := rfl
@[simp] theorem State.report_trapCfg (r : Report) : (s.report r).trapCfg = s.trapCfg := rfl
@[simp] theorem State.report_ctxs (r : Report) : (s.report r).ctxs = s.ctxs := rfl
@[simp] theorem State.report_dirtyMaps (r : Report) : (s.report r).dirtyMaps = s.dirtyMaps := rfl
@[simp] theorem State.report_ckpt (r : Report) : (s.report r).ckpt = s.ckpt := rfl
@[simp] theorem State.report_sbx (r : Report) : (s.report r).sbx = s.sbx := rfl
@[simp] theorem State.report_groups (r : Report) : (s.report r).groups = s.groups := rfl
@[simp] theorem State.report_beat (r : Report) : (s.report r).beat = s.beat := rfl
@[simp] theorem State.report_dead (r : Report) : (s.report r).dead = s.dead := rfl
@[simp] theorem State.report_stopped (r : Report) : (s.report r).stopped = s.stopped := rfl
@[simp] theorem State.report_step_ (r : Report) : (s.report r).step_ = s.step_ := rfl
@[simp] theorem State.report_powered (r : Report) : (s.report r).powered = s.powered := rfl
@[simp] theorem State.report_replays (r : Report) : (s.report r).replays = s.replays := rfl
@[simp] theorem State.report_plan (r : Report) : (s.report r).plan = s.plan := rfl
@[simp] theorem State.report_offs (r : Report) : (s.report r).offs = s.offs := rfl
@[simp] theorem State.report_relLines (r : Report) : (s.report r).relLines = s.relLines := rfl
@[simp] theorem State.report_agentSeen (r : Report) : (s.report r).agentSeen = s.agentSeen := rfl
@[simp] theorem State.report_resv (r : Report) : (s.report r).resv = s.resv := rfl
@[simp] theorem State.report_evNext (r : Report) : (s.report r).evNext = s.evNext := rfl

/-! ## State.fresh -/

@[simp] theorem State.fresh_clk : (s.fresh).clk = s.clk := rfl
@[simp] theorem State.fresh_free : (s.fresh).free = s.free + 1 := rfl
@[simp] theorem State.fresh_agenda : (s.fresh).agenda = s.agenda := rfl
@[simp] theorem State.fresh_runq : (s.fresh).runq = s.runq := rfl
@[simp] theorem State.fresh_late : (s.fresh).late = s.late := rfl
@[simp] theorem State.fresh_pushes : (s.fresh).pushes = s.pushes := rfl
@[simp] theorem State.fresh_outside : (s.fresh).outside = s.outside := rfl
@[simp] theorem State.fresh_inputs : (s.fresh).inputs = s.inputs := rfl
@[simp] theorem State.fresh_cur : (s.fresh).cur = s.cur := rfl
@[simp] theorem State.fresh_crews : (s.fresh).crews = s.crews := rfl
@[simp] theorem State.fresh_parties : (s.fresh).parties = s.parties := rfl
@[simp] theorem State.fresh_cores : (s.fresh).cores = s.cores := rfl
@[simp] theorem State.fresh_dies : (s.fresh).dies = s.dies := rfl
@[simp] theorem State.fresh_past : (s.fresh).past = s.past := rfl
@[simp] theorem State.fresh_mem : (s.fresh).mem = s.mem := rfl
@[simp] theorem State.fresh_stale : (s.fresh).stale = s.stale := rfl
@[simp] theorem State.fresh_poison : (s.fresh).poison = s.poison := rfl
@[simp] theorem State.fresh_cxl : (s.fresh).cxl = s.cxl := rfl
@[simp] theorem State.fresh_host : (s.fresh).host = s.host := rfl
@[simp] theorem State.fresh_lost : (s.fresh).lost = s.lost := rfl
@[simp] theorem State.fresh_dir : (s.fresh).dir = s.dir := rfl
@[simp] theorem State.fresh_lastNum : (s.fresh).lastNum = s.lastNum := rfl
@[simp] theorem State.fresh_recs : (s.fresh).recs = s.recs := rfl
@[simp] theorem State.fresh_ivals : (s.fresh).ivals = s.ivals := rfl
@[simp] theorem State.fresh_granules : (s.fresh).granules = s.granules := rfl
@[simp] theorem State.fresh_heldReqs : (s.fresh).heldReqs = s.heldReqs := rfl
@[simp] theorem State.fresh_svcq : (s.fresh).svcq = s.svcq := rfl
@[simp] theorem State.fresh_svc : (s.fresh).svc = s.svc := rfl
@[simp] theorem State.fresh_svcReqs : (s.fresh).svcReqs = s.svcReqs := rfl
@[simp] theorem State.fresh_status : (s.fresh).status = s.status := rfl
@[simp] theorem State.fresh_link : (s.fresh).link = s.link := rfl
@[simp] theorem State.fresh_mode : (s.fresh).mode = s.mode := rfl
@[simp] theorem State.fresh_bias : (s.fresh).bias = s.bias := rfl
@[simp] theorem State.fresh_strike : (s.fresh).strike = s.strike := rfl
@[simp] theorem State.fresh_ptp : (s.fresh).ptp = s.ptp := rfl
@[simp] theorem State.fresh_datum : (s.fresh).datum = s.datum := rfl
@[simp] theorem State.fresh_inject : (s.fresh).inject = s.inject := rfl
@[simp] theorem State.fresh_test : (s.fresh).test = s.test := rfl
@[simp] theorem State.fresh_elog : (s.fresh).elog = s.elog := rfl
@[simp] theorem State.fresh_reports : (s.fresh).reports = s.reports := rfl
@[simp] theorem State.fresh_sample : (s.fresh).sample = s.sample := rfl
@[simp] theorem State.fresh_att : (s.fresh).att = s.att := rfl
@[simp] theorem State.fresh_preempt : (s.fresh).preempt = s.preempt := rfl
@[simp] theorem State.fresh_saved : (s.fresh).saved = s.saved := rfl
@[simp] theorem State.fresh_savedHand : (s.fresh).savedHand = s.savedHand := rfl
@[simp] theorem State.fresh_kernels : (s.fresh).kernels = s.kernels := rfl
@[simp] theorem State.fresh_memCnt : (s.fresh).memCnt = s.memCnt := rfl
@[simp] theorem State.fresh_swCnt : (s.fresh).swCnt = s.swCnt := rfl
@[simp] theorem State.fresh_devCfg : (s.fresh).devCfg = s.devCfg := rfl
@[simp] theorem State.fresh_queues : (s.fresh).queues = s.queues := rfl
@[simp] theorem State.fresh_xqueues : (s.fresh).xqueues = s.xqueues := rfl
@[simp] theorem State.fresh_peers : (s.fresh).peers = s.peers := rfl
@[simp] theorem State.fresh_counters : (s.fresh).counters = s.counters := rfl
@[simp] theorem State.fresh_slots : (s.fresh).slots = s.slots := rfl
@[simp] theorem State.fresh_sheets : (s.fresh).sheets = s.sheets := rfl
@[simp] theorem State.fresh_trapCfg : (s.fresh).trapCfg = s.trapCfg := rfl
@[simp] theorem State.fresh_ctxs : (s.fresh).ctxs = s.ctxs := rfl
@[simp] theorem State.fresh_dirtyMaps : (s.fresh).dirtyMaps = s.dirtyMaps := rfl
@[simp] theorem State.fresh_ckpt : (s.fresh).ckpt = s.ckpt := rfl
@[simp] theorem State.fresh_sbx : (s.fresh).sbx = s.sbx := rfl
@[simp] theorem State.fresh_groups : (s.fresh).groups = s.groups := rfl
@[simp] theorem State.fresh_beat : (s.fresh).beat = s.beat := rfl
@[simp] theorem State.fresh_dead : (s.fresh).dead = s.dead := rfl
@[simp] theorem State.fresh_stopped : (s.fresh).stopped = s.stopped := rfl
@[simp] theorem State.fresh_step_ : (s.fresh).step_ = s.step_ := rfl
@[simp] theorem State.fresh_powered : (s.fresh).powered = s.powered := rfl
@[simp] theorem State.fresh_replays : (s.fresh).replays = s.replays := rfl
@[simp] theorem State.fresh_plan : (s.fresh).plan = s.plan := rfl
@[simp] theorem State.fresh_offs : (s.fresh).offs = s.offs := rfl
@[simp] theorem State.fresh_relLines : (s.fresh).relLines = s.relLines := rfl
@[simp] theorem State.fresh_agentSeen : (s.fresh).agentSeen = s.agentSeen := rfl
@[simp] theorem State.fresh_resv : (s.fresh).resv = s.resv := rfl
@[simp] theorem State.fresh_evNext : (s.fresh).evNext = s.evNext := rfl

/-! ## Maps -/

namespace MapLaws
variable {α : Type}

theorem find_put_self (m : Map α) (k : Nat) (v : α) : Map.find? (Map.put m k v) k = some v := by
  induction m with
  | nil => simp [Map.put, Map.find?]
  | cons p m ih =>
    obtain ⟨k', v'⟩ := p
    simp only [Map.put]
    split
    · simp [Map.find?]
    · split
      · simp [Map.find?]
      · simp [Map.find?, *]

theorem find_put_ne (m : Map α) {k j : Nat} (v : α) (h : j ≠ k) : Map.find? (Map.put m k v) j = Map.find? m j := by
  induction m with
  | nil => simp [Map.put, Map.find?, Ne.symm h]
  | cons p m ih =>
    obtain ⟨k', v'⟩ := p
    simp only [Map.put]
    split
    · rename_i e; subst e; simp [Map.find?, Ne.symm h]
    · split
      · simp [Map.find?, Ne.symm h]
      · simp only [Map.find?, ih]

theorem get_put_self (d : α) (m : Map α) (k : Nat) (v : α) : Map.get d (Map.put m k v) k = v := by
  simp [Map.get, find_put_self]

theorem get_put_ne (d : α) (m : Map α) {k j : Nat} (v : α) (h : j ≠ k) : Map.get d (Map.put m k v) j = Map.get d m j := by
  simp [Map.get, find_put_ne m v h]

theorem put_put (m : Map α) (k : Nat) (v w : α) : Map.put (Map.put m k v) k w = Map.put m k w := by
  induction m with
  | nil => simp [Map.put]
  | cons p m ih =>
    obtain ⟨k', v'⟩ := p
    simp only [Map.put]
    split
    · simp [Map.put]
    · rename_i h
      split
      · simp [Map.put]
      · rename_i h'; simp [Map.put, h, h', ih]

theorem find_erase_ne (m : Map α) {k j : Nat} (h : j ≠ k) : Map.find? (Map.erase m k) j = Map.find? m j := by
  induction m with
  | nil => rfl
  | cons p m ih =>
    obtain ⟨k', v'⟩ := p
    simp only [Map.erase]
    split
    · rename_i e; subst e; simp [Map.find?, Ne.symm h, ih]
    · simp only [Map.find?, ih]

theorem find_erase_self (m : Map α) (k : Nat) : Map.find? (Map.erase m k) k = none := by
  induction m with
  | nil => rfl
  | cons p m ih =>
    obtain ⟨k', v'⟩ := p
    simp only [Map.erase]
    split
    · exact ih
    · rename_i e; simp only [Map.find?, if_neg e, ih]

theorem get_set_self [DecidableEq α] (d : α) (m : Map α) (k : Nat) (v : α) : Map.get d (Map.set d m k v) k = v := by
  simp only [Map.get, Map.set]
  split
  · rename_i e; simp [find_erase_self, e]
  · simp [find_put_self]

theorem get_set_ne [DecidableEq α] (d : α) (m : Map α) {k j : Nat} (v : α) (h : j ≠ k) :
    Map.get d (Map.set d m k v) j = Map.get d m j := by
  simp only [Map.get, Map.set]
  split
  · simp [find_erase_ne m h]
  · simp [find_put_ne m v h]

end MapLaws

/-! ## Readers -/

@[simp] theorem State.putCrew_crew_self (k : Nat) (c : Crew) : (s.putCrew k c).crew k = c := MapLaws.get_put_self _ _ _ _
theorem State.putCrew_crew_ne {k j : Nat} (c : Crew) (h : j ≠ k) : (s.putCrew k c).crew j = s.crew j :=
  MapLaws.get_put_ne _ _ _ h
@[simp] theorem State.putCrew_putCrew (k : Nat) (c d : Crew) : (s.putCrew k c).putCrew k d = s.putCrew k d := by
  simp [State.putCrew, MapLaws.put_put]
@[simp] theorem State.putCrew_hasCrew_self (k : Nat) (c : Crew) : (s.putCrew k c).hasCrew k = true := by
  simp [State.hasCrew, MapLaws.find_put_self]
@[simp] theorem State.onCore_core_self (n : Nat) (f : Core → Core) : (s.onCore n f).core n = f (s.core n) :=
  MapLaws.get_put_self _ _ _ _
theorem State.onCore_core_ne {n m : Nat} (f : Core → Core) (h : m ≠ n) : (s.onCore n f).core m = s.core m :=
  MapLaws.get_put_ne _ _ _ h
@[simp] theorem State.onDie_die_self (n : Nat) (f : Die → Die) : (s.onDie n f).die n = f (s.die n) := MapLaws.get_put_self _ _ _ _
@[simp] theorem State.onParty_party_self (n : Nat) (f : Party → Party) : (s.onParty n f).party n = f (s.party n) :=
  MapLaws.get_put_self _ _ _ _
@[simp] theorem State.onCounter_counter_self (n : Nat) (f : Counter → Counter) :
    (s.onCounter n f).counter n = f (s.counter n) := MapLaws.get_put_self _ _ _ _

@[simp] theorem State.putCrew_core (k : Nat) (k0 : Nat) (c : Crew) : (s.putCrew k0 c).core k = s.core k := rfl
@[simp] theorem State.putCrew_die (k : Nat) (k0 : Nat) (c : Crew) : (s.putCrew k0 c).die k = s.die k := rfl
@[simp] theorem State.putCrew_party (k : Nat) (k0 : Nat) (c : Crew) : (s.putCrew k0 c).party k = s.party k := rfl
@[simp] theorem State.putCrew_counter (k : Nat) (k0 : Nat) (c : Crew) : (s.putCrew k0 c).counter k = s.counter k := rfl
@[simp] theorem State.putCrew_ctx (k : Nat) (k0 : Nat) (c : Crew) : (s.putCrew k0 c).ctx k = s.ctx k := rfl
@[simp] theorem State.onCore_crew (k : Nat) (n : Nat) (f : Core → Core) : (s.onCore n f).crew k = s.crew k := rfl
@[simp] theorem State.onCore_die (k : Nat) (n : Nat) (f : Core → Core) : (s.onCore n f).die k = s.die k := rfl
@[simp] theorem State.onCore_party (k : Nat) (n : Nat) (f : Core → Core) : (s.onCore n f).party k = s.party k := rfl
@[simp] theorem State.onCore_counter (k : Nat) (n : Nat) (f : Core → Core) : (s.onCore n f).counter k = s.counter k := rfl
@[simp] theorem State.onCore_ctx (k : Nat) (n : Nat) (f : Core → Core) : (s.onCore n f).ctx k = s.ctx k := rfl
@[simp] theorem State.onCore_me (n : Nat) (f : Core → Core) : (s.onCore n f).me = s.me := rfl
@[simp] theorem State.onCore_myCore (n : Nat) (f : Core → Core) : (s.onCore n f).myCore = s.myCore := rfl
@[simp] theorem State.onDie_crew (k : Nat) (d : Nat) (f : Die → Die) : (s.onDie d f).crew k = s.crew k := rfl
@[simp] theorem State.onDie_core (k : Nat) (d : Nat) (f : Die → Die) : (s.onDie d f).core k = s.core k := rfl
@[simp] theorem State.onDie_party (k : Nat) (d : Nat) (f : Die → Die) : (s.onDie d f).party k = s.party k := rfl
@[simp] theorem State.onDie_counter (k : Nat) (d : Nat) (f : Die → Die) : (s.onDie d f).counter k = s.counter k := rfl
@[simp] theorem State.onDie_ctx (k : Nat) (d : Nat) (f : Die → Die) : (s.onDie d f).ctx k = s.ctx k := rfl
@[simp] theorem State.onDie_me (d : Nat) (f : Die → Die) : (s.onDie d f).me = s.me := rfl
@[simp] theorem State.onDie_myCore (d : Nat) (f : Die → Die) : (s.onDie d f).myCore = s.myCore := rfl
@[simp] theorem State.onParty_crew (k : Nat) (p : Nat) (f : Party → Party) : (s.onParty p f).crew k = s.crew k := rfl
@[simp] theorem State.onParty_core (k : Nat) (p : Nat) (f : Party → Party) : (s.onParty p f).core k = s.core k := rfl
@[simp] theorem State.onParty_die (k : Nat) (p : Nat) (f : Party → Party) : (s.onParty p f).die k = s.die k := rfl
@[simp] theorem State.onParty_counter (k : Nat) (p : Nat) (f : Party → Party) : (s.onParty p f).counter k = s.counter k := rfl
@[simp] theorem State.onParty_ctx (k : Nat) (p : Nat) (f : Party → Party) : (s.onParty p f).ctx k = s.ctx k := rfl
@[simp] theorem State.onParty_me (p : Nat) (f : Party → Party) : (s.onParty p f).me = s.me := rfl
@[simp] theorem State.onParty_myCore (p : Nat) (f : Party → Party) : (s.onParty p f).myCore = s.myCore := rfl
@[simp] theorem State.onCounter_crew (k : Nat) (n : Nat) (f : Counter → Counter) : (s.onCounter n f).crew k = s.crew k := rfl
@[simp] theorem State.onCounter_core (k : Nat) (n : Nat) (f : Counter → Counter) : (s.onCounter n f).core k = s.core k := rfl
@[simp] theorem State.onCounter_die (k : Nat) (n : Nat) (f : Counter → Counter) : (s.onCounter n f).die k = s.die k := rfl
@[simp] theorem State.onCounter_party (k : Nat) (n : Nat) (f : Counter → Counter) : (s.onCounter n f).party k = s.party k := rfl
@[simp] theorem State.onCounter_ctx (k : Nat) (n : Nat) (f : Counter → Counter) : (s.onCounter n f).ctx k = s.ctx k := rfl
@[simp] theorem State.onCounter_me (n : Nat) (f : Counter → Counter) : (s.onCounter n f).me = s.me := rfl
@[simp] theorem State.onCounter_myCore (n : Nat) (f : Counter → Counter) : (s.onCounter n f).myCore = s.myCore := rfl
@[simp] theorem State.onMem_crew (k : Nat) (m : Nat) (f : MemCnt → MemCnt) : (s.onMem m f).crew k = s.crew k := rfl
@[simp] theorem State.onMem_core (k : Nat) (m : Nat) (f : MemCnt → MemCnt) : (s.onMem m f).core k = s.core k := rfl
@[simp] theorem State.onMem_die (k : Nat) (m : Nat) (f : MemCnt → MemCnt) : (s.onMem m f).die k = s.die k := rfl
@[simp] theorem State.onMem_party (k : Nat) (m : Nat) (f : MemCnt → MemCnt) : (s.onMem m f).party k = s.party k := rfl
@[simp] theorem State.onMem_counter (k : Nat) (m : Nat) (f : MemCnt → MemCnt) : (s.onMem m f).counter k = s.counter k := rfl
@[simp] theorem State.onMem_ctx (k : Nat) (m : Nat) (f : MemCnt → MemCnt) : (s.onMem m f).ctx k = s.ctx k := rfl
@[simp] theorem State.onMem_me (m : Nat) (f : MemCnt → MemCnt) : (s.onMem m f).me = s.me := rfl
@[simp] theorem State.onMem_myCore (m : Nat) (f : MemCnt → MemCnt) : (s.onMem m f).myCore = s.myCore := rfl
@[simp] theorem State.push_crew (k : Nat) (i : Instr) : (s.push i).crew k = s.crew k := rfl
@[simp] theorem State.push_core (k : Nat) (i : Instr) : (s.push i).core k = s.core k := rfl
@[simp] theorem State.push_die (k : Nat) (i : Instr) : (s.push i).die k = s.die k := rfl
@[simp] theorem State.push_party (k : Nat) (i : Instr) : (s.push i).party k = s.party k := rfl
@[simp] theorem State.push_counter (k : Nat) (i : Instr) : (s.push i).counter k = s.counter k := rfl
@[simp] theorem State.push_ctx (k : Nat) (i : Instr) : (s.push i).ctx k = s.ctx k := rfl
@[simp] theorem State.push_me (i : Instr) : (s.push i).me = s.me := rfl
@[simp] theorem State.push_myCore (i : Instr) : (s.push i).myCore = s.myCore := rfl
@[simp] theorem State.pushAll_crew (k : Nat) (is : List Instr) : (s.pushAll is).crew k = s.crew k := rfl
@[simp] theorem State.pushAll_core (k : Nat) (is : List Instr) : (s.pushAll is).core k = s.core k := rfl
@[simp] theorem State.pushAll_die (k : Nat) (is : List Instr) : (s.pushAll is).die k = s.die k := rfl
@[simp] theorem State.pushAll_party (k : Nat) (is : List Instr) : (s.pushAll is).party k = s.party k := rfl
@[simp] theorem State.pushAll_counter (k : Nat) (is : List Instr) : (s.pushAll is).counter k = s.counter k := rfl
@[simp] theorem State.pushAll_ctx (k : Nat) (is : List Instr) : (s.pushAll is).ctx k = s.ctx k := rfl
@[simp] theorem State.pushAll_me (is : List Instr) : (s.pushAll is).me = s.me := rfl
@[simp] theorem State.pushAll_myCore (is : List Instr) : (s.pushAll is).myCore = s.myCore := rfl
@[simp] theorem State.report_crew (k : Nat) (r : Report) : (s.report r).crew k = s.crew k := rfl
@[simp] theorem State.report_core (k : Nat) (r : Report) : (s.report r).core k = s.core k := rfl
@[simp] theorem State.report_die (k : Nat) (r : Report) : (s.report r).die k = s.die k := rfl
@[simp] theorem State.report_party (k : Nat) (r : Report) : (s.report r).party k = s.party k := rfl
@[simp] theorem State.report_counter (k : Nat) (r : Report) : (s.report r).counter k = s.counter k := rfl
@[simp] theorem State.report_ctx (k : Nat) (r : Report) : (s.report r).ctx k = s.ctx k := rfl
@[simp] theorem State.report_me (r : Report) : (s.report r).me = s.me := rfl
@[simp] theorem State.report_myCore (r : Report) : (s.report r).myCore = s.myCore := rfl
@[simp] theorem State.fresh_crew (k : Nat) : (s.fresh).crew k = s.crew k := rfl
@[simp] theorem State.fresh_core (k : Nat) : (s.fresh).core k = s.core k := rfl
@[simp] theorem State.fresh_die (k : Nat) : (s.fresh).die k = s.die k := rfl
@[simp] theorem State.fresh_party (k : Nat) : (s.fresh).party k = s.party k := rfl
@[simp] theorem State.fresh_counter (k : Nat) : (s.fresh).counter k = s.counter k := rfl
@[simp] theorem State.fresh_ctx (k : Nat) : (s.fresh).ctx k = s.ctx k := rfl
@[simp] theorem State.fresh_me : (s.fresh).me = s.me := rfl
@[simp] theorem State.fresh_myCore : (s.fresh).myCore = s.myCore := rfl
@[simp] theorem State.putCrew_myCore (k : Nat) (c : Crew) : (s.putCrew k c).myCore = s.myCore := rfl

/-! ## The updates of the crew that executes -/

theorem State.onCrew_eq (k : Nat) (f : Crew → Crew) : s.onCrew k f = s.putCrew k (f (s.crew k)) := rfl
theorem State.putMe_eq (c : Crew) : s.putMe c = s.putCrew s.cur c := rfl
theorem State.onMe_eq (f : Crew → Crew) : s.onMe f = s.putCrew s.cur (f s.me) := rfl
theorem State.me_eq : s.me = s.crew s.cur := rfl
@[simp] theorem State.putMe_me (c : Crew) : (s.putMe c).me = c := State.putCrew_crew_self s s.cur c
@[simp] theorem State.onMe_me (f : Crew → Crew) : (s.onMe f).me = f s.me := State.putCrew_crew_self s s.cur _
@[simp] theorem State.onMe_onMe (f g : Crew → Crew) : (s.onMe f).onMe g = s.onMe fun c => g (f c) := by
  simp [State.onMe_eq, State.me_eq]

/-! ## What waits until later in the clk -/

/-- An event at the end of the clk is noted once, and nothing else changes. -/
theorem State.pushLate_only (i : Instr) : { s.pushLate i with late := s.late } = s ∧ i ∈ (s.pushLate i).late := by
  unfold State.pushLate
  split
  · exact ⟨rfl, by simp_all⟩
  · exact ⟨rfl, by simp⟩

/-- With no push waiting at a queue there is nothing to apply. -/
theorem State.pushesUpTo_nil (h : s.pushes = []) (u : Option Nat) : s.pushesUpTo u = s := by simp [State.pushesUpTo, h]

end Sys2Proof.Machine
end

