-- ==== Sys2Proof/Laws/Memory.lean ====
section
/-! SUPPORT. Memory (Mem.lean): a read after a write, and every operation on memory keeps the canonical form. -/

namespace Sys2Proof.Machine

/-! ## The canonical form -/

/-- Every address of a memory lies above a bound. -/
def Memory.above (b : Nat) (m : List Host.Cell) : Prop := ∀ c ∈ m, b < c.1

theorem Memory.wf_nil : Memory.wf [] = true := rfl

theorem Memory.wf_cons (a : Nat) (b : Byte) (m : List Host.Cell) :
    Memory.wf ((a, b) :: m) = true ↔ b ≠ 0 ∧ Memory.above a m ∧ Memory.wf m = true := by
  induction m generalizing a b with
  | nil => simp [Memory.wf, Memory.above]
  | cons c m ih =>
    obtain ⟨a', b'⟩ := c
    have h := ih a' b'
    simp only [Memory.wf, Bool.and_eq_true, bne_iff_ne, decide_eq_true_eq, Memory.above, List.mem_cons,
      forall_eq_or_imp] at h ⊢
    constructor
    · rintro ⟨⟨h1, h2⟩, h3⟩
      exact ⟨h1, ⟨h2, fun c hc => Nat.lt_trans h2 ((h.1 h3).2.1 c hc)⟩, h3⟩
    · rintro ⟨h1, ⟨h2, -⟩, h3⟩
      exact ⟨⟨h1, h2⟩, h3⟩

theorem Memory.above_mono {a b : Nat} {m : List Host.Cell} (h : Memory.above b m) (hab : a ≤ b) : Memory.above a m :=
  fun c hc => Nat.lt_of_le_of_lt hab (h c hc)

theorem Memory.find_above {b : Nat} {m : List Host.Cell} (h : Memory.above b m) {a : Nat} (ha : a ≤ b) :
    Map.find? m a = none := by
  induction m with
  | nil => rfl
  | cons c m ih =>
    obtain ⟨a', b'⟩ := c
    have h1 : b < a' := h (a', b') (by simp)
    simp only [Map.find?]
    rw [if_neg (by omega)]
    exact ih fun c hc => h c (by simp [hc])

/-! ## Reads after writes -/

/-- A byte read after it is written. -/
theorem memGet_memSet_self (m : List Host.Cell) (a : Nat) (b : Byte) : memGet (memSet m a b) a = b := MapLaws.get_set_self 0 m a b

/-- A byte read after another is written. -/
theorem memGet_memSet_ne (m : List Host.Cell) {a a' : Nat} (b : Byte) (h : a' ≠ a) : memGet (memSet m a b) a' = memGet m a' :=
  MapLaws.get_set_ne 0 m b h

/-- Bytes outside the cells written stay as they are. -/
theorem memGet_memPut_other (m cs : List Host.Cell) {a : Nat} (h : ∀ c ∈ cs, a ≠ c.1) : memGet (memPut m cs) a = memGet m a := by
  induction cs generalizing m with
  | nil => rfl
  | cons c cs ih =>
    simp only [memPut, List.foldl_cons]
    rw [← memPut, ih _ fun x hx => h x (by simp [hx])]
    exact memGet_memSet_ne m c.2 (h c (by simp))

/-! ## Every operation keeps the form -/

theorem above_erase {b a : Nat} {m : List Host.Cell} (h : Memory.above b m) : Memory.above b (Map.erase m a) := by
  induction m with
  | nil => exact h
  | cons c m ih =>
    obtain ⟨a', b'⟩ := c
    have ht : Memory.above b m := fun x hx => h x (by simp [hx])
    simp only [Map.erase]
    split
    · exact ih ht
    · intro x hx
      rcases List.mem_cons.1 hx with rfl | hx
      · exact h _ (by simp)
      · exact ih ht x hx

theorem above_put {b a : Nat} {v : Byte} {m : List Host.Cell} (h : Memory.above b m) (ha : b < a) :
    Memory.above b (Map.put m a v) := by
  induction m with
  | nil => intro x hx; simp [Map.put] at hx; subst hx; exact ha
  | cons c m ih =>
    obtain ⟨a', b'⟩ := c
    have ht : Memory.above b m := fun x hx => h x (by simp [hx])
    simp only [Map.put]
    split
    · intro x hx
      rcases List.mem_cons.1 hx with rfl | hx
      · exact ha
      · exact ht x hx
    · split
      · intro x hx
        rcases List.mem_cons.1 hx with rfl | hx
        · exact ha
        · exact h x hx
      · intro x hx
        rcases List.mem_cons.1 hx with rfl | hx
        · exact h _ (by simp)
        · exact ih ht x hx

theorem wf_erase {m : List Host.Cell} (h : Memory.wf m = true) (a : Nat) : Memory.wf (Map.erase m a) = true := by
  induction m with
  | nil => rfl
  | cons c m ih =>
    obtain ⟨a', b'⟩ := c
    obtain ⟨h1, h2, h3⟩ := (Memory.wf_cons a' b' m).1 h
    simp only [Map.erase]
    split
    · exact ih h3
    · exact (Memory.wf_cons _ _ _).2 ⟨h1, above_erase h2, ih h3⟩

theorem wf_put {m : List Host.Cell} (h : Memory.wf m = true) (a : Nat) {v : Byte} (hv : v ≠ 0) :
    Memory.wf (Map.put m a v) = true := by
  induction m with
  | nil => simpa [Map.put, Memory.wf] using hv
  | cons c m ih =>
    obtain ⟨a', b'⟩ := c
    obtain ⟨h1, h2, h3⟩ := (Memory.wf_cons a' b' m).1 h
    simp only [Map.put]
    split
    · rename_i e; subst e; exact (Memory.wf_cons _ _ _).2 ⟨hv, h2, h3⟩
    · split
      · rename_i e
        refine (Memory.wf_cons _ _ _).2 ⟨hv, ?_, h⟩
        intro x hx
        rcases List.mem_cons.1 hx with rfl | hx
        · exact e
        · exact Nat.lt_trans e (h2 x hx)
      · refine (Memory.wf_cons _ _ _).2 ⟨h1, above_put h2 (by omega), ih h3⟩

/-- A write of one byte keeps the form. -/
theorem memSet_wf {m : List Host.Cell} (h : Memory.wf m = true) (a : Nat) (b : Byte) : Memory.wf (memSet m a b) = true := by
  simp only [memSet, Map.set]
  split
  · exact wf_erase h a
  · rename_i e; exact wf_put h a e

/-- A write of cells keeps the form. -/
theorem memPut_wf {m : List Host.Cell} (h : Memory.wf m = true) (cs : List Host.Cell) : Memory.wf (memPut m cs) = true := by
  induction cs generalizing m with
  | nil => exact h
  | cons c cs ih => exact ih (memSet_wf h c.1 c.2)

/-- Taking cells out keeps the form. -/
theorem filter_wf {m : List Host.Cell} (h : Memory.wf m = true) (p : Host.Cell → Bool) : Memory.wf (m.filter p) = true := by
  induction m with
  | nil => rfl
  | cons c m ih =>
    obtain ⟨a', b'⟩ := c
    obtain ⟨h1, h2, h3⟩ := (Memory.wf_cons a' b' m).1 h
    by_cases hp : p (a', b') = true
    · rw [List.filter_cons_of_pos hp]
      exact (Memory.wf_cons _ _ _).2 ⟨h1, fun c hc => h2 c (List.mem_filter.1 hc).1, ih h3⟩
    · rw [List.filter_cons_of_neg hp]
      exact ih h3

/-- Writes performed at their point of coherence keep the form. -/
theorem State.perform_wf {s : State} (h : Memory.wf s.mem = true) (cs : List Host.Cell) : Memory.wf (s.perform cs).mem = true :=
  memPut_wf h cs

/-- A write performed leaves the bytes outside its cells. -/
theorem State.perform_other (s : State) (cs : List Host.Cell) {a : Nat} (h : ∀ c ∈ cs, a ≠ c.1) :
    memGet (s.perform cs).mem a = memGet s.mem a := memGet_memPut_other s.mem cs h

end Sys2Proof.Machine
end

