-- ==== Sys2Proof/Laws/Ops.lean ====
section
/-! SUPPORT. What each shared operation can do, said once: the outcomes of a completion, a trap, a wait, a release, a transfer of
control, a checked access, a load, a store, an atomic, a cache operation and a write of lanes. A proof about an instruction cites
these and does not unfold the operation. -/

namespace Sys2Proof.Machine

/-! ## Updates of the crew that executes -/

theorem putMe_only (s : State) (c : Crew) : OnlyMe s (s.putMe c) := by
  refine ⟨fun a => rfl, fun k hk => ?_, ?_⟩
  · simp [State.putMe, State.putCrew, MapLaws.find_put_ne _ _ hk]
  · simp [State.putMe, State.putCrew]

theorem OnlyMe.trans {s t u : State} (hc : t.cur = s.cur) (h : OnlyMe s t) (g : OnlyMe t u) : OnlyMe s u := by
  refine ⟨fun a => (g.mem a).trans (h.mem a), fun k hk => (g.others k (by rw [hc]; exact hk)).trans (h.others k hk), ?_⟩
  have e : { u with crews := s.crews } = { { u with crews := t.crews } with crews := s.crews } := rfl
  rw [e, g.rest, h.rest]

/-- A completion: the crew's update, and the next word; nothing else. -/
theorem done_next (s : State) (f : Crew → Crew) : ∃ t, s.done f = .next t ∧ OnlyMe s t ∧ t.me = (f s.me).next ∧ t.cur = s.cur :=
  ⟨_, rfl, putMe_only s _, by simp, rfl⟩

/-- A wait: the crew stands at its word with the reason and the clk; nothing else changes. -/
theorem waitMe_only (s : State) (w : Wait) :
    OnlyMe s (s.waitMe w) ∧ (s.waitMe w).me = { s.me with phase := .waiting w, blockedSince := s.clk, released := false } :=
  ⟨putMe_only s _, by simp [State.waitMe]⟩

/-- A trap of a crew of a launch, of a cause that no counter of the core counts: the record, and nothing else. -/
theorem trap_takes (s : State) (hk : s.me.kind = .normal) (cause : Nat) (hc : cause ≠ 6) (hd : cause ≠ 0x12) (d0 d1 : W64) (ls : W32) :
    TakesTrap s (s.trap cause d0 d1 ls) cause d0 d1 ls := by
  have h : s.trap cause d0 d1 ls = s.putMe (s.me.trapped (trapRec s.me cause d0 d1 ls false) s.clk) := by
    simp [State.trap, State.trapCrew, State.trapCounts, trapRec, hc, hd, State.me] at *
    simp [hk]
    rfl
  rw [h]
  exact ⟨putMe_only _ _, by simp [Crew.trapped, trapRec]⟩

/-! ## Releases, convergence, registers -/

/-- What an instruction with a release does first: it goes on at once where there is nothing to release, it goes on when its
release has completed, and otherwise it waits for that. -/
theorem withRelease_cases (s : State) (sc : Option Scope) (k : State → Out) :
    ((sc = none ∨ sc = some .crew) ∧ s.withRelease sc k = k s) ∨
    (∃ c, sc = some c ∧ c ≠ .crew ∧ s.me.released = true ∧ s.withRelease sc k = k (s.onMe fun x => { x with released := false })) ∨
    (∃ c, sc = some c ∧ c ≠ .crew ∧ s.me.released = false ∧ s.withRelease sc k = .next (s.waitMe (.release c))) := by
  cases sc with
  | none => exact .inl ⟨.inl rfl, rfl⟩
  | some c =>
    by_cases hc : c = .crew
    · subst hc; exact .inl ⟨.inr rfl, rfl⟩
    · cases hr : s.me.released <;> cases c <;> simp_all [State.withRelease]

/-- What an instruction on a shared object does first. -/
theorem shared_cases (s : State) (sc : Scope) (k : State → Out) :
    (s.me.released = true ∧ s.shared sc k = k ((s.onMe fun c => { c with released := false }).commitMe)) ∨
    (s.me.released = false ∧ s.shared sc k = .next (s.waitMe (.release sc))) := by
  cases h : s.me.released <;> simp [State.shared, h]

theorem conv_cases (s : State) (k : State → Out) :
    (s.me.convergent = true ∧ s.conv k = k s) ∨ (s.me.convergent = false ∧ s.conv k = .next (s.trap 0x0A)) := by
  cases h : s.me.convergent <;> simp [State.conv, h]

/-- A write of the control region takes effect only past READY. -/
theorem reg_cases (s : State) (f : State → State) : s.reg f = .next (if s.status.ready = true then f s else s) := rfl

theorem withBar_cases (s : State) (n : BitVec 4) (k : Barrier → Out) :
    (∃ b, Map.find? s.myParty.bars n.toNat = some b ∧ s.withBar n k = k b) ∨
    (Map.find? s.myParty.bars n.toNat = none ∧ s.withBar n k = trapObj s 5 n.toNat) := by
  unfold State.withBar
  cases Map.find? s.myParty.bars n.toNat with
  | none => exact .inr ⟨rfl, rfl⟩
  | some b => exact .inl ⟨b, rfl, rfl⟩

theorem withQueue_cases (s : State) (q : BitVec 5) (k : CQueue → Out) :
    (∃ x, Map.find? s.myParty.queues q.toNat = some x ∧ s.withQueue q k = k x) ∨
    (Map.find? s.myParty.queues q.toNat = none ∧ s.withQueue q k = trapObj s 1 q.toNat) := by
  unfold State.withQueue
  cases Map.find? s.myParty.queues q.toNat with
  | none => exact .inr ⟨rfl, rfl⟩
  | some x => exact .inl ⟨x, rfl, rfl⟩

/-! ## Transfers of control -/

theorem badTarget_good {s : State} {T : W64} (h : GoodTarget s T) : s.badTarget T = none := by
  obtain ⟨w, h1, h2, h3⟩ := h
  simp [State.badTarget, h1, h2, bf, h3]

theorem withTarget_cases (s : State) (va : W64) (k : State → Out) :
    (s.badTarget va = none ∧ s.withTarget va k = k s) ∨
    (∃ c d, s.badTarget va = some (c, d) ∧ s.withTarget va k = .next (s.trap c d va)) := by
  unfold State.withTarget
  cases h : s.badTarget va with
  | none => exact .inl ⟨rfl, rfl⟩
  | some x => exact .inr ⟨x.1, x.2, rfl, rfl⟩

theorem branchIf_cases (s : State) (p : Bool) (d : BitVec 30) :
    (p = true ∧ s.branchIf p d = s.branchTo (s.me.disp d)) ∨ (p = false ∧ s.branchIf p d = s.done id) := by
  cases p <;> simp [State.branchIf]

theorem disp_eq (c : Crew) (d : BitVec 30) : c.disp d = c.pc + BitVec.ofNat 64 (8 * c.widx) + 8 * d.signExtend 64 := by
  simp [Crew.disp, BitVec.mul_comm]

theorem mem_lanesOf (m : W32) (l : Nat) (h : l < 32) : l ∈ lanesOf m ↔ m.getLsbD l = true := by simp [lanesOf, lanes, h]

theorem find_foldl_put (ls : List Nat) (t : W64) (p : Map W64) (l : Nat) :
    Map.find? (ls.foldl (fun p l => Map.put p l t) p) l = if l ∈ ls then some t else Map.find? p l := by
  induction ls generalizing p with
  | nil => simp
  | cons x xs ih =>
    simp only [List.foldl_cons, ih, List.mem_cons]
    by_cases h1 : l ∈ xs <;> simp [h1]
    by_cases h2 : l = x
    · subst h2; simp [MapLaws.find_put_self]
    · simp [h2, MapLaws.find_put_ne _ _ h2]

theorem setPend_pend (c : Crew) (m : W32) (t : W64) : PendOf m t c (c.setPend m t) := by
  intro l hl
  simp [Crew.setPend, find_foldl_put, mem_lanesOf _ _ hl]

/-- A transfer of the active lanes: the trap of its target, or their pending blocks and the end of the run. -/
theorem branchTo_cases (s : State) (t : W64) :
    (s.badTarget t = none ∧ s.branchTo t = .next (s.onMe fun c => { c.setPend c.active t with phase := .select })) ∨
    (∃ c d, s.badTarget t = some (c, d) ∧ s.branchTo t = .next (s.trap c d t)) := withTarget_cases s t _

theorem callTo_cases (s : State) (n : BitVec 11) (t : W64) :
    (∃ c d, s.badTarget t = some (c, d) ∧ s.callTo n t = .next (s.trap c d t)) ∨
    (s.badTarget t = none ∧ 4096 ≤ s.me.depth ∧ s.callTo n t = .next (s.trap 0x0C 3)) ∨
    (s.badTarget t = none ∧ s.me.depth < 4096 ∧ s.callTo n t = .next (s.putMe { s.me.setPend s.me.active t with
      phase := .select, depth := s.me.depth + 1, baseNext := s.me.baseNext + n.zeroExtend 17
      frames := { ret := s.me.fallThrough, fmask := s.me.active, rmask := 0, basep := s.me.baseNext.setWidth 16, slide := n } ::
        s.me.frames })) := by
  obtain ⟨h, e⟩ | ⟨c, d, h, e⟩ := withTarget_cases s t fun s =>
    let c := s.me
    if 4096 ≤ c.depth then .next (s.trap 0x0C 3)
    else
      let f : Frame := { ret := c.fallThrough, fmask := c.active, rmask := 0, basep := c.baseNext.setWidth 16, slide := n }
      .next (s.putMe { c.setPend c.active t with
        phase := .select, frames := f :: c.frames, depth := c.depth + 1, baseNext := c.baseNext + n.zeroExtend 17 })
  · right
    by_cases hd : 4096 ≤ s.me.depth
    · exact .inl ⟨h, hd, e.trans (if_pos hd)⟩
    · exact .inr ⟨h, Nat.lt_of_not_le hd, e.trans (if_neg hd)⟩
  · exact .inl ⟨c, d, h, e⟩

/-! ## Accesses -/

/-- A checked access: a trap of cause 4 or 5 with an address among those asked for, or one answer for each request. -/
theorem checkAcc_cases (s : State) (ctx : Nat) (need : Need) (w : Nat) (reqs : List (Nat × W64)) :
    (∃ r ∈ reqs, r.2.toNat % w ≠ 0 ∧ ∃ ls, s.checkAcc ctx need w reqs = .bad 0x04 0 r.2 ls) ∨
    ((∀ r ∈ reqs, r.2.toNat % w = 0) ∧ ∃ r ∈ reqs, ∃ k ls, s.xlate ctx r.2 need = .error k ∧
      s.checkAcc ctx need w reqs = .bad 0x05 (BitVec.ofNat 64 k) r.2 ls) ∨
    ((∀ r ∈ reqs, r.2.toNat % w = 0 ∧ ∃ pa, s.xlate ctx r.2 need = .ok pa) ∧
      ∃ as, s.checkAcc ctx need w reqs = .ok as ∧ as.length = reqs.length) := by
  unfold State.checkAcc
  split
  · next r rs h =>
    have hm : r ∈ reqs.filter fun r => r.2.toNat % w != 0 := h ▸ List.mem_cons_self
    exact .inl ⟨r, (List.mem_filter.mp hm).1, by simpa using (List.mem_filter.mp hm).2, _, rfl⟩
  · next h =>
    have ha : ∀ r ∈ reqs, r.2.toNat % w = 0 := by simpa [List.filter_eq_nil_iff] using h
    right
    dsimp only
    split
    · next r rs h1 =>
      have hm : r ∈ reqs.filter fun r => match s.xlate ctx r.2 need with | .ok _ => false | .error _ => true := h1 ▸ List.mem_cons_self
      have h2 := (List.mem_filter.mp hm).2
      cases hx : s.xlate ctx r.2 need with
      | ok pa => simp [hx] at h2
      | error k => exact .inl ⟨ha, r, (List.mem_filter.mp hm).1, k, _, hx, rfl⟩
    · next h1 =>
      refine .inr ⟨fun r hr => ⟨ha r hr, ?_⟩, _, rfl, by simp⟩
      have h2 := List.filter_eq_nil_iff.mp h1 r hr
      cases hx : s.xlate ctx r.2 need with
      | ok pa => exact ⟨pa, rfl⟩
      | error k => simp [hx] at h2

/-- A load: it traps, it waits with the reads of the missing spans due, or it completes. -/
theorem loadInstr_cases (s : State) (w : Nat) (ord : Option Scope) (reqs : List (Nat × W64)) (upd : List (Nat × Nat) → Crew → Crew) :
    (∃ c d0 d1 ls, s.loadInstr w ord reqs upd = .next (s.trap c d0 d1 ls)) ∨
    (∃ as, s.checkAcc s.me.ctx .read w reqs = .ok as ∧ let u := s.walks as false
      (∃ is, s.loadInstr w ord reqs upd = .next ((u.waitMe .load).pushAll is)) ∨
      (∃ d1 ls, s.loadInstr w ord reqs upd = .next (u.trap 0x06 0 d1 ls)) ∨
      ∃ vals wts ch v, u.loadAcc u.cur as w = .ok vals wts ch ∧ s.loadInstr w ord reqs upd =
        State.done v fun c => upd vals { c with readWts := stampMax c.readWts wts, readSeen := joinStamps c.readSeen ch }) := by
  unfold State.loadInstr
  dsimp only
  split
  · exact .inl ⟨_, _, _, _, rfl⟩
  · next as h =>
    refine .inr ⟨as, h, ?_⟩
    split
    · exact .inl ⟨_, rfl⟩
    · exact .inr (.inl ⟨_, _, rfl⟩)
    · next vals wts ch h1 => exact .inr (.inr ⟨vals, wts, ch, _, h1, rfl⟩)

/-- A store: it traps, or it holds its bytes and completes. -/
theorem storeInstr_cases (s : State) (w : Nat) (ord : Option Scope) (reqs : List (Nat × W64)) (val : Nat → Nat) :
    (∃ c d0 d1 ls, s.storeInstr w ord reqs val = .next (s.trap c d0 d1 ls)) ∨
    (∃ as v, s.checkAcc s.me.ctx .write w reqs = .ok as ∧ s.storeInstr w ord reqs val = State.done v id) := by
  unfold State.storeInstr
  dsimp only
  split
  · exact .inl ⟨_, _, _, _, rfl⟩
  · next as h => exact .inr ⟨as, _, h, rfl⟩

/-- A cache operation on a line: it traps, or it is held and completes. -/
theorem lineOp_cases (s : State) (inv : Bool) (sc : Scope) (sb : SReg) (ofs : BitVec 11) :
    (∃ k, s.lineOp inv sc sb ofs = .next (s.trap 0x05 k (s.me.ea sb ofs 1))) ∨
    (∃ u line, s.lineOp inv sc sb ofs = (State.hold u (.flush inv sc line)).done id) := by
  unfold State.lineOp
  dsimp only
  split
  · exact .inl ⟨_, rfl⟩
  · exact .inr ⟨_, _, rfl⟩

/-- An atomic: it traps, or it completes with its requests held. -/
theorem atomInstr_cases (s : State) (need : Need) (op : Aop) (ty : Ty) (sat : Bool) (sc : Scope) (ord : Ord) (dest : Option AtomDest)
    (reqs : List (Nat × W64)) (arg : Nat → W64 × W64) :
    (∃ c d0 d1 ls, s.atomInstr need op ty sat sc ord dest reqs arg = .next (s.trap c d0 d1 ls)) ∨
    (∃ u f, s.atomInstr need op ty sat sc ord dest reqs arg = State.done u f) := by
  unfold State.atomInstr
  dsimp only
  split
  · exact .inl ⟨_, _, _, _, rfl⟩
  · right
    cases dest with
    | none => exact ⟨_, _, rfl⟩
    | some d => dsimp only; split <;> exact ⟨_, _, rfl⟩

/-! ## Lanes -/

/-- A write of the governed lanes, without flags. -/
theorem plainLanes_next (s : State) (h : Hd) (wide : Bool) (vd : VReg) (val : Nat → Nat) :
    ∃ t, s.plainLanes h wide vd val = .next t ∧ OnlyMe s t ∧ t.me = (s.me.putN wide vd (s.me.gov h) val).next := by
  obtain ⟨t, e, o, m, -⟩ := done_next s fun _ => s.me.putN wide vd (s.me.gov h) val
  exact ⟨t, e, o, m⟩

/-- A write of lanes that raises flags always answers a next state. -/
theorem finishLanes_next (s : State) (g : W32) (res : Nat → LaneRes) (op : LaneOp) (write : W32 → Crew → Crew) :
    ∃ t, s.finishLanes g res op write = .next t := ⟨_, rfl⟩

theorem laneInstr_next (s : State) (h : Hd) (wide : Bool) (vd : VReg) (src : Nat → Nat × Nat × Nat) (res : Nat → LaneRes) :
    ∃ t, s.laneInstr h wide vd src res = .next t := ⟨_, rfl⟩

theorem predOp_next (s : State) (h : Hd) (pd : PReg) (x : Crew → W32) :
    ∃ t, s.predOp h pd x = .next t ∧ OnlyMe s t ∧ t.me = (s.me.putP pd (s.me.gov h) (x s.me)).next := by
  obtain ⟨t, e, o, m, -⟩ := done_next s fun c => c.putP pd (c.gov h) (x c)
  exact ⟨t, e, o, m⟩

theorem scalarOp_next (s : State) (op : SOp) (ty : ITy) (sd sa : SReg) (b : Op2) :
    ∃ t, s.scalarOp op ty sd sa b = .next t ∧ OnlyMe s t ∧
      t.me = (s.me.setS sd (extS ty (sopVal op ty (s.me.sv sa).toNat (s.me.op2 b).toNat))).next := by
  obtain ⟨t, e, o, m, -⟩ := done_next s fun c => c.setS sd (extS ty (sopVal op ty (c.sv sa).toNat (c.op2 b).toNat))
  exact ⟨t, e, o, m⟩

end Sys2Proof.Machine
end

