-- ==== Sys2Proof/Tests/Slice0.lean ====
section
/-! SUPPORT. The model's own tests: words written out from the manual's formats, with the instructions that they stand for; ill-formed
instructions, which the checks refuse; single steps, with values from the manual; and, for each statement, states and operands that
meet its hypotheses. -/

namespace Sys2Proof.Tests
open Sys2Proof Sys2Proof.Machine
set_option Elab.async false

/-! ## Helpers -/

/-- A package with one crew, in slot 0 of core 0. -/
def solo (c : Crew) : State := { State.reset with crews := [(0, c)] }

/-- A package past READY in which that crew's context maps the first GiB, with a block of `nop` and `exit` at 0x10000; the state
of `State.withFetchWord`, written out. -/
def mapped (c : Crew) : State :=
  { State.reset with
    runq := [0], status := { ready := true, pairs := 0xFF }, mode := { mode := 1 }
    ctxs := [(0, { en := true, root := 1, ents := 0xFEDCBA98 })], cores := [(0, {})], crews := [(0, c)]
    mem := [(0x10004, 0xE0), (0x10005, 0xFF), (0x10006, 2), (0x10007, 0xFF), (0x1000F, 0x27), (0x10017, 0x25),
      (0x10000000001000, 1), (0x10000000001001, 8), (0x20000000002000, 1), (0x20000000002001, 12), (0x30000000003000, 0xCF)] }

/-- The crew of `mapped`: it stands at word 1 of the block at 0x10000. -/
def crew0 : Crew := { phase := .running, pc := 0x10000, widx := 1, hdr := placeHeader, alloc := 2048 }

/-- Every lane governs; only the lanes of p1 do; none does. -/
def hdAll : Hd := ⟨0, 0, false⟩
def hdP1 : Hd := ⟨0, 1, false⟩

/-- What an instruction leaves of its crew. -/
def crewAfter (i : Instr) (s : State) : Crew :=
  match exec i s with
  | .next t => t.me
  | _ => {}

/-- What an instruction leaves of the machine. -/
def stateAfter (i : Instr) (s : State) : State :=
  match exec i s with
  | .next t => t
  | _ => {}

theorem mapped_is_withFetchWord :
    mapped { crew0 with priv := true } = State.reset.withFetchWord 64 0x2700000000000000 := by decide +kernel

/-! ## Well-formedness: one ill-formed term for each check, which the check refuses -/

theorem test_illformed_hasWord : Instr.hasWord (.powerOff) = false ∧ WellFormed .powerOff = false := by decide
theorem test_illformed_selOk : selOk (.wrsrScalar 0 .lane 1) = false ∧ WellFormed (.wrsrScalar 0 .lane 1) = false := by decide
theorem test_illformed_modOk : modOk (.sext 0 .i64 1 2) = false ∧ WellFormed (.sext 0 .i64 1 2) = false := by decide
theorem test_illformed_fieldOk : fieldOk (.exit ⟨0, 0, true⟩) = false ∧ WellFormed (.exit ⟨0, 0, true⟩) = false := by decide
theorem test_illformed_regOk : regOk (.smov 0 96 1) = false ∧ WellFormed (.smov 0 96 1) = false := by decide
theorem test_illformed_pair : WellFormed (.vadd hdAll .i64 false 3 4 6) = false ∧ WellFormed (.vadd hdAll .i64 false 2 4 6) = true := by
  decide
theorem test_illformed_p0 : WellFormed (.pand hdAll 0 1 2) = false ∧ WellFormed (.pand hdAll 1 0 2) = true := by decide

/-! ## Words that decode to nothing, by kind (R103) -/

/-- The kind of a word that stands for no instruction, 0 for one that does. -/
def kindOf (w : W64) : Nat := match decode w with | .error e => e | .ok _ => 0

theorem test_undefined_opcode : kindOf 0 = 1 ∧ kindOf 0xFC00000000000000 = 1 ∧ kindOf 0xFE00000000000000 = 1 := by decide +kernel
theorem test_undefined_selector : kindOf 0x1200000200000000 = 2 ∧ kindOf 0x2000000340000000 = 2 ∧ kindOf 0xFA00002000000014 = 2 := by
  decide +kernel
theorem test_undefined_modifier : kindOf 0x70020040_14030907 = 3 := by decide +kernel
theorem test_undefined_field : kindOf 0x2701000000000000 = 4 ∧ kindOf 0x2700000000000001 = 4 := by decide +kernel
theorem test_undefined_register : kindOf 0x1400C00000000000 = 5 := by decide +kernel

/-! ## One step on a small state; the values are those of the manual's rules and examples -/

/-- R127: the quotient of the most negative value by -1 is the most negative value. -/
theorem test_sdiv_corner :
    (crewAfter (.sdiv 0 .i8 1 2 (.imm 0xFFFFF)) (solo { crew0 with s := [(2, 0x80)] })).sv 1 = 0xFFFFFFFFFFFFFF80 := by decide +kernel
/-- R109: a divisor of 0 gives the dividend as remainder. -/
theorem test_srem_zero : (crewAfter (.srem 0 .n16 1 2 (.reg 0)) (solo { crew0 with s := [(2, 0x12345)] })).sv 1 = 0x2345 := by
  decide +kernel
/-- R128: an unsigned and a signed comparison of the same values differ. -/
theorem test_scmp_signs :
    (crewAfter (.scmp 0 .lt 1 2 (.imm 1)) (solo { crew0 with s := [(2, 0xFFFFFFFFFFFFFFFF)] })).sv 1 = 1 ∧
    (crewAfter (.scmp 0 .lo 1 2 (.imm 1)) (solo { crew0 with s := [(2, 0xFFFFFFFFFFFFFFFF)] })).sv 1 = 0 := by decide +kernel
/-- R20: s0 discards a write. -/
theorem test_s0 : crewAfter (.sli 0 false 0 7) (solo crew0) = { crew0 with widx := 2 } := by decide +kernel
/-- R153: a saturating sum is clamped in the governed lanes alone, and the others keep their registers. -/
theorem test_vadd_sat :
    let c := crewAfter (.vadd hdP1 .i8 true 3 1 1)
      (solo { crew0 with p := [(1, 1)], v := [(1, ⟨1, true, mkRow fun _ => 0x70⟩), (3, ⟨3, true, mkRow fun _ => 5⟩)] })
    c.vl 3 0 = 0x7F ∧ c.vl 3 1 = 5 := by decide +kernel
/-- R169, the example of an exact sum: 2^24 and thirty-one times 1, summed exactly and rounded once. -/
theorem test_vred_exact :
    let c := crewAfter (.vred hdAll .add (.flt .f32) false 3 2)
      (solo { crew0 with v := [(2, ⟨2, true, mkRow fun l => if l = 0 then 0x4B800000 else 0x3F800000⟩)] })
    c.vl 3 0 = 0x4B800010 ∧ c.vl 3 31 = 0x4B800010 ∧ c.laneFl 5 = flNX := by decide +kernel
/-- R125, R123: a fused sum that cancels is +0 under .rd too, and a plain sum is -0 (R113). -/
theorem test_vfma_cancels :
    let s := solo { crew0 with v := [(2, ⟨2, true, mkRow fun _ => 0x3F800000⟩), (3, ⟨3, true, mkRow fun _ => 0xBF800000⟩)] }
    (crewAfter (.vfmaF32 hdAll .rd 4 2 2 3) s).vl 4 9 = 0 ∧ (crewAfter (.vfadd hdAll .rd .f32 4 2 3) s).vl 4 9 = 0x80000000 := by
  decide +kernel
/-- R160: `vfcls` of a signalling NaN. -/
theorem test_vfcls_snan :
    (crewAfter (.vfcls hdAll .f32 3 2) (solo { crew0 with v := [(2, ⟨2, true, mkRow fun _ => 0x7F800001⟩)] })).vl 3 7 = 0x100 := by
  decide +kernel
/-- R63: `cas` stores its operand when the old value matches, and leaves the bytes otherwise. -/
theorem test_cas : atomVal .cas (.int .n32) false 5 9 5 = some 9 ∧ atomVal .cas (.int .n32) false 5 9 6 = none := by decide +kernel
/-- R217: the conflict counts of two layout records. -/
theorem test_laycfg :
    (crewAfter (.laycfg 0 1 2 0) (solo { crew0 with s := [(2, 0x0C7C7C0080400800)] })).sv 1 = 992 ∧
    (crewAfter (.laycfg 0 1 2 0) (solo { crew0 with s := [(2, 0x0C7C7C0080400840)] })).sv 1 = 0 := by decide +kernel
/-- R102: `hret` in user mode. -/
theorem test_hret_user : (crewAfter (.hret 0 1) (solo crew0)).trap.map (·.cause) = some 0x02 := by decide +kernel
/-- A word from memory to its effect: `sadd s4, s4, 1`. -/
theorem test_step_sadd :
    (match step (State.reset.withFetchWord 64 0x0100081000700001) with | .next t => (t.crew 0).sv 4 | _ => 0) = 1 := by decide +kernel
/-- The example of R232: after crew 1 arrives and crew 2 drops, the phase is complete and the next one keeps crew 0's arrival. -/
theorem test_barrier_example :
    let b : Barrier := { mask := 7, cur := 5, arrived := [1, 1, 0, 0] }
    let x := ((b.arrive 1 0 []).drop 2 []).complete 4
    x.mask = 3 ∧ x.cur = 6 ∧ x.arrived.headD 9 = 1 := by decide +kernel
/-- R268's example: the hash of words 2, 3 and 4. -/
theorem test_hash :
    let s : State := { State.reset with mem := memPut [] (cellsOf (4 * 2) (bytesOf 12 (1 + 0x80000000 * 2 ^ 32 + 0x12345678 * 2 ^ 64))) }
    s.hash 0 2 4 = 0x23456781 := by decide +kernel


/-! ## Words and their instructions (R83 to R101) -/

/-- Each word decodes to the instruction beside it, which is well-formed and is encoded as that word. -/
def readsAll (xs : List (W64 × Instr)) : Bool :=
  xs.all fun x => match decode x.1 with
    | .ok i => i == x.2 && WellFormed i && encode i == some x.1
    | .error _ => false

theorem test_decode_scalar_arithmetic : readsAll [
  (0x01000368001FFFFB, .sadd 0 .i8 1 90 (.imm 1048571)),
  (0x0210056420200000, .ssub 1 .i16 2 89 (.reg 4)),
  (0x03200760005FFFF9, .smul 2 .i32 3 88 (.imm 1048569)),
  (0x0430095C30600000, .smulh 3 .i64 4 87 (.reg 6)),
  (0x05400B58009FFFF7, .sdiv 4 .n8 5 86 (.imm 1048567)),
  (0x06500D5440A00000, .srem 5 .n16 6 85 (.reg 8)),
  (0x07600F5000DFFFF5, .sand 6 .n32 7 84 (.imm 1048565)),
  (0x0870114C50E00000, .sor 7 .n64 8 83 (.reg 10)),
  (0x09801348001FFFF3, .sxor 8 .i8 9 82 (.imm 1048563)),
  (0x0A90154460200000, .sandn 9 .i16 10 81 (.reg 12)),
  (0x0BA01740005FFFF1, .sshl 10 .i32 11 80 (.imm 1048561)),
  (0x0CB0193C70600000, .sshr 11 .i64 12 79 (.reg 14)),
  (0x0DC01B38009FFFEF, .ssra 12 .n8 13 78 (.imm 1048559)),
  (0x0ED01D3480A00000, .smin 13 .n16 14 77 (.reg 16)),
  (0x0FE01F3000DFFFED, .smax 14 .n32 15 76 (.imm 1048557))] = true := by decide +kernel

theorem test_decode_scalar_other : readsAll [
  (0x10100E20016FFFFD, .scmp 1 .lo 7 8 (.imm 0xFFFFD)),
  (0x110002081800005F, .ssel 0 1 95 2 3),
  (0x1200080180000001, .sli 0 true 4 0x80000001),
  (0x1300081412345678, .slih 0 4 5 0x12345678),
  (0x1400BF7800000000, .smov 0 95 94),
  (0x1500020800A00000, .sclz 0 .n16 1 2),
  (0x1600020800600000, .spopc 0 .i64 1 2),
  (0x1700020818600000, .sbfx 0 true 1 2 3),
  (0x1800020818000000, .sbfi 0 1 2 3),
  (0x1900020800000000, .sext 0 .i8 1 2),
  (0x1A0000407FFB8FFF, .sld 0 .d (some .sys) 2 1 0x7FF),
  (0x1B0000407FF83005, .sst 0 .b (some .clus) 2 1 5),
  (0x1C0000027FF803FF, .sprf 0 9 0x3FF)] = true := by decide +kernel

theorem test_decode_control_flow : readsAll [
  (0x200000003FFFFFFF, .br 0 0x3FFFFFFF),
  (0x2000102680000002, .brc 0 .hs 8 9 2),
  (0x20001002C0000002, .brz 0 8 2),
  (0x2000100300000002, .brnz 0 8 2),
  (0x21000020000FFFFF, .brx 0 8 0xFFFFF),
  (0x22001FFC00000006, .call 0 2047 6),
  (0x23000020000007FF, .callx 0 2047 8),
  (0x2430000000000000, .ret 3),
  (0x2507000000000000, .exit ⟨0, 3, true⟩),
  (0x2600000000000000, .yield 0),
  (0x27F0000000000000, .nop 15),
  (0x280200003FFFFFFE, .vbr ⟨0, 1, false⟩ 0x3FFFFFFE),
  (0x2904000020000000, .vbrx ⟨0, 2, false⟩ 8),
  (0x2A00280000700000, .pany 0 20 7),
  (0x2B002A0000600000, .pall 0 21 6),
  (0x2C002C0000500000, .pcnt 0 22 5),
  (0x2D002E0000400000, .pffs 0 23 4)] = true := by decide +kernel

theorem test_decode_vector_integer : readsAll [
  (0x30020C9003FF0001, .vadd ⟨0, 1, false⟩ .i8 true 100 1024 2046),
  (0x31150CD00BFE0101, .vsub ⟨1, 2, true⟩ .i16 true 102 1026 2044),
  (0x32260D1013FD0201, .vmul ⟨2, 3, false⟩ .i32 true 104 1028 2042),
  (0x33390D501BFC0300, .vmulh ⟨3, 4, true⟩ .i64 106 1030 2040),
  (0x354A0D9023FB0401, .vdiv ⟨4, 5, false⟩ .n8 true 108 1032 2038),
  (0x365D0DD02BFA0500, .vrem ⟨5, 6, true⟩ .n16 110 1034 2036),
  (0x376E0E1033F90600, .vand ⟨6, 7, false⟩ .n32 112 1036 2034),
  (0x38730E503BF80700, .vor ⟨7, 1, true⟩ .n64 114 1038 2032),
  (0x39840E9043F70000, .vxor ⟨8, 2, false⟩ .i8 116 1040 2030),
  (0x3A970ED04BF60100, .vandn ⟨9, 3, true⟩ .i16 118 1042 2028),
  (0x3BA80F1053F50200, .vshl ⟨10, 4, false⟩ .i32 120 1044 2026),
  (0x3CBB0F505BF40300, .vshr ⟨11, 5, true⟩ .i64 122 1046 2024),
  (0x3DCC0F9063F30400, .vsra ⟨12, 6, false⟩ .n8 124 1048 2022),
  (0x3EDF0FD06BF20500, .vrot ⟨13, 7, true⟩ .n16 126 1050 2020),
  (0x3FE2101073F10600, .vmin ⟨14, 1, false⟩ .n32 128 1052 2018),
  (0x40F510507BF00700, .vmax ⟨15, 2, true⟩ .n64 130 1054 2016),
  (0x4106109080000101, .vabs ⟨0, 3, false⟩ .i16 true 132 1056),
  (0x421910D088000100, .vclz ⟨1, 4, true⟩ .i16 134 1058),
  (0x432A111090000200, .vpopc ⟨2, 5, false⟩ .i32 136 1060),
  (0x443D115098000300, .vbrev ⟨3, 6, true⟩ .i64 138 1062),
  (0x454E1190A3EB0600, .vbfx ⟨4, 7, false⟩ false 140 1064 2006)] = true := by decide +kernel

theorem test_decode_vector_moves : readsAll [
  (0x3400004010030087, .vmad ⟨0, 0, false⟩ .n64 2 4 6 8),
  (0x460000200C02FFF0, .vbfi ⟨0, 0, false⟩ 1 3 5 2047),
  (0x4700004010030A05, .vsel ⟨0, 0, false⟩ (.flt .f64) 5 2 4 6),
  (0x480000200C000200, .vmov ⟨0, 0, false⟩ (.int .i32) 1 3),
  (0x4900004000A3FF00, .vli ⟨0, 0, false⟩ (.flt .f64) 2 0x3FF00),
  (0x4A0000E00C028408, .vcmp ⟨0, 0, false⟩ .hi .n8 7 3 5),
  (0x4B0000200C028600, .vclmul ⟨0, 0, false⟩ 1 3 5),
  (0x4C0000200C028600, .vclmulh ⟨0, 0, false⟩ 1 3 5),
  (0x4D00004010030707, .vaddc ⟨0, 0, false⟩ true 7 2 4 6),
  (0x50000000080FFFFF, .vaddImm ⟨0, 0, false⟩ .i8 0 2 1048575),
  (0x51000040101FFFFE, .vandImm ⟨0, 0, false⟩ .i16 2 4 1048574),
  (0x52000080182FFFFD, .vorImm ⟨0, 0, false⟩ .i32 4 6 1048573),
  (0x530000C0203FFFFC, .vxorImm ⟨0, 0, false⟩ .i64 6 8 1048572),
  (0x54000100284FFFFB, .vshlImm ⟨0, 0, false⟩ .n8 8 10 1048571),
  (0x55000140305FFFFA, .vshrImm ⟨0, 0, false⟩ .n16 10 12 1048570),
  (0x56000180386FFFF9, .vsraImm ⟨0, 0, false⟩ .n32 12 14 1048569)] = true := by decide +kernel

theorem test_decode_vector_float : readsAll [
  (0x6000004010034800, .vfadd ⟨0, 0, false⟩ .ra .f16 2 4 6),
  (0x6100004010033900, .vfsub ⟨0, 0, false⟩ .rd .f32 2 4 6),
  (0x6200004010032A00, .vfmul ⟨0, 0, false⟩ .ru .f64 2 4 6),
  (0x6300004010030081, .vfmaF16 ⟨0, 0, false⟩ .rz 2 4 6 8),
  (0x6400004010030082, .vfmaF32 ⟨0, 0, false⟩ .ru 2 4 6 8),
  (0x6500004010030083, .vfmaF64 ⟨0, 0, false⟩ .rd 2 4 6 8),
  (0x6600004010031A00, .vfdiv ⟨0, 0, false⟩ .rz .f64 2 4 6),
  (0x6700004010000900, .vfsqrt ⟨0, 0, false⟩ .rn .f32 2 4),
  (0x6800002024000800, .vfrcp ⟨0, 0, false⟩ .f16 1 9),
  (0x6900004020000900, .vfrsq ⟨0, 0, false⟩ .f32 2 8),
  (0x6A0000601C000800, .vfexp2 ⟨0, 0, false⟩ .f16 3 7),
  (0x6B00008018000900, .vflog2 ⟨0, 0, false⟩ .f32 4 6),
  (0x6C0000A014000800, .vfsin ⟨0, 0, false⟩ .f16 5 5),
  (0x6D0000C010000900, .vfcos ⟨0, 0, false⟩ .f32 6 4),
  (0x6E00004010030A00, .vfmin ⟨0, 0, false⟩ .f64 2 4 6),
  (0x6F0000200C028800, .vfmax ⟨0, 0, false⟩ .f16 1 3 5),
  (0x700000600C028805, .vfcmp ⟨0, 0, false⟩ .ge .f16 3 3 5),
  (0x7100002010000A00, .vfcls ⟨0, 0, false⟩ .f64 1 4),
  (0x720000200C003900, .vfrnd ⟨0, 0, false⟩ .rd .f32 1 3),
  (0x730000200C02A800, .vfdot ⟨0, 0, false⟩ .ru 1 3 5),
  (0x740000400C001309, .vcvt ⟨0, 0, false⟩ .rz false (.int .i64) (.flt .f32) 2 3),
  (0x740000400C000412, .vcvt ⟨0, 0, false⟩ .rn true (.int .n8) (.int .i32) 2 3),
  (0x750000200C000B00, .vpack ⟨0, 0, false⟩ .pb4 1 3),
  (0x760000200C000D00, .vunpk ⟨0, 0, false⟩ .pb9 1 3)] = true := by decide +kernel

theorem test_decode_cross_lane : readsAll [
  (0x900000200C028200, .vshfl ⟨0, 0, false⟩ .up 1 3 5),
  (0x910000200C00001F, .vbcast ⟨0, 0, false⟩ 1 3 31),
  (0x9200004010000701, .vred ⟨0, 0, false⟩ .add (.int .n64) true 2 4),
  (0x930000200C002800, .vscan ⟨0, 0, false⟩ .max (.flt .f16) false 1 3),
  (0x94000BE010380001, .vext 0 true 95 4 7),
  (0x9500FFE024380000, .vins 0 false 2047 9 7),
  (0x960200200C000000, .vcompr ⟨0, 1, false⟩ 1 3)] = true := by decide +kernel

theorem test_decode_predicates_and_masks : readsAll [
  (0x970000E000008000, .pand ⟨0, 0, false⟩ 7 0 1),
  (0x970000C004010100, .por ⟨0, 0, false⟩ 6 1 2),
  (0x970000A008018200, .pxor ⟨0, 0, false⟩ 5 2 3),
  (0x970000800C000300, .pnot ⟨0, 0, false⟩ 4 3),
  (0x9700006010000400, .pmov ⟨0, 0, false⟩ 3 4),
  (0x9800006002F80000, .pset ⟨0, 0, false⟩ 3 95),
  (0x99000BE01C000000, .pget 0 95 7),
  (0x9A000A0000300000, .kcnt 0 5 3),
  (0x9B000A0000200000, .kffs 0 5 2),
  (0x9C000A1800100000, .kbit 0 5 1 6),
  (0x9D00012000000600, .kmvToVector 0 9 3),
  (0x9D00000024000500, .kmvToMask 0 2 9)] = true := by decide +kernel

theorem test_decode_memory : readsAll [
  (0xA0000041404B6FFE, .vld ⟨0, 0, false⟩ .d (some .dev) 2 5 (some 9) 0x7FE),
  (0xA10000617FF95007, .vst ⟨0, 0, false⟩ .h (some .die) 3 5 none 7),
  (0xA200006140400000, .vgth ⟨0, 0, false⟩ .b none 3 5 8 0),
  (0xA300006140421001, .vsct ⟨0, 0, false⟩ .w (some .crew) 3 5 8 1),
  (0xA4000041404B7803, .vldp ⟨0, 0, false⟩ .d 2 15 5 (some 9) 3),
  (0xA50000617FF977FF, .vstp ⟨0, 0, false⟩ .h 3 14 5 none 0x7FF),
  (0xA6000001404A0003, .vprf ⟨0, 0, false⟩ .w 5 (some 9) 3),
  (0xA7000BE17FFA6801, .sldp 0 .w 95 13 5 1)] = true := by decide +kernel

theorem test_decode_atomics_and_fences : readsAll [
  (0xA80000402402F798, .vatom ⟨0, 0, false⟩ .cas (.int .n64) .sys .ar false 2 5 (some 9)),
  (0xA900004024028249, .satom 0 (.red .add) (.int .i32) .die .acq true 2 9 5),
  (0xAA00005FFC029A70, .vredm ⟨0, 0, false⟩ .min (.flt .f64) .dev true false 2 5 none),
  (0xAB00004024066938, .patom ⟨0, 0, false⟩ .xchg (.flt .f32) true .ar false 2 12 (some 9)),
  (0xAC00000001A00000, .fence 0 .ar .die),
  (0xAD0000017FF88006, .cflush 0 .sys 5 6),
  (0xAE0000017FF82006, .cinv 0 .clus 5 6)] = true := by decide +kernel

theorem test_decode_plates_and_engines : readsAll [
  (0xC000F160012000FF, .tres 0 15 255 (some 2) (some 9)),
  (0xC100E00000000000, .trel 0 14),
  (0xC200D00001200000, .tcfgPlate 0 13 9),
  (0xC200000071200001, .tcfgRegion 0 7 9),
  (0xC3000C0001200000, .trd 0 9 12),
  (0xC400000001228000, .tstat 0 9 10),
  (0xC5000120712280FF, .mma 0 (.int .i8) 7 1 2 9 10 255),
  (0xC600034061228D01, .mmap 0 (.blk .pb9) 6 3 4 9 10 1),
  (0xC700120000000000, .mbatch 0 9),
  (0xC800002400000000, .mwait 0 9),
  (0xC900122800000000, .mpoll 0 9 10),
  (0xCA00030051200108, .acld 0 true true 5 3 9),
  (0xCB00030051200028, .acst 0 true .ru false 5 3 9),
  (0xCC00000050000000, .aczero 0 5),
  (0xCD00FFE051200100, .acrd ⟨0, 0, false⟩ true 2047 5 9),
  (0xCE00122858000000, .laycfg 0 9 10 11),
  (0xD000122858007C00, .cpy 0 true 15 9 10 11 none),
  (0xD100122858000E1F, .gth 0 3 9 10 11 (some 31)),
  (0xD200AC2858000E02, .coll 0 .xor (.int .n32) 3 10 11 (some 2))] = true := by decide +kernel

theorem test_decode_synchronisation : readsAll [
  (0xE00000240000000F, .bari 0 15 9),
  (0xE100000000000032, .barv 0 2 (.ahead 3)),
  (0xE100002400000042, .barv 0 2 (.named 9)),
  (0xE200002400000003, .barw 0 3 9),
  (0xE300000000000004, .bard 0 4),
  (0xE400102400000005, .bart 0 8 5 9),
  (0xE50000245000001F, .qcfg 0 31 9 10),
  (0xE60000240000001E, .qpush 0 30 9),
  (0xE70012000000001D, .qpop 0 9 29),
  (0xE80012000000001C, .qtryPop 0 9 28),
  (0xE80012280000003B, .qtryPush 0 9 27 10),
  (0xE9000024000003FA, .qallow 0 26 9 31),
  (0xEA0001E27FFB0004, .watch 0 true 15 9 4),
  (0xEB00002400000000, .park 0 9),
  (0xEB00102400100000, .parkSt 0 8 9),
  (0xEC001024500003FF, .shpv 0 3 8 255 9 10),
  (0xED001000000002FE, .shlv 0 2 8 254),
  (0xEE001000000000FD, .shrs 0 8 253)] = true := by decide +kernel

theorem test_decode_launch_and_system : readsAll [
  (0xF002100007FE003F, .dlaunch ⟨0, 1, false⟩ 8 2046 63),
  (0xF00010240000043E, .sdlaunch 0 8 9 62),
  (0xF100000000400000, .cancel 0 .job),
  (0xF200102400000000, .cntrd 0 8 9),
  (0xF30010240000003D, .rlnch 0 8 9 61),
  (0xF400102400000000, .trrec 0 8 9),
  (0xF5001000000000FF, .dmclr 0 8 255),
  (0xF5001024501000FE, .dmq 0 8 9 10 254),
  (0xF60200000008FFFF, .trap ⟨0, 1, false⟩ 0xFFFF true),
  (0xF602000000108000, .brkpt ⟨0, 1, false⟩ 0x8000),
  (0xF70000017C000000, .hret 0 95),
  (0xF700000010048101, .lhret 0 true 4 9),
  (0xF800120000000000, .ckpt 0 9),
  (0xF900102400000007, .svccfg 0 8 9 7),
  (0xFA0001200000000E, .rdsrScalar 0 9 .frontier),
  (0xFA02012000001000, .rdsrVector ⟨0, 1, false⟩ 9 .lane),
  (0xFA00000000482011, .wrsrScalar 0 .bkconf 9),
  (0xFA0200002400300C, .wrsrVector ⟨0, 1, false⟩ 9),
  (0xFB00120000000000, .rdtime 0 9)] = true := by decide +kernel


/-! ## States and operands that meet the hypotheses of the statements -/

/-! ## Witnesses: for each statement with hypotheses, a state and operands that meet them together -/

theorem witness_EncodeThenDecodeIsIdentity : WellFormed (.nop 3) = true := by decide
theorem witness_DecodedWordsAreTheirOwnEncodings : decode 0x2700000000000000 = .ok (.nop 0) := by rfl

/-- A placed word is what the crew fetches next. -/
theorem fetches_nop : Fetches (State.reset.withFetchWord 64 0x2700000000000000) 0 [] 0x2700000000000000 :=
  ⟨by decide +kernel, by decide +kernel, by decide +kernel, by decide +kernel, by decide +kernel, by decide +kernel,
    by decide +kernel⟩
theorem fetches_zero : Fetches (State.reset.withFetchWord 64 0) 0 [] 0 :=
  ⟨by decide +kernel, by decide +kernel, by decide +kernel, by decide +kernel, by decide +kernel, by decide +kernel,
    by decide +kernel⟩

/-- A crew at such a word that has an older store behind a release. -/
def unsettled0 : State :=
  (State.reset.withFetchWord 64 0).onCrew 0 fun c => { c with held := [⟨0, .fence, some .dev, []⟩] }
theorem fetches_unsettled : Fetches unsettled0 0 [] 0 :=
  ⟨by decide +kernel, by decide +kernel, by decide +kernel, by decide +kernel, by decide +kernel, by decide +kernel,
    by decide +kernel⟩
theorem witness_UndefinedWordsTrap :
    (∃ s e, Fetches s 0 [] 0 ∧ decode 0 = .error e ∧ (s.crew 0).kind = .normal ∧ (s.crew 0).unsettled = false) ∧
    ∃ s e, Fetches s 0 [] 0 ∧ decode 0 = .error e ∧ (s.crew 0).kind = .normal ∧ (s.crew 0).unsettled = true :=
  ⟨⟨_, 1, fetches_zero, by decide +kernel, by decide +kernel, by decide +kernel⟩,
    ⟨_, 1, fetches_unsettled, by decide +kernel, by decide +kernel, by decide +kernel⟩⟩
theorem witness_StepRunsTheDecodedWord :
    ∃ s i, Fetches s 0 [] 0x2700000000000000 ∧ decode 0x2700000000000000 = .ok i ∧
      let c := (s.issuing 0 [] 0x2700000000000000 i).crew 0
      c.phase = .running ∧ pastLive i (hdrLive c.hdr) = false ∧ c.kind ≠ .test ∧ (privForm i = true → c.priv = true) ∧
      c.behind i = false ∧ c.stallBad i = none :=
  ⟨_, .nop 0, fetches_nop, by decide +kernel, by decide +kernel, by decide +kernel, by decide +kernel, by decide +kernel,
    by decide +kernel, by decide +kernel⟩
/-- A package past READY in which no crew is left to issue. -/
def idle : State := { mapped crew0 with runq := [] }
theorem witness_StepRunsWhatIsDue :
    (∃ s : State, s.stopped = false ∧ s.agenda = [.powerLimit]) ∧
    (∃ s : State, s.stopped = false ∧ s.agenda = [] ∧ s.runq = [] ∧ s.plan = [[.powerLimit], []]) ∧
    (∃ s : State, s.stopped = false ∧ s.agenda = [] ∧ s.runq = [] ∧ s.plan = [[]] ∧ s.status.ready = true ∧ s.input? = none) ∧
    (∃ (s t : State) (is : List (Nat × Instr)), s.stopped = false ∧ s.agenda = [] ∧ s.runq = [] ∧ s.plan = [[]] ∧
      s.input? = some (Instr.linkFlitCrcFail, is) ∧ isInput .linkFlitCrcFail = true ∧
      exec .linkFlitCrcFail (({ s with plan := [], inputs := is } : State).platesAll.pushesUpTo none) = .next t ∧ t.status.ready = true) ∧
    (∃ s : State, s.stopped = false ∧ s.agenda = [] ∧ s.runq = [] ∧ s.plan = [] ∧ s.late = [.powerLimit]) ∧
    (∃ s : State, s.stopped = false ∧ s.agenda = [] ∧ s.runq = [] ∧ s.plan = [] ∧ s.late = [] ∧ s.status.ready = true) ∧
    (∃ (s : State) (is : List (Nat × Instr)), s.stopped = false ∧ s.agenda = [] ∧ s.runq = [] ∧ s.plan = [] ∧ s.late = [] ∧
      s.status.ready = false ∧ s.input? = some (Instr.powerGood, is) ∧ isInput .powerGood = true) :=
  ⟨⟨{ State.reset with agenda := [.powerLimit] }, by decide +kernel, by decide +kernel⟩,
    ⟨{ idle with plan := [[.powerLimit], []] }, by decide +kernel, by decide +kernel, by decide +kernel, by decide +kernel⟩,
    ⟨{ idle with plan := [[]] }, by decide +kernel, by decide +kernel, by decide +kernel, by decide +kernel, by decide +kernel,
      by decide +kernel⟩,
    ⟨{ idle with plan := [[]], inputs := [(0, .linkFlitCrcFail)] }, _, [], by decide +kernel, by decide +kernel, by decide +kernel,
      by decide +kernel, by decide +kernel, by decide +kernel, rfl, by decide +kernel⟩,
    ⟨{ idle with late := [.powerLimit] }, by decide +kernel, by decide +kernel, by decide +kernel, by decide +kernel, by decide +kernel⟩,
    ⟨idle, by decide +kernel, by decide +kernel, by decide +kernel, by decide +kernel, by decide +kernel, by decide +kernel⟩,
    ⟨{ State.reset with inputs := [(0, .powerGood)] }, [], by decide +kernel, by decide +kernel, by decide +kernel, by decide +kernel,
      by decide +kernel, by decide +kernel, by decide +kernel, by decide +kernel⟩⟩
theorem witness_OnlyAThermalTripStopsTheMachine :
    State.reset.stopped = false ∧ ({ State.reset with stopped := true } : State).stopped = true := by decide +kernel
theorem witness_EveryStepKeepsMemoryCanonical :
    State.reset.Inv ∧ ∃ t, step State.reset = .next t := ⟨rfl, _, rfl⟩

theorem witness_ScalarInstructionsWriteOneRegister : scalarDest (.smov 0 95 1) = some 95 := by decide
theorem witness_ScalarResults :
    (scalarArith crew0 (.sdiv 0 .i64 2 1 (.reg 0)) = some 0 ∧ scalarDest (.sdiv 0 .i64 2 1 (.reg 0)) = some 2) ∧
    (scalarMisc crew0 (.kffs 0 2 3) = some 1024 ∧ scalarDest (.kffs 0 2 3) = some 2) ∧
    (2 : SReg) ≠ 0 ∧ layValid 1 = false ∧ layValid 0x0C7C7C0080400800 = true := by decide +kernel
theorem witness_LaneInstructionsWriteTheirLanes : laneDest crew0 (.vmov hdAll (.int .i64) 2 4) = some (0xFFFFFFFF, true, 2) := by
  decide +kernel
theorem witness_LaneResults :
    (laneDest crew0 (.vclz hdAll .n64 2 4) = some (0xFFFFFFFF, true, 2) ∧ vectorArith crew0 31 (.vclz hdAll .n64 2 4) = some 64 ∧
      (0xFFFFFFFF : W32).getLsbD 31 = true ∧ 8 ≤ crew0.alloc) ∧
    (laneDest crew0 (.vbcast hdAll 2 4 31) = some (0xFFFFFFFF, false, 2) ∧ crossLane crew0 0 (.vbcast hdAll 2 4 31) = some 0) := by
  decide +kernel

/-! Numbers that the patterns of the binary types stand for -/

theorem rat_zero : ratOf (FTy.f32.fmt.decode 0) = some 0 := by
  rw [show FTy.f32.fmt.decode 0 = .fin false 0 (-149) from by decide +kernel]; norm_num [ratOf]
theorem rat_one : ratOf (FTy.f32.fmt.decode 0x3F800000) = some 1 := by
  rw [show FTy.f32.fmt.decode 0x3F800000 = .fin false (2 ^ 23) (-23) from by decide +kernel]; norm_num [ratOf]
theorem rat_two : ratOf (FTy.f32.fmt.decode 0x40000000) = some 2 := by
  rw [show FTy.f32.fmt.decode 0x40000000 = .fin false (2 ^ 23) (-22) from by decide +kernel]; norm_num [ratOf]
theorem rat_half : ratOf (FTy.f32.fmt.decode 0x3F000000) = some (1 / 2) := by
  rw [show FTy.f32.fmt.decode 0x3F000000 = .fin false (2 ^ 23) (-24) from by decide +kernel]; norm_num [ratOf]
theorem rat_quarter : ratOf (FTy.f32.fmt.decode 0x3E800000) = some (1 / 4) := by
  rw [show FTy.f32.fmt.decode 0x3E800000 = .fin false (2 ^ 23) (-25) from by decide +kernel]; norm_num [ratOf]
theorem rat_minus_one : ratOf (FTy.f32.fmt.decode 0xBF800000) = some (-1) := by
  rw [show FTy.f32.fmt.decode 0xBF800000 = .fin true (2 ^ 23) (-23) from by decide +kernel]; norm_num [ratOf]

theorem witness_PredicatesAreWritten :
    (predDest (.pset hdAll 7 2) = some (hdAll, 7) ∧ (7 : PReg) ≠ 0) ∧
    (let s := solo { crew0 with tflags := 0x10, v := [(2, ⟨2, true, mkRow fun _ => 0x3F800000⟩)] }
     (1 : PReg) ≠ 0 ∧ s.me.tflags.getLsbD 4 = true ∧ (s.me.gov hdAll).getLsbD 31 = true ∧
       ∀ l, l < 32 → FTy.f32.fmt.decode (fIn s.me .f32 2 l) = FTy.f32.fmt.decode 0x3F800000 ∧
         (FTy.f32.fmt.decode (fIn s.me .f32 2 l)).isSig = false ∧ (FTy.f32.fmt.decode (fIn s.me .f32 4 l)).isSig = false) := by
  decide +kernel
theorem witness_CarryMaskClassAndBlockResults :
    (1 : PReg) ≠ 0 ∧ 8 ≤ (solo crew0).me.alloc ∧ ((solo crew0).me.gov hdAll).getLsbD 31 = true ∧
    NoLaneTraps (solo { crew0 with tflags := 0x3F }).me (.vpack hdAll .pb4 2 4) (solo { crew0 with tflags := 0x3F }).me.active := by
  unfold NoLaneTraps; decide +kernel
theorem witness_FlaggingInstructionsWriteTheirLanes :
    let c := (solo { crew0 with tflags := 1 }).me
    flagLaneDest c (.vfdiv hdAll .rn .f64 2 4 6) = some (0xFFFFFFFF, true, 2) ∧
    NoLaneTraps c (.vfdiv hdAll .rn .f64 2 4 6) 0xFFFFFFFF := by
  unfold NoLaneTraps; decide +kernel
theorem witness_FlaggingResults :
    let c := (solo { crew0 with tflags := 1 }).me
    flagLaneDest c (.vfdiv hdAll .rn .f32 2 4 6) = some (0xFFFFFFFF, false, 2) ∧
    flagLane c 31 (.vfdiv hdAll .rn .f32 2 4 6) = some ⟨0x7FC00000, flNV⟩ ∧ (0xFFFFFFFF : W32).getLsbD 31 = true ∧
    8 ≤ c.alloc ∧ NoLaneTraps c (.vfdiv hdAll .rn .f32 2 4 6) 0xFFFFFFFF := by
  unfold NoLaneTraps; decide +kernel
theorem witness_ResultsAreRoundedOnce :
    (FTy.f32.fmt.round .rn true 1 3 (-140)).fl &&& flOF = 0 ∧ (FTy.f32.fmt.round .rn true 1 3 140).fl &&& flOF ≠ 0 ∧
    (∃ x y, ratOf (FTy.f32.fmt.decode 0x3F800000) = some x ∧ ratOf (FTy.f32.fmt.decode 0x40000000) = some y ∧ y ≠ 0 ∧ 0 < x) ∧
    ∃ x y, ratOf (FTy.f32.fmt.decode 0) = some x ∧ ratOf (FTy.f32.fmt.decode 0) = some y ∧ x = 0 :=
  ⟨by decide +kernel, by decide +kernel, ⟨1, 2, rat_one, rat_two, by norm_num, by norm_num⟩, 0, 0, rat_zero, rat_zero, rfl⟩
theorem witness_NanResultsAreTheDefaultNan :
    (let c := (solo { crew0 with tflags := 1 }).me
     arithFmt (.vfsqrt hdAll .rn .f16 2 4) = some .f16 ∧ flagLaneDest c (.vfsqrt hdAll .rn .f16 2 4) = some (0xFFFFFFFF, false, 2) ∧
       8 ≤ c.alloc ∧ NoLaneTraps c (.vfsqrt hdAll .rn .f16 2 4) 0xFFFFFFFF) ∧
    (let inf := fmt32.decode 0x7F800000
     let nan := fmt32.decode 0x7F800001
     let one := fmt32.decode 0x3F800000
     specialSum fmt32 inf inf.neg = some (invalid fmt32) ∧ specialMul fmt32 inf one = some (infRes fmt32 false) ∧
       specialMul fmt32 inf (fmt32.decode 0) = some (invalid fmt32) ∧ specialDiv fmt32 one (fmt32.decode 0) = some ⟨0x7F800000, flDZ⟩ ∧
       specialRoot fmt32 one.neg = some (invalid fmt32) ∧ specialMul fmt32 one one = none ∧ one.isNan = false ∧ nan.isNan = true ∧
       inf = .inf false) := by
  unfold NoLaneTraps; decide +kernel
theorem witness_ApproximationsAreExactInTheExactColumn :
    FTy.f32 ≠ .f64 ∧ 0xFF800001 < 2 ^ FTy.f32.fmt.width ∧ FTy.f32.fmt.decode 0xFF800001 = .nan true ∧ FTy.f32.fmt.decode 0xFF800000 = .inf true ∧
    (∃ x, ratOf (FTy.f32.fmt.decode 0) = some x ∧ x = 0) ∧ (∃ x, ratOf (FTy.f32.fmt.decode 0xBF800000) = some x ∧ x < 0) ∧
    (∃ x, ratOf (FTy.f32.fmt.decode 0x3F800000) = some x ∧ |x| = (2 : ℚ) ^ (0 : ℤ) ∧ (∃ b, holdsRat FTy.f32.fmt b ((2 : ℚ) ^ (-0 : ℤ))) ∧
      x = (4 : ℚ) ^ (0 : ℤ) ∧ x = ((1 : ℤ) : ℚ) ∧ FTy.f32.fmt.emin ≤ 1 ∧ ∃ b, holdsRat FTy.f32.fmt b ((2 : ℚ) ^ (1 : ℤ))) ∧
    ∃ x, ratOf (FTy.f32.fmt.decode 0x3F000000) = some x ∧ x = ((0 : ℤ) : ℚ) + 1 / 2 :=
  ⟨by decide, by decide +kernel, by decide +kernel, by decide +kernel, ⟨0, rat_zero, rfl⟩, ⟨-1, rat_minus_one, by norm_num⟩,
    ⟨1, rat_one, by norm_num, ⟨0x3F800000, by decide +kernel, by rw [rat_one]; norm_num⟩, by norm_num, by norm_num, by decide +kernel,
      ⟨0x40000000, by decide +kernel, by rw [rat_two]; norm_num⟩⟩, ⟨1 / 2, rat_half, by norm_num⟩⟩
theorem witness_ApproximationsStayInTheirBounds :
    FTy.f32 ≠ .f64 ∧ 0x3E800000 < 2 ^ FTy.f32.fmt.width ∧ ratOf (FTy.f32.fmt.decode 0x3E800000) = some (1 / 4) ∧
    ¬ExactCase .sin FTy.f32.fmt (1 / 4) ∧ ApproxFn .sin ((1 / 4 : ℚ) : ℝ) (Real.sin (Real.pi * ((1 / 4 : ℚ) : ℝ))) := by
  refine ⟨by decide, by decide +kernel, rat_quarter, ?_, rfl⟩
  rintro ⟨n, h⟩
  have h4 : (4 * n : ℤ) = 1 := by exact_mod_cast (by linarith : (4 : ℚ) * n = 1)
  omega
/-- A crew of which lane 31 divides by zero, and one whose lanes compare with, or pack, a signalling NaN. -/
def divides : State := solo { crew0 with tflags := 0x20, v := [(6, ⟨6, true, mkRow fun l => if l = 31 then 0 else 1⟩)] }
def signals : State := solo { crew0 with tflags := 0x10, v := [(6, ⟨6, true, mkRow fun l => if l = 31 then 0x7F800001 else 0⟩)] }
theorem witness_EnabledConditionsTrapTheirLanes :
    (flagLaneDest divides.me (.vdiv hdAll .i32 false 2 4 6) = some (0xFFFFFFFF, false, 2) ∧ divides.me.kind = .normal ∧ 8 ≤ divides.me.alloc ∧
      (maskOf fun l => (0xFFFFFFFF : W32).getLsbD l && (divides.me.tflags &&& flagConds divides.me l (.vdiv hdAll .i32 false 2 4 6)) != 0) =
        0x80000000) ∧
    (signals.me.kind = .normal ∧ signals.me.tflags.getLsbD 4 = true ∧ (1 : PReg) ≠ 0 ∧
      (maskOf fun l => (signals.me.gov hdAll).getLsbD l && ((fmt32.decode (fIn signals.me .f32 4 l)).isSig ||
        (fmt32.decode (fIn signals.me .f32 6 l)).isSig)) = 0x80000000) ∧
    (8 ≤ signals.me.alloc ∧ (maskOf fun l => (signals.me.gov hdAll).getLsbD l &&
      (signals.me.tflags &&& flagConds signals.me l (.vpack hdAll .pb4 2 6)) != 0) = 0xFFFF0000) := by decide +kernel

/-! Control flow -/

/-- A crew with a target in s1. -/
def aims (a : W64) : State := mapped { crew0 with s := [(1, a)], v := [(8, ⟨8, true, mkRow fun _ => 0x10000⟩)] }

theorem goodTarget_header : GoodTarget (aims 0x10000) 0x10000 := ⟨placeHeader, by decide +kernel, by decide +kernel, by decide +kernel⟩
theorem witness_BranchesSetPendingBlocks :
    (branchOf (aims 0x10000).me (.brx 0 1 0) = some (true, 0x10000) ∧ GoodTarget (aims 0x10000) 0x10000) ∧
    branchOf (aims 0x10000).me (.brz 0 1 0) = some (false, 0x10008) ∧
    ((aims 0).me.gov hdAll ≠ 0 ∧ (aims 0x10000).me.pc + BitVec.ofNat 64 (8 * (aims 0x10000).me.widx) + 8 * (0x3FFFFFFF : BitVec 30).signExtend 64 = 0x10000) ∧
    (aims 0).me.gov hdP1 = 0 ∧
    ∀ l, l < 32 → (aims 0x10000).me.vpl 8 l = 0x10000 :=
  ⟨⟨by decide +kernel, goodTarget_header⟩, by decide +kernel, ⟨by decide +kernel, by decide +kernel⟩, by decide +kernel,
    by decide +kernel⟩
/-- A target as a check. -/
def goodB (s : State) (va : W64) : Bool :=
  match s.fetch s.cur va with
  | .ok w => decide (va.toNat % 8 = 0) && w.extractLsb' 56 8 == 0xFF
  | .error _ => false
theorem goodB_iff (s : State) (va : W64) : goodB s va = true ↔ GoodTarget s va := by
  unfold goodB GoodTarget
  cases s.fetch s.cur va <;> simp
theorem bad_of_check {s : State} {va : W64} (h : goodB s va = false) : ¬GoodTarget s va :=
  fun g => absurd ((goodB_iff s va).mpr g) (by rw [h]; decide)
/-- A fetch that fails, as a check. -/
def unmappedB (s : State) (va : W64) : Bool := match s.fetch s.cur va with | .ok _ => false | .error _ => true
theorem unmappedB_iff (s : State) (va : W64) : unmappedB s va = true ↔ ∃ e, s.fetch s.cur va = .error e := by
  unfold unmappedB
  cases s.fetch s.cur va <;> simp
theorem mapped_of_check {s : State} {va : W64} {p : Prop} (h : unmappedB s va = false) : ¬(p ∧ ∃ e, s.fetch s.cur va = .error e) :=
  fun g => absurd ((unmappedB_iff s va).mpr g.2) (by rw [h]; decide)
/-- A crew whose lanes 5 to 31 aim at a. -/
def aimsLanes (a : Nat) : State := mapped { crew0 with v := [(8, ⟨8, true, mkRow fun l => if l < 5 then 0x10000 else BitVec.ofNat 32 a⟩)] }
theorem witness_BadTargetsTrap :
    ((aims 0).me.kind = .normal ∧ branchOf (aims 0x40000000).me (.brx 0 1 0) = some (true, 0x40000000) ∧
      callOf (aims 0x10004).me (.callx 0 2047 1) = some (2047, 0x10004) ∧
      (aims 0x40000000).fetch (aims 0).cur 0x40000000 = .error 2 ∧
      (aims 0x10004).fetch (aims 0).cur 0x10004 = .ok (((aims 0x10004).fetch (aims 0).cur 0x10004).toOption.getD 0) ∧
      (0x10004 : W64).toNat % 8 ≠ 0 ∧
      (aims 0x10008).fetch (aims 0).cur 0x10008 = .ok 0x2700000000000000 ∧ (0x2700000000000000 : W64).extractLsb' 56 8 ≠ 0xFF) ∧
    (let s := aimsLanes 0x40000000
     s.me.kind = .normal ∧ (s.me.gov hdAll).getLsbD 5 = true ∧ s.fetch s.cur (s.me.vpl 8 5) = .error 2 ∧
       ∀ j, j < 5 → ¬((s.me.gov hdAll).getLsbD j = true ∧ ∃ e, s.fetch s.cur (s.me.vpl 8 j) = .error e)) ∧
    (let s := aimsLanes 0x10004
     (∀ j, j < 32 → ¬((s.me.gov hdAll).getLsbD j = true ∧ ∃ e, s.fetch s.cur (s.me.vpl 8 j) = .error e)) ∧
       ((s.me.gov hdAll).getLsbD 5 = true ∧ ¬GoodTarget s (s.me.vpl 8 5)) ∧ ∀ j, j < 5 → GoodTarget s (s.me.vpl 8 j)) :=
  ⟨by decide +kernel,
    ⟨by decide +kernel, by decide +kernel, by decide +kernel, fun j hj => mapped_of_check
      ((by decide +kernel : ∀ j, j < 5 → unmappedB (aimsLanes 0x40000000) ((aimsLanes 0x40000000).me.vpl 8 j) = false) j hj)⟩,
    fun j hj => mapped_of_check
      ((by decide +kernel : ∀ j, j < 32 → unmappedB (aimsLanes 0x10004) ((aimsLanes 0x10004).me.vpl 8 j) = false) j hj),
    ⟨by decide +kernel, bad_of_check (by decide +kernel)⟩,
    fun j hj => (goodB_iff _ _).mp
      ((by decide +kernel : ∀ j, j < 5 → goodB (aimsLanes 0x10004) ((aimsLanes 0x10004).me.vpl 8 j) = true) j hj)⟩
theorem witness_CallsPushAFrame :
    callOf (aims 0x10000).me (.callx 0 2047 1) = some (2047, 0x10000) ∧ GoodTarget (aims 0x10000) 0x10000 ∧
    (aims 0x10000).me.depth < 4096 ∧
    (let s := mapped { crew0 with s := [(1, 0x10000)], depth := 4096 }
     callOf s.me (.callx 0 2047 1) = some (2047, 0x10000) ∧ GoodTarget s 0x10000 ∧ s.me.kind = .normal) :=
  ⟨by decide +kernel, goodTarget_header, by decide +kernel, by decide +kernel, (goodB_iff _ _).mp (by decide +kernel), by decide +kernel⟩
/-- A frame of all lanes. -/
def frame0 : Frame := { ret := 0x10000, fmask := 0xFFFFFFFF, rmask := 0, basep := 3, slide := 4 }
theorem witness_RetPopsAFrameWhenItsLanesHaveReturned :
    ((solo crew0).me.frames = [] ∧ (solo crew0).me.kind = .normal) ∧
    (let s := solo { crew0 with active := 1, frames := [frame0] }
     s.me.frames = [frame0] ∧ frame0.fmask &&& s.me.live &&& ~~~(frame0.rmask ||| s.me.active) ≠ 0) ∧
    (let s := mapped { crew0 with frames := [frame0], depth := 1 }
     s.me.frames = [frame0] ∧ s.me.live ≠ 0 ∧ frame0.fmask &&& s.me.live &&& ~~~(frame0.rmask ||| s.me.active) = 0 ∧
       s.fetch s.cur frame0.ret = .ok placeHeader ∧ s.me.depth ≤ 1) ∧
    (let s := mapped { crew0 with frames := [frame0, frame0], depth := 2 }
     s.me.frames = [frame0, frame0] ∧ frame0.fmask &&& s.me.live &&& ~~~frame0.rmask ≠ 0) ∧
    (let s := mapped { crew0 with frames := [frame0], depth := 2 }
     s.me.frames = [frame0] ∧ 1 < s.me.depth ∧ s.me.live ≠ 0 ∧ frame0.fmask &&& s.me.live &&& ~~~(frame0.rmask ||| s.me.active) = 0 ∧
       s.fetch s.cur frame0.ret = .ok placeHeader) := by decide +kernel
/-- A handler crew of one lane, whose origin is lane 7 of the crew in slot 0. -/
def tag0 : LaneTag :=
  { crew := 0, lane := 7, since := 0, word := 0, pc := 0, widx := 1, flags := 0x20, code := 0, a := 1, b := 0, c := 0, old := 0
    dest := some (2, false), predDest := none, lctr := 0 }
def handles : State :=
  { solo crew0 with
    cur := 96
    crews := [(0, { crew0 with phase := .lanesOut, out := 0x80 }), (96, { crew0 with kind := .handler, released := true, live := 1, active := 1, tags := [tag0] })] }
/-- A frame of which all lanes but 0 have returned, and a crew of which lane 0 alone is active inside calls. -/
def frame1 : Frame := { frame0 with rmask := 0xFFFFFFFE }
def inside (fs : List Frame) (depth : Nat) : State := mapped { crew0 with active := 1, p := [(1, 2)], frames := fs, depth }
theorem witness_ExitRemovesLanesAndNopDoesNothing :
    ((solo crew0).me.kind = .normal ∧ (solo crew0).me.frames = []) ∧
    ((inside [frame0] 1).me.kind = .normal ∧ (inside [frame0] 1).me.active &&& ~~~((inside [frame0] 1).me.gov hdP1) ≠ 0) ∧
    (let s := inside [frame0] 1
     s.me.active &&& ~~~(s.me.gov hdAll) = 0 ∧ frame0.fmask &&& (s.me.live &&& ~~~(s.me.gov hdAll)) &&& ~~~frame0.rmask ≠ 0) ∧
    (let s := mapped { crew0 with frames := [frame0], depth := 1 }
     s.me.active &&& ~~~(s.me.gov hdAll) = 0 ∧ s.me.live &&& ~~~(s.me.gov hdAll) = 0) ∧
    (∀ s, s = inside [frame1] 1 ∨ s = inside [frame1, frame0] 2 ∨ s = inside [frame1] 2 →
      s.me.frames.head? = some frame1 ∧ s.me.active &&& ~~~(s.me.gov hdAll) = 0 ∧ s.me.live &&& ~~~(s.me.gov hdAll) ≠ 0 ∧
      frame1.fmask &&& (s.me.live &&& ~~~(s.me.gov hdAll)) &&& ~~~frame1.rmask = 0 ∧
      frame0.fmask &&& (s.me.live &&& ~~~(s.me.gov hdAll)) &&& ~~~frame0.rmask ≠ 0 ∧ GoodTarget s frame1.ret) ∧
    (let s := solo { crew0 with kind := .handler }
     s.me.kind = .handler ∧ s.me.released = false) ∧
    (handles.me.kind = .handler ∧ handles.me.released = true ∧ handles.me.frames = [] ∧ (handles.me.gov hdAll).getLsbD 0 = true ∧
      ∀ (l : Nat) (g : LaneTag), handles.me.tags[l]? = some g →
        g.crew ≠ handles.cur ∧ g.lane < 32 ∧ handles.hasCrew g.crew = true ∧ (handles.crew g.crew).kind = .normal) := by
  refine ⟨by decide +kernel, by decide +kernel, by decide +kernel, by decide +kernel, ?_, by decide +kernel, by decide +kernel,
    by decide +kernel, by decide +kernel, by decide +kernel, ?_⟩
  · rintro s (rfl | rfl | rfl) <;>
      exact ⟨by decide +kernel, by decide +kernel, by decide +kernel, by decide +kernel, by decide +kernel,
        (goodB_iff _ _).mp (by decide +kernel)⟩
  · intro l g h
    rw [show handles.me.tags = [tag0] from by decide +kernel] at h
    cases l with
    | zero => cases h; decide +kernel
    | succ l => cases h
theorem witness_SpecialRegistersAreReadAndWritten :
    (95 : SReg) ≠ 0 ∧ 8 ≤ (solo crew0).me.alloc ∧ ((solo crew0).me.gov hdAll).getLsbD 31 = true ∧
    SpecReg.writable .window = true ∧ SpecReg.privileged .window = true ∧ (solo { crew0 with priv := true }).me.priv = true ∧
    (solo crew0).me.priv = false ∧ (solo crew0).me.kind = .normal ∧ LogicalDie (mapped crew0) 0 ∧
    uniformSpec (mapped crew0) 0 .core = some 0 := by
  unfold LogicalDie; decide +kernel
theorem witness_TimeNeverGoesBack : (1 : SReg) ≠ 0 ∧ (solo crew0).datum.count < 2 ^ 64 ∧ (solo crew0).datum.last < 2 ^ 64 := by
  decide +kernel


/-! Memory -/

/-- Reaches, as a check. -/
def reachesB (s : State) (need : Need) (w : Nat) (reqs : List (Nat × W64)) (as : List Acc) : Bool :=
  reqs.all (fun r => r.2.toNat % w == 0) && as.map (fun a => (a.lane, a.va)) == reqs &&
    as.all fun a => match s.xlate s.me.ctx a.va need with
      | .ok pa => a.loc == s.locOf s.me.ctx pa
      | .error _ => false

theorem reaches_of_check {s : State} {need : Need} {w : Nat} {reqs : List (Nat × W64)} {as : List Acc}
    (h : reachesB s need w reqs as = true) : Reaches s need w reqs as := by
  simp only [reachesB, Bool.and_eq_true, List.all_eq_true, beq_iff_eq] at h
  obtain ⟨⟨h1, h2⟩, h3⟩ := h
  refine ⟨h1, h2, fun a ha => ?_⟩
  have h4 := h3 a ha
  split at h4
  · next pa hp => exact ⟨pa, hp, by simpa using h4⟩
  · cases h4

/-- A crew that points at 0x20000, whose line its core holds. Lanes 0 and 31 have p1. -/
def loads : State :=
  { mapped { crew0 with s := [(1, 0x20000), (2, 5)], p := [(1, 0x80000001)], v := [(8, ⟨8, true, zeroRow⟩)] } with
    cores := [(0, { l1 := [⟨0x400, 0, 31, List.replicate 32 7, 0, 0, 0, [], []⟩] })] }
def acc0 (l : Nat) : Acc := ⟨l, 0x20000, 0x20000⟩

theorem reaches_scalar (need : Need) : Reaches loads need 4 [(32, addrIdx loads.me 1 none 0 4 32)] [acc0 32] := by
  cases need <;> exact reaches_of_check (by decide +kernel)
theorem reaches_lanes (need : Need) :
    Reaches loads need 4 (lanesAt (loads.me.gov hdP1) (addrIdx loads.me 1 none 0 4)) [acc0 0, acc0 31] := by
  cases need <;> exact reaches_of_check (by decide +kernel)
theorem inReach_scalar : InReach loads [acc0 32] 4 := ⟨by decide +kernel, by decide +kernel, by decide +kernel, by decide +kernel⟩
theorem inReach_lanes : InReach loads [acc0 0, acc0 31] 4 :=
  ⟨by decide +kernel, by decide +kernel, by decide +kernel, by decide +kernel⟩

theorem witness_AccessesThatCannotBeMadeTrap :
    loads.me.kind = .normal ∧
    (accessOf loads.me (.satom 0 .xchg (.int .i32) .die .rlx false 3 4 2) = some (.both, 4, [(32, 5)]) ∧
      [(32, (5 : W64))].filter (fun r : Nat × W64 => decide (r.2.toNat % 4 ≠ 0)) = [(32, 5)]) ∧
    (accessOf (aims 0x40000000).me (.sld 0 .w none 3 1 0) = some (.read, 4, [(32, 0x40000000)]) ∧
      [(32, (0x40000000 : W64))].filter (fun r : Nat × W64 =>
        match (aims 0x40000000).xlate 0 r.2 .read with | .ok _ => false | .error _ => true) = [(32, 0x40000000)] ∧
      (aims 0x40000000).xlate 0 0x40000000 .read = .error 2) := by decide +kernel
/-- A package whose first GiB may be read and executed, and not written. -/
def readOnly : State := { aims 0 with mem := memPut (aims 0).mem [((aims 0).locOf 0 0x3000, 0xCB)] }
theorem witness_TranslationAnswers :
    readOnly.xlate 0 0x0100000000000000 .read = .error 1 ∧ readOnly.xlate 0 0x20004 .read = .ok 0x20004 ∧
    readOnly.xlate 0 0x40000000 .read = .error 2 ∧ readOnly.xlate 0 0x20004 .write = .error 3 := by decide +kernel
/-- The reorder checker is off, or it sees nothing that the load overtakes. -/
theorem inOrder_loads (o : Option Scope) (locs : List Nat) : InOrder loads o locs :=
  .inr fun _ _ => by unfold winBad; rw [show (loads.core loads.myCore).window = [] from by decide +kernel]
theorem witness_LoadsDeliverTheirBytes :
    (Reaches loads .read 4 [(32, addrIdx loads.me 1 none 0 4 32)] [acc0 32] ∧ InReach loads [acc0 32] 4 ∧
      InOrder loads (some .sys) (accLocs [acc0 32] 4)) ∧
    (∃ reqs, accessOf loads.me (.vld hdP1 .w none 3 1 none 0) = some (.read, 4, reqs) ∧ 8 ≤ loads.me.alloc ∧
      Reaches loads .read 4 reqs [acc0 0, acc0 31] ∧ InReach loads [acc0 0, acc0 31] 4) ∧
    (∃ reqs, accessOf loads.me (.vgth hdP1 .w none 3 1 8 0) = some (.read, 4, reqs) ∧ Reaches loads .read 4 reqs [acc0 0, acc0 31]) :=
  ⟨⟨reaches_scalar _, inReach_scalar, inOrder_loads _ _⟩, ⟨_, rfl, by decide +kernel, reaches_lanes _, inReach_lanes⟩,
    ⟨_, rfl, reaches_of_check (by decide +kernel)⟩⟩
/-- The same crew in its turn. -/
def turned : State := { loads with crews := [(0, { loads.me with released := true })] }
theorem witness_StoresHoldTheirBytes :
    (∃ reqs, accessOf loads.me (.vst hdP1 .w none 3 1 none 0) = some (.write, 4, reqs) ∧
      storeOrder (.vst hdP1 .w none 3 1 none 0) = some none ∧ Reaches loads .write 4 reqs [acc0 0, acc0 31]) ∧
    (accessOf loads.me (.sst 0 .w (some .sys) 3 1 0) = some (.write, 4, [(32, 0x20000)]) ∧
      storeOrder (.sst 0 .w (some .sys) 3 1 0) = some (some .sys) ∧ Reaches loads .write 4 [(32, 0x20000)] [acc0 32]) ∧
    locCtl 0x20000 = false :=
  ⟨⟨_, rfl, rfl, reaches_lanes _⟩, ⟨by decide +kernel, by decide +kernel, reaches_of_check (by decide +kernel)⟩, by decide +kernel⟩
theorem witness_AccessesWaitAndPrefetchesChangeNothing :
    let s := aims 0x20000
    accessOf s.me (.sld 0 .w none 3 1 0) = some (.read, 4, [(32, 0x20000)]) ∧ reachesB s .read 4 [(32, 0x20000)] [acc0 32] = true ∧
      s.atomPending s.cur (accLocs [acc0 32] 4) = false ∧
      spansOf (((accLocs [acc0 32] 4).filter fun a => !locCtl a).map fun a => (a, (0 : Byte))) = [(0x400, 0, 0)] ∧
      ((s.core s.myCore).copy? 0x400 0 0).isNone = true := by decide +kernel

/-! Plates -/

/-- The party's plates: number 3 of one granule, number 4 which the copy engine holds; a pool of two granules and a band of 16
rows on the crew's core, and barriers and queues. -/
def party0 : Party :=
  { ncrews := 3, crews := [0], cores := [0], pool := [(0, 0, 3)], bands := [(0, 0, 16)]
    plates := [{ num := 3, core := 0, base := 0, grans := 1 }, { num := 4, core := 0, base := 1, grans := 1, owner := true, eng := 1 }]
    bars := [(1, { mask := 7, cur := 5, arrived := [2, 0, 0, 1] }), (2, { mask := 6 })]
    queues := [(1, { depth := 2, producers := 1, allow := [(0, 1)] }), (2, { depth := 2, producers := 1, items := [⟨9, []⟩] }),
      (3, { event := true }), (4, { depth := 2, producers := 2, allow := [(0, 1)] })] }
/-- The crew of that party: t1 and t2 name plates 3 and 4, a1 names rows 0 to 15 and columns 0 to 15. -/
def crewP : Crew := { crew0 with t := [(1, 3), (2, 4)], a := [(1, 0x000F0000), (2, 0x100F0000)], p := [(1, 0x80000001)], s := [(1, 2), (2, 0x3FF), (3, 0xFFFFFFFFFFFFFFFF)] }
def plates : State := { solo crewP with parties := [(0, party0)] }
def plate3 : Plate := { num := 3, core := 0, base := 0, grans := 1 }
def plate4 : Plate := { num := 4, core := 0, base := 1, grans := 1, owner := true, eng := 1 }

/-- The same crew, whose turn has come. -/
def platesTurn : State := { plates with crews := [(0, { crewP with released := true })] }
theorem turn_plates : Turn platesTurn := ⟨by decide +kernel, by decide +kernel⟩

/-- The crew with a `patom` on the last word of plate 3 still in the core. -/
def platesPatom : State :=
  let g : AtomGroup := { token := 0, crew := 0, owner := 0, op := .red .add, ty := .int .n32, sat := false, returns := true,
                         opc := 0, ctx := 0, lctr := 0, reqs := [⟨0, 0x3FC, 0x3FC, 1, 0⟩] }
  { plates with crews := [(0, { crewP with held := [⟨0, .plateAtom 0 3 g, none, []⟩] })] }

theorem witness_PlateAccessesCompleteOrTrap :
    ((solo crew0).me.gov hdP1 = 0) ∧
    (noPatomHeld plates plate3 2 [(0, 0x3FE), (31, 0x3FE)] ∧ noPatomHeld plates plate3 1 [(32, 0x3FF)] ∧
      ¬noPatomHeld platesPatom plate3 1 [(32, 0x3FF)] ∧ ¬noPatomHeld platesPatom plate3 2 [(0, 0x3FE), (31, 0x3FE)]) ∧
    (crewAfter (.sldp 0 .b 5 1 2 0) platesPatom).phase = .waiting .load ∧
    (∃ offs, Machine.plateOf plates.me (.vldp hdP1 .h 5 1 1 none 510) = some (1, 2, offs) ∧ offs ≠ [] ∧ PlateReach plates 1 2 offs plate3 ∧
      plateClean plates plate3 offs ∧ 8 ≤ plates.me.alloc) ∧
    (∃ offs, Machine.plateOf plates.me (.sldp 0 .b 5 1 2 0) = some (1, 1, offs) ∧ offs ≠ [] ∧ PlateReach plates 1 1 offs plate3 ∧
      plateClean plates plate3 offs) ∧
    (∃ offs, Machine.plateOf plates.me (.vstp hdP1 .b 5 1 2 none 0) = some (1, 1, offs) ∧ offs ≠ [] ∧ PlateReach plates 1 1 offs plate3) ∧
    (plates.me.kind = .normal ∧ plates.plate? 9 = none ∧ plates.plate? 2 = some plate4 ∧ plate4.owner = true ∧
      plates.plate? 1 = some plate3 ∧ plate3.owner = false ∧
      Machine.plateOf plates.me (.sldp 0 .h 5 1 2 0) = some (1, 2, [(32, 0x3FF)]) ∧
      [(32, (0x3FF : Int))].filter (fun o : Nat × Int => decide (o.2 % (2 : Int) ≠ 0)) = [(32, 0x3FF)] ∧
      Machine.plateOf plates.me (.sldp 0 .b 5 1 2 1) = some (1, 1, [(32, 0x400)]) ∧
      [(32, (0x400 : Int))].filter (fun o : Nat × Int => decide (o.2 < 0 ∨ ((1024 * plate3.grans : Nat) : Int) < o.2 + (1 : Int))) =
        [(32, 0x400)]) :=
  ⟨by decide +kernel, by unfold noPatomHeld; decide +kernel, by decide +kernel,
    ⟨_, rfl, by decide +kernel, ⟨by decide +kernel, by decide +kernel, by decide +kernel, by decide +kernel⟩,
      by unfold plateClean; decide +kernel, by decide +kernel⟩,
    ⟨_, rfl, by decide +kernel, ⟨by decide +kernel, by decide +kernel, by decide +kernel, by decide +kernel⟩,
      by unfold plateClean; decide +kernel⟩,
    ⟨_, rfl, by decide +kernel, ⟨by decide +kernel, by decide +kernel, by decide +kernel, by decide +kernel⟩⟩, by decide +kernel⟩

/-! Atomics and fences -/

theorem witness_AtomicsSendTheirRequests :
    Reaches loads .both 4 (lanesAt (loads.me.gov hdP1) (addrIdx loads.me 1 none 0 4)) [acc0 0, acc0 31] ∧
    Reaches loads .both 4 [(32, loads.me.sv 1)] [acc0 32] ∧
    Reaches loads .write 4 (lanesAt (loads.me.gov hdP1) (addrIdx loads.me 1 none 0 4)) [acc0 0, acc0 31] ∧
    Reaches (solo crew0) .both 4 (lanesAt ((solo crew0).me.gov hdP1) (addrIdx (solo crew0).me 1 none 0 4)) [] ∧
    (solo crew0).me.gov hdP1 = 0 ∧
    (∃ offs, Machine.plateOf plates.me (.patom hdP1 .xchg (.int .n32) true .ar false 4 1 none) = some (1, 4, offs) ∧ offs ≠ [] ∧
      PlateReach plates 1 4 offs plate3) :=
  ⟨reaches_lanes _, reaches_of_check (by decide +kernel), reaches_lanes _, reaches_of_check (by decide +kernel), by decide +kernel,
    ⟨_, rfl, by decide +kernel, ⟨by decide +kernel, by decide +kernel, by decide +kernel, by decide +kernel⟩⟩⟩
theorem witness_AtomicOperationResults :
    (ITy.i32.bits = 32 ∧ ITy.n64.bits = 64) ∧ FTy.f32 ≠ .f16 ∧ 0x3F800000 < 2 ^ FTy.f32.bits ∧
    (∃ p q, ratOf (FTy.f32.fmt.decode 0x3F800000) = some p ∧ ratOf (FTy.f32.fmt.decode 0x40000000) = some q) ∧
    (∃ p q, ratOf (FTy.f32.fmt.decode 0) = some p ∧ ratOf (FTy.f32.fmt.decode 0) = some q ∧ p = 0 ∧ q = 0) ∧
    (let nan := FTy.f32.fmt.decode 0x7FC00000
     let one := FTy.f32.fmt.decode 0x3F800000
     specialSum FTy.f32.fmt nan one = some (nanRes FTy.f32.fmt [nan, one]) ∧ nan.isNan = true ∧ one.isNan = false) :=
  ⟨by decide, by decide, by decide, ⟨1, 2, rat_one, rat_two⟩, ⟨0, 0, rat_zero, rat_zero, rfl, rfl⟩, by decide +kernel⟩
theorem witness_FencesAndCacheMaintenanceComplete :
    (turned.me.released = true ∧ loads.me.released = false ∧ Scope.dev ≠ .crew) ∧
    (canonical (loads.me.ea 1 0 1) = true ∧ (loads.walk loads.me.ctx (loads.me.ea 1 0 1)).isSome = true) ∧
    (solo { crew0 with priv := true }).me.priv = true ∧ loads.me.priv = false ∧ loads.me.kind = .normal ∧
    0 ∈ loads.coresIn .clus 0 := by decide +kernel

/-! The plates' records, the array, the engines -/

theorem witness_PlatesAreReservedBoundAndReleased :
    (Turn platesTurn ∧ FreeNum platesTurn.myParty 0 ∧
      FreeRun platesTurn.myParty (4 * platesTurn.myParty.cluster + Machine.tresCore platesTurn none) 1 2) ∧
    (∀ g < 512, platesTurn.myParty.freeRun (4 * platesTurn.myParty.cluster + Machine.tresCore platesTurn none) g (1 + 1) = false) ∧
    (platesTurn.plate? 1 = some plate3 ∧ plate3.owner = false) ∧
    ((platesTurn.me.sv 3).toNat % 256 = 255 ∧ (∀ q ∈ platesTurn.myParty.plates, q.num ≠ 255) ∧ platesTurn.me.kind = .normal) ∧
    (let s := { platesTurn with crews := [(0, { crewP with s := [(1, 3)] })] }
     ∃ q ∈ s.myParty.plates, q.num = (s.me.sv 1).toNat % 256) :=
  ⟨⟨turn_plates, ⟨by decide +kernel, by decide +kernel, by decide +kernel⟩, by decide +kernel, by decide +kernel, by decide +kernel⟩,
    by decide +kernel, by decide +kernel, by decide +kernel, by decide +kernel⟩
theorem witness_tres_no_number :
    let p : Party := { plates := (List.range 256).map fun n => { num := n, core := 0, base := n, grans := 1 } }
    ∀ j < 256, ∃ q ∈ p.plates, q.num = j := by decide +kernel
theorem witness_PlateRecordsAreRead :
    plates.plate? 1 = some plate3 ∧ (95 : SReg) ≠ 0 ∧ plate3.num < 256 ∧ 1 ≤ plate3.grans ∧ plate3.grans ≤ 256 ∧ plate3.core < 4 ∧
    plate3.base < 512 ∧ plates.plate? 9 = none ∧ plates.me.kind = .normal := by decide +kernel

theorem witness_ArrayCommandsJoinTheOrderOfTheirCore :
    Turn platesTurn ∧ MatReady platesTurn (.int .i8) 1 1 1 0 0 (16 * ((0 : BitVec 8).toNat + 1)) plate3 plate3 ∧
    (platesTurn.core platesTurn.myCore).array.length < 64 ∧ (platesTurn.core 1).array.length < 64 ∧
    TransferReady platesTurn false true 1 1 0 plate3 ∧ TransferReady platesTurn true false 1 1 0 plate3 ∧
    InBand platesTurn (regOf platesTurn.me 1) := by
  refine ⟨turn_plates, ⟨?_, ?_, ?_, ?_, ?_, ?_, ?_, ?_, ?_⟩, ?_, ?_, ⟨?_, ?_, ?_, ?_, ?_⟩, ⟨?_, ?_, ?_, ?_, ?_⟩, ?_⟩ <;>
    first | decide +kernel | exact ⟨by decide +kernel, by decide +kernel⟩

/-- Crews with a closed batch, 7, that has retired or not. -/
def batched (retired : Bool) (n : W64) : State :=
  solo { crewP with released := true, batch := 7, closedB := [{ num := 7, retired }], s := [(1, n)] }
theorem witness_BatchesAreClosedWaitedAndPolled :
    (let s := batched false 0
     s.me.active = s.me.live ∧ (s.me.closedB.filter fun b => !b.retired).length < 16 ∧ (s.me.sv 1).setWidth 32 = (0 : W32)) ∧
    (let s := batched true 8
     let n := (s.me.sv 1).setWidth 32
     n ≠ 0 ∧ s.me.kind = .normal ∧ 2 ^ 31 ≤ (s.me.batch - n).toNat) ∧
    (let s := batched false 7
     let n := (s.me.sv 1).setWidth 32
     n ≠ 0 ∧ (s.me.batch - n).toNat < 2 ^ 31 ∧ ∃ b ∈ s.me.closedB, b.num = n ∧ b.retired = false) ∧
    (let s := batched true 7
     let n := (s.me.sv 1).setWidth 32
     n ≠ 0 ∧ (s.me.batch - n).toNat < 2 ^ 31 ∧ (∀ b ∈ s.me.closedB, b.num = n → b.retired = true) ∧ s.me.released = true ∧
       ∀ b ∈ s.me.closedB, b.due n = true → b.poison = none) ∧
    (let s := { plates with crews := [(0, { crewP with s := [] })] }
     (s.core s.myCore).array.length < 64 ∧ s.me.released = false) := by decide +kernel
theorem witness_acrd :
    let s := { plates with crews := [(0, { crewP with s := [], p := [(1, 0x8001)], released := true })] }
    (s.me.released = true ∧ 8 ≤ s.me.alloc ∧ (s.me.gov hdP1).getLsbD 15 = true) ∧ InBand s (regOf s.me 1) ∧ ∀ l, l < 32 → (s.me.gov hdP1).getLsbD l = true →
      0 < (regOf s.me 1).rows ∧ l < (regOf s.me 1).cols ∧
      (s.core s.myCore).accPoison.contains (((regOf s.me 1).row0 * 256 + (regOf s.me 1).col0 + l) / 8) = false :=
  ⟨by decide +kernel, ⟨by decide +kernel, by decide +kernel, by decide +kernel⟩, by decide +kernel⟩

theorem witness_EngineCommandsFlipTheirPlate :
    (Turn platesTurn ∧ EngineReady platesTurn 1 (some 3) plate3) ∧
    (layValid 0 = true ∧ (∀ x ∈ layUnits 0, 0 + x.2 + layUnit 0 ≤ 1024 * plate3.grans) ∧ canonical 0 = true) ∧
    ((gthCount 0 - 1) * gthDpitch 0 + gthRow 0 ≤ 1024 * plate3.grans ∧ (0 : W64).toNat % 4 = 0) ∧
    (fld (1024 * 2 ^ 20) 20 18 ≠ 0 ∧ fld (1024 * 2 ^ 20) 20 18 % (tyBits (.flt .f32) / 8) = 0 ∧
      fld (1024 * 2 ^ 20) 0 18 + fld (1024 * 2 ^ 20) 20 18 ≤ 1024 * plate3.grans) ∧
    (platesTurn.me.kind = .normal ∧ platesTurn.plate? 9 = none ∧ platesTurn.plate? 2 = some plate4 ∧ plate4.owner = true) :=
  ⟨⟨turn_plates, by decide +kernel, by decide +kernel, fun q hq => by cases hq; exact ⟨_, rfl, rfl⟩⟩, by decide +kernel,
    by decide +kernel, by decide +kernel, by decide +kernel⟩


/-! Barriers and queues -/

theorem noneWaits_platesTurn (p : Wait → Prop) : NoneWaits platesTurn p := by
  intro kc h _ w hw
  rw [List.mem_singleton.mp (show kc ∈ [(0, { crewP with released := true })] from h)] at hw
  cases hw
/-- The barrier object of the party with arrivals, and one that crew 0 takes no part in. -/
def bar1 : Barrier := { mask := 7, cur := 5, arrived := [2, 0, 0, 1] }
def bar2 : Barrier := { mask := 6 }
theorem witness_BarriersAreArrivedAtAndWaitedOn :
    (platesTurn.me.released = true ∧ platesTurn.me.sv 1 ≠ 0 ∧ (platesTurn.me.sv 1).toNat < 2 ^ platesTurn.myParty.ncrews ∧
      Map.find? platesTurn.myParty.bars 3 = none ∧ NoneWaits platesTurn (fun w => ∃ p, w = .barrier 3 p)) ∧
    (Map.find? platesTurn.myParty.bars 1 = some bar1 ∧ bar1.Four ∧ bar1.mask.getLsbD platesTurn.me.num = true ∧
      (bar1.arrived.getD 3 0).getLsbD platesTurn.me.num = true ∧ (bar1.arrived.getD 0 0).getLsbD platesTurn.me.num = false ∧
      4 ≤ ((platesTurn.me.sv 1).setWidth 16 - bar1.cur).toNat ∧ platesTurn.me.kind = .normal ∧ platesTurn.me.cancel = 0 ∧
      2 ^ 15 ≤ ((platesTurn.me.sv 1).setWidth 16 - bar1.cur).toNat ∧ ((platesTurn.me.sv 2).setWidth 16 - bar1.cur).toNat < 2 ^ 15) ∧
    (Map.find? platesTurn.myParty.bars 2 = some bar2 ∧ bar2.mask.getLsbD platesTurn.me.num = false) ∧ ArrivesInOrder platesTurn :=
  ⟨⟨by decide +kernel, by decide +kernel, by decide +kernel, by decide +kernel, noneWaits_platesTurn _⟩,
    ⟨by decide +kernel, ⟨by decide, by decide⟩, by decide +kernel⟩, by decide +kernel,
    .inr (by rw [show (platesTurn.core platesTurn.myCore).window = [] from by decide +kernel]; rfl)⟩

/-- Queue q of the party. -/
def queueOf (q : Nat) : CQueue := Map.get {} party0.queues q
theorem witness_ClusterQueuesArePushedAndPopped :
    (platesTurn.me.released = true ∧ platesTurn.me.sv 0 &&& ~~~(0x13F : W64) = 0 ∧ (platesTurn.me.sv 0).getLsbD 8 = false ∧
      platesTurn.me.sv 1 ≠ 0 ∧ (platesTurn.me.sv 1).toNat < 2 ^ platesTurn.myParty.ncrews ∧ Map.find? platesTurn.myParty.queues 9 = none ∧
      NoneWaits platesTurn (fun w => (∃ i, w = .queuePush 9 i) ∨ ∃ sd, w = .queuePop 9 sd)) ∧
    (Map.find? platesTurn.myParty.queues 1 = some (queueOf 1) ∧ (queueOf 1).event = false ∧
      (queueOf 1).producers.getLsbD platesTurn.me.num = true ∧ MayPush (queueOf 1) platesTurn.me.num ∧ platesTurn.me.cancel = 0 ∧
      (queueOf 1).items = []) ∧
    (Map.find? platesTurn.myParty.queues 2 = some (queueOf 2) ∧ (queueOf 2).event = false ∧
      (queueOf 2).producers.getLsbD platesTurn.me.num = true ∧ Map.get 0 (queueOf 2).allow platesTurn.me.num = 0 ∧
      (queueOf 2).items = [⟨9, []⟩] ∧ (platesTurn.me.sv 0).toNat < 64 ∧ (queueOf 2).producers.getLsbD (platesTurn.me.sv 0).toNat = true) ∧
    (platesTurn.me.kind = .normal ∧ Map.find? platesTurn.myParty.queues 3 = some (queueOf 3) ∧ (queueOf 3).event = true ∧
      Map.find? platesTurn.myParty.queues 4 = some (queueOf 4) ∧ (queueOf 4).producers.getLsbD platesTurn.me.num = false) :=
  ⟨⟨by decide +kernel, by decide +kernel, by decide +kernel, by decide +kernel, by decide +kernel, by decide +kernel,
      noneWaits_platesTurn _⟩,
    ⟨by decide +kernel, by decide +kernel, by decide +kernel,
      ⟨by decide +kernel, by decide +kernel, by decide +kernel, by decide +kernel⟩, by decide +kernel, by decide +kernel⟩,
    by decide +kernel, by decide +kernel⟩

/-! Monitors and sheets -/

/-- A crew with a monitor. -/
def parks (hit : Bool) : State := solo { crew0 with mon := some ⟨0x20000, 8, 0x20000, hit⟩, s := [(1, 500)] }
/-- A package with one board, number 31 of the crew's context. -/
def boards : State := { solo { crewP with released := true } with sheets := [(31, { en := true, slots := 3 })] }
theorem witness_MonitorsAndSheetsAreUsed :
    ((addrIdx loads.me 1 none 0 4 32).toNat % (4 * ((1 : BitVec 5).toNat + 1)) = 0 ∧ loads.xlate loads.me.ctx 0x20000 .read = .ok 0x20000) ∧
    ((addrIdx loads.me 1 none 1 4 32).toNat % (4 * ((1 : BitVec 5).toNat + 1)) ≠ 0 ∧ loads.me.kind = .normal) ∧
    ((solo crew0).me.cancel = 0 ∧ (solo crew0).me.mon = none ∧ (parks true).me.cancel = 0 ∧ (parks false).me.cancel = 0 ∧
      (parks true).me.mon = some ⟨0x20000, 8, 0x20000, true⟩ ∧ (parks false).me.mon = some ⟨0x20000, 8, 0x20000, false⟩) ∧
    (solo { crew0 with cancel := 2 }).me.cancel ≠ 0 ∧
    (boards.me.released = true ∧ OwnsBoard boards 31 31 { en := true, slots := 3 }) ∧
    (boards.me.kind = .normal ∧ ∀ h x, ¬OwnsBoard boards 1 h x) :=
  ⟨by decide +kernel, by decide +kernel, by decide +kernel, by decide +kernel,
    ⟨by decide +kernel, ⟨by decide +kernel, by decide +kernel, by decide +kernel, by decide +kernel, by decide +kernel⟩⟩,
    by decide +kernel, fun _ _ o => absurd o.en (by rw [o.rec_, o.num]; decide +kernel)⟩

/-! Launches, counters and maps -/

/-- A package in which the crew's context may push to queue 5, has retained the launch of counter 9, and owns map 3; the packet
of lanes 0 and 31 lies at 0x20000. -/
def launches (released : Bool) (pkts : List Pkt) (poison : List Nat) : State :=
  { mapped { crew0 with released, s := [(1, 0x20000), (2, 9)], p := [(1, 0x80000001)], v := [(8, ⟨8, true, mkRow fun _ => 0x20000⟩)] } with
    queues := [(5, { en := true, devpush := true, pkts })], counters := [(9, { retained := some ⟨0x30000, 0⟩ })]
    dirtyMaps := [(3, { en := true, base := 2, len := 4, bits := [3] })], poison }
theorem noPush (released : Bool) (pkts : List Pkt) (poison : List Nat) : NoEarlierPush (launches released pkts poison) :=
  fun _ h => absurd h List.not_mem_nil
theorem witness_dlaunch :
    let s := launches true [] []
    s.me.released = true ∧ NoEarlierPush s ∧
      Reaches s .read 128 (lanesAt (s.me.gov hdP1) fun l => s.me.vpl 8 l) [acc0 0, acc0 31] ∧
      (∀ a ∈ [acc0 0, acc0 31], ∀ j, j < 4 → s.isPoisoned (a.loc + 32 * j) = false) ∧ QueueTakes s 5 5 { en := true, devpush := true } ∧
      ∀ n x, ¬QueueTakes s 4 n x :=
  ⟨by decide +kernel, noPush _ _ _, reaches_of_check (by decide +kernel), by decide +kernel, ⟨by decide +kernel, by decide +kernel, by decide +kernel, by decide +kernel, by decide +kernel, by decide +kernel, by decide +kernel⟩, fun _ _ h => absurd h.en (by rw [h.rec_, h.num]; decide +kernel)⟩
theorem witness_sdlaunch :
    (let s := launches true [] [0x1001]
     Reaches s .read 128 [(32, s.me.sv 1)] [acc0 32] ∧ (∃ j, j < 4 ∧ s.isPoisoned ((acc0 32).loc + 32 * j) = true) ∧
       QueueTakes s 5 5 { en := true, devpush := true }) ∧
    (let s := launches true (List.replicate 256 ⟨0, 0, [], none, false⟩) []
     (∀ j, j < 4 → s.isPoisoned ((acc0 32).loc + 32 * j) = false) ∧
       256 ≤ (Map.get {} s.queues 5).pkts.length) :=
  ⟨⟨reaches_of_check (by decide +kernel), by decide +kernel, ⟨by decide +kernel, by decide +kernel, by decide +kernel, by decide +kernel, by decide +kernel, by decide +kernel, by decide +kernel⟩⟩, by decide +kernel⟩
theorem witness_rlnch_trrec :
    (let s := launches true [] []
     s.me.released = true ∧ (s.me.sv 2).toNat % 4096 = 9 ∧ Retains s 9 9 ∧ (∀ p, ¬Retains s 0 p) ∧
       s.relaunchPending s.me.ctx 9 = false) ∧
    (let s := launches true [{ data := BitVec.ofNat 1024 (1 + 9 * 2 ^ 320), age := 0, byRlnch := true }] []
     Retains s 9 9 ∧ s.relaunchPending s.me.ctx 9 = true) :=
  ⟨⟨by decide +kernel, by decide +kernel, ⟨by decide +kernel, by decide +kernel, by decide +kernel, by decide +kernel⟩, fun p h => absurd h.kept (by rw [h.num]; decide +kernel), by decide +kernel⟩,
    ⟨by decide +kernel, by decide +kernel, by decide +kernel, by decide +kernel⟩, by decide +kernel⟩
theorem witness_dmclr_dmq :
    let s := launches true [] []
    let x : DirtyMap := { en := true, base := 2, len := 4, bits := [3] }
    (s.me.released = true ∧ OwnsMap s 3 3 x ∧ ∀ n y, ¬OwnsMap s 0 n y) ∧
    x.bits.Nodup ∧ ∀ p ∈ x.bits, x.base.toNat ≤ p ∧ p ≤ x.base.toNat + x.len.toNat :=
  ⟨⟨by decide +kernel, ⟨by decide +kernel, by decide +kernel, by decide +kernel, by decide +kernel, by decide +kernel⟩, fun _ _ h => absurd h.en (by rw [h.rec_, h.num]; decide +kernel)⟩, by decide +kernel, by decide +kernel⟩
theorem find_single {α : Type} {k n : Nat} {x y : α} (h : Map.find? [(n, x)] k = some y) : y = x := by
  by_cases e : n = k <;> simp_all [Map.find?]
theorem witness_cancel :
    let s := launches true [] []
    s.me.released = true ∧ s.me.phase = .running ∧
    (∀ k c, Map.find? s.crews k = some c → c.kind ≠ .test ∧ (c.kind = .handler → c.cancelWait = false)) ∧
    s.instanceOf s.me .party = some 0 ∧ (s.party 0).cancelled = false ∧
    s.instanceOf s.me .launch = some 0 ∧ (s.counter 0).done = false ∧ (s.counter 0).cancelReq = false ∧
    s.instanceOf s.me .job = none :=
  ⟨by decide +kernel, by decide +kernel, fun _ c h => by rw [find_single h]; exact ⟨by decide, fun e => absurd e (by decide)⟩,
    by decide +kernel, by decide +kernel, by decide +kernel, by decide +kernel, by decide +kernel, by decide +kernel⟩

/-! Traps, returns, checkpoints, services -/

/-- A privileged crew in slot 1 beside a crew in slot 0 that waits for `hret`. -/
def returns (noticed : Bool) : State :=
  { mapped crew0 with
    cur := 1
    crews := [(0, { crew0 with phase := .trapped, noticed, trap := some { cause := 0x10 } }),
      (1, { crew0 with priv := true, released := true, s := [(1, 0x20000)] })] }
/-- The 128 bytes of a frame at 0x20000. -/
def frameAccs : List Acc := (List.range 128).map fun i => ⟨32, BitVec.ofNat 64 (0x20000 + i), 0x20000 + i⟩
theorem witness_hret :
    (let s := returns false
     s.me.priv = true ∧ s.me.released = true ∧ s.me.phase = .running ∧
       Reaches s .read 1 ((List.range 128).map fun i => (32, s.me.sv 1 + BitVec.ofNat 64 i)) frameAccs ∧
       (∀ a ∈ frameAccs, s.isPoisoned a.loc = false) ∧ s.frameCrew (ofBytes (frameAccs.map fun a => memGet s.mem a.loc)) = none) ∧
    (let s := returns true
     let f := ofBytes (frameAccs.map fun a => memGet s.mem a.loc)
     s.frameCrew f = some 0 ∧ 0 ≠ s.cur ∧ fld f 940 4 = 0 ∧ (s.crew 0).live ≠ 0) :=
  ⟨⟨by decide +kernel, by decide +kernel, by decide +kernel, reaches_of_check (by decide +kernel), by decide +kernel, by decide +kernel⟩, by decide +kernel⟩
/-- A frame whose handler set ACTION to 1. -/
theorem witness_hret_ends : fld (2 ^ 940) 940 4 ≠ 0 ∧ (returns true).frameCrew (2 ^ 940) = some 0 := by decide +kernel
theorem witness_lhret :
    (solo crew0).me.kind = .normal ∧ handles.me.kind = .handler ∧ handles.me.released = true ∧ handles.me.live = handles.me.active ∧
    (∀ l, l < 32 → handles.me.active.getLsbD l = true → l = 0) ∧ handles.me.tags[0]? = some tag0 ∧ tag0.dest = some (2, false) ∧
    tag0.crew ≠ handles.cur ∧ tag0.lane < 32 ∧ 8 ≤ (handles.crew tag0.crew).alloc ∧ (handles.crew tag0.crew).active ≠ 0 ∧
    ∀ l, l < 32 → l ≠ 0 → handles.me.tags[l]? = none := by decide +kernel
theorem witness_TrapsCheckpointsAndServicesComplete :
    (solo crew0).me.gov hdP1 = 0 ∧ (solo crew0).me.gov hdAll ≠ 0 ∧ (solo crew0).me.kind = .normal ∧
    (let s := solo { crew0 with priv := true, released := true }
     s.me.priv = true ∧ s.me.released = true ∧ (Map.get {} s.ckpt (s.ctxDev s.me.ctx)).busy = false ∧
       (Map.get {} ({ s with ckpt := [(0, { busy := true })] } : State).ckpt (s.ctxDev s.me.ctx)).busy = true) := by decide +kernel
theorem witness_PrivilegedFormsTrapInUserMode :
    (∃ i, decode 0xAE0000007FF82000 = .ok i) ∧ privileged (.hret 0 1) = true ∧ (solo crew0).me.priv = false ∧
    (solo crew0).me.kind = .normal :=
  ⟨⟨.cinv 0 .clus 1 0, by decide +kernel⟩, by decide +kernel⟩
theorem witness_CrewWideInstructionsNeedConvergence :
    crewWide (.trel 0 1) = true ∧ (solo { crew0 with active := 1 }).me.active ≠ (solo { crew0 with active := 1 }).me.live ∧
    (solo { crew0 with active := 1 }).me.kind = .normal := by decide +kernel


/-! Events of crews -/

/-- The package of `mapped` at a later clk. -/
def later (clk : Nat) (c : Crew) : State := { mapped c with clk }
/-- A crew whose lanes wait at the block at 0x10000. -/
def selects : State :=
  mapped { crew0 with phase := .select, pc := 0, hdr := 0, pend := (List.range 32).map fun l => (l, 0x10000) }
theorem words_of_check (s : State) (k : Nat) (pc : W64) (n : Nat)
    (h : ((List.range (n + 1)).all fun i => match s.fetch k (pc + BitVec.ofNat 64 (8 * i)) with
      | .ok _ => true
      | .error _ => false) = true) :
    ∀ i, i ≤ n → ∃ x, s.fetch k (pc + BitVec.ofNat 64 (8 * i)) = .ok x := by
  intro i hi
  have h1 := List.all_eq_true.mp h i (List.mem_range.mpr (by omega))
  revert h1
  cases s.fetch k (pc + BitVec.ofNat 64 (8 * i)) with
  | ok x => exact fun _ => ⟨x, rfl⟩
  | error e => exact fun h1 => absurd h1 (by simp)
theorem placeHeader_len : (placeHeader.extractLsb' 48 8).toNat = 2 := by decide +kernel
theorem entersAt_selects : EntersAt selects 0 0x10000 placeHeader :=
  { fetched := by decide +kernel, aligned := by decide +kernel, header := by decide +kernel, len := by decide +kernel
    zero := by decide +kernel, live := by decide +kernel, reconv := by decide +kernel, window := by decide +kernel
    frames := by decide +kernel
    words := fun i hi => words_of_check selects 0 0x10000 2 (by decide +kernel) i (hi.trans_eq placeHeader_len) }
theorem witness_blockEntry :
    (selects.crew 0).phase = .select ∧ (selects.crew 0).depth = 0 ∧ (selects.crew 0).atoms = [] ∧
    (∃ x ∈ (selects.crew 0).pend, (selects.crew 0).live.getLsbD x.1 = true ∧ x.2 = 0x10000) ∧
    (∀ x ∈ (selects.crew 0).pend, (selects.crew 0).live.getLsbD x.1 = true → (0x10000 : W64).toNat ≤ x.2.toNat) := by decide +kernel
/-- A crew that enters a block with one register to fill, where it stands over a clean or a dirty one. -/
def moving (dirty : Bool) : State :=
  mapped { crew0 with phase := .moving, moves := [2048], spill := 0x20000, v := [(0, ⟨0, dirty, zeroRow⟩)] }
theorem witness_windowMove :
    ((moving false).crew 0).moves = [2048] ∧
    (Map.find? ((moving false).crew 0).v (2048 % ((moving false).crew 0).alloc)).map (·.dirty) = some false ∧
    ((moving false).fillIn 0 (((moving false).crew 0).spill + BitVec.ofNat 64 (128 * 2048)) 128).isSome = true ∧
    (Map.find? ((moving true).crew 0).v (2048 % ((moving true).crew 0).alloc)) = some ⟨0, true, zeroRow⟩ ∧ zeroRow.length = 32 ∧
    (let s := moving true
     let c := s.crew 0
     match s.ownLocs c c.spill 128 .write with
     | some ls =>
       let h : Held := { at_ := s.clk, eff := .spill ((ls.zip (zeroRow.flatMap fun y => bytesOf 4 y.toNat)).filter fun b => !locCtl b.1) false }
       ((s.putCrew 0 { c with held := c.held ++ [h] }).fillIn 0 (c.spill + BitVec.ofNat 64 (128 * 2048)) 128).isSome
     | none => false) = true := by decide +kernel
theorem witness_issueSelect :
    let s := mapped { crew0 with throt := false }
    (∃ kc ∈ s.crews, coreOfKey kc.1 = 0 ∧ partOfSlot (slotOfKey kc.1) = 0 ∧ kc.2.canRun s.clk = true ∧ s.frozen kc.2 = false ∧
      kc.2.throt = false ∧ kc.2.again = false ∧ kc.2.wasHeld = false ∧
      (match s.nextInstr kc.1 kc.2 with
      | some i => kc.2.scoreOk s.clk i && !s.roomHolds kc.1 kc.2 i && (!needsSettled i || kc.2.drained)
      | none => true) = true) ∧
    bufferFull (s.partCrews 0 0) = false := by decide +kernel
theorem witness_throttleAdmitTimeout :
    let s := later 4096 { crew0 with heldSince := 1 }
    (s.crew 0).phase = .running ∧ (s.crew 0).heldSince ≠ 0 ∧ (s.crew 0).heldSince + 2048 ≤ s.clk := by decide +kernel
/-- A crew with one effect, which is old enough to leave its core. -/
def leaves (e : Effect) : State :=
  { solo { crewP with held := [⟨50, e, none, []⟩] } with clk := 100, parties := [(0, party0)] }
theorem witness_effectLeavesCore (e : Effect) :
    ((leaves e).crew 0).held = [⟨50, e, none, []⟩] ∧ ((leaves e).crew 0).atoms = [] ∧ ((leaves e).crew 0).kind = .normal ∧
    (leaves e).inject.arm = false ∧ (leaves e).offs = [] ∧ (leaves e).bias.busy = false ∧ fixDue (leaves e) ((leaves e).crew 0) 50 ∧ locCtl 0x20000 = false ∧
    (leaves e).behindReduction 0 [(0x20000, 1)] = false ∧ (∀ n, ((leaves e).core n).arrivals = []) ∧
    ((leaves e).party ((leaves e).crew 0).party).plates.find? (fun x => x.num == 3) = some plate3 ∧ plate3.owner = false :=
  ⟨rfl, rfl, rfl, rfl, rfl, rfl, (by decide : 50 + (24 : BitVec 6).toNat ≤ 100), by decide +kernel, rfl, fun _ => rfl, rfl, rfl⟩
theorem witness_loadReturn : ((mapped { crew0 with phase := .waiting .load }).crew 0).phase = .waiting .load := by decide +kernel
theorem witness_parkWake_parkTimeout :
    let s := later 100 { crew0 with phase := .waiting (.park (some 90) none), mon := some ⟨0x20000, 8, 0x20000, false⟩ }
    (s.crew 0).phase = .waiting (.park (some 90) none) ∧ (s.crew 0).mon = some ⟨0x20000, 8, 0x20000, false⟩ ∧ 90 ≤ s.clk ∧
      (s.crew 0).kind = .normal := by decide +kernel
/-- A crew that waits in a release at .sys, and one whose oldest effect waits for its release; its die has written a span. -/
def released0 (held : List Held) (l2 : List L2Span) : State :=
  { later 100 { crew0 with phase := .waiting (.release .sys), blockedSince := 50, held } with dies := [(0, { l2 })] }
def dirtySpan : L2Span := { line := 0x400, f := 0, l := 31, wts := 0, rts := 0, unclean := true }
theorem witness_releaseComplete :
    (let s := released0 [] []
     let c := s.crew 0
     c.relScope? = some .sys ∧ s.relReady c .sys = true ∧ s.coversFlip c = false ∧ s.bias.busy = false ∧
       s.toClean (coreOfKey 0) = [] ∧ c.ivals = [] ∧ c.phase = .waiting (.release .sys) ∧ c.held = []) ∧
    (let s := released0 [⟨90, .store [(0x20000, 1)], some .dev, []⟩] []
     let c := s.crew 0
     c.relScope? = some .dev ∧ s.relReady c .dev = true ∧ s.coversFlip c = false ∧ s.toClean (coreOfKey 0) = []) ∧
    (let s := { released0 [] [dirtySpan] with dir := [{ line := 0x400, f := 0, l := 31, st := [(0, .m)], num := 7 }] }
     let c := s.crew 0
     c.relScope? = some .sys ∧ s.relReady c .sys = true ∧ s.coversFlip c = false ∧ s.bias.busy = false ∧
       s.toClean (coreOfKey 0) ≠ []) := by decide +kernel
def atom0 (d : AtomDest) (rs : List (Nat × Option W64)) (bad : List (Nat × W64)) : AtomOp :=
  { token := 0, at_ := 50, acq := none, dest := d, groups := 0, results := rs, bad, pc := 0x10000, widx := 1, word := 0 }
theorem witness_atomicReturn :
    (let o := atom0 (.lanes 2 true) [(31, some 5)] []
     let s := mapped { crew0 with atoms := [o] }
     (s.crew 0).atoms = [o] ∧ o.groups = 0 ∧ (o.results.map (·.1)).Nodup ∧ 8 ≤ (s.crew 0).alloc ∧ o.bad = [] ∧ o.dest = .lanes 2 true) ∧
    (let o := atom0 (.scalar 3 (.int .i32)) [(32, some 5)] []
     o.dest = .scalar 3 (.int .i32) ∧ o.results = [(32, some 5)] ∧ (o.results.map (·.1)).Nodup ∧ o.bad = []) ∧
    (let o := atom0 (.lanes 2 true) [(31, none)] [(31, 0x20000)]
     let s := mapped { crew0 with atoms := [o] }
     (o.results.map (·.1)).Nodup ∧ o.bad = [(31, 0x20000)] ∧ (s.crew 0).kind = .normal ∧ s.past = []) := by decide +kernel

/-! Events of the memory system -/

theorem witness_pageWalkDone :
    let s := mapped crew0
    canonical 0x20000 = true ∧ s.inject.arm = false ∧ s.offs = [] ∧
    (match s.walk 0 0x20000 with
    | some lf => !s.flipping lf.at_ && (List.range 8).all fun j => !locCtl (lf.at_ + j)
    | none => false) = true := by decide +kernel
theorem witness_l1Read :
    ((loads.core 0).copy? 0x400 0 31).isSome = true ∧ coreOfKey loads.cur = 0 ∧ loads.me.mustRead 0x400 0 31 = false ∧
    ((loads.core 0).copy? 0x401 0 31).isNone = true ∧ ((loads.die (dieOfCore 0)).span? 0x401 0 31).isNone = true := by decide +kernel
def span0 : L2Span := { line := 0x400, f := 0, l := 31, wts := 1, rts := 2, unclean := true }
theorem witness_l2Read_l2Write :
    let s := { loads with dies := [(0, { l2 := [span0] })] }
    (s.die (dieOfCore 0)).span? 0x400 3 4 = some span0 ∧ s.offs = [] := by decide +kernel
theorem witness_leaseTick_timestampSweep : 36 * 2 ≤ 107 ∧ 107 < 36 * 2 + 36 := by decide
/-- A directory in which agent 2 holds a line. -/
def holds (st : DirSt) : State := { mapped crew0 with dir := [{ line := 0x400, f := 0, l := 31, st := [(2, st)], num := 7 }] }
theorem witness_directory :
    (holds .m).flipping (128 * 0x400) = false ∧ (holds .m).heldAs 2 0x400 3 31 = some .m ∧ (holds .o).heldAs 2 0x400 0 31 = some .o ∧
    (holds .e).heldAs 2 0x400 0 0 = some .e ∧ (holds .e).offs = [] ∧ (holds .s).heldAs 2 0x400 5 6 = some .s ∧ (holds .m).heldAs 2 0x401 0 0 = none := by
  decide +kernel
theorem witness_homeWrite :
    locCtl 0x20000 = false ∧ (∀ c ∈ cellsOf 0x20000 [1, 2], locCtl c.1 = false) ∧ (mapped crew0).flipping 0x20000 = false ∧
    (mapped crew0).inject.arm = false ∧ (mapped crew0).offs = [] ∧ locCtl (9 * 2 ^ 52) = true ∧ (3 : Nat) ≠ 56 ∧ (3 : Nat) ≠ 57 := by
  decide +kernel
theorem witness_countedRequestAck : (mapped crew0).hasCrew 0 = true := by decide +kernel
theorem witness_dirtyBitMessage : Map.find? (launches true [] []).dirtyMaps 3 = some { en := true, base := 2, len := 4, bits := [3] } := by
  decide +kernel
def group0 : AtomGroup :=
  { token := 0, crew := 0, owner := 4, op := .red .add, ty := .int .n32, sat := true, returns := false, opc := 0xAA, ctx := 0, lctr := 0
    reqs := [⟨0, 0x20000, 0x20000, 5, 0⟩] }
theorem witness_atomicRequestExecute :
    let s := { mapped crew0 with svcq := [(4, [group0])] }
    Map.get [] s.svcq 4 = [group0] ∧ group0.reqs = [⟨0, 0x20000, 0x20000, 5, 0⟩] ∧ s.flipping 0x20000 = false ∧
      s.svcSlot group0 ⟨0, 0x20000, 0x20000, 5, 0⟩ = none ∧ locCtl 0x20000 = false ∧ 0x20000 % (tyBits group0.ty / 8) = 0 ∧ s.inject.arm = false ∧ s.offs = [] ∧
      s.dead.contains (dieOfCore (4 * group0.owner)) = false ∧ s.isPoisoned 0x20000 = false ∧ tyBits group0.ty = 32 := by decide +kernel
def rec0 : ChkRec := { line := 0x400, f := 0, l := 31, num := 7, hash := 5, agent := 2, kind := .close, wr := true, sent := 0 }
theorem noWrites_records (s : State) (h : s.ivals = []) (r : ChkRec) (hr : s.recs = [r]) (ha : r.agent < 8) : NoCompanionWrites s :=
  ⟨fun _ hi => absurd hi (by rw [h]; exact List.not_mem_nil), fun x hx _ => by
    rw [hr] at hx; rw [List.mem_singleton.mp hx]; exact .inl ha⟩
theorem witness_checkerRecord :
    let s := { mapped crew0 with recs := [rec0] }
    s.recs = [rec0] ∧ rec0.f ≤ rec0.l ∧ NoCompanionWrites s :=
  ⟨rfl, by decide, noWrites_records _ rfl rec0 rfl (by decide)⟩
def ival0 : ChkIval := { line := 0x400, f := 0, l := 31, num := 7, writer := none, openHash := none, closeHash := some 5, closed := 0 }
theorem witness_recordLostTimeout :
    let s := { later 65536 crew0 with ivals := [ival0] }
    s.ival? 0x400 0 31 = some ival0 ∧ ival0.closeHash.isSome = true ∧ ival0.closed + 65536 ≤ s.clk ∧ ival0.owed = [] ∧ NoCompanionWrites s :=
  ⟨by decide +kernel, by decide +kernel, by decide +kernel, by decide +kernel,
    ⟨fun i hi a ha => by rw [List.mem_singleton.mp (show i ∈ [ival0] from hi)] at ha; exact absurd ha (by simp [ival0]),
      fun _ h => absurd h List.not_mem_nil⟩⟩

/-! Objects and engines -/

theorem witness_plateStoreArbitration :
    let s := { plates with cores := [(0, { setBacks := [⟨0, 4, 9, [], none⟩] })] }
    (s.core 0).setBacks = [⟨0, 4, 9, [], none⟩] ∧ Map.find? s.parties 0 = some party0 ∧ s.setBackBad ⟨0, 4, 9, [], none⟩ = none := by
  decide +kernel
/-- The crew of `plates`, blocked. -/
def blocked (w : Wait) : Crew := { crewP with phase := .waiting w }
def blocks (w : Wait) : State := { plates with crews := [(0, blocked w)] }
theorem witness_clusterQueueUpdate :
    (LoneWaiter (blocks (.queuePop 2 5)) 0 (atQueue 2) 0 (blocked (.queuePop 2 5)) ∧ (queueOf 2).items = [⟨9, []⟩]) ∧
    (LoneWaiter (blocks (.queuePush 1 5)) 0 (atQueue 1) 0 (blocked (.queuePush 1 5)) ∧
      Map.get 0 { queueOf 1 with depth := 1 }.allow 0 ≠ 0 ∧ { queueOf 1 with depth := 1 }.items.length + 1 = 1) :=
  ⟨⟨⟨by decide +kernel, by decide +kernel⟩, by decide +kernel⟩, ⟨by decide +kernel, by decide +kernel⟩, by decide +kernel⟩
theorem witness_barrierUpdate :
    LoneWaiter (blocks (.barrier 1 5)) 0 (atBarrier 1) 0 (blocked (.barrier 1 5)) ∧
    Map.find? ((blocks (.barrier 1 5)).party 0).bars 1 = some bar1 ∧ bar1.arrived = [2, 0, 0, 1] ∧ bar1.stamps = [[], [], [], []] ∧
    bar1.mask &&& ~~~(0 : W64) ≠ 0 ∧ bar1.mask &&& ~~~(2 : W64) ≠ 0 ∧ (7 : W64) ≠ 0 ∧ bar1.mask &&& ~~~(7 : W64) = 0 :=
  ⟨⟨by decide +kernel, by decide +kernel⟩, by decide +kernel⟩
theorem witness_sheetHomePost_reset :
    let x : SheetHome := { en := true, slots := 3, reqs := [⟨0, .reset 4⟩] }
    let s := { mapped { crew0 with phase := .waiting .sheet } with sheets := [(31, x)] }
    Map.get {} s.sheets 31 = x ∧ (s.crew 0).phase = .waiting .sheet ∧ x.ctx.toNat = (s.crew 0).ctx := by decide +kernel
theorem witness_sheetHomePost :
    let x : SheetHome := { en := true, slots := 3, image := 0x400, reqs := [⟨0, .post 3 0 5 1 4⟩] }
    let s := { mapped { crew0 with phase := .waiting .sheet } with sheets := [(31, x)] }
    Map.get {} s.sheets 31 = x ∧ (s.crew 0).phase = .waiting .sheet ∧ x.ctx.toNat = (s.crew 0).ctx ∧ 3 ≤ x.slots.toNat ∧ x.epoch = 0 ∧
      x.level ≠ 0xFFFFFFFF ∧
      ({ s with sheets := [] }.devWrite x.ctx.toNat (BitVec.ofNat 64 (x.image.toNat * 128 + 16 * 3)) (bytesOf 16 5)).isSome = true := by
  decide +kernel
def arr0 (op : ArrOp) : ArrCmd := { crew := 0, reg := ⟨0, 16, 0, 16⟩, op, dur := 10, stopped := false }
theorem witness_matrixCommandPerform :
    let s := fun (clk : Nat) (u : Option Nat) => { later clk crew0 with cores := [(0, { array := [arr0 .aczero], arrayUntil := u })] }
    ((s 5 none).core 0).arrayUntil = none ∧ ((s 5 (some 9)).core 0).arrayUntil = some 9 ∧ (s 5 (some 9)).clk < 9 ∧ 9 ≤ (s 9 (some 9)).clk ∧
      ((s 9 (some 9)).core 0).array = [arr0 .aczero] ∧ (s 9 (some 9)).partBehind 0 (arr0 .aczero) = false ∧ (arr0 .aczero).stopped = false ∧
      (let half := fun (h : ArrPart) => arr0 (.mma (.int .i8) ⟨0, 0, 3, 0, 64⟩ ⟨0, 0, 3, 0, 64⟩ 64 h)
       ({ later 9 crew0 with
          cores := [(0, { array := [half .own], arrayUntil := some 9 }), (1, { array := [half .partner] })] } : State).partBehind 0
          (half .own) = true) ∧
      (arr0 .aczero).reg.col0 + (arr0 .aczero).reg.cols ≤ 256 := by decide +kernel
theorem witness_batchRetire :
    let s := solo { crewP with phase := .waiting (.batch 7), closedB := [{ num := 7 }] }
    s.hasCrew 0 = true ∧ isEnded 0 = false ∧ (s.crew 0).closedB = [{ num := 7 }] ∧ (s.crew 0).phase = .waiting (.batch 7) := by decide +kernel
theorem witness_acldReadDone_acstWritesDone :
    ((blocks (.plateRead 9)).crew 0).phase = .waiting (.plateRead 9) ∧ ({ blocks (.plateRead 9) with clk := 9 } : State).clk ≥ 9 ∧
    (blocks (.plateRead 9)).clk < 9 ∧ ((blocks .plateWrite).crew 0).phase = .waiting .plateWrite ∧
    (∀ x ∈ ((blocks .plateWrite).core (coreOfKey 0)).array, x.crew ≠ 0) ∧
    ∃ x ∈ (({ blocks .plateWrite with cores := [(0, { array := [arr0 .aczero] })] } : State).core (coreOfKey 0)).array, x.crew = 0 := by
  decide +kernel
/-- A command that copies 64 bytes from 0x20000 to plate 4, with an event for queue 3. -/
def cmd0 : EngCmd :=
  { eng := .copy, crew := 0, party := 0, ctx := 0, lctr := 0, plate := 4, g := 0x20000, rec_ := 0xFC00000000000000, ev := some 3, at_ := 50 }
def engine (clk : Nat) : State :=
  { later clk crewP with parties := [(0, party0)], cores := [(0, { copyQ := [cmd0] })] }
theorem witness_engineCommandComplete_copy :
    ((engine 60).core 0).copyQ = [cmd0] ∧ (engine 60).clk < cmd0.at_ + ((engine 60).ctx cmd0.ctx).fix.toNat ∧
    cmd0.at_ + ((engine 100).ctx cmd0.ctx).fix.toNat ≤ (engine 100).clk ∧ (engine 100).cmdPlate cmd0 = some plate4 ∧
    cmd0.stopped = false ∧ cmd0.toGlobal = false ∧ cmd0.pos = 0 ∧ cmd0.status = 0 ∧ layUnits cmd0.rec_ = [(0, 0)] ∧ layUnit cmd0.rec_ = 64 ∧ (engine 100).inject.arm = false ∧
    cmd0.eng = .copy ∧ (engine 100).offs = [] ∧ (engine 100).bias.busy = false ∧
    ∀ i, i < 64 → (engine 100).xlate cmd0.ctx (cmd0.g + 0 + BitVec.ofNat 64 i) .read = .ok (0x20000 + i) ∧
      (engine 100).isPoisoned (0x20000 + i) = false ∧ locCtl (0x20000 + i) = false := by decide +kernel
def coll0 (rank plate : Nat) : EngCmd :=
  { eng := .coll, crew := 0, party := 0, ctx := 0, lctr := 0, plate, op := .add, ty := .int .i32, group := 6, rank, bytes := 64, at_ := 0 }
theorem witness_engineCommandComplete_coll :
    let s := { later 100 crewP with parties := [(0, party0)], cores := [(0, { collQ := [coll0 1 4] })], groups := [(6, { members := 2 })] }
    let n := s.phys 0 4096 6
    (s.core 0).collQ = [coll0 1 4] ∧ (coll0 1 4).at_ + (s.ctx 0).fix.toNat ≤ s.clk ∧ s.inShare 4096 6 = true ∧
      (Map.get {} s.groups n : CollGroup).ctx.toNat = 0 ∧ 1 < (Map.get {} s.groups n : CollGroup).members.toNat ∧
      (Map.get {} s.groups n : CollGroup).arrivals = [] ∧ (coll0 1 4).stopped = false := by decide +kernel
def ev0 (q : Nat) : EvRec := { core := 0, eng := .copy, party := 0, q, item := 5, stamp := 0 }
theorem witness_eventRecordPost :
    let s := { plates with cores := [(0, { evs := [ev0 3] })] }
    (s.core 0).evs = [ev0 3] ∧ Map.find? s.parties 0 = some party0 ∧ Map.find? party0.queues 3 = some (queueOf 3) ∧
      (queueOf 3).event = true ∧ (∀ c ∈ s.cores, ∀ y ∈ c.2.evs, y.before (ev0 3) = false) ∧
      (queueOf 3).items.length < (queueOf 3).depth ∧
      1 ≤ ({ queueOf 3 with items := [⟨1, []⟩] } : CQueue).items.length := by decide +kernel
/-- Two ranks with plates on different cores. -/
def pair0 : Party :=
  { plates := [{ num := 3, core := 0, base := 0, grans := 1 }, { num := 4, core := 1, base := 0, grans := 1 }] }
theorem witness_collectiveCombine :
    let a : Arrival := ⟨0, 0, coll0 0 3⟩
    let b : Arrival := ⟨1, 1, coll0 1 4⟩
    let s := { solo crewP with parties := [(0, pair0)], groups := [(6, { members := 2, arrivals := [a, b] })] }
    (Map.get {} s.groups 6 : CollGroup).members = 2 ∧ (Map.get {} s.groups 6 : CollGroup).arrivals = [a, b] ∧ a.rank < b.rank ∧
      ITy.i32.bits = 32 ∧ a.cmd.bytes = b.cmd.bytes ∧ s.cmdPlate a.cmd = some { num := 3, core := 0, base := 0, grans := 1 } ∧
      s.cmdPlate b.cmd = some { num := 4, core := 1, base := 0, grans := 1 } ∧ 4 * (s.party 0).cluster + 0 ≠ 4 * (s.party 0).cluster + 1 ∧
      15 < a.cmd.bytes / 4 := by decide +kernel


/-! Ends, handlers, notices, services, strikes -/

/-- A package whose one crew has executed its last instruction, as one of n crews of its party. -/
def overs (n : Nat) : State :=
  { later 100 { crew0 with phase := .ended } with parties := [(0, { party0 with ncrews := n })], counters := [(0, { endv := 1 })] }
theorem fixDue_of {s : State} {c : Crew} {a : Nat} (h : a + (s.ctx c.ctx).fix.toNat ≤ s.clk) : fixDue s c a := h
theorem arrivals_overs (n j : Nat) : ((overs n).core j).arrivals = [] := by
  show (Map.get ({} : Core) [(0, {})] j).arrivals = []
  by_cases h : j = 0
  · subst h; rfl
  · simp [Map.get, Map.find?, Ne.symm h]
theorem plates_overs (n : Nat) : ∀ j, ∀ x ∈ ((overs n).core j).arrivals, x.1 ≠ 0 :=
  fun j x h => absurd h (by rw [arrivals_overs]; exact List.not_mem_nil)
theorem crewOver_2 : CrewOver (overs 2) 0 :=
  ⟨by decide +kernel, by decide +kernel, by decide +kernel, by decide +kernel, by decide +kernel, by decide +kernel, plates_overs 2,
    fixDue_of (by decide +kernel)⟩
theorem crewOver_1 : CrewOver (overs 1) 0 :=
  ⟨by decide +kernel, by decide +kernel, by decide +kernel, by decide +kernel, by decide +kernel, by decide +kernel, plates_overs 1,
    fixDue_of (by decide +kernel)⟩
theorem witness_crewEnd :
    ((overs 2).party 0).ended + 1 < ((overs 2).party 0).ncrews ∧ ((overs 1).party 0).ended + 1 = ((overs 1).party 0).ncrews ∧
    ((overs 1).party 0).packet.getLsbD 6 = false ∧ ((overs 1).counter 0).count + 1 = ((overs 1).counter 0).endv ∧
    ((overs 1).counter 0).done = false ∧ ∃ b a as, Map.find? ((overs 2).party 0).bars 1 = some b ∧ b.mask.getLsbD 0 = true ∧
      b.arrived = a :: as :=
  ⟨by decide +kernel, by decide +kernel, by decide +kernel, by decide +kernel, by decide +kernel,
    ⟨bar1, 2, [0, 0, 1], by decide +kernel, by decide +kernel, by decide +kernel⟩⟩
theorem noWrites_mapped (c : Crew) (cs : Map Counter) : NoCompanionWrites { mapped c with counters := cs } :=
  ⟨fun _ h => absurd h List.not_mem_nil, fun _ h => absurd h List.not_mem_nil⟩
theorem witness_instanceComplete :
    (let s := { mapped crew0 with counters := [(3, { endv := 1, count := 1, parents := [(.graph, 4)] })] }
     s.bias.busy = false ∧ s.inject.arm = false ∧ s.offs = [] ∧ (s.counter 3).done = false ∧ (s.counter 3).count = (s.counter 3).endv ∧ s.instanceBusy 3 = false ∧ (s.counter 3).caddr = 0 ∧
       (s.counter 3).parents = [(.graph, 4)]) ∧
    (let s := { mapped crew0 with counters := [(3, { endv := 1, count := 1, caddr := 0x20008, level := .launch, cval := 9 })] }
     (s.counter 3).caddr ≠ 0 ∧ s.instanceBusy 3 = false ∧ (s.counter 3).caddr.toNat % 8 = 0 ∧ s.bias.busy = false ∧ s.cxl = [] ∧ s.host = [] ∧
       s.xlate (s.counter 3).ctx.toNat (s.counter 3).caddr .write = .ok 0x20008 ∧ 0x20008 < ctlBase) := by decide +kernel
/-- n lanes of the crew in slot 0 wait for a handler. -/
def waits (clk n : Nat) : State :=
  { later clk { crew0 with phase := .lanesOut } with cores := [(0, { laneWait := List.replicate n tag0 })] }
theorem fixDues_of {s : State} {ts : List LaneTag} (h : ∀ x ∈ ts, x.since + (s.ctx (s.crew x.crew).ctx).fix.toNat ≤ s.clk) :
    ∀ x ∈ ts, fixDue s (s.crew x.crew) x.since := h
theorem lanesWait_31 : LanesWait (waits 48 31) 0 (List.replicate 31 tag0) tag0 :=
  ⟨by decide +kernel, by decide +kernel, by decide +kernel, fixDues_of (by decide +kernel), by decide +kernel, by decide +kernel⟩
theorem lanesWait_32 : LanesWait (waits 48 32) 0 (List.replicate 32 tag0) tag0 :=
  ⟨by decide +kernel, by decide +kernel, by decide +kernel, fixDues_of (by decide +kernel), by decide +kernel, by decide +kernel⟩
theorem lanesWait_1 : LanesWait (waits 256 1) 0 [tag0] tag0 :=
  ⟨by decide +kernel, by decide +kernel, by decide +kernel, fixDues_of (by decide +kernel), by decide +kernel, by decide +kernel⟩
theorem witness_handlerFormTimeout : ∃ x ∈ [tag0], x.since + 256 ≤ (waits 256 1).clk := by decide +kernel
/-- A trapped crew whose frame goes to spill, after n attempts. -/
def trapped (spill : W64) (n : Nat) (cfg : TrapCfg) : State :=
  { later 304 { crew0 with phase := .trapped, trap := some { cause := 0x10, pc := 0x10000, widx := 1 }, spill, tries := n, heldSince := 48 } with
    trapCfg := [(0, cfg)], queues := [(5, { en := true, pkts := List.replicate 255 ⟨0, 0, [], none, false⟩ })] }
def rec10 : TrapRec := { cause := 0x10, pc := 0x10000, widx := 1 }
/-- That state as an attempt to push the notice counts it. -/
def tried (spill : W64) (n : Nat) (cfg : TrapCfg) : State :=
  (trapped spill n cfg).onCrew 0 fun c => { c with tries := c.tries + 1, heldSince := (trapped spill n cfg).clk }
theorem witness_noticePush :
    let s := trapped 0x80000000 0 {}
    (s.crew 0).phase = .trapped ∧ (s.crew 0).pushed = false ∧ (s.crew 0).noticed = false ∧ (s.crew 0).tries = 0 ∧
      (s.crew 0).trap = some rec10 ∧ (s.crew 0).held = [] ∧ (s.crew 0).atoms = [] ∧ (s.crew 0).heldSince + (s.ctx (s.crew 0).ctx).fix.toNat ≤ s.clk ∧
      ((tried 0x80000000 0 {}).writeFrame 0 rec10).isNone = true := by decide +kernel
/-- The same state while the granule of the frame changes its bias, so that the bytes of the frame are held. -/
def flips (s : State) : State := { s with bias := { busy := true, gran := 3 } }
theorem held_xlate (cs : List Host.Cell) (s : State) (ctx : Nat) (va : W64) (n : Need) :
    (cs.foldl (fun s c => s.holdReq (.home c.1 [c.2] none [])) s).xlate ctx va n = s.xlate ctx va n := by
  induction cs generalizing s with
  | nil => rfl
  | cons c cs ih => exact (ih (s.holdReq (.home c.1 [c.2] none []))).trans rfl
def maps (s : State) (ctx : Nat) (va : W64) (n : Need) (k : Nat) : Bool :=
  ((List.range k).map fun i => s.xlate ctx (va + BitVec.ofNat 64 i) n).any (fun r => match r with | .error _ => true | .ok _ => false)
theorem devWrite_some (s : State) (ctx : Nat) (va : W64) (bs : List Byte) (h : maps s ctx va .write bs.length = false) :
    ∃ t, s.devWrite ctx va bs = some t := by
  unfold maps at h
  unfold State.devWrite
  dsimp only
  split
  · next h1 => exact absurd (h1.symm.trans h) (by decide)
  · split
    · exact ⟨_, rfl⟩
    · exact ⟨_, rfl⟩
theorem devRead_some (s : State) (ctx : Nat) (va : W64) (k : Nat) (h : maps s ctx va .read k = false) :
    ∃ bs, s.devRead ctx va k = some bs := by
  unfold maps at h
  unfold State.devRead
  dsimp only
  split
  · next h1 => exact absurd (h1.symm.trans h) (by decide)
  · exact ⟨_, rfl⟩
/-- Whether a byte of the n at va lies in the granule that changes its bias. -/
def flipsAt (s : State) (ctx : Nat) (va : W64) (bs : List Byte) : Bool :=
  ((((List.range bs.length).map fun i => s.xlate ctx (va + BitVec.ofNat 64 i) .write).zip bs).map fun x =>
    ((match x.1 with | .ok pa => s.locOf ctx pa | .error _ => 0, x.2) : Host.Cell)).any fun c => s.flipping c.1
def heldAll (s : State) (cs : List Host.Cell) : State := cs.foldl (fun s c => s.holdReq (.home c.1 [c.2] none [])) s
theorem devWrite_held (s : State) (ctx : Nat) (va : W64) (bs : List Byte) (h : maps s ctx va .write bs.length = false)
    (hf : flipsAt s ctx va bs = true) : ∃ cs, s.devWrite ctx va bs = some (heldAll s cs) := by
  unfold maps at h
  unfold flipsAt at hf
  unfold State.devWrite
  exact ⟨_, (if_neg fun e => absurd (e.symm.trans h) (by decide)).trans ((if_pos hf).trans rfl)⟩
theorem held_fields (cs : List Host.Cell) (s : State) :
    (heldAll s cs).mode = s.mode ∧ (heldAll s cs).ctxs = s.ctxs ∧ (heldAll s cs).cxl = s.cxl ∧ (heldAll s cs).host = s.host ∧
    (heldAll s cs).bias = s.bias := by
  unfold heldAll
  induction cs generalizing s with
  | nil => exact ⟨rfl, rfl, rfl, rfl, rfl⟩
  | cons c cs ih => exact ih (s.holdReq (.home c.1 [c.2] none []))
theorem held_maps (cs : List Host.Cell) (s : State) (ctx : Nat) (va : W64) (n : Need) (k : Nat) :
    maps (heldAll s cs) ctx va n k = maps s ctx va n k := by
  unfold maps heldAll
  simp only [held_xlate]
theorem held_flipsAt (cs : List Host.Cell) (s : State) (ctx : Nat) (va : W64) (bs : List Byte) :
    flipsAt (heldAll s cs) ctx va bs = flipsAt s ctx va bs := by
  have hx : ∀ va n, (heldAll s cs).xlate ctx va n = s.xlate ctx va n := fun va n => held_xlate cs s ctx va n
  obtain ⟨h1, h2, h3, h4, h5⟩ := held_fields cs s
  unfold flipsAt
  simp only [hx, State.locOf, State.homePair, State.ctx, State.flipping, h1, h2, h3, h4, h5]
theorem flipsAt_length (s : State) (ctx : Nat) (va : W64) (bs cs : List Byte) (h : bs.length = cs.length) :
    flipsAt s ctx va bs = flipsAt s ctx va cs := by
  unfold flipsAt
  simp only [List.any_map]
  rw [h]
  generalize (List.range cs.length).map _ = xs
  induction bs generalizing cs xs with
  | nil => cases cs with
    | nil => rfl
    | cons => simp at h
  | cons b bs ih => cases cs with
    | nil => simp at h
    | cons c cs => cases xs with
      | nil => rfl
      | cons x xs =>
        simp only [List.zip_cons_cons, List.any_cons, Function.comp]
        rw [ih cs (by simpa using h) xs]
theorem bytesOf_length (n x : Nat) : (bytesOf n x).length = n := by
  induction n generalizing x with
  | zero => rfl
  | succ n ih => simp [bytesOf, ih]
theorem frameWritten_of (s : State) (k : Nat) (r : TrapRec) (tmpl : W64) (bs : List Byte) (hb : bs.length = 128)
    (h : maps s (s.crew k).ctx ((s.crew k).spill - 0x40180) .write (s.crew k).pbvBytes.length = false)
    (hf : flipsAt s (s.crew k).ctx ((s.crew k).spill - 0x40180) (s.crew k).pbvBytes = true)
    (h1 : maps s (s.crew k).ctx ((s.crew k).spill - 0x40080) .write 128 = false)
    (hf1 : flipsAt s (s.crew k).ctx ((s.crew k).spill - 0x40080) bs = true)
    (h2 : maps s (s.crew k).ctx tmpl .read 128 = false) :
    ∃ s1, s.writeFrame k r = some s1 ∧ ∃ bs, s1.devRead (s.crew k).ctx tmpl 128 = some bs := by
  obtain ⟨cs, e⟩ := devWrite_held s _ _ _ h hf
  obtain ⟨ds, e1⟩ := devWrite_held (heldAll s cs) (s.crew k).ctx ((s.crew k).spill - 0x40080) (bytesOf 128 ((heldAll s cs).frameNat k r))
    (by rw [bytesOf_length, held_maps]; exact h1)
    (by rw [held_flipsAt, flipsAt_length _ _ _ _ bs (by rw [bytesOf_length, hb])]; exact hf1)
  obtain ⟨x, e2⟩ := devRead_some (heldAll (heldAll s cs) ds) (s.crew k).ctx tmpl 128 (by rw [held_maps, held_maps]; exact h2)
  refine ⟨_, ?_, x, e2⟩
  unfold State.writeFrame
  dsimp only
  rw [e]
  exact e1
def cfg5 : TrapCfg := { en := true, tq := 5, tmpl := 0x20000 }
theorem witness_noticeRetry :
    NoticeDue (flips (trapped 0x80000 1 cfg5)) 0 (.noticeRetry 0) ∧
    (∃ s1, (flips (tried 0x80000 1 cfg5)).writeFrame 0 rec10 = some s1 ∧ ∃ bs, s1.devRead 0 0x20000 128 = some bs) ∧
    (Map.get {} (flips (trapped 0x80000 1 cfg5)).queues 5).en = true ∧
    (Map.get {} (flips (trapped 0x80000 1 cfg5)).queues 5).pkts.length < 256 ∧ (flips (trapped 0x80000 1 cfg5)).pushes = [] := by
  have hc : ((flips (tried 0x80000 1 cfg5)).crew 0).ctx = 0 := by decide +kernel
  refine ⟨⟨rfl, by decide +kernel, by decide +kernel⟩, ?_, by decide +kernel, by decide +kernel, by decide +kernel⟩
  rw [← hc]
  exact frameWritten_of _ 0 rec10 0x20000 (List.replicate 128 0) List.length_replicate (by decide +kernel) (by decide +kernel)
    (by decide +kernel) (by decide +kernel) (by decide +kernel)
theorem witness_frameNat : (solo crew0).logCore (solo crew0).me.ctx (coreOfKey 0) < 512 := by decide +kernel
theorem witness_svccfgDone :
    let r : SvcReq := { crew := 0, slot := 3, result := 1, install := none, remove := true }
    let s := { mapped { crew0 with phase := .waiting (.service 2) } with svcReqs := [r] }
    s.svcReqs = [r] ∧ r.crew = 0 ∧ (s.crew 0).phase = .waiting (.service 2) := by decide +kernel
theorem witness_strikeReport :
    let s := fun (clk : Nat) => later clk { crew0 with committed := 80 }
    (s 99).strike.en = true ∧ ((s 99).crews.filter fun kc => coreOfKey kc.1 == 0) = [(0, { crew0 with committed := 80 })] ∧
      ((s 99).ctx 0).fix.toNat ≤ 48 ∧ (s 99).clk ≤ 75 + ((s 99).ctx 0).fix.toNat ∧ 75 + ((s 100).ctx 0).fix.toNat < (s 100).clk ∧
      75 ≤ 80 ∧ ({ s 99 with strike := { en := false } } : State).strike.en = false := by decide +kernel

/-! Launches -/

/-- A packet of one party of one crew, with its code at 0x10000 and launch counter 9; of kind 1, a request to relaunch it. -/
def packet0 (kind : Nat) : BitVec 1024 := BitVec.ofNat 1024 (kind + (if kind = 1 then 0 else 0x10000 * 2 ^ 64) + 9 * 2 ^ 320)
def pkt0 (kind : Nat) : Pkt := { data := packet0 kind, age := 0 }
/-- Queue 5 holds that packet. -/
def queued (kind : Nat) (c : Counter) : State :=
  { mapped crew0 with queues := [(5, { en := true, pkts := [pkt0 kind] })], counters := [(9, c)] }

theorem witness_queuePush :
    let x : HwQueue := { en := true, pkts := List.replicate 255 (pkt0 0) }
    (mapped crew0).status.ready = true ∧ (solo crew0).status.ready = false ∧ x.pkts.length < 256 ∧
    256 ≤ { x with pkts := List.replicate 256 (pkt0 0) }.pkts.length ∧ x.devpush = false ∧ (1 : Nat) ≠ x.ctx.toNat := by decide +kernel
theorem witness_packetDequeue :
    (let s := queued 2 {}
     s.queues = [(5, { en := true, pkts := [pkt0 2] })] ∧ s.pktFault { en := true, pkts := [pkt0 2] } (packet0 2) = 1) ∧
    (let s := queued 1 { done := true, retained := some ⟨0x30000, 0⟩ }
     s.eligible 5 { en := true, pkts := [pkt0 1] } (pkt0 1) = true ∧ (packet0 1).extractLsb' 0 4 = 1) ∧
    (let s := queued 0 {}
     s.eligible 5 { en := true, pkts := [pkt0 0] } (pkt0 0) = true ∧ (packet0 0).extractLsb' 0 4 = 0 ∧ (packet0 0).getLsbD 6 = false ∧
       (packet0 0).extractLsb' 368 3 = 0) := by decide +kernel
theorem witness_relaunchDequeue :
    let s := queued 1 { done := true, retained := some ⟨0x30000, 0⟩ }
    s.eligible 5 { en := true, pkts := [pkt0 1] } (pkt0 1) = true ∧ (s.counter (s.phys 0 4096 9)).retained = some ⟨0x30000, 0⟩ ∧
      (s.mapOf 0 (s.phys 0 4096 9)).isNone = true ∧ (s.devRead 0 0x30000 128).isSome = true := by decide +kernel
def slot0 : LaunchSlot :=
  { packet := packet0 0, ctx := 0, dev := 0, q := 5, prio := 0, lctr := 9, age := 0, dequeued := 0, next := 0, parties := none, priv := false
    notice := none, check := false, throt := true, stamps := [] }
theorem witness_partySend :
    let s := { mapped crew0 with slots := [slot0] }
    s.slots = [slot0] ∧ slot0.next < pkParties slot0.packet ∧ s.ctxStopped slot0.ctx = false ∧
      slot0.parties = none ∧ slot0.passed = [] ∧
      (s.homeDie slot0 slot0.next).any (fun d => decide ((s.die d).waiting.length < 4096) && (devPairs s.mode.mode slot0.dev).contains d) = true := by decide +kernel
def wait0 : WaitParty :=
  { lctr := 9, num := 0, ctx := 0, q := 5, prio := 0, dequeued := 0, since := 0, packet := packet0 0, priv := false, notice := none
    run := 0, check := false, throt := true, stamps := [] }
theorem witness_partyPlace :
    (let s := { mapped crew0 with dies := [(0, { waiting := [wait0] })] }
     (s.die 0).waiting = [wait0] ∧ s.ctxStopped wait0.ctx = false ∧
       (s.fitFor 0 wait0).any (fun f => decide (f.keys.Nodup ∧ f.keys.length = pkCrews wait0.packet)) = true) ∧
    (let s := { mapped crew0 with ctxs := [(0, { en := true, contained := true })] }
     s.ctxStopped wait0.ctx = true) := by decide +kernel
theorem witness_placementWaitLimit :
    wait0.since + 65536 ≤ 65536 ∧ ¬wait0.since + 65536 ≤ 65535 := by decide

/-! Writes of records and registers -/

theorem witness_contextWrites :
    let s := mapped crew0
    s.ctxBusy 1 = false ∧ s.devExists 0 = true ∧ s.devExists 1 = false ∧ (s.ctx 1).en = false ∧ (s.ctx 0).en = true ∧
    ((later 0 crew0).ctxExists 0 = true ∧ (later 0 crew0).ctxExists 1 = false) ∧
    ({ s with parties := [(0, party0)] } : State).ctxBusy 0 = true := by decide +kernel
theorem witness_counterControlWrite :
    let v : BitVec 128 := 0x20008_0000_000001_000000
    v.extractLsb' 0 23 = 0 ∧ v.extractLsb' 64 3 = 0 ∧ (mapped crew0).ctxExists (v.extractLsb' 48 16).toNat = true ∧
    ¬((({} : Counter).count ≠ 0) ∧ ({} : Counter).done = false) := by decide +kernel
theorem witness_sheetHomeWrite :
    let v : BitVec 128 := BitVec.ofNat 128 (0x20000 + (1023 + 1024) * 2 ^ 64)
    v.extractLsb' 75 4 = 0 ∧ v.extractLsb' 0 7 = 0 ∧ (mapped crew0).ctxExists (v.extractLsb' 80 16).toNat = true ∧ v.getLsbD 74 = true ∧
    (mapped crew0).writable 0 (BitVec.ofNat 64 ((v.extractLsb' 7 57).toNat * 128)) (16 * ((v.extractLsb' 64 10).toNat + 1)) = true ∧
    (mapped crew0).writable 0 0x80000000 16 = false := by decide +kernel
theorem witness_trapConfigWrite :
    let v : BitVec 256 := BitVec.ofNat 256 (1 + 63 * 2 ^ 10 + 0x20000 * 2 ^ 128 + 0x10000 * 2 ^ 192)
    v.extractLsb' 16 111 = 0 ∧ v.extractLsb' 1 9 = 0 ∧ v.extractLsb' 192 3 = 0 ∧ v.extractLsb' 128 7 = 0 ∧
    (mapped crew0).inShare 64 (v.extractLsb' 10 6).toNat = true := by decide +kernel
theorem witness_collGroupWrite :
    let v : W64 := 1024
    v.extractLsb' 48 15 = 0 ∧ v.extractLsb' 11 21 = 0 ∧ v.extractLsb' 0 11 ≠ 1 ∧ ¬1024 < (v.extractLsb' 0 11).toNat ∧
    ({} : CollGroup).arrivals = [] := by decide
theorem witness_dirtyMapWrite :
    let v : BitVec 128 := BitVec.ofNat 128 ((2 ^ 26 - 1) * 2 ^ 62 + 2 ^ 60)
    let y : DirtyMap := { base := v.extractLsb' 88 40, len := v.extractLsb' 62 26, en := true }
    let s := mapped crew0
    let t := { s with mode := { mode := 8 } }
    s.ctxExists 0 = true ∧ (∀ e, e < 8 → s.mapBits 0 e [(0, y)] ≤ 2 ^ 25) ∧ 2 ^ 25 < t.mapBits 0 0 [(0, y)] ∧
      (devPairs t.mode.mode 0).length = 1 := by decide +kernel
theorem witness_peerRecordWrite :
    let v : BitVec 128 := BitVec.ofNat 128 (1 + 0xFFF * 2 ^ 64)
    v.extractLsb' 76 4 = 0 ∧ v.extractLsb' 2 14 = 0 ∧ ¬(v.getLsbD 0 = true ∧ v.extractLsb' 64 12 = 0) ∧
    (mapped crew0).peerBusy 1023 = false := by decide +kernel
theorem witness_devModeWrite :
    let legal := fun (v : W32) => v.extractLsb' 4 26 = 0 ∧ (v.extractLsb' 0 4 = 1 ∨ v.extractLsb' 0 4 = 2 ∨ v.extractLsb' 0 4 = 8)
    legal 1 ∧ legal 2 ∧ legal 8 ∧ ¬legal 0 ∧ ¬legal 4 ∧ ¬legal 0x11 ∧ (mapped crew0).status.degr = false ∧
    (mapped crew0).ctxBusy 0 = false ∧ (∀ c ∈ (mapped crew0).ctxs, ¬(c.1 ≠ 0 ∧ c.2.en = true)) := by decide +kernel
theorem witness_dieMapWrite :
    (mapped crew0).ctxRuns 0 = false ∧ (mapped crew0).mapOk 0 0x89ABCDEF = true ∧ (mapped crew0).mapOk 0 0 = false ∧
    (mapped crew0).inject.arm = false := by decide +kernel
theorem witness_biasFlipGo :
    let s := { mapped crew0 with host := [⟨0x70000, 0x10000⟩] }
    s.bias.busy = false ∧ inWin s.host (7 * 65536) = true ∧ inWin s.host (8 * 65536) = false ∧ (7 : Nat) ∉ s.granules ∧
    s.heldReqs = [] := by decide +kernel
theorem witness_ptpCfgWrite :
    (BitVec.ofNat 4 9 : BitVec 4).toInt = -7 ∧ (1 : BitVec 4).toInt = 1 ∧ (2 : BitVec 4).toInt = 2 ∧ (8 : BitVec 4).toInt = -8 ∧
    ¬11 < (11 : BitVec 4).toNat ∧ 11 < (12 : BitVec 4).toNat ∧ ¬127 < (127 : BitVec 8).toNat ∧
    (State.reset.datum.locked = false) ∧ ({ locked := true } : Datum).locked = true := by decide +kernel
theorem witness_registerWrites :
    (16 ≤ (16 : BitVec 12).toNat ∧ (15 : BitVec 12).toNat < 16) ∧
    (∀ d ∈ [(16 : BitVec 6), 48], 16 ≤ d.toNat ∧ d.toNat ≤ 48) ∧ (∀ d ∈ [(15 : BitVec 6), 49], d.toNat < 16 ∨ 48 < d.toNat) ∧
    ¬64 * ((0 : BitVec 8).toNat + 1) ≤ (63 : BitVec 16).toNat ∧ 64 * ((0 : BitVec 8).toNat + 1) ≤ (64 : BitVec 16).toNat ∧
    (mapped crew0).devExists 0 = true := by decide +kernel

/-! Recovery, pre-emption, tests -/

theorem witness_agentDead :
    (mapped crew0).silent 2 = false ∧ (2 : Nat) ∉ (later 105000 crew0).dead ∧ Map.get 0 (later 105000 crew0).beat 2 + 105000 ≤ 105000 := by
  decide +kernel
/-- A crew that has reached `ckpt` while device 0 takes a checkpoint. -/
def ckpts (rolling : Bool) (kept : List Kept) : State :=
  { mapped { crew0 with phase := .waiting (.checkpoint 1 2) } with ckpt := [(0, { busy := true, rolling, kept })] }
theorem witness_checkpointComplete :
    let s := ckpts false []
    (Map.get {} s.ckpt 0 : CkptCtl).busy = true ∧ (Map.get {} s.ckpt 0 : CkptCtl).rolling = false ∧
      (s.crew 0).phase = .waiting (.checkpoint 1 2) ∧
      (s.crews.filter fun kc => s.ctxDev kc.2.ctx == 0 && atCheckpoint kc.2).map (·.1) = [0] := by decide +kernel
theorem witness_ckptWrites :
    let v : BitVec 128 := BitVec.ofNat 128 (2 ^ 61)
    let s := { mapped crew0 with dir := [{ line := 0x400, f := 0, l := 31, st := [(2, .m)], num := 7 }] }
    v.extractLsb' 32 7 = 0 ∧ v.getLsbD 61 = true ∧ v.getLsbD 60 = false ∧ s.devExists 0 = true ∧ s.devBusy 0 = false ∧
    (s.dir.map (·.owner)) = [some 2] ∧ s.devCovers 0 (128 * 0x400) = true ∧
    (Map.get {} ({ s with ckpt := [(0, { valid := true })] } : State).ckpt 0 : CkptCtl).valid = true := by decide +kernel
theorem witness_ckptPeriodTimer :
    let c : CkptCtl := { period := 1 }
    c.period ≠ 0 ∧ c.busy = false ∧ c.timer + 210000000 * c.period.toNat ≤ 210000000 ∧
      209999999 < c.timer + 210000000 * c.period.toNat := by decide +kernel
theorem witness_rollbackComplete :
    let κ : Kept := { parcel := 0x20, cells := [(0x20000, 1), (0x20FFF, 2), (0x20000, 3)], poison := [] }
    (Map.get {} (ckpts true [κ]).ckpt 0 : CkptCtl).kept = [κ] ∧ ∀ x ∈ κ.cells, x.1 / 4096 = κ.parcel := by decide +kernel
theorem witness_preempt :
    let v : BitVec 128 := BitVec.ofNat 128 (2 ^ 61)
    let s := mapped crew0
    v.extractLsb' 64 12 = 0 ∧ v.extractLsb' 48 8 = 0 ∧ v.extractLsb' 16 16 = 0 ∧ s.ctxExists (v.extractLsb' 0 16).toNat = true ∧
    s.preempt.busy = false ∧ ({ s with parties := [(0, party0)] } : State).stopUnits 0 ≠ [] ∧
    ({ s with crews := [] } : State).stopUnits 0 = [] ∧ (∀ x ∈ s.parties, x.2.ctx ≠ 0) ∧ (∀ x ∈ s.cores, x.2.arrivals = []) := by decide +kernel
theorem witness_engineStopAck :
    let s := { mapped crew0 with preempt := { busy := true, waitFor := [.array 0, .array 1] } }
    s.preempt.busy = true ∧ s.preempt.restoring = false ∧ .array 0 ∈ s.preempt.waitFor ∧ s.stopReady 0 (.array 0) = true ∧
    (∃ x ∈ s.preempt.waitFor, x ≠ .array 0) ∧ (∀ x ∈ [StopUnit.array 0], x = .array 0) ∧ (∀ x ∈ s.cores, x.2.arrivals = []) ∧
    (∀ x ∈ ({ s with crews := [] } : State).stopUnits 0, s.stopReady 0 x = true) ∧ (∀ x ∈ s.parties, x.2.ctx ≠ 0) := by decide +kernel
theorem witness_testStart :
    let s := { later 65536 crew0 with crews := [], test := { en := true, res := 1 } }
    s.test.en = true ∧ s.test.res = 1 ∧ (∀ kc ∈ s.crews, coreOfKey kc.1 ≠ 0) ∧
    (s.core 0).idleSince + 1024 * s.test.idle.toNat ≤ s.clk ∧ (s.core 0).lastTest = none ∧ State.reset.testDue 0 = false := by decide +kernel

/-! The package -/

theorem witness_bringup :
    let st : DevStatus := { stage := 9 }
    State.reset.powered = false ∧ ({ State.reset with powered := true, status := st } : State).powered = true ∧ st.ready = false ∧
    st.fail = false ∧ st.stage = 9 ∧ ({ stage := 4 } : DevStatus).stage.toNat ≤ 4 := by decide +kernel
theorem witness_linkReplayTimeout : ∃ c ∈ (mapped crew0).ctxs, c.2.en = true :=
  ⟨(0, { en := true, root := 1, ents := 0xFEDCBA98 }), by decide +kernel, by decide +kernel⟩
theorem witness_ptp :
    let d : Datum := { good := 7, count := 50 }
    7 ≤ d.good ∧ d.locked = false ∧ d.scale = false ∧ d.count ≤ 50 ∧ 49 < d.count ∧
    (let e : Datum := { locked := true, count := 3 * 1000, sinceMsg := 0 }
     e.locked = true ∧ e.sinceMsg + 3 * 1000 ≤ e.count) ∧
    (let e : Datum := { holdover := true, count := 600000000000 }
     e.holdover = true ∧ e.holdSince + 600000000000 ≤ e.count) := by decide +kernel
/-- A descriptor without data, for peer 0, that writes a completion value at caddr. -/
def desc0 (caddr : Nat) : BitVec 1024 := BitVec.ofNat 1024 (1 + caddr * 2 ^ 384)
def peersTo (d : BitVec 1024) : State :=
  { mapped crew0 with xqueues := [(3, { en := true, descs := [d] })], peers := [(0, { en := true })] }
theorem witness_transportDescriptors :
    (Map.get {} (peersTo (desc0 0)).xqueues 3 : XQueue).descs = [desc0 0] ∧ (peersTo (desc0 0)).xdFault 3 { en := true } (desc0 0) = 0 ∧
    xdCaddr (desc0 0) = 0 ∧ (peersTo (desc0 0x20008)).xdFault 3 { en := true } (desc0 0x20008) = 0 ∧ xdCaddr (desc0 0x20008) ≠ 0 ∧
    maps (peersTo (desc0 0x20008)) 0 0x20008 .write (bytesOf 8 (xdCval (desc0 0x20008)).toNat).length = false ∧
    (peersTo 2).xdFault 3 { en := true } 2 = 6 := by decide +kernel
theorem witness_transportDescriptorPush :
    let q : XQueue := { en := true, devpush := true, descs := List.replicate 255 0 }
    q.en = true ∧ q.descs.length < 256 ∧ q.devpush = true ∧ 256 ≤ { q with descs := List.replicate 256 0 }.descs.length := by decide +kernel
theorem witness_transportIncomingWrite :
    let s := { mapped crew0 with peers := [(1023, { en := true, mac := 5 })] }
    let r : PeerRec := Map.get {} s.peers 1023
    s.status.ready = true ∧ r.en = true ∧ r.mac = 5 ∧ r.ctx.toNat = 0 ∧ maps s 0 0x20000 .write 8 = false ∧
    (s.devWrite 0 0x80000000 [1]).isNone = true := by decide +kernel
theorem witness_errorReport :
    let r : Report := { src := 6 }
    let s := { mapped crew0 with reports := [r], elog := { base := 0x20, en := true } }
    s.reports = [r] ∧ s.elog.en = true ∧ (s.elog.head.toNat + 1) % (64 * (s.elog.size.toNat + 1)) ≠ s.elog.tail.toNat ∧
    (63 + 1) % (64 * (s.elog.size.toNat + 1)) = s.elog.tail.toNat ∧ s.elog.base.toNat * 4096 + 64 * 63 + 64 ≤ ctlBase := by decide +kernel
theorem plainMemory_mapped (c : Crew) : PlainMemory (mapped c) := ⟨by rfl, by rfl, by rfl, by rfl, by rfl⟩
theorem witness_sampleTimer :
    let s := { mapped crew0 with sample := { buf := 0x20, en := true, period := 1 } }
    s.crews = [(0, crew0)] ∧ slotOfKey 0 < 96 ∧ crew0.ctx = s.sample.ctx.toNat ∧ s.sample.buf.toNat * 4096 + 32 * s.sample.next + 32 ≤ ctlBase := by
  decide +kernel
theorem witness_attReportDone :
    let a : AttCtl := { nonce := 0x800, dest := 0x900, busy := true }
    a.busy = true ∧ a.dest.toNat * 64 + 512 ≤ ctlBase ∧ a.nonce.toNat * 64 + 64 ≤ ctlBase := by decide +kernel
theorem witness_testImageVerified :
    ({ busy := true } : TestCtl).busy = true ∧ (8 % 8 = 0 ∧ 8 ≤ 8 ∧ 8 ≤ 65536) ∧ (65536 % 8 = 0 ∧ 65536 ≤ 65536) := by decide


end Sys2Proof.Tests
end

section
/-! PROOFS. Memory keeps its canonical form (O9, O10). Most operations leave memory as it is; the others write it by `memPut`
or leave cells out, and both keep the form. From the operations the fact rises to instructions and events, to a crew's word, to
a clk and to `step`. -/

namespace Sys2Proof.Machine

/-! ## What leaves memory as it is -/

section
variable (s : State)

@[simp] theorem State.mem_ite {p : Prop} [Decidable p] (s t : State) : (if p then s else t).mem = if p then s.mem else t.mem :=
  apply_ite State.mem p s t

@[simp] theorem foldl_mem {α : Type} {f : State → α → State} (hf : ∀ s x, (f s x).mem = s.mem) (l : List α) (s : State) :
    (l.foldl f s).mem = s.mem := by
  induction l generalizing s with
  | nil => rfl
  | cons x xs ih => exact (ih _).trans (hf s x)

@[simp] theorem State.poisonSectors_mem (secs : List Nat) : (s.poisonSectors secs).mem = s.mem := rfl

@[simp] theorem State.clearSectors_mem (secs : List Nat) : (s.clearSectors secs).mem = s.mem := rfl

@[simp] theorem State.onCrew_mem (k : Nat) (f : Crew → Crew) : (s.onCrew k f).mem = s.mem := rfl

@[simp] theorem State.putMe_mem (c : Crew) : (s.putMe c).mem = s.mem := rfl

@[simp] theorem State.onMe_mem (f : Crew → Crew) : (s.onMe f).mem = s.mem := rfl

@[simp] theorem State.onMyParty_mem (f : Party → Party) : (s.onMyParty f).mem = s.mem := rfl

@[simp] theorem State.onCnt_mem (core : Nat) (f : CoreCnt → CoreCnt) : (s.onCnt core f).mem = s.mem := rfl

@[simp] theorem State.pushLate_mem (i : Instr) : (s.pushLate i).mem = s.mem := by
  simp [State.pushLate]

@[simp] theorem State.oneEvent_mem (t : State) : (s.oneEvent t).mem = t.mem := by
  unfold State.oneEvent
  dsimp only
  split <;> simp

@[simp] theorem State.waitMe_mem (w : Wait) : (s.waitMe w).mem = s.mem := rfl

@[simp] theorem State.commit_mem (k : Nat) : (s.commit k).mem = s.mem := rfl

@[simp] theorem State.commitMe_mem : (s.commitMe).mem = s.mem := rfl

@[simp] theorem State.onCrewPast_mem (k : Nat) (f : Crew → Crew) : (s.onCrewPast k f).mem = s.mem := by
  simp [State.onCrewPast]

@[simp] theorem State.trapCounts_mem (k : Nat) (r : TrapRec) : (s.trapCounts k r).mem = s.mem := by
  simp [State.trapCounts]

@[simp] theorem State.containment_mem (ctx cause : Nat) (addr : W64) : (s.containment ctx cause addr).mem = s.mem := rfl

@[simp] theorem State.contain_mem (ctx cause : Nat) : (s.contain ctx cause).mem = s.mem := rfl

@[simp] theorem State.snapshotOf_mem (k : Nat) (c : Crew) : (s.snapshotOf k c).mem = s.mem := rfl

@[simp] theorem State.snapshot_mem (k : Nat) : (s.snapshot k).mem = s.mem := rfl

@[simp] theorem State.secondError_mem (k : Nat) (r : TrapRec) : (s.secondError k r).mem = s.mem := by
  unfold State.secondError
  dsimp only
  split
  · refine (foldl_mem (fun s o => ?_) _ _).trans (by simp)
    split <;> simp
  · simp

@[simp] theorem State.testEnd_mem (k : Nat) (fail : Option (BitVec 16)) : (s.testEnd k fail).mem = s.mem := by
  unfold State.testEnd
  split <;> simp

@[simp] theorem State.trapCrew_mem (k : Nat) (r : TrapRec) : (s.trapCrew k r).mem = s.mem := by
  unfold State.trapCrew
  dsimp only
  split <;> simp

@[simp] theorem State.trap_mem (cause : Nat) (d0 d1 : W64) (ls : W32) (perf : Bool) :
    (s.trap cause d0 d1 ls perf).mem = s.mem := by
  simp [State.trap]

@[simp] theorem State.rewind_mem (k : Nat) (p : Past) : (s.rewind k p).mem = s.mem := rfl

@[simp] theorem State.trapOlder_mem (k at_ : Nat) (r : Crew → TrapRec) : (s.trapOlder k at_ r).mem = s.mem := by
  unfold State.trapOlder
  split <;> simp

@[simp] theorem State.carry_mem (lines : List Nat) (ch : Clocks) : (s.carry lines ch).mem = s.mem := by
  simp [State.carry]

@[simp] theorem State.dropOffs_mem (a line f l : Nat) : (s.dropOffs a line f l).mem = s.mem := rfl

@[simp] theorem State.pass_mem (port line f l dst : Nat) : (s.pass port line f l dst).mem = s.mem := by
  simp [State.pass]

@[simp] theorem State.grantLease_mem (core line f l : Nat) : (s.grantLease core line f l).mem = s.mem := by
  unfold State.grantLease
  dsimp only
  split <;> simp

@[simp] theorem State.boundUnclean_mem (die : Nat) : (s.boundUnclean die).mem = s.mem := by
  unfold State.boundUnclean
  repeat' split
  all_goals simp

@[simp] theorem State.stampWrite_mem (core slot line f l : Nat) : (s.stampWrite core slot line f l).mem = s.mem := by
  unfold State.stampWrite
  dsimp only
  split <;> simp

@[simp] theorem State.coreAcquire_mem (core : Nat) (sc : Scope) (wts : Stamp) (ch : Clocks) :
    (s.coreAcquire core sc wts ch).mem = s.mem := by
  unfold State.coreAcquire
  split <;> simp

@[simp] theorem State.acquire_mem (k : Nat) (sc : Scope) (wts : Stamp) (ch : Clocks) :
    (s.acquire k sc wts ch).mem = s.mem := by
  unfold State.acquire
  split <;> simp

@[simp] theorem State.acquireKept_mem (k : Nat) (sc : Scope) (ch : Clocks) : (s.acquireKept k sc ch).mem = s.mem := by
  simp [State.acquireKept]

@[simp] theorem State.holdReq_mem (r : HeldReq) : (s.holdReq r).mem = s.mem := rfl

@[simp] theorem State.dropWatchers_mem (p : Nat → Bool) (line f l : Nat) : (s.dropWatchers p line f l).mem = s.mem := rfl

@[simp] theorem State.trigger_mem (by_ : Option Nat) (cs : List Host.Cell) : (s.trigger by_ cs).mem = s.mem := rfl

@[simp] theorem State.dirty_mem (cs : List Host.Cell) (lctr : Option Nat) : (s.dirty cs lctr).mem = s.mem := rfl

@[simp] theorem State.keepFor_mem (loc d : Nat) : (s.keepFor loc d).mem = s.mem := by
  simp [State.keepFor]

@[simp] theorem State.keepParcel_mem (loc : Nat) : (s.keepParcel loc).mem = s.mem := by
  simp [State.keepParcel]

@[simp] theorem State.dropResv_mem (a line : Nat) : (s.dropResv a line).mem = s.mem := rfl

@[simp] theorem State.lose_mem (a line f l : Nat) (by_ : Option Nat) : (s.lose a line f l by_).mem = s.mem := by
  simp [State.lose]

@[simp] theorem State.sendRec_mem (r : ChkRec) : (s.sendRec r).mem = s.mem := rfl

@[simp] theorem State.sendClose_mem (d : DirSpan) : (s.sendClose d).mem = s.mem := rfl

@[simp] theorem State.sendOpen_mem (line f l : Nat) (num : BitVec 24) (o : Option Nat) :
    (s.sendOpen line f l num o).mem = s.mem := rfl

@[simp] theorem State.sendCreated_mem (d : DirSpan) : (s.sendCreated d).mem = s.mem := rfl

@[simp] theorem State.setDir_mem (line f l : Nat) (new : Option DirSpan) : (s.setDir line f l new).mem = s.mem := rfl

@[simp] theorem State.mergeCloses_mem (d : DirSpan) : (s.mergeCloses d).mem = s.mem := by
  unfold State.mergeCloses
  split <;> simp -implicitDefEqProofs

@[simp] theorem State.agentMeets_mem (a line : Nat) : (s.agentMeets a line).mem = s.mem := by
  simp [State.agentMeets]

@[simp] theorem State.homeOpen_mem (ds : List DirSpan) : (s.homeOpen ds).mem = s.mem := by
  simp [State.homeOpen]

@[simp] theorem State.walks_mem (as : List Acc) (write : Bool) : (s.walks as write).mem = s.mem := rfl

@[simp] theorem State.hold_mem (e : Effect) (rel : Option Scope) : (s.hold e rel).mem = s.mem := rfl

@[simp] theorem State.traceReads_mem (p : Nat) (locs : List Nat) : (s.traceReads p locs).mem = s.mem := by
  simp [State.traceReads]

@[simp] theorem State.always_mem (p why : Nat) : (s.always p why).mem = s.mem := rfl

@[simp] theorem State.reorder_mem (k : Nat) (l : ROp) (sc : Nat) : (s.reorder k l sc).mem = s.mem := by
  simp [State.reorder]

@[simp] theorem State.winPush_mem (k : Nat) (r : ROp) : (s.winPush k r).mem = s.mem := by
  unfold State.winPush
  dsimp only
  split
  · split <;> simp
  · simp

@[simp] theorem State.winDone_mem (k : Nat) (p : ROp → Bool) : (s.winDone k p).mem = s.mem := by
  simp [State.winDone]

@[simp] theorem State.winHome_mem (k : Nat) (sc : Scope) : (s.winHome k sc).mem = s.mem := by
  simp [State.winHome]

@[simp] theorem State.winArrive_mem (sc : Scope) : (s.winArrive sc).mem = s.mem := by
  unfold State.winArrive
  dsimp only
  split
  · simp
  · split <;> simp

@[simp] theorem State.appendPkt_mem (q : Nat) (p : Pkt) : (s.appendPkt q p).mem = s.mem := rfl

@[simp] theorem State.hretFrame_mem (frame : Nat) : (s.hretFrame frame).mem = s.mem := by
  unfold State.hretFrame
  split <;> simp

@[simp] theorem State.sendLanes_mem (tags : List LaneTag) : (s.sendLanes tags).mem = s.mem := by
  unfold State.sendLanes
  split
  · simp
  · split <;> simp

@[simp] theorem State.fillCode_mem (core loc : Nat) : (s.fillCode core loc).mem = s.mem := by
  simp [State.fillCode]

@[simp] theorem State.fetched_mem (k : Nat) (va : W64) : (s.fetched k va).mem = s.mem := by
  unfold State.fetched
  dsimp only
  split <;> simp

@[simp] theorem State.fillBlock_mem (k : Nat) (pc : W64) (len : Nat) : (s.fillBlock k pc len).mem = s.mem := by
  unfold State.fillBlock
  dsimp only
  split
  · rfl
  · refine foldl_mem (fun s i => ?_) _ _
    split <;> simp

@[simp] theorem State.endRun_mem (k : Nat) (c : Crew) : (s.endRun k c).mem = s.mem := by
  unfold State.endRun
  split
  · simp
  · split <;> simp

@[simp] theorem State.laneBack_mem (t : LaneTag) (f : Crew → Crew) : (s.laneBack t f).mem = s.mem := by
  simp [State.laneBack]

@[simp] theorem State.exitOrigins_mem (c : Crew) (m : W32) : (s.exitOrigins c m).mem = s.mem := by
  unfold State.exitOrigins
  split
  · refine foldl_mem (fun s l => ?_) _ _
    split <;> simp
  · rfl

@[simp] theorem State.endAll_mem (k : Nat) : (s.endAll k).mem = s.mem := by
  simp [State.endAll]

@[simp] theorem State.markTime_mem (r : SpecReg) : (s.markTime r).mem = s.mem := by
  unfold State.markTime
  split <;> simp

@[simp] theorem State.onPlate_mem (num : Nat) (f : Plate → Plate) : (s.onPlate num f).mem = s.mem := rfl

@[simp] theorem State.acquirePlate_mem (p : Plate) : (s.acquirePlate p).mem = s.mem := by
  unfold State.acquirePlate
  split <;> simp

@[simp] theorem State.holdGroups_mem (sc : Scope) (rel : Option Scope) (gs : List AtomGroup) :
    (s.holdGroups sc rel gs).mem = s.mem := by
  simp -implicitDefEqProofs [State.holdGroups]

@[simp] theorem State.dropCopies_mem (sc : Scope) (core line : Nat) : (s.dropCopies sc core line).mem = s.mem := rfl

@[simp] theorem State.invOut_mem (sc : Scope) (core line : Nat) : (s.invOut sc core line).mem = s.mem := rfl

@[simp] theorem State.seeOwner_mem (p : Plate) : (s.seeOwner p).mem = s.mem := by
  simp [State.seeOwner]

@[simp] theorem State.appendArr_mem (core : Nat) (x : ArrCmd) : (s.appendArr core x).mem = s.mem := rfl

@[simp] theorem State.holdPlate_mem (num : Nat) : (s.holdPlate num).mem = s.mem := rfl

@[simp] theorem State.batchCmd_mem (r : Region) (op : ArrOp) (dur : Nat) : (s.batchCmd r op dur).mem = s.mem := rfl

@[simp] theorem State.releasePlates_mem (k : Nat) (b : Batch) : (s.releasePlates k b).mem = s.mem := by
  simp [State.releasePlates]

@[simp] theorem State.waitBatches_mem (n : W32) : (s.waitBatches n).mem = s.mem := by
  unfold State.waitBatches
  dsimp only
  split <;> simp

@[simp] theorem State.batchGot_mem (k : Nat) (fl : Fl) (poison : Option (Nat × Nat)) :
    (s.batchGot k fl poison).mem = s.mem := by
  simp [State.batchGot]

@[simp] theorem State.perform1_mem (core : Nat) (x : ArrCmd) : (s.perform1 core x).mem = s.mem := by
  unfold State.perform1
  dsimp only
  repeat' split
  all_goals simp

@[simp] theorem State.plateOut_mem (k core : Nat) (g : AtomGroup) (met rel : Clocks) :
    (s.plateOut k core g met rel).mem = s.mem := by
  refine (State.push_mem _ _).trans ((State.onCrew_mem _ _ _).trans (foldl_mem (fun s r => ?_) _ _))
  dsimp only
  split
  · simp
  · split <;> simp

@[simp] theorem State.plateArrive_mem (x : Nat × Held) : (s.plateArrive x).mem = s.mem := by
  unfold State.plateArrive
  dsimp only
  repeat' split
  all_goals simp

@[simp] theorem State.platesUpTo_mem (cluster : Nat) (upTo : Option Nat) : (s.platesUpTo cluster upTo).mem = s.mem := by
  simp [State.platesUpTo]

@[simp] theorem State.platesAll_mem : (s.platesAll).mem = s.mem := by
  simp [State.platesAll]

@[simp] theorem State.finishCmd_mem (c : EngCmd) (status : Nat) (wts : Stamp) (ivals : List IvalRef) :
    (s.finishCmd c status wts ivals).mem = s.mem := by
  unfold State.finishCmd
  split <;> simp

@[simp] theorem State.poisonRange_mem (c : EngCmd) : (s.poisonRange c).mem = s.mem := by
  unfold State.poisonRange
  split <;> simp

@[simp] theorem State.collFail_mem (core : Nat) (c : EngCmd) (status : Nat) : (s.collFail core c status).mem = s.mem := by
  simp [State.collFail]

@[simp] theorem State.collArrive_mem (core : Nat) (c : EngCmd) : (s.collArrive core c).mem = s.mem := by
  simp [State.collArrive]

@[simp] theorem State.combine_mem (n : Nat) : (s.combine n).mem = s.mem := by
  unfold State.combine
  dsimp only
  split
  · rfl
  · split
    · simp
    · refine (foldl_mem (fun s b => ?_) _ _).trans rfl
      split <;> simp

@[simp] theorem State.setBar_mem (p n : Nat) (b : Barrier) : (s.setBar p n b).mem = s.mem := rfl

@[simp] theorem State.arrived_mem (p n : Nat) (b : Barrier) : (s.arrived p n b).mem = s.mem := by
  simp [State.arrived]

@[simp] theorem State.seeBar_mem (k : Nat) (b : Barrier) (p : BitVec 16) : (s.seeBar k b p).mem = s.mem := by
  simp [State.seeBar]

@[simp] theorem State.setQueue_mem (p q : Nat) (x : CQueue) : (s.setQueue p q x).mem = s.mem := rfl

@[simp] theorem State.received_mem (k : Nat) (event : Bool) (i : QItem) : (s.received k event i).mem = s.mem := by
  unfold State.received
  dsimp only
  repeat' split
  all_goals simp

@[simp] theorem State.wakeNext_mem (k : Nat) (f : Crew → Crew) : (s.wakeNext k f).mem = s.mem := rfl

@[simp] theorem State.parked_mem (k : Nat) (sd : Option SReg) (status : Nat) : (s.parked k sd status).mem = s.mem := by
  unfold State.parked
  dsimp only
  split <;> simp

@[simp] theorem State.acquireBoard_mem (k : Nat) (x : SheetHome) : (s.acquireBoard k x).mem = s.mem := rfl

@[simp] theorem State.clearIval_mem (r : IvalRef) : (s.clearIval r).mem = s.mem := rfl

@[simp] theorem State.putIval_mem (x : ChkIval) : (s.putIval x).mem = s.mem := rfl

@[simp] theorem State.stepCounter_mem (n k : Nat) : (s.stepCounter n k).mem = s.mem := by
  simp [State.stepCounter]

@[simp] theorem State.linkParents_mem (ps : List (Level × Nat)) : (State.linkParents ps s).mem = s.mem := by
  induction ps generalizing s with
  | nil => rfl
  | cons p ps ih => exact (ih _).trans rfl

@[simp] theorem State.discardPacket_mem (ctx : Nat) (d : BitVec 1024) : (s.discardPacket ctx d).mem = s.mem := by
  unfold State.discardPacket
  split <;> simp

@[simp] theorem State.setDirty_mem (parcel : Nat) (lctr : Option Nat) : (s.setDirty parcel lctr).mem = s.mem := rfl

@[simp] theorem State.ckptDone_mem (dev : Nat) : (s.ckptDone dev).mem = s.mem := by
  refine (foldl_mem (fun s kc => ?_) _ _).trans rfl
  split <;> simp

@[simp] theorem State.pushQueue_mem (q : Nat) (who : Pusher) (full : Bool) (data : BitVec 1024) (ts : Clocks) :
    (s.pushQueue q who full data ts).mem = s.mem := by
  unfold State.pushQueue
  dsimp only
  split
  · rfl
  · split <;> rfl

@[simp] theorem State.pushX_mem (x : Nat) (who : Pusher) (full : Bool) (data : BitVec 1024) :
    (s.pushX x who full data).mem = s.mem := rfl

@[simp] theorem State.pushesUpTo_mem (upTo : Option Nat) : (s.pushesUpTo upTo).mem = s.mem := by
  simp [State.pushesUpTo]

@[simp] theorem State.svcDone_mem (k : Nat) : (s.svcDone k).mem = s.mem := by
  unfold State.svcDone
  dsimp only
  split
  · simp
  · split <;> simp

@[simp] theorem State.entryTrap_mem (k cause : Nat) (d0 d1 word : W64) : (s.entryTrap k cause d0 d1 word).mem = s.mem := by
  simp [State.entryTrap]

theorem State.spillOut_mem {k : Nat} {va : W64} {bs : List Byte} {frame : Bool} {t : State}
    (e : s.spillOut k va bs frame = some t) : t.mem = s.mem := by
  obtain ⟨ls, -, rfl⟩ := Option.map_eq_some_iff.mp e
  rfl

theorem State.spillFrame_mem {k : Nat} {t : State} (e : s.spillFrame k = some t) : t.mem = s.mem := by
  unfold State.spillFrame at e
  dsimp only at e
  split at e
  · cases e; rfl
  · split at e
    · cases e; rfl
    · obtain ⟨u, hu, rfl⟩ := Option.map_eq_some_iff.mp e
      have hm := State.spillOut_mem s hu
      exact hm

@[simp] theorem State.enterBlock_mem (k first : Nat) : (s.enterBlock k first).mem = s.mem := by
  unfold State.enterBlock
  extract_lets c
  split
  · simp
  · next s1 base _ w _ =>
    have h1 : s1.mem = s.mem := s.fetched_mem _ _
    clear_value s1 base
    dsimp only
    split
    · simp [h1]
    · split
      · simp [h1]
      · iterate 3 (split; · simp [h1])
        split
        · simp [h1]
        · next t ht => simp [State.spillFrame_mem _ ht, h1]

@[simp] theorem State.afterIssue_mem (k : Nat) (old : Crew) (i : Instr) : (s.afterIssue k old i).mem = s.mem := by
  unfold State.afterIssue
  dsimp only
  repeat' split
  all_goals simp

@[simp] theorem State.groupOut_mem (k : Nat) (g : AtomGroup) : (s.groupOut k g).mem = s.mem := rfl

@[simp] theorem State.missScore_mem (core line : Nat) : (s.missScore core line).mem = s.mem := by
  simp [State.missScore]

@[simp] theorem State.clampClocks_mem (d : Nat) : (s.clampClocks d).mem = s.mem := by
  simp [State.clampClocks]

@[simp] theorem State.clean_mem (a line f l : Nat) : (s.clean a line f l).mem = s.mem := by
  unfold State.clean
  split <;> simp

@[simp] theorem State.relDone_mem (k : Nat) (sc : Scope) : (s.relDone k sc).mem = s.mem := by
  simp [State.relDone]

@[simp] theorem State.finishAtom_mem (k : Nat) (o : AtomOp) : (s.finishAtom k o).mem = s.mem := by
  unfold State.finishAtom
  extract_lets s1 s2
  have h2 : s2.mem = s.mem := by
    dsimp only [s2]
    split <;> simp [s1]
  clear_value s2
  split
  · exact h2
  · next d0 s3 _ _ _ _ =>
    have h3 : s3.mem = s2.mem := by
      dsimp only [s3]
      split <;> simp
    simp [h2, h3]

@[simp] theorem State.wakeIf_mem (k : Nat) (p : Wait → Bool) : (s.wakeIf k p).mem = s.mem := by
  unfold State.wakeIf
  split <;> simp

@[simp] theorem State.setBack_mem (b : SetBack) : (s.setBack b).mem = s.mem := by
  unfold State.setBack
  split
  · simp
  · split <;> simp

@[simp] theorem State.setBackChecked_mem (b : SetBack) : (s.setBackChecked b).mem = s.mem := by
  unfold State.setBackChecked
  split <;> simp

@[simp] theorem State.freeParty_mem (p : Nat) : (s.freeParty p).mem = s.mem := by
  simp [State.freeParty]

@[simp] theorem State.leaveBehind_mem (k : Nat) : (s.leaveBehind k).mem = s.mem := by
  simp [State.leaveBehind]

@[simp] theorem State.cleanFor_mem (st : Map Stamp) : (s.cleanFor st).mem = s.mem := by
  simp [State.cleanFor]

@[simp] theorem State.formHandler_mem (core slot : Nat) (ts : List LaneTag) : (s.formHandler core slot ts).mem = s.mem := by
  unfold State.formHandler
  split <;> simp

@[simp] theorem State.sendNotice_mem (k : Nat) (r : TrapRec) : (s.sendNotice k r).mem = s.mem := by
  unfold State.sendNotice
  dsimp only
  split
  · simp
  · split <;> simp

@[simp] theorem State.replay_mem (k : Nat) : (s.replay k).mem = s.mem := by
  unfold State.replay
  split <;> simp

@[simp] theorem State.zeroFit_mem (f : Fit) : (s.zeroFit f).mem = s.mem := by
  simp -implicitDefEqProofs [State.zeroFit]

@[simp] theorem State.endTests_mem (cores : List Nat) : (s.endTests cores).mem = s.mem := by
  simp -implicitDefEqProofs [State.endTests]

@[simp] theorem State.startAcquire_mem (cores : List Nat) (st : Clocks) : (s.startAcquire cores st).mem = s.mem := by
  simp [State.startAcquire]

@[simp] theorem State.placeNew_mem (w : WaitParty) (die : Nat) (f : Fit) : (s.placeNew w die f).mem = s.mem := by
  simp -implicitDefEqProofs [State.placeNew]

@[simp] theorem State.waitLimit_mem (die : Nat) : (s.waitLimit die).mem = s.mem := rfl

@[simp] theorem State.onQueue_mem (q : Nat) (f : HwQueue → HwQueue) : (s.onQueue q f).mem = s.mem := rfl

@[simp] theorem State.haltQueues_mem : (s.haltQueues).mem = s.mem := rfl

@[simp] theorem State.relaunch_mem (q : Nat) (x : HwQueue) (p : Pkt) : (s.relaunch q x p).mem = s.mem := by
  unfold State.relaunch
  extract_lets ctx dev lctr s1
  split
  · rfl
  · next m s2 s3 _ _ _ =>
    have h2 : s2.mem = s.mem := by
      clear_value m
      dsimp only [s2]
      split <;> rfl
    have h3 : s3.mem = s.mem := h2
    clear_value s3
    split <;> simp [h3]

@[simp] theorem State.sendOne_mem : (s.sendOne).mem = s.mem := by
  unfold State.sendOne
  dsimp only
  split <;> simp

@[simp] theorem State.onX_mem (x : Nat) (f : XQueue → XQueue) : (s.onX x f).mem = s.mem := rfl
-- TODO State.pushX def State.pushX (x : Nat) (who : Pusher) (full : Bool) (data : BitVec 1024) (s : State) : State :=

@[simp] theorem State.onCfg_mem (d : Nat) (f : DevCfg → DevCfg) : (s.onCfg d f).mem = s.mem := by
  simp [State.onCfg]

@[simp] theorem State.ctxWrite_mem (n : Nat) (v : BitVec 128) : (s.ctxWrite n v).mem = s.mem := by
  simp [State.ctxWrite]

@[simp] theorem State.ready_mem : (s.ready).mem = s.mem := rfl

@[simp] theorem State.containAll_mem : (s.containAll).mem = s.mem := by
  simp -implicitDefEqProofs [State.containAll]

@[simp] theorem State.testWrite_mem (v : BitVec 128) : (s.testWrite v).mem = s.mem := by
  simp [State.testWrite]

@[simp] theorem State.onCkpt_mem (d : Nat) (f : CkptCtl → CkptCtl) : (s.onCkpt d f).mem = s.mem := rfl

@[simp] theorem State.heartbeat_mem (a : Nat) : (s.heartbeat a).mem = s.mem := rfl

@[simp] theorem State.takeAway_mem (key : Nat) : (s.takeAway key).mem = s.mem := rfl

@[simp] theorem State.saveHandlers_mem (ctx : Nat) : (s.saveHandlers ctx).mem = s.mem := rfl

@[simp] theorem State.restoreParty_mem (ctx die lctr num : Nat) : (s.restoreParty ctx die lctr num).mem = s.mem := by
  unfold State.restoreParty
  split <;> simp

@[simp] theorem State.restoreStart_mem (ctx : BitVec 16) : (s.restoreStart ctx).mem = s.mem := by
  simp [State.restoreStart]

@[simp] theorem State.returnHandler_mem (h : Crew) : (s.returnHandler h).mem = s.mem := by
  unfold State.returnHandler
  dsimp only
  split <;> simp

@[simp] theorem State.returnHandlers_mem : (s.returnHandlers).mem = s.mem := by
  simp [State.returnHandlers]

@[simp] theorem State.wakeAll_mem : (s.wakeAll).mem = s.mem := rfl

@[simp] theorem State.beats_mem : (s.beats).mem = s.mem := by
  simp -implicitDefEqProofs [State.beats]

@[simp] theorem State.freeAll_mem : (s.freeAll).mem = s.mem := by
  simp [State.freeAll]

end

/-! ## What changes memory and keeps its form -/

theorem foldl_wf {α : Type} {f : State → α → State}
    (hf : ∀ s x, Memory.wf s.mem = true → Memory.wf (f s x).mem = true) (l : List α) {s : State} (h : Memory.wf s.mem = true) :
    Memory.wf (l.foldl f s).mem = true := by
  induction l generalizing s with
  | nil => exact h
  | cons x xs ih => exact ih (hf s x h)

theorem foldl_memPut_wf {α : Type} (cells : α → List Host.Cell) (l : List α) {m : List Host.Cell} (h : Memory.wf m = true) :
    Memory.wf (l.foldl (fun m x => memPut m (cells x)) m) = true := by
  induction l generalizing m with
  | nil => exact h
  | cons x xs ih => exact ih (memPut_wf h _)

@[simp] theorem Memory.wf_ite {p : Prop} [Decidable p] {m n : List Host.Cell} (hm : Memory.wf m = true) (hn : Memory.wf n = true) :
    Memory.wf (if p then m else n) = true := by
  split <;> assumption

section
variable {s : State} (h : Memory.wf s.mem = true)
include h

@[simp] theorem State.newSource_wf (line f l dst : Nat) (stay : List Nat) :
    Memory.wf (s.newSource line f l dst stay).mem = true :=
  foldl_memPut_wf _ _ h

@[simp] theorem State.giveUp_wf (a line f l : Nat) : Memory.wf (s.giveUp a line f l).mem = true := by
  unfold State.giveUp
  split
  · exact h
  · split
    · exact h
    · simp [h]
    · simp [h]

@[simp] theorem State.l2Room_wf (a line : Nat) : Memory.wf (s.l2Room a line).mem = true := by
  unfold State.l2Room
  dsimp only
  split
  · exact h
  · split
    · exact h
    · exact foldl_wf (fun s x h => s.giveUp_wf h _ _ _ _) _ h

@[simp] theorem State.gain_wf (a line f l : Nat) : Memory.wf (s.gain a line f l).mem = true := by
  simp [State.gain, h]

@[simp] theorem State.merge_wf (a line f l : Nat) (ms : List DirSpan) (write : Bool) (by_ : Option Nat) :
    Memory.wf (s.merge a line f l ms write by_).mem = true := by
  unfold State.merge
  extract_lets sw s1 s2 rest restH s3 s4 s5 s6 num owned s7 s8
  have h5 : s5.mem = s.mem := by simp -implicitDefEqProofs [s5, s4, s3, s2, s1]
  have h6 : Memory.wf s6.mem = true := State.newSource_wf (h5 ▸ h) _ _ _ _ _
  simp [s8, s7, h6]

@[simp] theorem State.request_wf (a line f l : Nat) (write : Bool) (by_ : Option Nat) (asks : Bool) :
    Memory.wf (s.request a line f l write by_ asks).mem = true := by
  unfold State.request
  extract_lets s1 mp f l fresh d s2 listed mine w1 w2 w3 w4 w5 w6 r1 r2 r3
  have h1 : Memory.wf s1.mem = true := by simp [s1, h]
  have h2 : Memory.wf s2.mem = true := by simp [s2, h1]
  have hw4 : Memory.wf w4.mem = true := State.newSource_wf (by simp [w3, w2, w1, h2]) _ _ _ _ _
  have hr2 : Memory.wf r2.mem = true := by simp [r2, r1, h2]
  have hr3 : Memory.wf r3.mem = true := by
    dsimp only [r3]
    clear_value d
    split <;> simp [hr2]
  clear_value mine
  split
  · exact State.merge_wf h1 _ _ _ _ _ _ _
  · split
    · split
      · exact h2
      · exact h2
      · exact State.gain_wf (by simp [w6, w5, hw4]) _ _ _ _
    · split
      · exact h2
      · exact State.gain_wf hr3 _ _ _ _
end

section
variable {s : State} (h : Memory.wf s.mem = true)
include h

@[simp] theorem State.homeInval_wf (line f l : Nat) (by_ : Option Nat) :
    Memory.wf (s.homeInval line f l by_).mem = true :=
  foldl_wf (fun s d h => by simp -implicitDefEqProofs [h]) _ h

@[simp] theorem State.homeCells_wf (cs : List Host.Cell) (lctr by_ : Option Nat) (ch : Clocks) :
    Memory.wf (s.homeCells cs lctr by_ ch).mem = true := by
  unfold State.homeCells
  extract_lets cs sp s1 ds s2 s3 s4
  have h2 : Memory.wf s2.mem = true := foldl_wf (fun s x h => by simp [h]) _ (by simp [s1, h])
  have h3 : Memory.wf s3.mem = true := State.perform_wf (by simp [h2]) cs
  simp -implicitDefEqProofs [s4, h3]

theorem State.devWrite_wf {ctx : Nat} {va : W64} {bs : List Byte} {lctr : Option Nat} {ch : Clocks} {t : State}
    (e : s.devWrite ctx va bs lctr ch = some t) : Memory.wf t.mem = true := by
  unfold State.devWrite at e
  extract_lets locs cs at e
  split at e
  · cases e
  · split at e
    · cases e
      simp -implicitDefEqProofs [h]
    · cases e
      exact State.homeCells_wf h _ _ _ _

@[simp] theorem State.devWrite_getD_wf (ctx : Nat) (va : W64) (bs : List Byte) (lctr : Option Nat) (ch : Clocks) :
    Memory.wf ((s.devWrite ctx va bs lctr ch).getD s).mem = true := by
  cases e : s.devWrite ctx va bs lctr ch with
  | none => exact h
  | some t => exact State.devWrite_wf h e

@[simp] theorem State.l2Cells_wf (core : Nat) (by_ lctr : Option Nat) (cells : List Host.Cell) (ch : Clocks) :
    Memory.wf (s.l2Cells core by_ lctr cells ch).mem = true := by
  unfold State.l2Cells
  extract_lets cs a slot sp s1 s2 s3
  have h1 : Memory.wf s1.mem = true := foldl_wf (fun s x h => State.request_wf h _ _ _ _ _ _ _) _ h
  have h2 : Memory.wf s2.mem = true := State.perform_wf (by simp [h1]) cs
  simp -implicitDefEqProofs [s3, h2]

end

/-! ## Outcomes -/

/-- Where an outcome is a next state, memory has its canonical form in it. -/
def NextWf (o : Out) : Prop := ∀ t, o = .next t → Memory.wf t.mem = true

@[simp] theorem nextWf_next (t : State) : NextWf (.next t) ↔ Memory.wf t.mem = true :=
  ⟨fun h => h t rfl, fun h u e => by cases e; exact h⟩

section
variable {s : State} (h : Memory.wf s.mem = true)
include h

/-! What an instruction ends with -/

theorem State.done_wf (f : Crew → Crew) : NextWf (s.done f) := (nextWf_next _).mpr h

theorem State.trap_next_wf (cause : Nat) (d0 d1 : W64) (ls : W32) (perf : Bool) : NextWf (.next (s.trap cause d0 d1 ls perf)) := by
  simpa using h

theorem State.waitMe_next_wf (w : Wait) : NextWf (.next (s.waitMe w)) := (nextWf_next _).mpr h

theorem trapObj_wf (kind num : Nat) : NextWf (trapObj s kind num) := State.trap_next_wf h _ _ _ _ _

theorem State.trap0B_wf (kind num : Nat) (d1 : W64) (ls : W32) : NextWf (s.trap0B kind num d1 ls) := State.trap_next_wf h _ _ _ _ _

theorem State.reg_wf {f : State → State} (hf : Memory.wf (f s).mem = true) : NextWf (s.reg f) := by
  rw [reg_cases, nextWf_next]
  split <;> assumption

/-! What stands before an instruction's effect -/

theorem State.ownFlip_wf {k : Out} (hk : NextWf k) (batch : Bool) (ts : List TReg) : NextWf (s.ownFlip batch ts k) := by
  unfold State.ownFlip
  split
  · exact hk
  · split
    · exact State.trap0B_wf h _ _ _ _
    · exact hk

theorem State.evOk_wf {k : Out} (hk : NextWf k) (ev : Option (BitVec 5)) : NextWf (s.evOk ev k) := by
  unfold State.evOk
  split
  · exact hk
  · split
    · exact trapObj_wf h _ _
    · split
      · exact hk
      · exact trapObj_wf h _ _

theorem State.engPlate_wf {k : Plate → Out} (hk : ∀ p, NextWf (k p)) (t : TReg) : NextWf (s.engPlate t k) := by
  unfold State.engPlate
  split
  · exact State.trap0B_wf h _ _ _ _
  · split
    · exact State.trap0B_wf h _ _ _ _
    · exact hk _

theorem State.withBar_wf {k : Barrier → Out} (hk : ∀ b, NextWf (k b)) (n : BitVec 4) : NextWf (s.withBar n k) := by
  obtain ⟨b, -, e⟩ | ⟨-, e⟩ := withBar_cases s n k
  · exact e ▸ hk b
  · exact e ▸ trapObj_wf h _ _

theorem State.withQueue_wf {k : CQueue → Out} (hk : ∀ x, NextWf (k x)) (q : BitVec 5) : NextWf (s.withQueue q k) := by
  obtain ⟨x, -, e⟩ | ⟨-, e⟩ := withQueue_cases s q k
  · exact e ▸ hk x
  · exact e ▸ trapObj_wf h _ _

variable {k : State → Out} (hk : ∀ t, Memory.wf t.mem = true → NextWf (k t))
include hk

theorem State.withRelease_wf (sc : Option Scope) : NextWf (s.withRelease sc k) := by
  obtain ⟨-, e⟩ | ⟨_, -, -, -, e⟩ | ⟨_, -, -, -, e⟩ := withRelease_cases s sc k
  · exact e ▸ hk s h
  · exact e ▸ hk _ h
  · exact e ▸ State.waitMe_next_wf h _

theorem State.shared_wf (sc : Scope) : NextWf (s.shared sc k) := by
  obtain ⟨-, e⟩ | ⟨-, e⟩ := shared_cases s sc k
  · exact e ▸ hk _ h
  · exact e ▸ State.waitMe_next_wf h _

theorem State.conv_wf : NextWf (s.conv k) := by
  obtain ⟨-, e⟩ | ⟨-, e⟩ := conv_cases s k
  · exact e ▸ hk s h
  · exact e ▸ State.trap_next_wf h _ _ _ _ _

theorem State.withTarget_wf (va : W64) : NextWf (s.withTarget va k) := by
  obtain ⟨-, e⟩ | ⟨_, _, -, e⟩ := withTarget_cases s va k
  · exact e ▸ hk s h
  · exact e ▸ State.trap_next_wf h _ _ _ _ _

theorem State.ofHandler_wf : NextWf (s.ofHandler k) := by
  unfold State.ofHandler
  split
  · exact hk s h
  · split
    · exact hk _ h
    · exact State.waitMe_next_wf h _

theorem State.cancelEnds_wf : NextWf (s.cancelEnds k) := by
  unfold State.cancelEnds
  split
  · exact hk s h
  · simpa using h

theorem State.arriving_wf : NextWf (s.arriving k) := by
  unfold State.arriving
  have hw : Memory.wf (s.winArrive .clus).mem = true := by simpa using h
  dsimp only
  split
  · simpa using h
  · exact hk _ hw

theorem State.arrayTurn_wf (cores : List Nat) (batch : Bool) (ts : List TReg) : NextWf (s.arrayTurn cores batch ts k) := by
  refine State.conv_wf h (fun t ht => State.ownFlip_wf ht ?_ _ _)
  split
  · exact State.waitMe_next_wf ht _
  · exact State.shared_wf ht hk _

theorem State.fenced_wf (sc : Scope) : NextWf (s.fenced sc k) :=
  State.shared_wf h (fun t ht => hk _ (by simpa using ht)) sc

end

section
variable {s : State} (h : Memory.wf s.mem = true)
include h

/-! ## Shared operations of crews -/

theorem State.loadInstr_wf (w : Nat) (ord : Option Scope) (reqs : List (Nat × W64)) (upd : List (Nat × Nat) → Crew → Crew) :
    NextWf (s.loadInstr w ord reqs upd) := by
  unfold State.loadInstr
  dsimp only
  split
  · exact State.trap_next_wf h _ _ _ _ _
  · split
    · simpa using h
    · simpa using h
    · refine State.done_wf ?_ _
      split <;> simpa using h

theorem State.storeInstr_wf (w : Nat) (ord : Option Scope) (reqs : List (Nat × W64)) (val : Nat → Nat) :
    NextWf (s.storeInstr w ord reqs val) := by
  unfold State.storeInstr
  split
  · exact State.trap_next_wf h _ _ _ _ _
  · exact State.done_wf (by simpa using h) _

theorem State.finishLanes_wf (g : W32) (res : Nat → LaneRes) (op : LaneOp) (write : W32 → Crew → Crew) :
    NextWf (s.finishLanes g res op write) := by
  simpa [State.finishLanes] using h

theorem State.branchTo_wf (t : W64) : NextWf (s.branchTo t) :=
  State.withTarget_wf h (fun u hu => (nextWf_next _).mpr (by exact hu)) _

theorem State.branchIf_wf (p : Bool) (d : BitVec 30) : NextWf (s.branchIf p d) := by
  obtain ⟨-, e⟩ | ⟨-, e⟩ := branchIf_cases s p d
  · exact e ▸ State.branchTo_wf h _
  · exact e ▸ State.done_wf h _

theorem State.callTo_wf (n : BitVec 11) (t : W64) : NextWf (s.callTo n t) := by
  obtain ⟨_, _, -, e⟩ | ⟨-, -, e⟩ | ⟨-, -, e⟩ := callTo_cases s n t
  · exact e ▸ State.trap_next_wf h _ _ _ _ _
  · exact e ▸ State.trap_next_wf h _ _ _ _ _
  · exact e ▸ (nextWf_next _).mpr h

theorem State.plateLoad_wf (t : TReg) (w : Nat) (offs : List (Nat × Int)) (upd : List (Nat × Nat) → Crew → Crew) :
    NextWf (s.plateLoad t w offs upd) := by
  unfold State.plateLoad
  split
  · exact State.done_wf h _
  · split
    · exact State.trap_next_wf h _ _ _ _ _
    · dsimp only
      split
      · exact (nextWf_next _).mpr h
      · exact State.done_wf (by simpa using h) _

theorem State.atomInstr_wf (need : Need) (op : Aop) (ty : Ty) (sat : Bool) (sc : Scope) (ord : Ord) (dest : Option AtomDest)
    (reqs : List (Nat × W64)) (arg : Nat → W64 × W64) : NextWf (s.atomInstr need op ty sat sc ord dest reqs arg) := by
  unfold State.atomInstr
  extract_lets w
  split
  · exact State.trap_next_wf h _ _ _ _ _
  · extract_lets s1 s2 g gs s3 s4
    have h3 : Memory.wf s3.mem = true := by simp [s3, s2, s1, h]
    clear_value s3 gs
    split
    · exact State.done_wf h3 _
    · split
      · refine State.done_wf ?_ _
        split <;> simp [s4, h3]
      · exact State.done_wf (by exact h3) _

theorem State.lineOp_wf (inv : Bool) (sc : Scope) (sb : SReg) (ofs : BitVec 11) : NextWf (s.lineOp inv sc sb ofs) := by
  unfold State.lineOp
  extract_lets c va pa
  clear_value pa
  split
  · exact State.trap_next_wf h _ _ _ _ _
  · exact State.done_wf (by exact h) _

/-! ## Scalar instructions, control flow, special registers -/

theorem execRet_wf (st : BitVec 4) : NextWf (execRet st s) := by
  unfold execRet
  dsimp only
  split <;> simp [h]

theorem execExit_wf (g : Hd) : NextWf (execExit g s) := by
  refine State.ofHandler_wf h fun t ht => ?_
  dsimp only
  split
  · simp [ht]
  · split <;> simp [ht]

theorem execVbr_wf (g : Hd) (d : BitVec 30) : NextWf (execVbr g d s) := by
  unfold execVbr
  dsimp only
  split
  · exact State.done_wf h _
  · exact State.withTarget_wf h (fun t ht => State.done_wf ht _) _

theorem execVbrx_wf (g : Hd) (va : VReg) : NextWf (execVbrx g va s) := by
  unfold execVbrx
  dsimp only
  split
  · exact State.trap_next_wf h _ _ _ _ _
  · exact State.trap_next_wf h _ _ _ _ _
  · exact State.done_wf h _

theorem execRdsrScalar_wf (st : BitVec 4) (sd : SReg) (r : SpecReg) : NextWf (execRdsrScalar st sd r s) :=
  State.done_wf (by simpa using h) _

theorem execRdsrVector_wf (g : Hd) (vd : VReg) (r : SpecReg) : NextWf (execRdsrVector g vd r s) :=
  State.done_wf (by simpa using h) _

theorem execWrsrScalar_wf (st : BitVec 4) (r : SpecReg) (sb : SReg) : NextWf (execWrsrScalar st r sb s) := by
  unfold execWrsrScalar
  extract_lets x s1
  have h1 : Memory.wf s1.mem = true := by simp [s1, h]
  split
  · exact State.trap_next_wf h _ _ _ _ _
  · split
    case h_4 => exact State.done_wf h1 _
    all_goals exact State.done_wf h _

/-! ## Service programs -/

theorem svcScalar_wf {i : Instr} {o : Out} (e : svcScalar i s = some o) : NextWf o := by
  unfold svcScalar at e
  split at e <;> cases e
  case h_35 => exact execRdsrScalar_wf h _ _ _
  case h_37 => exact execWrsrScalar_wf h _ _ _
  all_goals exact State.done_wf (by exact h) _

theorem svcPlain_wf {i : Instr} {t : State} (e : svcPlain i s = some t) : Memory.wf t.mem = true := by
  unfold svcPlain at e
  split at e
  · next u hu =>
    have hw : Memory.wf u.mem = true := svcScalar_wf h hu u rfl
    split at e
    · cases e
    · cases e; exact hw
  · cases e

theorem State.svcLoad_wf {w : Nat} {va : W64} {sd : SReg} {t : State} (e : s.svcLoad w va sd = some t) :
    Memory.wf t.mem = true := by
  unfold State.svcLoad at e
  split at e
  · cases e
  · split at e
    · cases e; exact h
    · split at e
      · cases e
      · cases e; exact State.request_wf h _ _ _ _ _ _ _

theorem State.svcStore_wf {w : Nat} {va x : W64} {t : State} (e : s.svcStore w va x = some t) : Memory.wf t.mem = true := by
  obtain ⟨l, -, rfl⟩ := Option.map_eq_some_iff.mp e
  exact State.l2Cells_wf h _ _ _ _ _

end

/-- The state that a service program has come to. -/
def SvcGo.state : SvcGo → State
  | .at_ _ _ s => s
  | .ended s => s
  | .fault s => s

theorem svcWord_wf {s : State} (h : Memory.wf s.mem = true) (code : List W64) (pc : Int) (stack : List Int) :
    Memory.wf (svcWord code pc stack s).state.mem = true := by
  unfold svcWord
  extract_lets pc' c hdrAt go byReg rel br on
  have hgo : ∀ n st, Memory.wf (go n st).state.mem = true := by
    intro n st
    dsimp only [go]
    split <;> exact h
  have hreg : ∀ v st, Memory.wf (byReg v st).state.mem = true := by
    intro v st
    dsimp only [byReg]
    split
    · exact hgo _ _
    · exact h
  have hbr : ∀ p d, Memory.wf (br p d).state.mem = true := by
    intro p d
    dsimp only [br]
    split
    · exact hgo _ _
    · exact h
  have hon : ∀ o : Option State, (∀ t, o = some t → Memory.wf t.mem = true) → Memory.wf (on o).state.mem = true := by
    intro o ho
    cases o with
    | none => exact h
    | some t => exact ho t rfl
  clear_value on br byReg go
  split
  · exact h
  · split
    · exact h
    iterate 4 exact hbr _ _
    · exact hreg _ _
    · exact hgo _ _
    · exact hreg _ _
    · split <;> exact h
    · exact h
    · exact hon _ fun t e => State.svcLoad_wf h e
    · exact hon _ fun t e => State.svcStore_wf h e
    · exact hon _ fun t e => svcPlain_wf h e

theorem svcSteps_wf {code : List W64} {n : Nat} {g r : SvcGo} (h : Memory.wf g.state.mem = true) (e : svcSteps code n g = r) :
    Memory.wf r.state.mem = true := by
  induction n generalizing g with
  | zero => exact e ▸ h
  | succ n ih =>
    cases g with
    | at_ pc st s => exact ih (svcWord_wf h code pc st) e
    | ended s => exact e ▸ h
    | fault s => exact e ▸ h

section
variable {s : State} (h : Memory.wf s.mem = true)
include h

theorem State.svcRun_wf {core ctx : Nat} {code : List W64} {old x addr : W64} {r : State × Option W64}
    (e : s.svcRun core ctx code old x addr = r) : Memory.wf r.1.mem = true := by
  subst e
  unfold State.svcRun
  extract_lets k back
  split <;> next e => exact svcSteps_wf (by exact h) e

/-! ## Atomics at their owners -/

theorem State.atomReq_wf (g : AtomGroup) (r : AtomReq) : Memory.wf (s.atomReq g r).1.mem = true := by
  unfold State.atomReq
  extract_lets w core line i j refs merges s1 s2 old
  have h2 : Memory.wf s2.mem = true := State.request_wf (by simp [s1, h]) _ _ _ _ _ _ _
  clear_value s2
  split
  · exact h
  · split
    · simp [h]
    · split
      · simp [h2]
      · split
        next t new e =>
        have ht : Memory.wf t.mem = true := by
          split at e
          · cases e; exact h2
          · split at e <;> next e' => cases e; exact State.svcRun_wf h2 e'
        dsimp only
        split
        · exact State.l2Cells_wf ht _ _ _ _ _
        · simp [ht]

@[simp] theorem State.runGroup_wf (g : AtomGroup) : Memory.wf (s.runGroup g).mem = true := by
  unfold State.runGroup
  extract_lets s1
  have h1 : Memory.wf s1.mem = true := by
    refine foldl_wf (fun s r h => ?_) _ h
    dsimp only
    have ha := fun t ht => State.atomReq_wf (s := t) ht g r
    simp [ha, h]
  simp [h1]

end

section
variable {s : State} (h : Memory.wf s.mem = true)
include h

/-! ## Caches and engines -/

@[simp] theorem State.flushLine_wf (agents : List Nat) (line : Nat) : Memory.wf (s.flushLine agents line).mem = true :=
  foldl_wf (fun _ _ h => foldl_wf (fun _ _ h => State.giveUp_wf h _ _ _ _) _ h) _ h

@[simp] theorem State.flushOut_wf (sc : Scope) (core line : Nat) : Memory.wf (s.flushOut sc core line).mem = true := by
  unfold State.flushOut
  dsimp only
  split <;> simp [h]

theorem State.countLines_wf (k die : Nat) (cs : List Host.Cell) : Memory.wf (s.countLines k die cs).1.mem = true :=
  List.foldlRecOn (motive := fun r : State × List IvalRef => Memory.wf r.1.mem = true) _ _ h
    fun _ hr _ _ => State.request_wf hr _ _ _ _ _ _ _

@[simp] theorem State.engReads_wf (c : EngCmd) (core : Nat) (locs : List Nat) : Memory.wf (s.engReads c core locs).mem = true := by
  unfold State.engReads
  extract_lets mem
  rw [State.traceReads_mem]
  refine foldl_wf (fun s x h => ?_) _ h
  exact State.request_wf (by simp [h]) _ _ _ _ _ _ _

@[simp] theorem State.writeSlot_wf (n : Nat) (x : SheetHome) (slot : Nat) (level : W32) (gen : BitVec 16) (payload : W64) :
    Memory.wf (s.writeSlot n x slot level gen payload).mem = true := by
  unfold State.writeSlot
  dsimp only
  split
  · next t e => exact State.devWrite_wf h e
  · exact h

@[simp] theorem State.homePost_wf (n k slot : Nat) (epoch : W32) (payload : W64) (kn : Nat) (sd : SReg) :
    Memory.wf (s.homePost n k slot epoch payload kn sd).mem = true := by
  unfold State.homePost
  extract_lets x c n' bad
  have hb : ∀ kind, Memory.wf (bad kind).mem = true := fun kind => by simp [bad, h]
  clear_value bad
  split
  · exact hb _
  · split
    · exact hb _
    · split
      · exact hb _
      · split
        · exact hb _
        · simp +zetaDelta [h]

@[simp] theorem State.homeReset_wf (n k : Nat) (sd : SReg) : Memory.wf (s.homeReset n k sd).mem = true := by
  unfold State.homeReset
  extract_lets x c y s1
  have h1 : Memory.wf s1.mem = true := foldl_wf (fun _ _ h => State.writeSlot_wf h _ _ _ _ _ _) _ h
  split
  · simp [h]
  · simpa using h1

/-! ## The home checkers -/

@[simp] theorem State.haltDomain_wf (dom : Nat) : Memory.wf (s.haltDomain dom).mem = true := by
  unfold State.haltDomain
  extract_lets cores s1 cause
  have h1 : Memory.wf s1.mem = true := by
    refine foldl_wf (fun s c h => ?_) _ h
    exact foldl_wf (fun _ _ h => State.giveUp_wf h _ _ _ _) _ (by exact h)
  simpa using h1

@[simp] theorem State.violation_wf (kind line : Nat) (rs : List IvalRef) (writers : List Nat) :
    Memory.wf (s.violation kind line rs writers).mem = true := by
  unfold State.violation
  extract_lets loc pa ref waits widest num before s1 s2 s3 trapped clk s4 cores doms
  have h3 : s3.mem = s.mem := by simp [s3, s2, s1]
  have h4 : s4.mem = s.mem := by
    refine (foldl_mem (fun s kc => ?_) _ _).trans h3
    dsimp only
    split <;> simp
  have h5 : Memory.wf (doms.foldl State.haltDomain s4).mem = true :=
    foldl_wf (fun _ d h => State.haltDomain_wf h d) _ (h4 ▸ h)
  rw [State.oneEvent_mem, foldl_mem State.clearIval_mem]
  exact h5

@[simp] theorem State.takeMerge_wf (r : ChkRec) : Memory.wf (s.takeMerge r).mem = true := by
  unfold State.takeMerge
  extract_lets es ws hashOk nextOk owed s1 s2
  have h1 : Memory.wf s1.mem = true := by simp [s1, h]
  simp -implicitDefEqProofs [s2, h1]

@[simp] theorem State.takeRecord_wf (r : ChkRec) : Memory.wf (s.takeRecord r).mem = true := by
  unfold State.takeRecord
  extract_lets me
  split
  · exact State.takeMerge_wf h r
  · exact h
  · next old src e two s1 e' prev e'' _ _ _ =>
    have h1 : Memory.wf s1.mem = true := by simp [s1, h]
    clear_value s1
    split
    · simp [h]
    · split
      · exact h1
      · split
        · split
          · simp [h1]
          · simp [h1]
        · exact h1
      · exact h1

@[simp] theorem State.flushRecs_wf : Memory.wf s.flushRecs.mem = true :=
  foldl_wf (fun _ r h => State.takeRecord_wf h r) _ h

/-! ## Instances -/

@[simp] theorem State.complete_wf (n : Nat) : Memory.wf (s.complete n).mem = true := by
  unfold State.complete
  extract_lets s1 c s2 d v s3
  have h2 : Memory.wf s2.mem = true := by simp [s2, s1, h]
  have h3 : Memory.wf s3.mem = true := by
    dsimp only [s3]
    split
    · exact h2
    · split
      · next t e => exact State.devWrite_wf h2 e
      · exact h2
  clear_value s3 c
  split <;> simp [h3]

@[simp] theorem State.writeTrace_wf (lctr place : Nat) (bs : List Byte) : Memory.wf (s.writeTrace lctr place bs).mem = true := by
  unfold State.writeTrace
  split
  · exact h
  · split
    · next t e => exact State.devWrite_wf h e
    · exact h

@[simp] theorem State.discardParty_wf (lctr num : Nat) : Memory.wf (s.discardParty lctr num).mem = true := by
  simp [State.discardParty, h]

@[simp] theorem State.discardUnplaced_wf (lv : Level) (n : Nat) : Memory.wf (s.discardUnplaced lv n).mem = true := by
  unfold State.discardUnplaced
  extract_lets inI waits s1 s2 slots s3 rest s4 hit drops s5
  have h2 : Memory.wf s2.mem = true := foldl_wf (fun _ _ h => State.discardParty_wf h _ _) _ (by exact h)
  have h4 : Memory.wf s4.mem = true :=
    foldl_wf (fun _ _ h => foldl_wf (fun _ _ h => State.discardParty_wf h _ _) _ h) _ (by exact h2)
  have h5 : Memory.wf s5.mem = true := h4
  simpa using h5

@[simp] theorem State.cancelInstance_wf (lv : Level) (n : Nat) : Memory.wf (s.cancelInstance lv n).mem = true := by
  unfold State.cancelInstance
  extract_lets noEffect inI inP mark hits s1 s2 s3
  have h1 : Memory.wf s1.mem = true := by simp [s1, h]
  have h3 : Memory.wf s3.mem = true := foldl_wf (fun _ _ h => by simp [h]) _ (by exact h1)
  clear_value noEffect s3
  split
  · exact h
  · split
    · exact h3
    · exact State.discardUnplaced_wf h3 _ _

/-! ## Checkpoints -/

@[simp] theorem State.ckptSpans_wf (dev : Nat) : Memory.wf (s.ckptSpans dev).mem = true := by
  refine foldl_wf (fun s d h => ?_) _ h
  dsimp only
  split
  · exact h
  · simp [h]

@[simp] theorem State.ckptStart_wf (dev : Nat) : Memory.wf (s.ckptStart dev).mem = true :=
  State.ckptSpans_wf (by exact h) dev

/-! ## What leaves a core -/

@[simp] theorem State.storeOut_wf (k at_ : Nat) (cs : List Host.Cell) (ch : Clocks) :
    Memory.wf (s.storeOut k at_ cs ch).mem = true := by
  unfold State.storeOut
  extract_lets core counted s1
  have h1 : Memory.wf s1.mem = true := State.countLines_wf h k (dieOfCore core) cs
  simp [h1]

theorem State.groupsOut_wf {k : Nat} {a : Held} {gs : List AtomGroup} {t : State} (e : s.groupsOut k a gs = some t) :
    Memory.wf t.mem = true := by
  unfold State.groupsOut at e
  extract_lets r at e
  have hw : Memory.wf r.1.mem = true :=
    List.foldlRecOn (motive := fun r : State × List AtomGroup => Memory.wf r.1.mem = true) _ _ h fun r hr g _ => by
      split <;> exact hr
  split at e
  · cases e; exact hw
  · split at e
    · cases e
    · cases e; exact hw

theorem State.leave_wf {k : Nat} {ctl : List Host.Cell → State → State}
    (hctl : ∀ cs t, Memory.wf t.mem = true → Memory.wf (ctl cs t).mem = true) {a : Held} {t : State}
    (e : s.leave k ctl a = some t) : Memory.wf t.mem = true := by
  unfold State.leave at e
  split at e
  · extract_lets s1 mem reg s2 at e
    have h2 : Memory.wf s2.mem = true := by simp [s2, s1, h]
    split at e
    · cases e
    · cases e
      split
      · exact h2
      · exact hctl _ _ h2
  · split at e
    · cases e
    · cases e; exact State.homeCells_wf h _ _ _ _
  · cases e; exact h
  · cases e; exact h
  · exact State.groupsOut_wf h e
  · cases e; exact h
  · cases e; exact State.flushOut_wf h _ _ _
  · cases e; exact h

@[simp] theorem State.walkEnds_wf (core ctx : Nat) (va : W64) (write : Bool) :
    Memory.wf (s.walkEnds core ctx va write).mem = true := by
  unfold State.walkEnds
  split
  · exact h
  · next lf _ =>
    generalize lf.pte ||| (if write = true then 0xC0 else 0x40) = bits
    dsimp only
    split
    · exact h
    · simp [h]

@[simp] theorem State.dirGet_wf (a line f l : Nat) (write asks : Bool) : Memory.wf (s.dirGet a line f l write asks).mem = true := by
  unfold State.dirGet
  split
  · exact h
  · exact State.request_wf h _ _ _ _ _ _ _

@[simp] theorem State.proceed_wf (r : HeldReq) : Memory.wf (s.proceed r).mem = true := by
  cases r <;> simp [State.proceed, h]

@[simp] theorem State.recordLost_wf (line f l : Nat) : Memory.wf (s.recordLost line f l).mem = true := by
  unfold State.recordLost
  split
  · exact h
  · dsimp only
    split
    · exact h
    · exact foldl_wf (fun _ _ h => State.violation_wf h _ _ _ _) _ h

@[simp] theorem State.serveHome_wf (n : Nat) : Memory.wf (s.serveHome n).mem = true := by
  unfold State.serveHome
  dsimp only
  split
  · exact h
  · split
    · split
      · exact State.homePost_wf (by exact h) _ _ _ _ _ _ _
      · exact State.homeReset_wf (by exact h) _ _ _
    · exact h

@[simp] theorem State.partyComplete_wf (p : Nat) : Memory.wf (s.partyComplete p).mem = true := by
  simp [State.partyComplete, h]

theorem State.writeFrame_wf {k : Nat} {r : TrapRec} {t : State} (e : s.writeFrame k r = some t) : Memory.wf t.mem = true := by
  unfold State.writeFrame at e
  dsimp only at e
  split at e
  · cases e
  · next u hu => exact State.devWrite_wf (State.devWrite_wf h hu) e

@[simp] theorem State.tryNotice_wf (k : Nat) : Memory.wf (s.tryNotice k).mem = true := by
  unfold State.tryNotice
  split
  · exact h
  · dsimp only
    split
    · simp [h]
    · split
      · exact h
      · next t e => simpa using State.writeFrame_wf (by exact h) e

@[simp] theorem State.rewriteIdent_wf (k : Nat) : Memory.wf (s.rewriteIdent k).mem = true := by
  unfold State.rewriteIdent
  dsimp only
  split
  · split
    · exact State.devWrite_getD_wf h _ _ _ _ _
    · exact h
  · exact h

end

section
variable {s : State} (h : Memory.wf s.mem = true)
include h

/-! ## Placement, launches, transport -/

@[simp] theorem State.placeSaved_wf (x0 : SavedParty) (die : Nat) (f : Fit) : Memory.wf (s.placeSaved x0 die f).mem = true := by
  unfold State.placeSaved
  extract_lets x p key newCore plates s1 q s2 s3 s4 keyOf oldKey s5 s6 s7 s8 s9 s10 s11
  have h4 : s4.mem = s.mem := by
    simp -implicitDefEqProofs [s4, s3, s2, s1]
  have h8 : s8.mem = s.mem := by
    simp -implicitDefEqProofs [s8, s7, s6, s5, h4]
  have h9 : Memory.wf s9.mem = true := foldl_wf (fun _ _ h => State.rewriteIdent_wf h _) _ (h8 ▸ h)
  have h11 : s11.mem = s9.mem := by
    simp -implicitDefEqProofs [s11, s10]
  simpa [h11] using h9

@[simp] theorem State.placeOne_wf (die : Nat) (w : WaitParty) (f : Fit) : Memory.wf (s.placeOne die w f).mem = true := by
  unfold State.placeOne
  dsimp only
  split
  · simp [h]
  · split
    · exact h
    · exact State.placeSaved_wf (by exact h) _ _ _

theorem State.placeAll_wf (die : Nat) (ws : List WaitParty) (olds : List (Nat × Nat)) :
    Memory.wf (s.placeAll die ws olds).mem = true := by
  induction ws generalizing s olds with
  | nil => exact h
  | cons w ws ih =>
    unfold State.placeAll
    dsimp only
    split
    · exact ih (State.placeOne_wf h _ _ _) _
    · exact ih h _

@[simp] theorem State.dequeueLaunch_wf (q : Nat) (x : HwQueue) (p : Pkt) : Memory.wf (s.dequeueLaunch q x p).mem = true := by
  unfold State.dequeueLaunch
  extract_lets ctx d dev ps s1 lctr s2 cfg stamps s3 s4
  have h1 : s1.mem = s.mem := by simp [s1]
  split
  · simp [h1, h]
  · have h3 : Memory.wf s3.mem = true := by simp [s3, s2, h1, h]
    have h4 : Memory.wf s4.mem = true := by
      unfold s4
      split <;> simp [h3]
    exact h4

@[simp] theorem State.xdSignal_wf (q : XQueue) (d : BitVec 1024) (v : W64) : Memory.wf (s.xdSignal q d v).mem = true := by
  unfold State.xdSignal
  split
  · exact h
  · exact State.devWrite_getD_wf h _ _ _ _ _

@[simp] theorem State.xdFail_wf (x cause : Nat) : Memory.wf (s.xdFail x cause).mem = true := by
  unfold State.xdFail
  extract_lets q
  split
  · exact h
  · extract_lets p s1 s2
    have h2 : Memory.wf s2.mem = true := by simp [s2, s1, h]
    exact State.xdSignal_wf h2 _ _ _

@[simp] theorem State.xdStart_wf (x : Nat) : Memory.wf (s.xdStart x).mem = true := by
  unfold State.xdStart
  dsimp only
  split
  · exact h
  · split
    · exact h
    · exact State.xdFail_wf h _ _

@[simp] theorem State.dropAgent_wf (a : Nat) : Memory.wf (s.dropAgent a).mem = true := by
  unfold State.dropAgent
  extract_lets s1
  have h1 : Memory.wf s1.mem = true := by
    refine foldl_wf (fun s d h => ?_) _ h
    split <;> simp [h]
  simp -implicitDefEqProofs [h1]

/-! ## Power, the error log, samples -/

@[simp] theorem State.zeroHbm_wf : Memory.wf s.zeroHbm.mem = true := filter_wf h _

@[simp] theorem State.stageWork_wf (r : StageResult) : Memory.wf (s.stageWork r).mem = true := by
  unfold State.stageWork
  split
  case h_4 => exact State.zeroHbm_wf h
  all_goals exact h

@[simp] theorem State.physWrite_wf (a : Nat) (bs : List Byte) : Memory.wf (s.physWrite a bs).mem = true := by
  unfold State.physWrite
  dsimp only
  split
  · simp -implicitDefEqProofs [h]
  · exact State.homeCells_wf h _ _ _ _

@[simp] theorem State.logOne_wf : Memory.wf s.logOne.mem = true := by
  unfold State.logOne
  split
  · exact h
  · extract_lets e n next s1 cnt s2
    have h2 : Memory.wf s2.mem = true := by
      have h1 : Memory.wf s1.mem = true := h
      simp [s2, h1]
    split
    · exact h
    · simp [h2]

@[simp] theorem State.sampleCore_wf (core : Nat) : Memory.wf (s.sampleCore core).mem = true := by
  unfold State.sampleCore
  extract_lets cfg cs from_ n
  split
  · exact h
  · extract_lets s1 s2
    have h1 : Memory.wf s1.mem = true := by simp [s1, h]
    simpa [s2] using h1

/-! ## Checkpoints, rollback, dead agents -/

@[simp] theorem State.ckptWrite_wf (dev : Nat) (v : BitVec 128) : Memory.wf (s.ckptWrite dev v).mem = true := by
  unfold State.ckptWrite
  dsimp only
  split
  · exact h
  · split
    · exact h
    · split
      · exact State.ckptStart_wf (by exact h) _
      · exact h

@[simp] theorem State.ckptTimer_wf (dev : Nat) : Memory.wf (s.ckptTimer dev).mem = true := by
  unfold State.ckptTimer
  dsimp only
  split
  · exact State.ckptStart_wf (by exact h) _
  · exact h

@[simp] theorem State.dropParcel_wf (p : Nat) : Memory.wf (s.dropParcel p).mem = true :=
  foldl_wf (fun _ _ h => State.homeInval_wf h _ _ _ _) _ h

@[simp] theorem State.restoreParcel_wf (x : Kept) : Memory.wf (s.restoreParcel x).mem = true := by
  unfold State.restoreParcel
  extract_lets ds s1 other s2
  have h2 : Memory.wf s2.mem = true := memPut_wf (filter_wf (State.dropParcel_wf h _) _) _
  simpa using h2

@[simp] theorem State.loseAgent_wf (a : Nat) : Memory.wf (s.loseAgent a).mem = true :=
  foldl_wf (fun _ _ h => by simp [h]) _ h

@[simp] theorem State.loseCrews_wf (die : Nat) : Memory.wf (s.loseCrews die).mem = true := by
  unfold State.loseCrews
  extract_lets here ps waits s1 s2
  have h2 : Memory.wf s2.mem = true := foldl_wf (fun _ _ h => State.discardParty_wf h _ _) _ (by exact h)
  exact foldl_wf (fun _ _ h => State.discardParty_wf h _ _) _ h2

/-! ## Pre-emption -/

theorem State.writeAll_wf {ctx lctr : Nat} {ws : List (W64 × List Byte)} {t : State} (e : s.writeAll ctx lctr ws = some t) :
    Memory.wf t.mem = true := by
  induction ws generalizing s with
  | nil => cases e; exact h
  | cons w ws ih =>
    unfold State.writeAll at e
    split at e
    · next u hu => exact ih (State.devWrite_wf h hu) e
    · cases e

theorem State.saveMem_wf {p : Party} {cs : List Crew} {t : State} (e : s.saveMem p cs = some t) : Memory.wf t.mem = true := by
  unfold State.saveMem at e
  extract_lets area at e
  split at e
  · cases e
  · next u hu =>
    have hu' := State.writeAll_wf h hu
    cases e
    simpa using hu'

theorem State.saveParty_wf (key : Nat) : Memory.wf (s.saveParty key).1.mem = true := by
  unfold State.saveParty
  extract_lets p tagsOf crews
  split
  · exact State.discardParty_wf (by exact h) _ _
  · next t e =>
    have ht := State.saveMem_wf h e
    simpa using ht

@[simp] theorem State.saveAll_wf (ctx : Nat) : Memory.wf (s.saveAll ctx).mem = true := by
  unfold State.saveAll
  extract_lets s1 keys base
  have h1 : Memory.wf s1.mem = true := by simp [s1, h]
  clear_value s1
  split
  next t n failed e =>
  have ht : Memory.wf t.mem = true := by
    have hf : Memory.wf (t, n, failed).1.mem = true := by
      rw [← e]
      refine List.foldlRecOn (motive := fun r : State × Nat × Bool => Memory.wf r.1.mem = true) _ _ h1 fun r hr key _ => ?_
      exact State.physWrite_wf (State.saveParty_wf hr key) _ _
    exact hf
  simp [ht]

@[simp] theorem State.preemptStart_wf (ctx : BitVec 16) : Memory.wf (s.preemptStart ctx).mem = true := by
  unfold State.preemptStart
  dsimp only
  split
  · exact State.saveAll_wf (by exact h) _
  · exact h

@[simp] theorem State.preemptWrite_wf (v : BitVec 128) : Memory.wf (s.preemptWrite v).mem = true := by
  unfold State.preemptWrite
  dsimp only
  split
  · exact h
  · split
    · exact State.preemptStart_wf (by exact h) _
    · split
      · simp [h]
      · exact h

@[simp] theorem State.agentStore_wf (agent : Nat) (cs : List Host.Cell) : Memory.wf (s.agentStore agent cs).mem = true := by
  unfold State.agentStore
  extract_lets sp s1 s2 s3
  have h1 : Memory.wf s1.mem = true := foldl_wf (fun _ _ h => State.request_wf h _ _ _ _ _ _ _) _ h
  have h2 : Memory.wf s2.mem = true := State.perform_wf (by simp [h1]) cs
  simp -implicitDefEqProofs [s3, h2]

end

theorem State.pushPacket_mem (s : State) (q loc : Nat) : (s.pushPacket q loc).1.mem = s.mem := by
  unfold State.pushPacket
  dsimp only
  split
  · rfl
  · split
    · rfl
    · repeat' split
      iterate 2 rfl
      exact State.appendPkt_mem _ _ _

@[simp] theorem State.pushPackets_mem (s : State) (q : Nat) (as : List Acc) : (s.pushPackets q as).1.mem = s.mem := by
  unfold State.pushPackets
  refine List.foldlRecOn (motive := fun r : State × List Nat × Nat × Nat => r.1.mem = s.mem) _ _ rfl fun r hr a _ => ?_
  have hp : (r.1.pushPacket q a.loc).1.mem = s.mem := (State.pushPacket_mem _ _ _).trans hr
  dsimp only
  split
  · exact hr
  · split <;> exact hp

section
variable {s : State} (h : Memory.wf s.mem = true)
include h

/-! ## Lane-wise instructions -/

theorem State.laneInstr_wf (hd : Hd) (wide : Bool) (vd : VReg) (src : Nat → Nat × Nat × Nat) (res : Nat → LaneRes) :
    NextWf (s.laneInstr hd wide vd src res) := by
  unfold State.laneInstr
  exact State.finishLanes_wf h _ _ _ _

theorem State.vdivide_wf (hd : Hd) (op : SOp) (ty : ITy) (sat : Bool) (vd va vb : VReg) :
    NextWf (s.vdivide hd op ty sat vd va vb) := State.laneInstr_wf h _ _ _ _ _

theorem State.vflt1_wf (hd : Hd) (ty : FTy) (vd va : VReg) (f : Nat → FRes) : NextWf (s.vflt1 hd ty vd va f) :=
  State.laneInstr_wf h _ _ _ _ _

theorem State.vflt2_wf (hd : Hd) (ty : FTy) (vd va vb : VReg) (f : Nat → Nat → FRes) : NextWf (s.vflt2 hd ty vd va vb f) :=
  State.laneInstr_wf h _ _ _ _ _

theorem State.vflt3_wf (hd : Hd) (r : Rnd) (ty : FTy) (vd va vb vc : VReg) : NextWf (s.vflt3 hd r ty vd va vb vc) :=
  State.laneInstr_wf h _ _ _ _ _

theorem execVfcmp_wf (hd : Hd) (cd : Cond) (ty : FTy) (pd : PReg) (va vb : VReg) : NextWf (execVfcmp hd cd ty pd va vb s) := by
  unfold execVfcmp
  exact State.finishLanes_wf h _ _ _ _

theorem execVpack_wf (hd : Hd) (fmt : PTy) (vd va : VReg) : NextWf (execVpack hd fmt vd va s) := by
  unfold execVpack
  exact State.finishLanes_wf h _ _ _ _

/-! ## Plates, atomics, fences -/

theorem execVldp_wf (hd : Hd) (wd : Width) (vd : VReg) (t : TReg) (sb : SReg) (idx : Option VReg) (ofs : BitVec 11) :
    NextWf (execVldp hd wd vd t sb idx ofs s) := by
  unfold execVldp
  exact State.plateLoad_wf h _ _ _ _

theorem execSldp_wf (st : BitVec 4) (wd : Width) (sd : SReg) (t : TReg) (sb : SReg) (ofs : BitVec 11) :
    NextWf (execSldp st wd sd t sb ofs s) := by
  unfold execSldp
  exact State.plateLoad_wf h _ _ _ _

theorem execVatom_wf (hd : Hd) (op : Aop) (ty : Ty) (sc : Scope) (ord : Ord) (sat : Bool) (vd : VReg) (sb : SReg)
    (idx : Option VReg) : NextWf (execVatom hd op ty sc ord sat vd sb idx s) := by
  unfold execVatom
  exact State.atomInstr_wf h _ _ _ _ _ _ _ _ _

theorem execSatom_wf (st : BitVec 4) (op : Aop) (ty : Ty) (sc : Scope) (ord : Ord) (sat : Bool) (sd sa sb : SReg) :
    NextWf (execSatom st op ty sc ord sat sd sa sb s) := by
  unfold execSatom
  exact State.atomInstr_wf h _ _ _ _ _ _ _ _ _

theorem execVredm_wf (hd : Hd) (op : Rop) (ty : Ty) (sc : Scope) (rel sat : Bool) (x : VReg) (sb : SReg) (idx : Option VReg) :
    NextWf (execVredm hd op ty sc rel sat x sb idx s) := by
  unfold execVredm
  exact State.atomInstr_wf h _ _ _ _ _ _ _ _ _

theorem execVstp_wf (hd : Hd) (wd : Width) (va : VReg) (t : TReg) (sb : SReg) (idx : Option VReg) (ofs : BitVec 11) :
    NextWf (execVstp hd wd va t sb idx ofs s) := by
  unfold execVstp
  dsimp only
  split
  · exact State.done_wf h _
  · split
    · exact State.trap_next_wf h _ _ _ _ _
    · exact State.done_wf (by simpa using h) _

theorem execPatom_wf (hd : Hd) (op : Aop) (ty : Ty) (clus : Bool) (ord : Ord) (sat : Bool) (vd : VReg) (t : TReg)
    (idx : Option VReg) : NextWf (execPatom hd op ty clus ord sat vd t idx s) := by
  unfold execPatom
  extract_lets c sc w acq offs
  have hacq : ∀ t : State, (acq t).mem = t.mem := by
    intro t
    dsimp only [acq]
    split <;> simp
  clear_value acq
  split
  · refine State.done_wf ?_ _
    rw [hacq]
    split <;> simpa using h
  · split
    · exact State.trap_next_wf h _ _ _ _ _
    · exact State.done_wf (by simpa using h) _

theorem execFence_wf (st : BitVec 4) (ord : Ord) (sc : Scope) : NextWf (execFence st ord sc s) := by
  unfold execFence
  extract_lets win acq
  cases ord with
  | rlx => exact State.done_wf h _
  | rel => exact State.done_wf (by simpa [win] using h) _
  | acq => exact State.done_wf (by simpa [win, acq] using h) _
  | ar => exact State.withRelease_wf h (fun t ht => State.done_wf (by simpa [win, acq] using ht) _) _

theorem execCinv_wf (st : BitVec 4) (sc : Scope) (sb : SReg) (ofs : BitVec 11) : NextWf (execCinv st sc sb ofs s) := by
  unfold execCinv
  split
  · exact State.trap_next_wf h _ _ _ _ _
  · exact State.lineOp_wf h _ _ _ _

theorem execTres_wf (st : BitVec 4) (td : TReg) (n : BitVec 8) (core : Option (BitVec 2)) (stat : Option SReg) :
    NextWf (execTres st td n core stat s) := by
  refine State.conv_wf h fun s h => State.shared_wf h (fun s h => ?_) _
  dsimp only
  split
  · exact State.done_wf (by exact h) _
  · split
    · exact State.done_wf h _
    · exact State.trap0B_wf h _ _ _ _

theorem execTrel_wf (st : BitVec 4) (td : TReg) : NextWf (execTrel st td s) := by
  refine State.conv_wf h fun s h => State.ownFlip_wf h (State.shared_wf h (fun s h => ?_) _) _ _
  split
  · exact State.trap0B_wf h _ _ _ _
  · split
    · exact State.trap0B_wf h _ _ _ _
    · exact State.done_wf (by simpa -implicitDefEqProofs using h) _

theorem execTcfgPlate_wf (st : BitVec 4) (td : TReg) (sa : SReg) : NextWf (execTcfgPlate st td sa s) := by
  unfold execTcfgPlate
  dsimp only
  split
  · exact State.done_wf h _
  · exact State.trap0B_wf h _ _ _ _

theorem execTrd_wf (st : BitVec 4) (sa : SReg) (ta : TReg) : NextWf (execTrd st sa ta s) := by
  unfold execTrd
  split
  · exact State.trap0B_wf h _ _ _ _
  · exact State.done_wf (by simpa using h) _

theorem execTstat_wf (st : BitVec 4) (sa sb : SReg) : NextWf (execTstat st sa sb s) :=
  State.done_wf (by simpa using h) _

/-! ## Matrix commands -/

theorem State.mmaInstr_wf (partner : Option Nat) (ty : Ty) (ak : AReg) (ta tb : TReg) (sa sb : SReg) (kk : BitVec 8) :
    NextWf (s.mmaInstr partner ty ak ta tb sa sb kk) := by
  refine State.arrayTurn_wf h (fun s h => ?_) _ _ _
  extract_lets c k r len dur
  split
  · next pa pb _ _ =>
    extract_lets a b s1 s2 s3
    have h2 : Memory.wf s2.mem = true := by simp [s2, s1, h]
    have h3 : Memory.wf s3.mem = true := by
      dsimp only [s3]
      split <;> simp [h2]
    clear_value s3
    repeat' split
    iterate 2 exact State.trap0B_wf h _ _ _ _
    iterate 2 exact State.trap_next_wf h _ _ _ _ _
    iterate 3 exact State.trap0B_wf h _ _ _ _
    exact State.done_wf h3 _
  · exact State.trap0B_wf h _ _ _ _

theorem State.acChecked_wf {k : State → Plate → Region → MatOp → Out}
    (hk : ∀ t p r o, Memory.wf t.mem = true → NextWf (k t p r o)) (half col : Bool) (ak : AReg) (ta : TReg) (sa : SReg) :
    NextWf (s.acChecked half col ak ta sa k) := by
  refine State.arrayTurn_wf h (fun s h => ?_) _ _ _
  extract_lets c r ty len
  split
  · exact State.trap0B_wf h _ _ _ _
  · extract_lets o
    repeat' split
    · exact State.trap0B_wf h _ _ _ _
    · exact State.trap_next_wf h _ _ _ _ _
    iterate 2 exact State.trap0B_wf h _ _ _ _
    exact hk _ _ _ _ (by simpa using h)

theorem execMbatch_wf (st : BitVec 4) (sd : SReg) : NextWf (execMbatch st sd s) := by
  refine State.conv_wf h fun s h => ?_
  dsimp only
  split
  · exact State.waitMe_next_wf h _
  · exact State.done_wf h _

theorem execMwait_wf (st : BitVec 4) (sa : SReg) : NextWf (execMwait st sa s) := by
  unfold execMwait
  dsimp only
  repeat' split
  · exact State.done_wf h _
  · exact State.trap0B_wf h _ _ _ _
  · exact State.waitMe_next_wf h _
  · exact State.shared_wf h (fun t ht => by simpa using ht) _

theorem execMpoll_wf (st : BitVec 4) (sd sa : SReg) : NextWf (execMpoll st sd sa s) := by
  unfold execMpoll
  dsimp only
  repeat' split
  · exact State.done_wf h _
  · exact State.trap0B_wf h _ _ _ _
  · exact State.done_wf h _

theorem execAcld_wf (st : BitVec 4) (half col : Bool) (ak : AReg) (ta : TReg) (sa : SReg) :
    NextWf (execAcld st half col ak ta sa s) :=
  State.acChecked_wf h (fun _ _ _ _ ht => State.done_wf (by exact ht) _) _ _ _ _ _

theorem execAcst_wf (st : BitVec 4) (half : Bool) (r : Rnd) (col : Bool) (ak : AReg) (ta : TReg) (sa : SReg) :
    NextWf (execAcst st half r col ak ta sa s) :=
  State.acChecked_wf h (fun _ _ _ _ ht => State.done_wf (by exact ht) _) _ _ _ _ _

theorem execAczero_wf (st : BitVec 4) (ak : AReg) : NextWf (execAczero st ak s) := by
  refine State.arrayTurn_wf h (fun s h => ?_) _ _ _
  dsimp only
  split
  · exact State.done_wf (by exact h) _
  · exact State.trap0B_wf h _ _ _ _

theorem execAcrd_wf (hd : Hd) (col : Bool) (vd : VReg) (ak : AReg) (sa : SReg) : NextWf (execAcrd hd col vd ak sa s) := by
  unfold execAcrd
  extract_lets c r s1 c1 g i j at_ el out core bad
  have h1 : Memory.wf s1.mem = true := h
  clear_value s1 bad out
  split
  · split
    · exact State.waitMe_next_wf h _
    · simpa using h
  · repeat' split
    iterate 2 exact State.trap0B_wf h1 _ _ _ _
    · exact State.trap_next_wf h1 _ _ _ _ _
    · exact State.done_wf h1 _

/-! ## Engine commands -/

theorem State.accept_wf (e : Engine) (p : Plate) (c : EngCmd) (bk : Nat) : NextWf (s.accept e p c bk) :=
  State.done_wf (by simpa using h) _

theorem execCpy_wf (st : BitVec 4) (toGlobal : Bool) (t : TReg) (sd sa sb : SReg) (ev : Option (BitVec 5)) :
    NextWf (execCpy st toGlobal t sd sa sb ev s) := by
  refine State.conv_wf h fun s h => State.ownFlip_wf h (State.shared_wf h (fun s h => ?_) _) _ _
  refine State.engPlate_wf h (fun p => ?_) _
  split
  · exact State.trap0B_wf h _ _ _ _
  · split
    · exact State.trap0B_wf h _ _ _ _
    · refine State.evOk_wf h ?_ _
      split
      · exact State.trap_next_wf h _ _ _ _ _
      · exact State.accept_wf h _ _ _ _

theorem execGth_wf (st : BitVec 4) (t : TReg) (sd sa sb : SReg) (ev : Option (BitVec 5)) :
    NextWf (execGth st t sd sa sb ev s) := by
  refine State.conv_wf h fun s h => State.ownFlip_wf h (State.shared_wf h (fun s h => ?_) _) _ _
  refine State.engPlate_wf h (fun p => ?_) _
  split
  · exact State.trap0B_wf h _ _ _ _
  · refine State.evOk_wf h ?_ _
    split
    · exact State.trap_next_wf h _ _ _ _ _
    · split
      · exact State.trap_next_wf h _ _ _ _ _
      · exact State.accept_wf h _ _ _ _

theorem execColl_wf (st : BitVec 4) (op : Rop) (ty : Ty) (t : TReg) (sa sb : SReg) (ev : Option (BitVec 5)) :
    NextWf (execColl st op ty t sa sb ev s) := by
  refine State.conv_wf h fun s h => State.ownFlip_wf h (State.shared_wf h (fun s h => ?_) _) _ _
  refine State.engPlate_wf h (fun p => ?_) _
  split
  · exact State.trap0B_wf h _ _ _ _
  · split
    · exact State.trap0B_wf h _ _ _ _
    · exact State.evOk_wf h (State.accept_wf h _ _ _ _) _

/-! ## Barriers, queues, parking, sheets -/

theorem execBari_wf (st : BitVec 4) (bar : BitVec 4) (sa : SReg) : NextWf (execBari st bar sa s) := by
  unfold execBari
  extract_lets m p waits arrived
  split
  · exact trapObj_wf h _ _
  · exact State.shared_wf h (fun t ht => State.done_wf (by exact ht) _) _

theorem execBarv_wf (st : BitVec 4) (bar : BitVec 4) (p : PhaseOp) : NextWf (execBarv st bar p s) := by
  refine State.withBar_wf h (fun b => ?_) _
  extract_lets c d
  repeat' split
  iterate 2 exact trapObj_wf h _ _
  · exact State.done_wf h _
  · exact State.shared_wf h (fun s h => State.arriving_wf h fun t ht => State.done_wf (by simpa using ht) _) _

theorem execBard_wf (st : BitVec 4) (bar : BitVec 4) : NextWf (execBard st bar s) := by
  refine State.withBar_wf h (fun b => ?_) _
  dsimp only
  split
  · exact trapObj_wf h _ _
  · exact State.shared_wf h (fun s h => State.arriving_wf h fun t ht => State.done_wf (by simpa using ht) _) _

theorem execBarw_wf (st : BitVec 4) (bar : BitVec 4) (sa : SReg) : NextWf (execBarw st bar sa s) := by
  refine State.cancelEnds_wf h fun s h => State.withBar_wf h (fun b => ?_) _
  dsimp only
  split
  · exact State.done_wf (by simpa using h) _
  · exact State.waitMe_next_wf h _

theorem execBart_wf (st : BitVec 4) (sd : SReg) (bar : BitVec 4) (sa : SReg) : NextWf (execBart st sd bar sa s) := by
  refine State.withBar_wf h (fun b => ?_) _
  dsimp only
  split
  · exact State.done_wf (by simpa using h) _
  · exact State.done_wf h _

theorem execQcfg_wf (st : BitVec 4) (q : BitVec 5) (sa sb : SReg) : NextWf (execQcfg st q sa sb s) := by
  unfold execQcfg
  extract_lets c m v waits items event bad
  split
  · exact trapObj_wf h _ _
  · split
    · exact trapObj_wf h _ _
    · exact State.shared_wf h (fun t ht => State.done_wf (by exact ht) _) _

theorem execQpush_wf (st : BitVec 4) (q : BitVec 5) (sa : SReg) : NextWf (execQpush st q sa s) := by
  refine State.cancelEnds_wf h fun s h => State.withQueue_wf h (fun x => ?_) _
  dsimp only
  split
  · exact trapObj_wf h _ _
  · refine State.shared_wf h (fun t ht => ?_) _
    split
    · exact State.waitMe_next_wf ht _
    · exact State.done_wf (by simpa using ht) _

theorem State.popNow_wf (q : Nat) (x : CQueue) (i : QItem) (upd : Crew → Crew) : NextWf (s.popNow q x i upd) :=
  State.done_wf (by simpa using h) _

theorem execQpop_wf (st : BitVec 4) (sd : SReg) (q : BitVec 5) : NextWf (execQpop st sd q s) := by
  refine State.cancelEnds_wf h fun s h => State.withQueue_wf h (fun x => State.shared_wf h (fun t ht => ?_) _) _
  split
  · exact State.popNow_wf ht _ _ _ _
  · exact State.waitMe_next_wf ht _

theorem execQtryPop_wf (st : BitVec 4) (sd : SReg) (q : BitVec 5) : NextWf (execQtryPop st sd q s) := by
  refine State.withQueue_wf h (fun x => ?_) _
  split
  · exact State.done_wf h _
  · refine State.shared_wf h (fun t ht => ?_) _
    split
    · exact State.popNow_wf ht _ _ _ _
    · exact State.done_wf ht _

theorem execQtryPush_wf (st : BitVec 4) (sd : SReg) (q : BitVec 5) (sa : SReg) : NextWf (execQtryPush st sd q sa s) := by
  refine State.withQueue_wf h (fun x => ?_) _
  dsimp only
  split
  · exact trapObj_wf h _ _
  · split
    · exact State.done_wf h _
    · exact State.shared_wf h (fun t ht => State.done_wf (by simpa using ht) _) _

theorem execQallow_wf (st : BitVec 4) (q : BitVec 5) (sa : SReg) (n : BitVec 5) : NextWf (execQallow st q sa n s) := by
  refine State.withQueue_wf h (fun x => ?_) _
  dsimp only
  split
  · exact trapObj_wf h _ _
  · exact State.shared_wf h (fun t ht => State.done_wf (by simpa using ht) _) _

theorem execWatch_wf (st : BitVec 4) (wide : Bool) (count : BitVec 5) (sb : SReg) (ofs : BitVec 11) :
    NextWf (execWatch st wide count sb ofs s) := by
  unfold execWatch
  dsimp only
  split
  · exact State.trap_next_wf h _ _ _ _ _
  · exact State.done_wf (by simpa using h) _

theorem State.parkInstr_wf (sd : Option SReg) (sa : SReg) : NextWf (s.parkInstr sd sa) := by
  refine State.cancelEnds_wf h fun s h => ?_
  dsimp only
  split
  · simpa using h
  · split
    · simpa using h
    · exact State.waitMe_next_wf h _

theorem execShpv_wf (st : BitVec 4) (k : BitVec 2) (sd : SReg) (board : BitVec 8) (sa sb : SReg) :
    NextWf (execShpv st k sd board sa sb s) := by
  unfold execShpv
  extract_lets c
  refine State.shared_wf h (fun s h => ?_) _
  split
  · exact State.trap_next_wf h _ _ _ _ _
  · simpa using h

theorem execShlv_wf (st : BitVec 4) (k : BitVec 2) (sd : SReg) (board : BitVec 8) : NextWf (execShlv st k sd board s) := by
  unfold execShlv
  split
  · exact State.trap_next_wf h _ _ _ _ _
  · exact State.done_wf (by simpa using h) _

theorem execShrs_wf (st : BitVec 4) (sd : SReg) (board : BitVec 8) : NextWf (execShrs st sd board s) := by
  refine State.shared_wf h (fun s h => ?_) _
  split
  · exact State.trap_next_wf h _ _ _ _ _
  · simpa using h

/-! ## Launches, counters, dirty maps -/

theorem execDlaunch_wf (hd : Hd) (sd : SReg) (vx : VReg) (q : BitVec 6) : NextWf (execDlaunch hd sd vx q s) := by
  unfold execDlaunch
  dsimp only
  split
  · exact State.trap_next_wf h _ _ _ _ _
  · exact State.shared_wf h (fun t ht => State.done_wf (by simpa using ht) _) _

theorem execSdlaunch_wf (st : BitVec 4) (sd sa : SReg) (q : BitVec 6) : NextWf (execSdlaunch st sd sa q s) := by
  unfold execSdlaunch
  dsimp only
  split
  · exact State.trap_next_wf h _ _ _ _ _
  · exact State.shared_wf h (fun t ht => State.done_wf (by simpa using ht) _) _

theorem execCancel_wf (st : BitVec 4) (lv : Level) : NextWf (execCancel st lv s) := by
  refine State.shared_wf h (fun s h => ?_) _
  split
  · exact (nextWf_next _).mpr (State.cancelInstance_wf (by exact h) _ _)
  · exact State.done_wf h _

theorem execCntrd_wf (st : BitVec 4) (sd sa : SReg) : NextWf (execCntrd st sd sa s) := by
  unfold execCntrd
  extract_lets c s1
  have h1 : Memory.wf s1.mem = true := by simpa [s1] using h
  clear_value s1
  split
  · exact State.done_wf h1 _
  · refine State.done_wf ?_ _
    split <;> simpa using h1

theorem execRlnch_wf (st : BitVec 4) (sd sa : SReg) (q : BitVec 6) : NextWf (execRlnch st sd sa q s) := by
  refine State.shared_wf h (fun s h => ?_) _
  extract_lets s1 c n qn fate
  have h1 : Memory.wf s1.mem = true := by simpa [s1] using h
  clear_value s1 fate
  split
  iterate 2 exact State.done_wf h1 _
  · repeat' split
    iterate 2 exact State.done_wf h1 _
    exact State.done_wf (by simpa using h1) _

theorem execTrrec_wf (st : BitVec 4) (sd sa : SReg) : NextWf (execTrrec st sd sa s) := by
  refine State.shared_wf h (fun s h => ?_) _
  dsimp only
  split
  · exact State.done_wf h _
  · split
    · exact State.done_wf h _
    · exact State.done_wf (by exact h) _

theorem execDmclr_wf (st : BitVec 4) (sd : SReg) (m : BitVec 8) : NextWf (execDmclr st sd m s) := by
  refine State.fenced_wf h (fun s h => ?_) _
  split
  · exact State.done_wf h _
  · exact State.done_wf (by exact h) _

theorem execDmq_wf (st : BitVec 4) (sd sa sb : SReg) (m : BitVec 8) : NextWf (execDmq st sd sa sb m s) := by
  refine State.fenced_wf h (fun s h => ?_) _
  split
  · exact State.done_wf h _
  · exact State.done_wf h _

/-! ## Traps and what handlers use -/

theorem execTrap_wf (hd : Hd) (code : BitVec 16) (lane : Bool) : NextWf (execTrap hd code lane s) := by
  unfold execTrap
  dsimp only
  repeat' split
  · exact State.done_wf h _
  · simpa using h
  · exact State.trap_next_wf h _ _ _ _ _

theorem execBrkpt_wf (hd : Hd) (code : BitVec 16) : NextWf (execBrkpt hd code s) := by
  unfold execBrkpt
  dsimp only
  split
  · exact State.done_wf h _
  · exact State.trap_next_wf h _ _ _ _ _

theorem execHret_wf (st : BitVec 4) (sa : SReg) : NextWf (execHret st sa s) := by
  unfold execHret
  dsimp only
  split
  · exact State.trap_next_wf h _ _ _ _ _
  · split
    · exact State.trap_next_wf h _ _ _ _ _
    · refine State.shared_wf h (fun s h => ?_) _
      split
      · exact State.trap_next_wf h _ _ _ _ _
      · simpa using h

theorem execLhret_wf (st : BitVec 4) (wide : Bool) (va vb : VReg) : NextWf (execLhret st wide va vb s) := by
  unfold execLhret
  dsimp only
  split
  · exact State.trap_next_wf h _ _ _ _ _
  · refine State.ofHandler_wf h fun s h => ?_
    split
    · simpa using h
    · simpa using h

theorem execCkpt_wf (st : BitVec 4) (sd : SReg) : NextWf (execCkpt st sd s) := by
  unfold execCkpt
  split
  · exact State.trap_next_wf h _ _ _ _ _
  · refine State.fenced_wf h (fun s h => ?_) _
    dsimp only
    split
    · exact State.waitMe_next_wf h _
    · exact (nextWf_next _).mpr (State.ckptStart_wf (by exact h) _)

theorem execSvccfg_wf (st : BitVec 4) (sd sa : SReg) (slot : BitVec 3) : NextWf (execSvccfg st sd sa slot s) := by
  unfold execSvccfg
  split
  · exact State.trap_next_wf h _ _ _ _ _
  · exact State.shared_wf h (fun t ht => (nextWf_next _).mpr (by exact ht)) _

end

@[simp] theorem State.unlessUnsettled_mem {s t : State} (e : t.mem = s.mem) (k : Nat) : (s.unlessUnsettled k t).mem = s.mem := by
  unfold State.unlessUnsettled
  split
  · rfl
  · exact e

/-- One frame from the spill area, and those after it. -/
theorem State.fillFrames_succ (s : State) (k n : Nat) :
    s.fillFrames k (n + 1) =
      if !(s.crew k).frames.isEmpty || (s.crew k).depth == 0 then .ok s
      else match s.fillIn k ((s.crew k).framePlace ((s.crew k).depth - 1)) 64 with
        | none => .error (s.entryTrap k 0x0C 1 ((s.crew k).framePlace ((s.crew k).depth - 1)) 0)
        | some bs => match s.popFrames k { s.crew k with frames := [Frame.ofNat (ofBytes bs)] } 1 with
          | .error (cause, d0, d1) => .error (s.trapCrew k (trapRec (s.crew k) cause d0 d1 0 false))
          | .ok c => (s.putCrew k c).fillFrames k n := by
  delta State.fillFrames
  exact (rfl)

/-- Whether frames were filled or the crew has trapped, memory is as it was. -/
theorem State.fillFrames_mem {s t : State} {k n : Nat} (e : s.fillFrames k n = .ok t ∨ s.fillFrames k n = .error t) :
    t.mem = s.mem := by
  induction n generalizing s with
  | zero =>
    obtain e | e : Except.ok s = Except.ok t ∨ Except.ok s = Except.error t := e
    · cases e; rfl
    · cases e
  | succ n ih =>
    rw [State.fillFrames_succ] at e
    split at e
    · obtain e | e := e <;> cases e; rfl
    · split at e
      · obtain e | e := e <;> cases e; simp
      · split at e
        · obtain e | e := e <;> cases e; simp
        · exact (ih e).trans rfl

@[simp] theorem State.queueWake_mem (s : State) (p q n : Nat) : (s.queueWake p q n).mem = s.mem := by
  induction n generalizing s with
  | zero => rfl
  | succ n ih =>
    unfold State.queueWake
    split
    · rfl
    · dsimp only
      split
      · exact (ih _).trans (by simp)
      · exact (ih _).trans (by simp)
      · rfl

theorem State.ctlOut_wf {s : State} (h : Memory.wf s.mem = true) {k : Nat} {push : Nat → Bool → BitVec 1024 → State → State}
    {xpush : Nat → Pusher → Bool → BitVec 1024 → State → State} (hp : ∀ q b d t, (push q b d t).mem = t.mem)
    (hx : ∀ q w b d t, (xpush q w b d t).mem = t.mem) (cs : List Host.Cell) : Memory.wf (s.ctlOut k push xpush cs).mem = true := by
  refine (congrArg Memory.wf (foldl_mem (fun t p => ?_) _ _)).trans h
  dsimp only
  repeat' split
  · rfl
  · exact hp _ _ _ _
  · exact hx _ _ _ _ _
  · rfl

theorem EngRun.toPlate_wf {r : EngRun} (hr : Memory.wf r.s.mem = true) (c : EngCmd) (core home : Nat) (u : Unit_) :
    Memory.wf (r.toPlate c core home u).s.mem = true := by
  unfold EngRun.toPlate
  extract_lets s1 secs poisonAll fault
  have h1 : Memory.wf s1.mem = true := State.engReads_wf hr _ _ _
  have hf : ∀ k, Memory.wf (fault k).s.mem = true := fun _ => h1
  clear_value s1 fault
  split
  · exact hf _
  · exact hf _
  · split
    · exact h1
    · exact State.engReads_wf h1 _ _ _

theorem EngRun.toGlobal_wf {r : EngRun} (hr : Memory.wf r.s.mem = true) (c : EngCmd) (core home : Nat) (u : Unit_) :
    Memory.wf (r.toGlobal c core home u).s.mem = true := by
  unfold EngRun.toGlobal
  extract_lets s fault x o stays offs
  have hf : ∀ k, Memory.wf (fault k).s.mem = true := fun _ => hr
  split
  · exact hf _
  · exact hf _
  · extract_lets locs bad cells counted s1 s2 wts
    have h1 : Memory.wf s1.mem = true := by
      dsimp only [s1, counted]
      split
      · exact State.countLines_wf hr _ _ _
      · exact hr
    have h2 : Memory.wf s2.mem = true := by simp [s2, h1]
    exact h2

section
variable {s : State} (h : Memory.wf s.mem = true)
include h

/-! ## Engine commands -/

theorem State.runCmd_wf (core : Nat) (c : EngCmd) : Memory.wf (s.runCmd core c).1.mem = true := by
  unfold State.runCmd
  split
  · exact h
  · extract_lets home
    split
    extract_lets go r
    have hr : Memory.wf r.s.mem = true := by
      refine List.foldlRecOn (motive := fun r : EngRun => Memory.wf r.s.mem = true) _ _ (by exact h) fun r hr u _ => ?_
      split
      · exact EngRun.toGlobal_wf hr _ _ _ _
      · exact EngRun.toPlate_wf hr _ _ _ _
    split
    · simpa using hr
    · exact hr

theorem execEngineCommandComplete_wf (core : Nat) (e : Engine) : NextWf (execEngineCommandComplete core e s) := by
  unfold execEngineCommandComplete
  split
  · split
    · simpa using h
    · split <;> simpa using h
  · split
    · simpa using h
    · split
      · simpa using h
      · next c _ _ => simpa using State.runCmd_wf h core c

/-! ## Crews, core events -/

theorem execBlockEntry_wf (k : Nat) : NextWf (execBlockEntry k s) := by
  unfold execBlockEntry
  extract_lets c select
  have hsel : ∀ t, (select t).mem = t.mem := by
    intro t
    dsimp only [select]
    split
    · next e => exact State.fillFrames_mem (.inr e)
    · next e => simpa using State.fillFrames_mem (.inl e)
  clear_value select
  repeat' split
  all_goals simp [hsel, h]

theorem execWindowMove_wf (k : Nat) : NextWf (execWindowMove k s) := by
  unfold execWindowMove
  extract_lets c place bad
  split
  · split <;> simp [h]
  · extract_lets old s'
    have hbad : ∀ va, NextWf (bad va) := fun va => by simp [bad, h]
    have hs' : ∀ t, s' = some t → Memory.wf t.mem = true := by
      intro t e
      dsimp only [s'] at e
      split at e
      · split at e
        · rw [State.spillOut_mem s e]; exact h
        · cases e; exact h
      · cases e; exact h
    clear_value bad s'
    split
    · exact hbad _
    · next t =>
      have ht := hs' t rfl
      split
      · exact hbad _
      · exact (nextWf_next _).mpr ht

theorem execIssueSelect_wf (core part : Nat) : NextWf (execIssueSelect core part s) := by
  unfold execIssueSelect
  exact (nextWf_next _).mpr (foldl_wf (fun t x ht => by exact ht) _ h)

theorem execThrottleAdmitTimeout_wf (k : Nat) : NextWf (execThrottleAdmitTimeout k s) := by
  unfold execThrottleAdmitTimeout
  dsimp only
  split <;> simpa using h

theorem execLoadReturn_wf (k : Nat) : NextWf (execLoadReturn k s) := by
  unfold execLoadReturn
  split <;> simpa using h

theorem execL1Read_wf (core line f l : Nat) : NextWf (execL1Read core line f l s) := by
  unfold execL1Read
  split
  · simpa using h
  · extract_lets s1 s2 s3
    have h1 : Memory.wf s1.mem = true := by simpa [s1] using h
    have h2 : Memory.wf s2.mem = true := by simp [s2, h1]
    simp [s3, h2]

theorem execL2Read_wf (core line f l : Nat) : NextWf (execL2Read core line f l s) := by
  unfold execL2Read
  dsimp only
  split <;> simp [h]

theorem execLeaseTick_wf (d : Nat) : NextWf (execLeaseTick d s) := by
  simpa -implicitDefEqProofs [execLeaseTick] using h

theorem execTimestampSweep_wf (d : Nat) : NextWf (execTimestampSweep d s) := by
  simpa -implicitDefEqProofs [execTimestampSweep] using h

theorem execParkWake_wf (k : Nat) : NextWf (execParkWake k s) := by
  unfold execParkWake
  split <;> simp [h]

theorem execParkTimeout_wf (k : Nat) : NextWf (execParkTimeout k s) := by
  unfold execParkTimeout
  split <;> simp [h]

theorem execReleaseComplete_wf (k : Nat) : NextWf (execReleaseComplete k s) := by
  unfold execReleaseComplete
  dsimp only
  repeat' split
  all_goals simp [h]

theorem execAtomicRequestExecute_wf (cluster : Nat) : NextWf (execAtomicRequestExecute cluster s) := by
  unfold execAtomicRequestExecute
  split
  · simpa using h
  · split
    · simpa using h
    · exact (nextWf_next _).mpr (State.runGroup_wf (by exact h) _)

theorem execAtomicReturn_wf (k : Nat) : NextWf (execAtomicReturn k s) := by
  unfold execAtomicReturn
  split
  · simpa using h
  · split <;> simp [h]

theorem execEventRecordPost_wf (core : Nat) (e : Engine) : NextWf (execEventRecordPost core e s) := by
  unfold execEventRecordPost
  dsimp only
  repeat' split
  all_goals simp [h]

theorem execClusterQueueUpdate_wf (party q : Nat) : NextWf (execClusterQueueUpdate party q s) := by
  unfold execClusterQueueUpdate
  split <;> simp [h]

theorem execBarrierUpdate_wf (party bar : Nat) : NextWf (execBarrierUpdate party bar s) := by
  unfold execBarrierUpdate
  split
  · simpa using h
  · dsimp only
    rw [nextWf_next]
    refine foldl_wf (fun t kc ht => ?_) _ (by exact h)
    split <;> simp [ht]

theorem execMatrixCommandPerform_wf (core : Nat) : NextWf (execMatrixCommandPerform core s) := by
  unfold execMatrixCommandPerform
  dsimp only
  repeat' split
  all_goals simp [h]

theorem execBatchRetire_wf (k : Nat) : NextWf (execBatchRetire k s) := by
  unfold execBatchRetire
  extract_lets s1 c
  have h1 : Memory.wf s1.mem = true := by simpa [s1] using h
  clear_value c s1
  split
  · split <;> simp [h]
  · split
    · simpa using h
    · rw [nextWf_next, State.wakeIf_mem]
      exact h1

theorem execCrewEnd_wf (k : Nat) : NextWf (execCrewEnd k s) := by
  unfold execCrewEnd
  extract_lets c gone ts s1 s2 s3
  have hgone : ∀ t, (gone t).mem = t.mem := fun _ => rfl
  have h3 : Memory.wf s3.mem = true := by simp [s3, hgone, s2, s1, h]
  clear_value gone s3
  split
  · simpa using h
  · split
    · simp [hgone, h]
    · simp [hgone, h]
    · simp [h3]

theorem execHandlerCrewForm_wf (core : Nat) : NextWf (execHandlerCrewForm core s) := by
  unfold execHandlerCrewForm
  dsimp only
  split <;> simp [h]

theorem execHandlerFormTimeout_wf (core : Nat) : NextWf (execHandlerFormTimeout core s) := by
  unfold execHandlerFormTimeout
  dsimp only
  split <;> simp [h]

theorem execNoticePush_wf (k : Nat) : NextWf (execNoticePush k s) := by
  simp [execNoticePush, h]

theorem execNoticeRetry_wf (k : Nat) : NextWf (execNoticeRetry k s) := by
  simp [execNoticeRetry, h]

theorem execStrikeReport_wf (core at_ : Nat) : NextWf (execStrikeReport core at_ s) := by
  unfold execStrikeReport
  dsimp only
  repeat' split
  all_goals simp [h]

theorem execEffectLeavesCore_wf (k : Nat) : NextWf (execEffectLeavesCore k s) := by
  unfold execEffectLeavesCore
  dsimp only
  split
  · simpa using h
  · split
    · simpa using h
    · split
      · next e =>
        refine (nextWf_next _).mpr (State.leave_wf (by exact h) (fun cs t ht => ?_) e)
        refine State.ctlOut_wf ht ?_ (fun x who full d u => State.pushX_mem u x who full d) cs
        exact fun _ _ _ _ => rfl
      · simpa using h

/-! ## Coherence and the checker -/

theorem execWb_wf (a line f l : Nat) : NextWf (execWb a line f l s) := by
  unfold execWb
  split <;> simp [h]

theorem execEvict_wf (a line f l : Nat) : NextWf (execEvict a line f l s) := by
  unfold execEvict
  split <;> simp [h]

theorem execSnoop_wf (a line f l : Nat) (inv : Bool) : NextWf (execSnoop a line f l inv s) := by
  unfold execSnoop
  split
  · simpa using h
  · split <;> simp [h]

theorem execCheckerRecord_wf : NextWf (execCheckerRecord s) := by
  unfold execCheckerRecord
  split
  · simpa using h
  · exact (nextWf_next _).mpr (State.takeRecord_wf (by exact h) _)

/-! ## Sheets, launches, transport -/

theorem execSheetHomePost_wf (n : Nat) : NextWf (execSheetHomePost n s) := by
  simp [execSheetHomePost, h]

theorem execSheetHomeWrite_wf (n : Nat) (v : BitVec 128) : NextWf (execSheetHomeWrite n v s) := by
  refine State.reg_wf h ?_
  extract_lets s1
  have h1 : Memory.wf s1.mem = true := foldl_wf (fun _ _ ht => State.serveHome_wf ht n) _ h
  exact h1

theorem execInstanceComplete_wf (n : Nat) : NextWf (execInstanceComplete n s) := by
  unfold execInstanceComplete
  dsimp only
  split <;> simp [h]

theorem execPartyPlace_wf (die : Nat) : NextWf (execPartyPlace die s) := (nextWf_next _).mpr (State.placeAll_wf h _ _ _)

theorem execPacketDequeue_wf : NextWf (execPacketDequeue s) := by
  unfold execPacketDequeue
  extract_lets s1
  have h1 : Memory.wf s1.mem = true := by simpa [s1] using h
  clear_value s1
  split <;> simp [h1]

theorem execRelaunchDequeue_wf (q : Nat) : NextWf (execRelaunchDequeue q s) := by
  unfold execRelaunchDequeue
  dsimp only
  split <;> simp [h]

theorem execTransportDescriptorComplete_wf (x : Nat) : NextWf (execTransportDescriptorComplete x s) := by
  unfold execTransportDescriptorComplete
  dsimp only
  split
  · simpa using h
  · split <;> simp [h]

theorem execTransportIncomingWrite_wf (rpeer : Nat) (mac : BitVec 48) (rctx : Nat) (raddr : W64) (rel : Bool) (data : List Byte) :
    NextWf (execTransportIncomingWrite rpeer mac rctx raddr rel data s) := by
  unfold execTransportIncomingWrite
  extract_lets r
  refine State.reg_wf h ?_
  split
  · exact State.devWrite_getD_wf h _ _ _ _ _
  · exact h

/-! ## The control region -/

theorem execCounterRecordClear_wf (r : CntRec) : NextWf (execCounterRecordClear r s) :=
  State.reg_wf h (by cases r <;> simp [h])

theorem execRegisterWrite_wf (r : CfgReg) (v : W32) : NextWf (execRegisterWrite r v s) :=
  State.reg_wf h (by cases r <;> simp [h])

theorem execDieMapWrite_wf (ctx : Nat) (v : W64) : NextWf (execDieMapWrite ctx v s) := by
  refine State.reg_wf h ?_
  dsimp only
  split
  · exact h
  · exact foldl_wf (fun t a ht => State.dropAgent_wf ht a) _ h

theorem execBiasFlipGo_wf (v : W64) : NextWf (execBiasFlipGo v s) := by
  refine State.reg_wf h ?_
  split
  · exact h
  · extract_lets g target bias s1 loses s2 drop s3 bias3
    have h1 : Memory.wf s1.mem = true := h
    have h2 : Memory.wf s2.mem = true := by
      refine foldl_wf (fun t d ht => foldl_wf (fun u a hu => ?_) _ ht) _ h1
      split <;> simp [hu]
    split
    · exact h1
    · exact h2

theorem execBiasFlipDone_wf : NextWf (execBiasFlipDone s) := by
  unfold execBiasFlipDone
  split
  · simpa using h
  · extract_lets g stays s1 hs s2
    have h1 : Memory.wf s1.mem = true := foldl_wf (fun t d ht => by simpa using ht) _ h
    exact (nextWf_next _).mpr (foldl_wf (fun t r ht => State.proceed_wf ht r) _ (by exact h1))

/-! ## Power, time, reports -/

theorem execBringupStageDone_wf (r : StageResult) : NextWf (execBringupStageDone r s) := by
  unfold execBringupStageDone
  dsimp only
  repeat' split
  all_goals simp [h]

theorem execPowerOff_wf : NextWf (execPowerOff s) := (nextWf_next _).mpr (State.zeroHbm_wf h)

theorem execThermalTrip_wf : NextWf (execThermalTrip s) := by
  unfold execThermalTrip
  extract_lets st s1 s2 s3
  have h2 : Memory.wf s2.mem = true := by simp [s2, s1, h]
  have h3 : Memory.wf s3.mem = true := foldl_wf (fun _ _ ht => State.logOne_wf ht) _ h2
  exact (nextWf_next _).mpr h3

theorem execTestImageVerified_wf : NextWf (execTestImageVerified s) := by
  unfold execTestImageVerified
  dsimp only
  split <;> simpa using h

theorem execTestStart_wf (core : Nat) : NextWf (execTestStart core s) := by
  unfold execTestStart
  dsimp only
  split <;> exact (nextWf_next _).mpr h

theorem execSampleTimer_wf : NextWf (execSampleTimer s) :=
  (nextWf_next _).mpr (foldl_wf (fun _ c ht => State.sampleCore_wf ht c) _ h)

theorem execAttReportDone_wf : NextWf (execAttReportDone s) := by
  simp [execAttReportDone, h]

/-! ## Checkpoints, dead agents, pre-emption -/

theorem execRollbackComplete_wf (dev : Nat) : NextWf (execRollbackComplete dev s) := by
  unfold execRollbackComplete
  dsimp only
  split
  · simpa using h
  · exact (nextWf_next _).mpr (foldl_wf (fun _ x ht => State.restoreParcel_wf ht x) _ h)

theorem execAgentDead_wf (a : Nat) : NextWf (execAgentDead a s) := by
  unfold execAgentDead
  split
  · simpa using h
  · extract_lets cnt s1 s2 s3 devs s4 st s5
    have h2 : Memory.wf s2.mem = true := State.loseAgent_wf (by exact h) _
    have h3 : Memory.wf s3.mem = true := by
      dsimp only [s3]
      split
      · exact State.loseCrews_wf h2 _
      · exact h2
    have h4 : Memory.wf s4.mem = true := by simp -implicitDefEqProofs [s4, h3]
    have h5 : Memory.wf s5.mem = true := by
      dsimp only [s5]
      split <;> exact h4
    simp [h5]

theorem execEngineStopAck_wf (u : StopUnit) : NextWf (execEngineStopAck u s) := by
  unfold execEngineStopAck
  dsimp only
  split
  · simpa using h
  · split
    · split
      · simpa using State.saveAll_wf (by exact h) _
      · simpa using h
    · simpa using h

/-! ## Writes to the control region, byte by byte -/

theorem State.ctlPut_wf (r : CtlReg) (v : Nat) : NextWf (s.ctlPut r v) := by
  unfold State.ctlPut
  cases r <;> dsimp only
  case devStatus | linkStat => simpa using h
  case biasCtl => exact execBiasFlipGo_wf h _
  case strikeCfg | chkCfg | crwCfg | fixDepth | leaseCfg => exact execRegisterWrite_wf h _ _
  case switchCnt | coreCnt | memCnt => exact execCounterRecordClear_wf h _
  case sheet => exact execSheetHomeWrite_wf h _ _
  case dieMap => exact execDieMapWrite_wf h _ _
  case injectCfg | elogCtl | qctl | xctl | counter | trapCfg | dirtyMap | sbxCtl | peer | group => exact State.reg_wf h (by exact h)
  case devMode | ptpCfg | sampleCfg | attCtl | pushWin | xpushWin => exact State.reg_wf h (by simp [h])
  case testCtl | preemptCtl | ckptCtl =>
    split <;> exact State.reg_wf h (by simp [h])
  case context =>
    split
    · split <;> exact State.reg_wf h (by simp [h])
    · exact State.reg_wf h (by simp [h])

theorem State.ctlPart_wf (r : CtlReg) : NextWf (s.ctlPart r) := by
  unfold State.ctlPart
  extract_lets f
  have hf : (f s).mem = s.mem := by
    dsimp only [f]
    split <;> simp
  clear_value f
  split
  iterate 3 exact State.ctlPut_wf h _ _
  iterate 2 exact State.reg_wf h (by simp [h])
  exact State.reg_wf h (hf ▸ h)

theorem State.ctlWrite_wf (n o : Nat) (bs : List Byte) : NextWf (State.ctlWrite n o bs s) := by
  induction n generalizing o bs s with
  | zero => simpa [State.ctlWrite] using h
  | succ n ih =>
    unfold State.ctlWrite
    split
    · simpa using h
    · split
      · exact ih h _ _
      · extract_lets mine out
        have hout : NextWf out := by
          dsimp only [out]
          split
          · exact State.ctlPut_wf h _ _
          · exact State.ctlPart_wf h _
        clear_value out
        cases out with
        | next t => exact ih (hout t rfl) _ _
        | fault r => exact hout
        | refused r => exact hout

theorem execHomeWrite_wf (agent loc : Nat) (bytes : List Byte) : NextWf (execHomeWrite agent loc bytes s) := by
  unfold execHomeWrite
  split
  · split
    · exact State.ctlWrite_wf h _ _ _
    · simpa using h
  · rw [nextWf_next]
    split
    · simpa using h
    · split <;> simp [h]

end

/-! ## Every instruction -/

/-- Every instruction, and every event of the device, keeps memory in its canonical form. -/
theorem exec_wf {s : State} (h : Memory.wf s.mem = true) (i : Instr) : NextWf (exec i s) := by
  unfold exec
  cases i <;> dsimp only
  -- Crew instructions that end with `done` after what leaves memory as it is.
  case sadd | ssub | smul | smulh | sdiv | srem | sand | sor | sxor | sandn | sshl | sshr | ssra | smin | smax | scmp | ssel |
      sli | slih | smov | sclz | spopc | sbfx | sbfi | sext | sprf | yield | nop | pany | pall | pcnt | pffs | wrsrVector |
      rdtime | vadd | vaddImm | vsub | vmul | vmulh | vmad | vand | vandImm | vor | vorImm | vxor | vxorImm | vandn | vshl |
      vshr | vsra | vshlImm | vshrImm | vsraImm | vrot | vmin | vmax | vabs | vclz | vpopc | vbrev | vbfx | vbfi | vsel |
      vmov | vli | vcmp | vclmul | vclmulh | vaddc | vfcls | vunpk | vshfl | vbcast | vext | vins | vcompr | pand | por |
      pxor | pnot | pmov | pset | pget | kcnt | kffs | kbit | kmvToVector | kmvToMask | vprf | tcfgRegion | laycfg =>
    exact State.done_wf (by exact h) _
  -- Crew instructions that are one shared operation.
  case vdiv | vrem => exact State.vdivide_wf h _ _ _ _ _ _ _
  case vfsqrt | vfrcp | vfrsq | vfexp2 | vflog2 | vfsin | vfcos | vfrnd => exact State.vflt1_wf h _ _ _ _ _
  case vfadd | vfsub | vfmul | vfdiv | vfmin | vfmax => exact State.vflt2_wf h _ _ _ _ _ _
  case vfmaF16 | vfmaF32 | vfmaF64 => exact State.vflt3_wf h _ _ _ _ _ _ _
  case vfdot | vcvt | vred | vscan => exact State.laneInstr_wf h _ _ _ _ _
  case cflush => exact State.lineOp_wf h _ _ _ _
  case mma | mmap => exact State.mmaInstr_wf h _ _ _ _ _ _ _ _
  case park | parkSt => exact State.parkInstr_wf h _ _
  case br | brc | brz | brnz => exact State.branchIf_wf h _ _
  case brx => exact State.branchTo_wf h _
  case call | callx => exact State.callTo_wf h _ _
  case sld | vld | vgth => exact State.loadInstr_wf h _ _ _ _
  case sst | vst | vsct => exact State.storeInstr_wf h _ _ _ _
  -- Events whose effect is one operation, and writes of registers.
  case throttleRecompute | scoreHalving | dropMessage | dirtyBitMessage | placementWaitLimit | powerLimit | heartbeat =>
    exact (nextWf_next _).mpr h
  case pageWalkDone => exact (nextWf_next _).mpr (State.walkEnds_wf h _ _ _ _)
  case getS | getX | upg => exact (nextWf_next _).mpr (State.dirGet_wf h _ _ _ _ _ _)
  case recordLostTimeout => exact (nextWf_next _).mpr (State.recordLost_wf h _ _ _)
  case transportAckTimeout | transportPeerRefusal => exact (nextWf_next _).mpr (State.xdFail_wf h _ _)
  case sandboxHalt => exact (nextWf_next _).mpr (State.haltDomain_wf h _)
  case errorReport => exact (nextWf_next _).mpr (State.logOne_wf h)
  case ckptPeriodTimer => exact (nextWf_next _).mpr (State.ckptTimer_wf h _)
  case qctlWrite | qctlDroph | qctlClearOvf | qctlClearPart | counterControlWrite | xctlWrite | xctlClearOvf | xctlClearPart |
      peerRecordWrite | trapConfigWrite | collGroupWrite | dirtyMapWrite | injectCfgWrite | sbxCtlWrite | elogCtlWrite |
      elogClearOvf =>
    exact State.reg_wf h (by exact h)
  case queuePush | transportDescriptorPush | contextCreate | contextDestroy | contextRootWrite | devModeWrite | ptpCfgWrite |
      ptpMessage | testCtlLoad | testCtlWrite | sampleCfgWrite | attGo | ckptGo | ckptRollback | preemptGo | preemptRestore =>
    exact State.reg_wf h (by simp [h])
  case l2Write => simpa [execL2Write] using h
  case cln => simpa [execCln] using h
  case countedRequestAck => simpa [execCountedRequestAck] using h
  case plateStoreArbitration => simpa [execPlateStoreArbitration] using h
  case acldReadDone => simpa [execAcldReadDone] using h
  case acstWritesDone => simpa [execAcstWritesDone] using h
  case collectiveCombine => simpa [execCollectiveCombine] using h
  case svccfgDone => simpa [execSvccfgDone] using h
  case partySend => simpa [execPartySend] using h
  case ptpHoldoverTimeout => simpa [execPtpHoldoverTimeout] using h
  case ptpFreeTimeout => simpa [execPtpFreeTimeout] using h
  case powerGood => simpa [execPowerGood] using h
  case linkFlitCrcFail => simpa [execLinkFlitCrcFail] using h
  case linkReplayTimeout => simpa [execLinkReplayTimeout] using h
  case checkpointComplete => simpa [execCheckpointComplete] using h
  case preemptRestoreDone => simpa [execPreemptRestoreDone] using h
  -- Instructions and events with lemmas of their own.
  case ret => exact execRet_wf h _
  case exit => exact execExit_wf h _
  case vbr => exact execVbr_wf h _ _
  case vbrx => exact execVbrx_wf h _ _
  case rdsrScalar => exact execRdsrScalar_wf h _ _ _
  case rdsrVector => exact execRdsrVector_wf h _ _ _
  case wrsrScalar => exact execWrsrScalar_wf h _ _ _
  case vfcmp => exact execVfcmp_wf h _ _ _ _ _ _
  case vpack => exact execVpack_wf h _ _ _ _
  case vldp => exact execVldp_wf h _ _ _ _ _ _ _
  case sldp => exact execSldp_wf h _ _ _ _ _ _
  case vatom => exact execVatom_wf h _ _ _ _ _ _ _ _ _
  case satom => exact execSatom_wf h _ _ _ _ _ _ _ _ _
  case vredm => exact execVredm_wf h _ _ _ _ _ _ _ _ _
  case vstp => exact execVstp_wf h _ _ _ _ _ _ _
  case patom => exact execPatom_wf h _ _ _ _ _ _ _ _ _
  case fence => exact execFence_wf h _ _ _
  case cinv => exact execCinv_wf h _ _ _ _
  case tres => exact execTres_wf h _ _ _ _ _
  case trel => exact execTrel_wf h _ _
  case tcfgPlate => exact execTcfgPlate_wf h _ _ _
  case trd => exact execTrd_wf h _ _ _
  case tstat => exact execTstat_wf h _ _ _
  case mbatch => exact execMbatch_wf h _ _
  case mwait => exact execMwait_wf h _ _
  case mpoll => exact execMpoll_wf h _ _ _
  case acld => exact execAcld_wf h _ _ _ _ _ _
  case acst => exact execAcst_wf h _ _ _ _ _ _ _
  case aczero => exact execAczero_wf h _ _
  case acrd => exact execAcrd_wf h _ _ _ _ _
  case cpy => exact execCpy_wf h _ _ _ _ _ _ _
  case gth => exact execGth_wf h _ _ _ _ _ _
  case coll => exact execColl_wf h _ _ _ _ _ _ _
  case bari => exact execBari_wf h _ _ _
  case barv => exact execBarv_wf h _ _ _
  case bard => exact execBard_wf h _ _
  case barw => exact execBarw_wf h _ _ _
  case bart => exact execBart_wf h _ _ _ _
  case qcfg => exact execQcfg_wf h _ _ _ _
  case qpush => exact execQpush_wf h _ _ _
  case qpop => exact execQpop_wf h _ _ _
  case qtryPop => exact execQtryPop_wf h _ _ _
  case qtryPush => exact execQtryPush_wf h _ _ _ _
  case qallow => exact execQallow_wf h _ _ _ _
  case watch => exact execWatch_wf h _ _ _ _ _
  case shpv => exact execShpv_wf h _ _ _ _ _ _
  case shlv => exact execShlv_wf h _ _ _ _
  case shrs => exact execShrs_wf h _ _ _
  case dlaunch => exact execDlaunch_wf h _ _ _ _
  case sdlaunch => exact execSdlaunch_wf h _ _ _ _
  case cancel => exact execCancel_wf h _ _
  case cntrd => exact execCntrd_wf h _ _ _
  case rlnch => exact execRlnch_wf h _ _ _ _
  case trrec => exact execTrrec_wf h _ _ _
  case dmclr => exact execDmclr_wf h _ _ _
  case dmq => exact execDmq_wf h _ _ _ _ _
  case trap => exact execTrap_wf h _ _ _
  case brkpt => exact execBrkpt_wf h _ _
  case hret => exact execHret_wf h _ _
  case lhret => exact execLhret_wf h _ _ _ _
  case ckpt => exact execCkpt_wf h _ _
  case svccfg => exact execSvccfg_wf h _ _ _ _
  case engineCommandComplete => exact execEngineCommandComplete_wf h _ _
  case blockEntry => exact execBlockEntry_wf h _
  case windowMove => exact execWindowMove_wf h _
  case issueSelect => exact execIssueSelect_wf h _ _
  case throttleAdmitTimeout => exact execThrottleAdmitTimeout_wf h _
  case loadReturn => exact execLoadReturn_wf h _
  case l1Read => exact execL1Read_wf h _ _ _ _
  case l2Read => exact execL2Read_wf h _ _ _ _
  case leaseTick => exact execLeaseTick_wf h _
  case timestampSweep => exact execTimestampSweep_wf h _
  case parkWake => exact execParkWake_wf h _
  case parkTimeout => exact execParkTimeout_wf h _
  case releaseComplete => exact execReleaseComplete_wf h _
  case atomicRequestExecute => exact execAtomicRequestExecute_wf h _
  case atomicReturn => exact execAtomicReturn_wf h _
  case eventRecordPost => exact execEventRecordPost_wf h _ _
  case clusterQueueUpdate => exact execClusterQueueUpdate_wf h _ _
  case barrierUpdate => exact execBarrierUpdate_wf h _ _
  case matrixCommandPerform => exact execMatrixCommandPerform_wf h _
  case batchRetire => exact execBatchRetire_wf h _
  case crewEnd => exact execCrewEnd_wf h _
  case handlerCrewForm => exact execHandlerCrewForm_wf h _
  case handlerFormTimeout => exact execHandlerFormTimeout_wf h _
  case noticePush => exact execNoticePush_wf h _
  case noticeRetry => exact execNoticeRetry_wf h _
  case strikeReport => exact execStrikeReport_wf h _ _
  case effectLeavesCore => exact execEffectLeavesCore_wf h _
  case wb => exact execWb_wf h _ _ _ _
  case evict => exact execEvict_wf h _ _ _ _
  case snoop => exact execSnoop_wf h _ _ _ _ _
  case checkerRecord => exact execCheckerRecord_wf h
  case sheetHomePost => exact execSheetHomePost_wf h _
  case sheetHomeWrite => exact execSheetHomeWrite_wf h _ _
  case instanceComplete => exact execInstanceComplete_wf h _
  case partyPlace => exact execPartyPlace_wf h _
  case packetDequeue => exact execPacketDequeue_wf h
  case relaunchDequeue => exact execRelaunchDequeue_wf h _
  case transportDescriptorComplete => exact execTransportDescriptorComplete_wf h _
  case transportIncomingWrite => exact execTransportIncomingWrite_wf h _ _ _ _ _ _
  case counterRecordClear => exact execCounterRecordClear_wf h _
  case registerWrite => exact execRegisterWrite_wf h _ _
  case dieMapWrite => exact execDieMapWrite_wf h _ _
  case biasFlipGo => exact execBiasFlipGo_wf h _
  case biasFlipDone => exact execBiasFlipDone_wf h
  case bringupStageDone => exact execBringupStageDone_wf h _
  case powerOff => exact execPowerOff_wf h
  case thermalTrip => exact execThermalTrip_wf h
  case testImageVerified => exact execTestImageVerified_wf h
  case testStart => exact execTestStart_wf h _
  case sampleTimer => exact execSampleTimer_wf h
  case attReportDone => exact execAttReportDone_wf h
  case rollbackComplete => exact execRollbackComplete_wf h _
  case agentDead => exact execAgentDead_wf h _
  case engineStopAck => exact execEngineStopAck_wf h _
  case homeWrite => exact execHomeWrite_wf h _ _ _

section
variable {s : State} (h : Memory.wf s.mem = true)
include h

/-! ## One word of a crew -/

theorem State.settled_wf {t : State} (ht : Memory.wf t.mem = true) (s0 : State) (k : Nat) :
    Memory.wf (State.settled s0 s t k).mem = true := by
  unfold State.settled
  split
  · exact ht
  · split
    · exact h
    · exact ht

theorem State.settled_trap_next_wf (s0 : State) (k cause : Nat) (d0 : W64) :
    NextWf (.next (State.settled s0 s (s.trap cause d0) k)) :=
  (nextWf_next _).mpr (State.settled_wf h (by simpa using h) _ _)

variable {run : Instr → State → Out} (hrun : ∀ i t, Memory.wf t.mem = true → NextWf (run i t))
include hrun

theorem State.runWord_wf (k : Nat) (i : Instr) : NextWf (s.runWord run k i) := by
  unfold State.runWord
  extract_lets c
  have hr := hrun i (s.snapshot k) (by simpa using h)
  cases e : run i (s.snapshot k) with
  | next t =>
    have ht : Memory.wf (State.settled (s.snapshot k) s t k).mem = true := State.settled_wf h (hr t e) _ _
    dsimp only
    split
    · exact (nextWf_next _).mpr (State.settled_wf h (by simpa using h) _ _)
    · simpa using ht
  | fault r => exact (e ▸ hr : NextWf (.fault r))
  | refused r => exact (e ▸ hr : NextWf (.refused r))

theorem State.checkWord_wf (k : Nat) (i : Instr) : NextWf (s.checkWord run k i) := by
  unfold State.checkWord
  dsimp only
  split
  · exact State.settled_trap_next_wf h _ _ _ _
  · split
    · simpa using h
    · split
      · exact State.settled_trap_next_wf h _ _ _ _
      · split
        · simpa using h
        · split
          · split
            · exact State.settled_trap_next_wf h _ _ _ _
            · split
              · exact State.runWord_wf h hrun _ _
              · simpa using h
          · exact State.runWord_wf h hrun _ _

theorem State.crewStep_wf (k : Nat) : NextWf (s.crewStep run k) := by
  unfold State.crewStep
  extract_lets c s1 va
  have h1 : Memory.wf s1.mem = true := h
  split
  · simpa using h
  · split
    · exact (nextWf_next _).mpr (State.settled_wf h1 (by simpa using h1) _ _)
    · extract_lets s2
      have h2 : Memory.wf s2.mem = true := by simpa [s2] using h1
      clear_value s2
      split
      · exact State.settled_trap_next_wf h2 _ _ _ _
      · extract_lets s3 s4
        have h4 : Memory.wf s4.mem = true := by simp [s4, s3, h2]
        split
        · exact State.checkWord_wf h4 hrun _ _
        · simpa using h4

end

section
variable {s : State} (h : Memory.wf s.mem = true)
include h

/-! ## One clk -/

@[simp] theorem State.preemptContained_wf : Memory.wf s.preemptContained.mem = true := by
  unfold State.preemptContained
  split
  · exact h
  · split <;> simp [h]

@[simp] theorem State.timers_wf : Memory.wf s.timers.mem = true := by
  unfold State.timers
  extract_lets s1 s2 s3 s4 s5
  have h1 : Memory.wf s1.mem = true := by simpa [s1] using h
  have h2 : Memory.wf s2.mem = true := foldl_wf (fun _ _ ht => State.recordLost_wf ht _ _ _) _ h1
  have h3 : Memory.wf s3.mem = true := foldl_wf (fun _ _ ht => by simpa using ht) _ h2
  have h4 : Memory.wf s4.mem = true := foldl_wf (fun _ _ ht => State.xdStart_wf ht _) _ h3
  have h5 : Memory.wf s5.mem = true := by simp [s5, h4]
  exact foldl_wf (fun _ _ ht => State.ckptTimer_wf ht _) _ (by exact h5)

@[simp] theorem State.arrive_wf (x : Outside) : Memory.wf (s.arrive x).mem = true := by
  unfold State.arrive
  split
  · dsimp only
    split <;> exact h
  · exact State.request_wf h _ _ _ _ _ _ _
  · dsimp only
    split
    · exact State.agentStore_wf (by exact h) _ _
    · exact h
  · split <;> simp [h]
  · split
    · exact h
    · split <;> simp [h]
  · exact h
  · exact h

@[simp] theorem State.arrivals_wf : Memory.wf s.arrivals.mem = true :=
  foldl_wf (fun _ _ ht => State.arrive_wf ht _) _ (by exact h)

@[simp] theorem State.tick_wf : Memory.wf s.tick.mem = true := by
  unfold State.tick
  split
  · exact h
  · extract_lets s1 s2
    have h1 : Memory.wf s1.mem = true := by simpa [s1] using h
    have h2 : Memory.wf s2.mem = true := by simp [s2, h1]
    clear_value s2
    exact h2

theorem State.outsideStage_wf {ex : Instr → State → Out} (hex : ∀ i t, Memory.wf t.mem = true → NextWf (ex i t))
    (last : List Instr) : NextWf (s.outsideStage ex last) := by
  unfold State.outsideStage
  extract_lets rest
  have hrest : ∀ t, Memory.wf t.mem = true → Memory.wf (rest t).mem = true := by
    intro t ht
    dsimp only [rest]
    split
    · exact State.arrivals_wf ht
    · exact ht
  clear_value rest
  split
  · exact (nextWf_next _).mpr (hrest _ h)
  · next i is _ =>
    split
    · split
      · next t e =>
        refine (nextWf_next _).mpr (hrest _ (hex i _ ?_ t e))
        simpa using h
      · exact hex i _ (by simpa using h)
    · exact (nextWf_next _).mpr (hrest _ h)

theorem step_wf : NextWf (step s) := by
  unfold step
  split
  · exact fun t e => by cases e
  · split
    · exact exec_wf (by exact h) _
    · split
      · exact State.crewStep_wf (by exact h) (fun i _ ht => exec_wf ht i) _
      · split
        · exact State.outsideStage_wf (by exact h) (fun i _ ht => exec_wf ht i) _
        · exact (nextWf_next _).mpr h
        · split
          · exact exec_wf (by exact h) _
          · split
            · exact (nextWf_next _).mpr (State.tick_wf h)
            · exact State.outsideStage_wf h (fun i _ ht => exec_wf ht i) _

end

/-! ## The obligations -/

/-- Settles O9: at reset no byte is listed. -/
theorem resetMemoryIsCanonical : Obligations.ResetMemoryIsCanonical := rfl

/-- Settles O10: whatever a step does, memory changes only by `memPut` and by leaving cells out, and each keeps the form. -/
theorem everyStepKeepsMemoryCanonical : Obligations.EveryStepKeepsMemoryCanonical :=
  fun _ t h e => step_wf h t e

end Sys2Proof.Machine
end

section
/-! PROOFS. What a step runs (O6). The last stage of a clk keeps the agenda that it had before what came from outside, so an event that
an arrival makes is lost. -/

namespace Sys2Proof.Machine

/-- The stage of what lies outside, past READY and without an input: what came from outside happens, but the agenda after it is that of
before, followed by the last events. -/
theorem State.outsideStage_noInput (s : State) (ex : Instr → State → Out) (last : List Instr) (hr : s.status.ready = true)
    (hi : s.input? = none) : s.outsideStage ex last = .next { s.arrivals with agenda := s.agenda ++ last } := by
  simp [State.outsideStage, hi, hr]

/-- A step with one stage of the clk left runs that stage. -/
theorem step_lastStage (s : State) (last : List Instr) (hs : s.stopped = false) (ha : s.agenda = []) (hq : s.runq = [])
    (hp : s.plan = [last]) : step s = ({ s with plan := [] } : State).outsideStage exec last := by
  simp only [step, hs, ha, hq, hp, Bool.false_eq_true, if_false]

/-- The last stage of a clk in which companion core 0 reserves line 0 by LR (R352): it takes the word from die 0, where crew 0 watches
it (R42), so a drop is due at core 0 (R293). -/
def lrTakesWatchedWord : State :=
  { status := { ready := true }, plan := [[]], outside := [(0, .lr 0 0)]
    dir := [{ line := 0, f := 0, l := 0, st := [(0, .m)], num := 0 }]
    crews := [(0, { mon := some ⟨0, 4, 0, false⟩ })] }

/-- The LR sends the drop. -/
theorem lrTakesWatchedWord_agenda :
    ({ lrTakesWatchedWord with plan := [] } : State).arrivals.agenda = [.dropMessage 0 0 0 0] := by decide +kernel

/-- Refutes O6, in the clause of the last stage: its step answers a state whose agenda is what the agenda was before the arrivals, not
after them. Where a companion core's LR takes a word that a crew watches, the drop message is in the agenda of the statement and not
in that of the step. -/
theorem not_stepRunsWhatIsDue : ¬ Obligations.StepRunsWhatIsDue := by
  unfold Obligations.StepRunsWhatIsDue
  rintro ⟨-, -, hlast, -⟩
  have hstated := hlast lrTakesWatchedWord [] rfl rfl rfl rfl rfl rfl
  have hmodel := (step_lastStage lrTakesWatchedWord [] rfl rfl rfl rfl).trans (State.outsideStage_noInput _ exec [] rfl rfl)
  have hagenda : ([] : List Instr) = ({ lrTakesWatchedWord with plan := [] } : State).arrivals.agenda ++ [] :=
    congrArg State.agenda (Host.Outcome.next.inj (hmodel.symm.trans hstated))
  rw [lrTakesWatchedWord_agenda] at hagenda
  cases hagenda

end Sys2Proof.Machine
end

section
/-! PROOFS. Engine commands (O44). A command whose plate another command has set back is also the acquire of that command's writes, so
its crew takes over the intervals that they closed (R64, R257). -/

namespace Sys2Proof.Machine

/-- A plate that an engine has set back to CREW: a copy of crew 0 closed an interval of line 0 as it wrote (R257, R391). -/
def setBackPlate : Plate :=
  { num := 0, core := 0, base := 0, grans := 1, stamp := some 0, ivals := [(0, { line := 0, f := 0, l := 0, num := 0 })] }

/-- Crew 0 has its turn with that plate bound to handle 0, and has not yet seen the owner bit. -/
def copiesAgain : State :=
  { crews := [(0, { released := true, t := [(0, 0)] })], parties := [(0, { plates := [setBackPlate] })] }

theorem copiesAgain_turn : Turn copiesAgain := ⟨rfl, rfl⟩

theorem copiesAgain_ready : EngineReady copiesAgain 0 none setBackPlate := ⟨rfl, rfl, fun _ h => nomatch h⟩

/-- What the statement keeps of the crew leaves its intervals as they were. -/
theorem Accepted.ivals {s t : State} {e p bk : Nat} (h : Accepted s t e p bk) : t.me.ivals = s.me.ivals := by
  rw [h.crew]
  rfl

/-- The next copy from the plate is accepted, and its crew takes the interval over. -/
theorem copiesAgain_takes_interval :
    ∃ t, exec (.cpy 0 false 0 0 0 0 none) copiesAgain = .next t ∧ t.me.ivals = [{ line := 0, f := 0, l := 0, num := 0 }] :=
  ⟨_, rfl, by decide +kernel⟩

/-- Refutes O44, in the clause of `cpy`: of an accepted command's crew it lets only the command number, the bank conflicts and the
place change. A command that finds its plate set back by an earlier one acquires that one's writes, and the intervals that they closed
join the crew's own. -/
theorem not_engineCommandsFlipTheirPlate : ¬ Obligations.EngineCommandsFlipTheirPlate := by
  unfold Obligations.EngineCommandsFlipTheirPlate
  rintro ⟨hcpy, -⟩
  obtain ⟨t, hstated, haccepted, -⟩ := hcpy copiesAgain 0 false 0 0 0 0 none setBackPlate copiesAgain_turn copiesAgain_ready
    (by decide +kernel) (by decide +kernel) (by decide +kernel)
  obtain ⟨u, hmodel, hivals⟩ := copiesAgain_takes_interval
  have hsame : t = u := Host.Outcome.next.inj (hstated.symm.trans hmodel)
  have hkept : u.me.ivals = [] := hsame ▸ haccepted.ivals
  rw [hivals] at hkept
  cases hkept

end Sys2Proof.Machine
end

section
/-! PROOFS. The steps of the issue hardware, and of what a crew waits for (O52). Each event gets a lemma that says what it does to its
crew; the frame lemmas at the head say what an update of one crew leaves. -/

namespace Sys2Proof.Machine

/-! ## What an update of one crew leaves -/

theorem State.onCrew_only (s : State) (k : Nat) (f : Crew → Crew) : OnlyCrew s (s.onCrew k f) k :=
  ⟨fun _ => rfl, fun _ hj => MapLaws.find_put_ne _ _ hj⟩

theorem State.putCrew_only (s : State) (k : Nat) (c : Crew) : OnlyCrew s (s.putCrew k c) k := s.onCrew_only k fun _ => c

theorem OnlyCrew.trans {s t u : State} {k : Nat} (h : OnlyCrew s t k) (g : OnlyCrew t u k) : OnlyCrew s u k :=
  ⟨fun a => (g.mem a).trans (h.mem a), fun j hj => (g.others j hj).trans (h.others j hj)⟩

theorem OnlyCrew.onCrew {s t : State} {k : Nat} (h : OnlyCrew s t k) (f : Crew → Crew) : OnlyCrew s (t.onCrew k f) k :=
  h.trans (t.onCrew_only k f)

/-- What leaves memory and the crews as they are changes no crew. -/
theorem OnlyCrew.of_same {s t : State} {k : Nat} (hm : t.mem = s.mem) (hc : t.crews = s.crews) : OnlyCrew s t k :=
  ⟨fun _ => by rw [hm], fun _ _ => by rw [hc]⟩

theorem State.crew_of_crews {s t : State} (h : t.crews = s.crews) (k : Nat) : t.crew k = s.crew k := by
  simp only [State.crew, h]

@[simp] theorem State.onCrew_crew_self (s : State) (k : Nat) (f : Crew → Crew) : (s.onCrew k f).crew k = f (s.crew k) :=
  s.putCrew_crew_self k _

@[simp] theorem State.ite_crews {p : Prop} [Decidable p] (s t : State) :
    (if p then s else t).crews = if p then s.crews else t.crews := apply_ite State.crews p s t

@[simp] theorem State.onCnt_crews (s : State) (n : Nat) (f : CoreCnt → CoreCnt) : (s.onCnt n f).crews = s.crews := rfl

@[simp] theorem State.oneEvent_crews (s t : State) : (s.oneEvent t).crews = t.crews := by
  unfold State.oneEvent
  dsimp only
  split <;> rfl

@[simp] theorem State.trapCounts_crews (s : State) (k : Nat) (r : TrapRec) : (s.trapCounts k r).crews = s.crews := by
  simp [State.trapCounts]

theorem State.trapCrew_eq (s : State) (k : Nat) (r : TrapRec) (hk : (s.crew k).kind = .normal) :
    s.trapCrew k r = (s.trapCounts k r).putCrew k ((s.crew k).trapped r (s.trapCounts k r).clk) := by
  simp [State.trapCrew, hk]

/-- A trap of a crew of a launch changes that crew alone. -/
theorem State.trapCrew_normal (s : State) (k : Nat) (r : TrapRec) (hk : (s.crew k).kind = .normal) :
    OnlyCrew s (s.trapCrew k r) k ∧ ∃ clk, (s.trapCrew k r).crew k = (s.crew k).trapped r clk := by
  rw [s.trapCrew_eq k r hk]
  exact ⟨(OnlyCrew.of_same (s.trapCounts_mem k r) (s.trapCounts_crews k r)).trans (State.putCrew_only _ _ _), _,
    State.putCrew_crew_self _ _ _⟩

/-! ## Throttling (R282) -/

theorem insBy_perm {α : Type} (key : α → Nat) (x : α) (l : List α) : (insBy key x l).Perm (x :: l) := by
  induction l with
  | nil => rfl
  | cons y ys ih =>
    unfold insBy
    split
    · rfl
    · exact (ih.cons y).trans (.swap x y ys)

theorem sortBy_perm {α : Type} (key : α → Nat) (l : List α) : (sortBy key l).Perm l := by
  induction l with
  | nil => rfl
  | cons x xs ih => exact (insBy_perm key x _).trans (ih.cons x)

/-- The crews of launches on a core, over which THROTTLE_RECOMPUTE chooses. -/
theorem State.coreCrews_filter (s : State) (core : Nat) :
    ((s.coreCrews core).filter fun kc => decide (slotOfKey kc.1 < 96)) =
      s.crews.filter fun kc => decide (coreOfKey kc.1 = core ∧ slotOfKey kc.1 < 96) := by
  simp only [State.coreCrews, List.filter_filter]
  congr 1
  funext kc
  rw [Bool.and_comm, Bool.decide_and, beq_eq_decide]

/-- The allowed set: everyone while fewer than N crews are resident, and then the N of least score. -/
theorem throttleRecompute_allows (s : State) (core : Nat) :
    let cs := s.crews.filter fun kc => decide (coreOfKey kc.1 = core ∧ slotOfKey kc.1 < 96)
    let n := max 4 (96 - (cs.map fun kc => kc.2.score).sum / 32)
    ∃ t, exec (.throttleRecompute core) s = .next t ∧ { t with cores := s.cores } = s ∧
      (∀ j, j ≠ core → Map.find? t.cores j = Map.find? s.cores j) ∧
      t.core core = { s.core core with allowed := (t.core core).allowed } ∧
      ((t.core core).allowed = none ↔ cs.length < n) ∧ ∀ ks, (t.core core).allowed = some ks → ks.length = n := by
  intro cs n
  let allowed : Option (List Nat) := if cs.length < n then none
    else some (((sortBy (fun (kc : Nat × Crew) => kc.2.score * 128 + slotOfKey kc.1) cs).take n).map fun kc => slotOfKey kc.1)
  have hexec : exec (.throttleRecompute core) s = .next (s.onCore core fun c => { c with allowed := allowed }) := by
    simp only [exec, execThrottleRecompute, State.coreCrews_filter]
    rfl
  have hallowed : ((s.onCore core fun c => { c with allowed := allowed }).core core).allowed = allowed := by simp
  refine ⟨_, hexec, rfl, fun j hj => MapLaws.find_put_ne _ _ hj, by simp, ?_, ?_⟩
  · rw [hallowed]
    simp [allowed]
  · intro ks hks
    rw [hallowed] at hks
    by_cases hlt : cs.length < n
    · simp [allowed, hlt] at hks
    · obtain rfl : _ = ks := by simpa [allowed, hlt] using hks
      have hlen := (sortBy_perm (fun (kc : Nat × Crew) => kc.2.score * 128 + slotOfKey kc.1) cs).length_eq
      simp only [List.length_map, List.length_take, hlen]
      omega

theorem find_map {α β : Type} (f : Nat → α → β) (m : Map α) (k : Nat) :
    Map.find? (m.map fun x => (x.1, f x.1 x.2)) k = (Map.find? m k).map (f k) := by
  induction m with
  | nil => rfl
  | cons x xs ih =>
    obtain ⟨j, v⟩ := x
    by_cases h : j = k
    · subst h; simp [Map.find?]
    · simp [Map.find?, h, ih]

/-- A crew after the halving of a core's scores. -/
def Crew.halved (core k : Nat) (c : Crew) : Crew := if coreOfKey k = core then { c with score := c.score / 2 } else c

/-- SCORE_HALVING halves the scores of a core's crews. -/
theorem scoreHalving_halves (s : State) (core : Nat) :
    ∃ t, exec (.scoreHalving core) s = .next t ∧ { t with crews := s.crews } = s ∧
    ∀ k, Map.find? t.crews k = (Map.find? s.crews k).map fun c =>
      if coreOfKey k = core then { c with score := c.score / 2 } else c := by
  refine ⟨_, rfl, rfl, fun k => (congrArg (Map.find? · k) ?_).trans (find_map (Crew.halved core) s.crews k)⟩
  refine List.map_congr_left fun kc _ => ?_
  unfold Crew.halved
  split <;> rfl

theorem throttleAdmitTimeout_admits (s : State) (k : Nat) (hp : (s.crew k).phase = .running) (h0 : (s.crew k).heldSince ≠ 0)
    (h1 : (s.crew k).heldSince + 2048 ≤ s.clk) :
    ∃ t, exec (.throttleAdmitTimeout k) s = .next t ∧ OnlyCrew s t k ∧ t.crew k = { s.crew k with admitted := true } :=
  ⟨_, if_pos ⟨hp, h0, h1⟩, s.putCrew_only k _, s.putCrew_crew_self k _⟩

/-! ## Waking (R42, R239, R281) -/

theorem loadReturn_wakes (s : State) (k : Nat) (hp : (s.crew k).phase = .waiting .load) :
    ∃ t, exec (.loadReturn k) s = .next t ∧ OnlyCrew s t k ∧ t.crew k = (s.crew k).woken s.clk := by
  refine ⟨s.onCrew k fun c => c.wake s.clk, ?_, s.onCrew_only k _, s.onCrew_crew_self k _⟩
  simp only [exec, execLoadReturn, hp]

theorem Crew.sv_setS_ne (c : Crew) (x : W64) {r sd : SReg} (h : r ≠ sd) : (c.setS sd x).sv r = c.sv r := by
  unfold Crew.setS Crew.sv
  split
  · rfl
  · split
    · rfl
    · exact MapLaws.get_set_ne 0 c.s x fun e => h (BitVec.eq_of_toNat_eq e)

theorem Crew.sv_setS_self (c : Crew) (r : SReg) (x : W64) : (c.setS r x).sv r = if r = 0 then 0 else x := by
  unfold Crew.setS Crew.sv
  split
  · rfl
  · exact MapLaws.get_set_self 0 c.s r.toNat x

/-- What a park that ends with a status leaves: the crew goes on, its monitor disarmed, and the status in its register. -/
structure Unparked (s t : State) (k : Nat) (sd : Option SReg) (x : W64) : Prop where
  only : OnlyCrew s t k
  crew : t.crew k = { (s.crew k).woken s.clk with
    s := (t.crew k).s, mon := none, widx := (s.crew k).widx + 1, committed := s.clk }
  others : ∀ r, some r ≠ sd → (t.crew k).sv r = (s.crew k).sv r
  status : ∀ r, sd = some r → (t.crew k).sv r = if r = 0 then 0 else x

theorem State.commit_only (s : State) (k : Nat) : OnlyCrew s (s.commit k) k := by
  have h : OnlyCrew s { s with past := s.past.filter fun p => p.key != k } k := OnlyCrew.of_same rfl rfl
  exact h.onCrew _

theorem State.commit_crew (s : State) (k : Nat) : (s.commit k).crew k = { s.crew k with committed := s.clk } :=
  State.onCrew_crew_self _ k _

theorem State.wakeNext_only (s : State) (k : Nat) (f : Crew → Crew) : OnlyCrew s (s.wakeNext k f) k :=
  (s.onCrew_only k _).trans (State.commit_only _ k)

theorem State.wakeNext_crew (s : State) (k : Nat) (f : Crew → Crew) :
    (s.wakeNext k f).crew k = { (f (s.crew k)).next.wake s.clk with committed := s.clk } := by
  rw [State.wakeNext, State.commit_crew, State.onCrew_crew_self]
  rfl

theorem State.parked_unparked (s : State) (k : Nat) (sd : Option SReg) (n : Nat) (h : n ≠ 1 ∨ sd ≠ none) :
    Unparked s (s.parked k sd n) k sd (BitVec.ofNat 64 n) := by
  cases sd with
  | none =>
    have hn : n ≠ 1 := h.resolve_right fun e => e rfl
    have e : s.parked k none n = (s.onCrew k fun c => { c with mon := none }).wakeNext k id := by simp [State.parked, hn]
    rw [e]
    refine ⟨(s.onCrew_only k _).trans (State.wakeNext_only _ k _), ?_, fun r _ => ?_, fun r hr => nomatch hr⟩
    · simp only [State.wakeNext_crew, State.onCrew_crew_self]
      rfl
    · simp only [State.wakeNext_crew, State.onCrew_crew_self]
      rfl
  | some sd =>
    have e : s.parked k (some sd) n =
        (s.onCrew k fun c => { c with mon := none }).wakeNext k fun c => c.setS sd (BitVec.ofNat 64 n) := rfl
    rw [e]
    refine ⟨(s.onCrew_only k _).trans (State.wakeNext_only _ k _), ?_, fun r hr => ?_, fun r hr => ?_⟩
    · simp only [State.wakeNext_crew, State.onCrew_crew_self, Crew.setS]
      split <;> rfl
    · simp only [State.wakeNext_crew, State.onCrew_crew_self]
      exact Crew.sv_setS_ne { s.crew k with mon := none } _ fun x => hr (congrArg some x)
    · cases hr
      simp only [State.wakeNext_crew, State.onCrew_crew_self]
      exact Crew.sv_setS_self { s.crew k with mon := none } _ _

/-- A timeout of a park without a status register traps. -/
theorem State.parked_traps (s : State) (k : Nat) (m : Monitor) (hm : (s.crew k).mon = some m) (hk : (s.crew k).kind = .normal) :
    OnlyCrew s (s.parked k none 1) k ∧ ((s.parked k none 1).crew k).phase = .trapped ∧ ((s.parked k none 1).crew k).mon = none ∧
    ((s.parked k none 1).crew k).trap = some
      { cause := 0x09, detail1 := m.va, pc := (s.crew k).pc, widx := (s.crew k).widx, word := (s.crew k).word } := by
  let u := (s.snapshot k).onCrew k fun c => { c with mon := none }
  have hc : u.crew k = { s.crew k with mon := none } := State.onCrew_crew_self _ _ _
  have e : s.parked k none 1 = u.trapCrew k (trapRec (s.crew k) 0x09 0 m.va 0 false) := by
    unfold State.parked
    rw [hm]
    rfl
  have hsnap : OnlyCrew s (s.snapshot k) k := OnlyCrew.of_same rfl rfl
  have hu : OnlyCrew s u k := hsnap.onCrew _
  obtain ⟨honly, clk, htrap⟩ := u.trapCrew_normal k (trapRec (s.crew k) 0x09 0 m.va 0 false) (by rw [hc]; exact hk)
  rw [e, htrap, hc]
  exact ⟨hu.trans honly, rfl, rfl, rfl⟩

theorem execParkWake_eq (s : State) (k : Nat) {d : Option Nat} {sd : Option SReg} {m : Monitor}
    (hp : (s.crew k).phase = .waiting (.park d sd)) (hm : (s.crew k).mon = some m) :
    exec (.parkWake k) s = .next (if m.hit then s.parked k sd 0 else s) := by
  simp only [exec, execParkWake, hp, hm]

theorem execParkTimeout_eq (s : State) (k : Nat) {at_ : Nat} {sd : Option SReg} {m : Monitor}
    (hp : (s.crew k).phase = .waiting (.park (some at_) sd)) (hm : (s.crew k).mon = some m) (ht : at_ ≤ s.clk) (hh : m.hit = false) :
    exec (.parkTimeout k) s = .next (s.parked k sd 1) := by
  simp only [exec, execParkTimeout, hp, hm, Option.any_some, hh, ht, and_self, if_true]

/-! ## Releases (R257, R287) -/

theorem State.relReady_waiting (s : State) (c : Crew) (sc : Scope) (hh : c.held = []) :
    s.relReady c sc = true ↔ (sc = .crew ∨ c.fence = 0) ∧ c.atoms = [] ∧ fixDue s c c.blockedSince := by
  simp only [State.relReady, hh, Bool.and_eq_true, Bool.or_eq_true, beq_iff_eq, List.isEmpty_iff, decide_eq_true_eq]
  rfl

theorem State.relReady_held (s : State) (c : Crew) (sc : Scope) {h : Held} {hs : List Held} (hh : c.held = h :: hs) :
    s.relReady c sc = true ↔ (sc = .crew ∨ c.fence = 0) ∧ ∀ o ∈ c.atoms, h.at_ ≤ o.at_ := by
  simp [State.relReady, hh]

@[simp] theorem State.winHome_crews (s : State) (k : Nat) (sc : Scope) : (s.winHome k sc).crews = s.crews := by
  simp [State.winHome]

/-- A release that is complete: the oldest held effect is free to leave with the clocks, or the crew that waits goes on. -/
def Crew.relDone (c : Crew) (clk : Nat) (ts : Clocks) : Crew :=
  match c.held with
  | h :: hs => { c with held := { h with rel := none, relTs := ts } :: hs }
  | [] => { c.wake clk with released := true, relTs := ts }

theorem State.relDone_only (s : State) (k : Nat) (sc : Scope) : OnlyCrew s (s.relDone k sc) k := by
  have h : OnlyCrew s (s.winHome k sc) k := OnlyCrew.of_same (s.winHome_mem k sc) (s.winHome_crews k sc)
  unfold State.relDone
  exact h.onCrew _

theorem State.relDone_crew (s : State) (k : Nat) (sc : Scope) :
    (s.relDone k sc).crew k = (s.crew k).relDone s.clk (s.clocksOf k) := by
  simp only [State.relDone, State.onCrew_crew_self, State.crew_of_crews (s.winHome_crews k sc) k]
  rfl

/-- RELEASE_COMPLETE with nothing left to clean or to check. -/
theorem releaseComplete_completes (s : State) (k : Nat) (sc : Scope) (hsc : (s.crew k).relScope? = some sc)
    (hr : s.relReady (s.crew k) sc = true) (hf : s.coversFlip (s.crew k) = false)
    (hclean : (sc ≠ .dev ∧ sc ≠ .sys) ∨ (s.bias.busy = false ∧ s.toClean (coreOfKey k) = [] ∧
      ((s.ctx (s.crew k).ctx).cchk = false ∨ (s.crew k).ivals = []))) :
    ∃ t, exec (.releaseComplete k) s = .next t ∧ OnlyCrew s t k ∧
      t.crew k = { (s.crew k).relDone s.clk (s.clocksOf k) with ivals := (t.crew k).ivals } := by
  by_cases hw : sc = .dev ∨ sc = .sys
  · obtain ⟨hb, hx, hi⟩ := hclean.resolve_left (by rintro ⟨h1, h2⟩; exact hw.elim h1 h2)
    let u := s.onCrew k fun c => { c with ivals := [] }
    have hi' : ((s.ctx (s.crew k).ctx).cchk && !(s.crew k).ivals.isEmpty) = false := by
      obtain hi | hi := hi <;> simp [hi]
    have hu : u.crew k = { s.crew k with ivals := [] } := s.onCrew_crew_self k _
    have hts : u.clocksOf k = s.clocksOf k := by
      unfold State.clocksOf
      rw [hu]
      rfl
    refine ⟨u.relDone k sc, ?_, (s.onCrew_only k _).trans (u.relDone_only k sc), ?_⟩
    · simp [exec, execReleaseComplete, hsc, hr, hf, hw, hb, hx, hi', u]
    · rw [u.relDone_crew, hu, hts]
      unfold Crew.relDone
      dsimp only
      split <;> rfl
  · refine ⟨s.relDone k sc, ?_, s.relDone_only k sc, ?_⟩
    · simp [exec, execReleaseComplete, hsc, hr, hf, hw]
    · rw [s.relDone_crew]

/-- RELEASE_COMPLETE at .dev or .sys asks first for the cleaning of what the die has written. -/
theorem releaseComplete_cleans (s : State) (k : Nat) (sc : Scope) (hsc : (s.crew k).relScope? = some sc)
    (hr : s.relReady (s.crew k) sc = true) (hf : s.coversFlip (s.crew k) = false) (hw : sc = .dev ∨ sc = .sys)
    (hb : s.bias.busy = false) (hx : s.toClean (coreOfKey k) ≠ []) :
    ∃ t, exec (.releaseComplete k) s = .next t ∧ OnlyCrew s t k ∧
      t.crew k = { s.crew k with fence := (s.crew k).fence + (s.toClean (coreOfKey k)).length } ∧
      ∀ x ∈ s.toClean (coreOfKey k), Instr.cln (dieOfCore (coreOfKey k)) x.line x.f x.l ∈ t.agenda := by
  let u := s.onCrew k fun c => { c with fence := c.fence + (s.toClean (coreOfKey k)).length }
  let asks := (s.toClean (coreOfKey k)).flatMap fun x => [Instr.cln (dieOfCore (coreOfKey k)) x.line x.f x.l, .countedRequestAck k]
  have hu : OnlyCrew s u k := s.onCrew_only k _
  have hpush : OnlyCrew u ((u.pushAll asks).push (.releaseComplete k)) k := OnlyCrew.of_same rfl rfl
  refine ⟨(u.pushAll asks).push (.releaseComplete k), ?_, hu.trans hpush, ?_, fun x hm => ?_⟩
  · simp [exec, execReleaseComplete, hsc, hr, hf, hw, hb, hx, u, asks]
  · rw [State.push_crew, State.pushAll_crew]
    exact s.onCrew_crew_self k _
  · have hin : Instr.cln (dieOfCore (coreOfKey k)) x.line x.f x.l ∈ asks := List.mem_flatMap.mpr ⟨x, hm, by simp⟩
    simp [hin]

end Sys2Proof.Machine
end

section
/-! PROOFS. Effects that leave their core (O52, R287). Without an armed injection, and with no word that differs from its span's source,
the requests of the directory move no byte; a store that leaves then writes its own cells and nothing else. -/

namespace Sys2Proof.Machine

/-! ## Requests of the directory leave memory and the crews as they are -/

/-- Memory and the crews are as given, no word differs from the data of its span's source, and no injection is armed (R377). -/
structure Quiet (m : List Host.Cell) (cs : Map Crew) (s : State) : Prop where
  mem : s.mem = m
  crews : s.crews = cs
  offs : s.offs = []
  arm : s.inject.arm = false

theorem foldl_keeps {α β : Type} {P : β → Prop} {f : β → α → β} (hf : ∀ s x, P s → P (f s x)) (l : List α) {s : β} (h : P s) :
    P (l.foldl f s) := by
  induction l generalizing s with
  | nil => exact h
  | cons x xs ih => exact ih (hf s x h)

theorem Quiet.ite {m : List Host.Cell} {cs : Map Crew} {p : Prop} [Decidable p] {t u : State} (ht : Quiet m cs t) (hu : Quiet m cs u) :
    Quiet m cs (if p then t else u) := by
  split
  · exact ht
  · exact hu

section
variable {m : List Host.Cell} {cs : Map Crew} {s : State} (h : Quiet m cs s)
include h

/-- What changes neither memory nor the crews nor the injection keeps it. -/
theorem Quiet.of_eq {t : State} (hm : t.mem = s.mem) (hc : t.crews = s.crews) (ho : t.offs = s.offs) (hi : t.inject = s.inject) :
    Quiet m cs t :=
  ⟨hm.trans h.mem, hc.trans h.crews, ho.trans h.offs, (congrArg InjectCfg.arm hi).trans h.arm⟩

theorem Quiet.keepFor (loc d : Nat) : Quiet m cs (s.keepFor loc d) := by
  unfold State.keepFor
  dsimp only
  split
  · exact h
  · split <;> exact h.of_eq rfl rfl rfl rfl

theorem Quiet.keepParcel (loc : Nat) : Quiet m cs (s.keepParcel loc) :=
  foldl_keeps (fun _ _ hs => hs.keepFor _ _) _ h

theorem Quiet.agentMeets (a line : Nat) : Quiet m cs (s.agentMeets a line) := by
  unfold State.agentMeets
  dsimp only
  split
  · exact h
  · exact h.of_eq rfl rfl rfl rfl

theorem Quiet.dropOffs (a line f l : Nat) : Quiet m cs (s.dropOffs a line f l) :=
  ⟨h.mem, h.crews, by simp [State.dropOffs, h.offs], h.arm⟩

theorem Quiet.pass (port line f l dst : Nat) : Quiet m cs (s.pass port line f l dst) := by
  have hd := h.dropOffs dst line f l
  simpa [State.pass, hd.arm] using hd

theorem Quiet.newSource (line f l dst : Nat) (stay : List Nat) : Quiet m cs (s.newSource line f l dst stay) :=
  ⟨by simp [State.newSource, h.offs, h.mem], h.crews, by simp [State.newSource, h.offs], h.arm⟩

theorem Quiet.lose (a line f l : Nat) (by_ : Option Nat) : Quiet m cs (s.lose a line f l by_) :=
  Quiet.ite ((h.dropOffs a line f l).of_eq rfl rfl rfl rfl) ((h.dropOffs a line f l).of_eq rfl rfl rfl rfl)

theorem Quiet.sendRec (r : ChkRec) : Quiet m cs (s.sendRec r) := h.of_eq rfl rfl rfl rfl

theorem Quiet.sendClose (d : DirSpan) : Quiet m cs (s.sendClose d) := h.of_eq rfl rfl rfl rfl

theorem Quiet.sendOpen (line f l : Nat) (num : BitVec 24) (o : Option Nat) : Quiet m cs (s.sendOpen line f l num o) :=
  h.of_eq rfl rfl rfl rfl

theorem Quiet.setDir (line f l : Nat) (new : Option DirSpan) : Quiet m cs (s.setDir line f l new) := h.of_eq rfl rfl rfl rfl

theorem Quiet.mergeCloses (d : DirSpan) : Quiet m cs (s.mergeCloses d) := by
  unfold State.mergeCloses
  split
  · exact h.sendClose d
  · exact foldl_keeps (fun _ _ hs => hs.sendRec _) _ h

theorem Quiet.loseAll (ls : List Nat) (line f l : Nat) (by_ : Option Nat) :
    Quiet m cs (ls.foldl (fun s b => s.lose b line f l by_) s) := foldl_keeps (fun _ _ hs => hs.lose _ _ _ _ _) _ h

theorem Quiet.giveUp (a line f l : Nat) : Quiet m cs (s.giveUp a line f l) := by
  unfold State.giveUp
  split
  · exact h
  · next d _ =>
    split
    · exact h
    · exact h.lose _ _ _ _ _
    · dsimp only
      exact (((((Quiet.ite (h.sendClose d) ((h.sendClose d).pass _ _ _ _ _)).newSource _ _ _ _ _).lose _ _ _ _ _).sendOpen
        _ _ _ _ _).setDir _ _ _ _)

theorem Quiet.l2Room (a line : Nat) : Quiet m cs (s.l2Room a line) := by
  unfold State.l2Room
  dsimp only
  split
  · exact h
  · split
    · exact h
    · exact foldl_keeps (fun _ _ hs => hs.giveUp _ _ _ _) _ h

theorem Quiet.gain (a line f l : Nat) : Quiet m cs (s.gain a line f l) :=
  Quiet.ite h ((h.l2Room a line).of_eq rfl rfl rfl rfl)

theorem Quiet.merge (a line f l : Nat) (ms : List DirSpan) (write : Bool) (by_ : Option Nat) :
    Quiet m cs (s.merge a line f l ms write by_) := by
  unfold State.merge
  extract_lets sw s1 s2 rest restH s3 s4 s5 s6 num owned s7 s8
  have h1 : Quiet m cs s1 := h.of_eq rfl rfl rfl rfl
  have h2 : Quiet m cs s2 := foldl_keeps (fun _ _ hs => hs.mergeCloses _) _ h1
  have h3 : Quiet m cs s3 := foldl_keeps (fun _ _ hs => Quiet.ite hs (hs.pass _ _ _ _ _)) _ h2
  have h4 : Quiet m cs s4 := foldl_keeps (fun _ _ hs => hs.pass _ _ _ _ _) _ h3
  have h5 : Quiet m cs s5 := foldl_keeps (fun _ _ hs => hs.loseAll _ _ _ _ _) _ h4
  exact ((((h5.newSource _ _ _ _ _).sendRec _).setDir _ _ _ _).gain _ _ _ _)

theorem Quiet.request (a line f l : Nat) (write : Bool) (by_ : Option Nat) (asks : Bool) :
    Quiet m cs (s.request a line f l write by_ asks) := by
  unfold State.request
  extract_lets s1 mp f l fresh d s2 listed mine w1 w2 w3 w4 w5 w6 r1 r2 r3
  have h1 : Quiet m cs s1 := (Quiet.ite (h.keepParcel _) h).agentMeets _ _
  have h2 : Quiet m cs s2 := Quiet.ite (h1.of_eq rfl rfl rfl rfl) h1
  have hw1 : Quiet m cs w1 := h2.sendClose d
  have hw2 : Quiet m cs w2 := Quiet.ite hw1 (hw1.pass _ _ _ _ _)
  have hw3 : Quiet m cs w3 := hw2.loseAll _ _ _ _ _
  have hw6 : Quiet m cs w6 := ((hw3.newSource _ _ _ _ _).sendOpen _ _ _ _ _).setDir _ _ _ _
  have hr1 : Quiet m cs r1 := h2.pass _ _ _ _ _
  have hr2 : Quiet m cs r2 := Quiet.ite (hr1.newSource _ _ _ _ _) hr1
  have hr3 : Quiet m cs r3 := by
    dsimp only [r3]
    clear_value d
    split
    · exact hr2.setDir _ _ _ _
    · exact hr2.of_eq rfl rfl rfl rfl
  clear_value mine
  split
  · exact h1.merge _ _ _ _ _ _ _
  · split
    · split
      · exact h2
      · exact h2.setDir _ _ _ _
      · exact hw6.gain _ _ _ _
    · split
      · exact h2
      · exact hr3.gain _ _ _ _

theorem Quiet.stampWrite (core slot line f l : Nat) : Quiet m cs (s.stampWrite core slot line f l) := by
  have hb : ∀ d, Quiet m cs (s.boundUnclean d) := by
    intro d
    unfold State.boundUnclean
    split
    · exact h
    · split
      · exact h
      · exact Quiet.ite h (h.of_eq rfl rfl rfl rfl)
  unfold State.stampWrite
  dsimp only
  split
  · exact h
  · exact (Quiet.ite h (hb _)).of_eq rfl rfl rfl rfl

end

/-! ## A store leaves -/

/-- The byte that cells leave at an address, the later of two for one byte. -/
theorem memGet_memPut (m cs : List Host.Cell) (a : Nat) :
    memGet (memPut m cs) a = match (cs.filter fun c => c.1 == a).getLast? with
      | some c => c.2
      | none => memGet m a := by
  induction cs generalizing m with
  | nil => rfl
  | cons c cs ih =>
    have hput : memPut m (c :: cs) = memPut (memSet m c.1 c.2) cs := rfl
    rw [hput, ih]
    by_cases hc : c.1 = a
    · subst hc
      rw [List.filter_cons_of_pos (by simp), List.getLast?_cons]
      cases (cs.filter fun x => x.1 == c.1).getLast? with
      | none => exact memGet_memSet_self m c.1 c.2
      | some x => rfl
    · rw [List.filter_cons_of_neg (by simpa using hc), memGet_memSet_ne m c.2 (Ne.symm hc)]

theorem State.oneEvent_offs (s t : State) : (s.oneEvent t).offs = t.offs := by
  unfold State.oneEvent
  dsimp only
  split <;> rfl

theorem State.oneEvent_inject (s t : State) : (s.oneEvent t).inject = t.inject := by
  unfold State.oneEvent
  dsimp only
  split <;> rfl

theorem State.trapCounts_offs (s : State) (k : Nat) (r : TrapRec) : (s.trapCounts k r).offs = s.offs := by
  unfold State.trapCounts
  dsimp only
  repeat' split
  all_goals rfl

theorem State.trapCounts_inject (s : State) (k : Nat) (r : TrapRec) : (s.trapCounts k r).inject = s.inject := by
  unfold State.trapCounts
  dsimp only
  repeat' split
  all_goals rfl

/-- A crew of a launch whose oldest effect has just left: memory, what it still holds, and what keeps requests quiet. -/
structure Storing (m : List Host.Cell) (k : Nat) (hs : List Held) (s : State) : Prop where
  mem : s.mem = m
  held : (s.crew k).held = hs
  kind : (s.crew k).kind = .normal
  offs : s.offs = []
  arm : s.inject.arm = false

section
variable {m : List Host.Cell} {k : Nat} {hs : List Held} {s : State} (h : Storing m k hs s)
include h

theorem Storing.quiet : Quiet s.mem s.crews s := ⟨rfl, rfl, h.offs, h.arm⟩

theorem Storing.of_quiet {t : State} (q : Quiet s.mem s.crews t) : Storing m k hs t := by
  have hc := State.crew_of_crews q.crews k
  exact ⟨q.mem.trans h.mem, hc ▸ h.held, hc ▸ h.kind, q.offs, q.arm⟩

theorem Storing.of_eq {t : State} (hm : t.mem = s.mem) (hc : t.crews = s.crews) (ho : t.offs = s.offs) (hi : t.inject = s.inject) :
    Storing m k hs t := h.of_quiet (h.quiet.of_eq hm hc ho hi)

theorem Storing.onCrew (f : Crew → Crew) (hf : ∀ c, (f c).held = c.held ∧ (f c).kind = c.kind) : Storing m k hs (s.onCrew k f) :=
  ⟨h.mem, by rw [State.onCrew_crew_self, (hf _).1, h.held], by rw [State.onCrew_crew_self, (hf _).2, h.kind], h.offs, h.arm⟩

theorem Storing.push (i : Instr) : Storing m k hs (s.push i) := h.of_eq rfl rfl rfl rfl

theorem Storing.request (a line f l : Nat) (write : Bool) (by_ : Option Nat) (asks : Bool) :
    Storing m k hs (s.request a line f l write by_ asks) := h.of_quiet (h.quiet.request _ _ _ _ _ _ _)

theorem Storing.countLines (die : Nat) (cs : List Host.Cell) : Storing m k hs (s.countLines k die cs).1 := by
  unfold State.countLines
  refine foldl_keeps (P := fun r : State × List IvalRef => Storing m k hs r.1) (fun r x hr => ?_) _ h
  refine Storing.push (Storing.onCrew (hr.request die x.1 x.2.1 x.2.2 true (some k) false) _ fun c => ⟨?_, ?_⟩) _
  · rfl
  · rfl

theorem Storing.perform (cs : List Host.Cell) : Storing (memPut m cs) k hs (s.perform cs) :=
  ⟨congrArg (memPut · cs) h.mem, h.held, h.kind, h.offs, h.arm⟩

/-- A write triggers no monitor of its own crew. -/
theorem Storing.trigger (cs : List Host.Cell) : Storing m k hs (s.trigger (some k) cs) := by
  have hsame : (s.trigger (some k) cs).crew k = s.crew k := by
    have hmap := find_map (fun j (c : Crew) => if some j != some k && cs.any (fun x => c.watches x.1 1) then
      { c with mon := c.mon.map fun m => { m with hit := true } } else c) s.crews k
    simp only [bne_self_eq_false, Bool.false_and, Bool.false_eq_true, if_false, Option.map_id'] at hmap
    unfold State.crew Map.get
    rw [← hmap]
    refine congrArg (fun l => (Map.find? l k).getD ({} : Crew)) (List.map_congr_left fun kc _ => ?_)
    split <;> rfl
  exact ⟨h.mem, hsame ▸ h.held, hsame ▸ h.kind, h.offs, h.arm⟩

theorem Storing.l2Cells (core : Nat) (lctr : Option Nat) (cells : List Host.Cell) (ch : Clocks)
    (hctl : ∀ c ∈ cells, locCtl c.1 = false) : Storing (memPut m cells) k hs (s.l2Cells core (some k) lctr cells ch) := by
  unfold State.l2Cells
  extract_lets cs a slot sp s1 s2 s3
  have hcs : cs = cells := List.filter_eq_self.mpr fun c hc => by simp [hctl c hc]
  have h1 : Storing m k hs s1 := foldl_keeps (fun _ _ hx => hx.request _ _ _ _ _ _ _) _ h
  have hcarry : Storing m k hs (s1.carry (sp.map (·.1)) ch) := by
    unfold State.carry
    split
    · exact h1
    · exact h1.of_eq rfl rfl rfl rfl
  have h2 : Storing (memPut m cells) k hs s2 := hcs ▸ hcarry.perform cs
  have h3 : Storing (memPut m cells) k hs s3 :=
    foldl_keeps (fun _ _ hx => (hx.of_quiet (hx.quiet.stampWrite _ _ _ _ _)).of_eq rfl rfl rfl rfl) _ h2
  exact (h3.trigger cs).of_eq rfl rfl rfl rfl

theorem Storing.trapCrew (r : TrapRec) : Storing m k hs (s.trapCrew k r) := by
  obtain ⟨-, clk, hc⟩ := s.trapCrew_normal k r h.kind
  refine ⟨(s.trapCrew_mem k r).trans h.mem, hc ▸ h.held, hc ▸ h.kind, ?_, ?_⟩
  · rw [s.trapCrew_eq k r h.kind]
    exact (s.trapCounts_offs k r).trans h.offs
  · rw [s.trapCrew_eq k r h.kind]
    exact (congrArg InjectCfg.arm (s.trapCounts_inject k r)).trans h.arm

theorem Storing.reorder (l : ROp) (sc : Nat) : Storing m k hs (s.reorder k l sc) := by
  unfold State.reorder
  extract_lets c core line ws num pa t
  have ht : Storing m k hs t := h.of_eq rfl rfl rfl rfl
  split
  · exact (ht.trapCrew _).of_eq (State.oneEvent_mem _ _) (State.oneEvent_crews _ _) (State.oneEvent_offs _ _) (State.oneEvent_inject _ _)
  · exact ht

theorem Storing.winDone (p : ROp → Bool) : Storing m k hs (s.winDone k p) := by
  unfold State.winDone
  dsimp only
  split
  · exact h
  · exact foldl_keeps (fun _ _ hx => hx.reorder _ _) _ (h.of_eq rfl rfl rfl rfl)

theorem Storing.storeOut (at_ : Nat) (cs : List Host.Cell) (ch : Clocks) (hctl : ∀ c ∈ cs, locCtl c.1 = false) :
    Storing (memPut m cs) k hs (s.storeOut k at_ cs ch) := by
  unfold State.storeOut
  extract_lets core counted s1
  have h1 : Storing m k hs s1 := (h.countLines _ cs).onCrew _ fun _ => ⟨rfl, rfl⟩
  exact (h1.l2Cells _ _ _ _ hctl).winDone _

end

/-! ## The oldest effect of a crew leaves (R286, R287) -/

theorem State.mayLeave_of (s : State) (k : Nat) {h : Held} {hs : List Held} (hh : (s.crew k).held = h :: hs)
    (hfix : fixDue s (s.crew k) h.at_) (hrel : h.rel = none) (hat : ∀ o ∈ (s.crew k).atoms, h.at_ ≤ o.at_)
    (hred : s.behindReduction k h.eff.cells = false) : s.mayLeave k (s.crew k) = true := by
  have hold : ((s.crew k).atoms.any fun o => decide (o.at_ < h.at_)) = false := by
    simpa [List.any_eq_false] using hat
  have hdue : decide (h.at_ + s.fixOf (s.crew k).ctx ≤ s.clk) = true := decide_eq_true hfix
  simp only [State.mayLeave, hh, hrel, hold, hred, hdue, Option.isNone_none, Bool.not_false, Bool.and_self]

/-- What the effect of a crew does where nothing holds it back. -/
theorem effectLeavesCore_leaves (s : State) (k : Nat) {h : Held} {hs : List Held} (hh : (s.crew k).held = h :: hs)
    (hmay : s.mayLeave k (s.crew k) = true) {t : State}
    (ht : ∀ ctl, (s.onCrew k fun c => { c with held := hs }).leave k ctl h = some t) : exec (.effectLeavesCore k) s = .next t := by
  simp only [exec, execEffectLeavesCore, hh, hmay, ht, Bool.not_true, Bool.false_eq_true, if_false]

theorem State.leave_store (s : State) (k : Nat) (ctl : List Host.Cell → State → State) {h : Held} {cs : List Host.Cell}
    (he : h.eff = .store cs) (hctl : ∀ c ∈ cs, locCtl c.1 = false) (hb : s.bias.busy = false) :
    s.leave k ctl h = some (if cs.isEmpty then s.onCrew k fun c => { c with grans := addGrans cs c.grans }
      else (s.onCrew k fun c => { c with grans := addGrans cs c.grans }).storeOut k h.at_ cs ((s.crew k).carries h)) := by
  have hmem : (cs.filter fun c => !locCtl c.1) = cs := List.filter_eq_self.mpr fun c hc => by simp [hctl c hc]
  have hreg : (cs.filter fun c => locCtl c.1) = [] := List.filter_eq_nil_iff.mpr fun c hc => by simp [hctl c hc]
  have hflip : ∀ loc, (s.onCrew k fun c => { c with grans := addGrans cs c.grans }).flipping loc = false :=
    fun loc => by simp [State.flipping, State.onCrew_eq, State.putCrew, hb]
  simp only [State.leave, he, hmem, hreg, hflip, List.any_eq_true, Bool.false_eq_true, and_false, exists_false, if_false,
    List.isEmpty_nil, if_true, State.onCrew_crew_self]
  rfl

/-- A store leaves: its cells are in memory, and the rest of the held effects stays. -/
theorem effectLeavesCore_store (s : State) (k : Nat) {h : Held} {hs : List Held} {cs : List Host.Cell} (hh : (s.crew k).held = h :: hs)
    (hmay : s.mayLeave k (s.crew k) = true) (hk : (s.crew k).kind = .normal) (harm : s.inject.arm = false) (hoffs : s.offs = [])
    (hb : s.bias.busy = false) (he : h.eff = .store cs) (hctl : ∀ c ∈ cs, locCtl c.1 = false) :
    ∃ t, exec (.effectLeavesCore k) s = .next t ∧ Wrote s t cs ∧ (t.crew k).held = hs := by
  let u := (s.onCrew k fun c => { c with held := hs }).onCrew k fun c => { c with grans := addGrans cs c.grans }
  have hu : Storing s.mem k hs u := by
    refine ⟨rfl, ?_, ?_, hoffs, harm⟩ <;> simp only [u, State.onCrew_crew_self, hk]
  have hout : ∀ t, Storing (memPut s.mem cs) k hs t → Wrote s t cs ∧ (t.crew k).held = hs :=
    fun t ht => ⟨fun a => by rw [ht.mem]; exact memGet_memPut s.mem cs a, ht.held⟩
  refine ⟨_, effectLeavesCore_leaves s k hh hmay fun ctl => State.leave_store _ k ctl he hctl hb, hout _ ?_⟩
  split
  · next hempty =>
    obtain rfl := List.isEmpty_iff.mp hempty
    exact hu
  · exact hu.storeOut _ _ _ hctl

/-! ## A plate write leaves, and the plate store takes it (R205) -/

/-- Takes the arrivals of a core's plate store, where there are any. -/
def State.clearArrivals (s : State) (n : Nat) : State :=
  if (s.core n).arrivals.isEmpty then s
  else s.onCore n fun c => { c with arrivals := c.arrivals.filter fun _ => false }

theorem foldl_clearArrivals_none (ns : List Nat) {s : State} (h : ∀ n ∈ ns, (s.core n).arrivals = []) :
    ns.foldl State.clearArrivals s = s := by
  induction ns with
  | nil => rfl
  | cons n ns ih =>
    have hn : s.clearArrivals n = s := by simp [State.clearArrivals, h n List.mem_cons_self]
    rw [List.foldl_cons, hn]
    exact ih fun j hj => h j (List.mem_cons_of_mem n hj)

/-- Of a list of cores one alone has arrivals. -/
theorem foldl_clearArrivals_one (ns : List Nat) {s : State} {core : Nat} (hc : core ∈ ns)
    (h : ∀ n ∈ ns, n ≠ core → (s.core n).arrivals = []) (ha : (s.core core).arrivals ≠ []) :
    ns.foldl State.clearArrivals s = s.onCore core fun c => { c with arrivals := [] } := by
  induction ns with
  | nil => cases hc
  | cons n ns ih =>
    have hns : ∀ j ∈ ns, j ≠ core → (s.core j).arrivals = [] := fun j hj => h j (List.mem_cons_of_mem n hj)
    rw [List.foldl_cons]
    by_cases hn : n = core
    · subst hn
      have hclear : s.clearArrivals n = s.onCore n fun c => { c with arrivals := [] } := by
        simp [State.clearArrivals, ha]
      rw [hclear]
      refine foldl_clearArrivals_none ns fun j hj => ?_
      by_cases hjn : j = n
      · subst hjn; simp
      · rw [State.onCore_core_ne s _ hjn]
        exact hns j hj hjn
    · have hskip : s.clearArrivals n = s := by simp [State.clearArrivals, h n List.mem_cons_self hn]
      rw [hskip]
      exact ih ((List.mem_cons.mp hc).resolve_left (Ne.symm hn)) hns

theorem flatMap_one {β : Type} (ns : List Nat) {f : Nat → List β} {core : Nat} (hnd : ns.Nodup) (hc : core ∈ ns)
    (h : ∀ n ∈ ns, n ≠ core → f n = []) : ns.flatMap f = f core := by
  induction ns with
  | nil => cases hc
  | cons n ns ih =>
    obtain ⟨hn, hnd⟩ := List.nodup_cons.mp hnd
    rw [List.flatMap_cons]
    by_cases e : n = core
    · subst e
      have hrest : ns.flatMap f = [] := List.flatMap_eq_nil_iff.mpr fun j hj =>
        h j (List.mem_cons_of_mem n hj) fun ej => hn (ej ▸ hj)
      rw [hrest, List.append_nil]
    · rw [h n List.mem_cons_self e, List.nil_append]
      exact ih hnd ((List.mem_cons.mp hc).resolve_left (Ne.symm e)) fun j hj => h j (List.mem_cons_of_mem n hj)

theorem mem_clusterCores (cl n : Nat) : n ∈ upFrom (4 * cl) 4 ↔ clusterOfCore n = cl := by
  simp only [upFrom, clusterOfCore, List.mem_map, List.mem_range]
  constructor
  · rintro ⟨j, hj, rfl⟩; omega
  · intro h; exact ⟨n % 4, by omega, by omega⟩

/-- A cluster at whose plate stores one write waits takes that write. -/
theorem State.platesUpTo_one (s : State) (core : Nat) {x : Nat × Held} (hx : (s.core core).arrivals = [x])
    (h : ∀ n, clusterOfCore n = clusterOfCore core → n ≠ core → (s.core n).arrivals = []) :
    s.platesUpTo (clusterOfCore core) none = (s.onCore core fun c => { c with arrivals := [] }).plateArrive x := by
  have hmem : core ∈ upFrom (4 * clusterOfCore core) 4 := (mem_clusterCores _ _).mpr rfl
  have hothers : ∀ n ∈ upFrom (4 * clusterOfCore core) 4, n ≠ core → (s.core n).arrivals = [] :=
    fun n hn => h n ((mem_clusterCores _ _).mp hn)
  have hnd : (upFrom (4 * clusterOfCore core) 4).Nodup :=
    List.nodup_range.map fun a b hab => Nat.add_left_cancel hab
  have hxs : ((upFrom (4 * clusterOfCore core) 4).flatMap fun n => (s.core n).arrivals.filter fun _ => true) = [x] := by
    rw [flatMap_one _ hnd hmem fun n hn hne => by rw [hothers n hn hne]; rfl, hx]
    rfl
  have hclear := foldl_clearArrivals_one _ hmem hothers (by simp [hx])
  have hunfold : s.platesUpTo (clusterOfCore core) none =
      (sortBy (·.1) ((upFrom (4 * clusterOfCore core) 4).flatMap fun n => (s.core n).arrivals.filter fun _ => true)).foldl
        State.plateArrive ((upFrom (4 * clusterOfCore core) 4).foldl State.clearArrivals s) := rfl
  rw [hunfold, hxs, hclear]
  rfl

/-- The plate store takes a write to a plate that its crew's party holds. -/
theorem State.plateArrive_plate (s : State) {k core num : Nat} {ls : W32} {cs : List Host.Cell} {h : Held} {p : Plate}
    (he : h.eff = .plate core num ls cs)
    (hp : (s.party (s.crew k).party).plates.find? (fun x => x.num == num) = some p) (ho : p.owner = false) :
    ((s.plateArrive (k, h)).core core).plate = memPut (s.core core).plate cs := by
  simp only [State.plateArrive, he, hp, ho, Bool.false_eq_true, if_false, State.onParty_core, State.onCore_core_self]
  rfl

theorem State.leave_plate (s : State) (k : Nat) (ctl : List Host.Cell → State → State) {h : Held} {core num : Nat} {ls : W32}
    {cs : List Host.Cell} (he : h.eff = .plate core num ls cs) :
    s.leave k ctl h =
      some (s.onCore core fun c => { c with arrivals := c.arrivals ++ [(k, { h with relTs := (s.crew k).carries h })] }) := by
  obtain ⟨at_, eff, rel, relTs⟩ := h
  obtain rfl : eff = .plate core num ls cs := he
  rfl

theorem effectLeavesCore_plate (s : State) (k : Nat) {h : Held} {hs : List Held} {core num : Nat} {ls : W32} {cs : List Host.Cell}
    {p : Plate} (hh : (s.crew k).held = h :: hs) (hmay : s.mayLeave k (s.crew k) = true) (he : h.eff = .plate core num ls cs)
    (harr : ∀ n, clusterOfCore n = clusterOfCore core → (s.core n).arrivals = [])
    (hp : (s.party (s.crew k).party).plates.find? (fun x => x.num == num) = some p) (ho : p.owner = false) :
    ∃ t, exec (.effectLeavesCore k) s = .next t ∧ OnlyCrew s t k ∧ t.crew k = { s.crew k with held := hs } ∧
      (t.core core).arrivals = [(k, { h with relTs := (s.crew k).carries h })] ∧
      ∀ a, memGet ((t.platesUpTo (clusterOfCore core) none).core core).plate a = match (cs.filter fun c => c.1 == a).getLast? with
        | some c => c.2
        | none => memGet (s.core core).plate a := by
  let u := s.onCrew k fun c => { c with held := hs }
  let x : Nat × Held := (k, { h with relTs := (s.crew k).carries h })
  let t := u.onCore core fun c => { c with arrivals := c.arrivals ++ [x] }
  have hu : u.crew k = { s.crew k with held := hs } := s.onCrew_crew_self k _
  have hleave : ∀ ctl, u.leave k ctl h = some t := by
    intro ctl
    rw [u.leave_plate k ctl he, hu]
    rfl
  have hcore : t.core core = { s.core core with arrivals := [x] } := by
    have hnone : (u.core core).arrivals = [] := harr core rfl
    simp only [t, State.onCore_core_self, hnone]
    rfl
  have hothers : ∀ n, clusterOfCore n = clusterOfCore core → n ≠ core → (t.core n).arrivals = [] := by
    intro n hn hne
    rw [State.onCore_core_ne u _ hne]
    exact harr n hn
  have hu' : OnlyCrew s u k := s.onCrew_only k _
  refine ⟨t, effectLeavesCore_leaves s k hh hmay hleave, hu'.trans (OnlyCrew.of_same rfl rfl), hu, by rw [hcore], fun a => ?_⟩
  have hparty : ((t.onCore core fun c => { c with arrivals := [] }).party
      ((t.onCore core fun c => { c with arrivals := [] }).crew k).party).plates.find? (fun x => x.num == num) = some p := by
    have hc : (t.onCore core fun c => { c with arrivals := [] }).crew k = { s.crew k with held := hs } := hu
    rw [hc]
    exact hp
  have hplate := State.plateArrive_plate (h := x.2) _ he hparty ho
  rw [State.onCore_core_self, hcore] at hplate
  rw [t.platesUpTo_one core (by rw [hcore]) hothers]
  exact (congrArg (memGet · a) hplate).trans (memGet_memPut _ cs a)

end Sys2Proof.Machine
end

section
/-! PROOFS. A crew enters its next block, and its window moves (O52, R24, R25, R87, R288). -/

namespace Sys2Proof.Machine

/-! ## What a fetch reads (R45, R106) -/

/-- Crews, memory, translation, the test image and the clk are the same: what the fetch of a block's words and their way into the
instruction cache leave. -/
structure SameCode (s t : State) : Prop where
  crews : t.crews = s.crews
  mem : t.mem = s.mem
  ctxs : t.ctxs = s.ctxs
  mode : t.mode = s.mode
  cxl : t.cxl = s.cxl
  host : t.host = s.host
  test : t.test = s.test
  clk : t.clk = s.clk

theorem SameCode.refl (s : State) : SameCode s s := ⟨rfl, rfl, rfl, rfl, rfl, rfl, rfl, rfl⟩

theorem SameCode.trans {s t u : State} (h : SameCode s t) (g : SameCode t u) : SameCode s u :=
  ⟨g.crews.trans h.crews, g.mem.trans h.mem, g.ctxs.trans h.ctxs, g.mode.trans h.mode, g.cxl.trans h.cxl, g.host.trans h.host,
    g.test.trans h.test, g.clk.trans h.clk⟩

theorem SameCode.fillCode (s : State) (core loc : Nat) : SameCode s (s.fillCode core loc) := by
  unfold State.fillCode
  split
  · exact .refl s
  · exact ⟨rfl, rfl, rfl, rfl, rfl, rfl, rfl, rfl⟩

theorem SameCode.fetched (s : State) (k : Nat) (va : W64) : SameCode s (s.fetched k va) := by
  have hfresh : ∀ t : State, SameCode s t → SameCode s t.fresh := fun t h => h.trans ⟨rfl, rfl, rfl, rfl, rfl, rfl, rfl, rfl⟩
  refine hfresh _ ?_
  split
  · split
    · exact .refl s
    · exact .fillCode s _ _
  · exact .refl s

theorem SameCode.fillBlock (s : State) (k : Nat) (pc : W64) (len : Nat) : SameCode s (s.fillBlock k pc len) := by
  unfold State.fillBlock
  dsimp only
  split
  · exact .refl s
  · refine foldl_keeps (P := SameCode s) (fun t i ht => ?_) _ (.refl s)
    split
    · exact ht.trans (.fillCode t _ _)
    · exact ht

/-- The walk of the page tables depends on memory, the contexts and the windows alone. -/
theorem walkFrom_congr {s t : State} (hm : t.mem = s.mem) (hl : ∀ c pa, t.locOf c pa = s.locOf c pa) (ctx va lvl table : Nat) :
    walkFrom t ctx va lvl table = walkFrom s ctx va lvl table := by
  induction lvl generalizing table with
  | zero => simp only [walkFrom, hm, hl]
  | succ lvl ih => simp only [walkFrom, hm, hl, ih]

theorem State.xlate_congr {s t : State} (hm : t.mem = s.mem) (hc : t.ctxs = s.ctxs) (hmode : t.mode = s.mode) (hx : t.cxl = s.cxl)
    (hh : t.host = s.host) (ctx : Nat) (va : W64) (need : Need) : t.xlate ctx va need = s.xlate ctx va need := by
  have hl : ∀ c pa, t.locOf c pa = s.locOf c pa := by
    intro c pa
    simp only [State.locOf, State.homePair, State.ctx, hx, hh, hc, hmode]
  simp only [State.xlate, State.walk, walkFrom_congr hm hl, State.ctx, hc]

/-- Whether a word can be fetched. -/
theorem State.fetch_ok_iff (s : State) (k : Nat) (va : W64) :
    (∃ w, s.fetch k va = .ok w) ↔
      if (s.crew k).kind = .test then (s.test.code[va.toNat / 8]?).isSome = true else ∃ pa, s.xlate (s.crew k).ctx va .exec = .ok pa := by
  unfold State.fetch
  dsimp only
  split
  · cases s.test.code[va.toNat / 8]? <;> simp
  · cases s.xlate (s.crew k).ctx va .exec <;> simp

theorem SameCode.fetch_ok {s t : State} (h : SameCode s t) (k : Nat) (va : W64) :
    (∃ w, t.fetch k va = .ok w) ↔ ∃ w, s.fetch k va = .ok w := by
  rw [State.fetch_ok_iff, State.fetch_ok_iff, State.crew_of_crews h.crews, h.test]
  simp only [State.xlate_congr h.mem h.ctxs h.mode h.cxl h.host]

/-- A crew whose kind and context stay fetches the same word. -/
theorem State.fetch_snapshot_putCrew (s : State) (k : Nat) (c : Crew) (hk : c.kind = (s.crew k).kind) (hc : c.ctx = (s.crew k).ctx)
    (va : W64) : ((s.snapshot k).putCrew k c).fetch k va = s.fetch k va := by
  have hx : ∀ ctx need, ((s.snapshot k).putCrew k c).xlate ctx va need = s.xlate ctx va need :=
    fun ctx need => State.xlate_congr (s := s) (t := (s.snapshot k).putCrew k c) rfl rfl rfl rfl rfl ctx va need
  unfold State.fetch
  simp only [State.putCrew_crew_self, hk, hc, hx]
  rfl

/-! ## The lowest pending block (R25) -/

theorem minBy_least {α : Type} (key : α → Nat) {l : List α} (h : l ≠ []) :
    ∃ y ∈ l, minBy key l = some y ∧ ∀ x ∈ l, key y ≤ key x := by
  induction l with
  | nil => exact absurd rfl h
  | cons x xs ih =>
    by_cases hxs : xs = []
    · subst hxs
      exact ⟨x, List.mem_cons_self, rfl, by simp⟩
    · obtain ⟨y, hy, hmin, hle⟩ := ih hxs
      by_cases hxy : key x ≤ key y
      · refine ⟨x, List.mem_cons_self, by simp [minBy, hmin, hxy], fun z hz => ?_⟩
        obtain rfl | hz := List.mem_cons.mp hz
        · exact le_rfl
        · exact hxy.trans (hle z hz)
      · refine ⟨y, List.mem_cons_of_mem x hy, by simp [minBy, hmin, hxy], fun z hz => ?_⟩
        obtain rfl | hz := List.mem_cons.mp hz
        · omega
        · exact hle z hz

theorem Crew.lowest_eq (c : Crew) (m : W32) (T : W64) (hT : ∃ x ∈ c.pend, m.getLsbD x.1 = true ∧ x.2 = T)
    (hle : ∀ x ∈ c.pend, m.getLsbD x.1 = true → T.toNat ≤ x.2.toNat) : c.lowest m = some T := by
  obtain ⟨x, hx, hxm, rfl⟩ := hT
  have hxf : x ∈ c.pend.filter fun x => m.getLsbD x.1 := List.mem_filter.mpr ⟨hx, hxm⟩
  obtain ⟨y, hy, hmin, hyle⟩ := minBy_least (fun x : Nat × W64 => x.2.toNat) (List.ne_nil_of_mem hxf)
  obtain ⟨hyp, hym⟩ := List.mem_filter.mp hy
  have hsame : y.2 = x.2 := BitVec.eq_of_toNat_eq (Nat.le_antisymm (hyle x hxf) (hle y hyp hym))
  simp only [Crew.lowest, hmin, Option.map_some, hsame]

/-- The lanes that wait at a block, among those of the crew. -/
def Crew.waitAt (c : Crew) (T : W64) : W32 := maskOf fun l => c.live.getLsbD l && Map.find? c.pend l == some T

theorem Crew.choose_eq (c : Crew) (T : W64) (hf : c.frames = []) (hT : ∃ x ∈ c.pend, c.live.getLsbD x.1 = true ∧ x.2 = T)
    (hle : ∀ x ∈ c.pend, c.live.getLsbD x.1 = true → T.toNat ≤ x.2.toNat) :
    c.choose = { c.clearPend (c.waitAt T) with active := c.waitAt T, pc := T, widx := 0 } := by
  have hl : c.lanesIn = c.live := by simp [Crew.lanesIn, hf]
  simp only [Crew.choose, hl, c.lowest_eq c.live T hT hle]
  rfl

theorem find_filter_key {α : Type} (p : Nat → Bool) (m : Map α) (k : Nat) :
    Map.find? (m.filter fun x => p x.1) k = if p k then Map.find? m k else none := by
  induction m with
  | nil => simp [Map.find?]
  | cons x xs ih =>
    obtain ⟨j, v⟩ := x
    by_cases hj : j = k
    · subst hj
      cases hp : p j <;> simp [hp, Map.find?, ih]
    · cases hp : p j <;> simp [hp, Map.find?, ih, hj]

theorem Crew.clearPend_find (c : Crew) (m : W32) (l : Nat) :
    Map.find? (c.clearPend m).pend l = if m.getLsbD l then none else Map.find? c.pend l := by
  have h := find_filter_key (fun l => !m.getLsbD l) c.pend l
  simp only [Crew.clearPend, h]
  cases m.getLsbD l <;> rfl

/-! ## The entry (R87, R88, R288) -/

theorem mem_upFrom {a n i : Nat} : i ∈ upFrom a n ↔ a ≤ i ∧ i < a + n := by
  simp only [upFrom, List.mem_map, List.mem_range]
  constructor
  · rintro ⟨j, hj, rfl⟩; omega
  · rintro ⟨h1, h2⟩; exact ⟨i - a, by omega, by omega⟩

theorem Crew.mem_movesFor (c : Crew) (base live n : Nat) :
    n ∈ c.movesFor base live ↔ base ≤ n ∧ n < base + live ∧ c.holdsLog (n % c.alloc) ≠ n := by
  simp only [Crew.movesFor, List.mem_filter, mem_upFrom, bne_iff_ne, and_assoc]

/-- A block whose words can all be fetched has no fault. -/
theorem State.blockFault_none (s : State) (k : Nat) (pc : W64) (len : Nat)
    (h : ∀ i, i ≤ len → ∃ w, s.fetch k (pc + BitVec.ofNat 64 (8 * i)) = .ok w) : s.blockFault k pc len = none := by
  unfold State.blockFault
  rw [List.filterMap_eq_nil_iff.mpr]
  · rfl
  · intro i hi
    obtain ⟨-, hlt⟩ := mem_upFrom.mp (List.mem_filter.mp hi).1
    obtain ⟨w, hw⟩ := h i (by omega)
    simp only [hw]

theorem headerBad_false {w : W64} (hlen : w.extractLsb' 48 8 ≠ 0) (hzero : w.extractLsb' 0 6 = 0) (hlive : hdrLive w ≤ 2048)
    (hrec : w.extractLsb' 7 2 = 2 ↔ w.extractLsb' 9 12 ≠ 0) : headerBad w = false := by
  have h1 : (bf w 48 8 == 0) = false := beq_eq_false_iff_ne.mpr hlen
  have h2 : (bf w 0 6 != 0) = false := by simp [bf, hzero]
  have h3 : (bf w 9 12 != 0 && bf w 7 2 != 2) = false := by
    by_cases h : w.extractLsb' 7 2 = 2
    · simp [bf, h]
    · have h0 : w.extractLsb' 9 12 = 0 := not_not.mp fun hne => h (hrec.mpr hne)
      simp [bf, h0]
  have h4 : (bf w 7 2 == 2 && bf w 9 12 == 0) = false := by
    rw [Bool.and_eq_false_iff, beq_eq_false_iff_ne, beq_eq_false_iff_ne]
    by_cases h : w.extractLsb' 7 2 = 2
    · exact .inr (hrec.mp h)
    · exact .inl h
  simp only [headerBad, h1, h2, h3, h4, decide_eq_false (not_lt.mpr hlive), Bool.or_self]

/-- A header that a crew may enter from the address it stands at. -/
structure MayEnter (s : State) (k : Nat) (w : W64) : Prop where
  fetched : s.fetch k (s.crew k).pc = .ok w
  aligned : (s.crew k).pc.toNat % 8 = 0
  header : w.extractLsb' 56 8 = 0xFF
  words : ∀ i, i ≤ (w.extractLsb' 48 8).toNat → ∃ x, s.fetch k ((s.crew k).pc + BitVec.ofNat 64 (8 * i)) = .ok x
  good : headerBad w = false
  live : hdrLive w ≤ (s.crew k).alloc
  window : (s.crew k).baseNext.toNat + hdrLive w ≤ 65535
  frames : (s.crew k).frames = []
  atoms : (s.crew k).atoms = []

/-- The crew after the entry of a block from its start. -/
def Crew.entered (c : Crew) (w : W64) (clk : Nat) : Crew :=
  let ms := c.movesFor c.baseNext.toNat (hdrLive w)
  { c with
    hdr := w, base := c.baseNext.setWidth 16, widx := 1, moves := ms, blockedSince := clk
    phase := if ms.isEmpty then .running else .moving }

theorem Crew.entered_phase (c : Crew) (w : W64) (clk : Nat) :
    (c.entered w clk).phase = .running ∨ (c.entered w clk).phase = .moving := by
  unfold Crew.entered
  dsimp only
  split
  · exact .inl rfl
  · exact .inr rfl

theorem State.spillFrame_none (s : State) (k : Nat) (h : (s.crew k).frames = []) : s.spillFrame k = some s := by
  simp [State.spillFrame, h]

theorem State.enterBlock_enters (s : State) (k : Nat) (w : W64) (h : MayEnter s k w) :
    OnlyCrew s (s.enterBlock k 0) k ∧ (s.enterBlock k 0).crew k = (s.crew k).entered w s.clk := by
  let s1 := s.fetched k (s.crew k).pc
  let s2 := s1.fillBlock k (s.crew k).pc (bf w 48 8).toNat
  have hs1 : SameCode s s1 := .fetched s k _
  have hs2 : SameCode s s2 := hs1.trans (.fillBlock s1 k _ _)
  have hc1 : s1.crew k = s.crew k := State.crew_of_crews hs1.crews k
  have hc2 : s2.crew k = s.crew k := State.crew_of_crews hs2.crews k
  have hfault : s1.blockFault k (s.crew k).pc (bf w 48 8).toNat = none :=
    s1.blockFault_none k _ _ fun i hi => (hs1.fetch_ok k _).mpr (h.words i hi)
  have hspill : s1.spillFrame k = some s1 := s1.spillFrame_none k (hc1 ▸ h.frames)
  have hhead : isHeader w = true := beq_iff_eq.mpr h.header
  have hclear : ¬((s.crew k).pc.toNat % 8 ≠ 0 ∨ isHeader w = false) := by simp [h.aligned, hhead]
  have hbad : ¬(headerBad w = true ∨ (bf w 48 8).toNat + 1 < 0) := by simp [h.good]
  have henter : s.enterBlock k 0 = s2.putCrew k ((s.crew k).entered w s2.clk) := by
    simp only [State.enterBlock, h.fetched, if_neg hclear, if_true]
    rw [hfault]
    simp only [if_neg (not_lt.mpr h.live), if_neg hbad, if_neg (not_lt.mpr h.window)]
    rw [hspill]
    dsimp only
    split
    · next hwait => exact absurd hwait (by simp [hc2, h.atoms, s2])
    · rw [hc2]
      rfl
  have hsame : OnlyCrew s s2 k := OnlyCrew.of_same hs2.mem hs2.crews
  rw [henter, hs2.clk]
  exact ⟨hsame.trans (State.putCrew_only _ _ _), State.putCrew_crew_self _ _ _⟩

/-- BLOCK_ENTRY of a crew between blocks. -/
theorem blockEntry_enters (s : State) (k : Nat) (T w : W64) (hp : (s.crew k).phase = .select) (hd : (s.crew k).depth = 0)
    (ha : (s.crew k).atoms = []) (hT : ∃ x ∈ (s.crew k).pend, (s.crew k).live.getLsbD x.1 = true ∧ x.2 = T)
    (hle : ∀ x ∈ (s.crew k).pend, (s.crew k).live.getLsbD x.1 = true → T.toNat ≤ x.2.toNat) (h : EntersAt s k T w) :
    ∃ t, exec (.blockEntry k) s = .next t ∧ OnlyCrew s t k ∧ t.crew k = (s.crew k).choose.entered w s.clk := by
  let c := s.crew k
  let u := (s.snapshot k).putCrew k c.choose
  have hc : (s.snapshot k).crew k = c := rfl
  have hchoose := c.choose_eq T h.frames hT hle
  have hu : u.crew k = c.choose := State.putCrew_crew_self _ _ _
  have hfetch : ∀ va, u.fetch k va = s.fetch k va := by
    intro va
    exact s.fetch_snapshot_putCrew k c.choose (by rw [hchoose]; rfl) (by rw [hchoose]; rfl) va
  have hpc : (u.crew k).pc = T := by rw [hu, hchoose]
  have hmay : MayEnter u k w := by
    constructor
    case fetched => rw [hpc, hfetch]; exact h.fetched
    case aligned => rw [hpc]; exact h.aligned
    case header => exact h.header
    case words => rw [hpc]; intro i hi; rw [hfetch]; exact h.words i hi
    case good => exact headerBad_false h.len h.zero h.live.1 h.reconv
    all_goals rw [hu, hchoose]
    case live => exact h.live.2
    case window => exact h.window
    case frames => exact h.frames
    case atoms => exact ha
  obtain ⟨honly, hcrew⟩ := u.enterBlock_enters k w hmay
  have hthere : s.hasCrew k = true := by
    obtain ⟨x, hx, -, -⟩ := hT
    cases hf : Map.find? s.crews k with
    | some _ => simp [State.hasCrew, hf]
    | none => simp [State.crew, Map.get, hf] at hx
  have hfill : (s.snapshot k).fillFrames k 4097 = .ok (s.snapshot k) := by
    rw [State.fillFrames_succ]
    simp only [hc, c, hd, beq_self_eq_true, Bool.or_true, if_true]
  have hsettled : s.unlessUnsettled k (u.enterBlock k 0) = u.enterBlock k 0 := by
    unfold State.unlessUnsettled
    rw [hcrew]
    obtain hph | hph := (u.crew k).entered_phase w u.clk <;> simp [hph]
  refine ⟨u.enterBlock k 0, ?_, ?_, ?_⟩
  · simp only [exec, execBlockEntry, hthere, hp, hfill, Bool.not_true, Bool.false_eq_true, if_false]
    exact congrArg Host.Outcome.next hsettled
  · have hsnap : OnlyCrew s u k := OnlyCrew.trans (t := s.snapshot k) (OnlyCrew.of_same rfl rfl) (State.putCrew_only _ _ _)
    exact hsnap.trans honly
  · rw [hcrew, hu]
    rfl

/-! ## Window moves (R288) -/

theorem mkRow_at (f : Nat → W32) {l : Nat} (hl : l < 32) : (mkRow f).at_ l = f l := by
  simp [mkRow, Row.at_, lanes, List.getD_eq_getElem?_getD, hl]

/-- The register that 128 bytes of the crew's area fill. -/
def fillRow (bs : List Byte) : Row := mkRow fun l => BitVec.ofNat 32 (ofBytes ((bs.drop (4 * l)).take 4))

/-- The crew after the move of register n, where ms are still to come. -/
def Crew.filled (c : Crew) (n : Nat) (ms : List Nat) (row : Row) (clk : Nat) : Crew :=
  { c with
    v := Map.put c.v (n % c.alloc) ⟨n, false, row⟩
    moves := ms
    phase := if ms.isEmpty then .running else .moving
    readyAt := if ms.isEmpty then max c.readyAt (clk + 1) else c.readyAt
    readySince := if ms.isEmpty then clk else c.readySince }

theorem Crew.filled_eq (c : Crew) (n : Nat) (ms : List Nat) (row : Row) (clk : Nat) :
    c.filled n ms row clk = { c with
      v := Map.put c.v (n % c.alloc) ⟨n, false, row⟩, moves := ms, phase := if ms = [] then .running else .moving
      readyAt := if ms = [] then max c.readyAt (clk + 1) else c.readyAt
      readySince := if ms = [] then clk else c.readySince } := by
  cases ms <;> rfl

/-- The place of a register in the crew's area (R56). -/
def Crew.placeOf (c : Crew) (n : Nat) : W64 := c.spill + BitVec.ofNat 64 (128 * n)

/-- A move over a register that was not written since it was filled. -/
theorem windowMove_clean (s : State) (k n : Nat) (ms : List Nat) (hm : (s.crew k).moves = n :: ms)
    (hclean : ∀ x, Map.find? (s.crew k).v (n % (s.crew k).alloc) = some x → x.dirty = false) {bs : List Byte}
    (hfill : s.fillIn k ((s.crew k).placeOf n) 128 = some bs) :
    exec (.windowMove k) s = .next (s.onCrew k fun c => c.filled n ms (fillRow bs) s.clk) := by
  have hfill' : s.fillIn k ((s.crew k).spill + BitVec.ofNat 64 (128 * n)) 128 = some bs := hfill
  simp only [exec, execWindowMove, hm]
  cases hv : Map.find? (s.crew k).v (n % (s.crew k).alloc) with
  | none =>
    simp only [hfill']
    rfl
  | some x =>
    simp only [hclean x hv, Bool.false_eq_true, if_false, hfill']
    rfl

theorem length_rowBytes (row : Row) : (row.flatMap fun y => bytesOf 4 y.toNat).length = 4 * row.length := by
  induction row with
  | nil => rfl
  | cons y ys ih =>
    rw [List.flatMap_cons, List.length_append, ih, List.length_cons]
    simp only [bytesOf, List.length_cons, List.length_nil]
    omega

/-- The spill of a register: a held effect of its 128 bytes. -/
def State.spillOf (s : State) (ls : List Nat) (row : Row) : Held :=
  { at_ := s.clk, eff := .spill ((ls.zip (row.flatMap fun y => bytesOf 4 y.toNat)).filter fun b => !locCtl b.1) false }

/-- A move over a register that was written: it is spilled first. -/
theorem windowMove_spills (s u : State) (k n : Nat) (ms : List Nat) (hm : (s.crew k).moves = n :: ms) {x : VSlot}
    (hv : Map.find? (s.crew k).v (n % (s.crew k).alloc) = some x) (hd : x.dirty = true)
    (hout : s.spillOut k ((s.crew k).placeOf x.log) (x.row.flatMap fun y => bytesOf 4 y.toNat) false = some u) {bs : List Byte}
    (hfill : u.fillIn k ((s.crew k).placeOf n) 128 = some bs) :
    exec (.windowMove k) s = .next (u.onCrew k fun c => c.filled n ms (fillRow bs) u.clk) := by
  have hold : (s.crew k).holdsLog (n % (s.crew k).alloc) = x.log := by simp only [Crew.holdsLog, hv]
  unfold Crew.placeOf at hout hfill
  simp only [exec, execWindowMove, hm, hv, hd, if_true, hold, hout, hfill]
  rfl

theorem State.spillOut_row (s : State) (k : Nat) (va : W64) {row : Row} {ls : List Nat} (hrow : row.length = 32)
    (hls : s.ownLocs (s.crew k) va 128 .write = some ls) :
    s.spillOut k va (row.flatMap fun y => bytesOf 4 y.toNat) false =
      some (s.putCrew k { s.crew k with held := (s.crew k).held ++ [s.spillOf ls row] }) := by
  unfold State.spillOut
  dsimp only
  rw [length_rowBytes, hrow, hls]
  rfl

end Sys2Proof.Machine
end

section
/-! PROOFS. The choice of the crews that issue (O52, R12, R280, R281). -/

namespace Sys2Proof.Machine

/-! ## What ISSUE_SELECT looks at -/

/-- A crew of a partition with the instruction that it stands at, where it can run. -/
abbrev Candidate := (Nat × Crew) × Option Instr

def State.candidates (s : State) (core part : Nat) : List Candidate :=
  (s.partCrews core part).map fun kc => (kc, if kc.2.canRun s.clk then s.nextInstr kc.1 kc.2 else none)

/-- Whether the scoreboard lets the crew issue. -/
def State.scoreFree (s : State) (x : Candidate) : Bool := match x.2 with | some i => x.1.2.scoreOk s.clk i | none => true

/-- Whether the crew's word has issued and is executed again. -/
def State.goesAgain (s : State) (x : Candidate) : Bool := x.1.2.again && x.1.2.canRun s.clk && !s.frozen x.1.2 && s.scoreFree x

/-- Whether something else holds back the crew's word. -/
def State.heldBack (s : State) (full : Bool) (x : Candidate) : Bool :=
  !x.1.2.again && x.1.2.canRun s.clk && s.otherHolds x.1.1 x.1.2 full x.2

def State.mayIssue (s : State) (full : Bool) (x : Candidate) : Bool :=
  !x.1.2.again && x.1.2.canRun s.clk && !s.heldBack full x && s.scoreFree x

/-- The issue slots of a partition that its crews have: one goes to a service crew with requests. -/
def State.issueSlots (s : State) (core part : Nat) : Nat :=
  if part = 5 ∧ core % 4 = 0 ∧ (Map.get [] s.svcq (core / 4)).isEmpty = false then 1 else 2

def State.againKeys (s : State) (core part : Nat) : List Nat := ((s.candidates core part).filter s.goesAgain).map (·.1.1)

/-- The crews among which the issue slots are given. -/
def State.readyCrews (s : State) (core part : Nat) : List (Nat × Crew) :=
  ((s.candidates core part).filter fun x => s.mayIssue (bufferFull (s.partCrews core part)) x && !x.1.2.wasHeld).map (·.1)

def State.chosenKeys (s : State) (core part : Nat) : List Nat :=
  (issueOrder s.clk (s.readyCrews core part)).take (s.issueSlots core part)

/-- ISSUE_SELECT adds the crews whose word goes on and the chosen ones to the run queue, in the order of their requests. -/
theorem issueSelect_eq (s : State) (core part : Nat) :
    ∃ u : State, u.mem = s.mem ∧ u.runq = s.runq ∧ exec (.issueSelect core part) s =
      .next { u with runq := u.inRequestOrder u.runq (s.againKeys core part ++ s.chosenKeys core part) } := by
  refine ⟨_, ?_, ?_, rfl⟩
  · refine foldl_keeps (P := fun t : State => t.mem = s.mem) ?_ _ rfl
    exact fun _ _ h => h
  · refine foldl_keeps (P := fun t : State => t.runq = s.runq) ?_ _ rfl
    exact fun _ _ h => h

/-! ## The order of requests only permutes -/

theorem State.inRequestOrder_perm (s : State) (old new : List Nat) : (s.inRequestOrder old new).Perm (old ++ new) := by
  let keyed := fun (ks : List Nat) => ks.map fun k => (s.requestKey k, k)
  have hsnd : ∀ ks, (keyed ks).map (·.2) = ks := fun ks => by simp [keyed, Function.comp_def]
  have hnew : ((sortBy (fun (x : Nat × Nat) => x.1) (keyed new)).map (·.2)).Perm new := by
    have h := (sortBy_perm (fun (x : Nat × Nat) => x.1) (keyed new)).map (·.2)
    rwa [hsnd] at h
  have hkeep : (old ++ (sortBy (fun (x : Nat × Nat) => x.1) (keyed new)).map (·.2)).Perm (old ++ new) := hnew.append_left old
  have hall : ((sortBy (fun (x : Nat × Nat) => x.1) (keyed old ++ sortBy (fun (x : Nat × Nat) => x.1) (keyed new))).map (·.2)).Perm
      (old ++ new) := by
    have h := (sortBy_perm (fun (x : Nat × Nat) => x.1) (keyed old ++ sortBy (fun (x : Nat × Nat) => x.1) (keyed new))).map (·.2)
    rw [List.map_append, hsnd] at h
    exact h.trans hkeep
  unfold State.inRequestOrder
  dsimp only
  split
  · next heq =>
    split
    · exact heq ▸ hkeep
    · exact heq ▸ hall
  · exact hkeep

theorem issueOrder_perm (clk : Nat) (cs : List (Nat × Crew)) : (issueOrder clk cs).Perm (cs.map (·.1)) := by
  have hsplit := List.filter_append_perm (fun kc : Nat × Crew => decide (192 ≤ kc.2.waited clk)) cs
  exact (((sortBy_perm _ _).append (sortBy_perm _ _)).trans hsplit).map (·.1)

/-! ## Who is chosen -/

theorem State.mem_candidates {s : State} {core part : Nat} {x : Candidate} (h : x ∈ s.candidates core part) :
    x.1 ∈ s.crews ∧ coreOfKey x.1.1 = core ∧ partOfSlot (slotOfKey x.1.1) = part := by
  obtain ⟨kc, hkc, rfl⟩ := List.mem_map.mp h
  obtain ⟨hin, hat⟩ := List.mem_filter.mp hkc
  obtain ⟨hcore, hpart⟩ := Bool.and_eq_true_iff.mp hat
  exact ⟨hin, beq_iff_eq.mp hcore, beq_iff_eq.mp hpart⟩

theorem State.mem_againKeys {s : State} {core part k : Nat} (h : k ∈ s.againKeys core part) :
    coreOfKey k = core ∧ partOfSlot (slotOfKey k) = part ∧
      ∃ c, (k, c) ∈ s.crews ∧ c.again = true ∧ c.canRun s.clk = true ∧ s.frozen c = false := by
  obtain ⟨x, hx, rfl⟩ := List.mem_map.mp h
  obtain ⟨hcand, hagain⟩ := List.mem_filter.mp hx
  obtain ⟨hin, hcore, hpart⟩ := State.mem_candidates hcand
  simp only [State.goesAgain, Bool.and_eq_true, Bool.not_eq_true'] at hagain
  obtain ⟨⟨⟨ha, hrun⟩, hfro⟩, -⟩ := hagain
  exact ⟨hcore, hpart, x.1.2, hin, ha, hrun, hfro⟩

/-- Nothing holds back a candidate that may issue, a pre-emption least of all. -/
theorem State.frozen_of_mayIssue {s : State} {full : Bool} {x : Candidate} (h : s.mayIssue full x = true) :
    x.1.2.again = false ∧ x.1.2.canRun s.clk = true ∧ s.frozen x.1.2 = false := by
  simp only [State.mayIssue, Bool.and_eq_true, Bool.not_eq_true'] at h
  obtain ⟨⟨⟨ha, hrun⟩, hheld⟩, -⟩ := h
  refine ⟨ha, hrun, ?_⟩
  simp only [State.heldBack, ha, hrun, Bool.not_false, Bool.true_and, State.otherHolds, Bool.or_eq_false_iff] at hheld
  exact hheld.1.1

theorem State.mem_chosenKeys {s : State} {core part k : Nat} (h : k ∈ s.chosenKeys core part) :
    coreOfKey k = core ∧ partOfSlot (slotOfKey k) = part ∧
      ∃ c, (k, c) ∈ s.crews ∧ c.again = false ∧ c.wasHeld = false ∧ c.canRun s.clk = true ∧ s.frozen c = false := by
  obtain ⟨kc, hkc, rfl⟩ := List.mem_map.mp ((issueOrder_perm _ _).mem_iff.mp (List.mem_of_mem_take h))
  obtain ⟨x, hx, rfl⟩ := List.mem_map.mp hkc
  obtain ⟨hcand, hready⟩ := List.mem_filter.mp hx
  obtain ⟨hin, hcore, hpart⟩ := State.mem_candidates hcand
  obtain ⟨hmay, hheld⟩ := Bool.and_eq_true_iff.mp hready
  obtain ⟨ha, hrun, hfro⟩ := State.frozen_of_mayIssue hmay
  exact ⟨hcore, hpart, x.1.2, hin, ha, by simpa using hheld, hrun, hfro⟩

theorem State.issueSlots_le (s : State) (core part : Nat) : s.issueSlots core part ≤ 2 := by
  unfold State.issueSlots
  split <;> omega

theorem State.issueSlots_service (s : State) {core part : Nat} (hp : part = 5) (hc : core % 4 = 0)
    (hq : Map.get [] s.svcq (core / 4) ≠ []) : s.issueSlots core part = 1 := by
  simp [State.issueSlots, hp, hc, hq]

/-- A crew that nothing holds back. -/
structure IssueReady (s : State) (core part : Nat) (kc : Nat × Crew) : Prop where
  there : kc ∈ s.crews
  core : coreOfKey kc.1 = core
  part : partOfSlot (slotOfKey kc.1) = part
  run : kc.2.canRun s.clk = true
  live : s.frozen kc.2 = false
  throt : kc.2.throt = false
  fresh : kc.2.again = false
  free : kc.2.wasHeld = false
  room : ∀ i, s.nextInstr kc.1 kc.2 = some i → kc.2.scoreOk s.clk i = true ∧ s.roomHolds kc.1 kc.2 i = false ∧
    (needsSettled i = true → kc.2.drained = true)

/-- Where the commit buffer has room, nothing holds such a crew back, and the scoreboard lets it issue. -/
theorem IssueReady.mayIssue {s : State} {core part : Nat} {kc : Nat × Crew} (h : IssueReady s core part kc) :
    s.mayIssue false (kc, s.nextInstr kc.1 kc.2) = true := by
  have hthrot : s.throttleHolds kc.1 kc.2 (s.nextInstr kc.1 kc.2) = false := by simp [State.throttleHolds, h.throt]
  cases hi : s.nextInstr kc.1 kc.2 with
  | none =>
    rw [hi] at hthrot
    simp [State.mayIssue, State.heldBack, State.otherHolds, State.scoreFree, h.fresh, h.run, h.live, hthrot]
  | some i =>
    rw [hi] at hthrot
    obtain ⟨hscore, hroom, hsettled⟩ := h.room i hi
    have hwait : (needsSettled i && !kc.2.drained) = false := by
      cases hn : needsSettled i with
      | false => rfl
      | true => simp [hsettled hn]
    simp [State.mayIssue, State.heldBack, State.otherHolds, State.scoreFree, h.fresh, h.run, h.live, hthrot, hscore, hroom, hwait]

theorem IssueReady.chosen {s : State} {core part : Nat} {kc : Nat × Crew} (h : IssueReady s core part kc)
    (hfull : bufferFull (s.partCrews core part) = false) : s.chosenKeys core part ≠ [] := by
  have hcand : (kc, s.nextInstr kc.1 kc.2) ∈ s.candidates core part := by
    refine List.mem_map.mpr ⟨kc, List.mem_filter.mpr ⟨h.there, ?_⟩, by simp [h.run]⟩
    simp [h.core, h.part]
  have hready : kc ∈ s.readyCrews core part := by
    refine List.mem_map.mpr ⟨_, List.mem_filter.mpr ⟨hcand, ?_⟩, rfl⟩
    simp [hfull, h.mayIssue, h.free]
  have horder : kc.1 ∈ issueOrder s.clk (s.readyCrews core part) :=
    (issueOrder_perm _ _).mem_iff.mpr (List.mem_map.mpr ⟨kc, hready, rfl⟩)
  have hslots : s.issueSlots core part ≠ 0 := by
    unfold State.issueSlots
    split <;> omega
  simp only [State.chosenKeys, ne_eq, List.take_eq_nil_iff, not_or]
  exact ⟨hslots, List.ne_nil_of_mem horder⟩

end Sys2Proof.Machine
end

section
/-! PROOFS. A returning atomic finishes (O52, R191). -/

namespace Sys2Proof.Machine

/-! ## A change from outside a crew's instructions, and an acquire -/

theorem State.crew_found {s : State} {k : Nat} (h : (s.crew k).atoms ≠ []) : (Map.find? s.crews k).isNone = false := by
  cases hf : Map.find? s.crews k with
  | none => simp [State.crew, Map.get, hf] at h
  | some c => rfl

/-- A change of a crew from outside changes that crew alone, and of what a replay would restore neither the crews nor the times. -/
theorem State.onCrewPast_eq {s : State} {k : Nat} (f : Crew → Crew) (h : (s.crew k).atoms ≠ []) :
    OnlyCrew s (s.onCrewPast k f) k ∧ (s.onCrewPast k f).crew k = f (s.crew k) ∧
      ∀ p ∈ (s.onCrewPast k f).past, ∃ q ∈ s.past, p.key = q.key ∧ p.at_ = q.at_ := by
  have e : s.onCrewPast k f =
      { s.onCrew k f with past := s.past.map fun p => if p.key = k then { p with crew := f p.crew } else p } := by
    simp [State.onCrewPast, State.crew_found h]
  rw [e]
  refine ⟨⟨fun _ => rfl, (s.onCrew_only k f).others⟩, s.onCrew_crew_self k f, fun p hp => ?_⟩
  obtain ⟨q, hq, rfl⟩ := List.mem_map.mp hp
  refine ⟨q, hq, ?_⟩
  split <;> exact ⟨rfl, rfl⟩

/-- An acquire changes of the crews only what this one has acquired of other dies. -/
theorem State.acquire_eq (s : State) (k : Nat) (sc : Scope) (wts : Stamp) (ch : Clocks) :
    OnlyCrew s (s.acquire k sc wts ch) k ∧ (s.acquire k sc wts ch).past = s.past ∧
      ∃ seen, (s.acquire k sc wts ch).crew k = { s.crew k with seen := seen } := by
  have honce : ∀ t : State, t.mem = s.mem → t.crews = s.crews → t.past = s.past →
      OnlyCrew s (t.onCrew k fun c => { c with seen := joinStamps c.seen ch }) k ∧
      (t.onCrew k fun c => { c with seen := joinStamps c.seen ch }).past = s.past ∧
      ∃ seen, (t.onCrew k fun c => { c with seen := joinStamps c.seen ch }).crew k = { s.crew k with seen := seen } := by
    intro t hm hc hp
    refine ⟨(OnlyCrew.of_same hm hc).onCrew _, hp, joinStamps (s.crew k).seen ch, ?_⟩
    rw [State.onCrew_crew_self, State.crew_of_crews hc]
  cases sc with
  | crew => exact ⟨OnlyCrew.of_same rfl rfl, rfl, (s.crew k).seen, rfl⟩
  | clus => exact honce _ rfl rfl rfl
  | die => exact honce _ rfl rfl rfl
  | dev => exact honce _ rfl rfl rfl
  | sys => exact honce _ rfl rfl rfl

/-! ## The values of a returning atomic in its crew (R189, R191) -/

/-- The lanes whose value returned without poison, with the values. -/
def AtomOp.vals (o : AtomOp) : List (Nat × W64) := o.results.filterMap fun r => r.2.map fun v => (r.1, v)

/-- A crew that waits for an atomic no more, with the stamps that it read with. -/
def Crew.returned (c : Crew) (o : AtomOp) : Crew :=
  { c with
    atoms := c.atoms.filter fun x => x.token != o.token
    readWts := match o.wts with | some t => stampMax c.readWts t | none => c.readWts
    readSeen := joinStamps c.readSeen o.clocks }

/-- Writes the values of the lanes at a window register counted from the window's first. -/
def Crew.putVals (c : Crew) (vd : Nat) (wide : Bool) (vals : List (Nat × W64)) : Crew :=
  let m := maskL (vals.map Prod.fst)
  let f := fun l => (Map.find? vals l).getD 0
  let d : Crew := { c with base := 0 }
  if wide then d.putVP vd m f else d.putV vd m fun l => (f l).extractLsb' 0 32

theorem Crew.deliver_lanes {c : Crew} {o : AtomOp} {vd : Nat} {wide : Bool} (hin : o ∈ c.atoms) (hd : o.dest = .lanes vd wide) :
    c.deliver o = { (c.returned o).putVals vd wide o.vals with base := c.base } := by
  have hany : (c.atoms.any fun x => x.token == o.token) = true := List.any_eq_true.mpr ⟨o, hin, beq_self_eq_true _⟩
  unfold Crew.deliver
  rw [hany, hd]
  rfl

theorem Crew.deliver_scalar {c : Crew} {o : AtomOp} {sd : SReg} {ty : Ty} (hin : o ∈ c.atoms) (hd : o.dest = .scalar sd ty) :
    c.deliver o = match o.vals with | (_, x) :: _ => (c.returned o).setS sd (extOld ty x) | [] => c.returned o := by
  have hany : (c.atoms.any fun x => x.token == o.token) = true := List.any_eq_true.mpr ⟨o, hin, beq_self_eq_true _⟩
  unfold Crew.deliver
  rw [hany, hd]
  rfl

/-- Whatever the destination, beside the registers an atomic leaves in its crew what `returned` says. -/
theorem Crew.deliver_rest {c : Crew} {o : AtomOp} (hin : o ∈ c.atoms) :
    c.deliver o = { c.returned o with s := (c.deliver o).s, v := (c.deliver o).v } := by
  cases hd : o.dest with
  | lanes vd wide =>
    rw [Crew.deliver_lanes hin hd]
    cases wide <;> rfl
  | scalar sd ty =>
    rw [Crew.deliver_scalar hin hd]
    cases o.vals with
    | nil => rfl
    | cons x xs =>
      dsimp only [Crew.setS]
      split <;> rfl

/-! ### The window registers -/

theorem getLsbD_maskL (ls : List Nat) {l : Nat} (hl : l < 32) : (maskL ls).getLsbD l = ls.contains l := by
  simp [maskL, maskOf, hl]

theorem Crew.vl_putV_self (c : Crew) (n : Nat) (m : W32) (f : Nat → W32) {l : Nat} (hl : l < 32) :
    (c.putV n m f).vl n l = if m.getLsbD l then f l else c.vl n l := by
  have hrow : (c.putV n m f).row n = mkRow fun l => if m.getLsbD l then f l else c.vl n l := by
    simp only [Crew.row, Crew.putV, Crew.setRow, Crew.slot, MapLaws.find_put_self]
  rw [Crew.vl, hrow, mkRow_at _ hl]

theorem Crew.vl_putV_ne (c : Crew) {n j : Nat} (m : W32) (f : Nat → W32) (l : Nat) (h : c.slot j ≠ c.slot n) :
    (c.putV n m f).vl j l = c.vl j l := by
  have hrow : (c.putV n m f).row j = c.row j := by
    have hfind : Map.find? (c.putV n m f).v ((c.putV n m f).slot j) = Map.find? c.v (c.slot j) := MapLaws.find_put_ne _ _ h
    simp only [Crew.row, hfind]
  rw [Crew.vl, hrow, Crew.vl]

/-- A pair of window registers takes two slots. -/
theorem Crew.slot_succ_ne (c : Crew) (n : Nat) (h : 2 ≤ c.alloc) : c.slot n ≠ c.slot (n + 1) := by
  intro e
  have hmod : (c.base.toNat + n) % c.alloc = (c.base.toNat + n + 1) % c.alloc := e
  have hdvd : c.alloc ∣ (c.base.toNat + n + 1) - (c.base.toNat + n) := (Nat.modEq_iff_dvd' (by omega)).mp hmod
  have hone : c.alloc ∣ 1 := by simpa using hdvd
  have := Nat.le_of_dvd (by omega) hone
  omega

theorem Crew.vpl_putVP_self (c : Crew) (n : Nat) (m : W32) (f : Nat → W64) {l : Nat} (hl : l < 32) (ha : 2 ≤ c.alloc)
    (hm : m.getLsbD l = true) : (c.putVP n m f).vpl n l = f l := by
  let d := c.putV n m fun l => (f l).extractLsb' 0 32
  have hslot : d.slot n ≠ d.slot (n + 1) := c.slot_succ_ne n ha
  have hhigh : (c.putVP n m f).vl (n + 1) l = (f l).extractLsb' 32 32 := by
    rw [Crew.putVP, Crew.vl_putV_self _ _ _ _ hl, if_pos hm]
  have hlow : (c.putVP n m f).vl n l = (f l).extractLsb' 0 32 := by
    rw [Crew.putVP, Crew.vl_putV_ne d _ _ l hslot, Crew.vl_putV_self _ _ _ _ hl, if_pos hm]
  rw [Crew.vpl, hhigh, hlow, BitVec.extractLsb'_append_extractLsb']

/-! ### The values -/

theorem find_of_mem_nodup {α : Type} {m : Map α} {l : Nat} {v : α} (hnd : (m.map (·.1)).Nodup) (h : (l, v) ∈ m) :
    Map.find? m l = some v := by
  induction m with
  | nil => cases h
  | cons x xs ih =>
    obtain ⟨j, w⟩ := x
    simp only [List.map_cons, List.nodup_cons] at hnd
    obtain ⟨hj, hnd⟩ := hnd
    obtain he | hin := List.mem_cons.mp h
    · cases he
      simp [Map.find?]
    · have hne : j ≠ l := by
        rintro rfl
        exact hj (List.mem_map.mpr ⟨_, hin, rfl⟩)
      simp [Map.find?, hne, ih hnd hin]

theorem AtomOp.vals_keys (o : AtomOp) : (o.vals.map (·.1)).Sublist (o.results.map (·.1)) := by
  unfold AtomOp.vals
  induction o.results with
  | nil => exact .slnil
  | cons r rs ih =>
    obtain ⟨l, v⟩ := r
    cases v with
    | none => exact ih.cons _
    | some v => exact ih.cons_cons _

theorem AtomOp.mem_vals {o : AtomOp} {l : Nat} {v : W64} (h : (l, some v) ∈ o.results) : (l, v) ∈ o.vals :=
  List.mem_filterMap.mpr ⟨_, h, rfl⟩

theorem AtomOp.find_vals {o : AtomOp} {l : Nat} {v : W64} (hnd : (o.results.map (·.1)).Nodup) (h : (l, some v) ∈ o.results) :
    Map.find? o.vals l = some v := find_of_mem_nodup (o.vals_keys.nodup hnd) (AtomOp.mem_vals h)

theorem Crew.vn_putVals (c : Crew) {o : AtomOp} {vd : Nat} (wide : Bool) {l : Nat} {v : W64} (hvd : vd < 2048) (hl : l < 32)
    (ha : 2 ≤ c.alloc) (hnd : (o.results.map (·.1)).Nodup) (h : (l, some v) ∈ o.results) :
    ({ c.putVals vd wide o.vals with base := 0 } : Crew).vn wide (BitVec.ofNat 11 vd) l =
      if wide then v.toNat else v.toNat % 2 ^ 32 := by
  have hreg : (BitVec.ofNat 11 vd).toNat = vd := by simp; omega
  have hm : (maskL (o.vals.map Prod.fst)).getLsbD l = true := by
    rw [getLsbD_maskL _ hl]
    exact List.contains_iff_mem.mpr (List.mem_map.mpr ⟨_, AtomOp.mem_vals h, rfl⟩)
  have hf : (Map.find? o.vals l).getD 0 = v := by rw [AtomOp.find_vals hnd h]; rfl
  cases wide with
  | true =>
    have hvp := Crew.vpl_putVP_self { c with base := 0 } vd (maskL (o.vals.map Prod.fst)) (fun l => (Map.find? o.vals l).getD 0) hl ha hm
    simp only [Crew.vn, hreg, if_true]
    exact congrArg BitVec.toNat (hvp.trans hf)
  | false =>
    have hv := Crew.vl_putV_self { c with base := 0 } vd (maskL (o.vals.map Prod.fst))
      (fun l => ((Map.find? o.vals l).getD 0).extractLsb' 0 32) hl
    rw [if_pos hm, hf] at hv
    simp only [Crew.vn, hreg, Bool.false_eq_true, if_false]
    refine (congrArg BitVec.toNat hv).trans ?_
    simp [BitVec.extractLsb'_toNat]

/-! ## ATOMIC_RETURN -/

/-- A crew's oldest returning atomic has delivered its values and acquired: what the state is before a trap for poison. -/
structure Delivered (s t : State) (k : Nat) (o : AtomOp) : Prop where
  only : OnlyCrew s t k
  crew : ∃ seen, t.crew k = { (s.crew k).deliver o with seen := seen }
  past : ∀ p ∈ t.past, ∃ q ∈ s.past, p.key = q.key ∧ p.at_ = q.at_

/-- The values of an atomic and its acquire. -/
def State.delivered (s : State) (k : Nat) (o : AtomOp) : State :=
  let t := s.onCrewPast k fun c => c.deliver o
  match o.acq with
  | some sc => t.acquire k sc (o.wts.getD (t.core (coreOfKey k)).ts) o.clocks
  | none => t

theorem State.delivered_delivers (s : State) (k : Nat) (o : AtomOp) (h : (s.crew k).atoms ≠ []) : Delivered s (s.delivered k o) k o := by
  obtain ⟨honly, hcrew, hpast⟩ := State.onCrewPast_eq (fun c => c.deliver o) h
  cases ha : o.acq with
  | none =>
    have e : s.delivered k o = s.onCrewPast k fun c => c.deliver o := by simp only [State.delivered, ha]
    rw [e]
    exact ⟨honly, ⟨_, hcrew⟩, hpast⟩
  | some sc =>
    let t := s.onCrewPast k fun c => c.deliver o
    have e : s.delivered k o = t.acquire k sc (o.wts.getD (t.core (coreOfKey k)).ts) o.clocks := by simp only [State.delivered, ha, t]
    obtain ⟨honly', hpast', seen, hcrew'⟩ := t.acquire_eq k sc (o.wts.getD (t.core (coreOfKey k)).ts) o.clocks
    rw [e]
    exact ⟨honly.trans honly', ⟨seen, by rw [hcrew', hcrew]⟩, by rw [hpast']; exact hpast⟩

theorem State.finishAtom_clean (s : State) (k : Nat) (o : AtomOp) (h : o.bad = []) : s.finishAtom k o = s.delivered k o := by
  unfold State.finishAtom
  rw [h]
  rfl

/-- The record of a trap for one poisoned lane of an atomic. -/
def AtomOp.poisonRec (o : AtomOp) (l : Nat) (va : W64) : TrapRec :=
  { cause := 0x06, detail0 := match o.plate with | some n => BitVec.ofNat 64 (16 + 256 * n) | none => 0, detail1 := va
    lanes := maskL [l], perf := true, pc := o.pc, widx := o.widx, word := o.word }

/-- Nothing that the crew did after the atomic is there to be discarded. -/
theorem State.finishAtom_poisoned (s : State) (k : Nat) (o : AtomOp) {l : Nat} {va : W64} (h : o.bad = [(l, va)])
    (hin : (s.crew k).atoms ≠ []) (hpast : ∀ p ∈ s.past, p.key = k → p.at_ ≤ o.at_) :
    s.finishAtom k o = (s.delivered k o).trapCrew k (o.poisonRec l va) := by
  have hnone : ((s.delivered k o).past.find? fun p => p.key == k && decide (o.at_ < p.at_)) = none := by
    refine List.find?_eq_none.mpr fun p hp hlate => ?_
    obtain ⟨hkey, hat⟩ := Bool.and_eq_true_iff.mp hlate
    obtain ⟨q, hq, hqk, hqa⟩ := (s.delivered_delivers k o hin).past p hp
    have hle := hpast q hq (hqk ▸ beq_iff_eq.mp hkey)
    have hlt := of_decide_eq_true hat
    omega
  unfold State.finishAtom
  rw [h]
  change State.trapCrew (match (s.delivered k o).past.find? fun p => p.key == k && decide (o.at_ < p.at_) with
    | some p => (s.delivered k o).rewind k p
    | none => s.delivered k o) k (o.poisonRec l va) = _
  rw [hnone]

theorem execAtomicReturn_eq {s : State} {k : Nat} {o : AtomOp} {os : List AtomOp} (ha : (s.crew k).atoms = o :: os)
    (hg : o.groups = 0) :
    ∃ t, exec (.atomicReturn k) s = .next t ∧ t.mem = (s.finishAtom k o).mem ∧ t.crews = (s.finishAtom k o).crews := by
  refine ⟨if os.isEmpty then s.finishAtom k o else (s.finishAtom k o).push (.atomicReturn k), ?_, ?_⟩
  · simp only [exec, execAtomicReturn, ha, hg, ne_eq, not_true_eq_false, if_false]
  · split <;> exact ⟨rfl, rfl⟩

/-- What the crew is after an atomic whose lanes met no poison. -/
theorem atomicReturn_delivers (s : State) (k : Nat) {o : AtomOp} {os : List AtomOp} (ha : (s.crew k).atoms = o :: os)
    (hg : o.groups = 0) (hbad : o.bad = []) :
    ∃ t seen, exec (.atomicReturn k) s = .next t ∧ OnlyCrew s t k ∧ t.crew k = { (s.crew k).deliver o with seen := seen } := by
  obtain ⟨t, hexec, hmem, hcrews⟩ := execAtomicReturn_eq ha hg
  obtain ⟨honly, ⟨seen, hcrew⟩, -⟩ := s.delivered_delivers k o (by simp [ha])
  rw [s.finishAtom_clean k o hbad] at hmem hcrews
  exact ⟨t, seen, hexec, honly.trans (OnlyCrew.of_same hmem hcrews), (State.crew_of_crews hcrews k).trans hcrew⟩

/-- The crew takes the trap of one poisoned lane of an atomic. -/
theorem atomicReturn_traps (s : State) (k : Nat) {o : AtomOp} {os : List AtomOp} (ha : (s.crew k).atoms = o :: os)
    (hg : o.groups = 0) {l : Nat} {va : W64} (hbad : o.bad = [(l, va)]) (hk : (s.crew k).kind = .normal)
    (hpast : ∀ p ∈ s.past, p.key = k → p.at_ ≤ o.at_) :
    ∃ t, exec (.atomicReturn k) s = .next t ∧ OnlyCrew s t k ∧ (t.crew k).phase = .trapped ∧
      (t.crew k).trap = some (o.poisonRec l va) := by
  have hne : (s.crew k).atoms ≠ [] := by simp [ha]
  obtain ⟨t, hexec, hmem, hcrews⟩ := execAtomicReturn_eq ha hg
  obtain ⟨honly, ⟨seen, hcrew⟩, -⟩ := s.delivered_delivers k o hne
  have hkind : ((s.delivered k o).crew k).kind = .normal := by
    rw [hcrew, Crew.deliver_rest (by rw [ha]; exact List.mem_cons_self)]
    exact hk
  obtain ⟨honly', clk, htrap⟩ := (s.delivered k o).trapCrew_normal k (o.poisonRec l va) hkind
  rw [s.finishAtom_poisoned k o hbad hne hpast] at hmem hcrews
  refine ⟨t, hexec, (honly.trans honly').trans (OnlyCrew.of_same hmem hcrews), ?_, ?_⟩
  · rw [State.crew_of_crews hcrews k, htrap]
    rfl
  · rw [State.crew_of_crews hcrews k, htrap]
    rfl

end Sys2Proof.Machine
end

section
/-! PROOFS. O52, from what each step of the issue hardware does. -/

namespace Sys2Proof.Machine

/-- A block is entered at the lowest pending address, by the lanes that wait there. -/
theorem blockEntry_lowest (s : State) (k : Nat) (T w : W64) (hp : (s.crew k).phase = .select) (hd : (s.crew k).depth = 0)
    (ha : (s.crew k).atoms = []) (hT : ∃ x ∈ (s.crew k).pend, (s.crew k).live.getLsbD x.1 = true ∧ x.2 = T)
    (hle : ∀ x ∈ (s.crew k).pend, (s.crew k).live.getLsbD x.1 = true → T.toNat ≤ x.2.toNat) (h : EntersAt s k T w) :
    ∃ t, exec (.blockEntry k) s = .next t ∧ OnlyCrew s t k ∧ t.crew k =
      { (s.crew k).clearPend ((s.crew k).waitAt T) with active := (s.crew k).waitAt T, pc := T, widx := 0 : Crew }.entered w s.clk := by
  obtain ⟨t, hexec, honly, hcrew⟩ := blockEntry_enters s k T w hp hd ha hT hle h
  exact ⟨t, hexec, honly, (s.crew k).choose_eq T h.frames hT hle ▸ hcrew⟩

theorem fillRow_at (bs : List Byte) {l : Nat} (hl : l < 32) :
    (fillRow bs).at_ l = BitVec.ofNat 32 (ofBytes ((bs.drop (4 * l)).take 4)) := mkRow_at _ hl

theorem Crew.relDone_waiting {c : Crew} (h : c.held = []) (clk : Nat) (ts : Clocks) :
    c.relDone clk ts = { c.woken clk with released := true, relTs := ts } := by
  unfold Crew.relDone
  rw [h]
  rfl

theorem Crew.relDone_held {c : Crew} {h : Held} {hs : List Held} (hh : c.held = h :: hs) (clk : Nat) (ts : Clocks) :
    c.relDone clk ts = { c with held := { h with rel := none, relTs := ts } :: hs } := by
  unfold Crew.relDone
  rw [hh]

/-- Settles O52: each event of the issue hardware, from the lemma above that says what it does to its crew. -/
theorem crewsEnterIssueAndWake : Obligations.CrewsEnterIssueAndWake := by
  unfold Obligations.CrewsEnterIssueAndWake
  refine ⟨?enter, ?move, ?select, throttleRecompute_allows, scoreHalving_halves, throttleAdmitTimeout_admits, ?leave, loadReturn_wakes,
    ?park, ?release, ?ready, ?atomic⟩
  case enter =>
    intro s k T w c hp hd ha hT hle h a
    obtain ⟨t, hexec, honly, hcrew⟩ := blockEntry_lowest s k T w hp hd ha hT hle h
    refine ⟨t, hexec, honly, ?_, fun l _ => ?_, fun n => ?_⟩
    · rw [hcrew]
      simp only [Crew.entered, List.isEmpty_iff]
      rfl
    · rw [hcrew]
      exact Crew.clearPend_find c (c.waitAt T) l
    · rw [hcrew]
      exact Crew.mem_movesFor c c.baseNext.toNat (hdrLive w) n
  case move =>
    intro s k n ms c place filled hm
    refine ⟨fun hclean bs hfill => ?_, fun x ls hv hd hls hrow bs hfill => ?_⟩
    · refine ⟨_, windowMove_clean s k n ms hm hclean hfill, s.onCrew_only k _, fillRow bs, ?_, fun l hl => fillRow_at bs hl⟩
      rw [State.onCrew_crew_self, Crew.filled_eq]
    · have hout := s.spillOut_row k ((s.crew k).placeOf x.log) hrow hls
      refine ⟨_, windowMove_spills s _ k n ms hm hv hd hout hfill, (s.putCrew_only k _).onCrew _, fillRow bs, ?_,
        fun l hl => fillRow_at bs hl⟩
      rw [State.onCrew_crew_self, Crew.filled_eq, State.putCrew_crew_self]
      rfl
  case select =>
    intro s core part
    obtain ⟨u, hmem, hrunq, hexec⟩ := issueSelect_eq s core part
    refine ⟨_, s.againKeys core part, s.chosenKeys core part, hexec, fun a => congrArg (memGet · a) hmem, ?_, ?_, ?_, ?_, ?_, ?_, ?_⟩
    · refine (u.inRequestOrder_perm u.runq (s.againKeys core part ++ s.chosenKeys core part)).trans ?_
      rw [hrunq, List.append_assoc]
    · exact (List.length_take_le _ _).trans (s.issueSlots_le core part)
    · intro hp hc hq
      exact (List.length_take_le _ _).trans (s.issueSlots_service hp hc hq).le
    · intro k hk
      obtain hk | hk := List.mem_append.mp hk
      · obtain ⟨hcore, hpart, c, hin, -, hrun, hfro⟩ := State.mem_againKeys hk
        exact ⟨hcore, hpart, c, hin, hrun, hfro⟩
      · obtain ⟨hcore, hpart, c, hin, -, -, hrun, hfro⟩ := State.mem_chosenKeys hk
        exact ⟨hcore, hpart, c, hin, hrun, hfro⟩
    · intro k hk
      obtain ⟨-, -, c, hin, hagain, hheld, -⟩ := State.mem_chosenKeys hk
      exact ⟨c, hin, hagain, hheld⟩
    · intro k hk
      obtain ⟨-, -, c, hin, hagain, -⟩ := State.mem_againKeys hk
      exact ⟨c, hin, hagain⟩
    · rintro ⟨kc, hin, hcore, hpart, hrun, hfro, hthrot, hagain, hheld, hroom⟩ hfull
      exact (IssueReady.mk hin hcore hpart hrun hfro hthrot hagain hheld hroom).chosen hfull
  case leave =>
    intro s k h hs hh hfix hrel hat hk harm hoffs hb
    refine ⟨fun cs he hctl hred => ?_, fun core num ls cs p he harr hp ho => ?_⟩
    · have hred' : s.behindReduction k h.eff.cells = false := by rw [he]; exact hred
      exact effectLeavesCore_store s k hh (s.mayLeave_of k hh hfix hrel hat hred') hk harm hoffs hb he hctl
    · have hred : s.behindReduction k h.eff.cells = false := by rw [he]; simp [State.behindReduction, Effect.cells]
      exact effectLeavesCore_plate s k hh (s.mayLeave_of k hh hfix hrel hat hred) he harr hp ho
  case park =>
    intro s k d sd m hp hm back
    have hback : ∀ n x, (n ≠ 1 ∨ sd ≠ none) → x = BitVec.ofNat 64 n → back (s.parked k sd n) x := by
      rintro n x hn rfl
      obtain ⟨honly, hcrew, hothers, hstatus⟩ := s.parked_unparked k sd n hn
      exact ⟨honly, hcrew, hothers, hstatus⟩
    refine ⟨fun hh => ⟨_, ?_, hback 0 0 (.inl (by decide)) rfl⟩, fun hh => ⟨s, ?_, rfl⟩, fun at_ hd ht hh => ?_⟩
    · rw [execParkWake_eq s k hp hm, if_pos hh]
    · rw [execParkWake_eq s k hp hm, hh]
      rfl
    · subst hd
      have hexec := execParkTimeout_eq s k hp hm ht hh
      refine ⟨fun hsd => ⟨_, hexec, hback 1 1 (.inr hsd) rfl⟩, fun hsd hk => ?_⟩
      subst hsd
      exact ⟨_, hexec, s.parked_traps k m hm hk⟩
  case release =>
    intro s k sc c ts hsc hr hf
    refine ⟨fun hclean => ?_, fun hw hb hx => releaseComplete_cleans s k sc hsc hr hf hw hb hx⟩
    obtain ⟨t, hexec, honly, hcrew⟩ := releaseComplete_completes s k sc hsc hr hf hclean
    refine ⟨t, hexec, honly, ?_⟩
    split
    · next hh => rw [hcrew, Crew.relDone_waiting hh]
    · next h hs hh => rw [hcrew, Crew.relDone_held hh]
  case ready =>
    intro s k sc c
    exact ⟨fun _ hh => s.relReady_waiting c sc hh, fun h hs hh _ => s.relReady_held c sc hh⟩
  case atomic =>
    intro s k o os c ha hg hnd halloc
    have hin : o ∈ c.atoms := ha ▸ List.mem_cons_self
    refine ⟨fun hbad => ?_, fun l va hbad hl hk hpast => ?_⟩
    · obtain ⟨t, seen, hexec, honly, hcrew⟩ := atomicReturn_delivers s k ha hg hbad
      have hrest := hcrew.trans (congrArg (fun d : Crew => { d with seen := seen }) (Crew.deliver_rest hin))
      refine ⟨t, hexec, honly, ?_, ?_, ?_, ?_, fun vd wide hd hvd l v hl hv => ?_, fun sd ty v hd hres => ?_⟩
      · rw [hrest]
        change (c.atoms.filter fun x => x.token != o.token) = _
        simp [c, ha]
      · rw [hrest]
        rfl
      · rw [hrest]
        rfl
      · rw [hrest]
        rfl
      · rw [hcrew, Crew.deliver_lanes hin hd]
        exact Crew.vn_putVals (c.returned o) wide hvd hl (by show 2 ≤ c.alloc; omega) hnd hv
      · have hvals : o.vals = [(32, v)] := by simp [AtomOp.vals, hres]
        rw [hcrew, Crew.deliver_scalar hin hd, hvals]
        exact Crew.sv_setS_self (c.returned o) sd _
    · obtain ⟨t, hexec, honly, hphase, htrap⟩ := atomicReturn_traps s k ha hg hbad hk hpast
      exact ⟨t, o.poisonRec l va, hexec, honly, hphase, htrap, rfl, rfl, rfl, rfl, rfl, rfl,
        fun j hj => by rw [AtomOp.poisonRec, getLsbD_maskL _ hj]; simp⟩

end Sys2Proof.Machine
end

section
/-! PROOFS. Scalar instructions (O11) and the crew-wide instructions (O51): each goes through one shared operation of the model. -/

namespace Sys2Proof.Machine

/-! ## A write of one scalar register (R20, R126) -/

theorem Crew.setS_rest (c : Crew) (sd : SReg) (x : W64) : c.setS sd x = { c with s := (c.setS sd x).s } := by
  unfold Crew.setS
  split <;> rfl

/-- A completion whose effect on its crew is the write of one scalar register. -/
theorem done_setS_only (s : State) (sd : SReg) (x : Crew → W64) :
    ∃ t, s.done (fun c => c.setS sd (x c)) = .next t ∧ OnlyMe s t ∧ OnlyScalar sd s.me t.me := by
  obtain ⟨t, hexec, honly, hme, -⟩ := done_next s fun c => c.setS sd (x c)
  refine ⟨t, hexec, honly, ?_⟩
  rw [hme]
  refine ⟨fun r hr => Crew.sv_setS_ne s.me (x s.me) hr, rfl, ?_⟩
  rw [Crew.setS_rest]
  rfl

/-- Settles O11: every instruction of the list is a completion that writes its one register. -/
theorem scalarInstructionsWriteOneRegister : Obligations.ScalarInstructionsWriteOneRegister := by
  intro i s sd h
  unfold scalarDest at h
  split at h
  case h_36 => contradiction
  all_goals
    cases h
    exact done_setS_only s sd _

/-! ## Convergence (R27, R199) -/

theorem conv_traps (s : State) (k : State → Out) (h : s.me.active ≠ s.me.live) (hk : s.me.kind = .normal) :
    ∃ t, s.conv k = .next t ∧ TakesTrap s t 0x0A 0 0 0 := by
  obtain ⟨hc, -⟩ | ⟨-, hexec⟩ := conv_cases s k
  · exact absurd (by simpa [Crew.convergent] using hc) h
  · exact ⟨_, hexec, trap_takes s hk 0x0A (by decide) (by decide) 0 0 0⟩

/-- An instruction that acts on the crew as a whole checks first that the crew is convergent. -/
theorem exec_crewWide (i : Instr) (s : State) (h : crewWide i = true) : ∃ k, exec i s = s.conv k := by
  unfold crewWide at h
  split at h
  case h_12 => contradiction
  all_goals
    simp only [exec, execTres, execTrel, execMma, execMmap, execMbatch, execAcld, execAcst, execAczero, execCpy, execGth, execColl,
      State.mmaInstr, State.acChecked, State.arrayTurn]
    exact ⟨_, rfl⟩

/-- Settles O51: the check of convergence comes before every other check of these instructions. -/
theorem crewWideInstructionsNeedConvergence : Obligations.CrewWideInstructionsNeedConvergence := by
  intro i s h hne hk
  obtain ⟨k, hexec⟩ := exec_crewWide i s h
  rw [hexec]
  exact conv_traps s k hne hk

end Sys2Proof.Machine
end

section
/-! PROOFS. Branches and calls (O24, O26). -/

namespace Sys2Proof.Machine

/-! ## Conditions and targets (R81, R139) -/

theorem condHolds_eq_bvCond (cd : Cond) (x y : W64) : condHolds cd x y = bvCond cd x y := by
  cases cd <;> simp [condHolds, bvCond, BitVec.slt, BitVec.sle, BitVec.ult, BitVec.ule, bne]

/-- A branch is a transfer of the active lanes where it is taken, and otherwise nothing. -/
theorem exec_branch {i : Instr} {s : State} {p : Bool} {T : W64} (h : branchOf s.me i = some (p, T)) :
    exec i s = if p then s.branchTo T else s.done id := by
  unfold branchOf at h
  split at h
  case h_6 => contradiction
  all_goals
    cases h
    simp only [exec, execBr, execBrc, execBrz, execBrnz, execBrx, State.branchIf, disp_eq, condHolds_eq_bvCond,
      BitVec.mul_comm _ (8 : W64), if_true]

theorem exec_call {i : Instr} {s : State} {n : BitVec 11} {T : W64} (h : callOf s.me i = some (n, T)) :
    exec i s = s.callTo n T := by
  unfold callOf at h
  split at h
  case h_3 => contradiction
  all_goals
    cases h
    simp only [exec, execCall, execCallx, disp_eq]

theorem branchTo_good {s : State} {T : W64} (h : GoodTarget s T) :
    s.branchTo T = .next (s.onMe fun c => { c.setPend c.active T with phase := .select }) := by
  obtain ⟨-, hexec⟩ | ⟨c, d, hbad, -⟩ := branchTo_cases s T
  · exact hexec
  · exact absurd hbad (by simp [badTarget_good h])

theorem withTarget_good {s : State} {T : W64} (h : GoodTarget s T) (k : State → Out) : s.withTarget T k = k s := by
  simp [State.withTarget, badTarget_good h]

/-! ## Branches (R24, R139, R141, R146, R147) -/

theorem vbr_sets (s : State) (h : Hd) (d : BitVec 30)
    (hT : s.me.gov h ≠ 0 → GoodTarget s (s.me.pc + BitVec.ofNat 64 (8 * s.me.widx) + 8 * d.signExtend 64)) :
    ∃ t, exec (.vbr h d) s = .next t ∧ OnlyMe s t ∧
      PendOf (s.me.gov h) (s.me.pc + BitVec.ofNat 64 (8 * s.me.widx) + 8 * d.signExtend 64) s.me t.me ∧
      t.me = { s.me with pend := t.me.pend, widx := s.me.widx + 1 } := by
  rw [← disp_eq] at hT ⊢
  by_cases hg : s.me.gov h = 0
  · obtain ⟨t, hexec, honly, hme, -⟩ := done_next s id
    refine ⟨t, ?_, honly, fun l _ => ?_, by rw [hme]; rfl⟩
    · simp [exec, execVbr, hg, hexec]
    · simp [hme, hg, Crew.next]
  · obtain ⟨t, hexec, honly, hme, -⟩ := done_next s fun c => c.setPend (s.me.gov h) (c.disp d)
    refine ⟨t, ?_, honly, fun l hl => ?_, by rw [hme]; rfl⟩
    · simp only [exec, execVbr, if_neg hg, withTarget_good (hT hg), hexec]
    · rw [hme]
      exact setPend_pend s.me _ _ l hl

/-- The pending blocks that a `vbrx` sets, one for each governed lane. -/
theorem find_foldl_put_each (ls : List Nat) (t : Nat → W64) (p : Map W64) (l : Nat) :
    Map.find? (ls.foldl (fun p l => Map.put p l (t l)) p) l = if l ∈ ls then some (t l) else Map.find? p l := by
  induction ls generalizing p with
  | nil => rfl
  | cons x xs ih =>
    rw [List.foldl_cons, ih]
    by_cases hx : l = x
    · subst hx
      simp [MapLaws.find_put_self]
    · simp [MapLaws.find_put_ne _ _ hx, hx]

theorem vbrx_sets (s : State) (h : Hd) (va : VReg)
    (hT : ∀ l, l < 32 → (s.me.gov h).getLsbD l = true → GoodTarget s (s.me.vpl va.toNat l)) :
    ∃ t, exec (.vbrx h va) s = .next t ∧ OnlyMe s t ∧ t.me = { s.me with pend := t.me.pend, widx := s.me.widx + 1 } ∧
      ∀ l, l < 32 → Map.find? t.me.pend l =
        if (s.me.gov h).getLsbD l then some (s.me.vpl va.toNat l) else Map.find? s.me.pend l := by
  have hbad : ((lanesOf (s.me.gov h)).filter fun l => (s.badTarget (s.me.vpl va.toNat l)).isSome) = [] := by
    refine List.filter_eq_nil_iff.mpr fun l hl => ?_
    obtain ⟨hl32, hgov⟩ : l < 32 ∧ (s.me.gov h).getLsbD l = true := by simpa [lanesOf, lanes] using hl
    simp [badTarget_good (hT l hl32 hgov)]
  obtain ⟨t, hexec, honly, hme, -⟩ := done_next s fun c =>
    { c with pend := (lanesOf (s.me.gov h)).foldl (fun p l => Map.put p l (s.me.vpl va.toNat l)) c.pend }
  refine ⟨t, ?_, honly, by rw [hme]; rfl, fun l hl => ?_⟩
  · simp only [exec, execVbrx, hbad, List.filter_nil, hexec]
  · rw [hme]
    exact (find_foldl_put_each _ _ _ l).trans (by simp only [mem_lanesOf _ l hl])

/-- Settles O24: a taken branch transfers the active lanes, and an untaken one is a completion without effect. -/
theorem branchesSetPendingBlocks : Obligations.BranchesSetPendingBlocks := by
  refine ⟨fun i s p T h => ⟨fun hp hT => ?_, fun hp => ?_⟩, vbr_sets, vbrx_sets⟩
  · rw [exec_branch h, hp, if_pos rfl, branchTo_good hT]
    refine ⟨_, rfl, putMe_only s _, ?_, ?_⟩
    · rw [State.onMe_me]
      exact setPend_pend s.me _ _
    · rw [State.onMe_me]
      rfl
  · obtain ⟨t, hexec, honly, hme, -⟩ := done_next s id
    exact ⟨t, by rw [exec_branch h, hp]; exact hexec, honly, hme⟩

/-! ## Calls (R29, R142, R289) -/

/-- Settles O26: a call either traps at the depth limit or is the push of a frame followed by a transfer of the active lanes. -/
theorem callsPushAFrame : Obligations.CallsPushAFrame := by
  intro i s n T h hT
  rw [exec_call h]
  obtain ⟨c, d, hbad, -⟩ | ⟨-, hdeep, hexec⟩ | ⟨-, hroom, hexec⟩ := callTo_cases s n T
  · exact absurd hbad (by simp [badTarget_good hT])
  · refine ⟨fun hroom => absurd hroom (by omega), fun _ hk => ⟨_, hexec, ?_⟩⟩
    exact trap_takes s hk 0x0C (by decide) (by decide) 3 0 0
  · refine ⟨fun _ => ⟨_, hexec, putMe_only s _, ?_, ?_⟩, fun hdeep => absurd hdeep (by omega)⟩
    · rw [State.putMe_me]
      exact setPend_pend s.me _ _
    · rw [State.putMe_me]
      rfl

end Sys2Proof.Machine
end

section
/-! PROOFS. The pop of call frames (R29) and `ret` (O27). -/

namespace Sys2Proof.Machine

/-! ## Pops of frames (R29, R143) -/

/-- The lanes that a popped frame sends to its return header. -/
def Frame.back (f : Frame) (live : W32) : W32 := f.fmask &&& f.rmask &&& live

/-- A crew whose frame was popped and whose next record the core holds, or needs none. -/
def Crew.popped (c : Crew) (f : Frame) (fs : List Frame) : Crew :=
  { c.setPend (f.back c.live) f.ret with baseNext := f.basep.setWidth 17, depth := c.depth - 1, frames := fs }

theorem popFrames_nil (s : State) (k : Nat) {c : Crew} (h : c.frames = []) (n : Nat) : s.popFrames k c n = .ok c := by
  cases n with
  | zero => rfl
  | succ n => simp only [State.popFrames, h]

/-- A frame with a lane inside stays. -/
theorem popFrames_inside (s : State) (k : Nat) {c : Crew} {f : Frame} {fs : List Frame} (h : c.frames = f :: fs)
    (hin : f.fmask &&& c.live &&& ~~~f.rmask ≠ 0) (n : Nat) : s.popFrames k c n = .ok c := by
  cases n with
  | zero => rfl
  | succ n => simp only [State.popFrames, h, if_pos (Or.inl hin)]

/-- The return header of lanes that come back passes its check. -/
def State.notHeader (s : State) (k : Nat) (f : Frame) : Bool :=
  match s.fetch k f.ret with
  | .ok w => bf w 56 8 != 0xFF || f.ret.toNat % 8 != 0
  | .error _ => false

theorem GoodTarget.notHeader {s : State} {f : Frame} (h : GoodTarget s f.ret) : s.notHeader s.cur f = false := by
  obtain ⟨w, hfetch, halign, hhdr⟩ := h
  simp [State.notHeader, hfetch, bf, halign, hhdr]

/-- What the pop of a frame without lanes inside does. -/
theorem popFrames_pop (s : State) (k : Nat) {c : Crew} {f : Frame} {fs : List Frame} (h : c.frames = f :: fs)
    (hout : f.fmask &&& c.live &&& ~~~f.rmask = 0) (hlive : c.live ≠ 0)
    (hret : f.back c.live ≠ 0 → s.notHeader k f = false) (n : Nat) :
    s.popFrames k c (n + 1) = match fs with
      | _ :: _ => s.popFrames k (c.popped f fs) n
      | [] => .ok (if c.depth ≤ 1 then c.popped f [] else { c.popped f [] with pc := f.ret, widx := 0 }) := by
  have hstays : ¬(f.fmask &&& c.live &&& ~~~f.rmask ≠ 0 ∨ c.live = 0) := not_or.mpr ⟨not_not.mpr hout, hlive⟩
  have hgood : ¬(f.back c.live ≠ 0 ∧ s.notHeader k f = true) := fun ⟨hb, hn⟩ => by simp [hret hb] at hn
  simp only [State.popFrames, h]
  refine (if_neg hstays).trans ((if_neg hgood).trans ?_)
  cases fs <;> rfl

theorem popFrames_one (s : State) (k : Nat) {c : Crew} {f : Frame} {fs : List Frame} (h : c.frames = f :: fs)
    (hout : f.fmask &&& c.live &&& ~~~f.rmask = 0) (hlive : c.live ≠ 0)
    (hret : f.back c.live ≠ 0 → s.notHeader k f = false)
    (hnext : (fs = [] ∧ c.depth ≤ 1) ∨ ∃ g gs, fs = g :: gs ∧ g.fmask &&& c.live &&& ~~~g.rmask ≠ 0) (n : Nat) :
    s.popFrames k c (n + 1) = .ok (c.popped f fs) := by
  rw [popFrames_pop s k h hout hlive hret]
  obtain ⟨rfl, hd⟩ | ⟨g, gs, rfl, hin⟩ := hnext
  · simp only [if_pos hd]
  · exact popFrames_inside s k (c := c.popped f (g :: gs)) (f := g) (fs := gs) rfl hin n

/-- A record that the core does not hold is left to the next block entry (log entry 41). -/
theorem popFrames_unheld (s : State) (k : Nat) {c : Crew} {f : Frame} (h : c.frames = [f])
    (hout : f.fmask &&& c.live &&& ~~~f.rmask = 0) (hlive : c.live ≠ 0)
    (hret : f.back c.live ≠ 0 → s.notHeader k f = false) (hd : 1 < c.depth) (n : Nat) :
    s.popFrames k c (n + 1) = .ok { c.popped f [] with pc := f.ret, widx := 0 } := by
  rw [popFrames_pop s k h hout hlive hret]
  simp only [if_neg (Nat.not_le.mpr hd)]

/-! ## The end of a run (R29, R30) -/

/-- A crew without live lanes is over. -/
def Crew.over (c : Crew) : Crew := { c with phase := .ended, frames := [], depth := 0, pend := [] }

theorem endRun_over (s : State) (k : Nat) {c : Crew} (h : c.live = 0) : s.endRun k c = s.putCrew k c.over := by
  simp only [State.endRun, if_pos h, Crew.over]

theorem endRun_ok (s : State) (k : Nat) {c d : Crew} (h : c.live ≠ 0) (hd : s.popFrames k c 4097 = .ok d) :
    s.endRun k c = s.putCrew k { d with phase := .select } := by
  simp only [State.endRun, if_neg h, hd]

/-- The crew that executes chooses its next block once its frames are popped. -/
theorem endRun_selects (s : State) {c d : Crew} (h : c.live ≠ 0) (hd : s.popFrames s.cur c 4097 = .ok d) :
    OnlyMe s (s.endRun s.cur c) ∧ (s.endRun s.cur c).me = { d with phase := .select } := by
  rw [endRun_ok s s.cur h hd]
  exact ⟨putMe_only s _, s.putMe_me _⟩

theorem endRun_ends (s : State) {c : Crew} (h : c.live = 0) :
    OnlyMe s (s.endRun s.cur c) ∧ (s.endRun s.cur c).me = c.over := by
  rw [endRun_over s s.cur h]
  exact ⟨putMe_only s _, s.putMe_me _⟩

theorem setPend_find (c : Crew) (m : W32) (t : W64) {l : Nat} (hl : l < 32) :
    Map.find? (c.setPend m t).pend l = if m.getLsbD l then some t else Map.find? c.pend l := setPend_pend c m t l hl

/-! ## `ret` (R29, R143) -/

/-- A crew whose active lanes have returned, before its frame is popped. -/
def Crew.returnedIn (c : Crew) (f : Frame) (fs : List Frame) : Crew :=
  { c.clearPend c.active with frames := { f with rmask := f.rmask ||| c.active } :: fs }

theorem exec_ret (s : State) (st : BitVec 4) {f : Frame} {fs : List Frame} (h : s.me.frames = f :: fs) :
    exec (.ret st) s = .next (s.endRun s.cur (s.me.returnedIn f fs)) := by
  simp only [exec, execRet, h]
  rfl

/-- A lane inside a frame is live. -/
theorem live_of_inside {m live r : W32} (h : m &&& live &&& ~~~r ≠ 0) : live ≠ 0 := by
  rintro rfl
  exact h (by simp)

/-- Settles O27: the frame's returned lanes grow by the active ones, and then `popFrames` decides. -/
theorem retPopsAFrameWhenItsLanesHaveReturned : Obligations.RetPopsAFrameWhenItsLanesHaveReturned := by
  refine ⟨?outside, ?stays, ?pops, ?unheld⟩
  case outside =>
    intro s st hf hk
    exact ⟨_, by simp only [exec, execRet, hf], trap_takes s hk 0x03 (by decide) (by decide) 4 0 0⟩
  case stays =>
    intro s st f fs hf hin
    have hstay := popFrames_inside s s.cur (c := s.me.returnedIn f fs) rfl hin 4097
    obtain ⟨honly, hme⟩ := endRun_selects s (c := s.me.returnedIn f fs) (live_of_inside hin) hstay
    exact ⟨_, exec_ret s st hf, honly, by rw [hme]; rfl, fun l _ => by rw [hme]; exact s.me.clearPend_find s.me.active l⟩
  case pops =>
    intro s st f fs hf hlive hout hT hnext
    have hpop := popFrames_one s s.cur (c := s.me.returnedIn f fs) rfl hout hlive
      (fun _ => GoodTarget.notHeader (f := { f with rmask := f.rmask ||| s.me.active }) hT) hnext 4096
    obtain ⟨honly, hme⟩ := endRun_selects s (c := s.me.returnedIn f fs) hlive hpop
    refine ⟨_, exec_ret s st hf, honly, by rw [hme]; dsimp only [Crew.popped, Crew.returnedIn, Crew.setPend, Crew.clearPend, Frame.back], fun l hl => ?_⟩
    rw [hme, ← s.me.clearPend_find s.me.active l]
    exact setPend_find (s.me.returnedIn f fs) _ f.ret hl
  case unheld =>
    intro s st f hf hd hlive hout hT
    have hpop := popFrames_unheld s s.cur (c := s.me.returnedIn f []) rfl hout hlive
      (fun _ => GoodTarget.notHeader (f := { f with rmask := f.rmask ||| s.me.active }) hT) hd 4096
    obtain ⟨honly, hme⟩ := endRun_selects s (c := s.me.returnedIn f []) hlive hpop
    exact ⟨_, exec_ret s st hf, honly, by rw [hme]; dsimp only [Crew.popped, Crew.returnedIn, Crew.setPend, Crew.clearPend, Frame.back]⟩

end Sys2Proof.Machine
end

section
/-! PROOFS. Ends of lanes (O28), and traps and returns (O49): the states that their statements do not allow for. -/

namespace Sys2Proof.Machine

/-! ## A handler crew with no live lane (O28) -/

/-- A handler crew with its turn whose live mask is empty while a lane is active. -/
def activeButNotLive : State :=
  { crews := [(0, { kind := .handler, released := true, live := 0, active := 1, phase := .running })] }

/-- An `exit` that no lane takes lets that crew go on to its next word. -/
theorem activeButNotLive_exit :
    ∃ t, exec (.exit ⟨0, 0, true⟩) activeButNotLive = .next t ∧ t.me.live = 0 ∧ t.me.phase = .running :=
  ⟨_, rfl, by decide +kernel⟩

/-- Refutes O28, in the clause of a handler crew's `exit`: that the crew has ended whenever no lane is live is stated of every state,
and a crew that still has an active lane goes on, live or not. -/
theorem not_exitRemovesLanesAndNopDoesNothing : ¬ Obligations.ExitRemovesLanesAndNopDoesNothing := by
  unfold Obligations.ExitRemovesLanesAndNopDoesNothing
  rintro ⟨-, -, -, hexit, -⟩
  have notags : activeButNotLive.me.tags = [] := by decide +kernel
  obtain ⟨t, hstated, -, -, -, -, hends, -⟩ := hexit activeButNotLive ⟨0, 0, true⟩ (by decide +kernel) (by decide +kernel)
    (by decide +kernel) fun l g hg => by simp [notags] at hg
  obtain ⟨u, hmodel, hlive, hruns⟩ := activeButNotLive_exit
  have hsame : t = u := Host.Outcome.next.inj (hstated.symm.trans hmodel)
  have hended : u.me.phase = .ended := hsame ▸ hends (hsame ▸ hlive)
  rw [hruns] at hended
  cases hended

/-! ## A handler lane whose origin crew is gone (O49) -/

/-- A lane that was sent out by a crew the core no longer has. -/
def orphanTag : LaneTag :=
  { crew := 7, lane := 7, since := 0, word := 0, pc := 0, widx := 1, flags := 0x20, code := 0, a := 1, b := 0, c := 0, old := 0
    dest := some (2, false), predDest := none, lctr := 0 }

/-- A handler crew of one lane, lane 0, for that lane. Its vb holds the flag 1. -/
def servesOrphan : State :=
  { crews := [(0, {
      kind := .handler, released := true, live := 1, active := 1, phase := .running, tags := [orphanTag]
      v := [(4, ⟨4, false, mkRow fun _ => 1⟩)] })] }

theorem servesOrphan_tags {l : Nat} {g : LaneTag} (h : servesOrphan.me.tags[l]? = some g) : l = 0 ∧ g = orphanTag := by
  have hone : servesOrphan.me.tags = [orphanTag] := by decide +kernel
  rw [hone] at h
  match l with
  | 0 => exact ⟨rfl, (Option.some.inj h).symm⟩
  | l + 1 => simp at h

/-- `lhret` has no crew to give the lane's flags to. -/
theorem servesOrphan_lhret : ∃ t, exec (.lhret 0 false 4 4) servesOrphan = .next t ∧ (t.crew 7).laneFl 7 = 0 :=
  ⟨_, rfl, by decide +kernel⟩

/-- Refutes O49, in the clause of a handler crew's `lhret`: it does not ask that the origin crew of a lane exists. The crew that is read
for an origin which is gone meets its hypotheses, and takes no result and no flags. -/
theorem not_trapsCheckpointsAndServicesComplete : ¬ Obligations.TrapsCheckpointsAndServicesComplete := by
  unfold Obligations.TrapsCheckpointsAndServicesComplete
  rintro ⟨⟨-, -, -, hlhret⟩, -⟩
  have hlane : ∀ l, l < 32 → servesOrphan.me.active.getLsbD l = true → l = 0 := by decide +kernel
  obtain ⟨t, hstated, -, -, -, hgives⟩ := hlhret servesOrphan 0 false 4 4 (by decide +kernel) (by decide +kernel) (by decide +kernel)
    (fun l hl hactive => ⟨orphanTag, 2, by rw [hlane l hl hactive]; decide +kernel, by decide +kernel⟩)
    (fun l l' g g' _ _ hg hg' hne => absurd ((servesOrphan_tags hg).1.trans (servesOrphan_tags hg').1.symm) hne)
  obtain ⟨u, hmodel, hflags⟩ := servesOrphan_lhret
  have hsame : t = u := Host.Outcome.next.inj (hstated.symm.trans hmodel)
  obtain ⟨-, hgiven, -⟩ := hgives 0 orphanTag 2 (by omega) (by decide +kernel) (by decide +kernel) rfl
  rw [hsame] at hgiven
  have hone : (servesOrphan.crew 7).laneFl 7 ||| (servesOrphan.me.vl 4 0).setWidth 5 = 1 := by decide +kernel
  exact absurd (hflags.symm.trans (hgiven.trans hone)) (by decide)

end Sys2Proof.Machine
end

section
/-! PROOFS. The turn of an instruction on a shared object (R287): what stands before its effect. -/

namespace Sys2Proof.Machine

/-- The state in which an instruction that has its turn takes effect: the turn is over and what came before is committed. -/
def State.inTurn (s : State) : State := (s.onMe fun c => { c with released := false }).commitMe

theorem shared_inTurn {s : State} (h : s.me.released = true) (sc : Scope) (k : State → Out) : s.shared sc k = k s.inTurn := by
  obtain ⟨-, hexec⟩ | ⟨hno, -⟩ := shared_cases s sc k
  · exact hexec
  · simp [h] at hno

@[simp] theorem State.inTurn_cur (s : State) : s.inTurn.cur = s.cur := rfl
@[simp] theorem State.inTurn_mem (s : State) : s.inTurn.mem = s.mem := rfl
@[simp] theorem State.inTurn_clk (s : State) : s.inTurn.clk = s.clk := rfl
@[simp] theorem State.inTurn_late (s : State) : s.inTurn.late = s.late := rfl
@[simp] theorem State.inTurn_agenda (s : State) : s.inTurn.agenda = s.agenda := rfl
@[simp] theorem State.inTurn_parties (s : State) : s.inTurn.parties = s.parties := rfl
@[simp] theorem State.inTurn_party (s : State) (p : Nat) : s.inTurn.party p = s.party p := rfl
@[simp] theorem State.inTurn_core (s : State) (n : Nat) : s.inTurn.core n = s.core n := rfl
@[simp] theorem State.inTurn_die (s : State) (n : Nat) : s.inTurn.die n = s.die n := rfl
@[simp] theorem State.inTurn_myCore (s : State) : s.inTurn.myCore = s.myCore := rfl

@[simp] theorem State.inTurn_me (s : State) : s.inTurn.me = { s.me with released := false, committed := s.clk } := by
  unfold State.inTurn
  rw [State.me_eq]
  exact (State.commit_crew _ _).trans (by rw [← State.me_eq, State.onMe_me]; rfl)

theorem State.inTurn_others (s : State) {k : Nat} (h : k ≠ s.cur) : Map.find? s.inTurn.crews k = Map.find? s.crews k :=
  (MapLaws.find_put_ne _ _ h).trans (MapLaws.find_put_ne _ _ h)

/-- A turn changes the crew and its earlier states alone. -/
theorem State.inTurn_rest (s : State) : { s.inTurn with crews := s.crews, past := s.past } = s := rfl

theorem State.crew_of_find {s t : State} {k : Nat} (h : Map.find? t.crews k = Map.find? s.crews k) : t.crew k = s.crew k := by
  simp only [State.crew, Map.get, h]

theorem State.hasCrew_of_find {s t : State} {k : Nat} (h : Map.find? t.crews k = Map.find? s.crews k) : t.hasCrew k = s.hasCrew k := by
  simp only [State.hasCrew, h]

/-! ## What the object's own crew may change (R287) -/

theorem OnlyShared.refl (s : State) : OnlyShared s s := ⟨fun _ => rfl, fun _ _ => rfl, fun _ _ => rfl, rfl⟩

theorem OnlyShared.cur {s t : State} (h : OnlyShared s t) : t.cur = s.cur := (congrArg State.cur h.rest :)

theorem OnlyShared.late {s t : State} (h : OnlyShared s t) : t.late = s.late := (congrArg State.late h.rest :)

theorem OnlyShared.onMe {s t : State} (h : OnlyShared s t) (f : Crew → Crew) : OnlyShared s (t.onMe f) :=
  ⟨h.mem, fun k hk => (MapLaws.find_put_ne _ _ (h.cur ▸ hk)).trans (h.others k hk), h.parties, h.rest⟩

theorem OnlyShared.onParty {s t : State} (h : OnlyShared s t) (f : Party → Party) : OnlyShared s (t.onParty s.me.party f) :=
  ⟨h.mem, h.others, fun p hp => (MapLaws.find_put_ne _ _ hp).trans (h.parties p hp), h.rest⟩

theorem OnlyShared.onCore {s t : State} (h : OnlyShared s t) (n : Nat) (f : Core → Core) : OnlyShared s (t.onCore n f) :=
  ⟨h.mem, h.others, h.parties, h.rest⟩

theorem OnlyShared.commitMe {s t : State} (h : OnlyShared s t) : OnlyShared s t.commitMe :=
  ⟨h.mem, fun k hk => (MapLaws.find_put_ne _ _ (h.cur ▸ hk)).trans (h.others k hk), h.parties, h.rest⟩

theorem OnlyShared.inTurn (s : State) : OnlyShared s s.inTurn := ((OnlyShared.refl s).onMe _).commitMe

/-- An event of the end of the clk aside, a crew's completion after it is one without it. -/
theorem late_aside {s t : State} (h : t.late = s.late) (i : Instr) (f : Crew → Crew) :
    { (t.pushLate i).onMe f with late := s.late } = t.onMe f := by
  rw [← h]
  unfold State.pushLate
  split <;> rfl

@[simp] theorem State.pushLate_me (s : State) (i : Instr) : (s.pushLate i).me = s.me := by
  unfold State.pushLate
  split <;> rfl

@[simp] theorem State.pushLate_party (s : State) (i : Instr) (p : Nat) : (s.pushLate i).party p = s.party p := by
  unfold State.pushLate
  split <;> rfl

@[simp] theorem State.pushLate_core (s : State) (i : Instr) (n : Nat) : (s.pushLate i).core n = s.core n := by
  unfold State.pushLate
  split <;> rfl

theorem State.pushLate_late (s : State) (i : Instr) :
    (s.pushLate i).late = if s.late.contains i then s.late else s.late ++ [i] := by
  unfold State.pushLate
  split <;> rfl

/-- The crew went on after its turn, with a value in a register. -/
theorem turnGives_of_me {s t : State} {sd : SReg} {x : W64} (h : t.me = (s.inTurn.me.setS sd x).next) : TurnGives s t sd x := by
  rw [State.inTurn_me] at h
  refine ⟨?_, fun r hr => ?_, ?_⟩
  · rw [h, Crew.setS_rest]
    rfl
  · rw [h]
    exact Crew.sv_setS_ne _ _ hr
  · rw [h]
    exact Crew.sv_setS_self _ _ _

end Sys2Proof.Machine
end

section
/-! PROOFS. What a crew takes from an object with the clocks that it keeps (R391), and the cluster queues (O46). -/

namespace Sys2Proof.Machine

/-! ## Acquires of kept clocks (R391) -/

theorem stampMax_self (a : Stamp) : stampMax a a = a := by simp [stampMax]

theorem stampMax_idem (a b : Stamp) : stampMax a (stampMax a b) = stampMax a b := by
  unfold stampMax
  split
  · rfl
  · simp

/-- The core clock after an acquire of clocks that an object keeps. -/
def State.keptAt (s : State) (core : Nat) (sc : Scope) (ch : Clocks) : Stamp :=
  let ts := keptClock ch (dieOfCore core) (s.core core).ts
  if Scope.takesDic sc then stampMax ts (s.die (dieOfCore core)).dic else ts

theorem stampMax_keptTs (s : State) (core : Nat) (ch : Clocks) :
    stampMax (s.core core).ts (stampMax (s.core core).ts (s.keptTs core ch)) = keptClock ch (dieOfCore core) (s.core core).ts := by
  rw [stampMax_idem]
  unfold State.keptTs keptClock
  cases Map.find? ch (dieOfCore core) with
  | none => exact stampMax_self _
  | some x => rfl

theorem acquireKept_eq (s : State) (k : Nat) {sc : Scope} (h : sc ≠ .crew) (ch : Clocks) :
    s.acquireKept k sc ch = (s.onCore (coreOfKey k) fun c => { c with ts := s.keptAt (coreOfKey k) sc ch }).onCrew k fun c =>
      { c with seen := joinStamps c.seen ch } := by
  have hts : s.acquireTs (coreOfKey k) sc (stampMax (s.core (coreOfKey k)).ts (s.keptTs (coreOfKey k) ch)) = s.keptAt (coreOfKey k) sc ch := by
    unfold State.acquireTs State.keptAt
    dsimp only
    rw [stampMax_keptTs]
  cases sc with
  | crew => exact absurd rfl h
  | clus | die | dev | sys => exact congrArg (fun x => (s.onCore (coreOfKey k) fun c => { c with ts := x }).onCrew k fun c => { c with seen := joinStamps c.seen ch }) hts

/-! ## The receipt of an item (R36, R237) -/

/-- Whether an item is a record of the collective engine. -/
def QItem.ofColl (i : QItem) : Bool := bf i.item 21 3 == 4

/-- A party's trace once it has popped an item (R361). -/
def Trace.popped (t : Trace) (event : Bool) (i : QItem) : Trace := if event && i.ofColl then { t with why := t.why ||| 32 } else t

/-- The part of a receipt in which an event record brings its crew the intervals of its plate. -/
def State.takesEvent (s : State) (k : Nat) (event : Bool) (i : QItem) : State :=
  if event then
    match (s.party (s.crew k).party).plates.find? fun p => p.num == (bf i.item 24 8).toNat with
    | some p => s.onCrew k fun c => c.takeIvals k p
    | none => s
  else s

theorem takesEvent_eq (s : State) (k : Nat) (c : Crew) (event : Bool) (i : QItem) :
    ∃ iv, (∀ r ∈ c.ivals, r ∈ iv) ∧ (s.putCrew k c).takesEvent k event i = s.putCrew k { c with ivals := iv } := by
  have hnone : ∃ iv, (∀ r ∈ c.ivals, r ∈ iv) ∧ s.putCrew k c = s.putCrew k { c with ivals := iv } := ⟨c.ivals, fun _ h => h, rfl⟩
  unfold State.takesEvent
  split
  · split
    · next p _ =>
      refine ⟨(c.takeIvals k p).ivals, fun r hr => List.mem_append_left _ hr, ?_⟩
      rw [State.onCrew_eq, State.putCrew_crew_self, State.putCrew_putCrew]
      rfl
    · exact hnone
  · exact hnone

theorem received_parts (s : State) (k : Nat) (event : Bool) (i : QItem) :
    s.received k event i =
      let t := (s.acquireKept k .clus i.stamp).takesEvent k event i
      if event && i.ofColl then t.always (t.crew k).party 5 else t := rfl

/-- What a receipt does: the acquire, the intervals of an event record's plate, and the trace. -/
theorem received_eq (s : State) (k : Nat) (event : Bool) (i : QItem) :
    ∃ iv, (∀ r ∈ (s.crew k).ivals, r ∈ iv) ∧
      s.received k event i =
        let t := (s.onCore (coreOfKey k) fun c => { c with ts := s.keptAt (coreOfKey k) .clus i.stamp }).putCrew k
          { s.crew k with seen := joinStamps (s.crew k).seen i.stamp, ivals := iv }
        if event && i.ofColl then t.always (s.crew k).party 5 else t := by
  rw [received_parts, acquireKept_eq s k (by decide), State.onCrew_eq]
  obtain ⟨iv, hkept, htakes⟩ := takesEvent_eq (s.onCore (coreOfKey k) fun c => { c with ts := s.keptAt (coreOfKey k) .clus i.stamp }) k
    { s.crew k with seen := joinStamps (s.crew k).seen i.stamp } event i
  refine ⟨iv, hkept, ?_⟩
  rw [State.onCore_crew, htakes]
  simp only [State.putCrew_crew_self]

/-! ## A change of a queue after its turn (R234 to R236) -/

/-- A queue of the crew's party as a turn leaves it, with the wake step due and the crew at its next word. -/
theorem queueTurn (s : State) (q : Nat) (x : CQueue) (f : Crew → Crew) (hf : ∀ c, (f c).party = c.party) :
    ∃ t, ((s.inTurn.setQueue s.me.party q x).pushLate (.clusterQueueUpdate s.me.party q)).done f = .next t ∧
      OnlyShared s { t with late := s.late } ∧ t.me = (f s.inTurn.me).next ∧
      t.myParty = { s.myParty with queues := Map.put s.myParty.queues q x } ∧ EndsWith s t (.clusterQueueUpdate s.me.party q) := by
  have hme : (s.inTurn.setQueue s.me.party q x).me = s.inTurn.me := rfl
  refine ⟨_, rfl, ?_, ?_, ?_, ?_⟩
  · rw [late_aside (by rfl)]
    exact ((OnlyShared.inTurn s).onParty _).onMe _
  · rw [State.onMe_me, State.pushLate_me, hme]
  · have hp : ((f s.inTurn.me).next).party = s.me.party := by simp [Crew.next, hf]
    rw [State.myParty, State.onMe_me, State.pushLate_me, hme, hp]
    exact (State.pushLate_party _ _ _).trans (State.onParty_party_self _ _ _)
  · exact State.pushLate_late _ _

theorem pushItem_pushed (x : CQueue) (n : Nat) (item : W32) (st : Clocks) : Pushed x (x.pushItem n item st) n item st := by
  refine ⟨rfl, rfl, fun m => ?_⟩
  split
  · next h => subst h; exact MapLaws.get_set_self _ _ _ _
  · next h => exact MapLaws.get_set_ne _ _ _ h

theorem blocks_iff (x : CQueue) (n : Nat) : x.blocks n = true ↔ Map.get 0 x.allow n = 0 ∨ x.depth ≤ x.items.length := by
  simp [CQueue.blocks]

theorem mayPush_free {x : CQueue} {n : Nat} (h : MayPush x n) : x.blocks n = false := by
  have hno : ¬ x.blocks n = true := fun hb => by
    obtain h0 | hfull := (blocks_iff x n).mp hb
    · exact h.allow h0
    · exact absurd h.room (by omega)
  simpa using hno

theorem extractLsb'_low (x : W64) : x.extractLsb' 0 32 = x.setWidth 32 := by
  ext i hi
  simp

theorem withQueue_some {s : State} {q : BitVec 5} {x : CQueue} (h : Map.find? s.myParty.queues q.toNat = some x) (k : CQueue → Out) :
    s.withQueue q k = k x := by
  simp [State.withQueue, h]

theorem withQueue_none {s : State} {q : BitVec 5} (h : Map.find? s.myParty.queues q.toNat = none) (k : CQueue → Out) :
    s.withQueue q k = trapObj s 1 q.toNat := by
  simp [State.withQueue, h]

theorem cancelEnds_not {s : State} (h : s.me.cancel = 0) (k : State → Out) : s.cancelEnds k = k s := by
  simp [State.cancelEnds, h]

theorem trapObj_takes {s : State} (h : s.me.kind = .normal) (kind num : Nat) :
    ∃ t, trapObj s kind num = .next t ∧ TakesTrap s t 0x0E (BitVec.ofNat 64 (kind + 256 * num)) 0 0 :=
  ⟨_, rfl, trap_takes s h 0x0E (by decide) (by decide) _ 0 0⟩

theorem blockedOn_nil {s : State} {p : Nat} {w : Wait → Bool}
    (h : ∀ kc ∈ s.crews, kc.2.party = p → ∀ x, kc.2.phase = .waiting x → w x = false) : s.blockedOn p w = [] := by
  unfold State.blockedOn State.partyCrews
  rw [List.filter_filter, List.filter_eq_nil_iff.mpr]
  · rfl
  · intro kc hkc hboth
    simp only [Bool.and_eq_true, beq_iff_eq] at hboth
    obtain ⟨hw, hp⟩ := hboth
    split at hw
    · next x hx => exact absurd hw (by simp [h kc hkc hp x hx])
    · cases hw

/-! ## Configuration, pushes and grants (R233 to R236) -/

theorem qcfg_configures (s : State) (st : BitVec 4) (q : BitVec 5) (sa sb : SReg) (hrel : s.me.released = true)
    (hbits : s.me.sv sb &&& ~~~(0x13F : W64) = 0)
    (hplain : (s.me.sv sb).getLsbD 8 = false → s.me.sv sa ≠ 0 ∧ (s.me.sv sa).toNat < 2 ^ s.myParty.ncrews)
    (hevent : (s.me.sv sb).getLsbD 8 = true → s.me.sv sa = 0)
    (hempty : ∀ x, Map.find? s.myParty.queues q.toNat = some x → x.items = [])
    (hnone : NoneWaits s (fun w => (∃ i, w = .queuePush q.toNat i) ∨ ∃ sd, w = .queuePop q.toNat sd)) :
    exec (.qcfg st q sa sb) s = (s.inTurn.setQueue s.me.party q.toNat
      { event := (s.me.sv sb).getLsbD 8, depth := (s.me.sv sb).toNat % 64 + 1, producers := s.me.sv sa }).done id := by
  have hfree : s.blockedOn s.me.party (fun w => match w with
      | .queuePush x _ => x == q.toNat
      | .queuePop x _ => x == q.toNat
      | _ => false) = [] := by
    refine blockedOn_nil fun kc hkc hp x hx => ?_
    have hx := hnone kc hkc hp x hx
    split
    · next y i _ => simpa using fun hy : y = q.toNat => hx (.inl ⟨i, by rw [hy]⟩)
    · next y sd _ => simpa using fun hy : y = q.toNat => hx (.inr ⟨sd, by rw [hy]⟩)
    · rfl
  have hitems : (match Map.find? s.myParty.queues q.toNat with | some x => x.items.isEmpty | none => true) = true := by
    split
    · next x hx => rw [hempty x hx]; rfl
    · rfl
  have hgood : ¬(s.me.sv sb &&& ~~~(0x13F : W64) ≠ 0 ∨
      ((s.me.sv sb).getLsbD 8 = false ∧ (s.me.sv sa = 0 ∨ 2 ^ s.myParty.ncrews ≤ (s.me.sv sa).toNat)) ∨
      ((s.me.sv sb).getLsbD 8 = true ∧ s.me.sv sa ≠ 0)) := by
    rintro (hb | ⟨hb, hm | hm⟩ | ⟨hb, hm⟩)
    · exact hb hbits
    · exact (hplain hb).1 hm
    · exact absurd (hplain hb).2 (by omega)
    · exact hm (hevent hb)
  simp only [exec, execQcfg]
  have hidle : ¬((s.blockedOn s.me.party _).isEmpty = false ∨ _ = false) :=
    not_or.mpr ⟨fun h => absurd ((congrArg List.isEmpty hfree).symm.trans h) (by decide), fun h => absurd (hitems.symm.trans h) (by decide)⟩
  refine (if_neg hidle).trans ((if_neg hgood).trans ?_)
  rw [shared_inTurn hrel]

/-- A queue of the crew's party as its configuration leaves it. -/
theorem queueSet (s : State) (q : Nat) (x : CQueue) :
    ∃ t, (s.inTurn.setQueue s.me.party q x).done id = .next t ∧ OnlyShared s t ∧ t.me = s.me.turned s.clk ∧
      t.myParty = { s.myParty with queues := Map.put s.myParty.queues q x } := by
  have hme : (s.inTurn.setQueue s.me.party q x).me = { s.me with released := false, committed := s.clk } := s.inTurn_me
  have hp : ((id s.inTurn.me).next).party = s.me.party := by rw [State.inTurn_me]; rfl
  refine ⟨_, rfl, ((OnlyShared.inTurn s).onParty _).onMe _, ?_, ?_⟩
  · rw [State.onMe_me, hme]
    rfl
  · rw [State.myParty, State.onMe_me]
    exact (congrArg (s.inTurn.setQueue s.me.party q x).party hp).trans (State.onParty_party_self s.inTurn s.me.party _)

theorem inTurn_next (s : State) : (id s.inTurn.me).next = s.me.turned s.clk := by
  rw [State.inTurn_me]
  rfl

theorem turn_waits (s : State) (w : Wait) :
    OnlyShared s (s.inTurn.waitMe w) ∧ (s.inTurn.waitMe w).myParty = s.myParty ∧ WaitsTurned s (s.inTurn.waitMe w) w := by
  have hme : (s.inTurn.waitMe w).me = { s.me with released := false, committed := s.clk, phase := .waiting w, blockedSince := s.clk } := by
    rw [(waitMe_only s.inTurn w).2, State.inTurn_me]
    rfl
  refine ⟨(OnlyShared.inTurn s).onMe _, ?_, hme⟩
  rw [State.myParty, hme]
  rfl

/-- A try that finds nothing to do: it answers 0 and gives up its turn. -/
theorem try_fails (s : State) (sd : SReg) :
    ∃ t, s.done (fun c => { c with released := false }.setS sd 0) = .next t ∧ OnlyMe s t ∧
      t.me = { s.me with s := t.me.s, released := false, widx := s.me.widx + 1 } ∧ (∀ r, r ≠ sd → t.me.sv r = s.me.sv r) ∧
      t.me.sv sd = 0 := by
  obtain ⟨t, hexec, honly, hme, -⟩ := done_next s fun c => { c with released := false }.setS sd 0
  refine ⟨t, hexec, honly, ?_, fun r hr => ?_, ?_⟩
  · rw [hme, Crew.setS_rest]
    rfl
  · rw [hme]
    exact Crew.sv_setS_ne _ _ hr
  · rw [hme]
    exact (Crew.sv_setS_self _ _ _).trans (ite_self _)

theorem producer_of {x : CQueue} {n : Nat} (hplain : x.event = false) (hp : x.producers.getLsbD n = true) : x.producer n = true := by
  simp [CQueue.producer, hplain, hp]

/-- `qpush` of a producer whose launch is not cancelled, once it has its turn. -/
theorem exec_qpush {s : State} {q : BitVec 5} {x : CQueue} (hx : Map.find? s.myParty.queues q.toNat = some x)
    (hprod : x.producer s.me.num = true) (hrel : s.me.released = true) (hc : s.me.cancel = 0) (st : BitVec 4) (sa : SReg) :
    exec (.qpush st q sa) s =
      if x.blocks s.me.num then .next (s.inTurn.waitMe (.queuePush q.toNat ((s.me.sv sa).setWidth 32)))
      else ((s.inTurn.setQueue s.me.party q.toNat (x.pushItem s.me.num ((s.me.sv sa).setWidth 32) s.me.relTs)).pushLate
        (.clusterQueueUpdate s.me.party q.toNat)).done id := by
  simp only [exec, execQpush]
  rw [cancelEnds_not hc, withQueue_some hx]
  refine (if_neg (by simp [hprod])).trans ?_
  rw [shared_inTurn hrel, State.inTurn_me, extractLsb'_low]

theorem exec_qtryPush {s : State} {q : BitVec 5} {x : CQueue} (hx : Map.find? s.myParty.queues q.toNat = some x)
    (hprod : x.producer s.me.num = true) (hrel : s.me.released = true) (st : BitVec 4) (sd sa : SReg) :
    exec (.qtryPush st sd q sa) s =
      if x.blocks s.me.num then s.done fun c => { c with released := false }.setS sd 0
      else ((s.inTurn.setQueue s.me.party q.toNat (x.pushItem s.me.num ((s.me.sv sa).setWidth 32) s.me.relTs)).pushLate
        (.clusterQueueUpdate s.me.party q.toNat)).done fun c => c.setS sd 1 := by
  simp only [exec, execQtryPush]
  rw [withQueue_some hx]
  refine (if_neg (by simp [hprod])).trans ?_
  rw [shared_inTurn hrel, State.inTurn_me, extractLsb'_low]

theorem setS_party (c : Crew) (sd : SReg) (x : W64) : (c.setS sd x).party = c.party := by rw [Crew.setS_rest]

/-- The clause of O46 on pushes. -/
theorem queue_pushes (s : State) (q : BitVec 5) (sa : SReg) (x : CQueue) (hx : Map.find? s.myParty.queues q.toNat = some x)
    (hplain : x.event = false) (hprod : x.producers.getLsbD s.me.num = true) (hrel : s.me.released = true) :
    let item : W32 := (s.me.sv sa).setWidth 32
    (∀ st, MayPush x s.me.num → s.me.cancel = 0 → ∃ t x', exec (.qpush st q sa) s = .next t ∧ OnlyShared s { t with late := s.late } ∧
      t.me = s.me.turned s.clk ∧ t.myParty = { s.myParty with queues := Map.put s.myParty.queues q.toNat x' } ∧
      Pushed x x' s.me.num item s.me.relTs ∧ EndsWith s t (.clusterQueueUpdate s.me.party q.toNat)) ∧
    (∀ st sd, MayPush x s.me.num → ∃ t x', exec (.qtryPush st sd q sa) s = .next t ∧ OnlyShared s { t with late := s.late } ∧
      TurnGives s t sd 1 ∧ t.myParty = { s.myParty with queues := Map.put s.myParty.queues q.toNat x' } ∧
      Pushed x x' s.me.num item s.me.relTs ∧ EndsWith s t (.clusterQueueUpdate s.me.party q.toNat)) ∧
    (∀ st, (Map.get 0 x.allow s.me.num = 0 ∨ x.depth ≤ x.items.length) → s.me.cancel = 0 →
      ∃ t, exec (.qpush st q sa) s = .next t ∧ OnlyShared s t ∧ t.myParty = s.myParty ∧ WaitsTurned s t (.queuePush q.toNat item)) ∧
    (∀ st sd, (Map.get 0 x.allow s.me.num = 0 ∨ x.depth ≤ x.items.length) →
      ∃ t, exec (.qtryPush st sd q sa) s = .next t ∧ OnlyMe s t ∧
        t.me = { s.me with s := t.me.s, released := false, widx := s.me.widx + 1 } ∧ (∀ r, r ≠ sd → t.me.sv r = s.me.sv r) ∧
        t.me.sv sd = 0) := by
  have hp := producer_of hplain hprod
  refine ⟨fun st hmay hc => ?_, fun st sd hmay => ?_, fun st hblock hc => ?_, fun st sd hblock => ?_⟩
  · obtain ⟨t, hdone, honly, hme, hparty, hlate⟩ :=
      queueTurn s q.toNat (x.pushItem s.me.num ((s.me.sv sa).setWidth 32) s.me.relTs) id fun _ => rfl
    refine ⟨t, _, ?_, honly, hme.trans (inTurn_next s), hparty, pushItem_pushed _ _ _ _, hlate⟩
    rw [exec_qpush hx hp hrel hc, mayPush_free hmay]
    exact hdone
  · obtain ⟨t, hdone, honly, hme, hparty, hlate⟩ :=
      queueTurn s q.toNat (x.pushItem s.me.num ((s.me.sv sa).setWidth 32) s.me.relTs) (fun c => c.setS sd 1) fun c => setS_party c _ _
    refine ⟨t, _, ?_, honly, turnGives_of_me hme, hparty, pushItem_pushed _ _ _ _, hlate⟩
    rw [exec_qtryPush hx hp hrel, mayPush_free hmay]
    exact hdone
  · rw [exec_qpush hx hp hrel hc, if_pos ((blocks_iff x _).mpr hblock)]
    exact ⟨_, rfl, turn_waits s _⟩
  · rw [exec_qtryPush hx hp hrel, if_pos ((blocks_iff x _).mpr hblock)]
    exact try_fails s sd

/-! ## Pops (R235, R236) -/

/-- A receipt by the crew that executes, in its turn. -/
theorem received_turn {s u : State} (h : OnlyShared s u) (hp : u.me.party = s.me.party) (event : Bool) (i : QItem) :
    ∃ iv, (∀ r ∈ u.me.ivals, r ∈ iv) ∧ OnlyShared s (u.received s.cur event i) ∧
      (u.received s.cur event i).me = { u.me with seen := joinStamps u.me.seen i.stamp, ivals := iv } ∧
      (u.received s.cur event i).party s.me.party =
        { u.party s.me.party with trace := (u.party s.me.party).trace.popped event i } ∧
      ((u.received s.cur event i).core s.myCore).ts = u.keptAt s.myCore .clus i.stamp := by
  have hmine : u.crew s.cur = u.me := by rw [← h.cur]; rfl
  obtain ⟨iv, hkept, heq⟩ := received_eq u s.cur event i
  rw [hmine, hp] at heq
  rw [hmine] at hkept
  refine ⟨iv, hkept, ?_⟩
  rw [heq]
  generalize hc : ({ u.me with seen := joinStamps u.me.seen i.stamp, ivals := iv } : Crew) = c
  have hcore := h.onCore s.myCore fun x => { x with ts := u.keptAt s.myCore .clus i.stamp }
  have honly : OnlyShared s ((u.onCore s.myCore fun x => { x with ts := u.keptAt s.myCore .clus i.stamp }).putCrew s.cur c) :=
    hcore.cur ▸ hcore.onMe fun _ => c
  have hme : ((u.onCore s.myCore fun x => { x with ts := u.keptAt s.myCore .clus i.stamp }).putCrew s.cur c).me = c :=
    (congrArg _ honly.cur).trans (State.putCrew_crew_self _ _ _)
  have hts : (((u.onCore s.myCore fun x => { x with ts := u.keptAt s.myCore .clus i.stamp }).putCrew s.cur c).core s.myCore).ts =
      u.keptAt s.myCore .clus i.stamp := by
    rw [State.putCrew_core, State.onCore_core_self]
  unfold Trace.popped
  split
  · exact ⟨honly.onParty _, hme, State.onParty_party_self _ _ _, hts⟩
  · exact ⟨honly, hme, rfl, hts⟩

/-- A pop's end: the wake step of the queue is due, and the crew goes on with the item. -/
theorem popped_takes {s r : State} {q : Nat} {x : CQueue} {i : QItem} {is : List QItem} {iv : List IvalRef} (sd : SReg) (v : W64)
    (honly : OnlyShared s r) (hkept : ∀ y ∈ s.me.ivals, y ∈ iv)
    (hme : r.me = { s.me with released := false, committed := s.clk, seen := joinStamps s.me.seen i.stamp, ivals := iv })
    (hparty : r.party s.me.party = { s.myParty with
      queues := Map.put s.myParty.queues q { x with items := is }, trace := s.myParty.trace.popped x.event i })
    (hts : (r.core s.myCore).ts = keptClock i.stamp (dieOfCore s.myCore) (s.core s.myCore).ts) :
    ∃ t, (r.pushLate (.clusterQueueUpdate r.me.party q)).done (fun c => c.setS sd v) = .next t ∧ (OnlyShared s { t with late := s.late } ∧
      t.myParty = { s.myParty with queues := Map.put s.myParty.queues q { x with items := is }, trace := t.myParty.trace } ∧
      PopMarks s t x i ∧ EndsWith s t (.clusterQueueUpdate s.me.party q) ∧
      (t.core s.myCore).ts = keptClock i.stamp (dieOfCore s.myCore) (s.core s.myCore).ts) ∧
      TurnTakes s t sd v i.stamp := by
  have hp : r.me.party = s.me.party := by rw [hme]
  rw [hp]
  have htme : ((r.pushLate (.clusterQueueUpdate s.me.party q)).onMe fun c => (c.setS sd v).next).me = (r.me.setS sd v).next := by
    rw [State.onMe_me, State.pushLate_me]
  have htparty : ((r.pushLate (.clusterQueueUpdate s.me.party q)).onMe fun c => (c.setS sd v).next).party s.me.party =
      r.party s.me.party := State.pushLate_party _ _ _
  have hmine : ((r.pushLate (.clusterQueueUpdate s.me.party q)).onMe fun c => (c.setS sd v).next).myParty = r.party s.me.party := by
    rw [State.myParty, htme]
    exact (congrArg _ ((setS_party _ _ _).trans hp)).trans htparty
  refine ⟨_, rfl, ⟨?_, ?_, ?_, ?_, ?_⟩, ?_, ?_, ?_, ?_⟩
  · rw [late_aside honly.late]
    exact honly.onMe _
  · rw [hmine, hparty]
  · unfold PopMarks
    rw [htparty, hparty]
    unfold Trace.popped QItem.ofColl
    simp [bf]
  · exact (State.pushLate_late r _).trans (by rw [honly.late])
  · exact (congrArg Core.ts (State.pushLate_core r _ _)).trans hts
  · rw [htme, Crew.setS_rest, hme]
    rfl
  · rw [htme, Crew.setS_rest, hme]
    exact hkept
  · intro y hy
    rw [htme]
    exact (Crew.sv_setS_ne _ _ hy).trans (by rw [hme]; rfl)
  · rw [htme]
    exact Crew.sv_setS_self _ _ _

/-- What `popNow` leaves of the crew and of its party, once it has its turn. -/
theorem popNow_takes (s : State) (q : Nat) (x : CQueue) (i : QItem) (is : List QItem) (hx : x.items = i :: is) (sd : SReg) (v : W64) :
    ∃ t, s.inTurn.popNow q x i (fun c => c.setS sd v) = .next t ∧ (OnlyShared s { t with late := s.late } ∧
      t.myParty = { s.myParty with queues := Map.put s.myParty.queues q { x with items := is }, trace := t.myParty.trace } ∧
      PopMarks s t x i ∧ EndsWith s t (.clusterQueueUpdate s.me.party q) ∧
      (t.core s.myCore).ts = keptClock i.stamp (dieOfCore s.myCore) (s.core s.myCore).ts) ∧
      TurnTakes s t sd v i.stamp := by
  have hdrop : ({ x with items := x.items.drop 1 } : CQueue) = { x with items := is } := by rw [hx]; rfl
  have hp : s.inTurn.me.party = s.me.party := by rw [State.inTurn_me]
  have hset : OnlyShared s (s.inTurn.setQueue s.me.party q { x with items := is }) := (OnlyShared.inTurn s).onParty _
  have hme : (s.inTurn.setQueue s.me.party q { x with items := is }).me = { s.me with released := false, committed := s.clk } := s.inTurn_me
  have hparty : (s.inTurn.setQueue s.me.party q { x with items := is }).party s.me.party =
      { s.myParty with queues := Map.put s.myParty.queues q { x with items := is } } := State.onParty_party_self _ _ _
  obtain ⟨iv, hkept, honly, hcrew, hgot, hts⟩ := received_turn hset (by rw [hme]) x.event i
  rw [hme] at hkept hcrew
  rw [hparty] at hgot
  unfold State.popNow
  rw [hdrop, hp]
  exact popped_takes sd v honly hkept hcrew hgot hts

/-- Settles O46: each instruction is a change of its queue in the crew's turn. -/
theorem clusterQueuesArePushedAndPopped : Obligations.ClusterQueuesArePushedAndPopped := by
  refine ⟨fun s st q sa sb hrel => ?_, fun s q sa x hx hplain hprod hrel => queue_pushes s q sa x hx hplain hprod hrel,
    fun s q x hx => ⟨fun i is hi hrel => ⟨fun st sd hc => ?_, fun st sd => ?_⟩, fun hi => ⟨fun st sd hc hrel => ?_, fun st sd => ?_⟩⟩,
    fun s st q sa n x hx hplain hrel hlt hprod => ?_, fun s st q sa sd n hk => ⟨fun hx => ?_, fun x hx hno => ?_⟩⟩
  · intro m v hbits hplain hevent hempty hnone
    rw [qcfg_configures s st q sa sb hrel hbits hplain hevent hempty hnone]
    exact queueSet s q.toNat _
  · simp only [exec, execQpop]
    rw [cancelEnds_not hc, withQueue_some hx, shared_inTurn hrel]
    simp only [hi]
    exact popNow_takes s q.toNat x i is hi sd _
  · simp only [exec, execQtryPop]
    rw [withQueue_some hx]
    simp only [hi]
    rw [shared_inTurn hrel]
    exact popNow_takes s q.toNat x i is hi sd _
  · simp only [exec, execQpop]
    rw [cancelEnds_not hc, withQueue_some hx, shared_inTurn hrel]
    simp only [hi]
    exact ⟨_, rfl, turn_waits s _⟩
  · simp only [exec, execQtryPop]
    rw [withQueue_some hx]
    simp only [hi]
    exact try_fails s sd
  · obtain ⟨t, hdone, honly, hme, hparty, hlate⟩ := queueTurn s q.toNat
      { x with allow := Map.set 0 x.allow (s.me.sv sa).toNat (min (Map.get 0 x.allow (s.me.sv sa).toNat + n.toNat + 1) x.depth) } id fun _ => rfl
    refine ⟨t, _, ?_, honly, hme.trans (inTurn_next s), hparty, rfl, fun k => ?_, hlate⟩
    · simp only [exec, execQallow]
      rw [withQueue_some hx]
      refine (if_neg (by simp [hlt, producer_of hplain hprod])).trans ?_
      rw [shared_inTurn hrel]
      exact hdone
    · split
      · next h => subst h; exact MapLaws.get_set_self _ _ _ _
      · next h => exact MapLaws.get_set_ne _ _ _ h
  · intro i hi
    simp only [List.mem_cons, List.not_mem_nil, or_false] at hi
    obtain rfl | rfl | rfl := hi
    · simp only [exec, execQtryPop]
      rw [withQueue_none hx]
      exact trapObj_takes hk 1 _
    · simp only [exec, execQtryPush]
      rw [withQueue_none hx]
      exact trapObj_takes hk 1 _
    · simp only [exec, execQallow]
      rw [withQueue_none hx]
      exact trapObj_takes hk 1 _
  · have hprod : x.producer s.me.num = false := by
      obtain he | hp := hno
      · simp [CQueue.producer, he]
      · simp [CQueue.producer, hp]
    simp only [exec, execQtryPush]
    rw [withQueue_some hx]
    rw [if_pos (by simp [hprod])]
    exact trapObj_takes hk 2 _

end Sys2Proof.Machine
end

section
/-! PROOFS. Monitors, parks and contact sheets (O47). -/

namespace Sys2Proof.Machine

/-! ## The current crew stays the current crew -/

theorem State.cur_ite {p : Prop} [Decidable p] (s t : State) : (if p then s else t).cur = if p then s.cur else t.cur :=
  apply_ite State.cur p s t

theorem foldl_cur {α : Type} {f : State → α → State} (hf : ∀ s x, (f s x).cur = s.cur) (l : List α) (s : State) :
    (l.foldl f s).cur = s.cur := by
  induction l generalizing s with
  | nil => rfl
  | cons x xs ih => exact (ih _).trans (hf s x)

section
variable (s : State)

@[simp] theorem State.trapCounts_cur (k : Nat) (r : TrapRec) : (s.trapCounts k r).cur = s.cur := by
  simp [State.trapCounts, State.cur_ite, State.onCnt]

@[simp] theorem State.oneEvent_cur (t : State) : (s.oneEvent t).cur = t.cur := by
  simp [State.oneEvent, State.cur_ite]

@[simp] theorem State.testEnd_cur (k : Nat) (fail : Option (BitVec 16)) : (s.testEnd k fail).cur = s.cur := by
  unfold State.testEnd
  split <;> simp [State.onCnt]

@[simp] theorem State.secondError_cur (k : Nat) (r : TrapRec) : (s.secondError k r).cur = s.cur := by
  unfold State.secondError
  dsimp only
  split
  · refine (foldl_cur (fun s o => ?_) _ _).trans ?_
    · split
      · rfl
      · rfl
    · simp [State.cur_ite, State.contain, State.containment, State.onCnt]
  · simp [State.cur_ite, State.contain, State.containment, State.onCnt]

@[simp] theorem State.trapCrew_cur (k : Nat) (r : TrapRec) : (s.trapCrew k r).cur = s.cur := by
  unfold State.trapCrew
  dsimp only
  split <;> simp

@[simp] theorem State.endRun_cur (k : Nat) (c : Crew) : (s.endRun k c).cur = s.cur := by
  unfold State.endRun
  split
  · rfl
  · split
    · exact State.trapCrew_cur _ _ _
    · rfl

@[simp] theorem State.laneBack_cur (t : LaneTag) (f : Crew → Crew) : (s.laneBack t f).cur = s.cur := by
  simp [State.laneBack, State.cur_ite]

@[simp] theorem State.exitOrigins_cur (c : Crew) (m : W32) : (s.exitOrigins c m).cur = s.cur := by
  unfold State.exitOrigins
  split
  · refine foldl_cur (fun s l => ?_) _ _
    split
    · exact State.laneBack_cur _ _ _
    · rfl
  · rfl

end

/-! ## Accesses of the control thread (R45, R134) -/

theorem checkAcc_reaches {s : State} {need : Need} {w : Nat} {reqs : List (Nat × W64)} {as : List Acc} (h : Reaches s need w reqs as) :
    s.checkAcc s.me.ctx need w reqs = .ok as := by
  obtain ⟨halign, hreqs, hloc⟩ := h
  have haligned : reqs.filter (fun r => r.2.toNat % w != 0) = [] :=
    List.filter_eq_nil_iff.mpr fun r hr => by simp [halign r hr]
  have hmapped : reqs.filter (fun r => match s.xlate s.me.ctx r.2 need with | .ok _ => false | .error _ => true) = [] := by
    refine List.filter_eq_nil_iff.mpr fun r hr => ?_
    rw [← hreqs] at hr
    obtain ⟨a, ha, rfl⟩ := List.mem_map.mp hr
    obtain ⟨pa, hpa, -⟩ := hloc a ha
    simp [hpa]
  have has : reqs.map (fun r => (⟨r.1, r.2, match s.xlate s.me.ctx r.2 need with | .ok pa => s.locOf s.me.ctx pa | .error _ => 0⟩ : Acc)) = as := by
    rw [← hreqs, List.map_map]
    refine (List.map_congr_left fun a ha => ?_).trans (List.map_id _)
    obtain ⟨pa, hpa, heq⟩ := hloc a ha
    simp only [Function.comp, hpa, ← heq, id]
  unfold State.checkAcc
  rw [haligned]
  dsimp only
  split
  · next r rs hbad => exact absurd (hbad.symm.trans hmapped) (List.cons_ne_nil _ _)
  · exact congrArg Checked.ok has

theorem checkAcc_misaligned {s : State} {ctx w : Nat} {need : Need} {l : Nat} {a : W64} (h : a.toNat % w ≠ 0) :
    ∃ ls, s.checkAcc ctx need w [(l, a)] = .bad 0x04 0 a ls := by
  unfold State.checkAcc
  simp [h]

theorem ea_eq_addrIdx (c : Crew) (sb : SReg) (ofs : BitVec 11) (w l : Nat) : c.ea sb ofs w = addrIdx c sb none ofs w l :=
  (BitVec.add_zero _).symm

/-! ## `watch` and `park` (R238, R239) -/

theorem watch_arms (s : State) (st : BitVec 4) (wide : Bool) (count : BitVec 5) (sb : SReg) (ofs : BitVec 11) (pa : Nat) :
    let w := if wide then 8 else 4
    let a := addrIdx s.me sb none ofs w 32
    let n := w * (count.toNat + 1)
    (a.toNat % n = 0 → s.xlate s.me.ctx a .read = .ok pa → ∃ t, exec (.watch st wide count sb ofs) s = .next t ∧ OnlyAccess s t ∧
      t.me = { s.me with mon := some { loc := s.locOf s.me.ctx pa, len := n, va := a, hit := false }, widx := s.me.widx + 1 }) ∧
    (a.toNat % n ≠ 0 → s.me.kind = .normal → ∃ t, exec (.watch st wide count sb ofs) s = .next t ∧ TakesTrap s t 0x04 0 a 0) := by
  intro w a n
  simp only [exec, execWatch]
  rw [ea_eq_addrIdx s.me sb ofs _ 32]
  refine ⟨fun halign hxlate => ?_, fun hmis hk => ?_⟩
  · have hreach : Reaches s .read n [(32, a)] [⟨32, a, s.locOf s.me.ctx pa⟩] :=
      ⟨by simpa using halign, rfl, fun x hx => ⟨pa, by rw [List.mem_singleton.mp hx]; exact ⟨hxlate, rfl⟩⟩⟩
    have hcheck : s.checkAcc s.me.ctx .read n [(32, a)] = _ := checkAcc_reaches hreach
    rw [hcheck]
    refine ⟨_, rfl, ⟨fun _ => rfl, fun k hk => MapLaws.find_put_ne _ _ hk, rfl⟩, ?_⟩
    rw [State.onMe_me]
    rfl
  · obtain ⟨ls, hbad⟩ := checkAcc_misaligned (s := s) (ctx := s.me.ctx) (need := .read) (l := 32) hmis
    have hbad : s.checkAcc s.me.ctx .read n [(32, a)] = _ := hbad
    rw [hbad]
    exact ⟨_, rfl, trap_takes s hk 0x04 (by decide) (by decide) 0 a 0⟩

theorem OnlyShared.wakeNext {s t : State} (h : OnlyShared s t) (f : Crew → Crew) : OnlyShared s (t.wakeNext s.cur f) := by
  have hwoken := (h.onMe fun c => (f c).next.wake t.clk).commitMe
  have hcur : t.cur = s.cur := h.cur
  unfold State.wakeNext
  rw [← hcur]
  exact hwoken

theorem parked_shared (s : State) (o : Option SReg) {n : Nat} (hn : n ≠ 1) : OnlyShared s (s.parked s.cur o n) := by
  have hoff := (OnlyShared.refl s).onMe fun c => { c with mon := none }
  cases o with
  | none =>
    unfold State.parked
    dsimp only
    rw [if_neg hn]
    exact hoff.wakeNext id
  | some r => exact hoff.wakeNext _

/-- What a park that ends at once leaves. -/
theorem parked_back (s : State) (o : Option SReg) {n : Nat} (hn : n ≠ 1) :
    OnlyShared s (s.parked s.cur o n) ∧ (∀ r, some r ≠ o → (s.parked s.cur o n).me.sv r = s.me.sv r) ∧
      (∀ r, o = some r → (s.parked s.cur o n).me.sv r = if r = 0 then 0 else BitVec.ofNat 64 n) ∧
      (s.parked s.cur o n).me = { s.me with
        s := (s.parked s.cur o n).me.s, mon := none, widx := s.me.widx + 1, phase := .running
        readyAt := max s.me.readyAt (s.clk + 1), readySince := s.clk, committed := s.clk } := by
  obtain ⟨-, hcrew, hothers, hstatus⟩ := s.parked_unparked s.cur o n (.inl hn)
  have hme : (s.parked s.cur o n).me = (s.parked s.cur o n).crew s.cur := congrArg _ (parked_shared s o hn).cur
  rw [hme]
  exact ⟨parked_shared s o hn, hothers, hstatus, hcrew⟩

theorem exec_park (s : State) (st : BitVec 4) (sa : SReg) (o : Option SReg) :
    exec (match o with | none => Instr.park st sa | some sd => .parkSt st sd sa) s = s.parkInstr o sa := by
  cases o <;> rfl

theorem park_clause (s : State) (sa : SReg) (o : Option SReg) (hc : s.me.cancel = 0) :
    (s.me.mon = none → s.parkInstr o sa = .next (s.parked s.cur o 3)) ∧
    (∀ m, s.me.mon = some m → m.hit = true → s.parkInstr o sa = .next (s.parked s.cur o 0)) ∧
    (∀ m, s.me.mon = some m → m.hit = false → s.parkInstr o sa = .next (s.waitMe
      (.park (if (s.me.sv sa).toNat % 2 ^ 48 = 0 then none else some (s.clk + (s.me.sv sa).toNat % 2 ^ 48)) o))) := by
  unfold State.parkInstr
  rw [cancelEnds_not hc]
  refine ⟨fun hm => ?_, fun m hm hhit => ?_, fun m hm hhit => ?_⟩
  · simp only [hm]
  · simp only [hm, hhit, if_true]
  · simp [hm, hhit]

/-! ## A cancelled crew at an instruction that may block (R34) -/

theorem endAll_ends (s : State) :
    (s.me.kind ≠ .handler → OnlyMe s (s.endAll s.cur)) ∧ (s.endAll s.cur).me.phase = .ended ∧ (s.endAll s.cur).me.live = 0 ∧
      (s.endAll s.cur).me.s = s.me.s ∧ (s.endAll s.cur).me.v = s.me.v ∧ (s.endAll s.cur).me.p = s.me.p := by
  have hlive : ((s.crew s.cur).exitLanes (s.crew s.cur).live).live = 0 := by simp [Crew.exitLanes]
  have hall : s.endAll s.cur = (s.exitOrigins (s.crew s.cur) (s.crew s.cur).live).putCrew s.cur
      ((s.crew s.cur).exitLanes (s.crew s.cur).live).over := endRun_over _ s.cur hlive
  have hme : (s.endAll s.cur).me = ((s.crew s.cur).exitLanes (s.crew s.cur).live).over := by
    rw [hall]
    exact (congrArg _ (State.exitOrigins_cur s _ _)).trans (State.putCrew_crew_self _ _ _)
  refine ⟨fun hk => ?_, ?_⟩
  · have hnone : s.exitOrigins (s.crew s.cur) (s.crew s.cur).live = s := if_neg hk
    rw [hall, hnone]
    exact putMe_only s _
  · rw [hme]
    exact ⟨rfl, hlive, rfl, rfl, rfl⟩

theorem cancelEnds_ends {s : State} (h : s.me.cancel ≠ 0) (k : State → Out) : s.cancelEnds k = .next (s.endAll s.cur) :=
  if_neg h

theorem cancelled_ends (s : State) (i : Instr) (hc : s.me.cancel ≠ 0)
    (h : (∃ st sa, i = .park st sa) ∨ (∃ st sd sa, i = .parkSt st sd sa) ∨ (∃ st bar sa, i = .barw st bar sa) ∨
      (∃ st q sa, i = .qpush st q sa) ∨ ∃ st sd q, i = .qpop st sd q) : exec i s = .next (s.endAll s.cur) := by
  obtain ⟨st, sa, rfl⟩ | ⟨st, sd, sa, rfl⟩ | ⟨st, bar, sa, rfl⟩ | ⟨st, q, sa, rfl⟩ | ⟨st, sd, q, rfl⟩ := h
  all_goals
    simp only [exec, execPark, execParkSt, State.parkInstr, execBarw, execQpush, execQpop]
    exact cancelEnds_ends hc _

/-! ## What a device's own objects add to a turn -/

theorem OnlyShared.device {s t : State} (h : OnlyShared s t) (queues : Map HwQueue) (counters : Map Counter) (maps : Map DirtyMap)
    (sheets : Map SheetHome) (reqs : List SvcReq) :
    OnlyDevice s { t with queues, counters, dirtyMaps := maps, sheets, svcReqs := reqs } := by
  refine ⟨h.mem, h.others, h.parties, ?_⟩
  have hrest := congrArg (fun u : State => { u with
    queues := s.queues, counters := s.counters, dirtyMaps := s.dirtyMaps, sheets := s.sheets, svcReqs := s.svcReqs }) h.rest
  exact hrest

theorem OnlyDevice.cur {s t : State} (h : OnlyDevice s t) : t.cur = s.cur := (congrArg State.cur h.rest :)

theorem OnlyDevice.late {s t : State} (h : OnlyDevice s t) : t.late = s.late := (congrArg State.late h.rest :)

theorem OnlyDevice.onMe {s t : State} (h : OnlyDevice s t) (f : Crew → Crew) : OnlyDevice s (t.onMe f) :=
  ⟨h.mem, fun k hk => (MapLaws.find_put_ne _ _ (h.cur ▸ hk)).trans (h.others k hk), h.parties, h.rest⟩

/-! ## Boards of the crew's context (R228) -/

theorem board_owned {s : State} {b h : Nat} {x : SheetHome} (ho : OwnsBoard s b h x) : s.board s.cur b = some (h, x) := by
  obtain ⟨hshare, rfl, rfl, hen, hctx⟩ := ho
  rw [State.me_eq] at hen hctx
  exact if_pos (by rw [hshare, hen, Bool.true_and, Bool.true_and]; exact beq_iff_eq.mpr hctx)

theorem board_none {s : State} {b : Nat} (hno : ∀ h x, ¬OwnsBoard s b h x) : s.board s.cur b = none := by
  refine if_neg fun hyes => ?_
  simp only [Bool.and_eq_true, beq_iff_eq] at hyes
  obtain ⟨⟨hshare, hen⟩, hctx⟩ := hyes
  exact hno _ _ ⟨hshare, rfl, rfl, hen, hctx⟩

theorem inTurn_board (s : State) (b : Nat) : s.inTurn.board s.cur b = s.board s.cur b := by
  have hctx : (s.inTurn.crew s.cur).ctx = (s.crew s.cur).ctx := (congrArg Crew.ctx s.inTurn_me :)
  simp only [State.board, hctx]
  rfl

/-- A request to a board's home: it is queued there, and the crew waits for its answer. -/
theorem sheet_request (s : State) (h : Nat) (x : SheetHome) (op : SheetOp) :
    let t := ({ s.inTurn with sheets := Map.put s.sheets h { x with reqs := x.reqs ++ [(⟨s.cur, op⟩ : SheetReq)] } }.pushLate (.sheetHomePost h)).waitMe .sheet
    OnlyDevice s { t with late := s.late } ∧ WaitsTurned s t .sheet ∧ EndsWith s t (.sheetHomePost h) ∧
      Map.get {} t.sheets h = { x with reqs := x.reqs ++ [(⟨s.cur, op⟩ : SheetReq)] } ∧ ∀ j, j ≠ h → Map.find? t.sheets j = Map.find? s.sheets j := by
  have hdev := (OnlyShared.inTurn s).device s.queues s.counters s.dirtyMaps
    (Map.put s.sheets h { x with reqs := x.reqs ++ [(⟨s.cur, op⟩ : SheetReq)] }) s.svcReqs
  have hme : ({ s.inTurn with sheets := Map.put s.sheets h { x with reqs := x.reqs ++ [(⟨s.cur, op⟩ : SheetReq)] } } : State).me =
      { s.me with released := false, committed := s.clk } := s.inTurn_me
  have hsheets : ∀ u : State, ∀ i w, ((u.pushLate i).waitMe w).sheets = u.sheets := fun u i w => by
    unfold State.pushLate
    split <;> rfl
  have hclk : ∀ u : State, ∀ i, (u.pushLate i).clk = u.clk := fun u i => by
    unfold State.pushLate
    split <;> rfl
  refine ⟨?_, ?_, State.pushLate_late _ _, ?_, fun j hj => ?_⟩
  · exact (late_aside (by rfl) _ _).symm ▸ hdev.onMe _
  · rw [WaitsTurned, (waitMe_only _ _).2, State.pushLate_me, hme, hclk]
    rfl
  · rw [hsheets]
    exact MapLaws.get_put_self _ _ _ _
  · rw [hsheets]
    exact MapLaws.find_put_ne _ _ hj

/-- A trap in a turn. -/
theorem turn_traps {s : State} (hk : s.me.kind = .normal) {cause : Nat} (hc : cause ≠ 6) (hd : cause ≠ 0x12) (d0 : W64) :
    Trapped s (s.inTurn.trap cause d0) cause d0 0 0 := by
  obtain ⟨-, hcrew⟩ := trap_takes s.inTurn (by rw [State.inTurn_me]; exact hk) cause hc hd d0 0 0
  rw [State.inTurn_me] at hcrew
  exact ⟨State.trap_mem _ _ _ _ _ _, by rw [hcrew], by rw [hcrew], by rw [hcrew], by rw [hcrew], by rw [hcrew]⟩

theorem exec_shpv {s : State} (hrel : s.me.released = true) (st : BitVec 4) (k : BitVec 2) (sd : SReg) (b : BitVec 8) (sa sb : SReg) :
    exec (.shpv st k sd b sa sb) s = match s.board s.cur b.toNat with
      | none => .next (s.inTurn.trap 0x0D (sheetDetail 1 b.toNat))
      | some (h, x) => .next (({ s.inTurn with sheets := Map.put s.sheets h { x with
          reqs := x.reqs ++ [(⟨s.cur, .post ((s.me.sv sa).toNat % 1024) ((s.me.sv sa).extractLsb' 32 32) (s.me.sv sb) k.toNat sd⟩ : SheetReq)] } }.pushLate
            (.sheetHomePost h)).waitMe .sheet) := by
  simp only [exec, execShpv]
  rw [shared_inTurn hrel, State.inTurn_cur, inTurn_board]
  rfl

theorem exec_shrs {s : State} (hrel : s.me.released = true) (st : BitVec 4) (sd : SReg) (b : BitVec 8) :
    exec (.shrs st sd b) s = match s.board s.cur b.toNat with
      | none => .next (s.inTurn.trap 0x0D (sheetDetail 1 b.toNat))
      | some (h, x) => .next (({ s.inTurn with sheets := Map.put s.sheets h { x with reqs := x.reqs ++ [(⟨s.cur, .reset sd⟩ : SheetReq)] } }.pushLate
          (.sheetHomePost h)).waitMe .sheet) := by
  simp only [exec, execShrs]
  rw [shared_inTurn hrel, State.inTurn_cur, inTurn_board]
  rfl

/-! ## The read of a board (R241, R242) -/

theorem view_bit (x : SheetHome) {j : Nat} (hj : j < 1024) : x.view.getLsbD j = (x.posted.getLsbD j && decide (j ≤ x.slots.toNat)) := by
  unfold SheetHome.view
  rw [BitVec.getLsbD_and, BitVec.getLsbD_ofNat, Nat.testBit_two_pow_sub_one]
  simp [hj]

theorem kv_setK_self (c : Crew) (k : Nat) (v : BitVec 1024) : (c.setK k v).kv k = v := MapLaws.get_set_self _ _ _ _

theorem kv_setK_ne (c : Crew) {k j : Nat} (v : BitVec 1024) (h : j ≠ k) : (c.setK k v).kv j = c.kv j := MapLaws.get_set_ne _ _ _ h

theorem kv_setS (c : Crew) (sd : SReg) (v : W64) (k : Nat) : (c.setS sd v).kv k = c.kv k := by rw [Crew.setS_rest]; rfl

theorem sv_setK (c : Crew) (k : Nat) (v : BitVec 1024) (r : SReg) : (c.setK k v).sv r = c.sv r := rfl

/-- What `shlv` leaves where its board is the crew's. -/
theorem shlv_reads {s : State} {b : BitVec 8} {h : Nat} {x : SheetHome} (ho : OwnsBoard s b.toNat h x) (st : BitVec 4) (k : BitVec 2) (sd : SReg) :
    ∃ t, exec (.shlv st k sd b) s = .next t ∧ OnlyAccess s t ∧
      { s.me with s := t.me.s, k := t.me.k, seen := joinStamps s.me.seen x.stamps, widx := s.me.widx + 1 } = t.me ∧ (∀ r, r ≠ sd → t.me.sv r = s.me.sv r) ∧
      (t.me.sv sd = if sd = 0 then 0 else x.epoch ++ x.level) ∧ (∀ j : BitVec 2, j ≠ k → t.me.kv j.toNat = s.me.kv j.toNat) ∧
      (∀ j, j < 1024 → (t.me.kv k.toNat).getLsbD j = (x.posted.getLsbD j && decide (j ≤ x.slots.toNat))) ∧
      (t.party s.me.party).trace.why.getLsbD 1 = true ∧ (t.core s.myCore).ts = keptAcquire s x.stamps := by
  simp only [exec, execShlv, board_owned ho]
  rw [State.acquireBoard, acquireKept_eq s s.cur (by decide)]
  generalize hu : (s.onCore (coreOfKey s.cur) fun c => { c with ts := s.keptAt (coreOfKey s.cur) .dev x.stamps }).onCrew s.cur
    (fun c => { c with seen := joinStamps c.seen x.stamps }) = u
  have hme : u.me = { s.me with seen := joinStamps s.me.seen x.stamps } := by
    rw [← hu]
    exact State.onCrew_crew_self _ s.cur _
  have hcore : (u.core s.myCore).ts = keptAcquire s x.stamps := by
    rw [← hu, State.onCrew_eq, State.putCrew_core, State.myCore, State.onCore_core_self]
    rfl
  have haccess : OnlyAccess s u := by
    rw [← hu]
    exact ⟨fun _ => rfl, fun j hj => MapLaws.find_put_ne _ _ hj, rfl⟩
  have hcur : u.cur = s.cur := (congrArg State.cur haccess.rest :)
  have htme : ((u.always s.me.party 1).onMe fun c => ((c.setK k.toNat x.view).setS sd (x.epoch ++ x.level)).next).me =
      ((u.me.setK k.toNat x.view).setS sd (x.epoch ++ x.level)).next := State.onMe_me _ _
  refine ⟨_, rfl, ⟨haccess.mem, fun j hj => (MapLaws.find_put_ne _ _ (hcur ▸ hj)).trans (haccess.others j hj), haccess.rest⟩, ?_, fun r hr => ?_, ?_,
    fun j hj => ?_, fun j hj => ?_, ?_, hcore⟩
  · rw [htme, hme, Crew.setS_rest]
    rfl
  · rw [htme]
    exact (Crew.sv_setS_ne _ _ hr).trans ((sv_setK _ _ _ _).trans (by rw [hme]; rfl))
  · rw [htme]
    exact Crew.sv_setS_self _ _ _
  · rw [htme]
    exact (kv_setS _ _ _ _).trans ((kv_setK_ne _ _ fun h => hj (BitVec.eq_of_toNat_eq h)).trans (by rw [hme]; rfl))
  · rw [htme]
    exact (congrArg (fun v : BitVec 1024 => v.getLsbD j) ((kv_setS _ _ _ _).trans (kv_setK_self _ _ _))).trans (view_bit x hj)
  · have hparty := State.onParty_party_self u s.me.party fun x => { x with trace := { x.trace with why := x.trace.why ||| (1 <<< 1) } }
    refine (congrArg (fun p : Party => p.trace.why.getLsbD 1) hparty).trans ?_
    simp

/-- Settles O47: the monitor's instructions are completions, parks or ends of the crew; those of a board are requests to its home in the
crew's turn, or an acquire of what the board keeps. -/
theorem monitorsAndSheetsAreUsed : Obligations.MonitorsAndSheetsAreUsed := by
  refine ⟨watch_arms, fun s st sa o hc => ?_, fun s i hc hi => ⟨_, cancelled_ends s i hc hi, endAll_ends s⟩,
    fun s st k sd b sa sb hrel => ⟨fun h x ho => ?_, fun hk hno => ?_⟩, fun s st k sd b => ⟨fun h x ho => shlv_reads ho st k sd, fun hk hno => ?_⟩,
    fun s st sd b hrel => ⟨fun h x ho => ?_, fun hk hno => ?_⟩⟩
  · intro i back
    have hexec : exec i s = s.parkInstr o sa := exec_park s st sa o
    obtain ⟨hunarmed, hhit, hwait⟩ := park_clause s sa o hc
    refine ⟨fun hm => ⟨_, hexec.trans (hunarmed hm), parked_back s o (by decide)⟩,
      fun m hm hh => ⟨_, hexec.trans (hhit m hm hh), parked_back s o (by decide)⟩,
      fun m hm hh => ⟨_, hexec.trans (hwait m hm hh), waitMe_only s _⟩⟩
  · rw [exec_shpv hrel, board_owned ho]
    exact ⟨_, rfl, sheet_request s h x _⟩
  · rw [exec_shpv hrel, board_none hno]
    exact ⟨_, rfl, turn_traps hk (by decide) (by decide) _⟩
  · simp only [exec, execShlv, board_none hno]
    exact ⟨_, rfl, trap_takes s hk 0x0D (by decide) (by decide) _ 0 0⟩
  · rw [exec_shrs hrel, board_owned ho]
    exact ⟨_, rfl, sheet_request s h x _⟩
  · rw [exec_shrs hrel, board_none hno]
    exact ⟨_, rfl, turn_traps hk (by decide) (by decide) _⟩

end Sys2Proof.Machine
end

section
/-! PROOFS. Device-side launches, relaunches, counters and dirty maps (O48): what a push, a counter and a map give. -/

namespace Sys2Proof.Machine

/-! ## Pushes that come first (R302) -/

theorem pushesUpTo_after {s : State} {k : Nat} (h : ∀ p ∈ s.pushes, k < p.crew) : s.pushesUpTo (some k) = s := by
  have hnone : s.pushes.filter (fun p : PushReq => decide (p.crew ≤ k)) = [] :=
    List.filter_eq_nil_iff.mpr fun p hp => by simpa using h p hp
  have hall : s.pushes.filter (fun p : PushReq => !decide (p.crew ≤ k)) = s.pushes :=
    List.filter_eq_self.mpr fun p hp => by simpa using h p hp
  unfold State.pushesUpTo
  dsimp only
  rw [hnone, hall]
  exact ite_self s

theorem pushesUpTo_later {s : State} (h : NoEarlierPush s) : s.pushesUpTo (some s.cur) = s := pushesUpTo_after h

/-! ## What becomes of a push (R245, R301) -/

theorem fate_takes {s : State} {q : BitVec 6} {n : Nat} {x : HwQueue} (h : QueueTakes s q n x) :
    (Map.get {} s.queues (s.phys s.me.ctx 64 q.toNat)).fate true s.me.priv (some s.me.ctx) = if x.pkts.length < 256 then .ok else .full := by
  obtain ⟨-, hnum, hrec, hen, hdev, hpriv, hctx⟩ := h
  have hmay : (true && !s.me.priv && x.privq) = false := by
    cases hp : x.privq with
    | false => exact Bool.and_false _
    | true => rw [hpriv hp]; rfl
  rw [← hnum, ← hrec]
  unfold HwQueue.fate
  simp only [hen, hdev, hctx, hmay, Bool.not_true, Bool.and_false, bne_self_eq_false, Bool.false_eq_true, if_false]

theorem fate_accepts {x : HwQueue} {priv : Bool} {c : Nat} (h : x.fate true priv (some c) ≠ .no) :
    x.en = true ∧ x.devpush = true ∧ (x.privq = true → priv = true) ∧ x.ctx.toNat = c := by
  unfold HwQueue.fate at h
  split at h
  · contradiction
  · next hen =>
    split at h
    · contradiction
    · next hdev =>
      split at h
      · contradiction
      · next hpriv =>
        dsimp only at h
        split at h
        · contradiction
        · next hctx =>
          refine ⟨by simpa using hen, by simpa using hdev, fun hp => ?_, ?_⟩
          · simpa [hp] using hpriv
          · exact (by simpa using hctx : c = x.ctx.toNat).symm

theorem fate_refused {s : State} {q : BitVec 6} (h : ∀ n x, ¬QueueTakes s q n x) (hshare : s.inShare 64 q.toNat = true) :
    (Map.get {} s.queues (s.phys s.me.ctx 64 q.toNat)).fate true s.me.priv (some s.me.ctx) = .no := by
  by_contra hne
  obtain ⟨hen, hdev, hpriv, hctx⟩ := fate_accepts hne
  exact h _ _ ⟨hshare, rfl, rfl, hen, hdev, hpriv, hctx⟩

/-- Whether one of the four sectors of a packet is poisoned. -/
def State.pktPoisoned (s : State) (loc : Nat) : Bool := (List.range 4).any fun i => s.isPoisoned (loc + 32 * i)

theorem pktPoisoned_iff (s : State) (loc : Nat) : s.pktPoisoned loc = true ↔ ∃ j, j < 4 ∧ s.isPoisoned (loc + 32 * j) = true := by
  simp [State.pktPoisoned]

theorem pushPacket_takes {s : State} {q : BitVec 6} {n : Nat} {x : HwQueue} (h : QueueTakes s q n x) (loc : Nat) :
    s.pushPacket q.toNat loc = if s.pktPoisoned loc then (s, 3)
      else if x.pkts.length < 256 then (s.appendPkt n (pktAt s loc), 0) else (s, 1) := by
  unfold State.pushPacket
  dsimp only
  rw [if_neg (by simp [h.share]), fate_takes h]
  by_cases hroom : x.pkts.length < 256
  · simp only [hroom, if_true]
    rw [← h.num]
    rfl
  · simp only [hroom, if_false, if_true]
    rfl

theorem pushPacket_refused {s : State} {q : BitVec 6} (h : ∀ n x, ¬QueueTakes s q n x) (loc : Nat) :
    s.pushPacket q.toNat loc = (s, 2) := by
  unfold State.pushPacket
  dsimp only
  split
  · rfl
  · next hshare => rw [fate_refused h (by simpa using hshare)]

/-! ## Packets in lane order (R245) -/

/-- A queue of the crew's device with packets pushed. -/
def State.withPkts (s : State) (n : Nat) (ps : List Pkt) : State := ps.foldl (fun s p => s.appendPkt n p) s

theorem withPkts_cons (s : State) (n : Nat) (p : Pkt) (ps : List Pkt) : s.withPkts n (p :: ps) = (s.appendPkt n p).withPkts n ps := rfl

theorem withPkts_queues (s : State) (n : Nat) (ps : List Pkt) : ∃ qs, s.withPkts n ps = { s with queues := qs } := by
  induction ps generalizing s with
  | nil => exact ⟨s.queues, rfl⟩
  | cons p ps ih =>
    obtain ⟨qs, h⟩ := ih (s.appendPkt n p)
    exact ⟨qs, h⟩

theorem withPkts_gets (s : State) (n : Nat) {x : HwQueue} (h : x = Map.get {} s.queues n) (ps : List Pkt) : QueueGets s (s.withPkts n ps) n x ps := by
  induction ps generalizing s x with
  | nil => exact ⟨by rw [List.append_nil]; exact h.symm, fun _ _ => rfl⟩
  | cons p ps ih =>
    have hone : { x with pkts := x.pkts ++ [p] } = Map.get {} (s.appendPkt n p).queues n := by
      rw [h]
      exact (MapLaws.get_put_self _ _ _ _).symm
    obtain ⟨hget, hrest⟩ := ih (s.appendPkt n p) hone
    refine ⟨hget.trans ?_, fun m hm => (hrest m hm).trans (MapLaws.find_put_ne _ _ hm)⟩
    simp

theorem takes_append {s : State} {q : BitVec 6} {n : Nat} {x : HwQueue} (h : QueueTakes s q n x) (p : Pkt) :
    QueueTakes (s.appendPkt n p) q n { x with pkts := x.pkts ++ [p] } := by
  refine ⟨h.share, h.num, ?_, h.en, h.devpush, h.priv, h.ctx⟩
  rw [h.rec_]
  exact (MapLaws.get_put_self _ _ _ _).symm

/-- The loop of `pushPackets`, from a state in which the packets so far were taken. -/
def State.pushLoop (q : Nat) (r : State × List Nat × Nat × Nat) (as : List Acc) : State × List Nat × Nat × Nat :=
  as.foldl (fun (r : State × List Nat × Nat × Nat) a =>
    if r.2.2.1 ≠ 0 then r
    else
      let (s, st) := r.1.pushPacket q a.loc
      if st = 0 then (s, r.2.1 ++ [a.lane], 0, 0) else (s, r.2.1, st, a.lane)) r

theorem pushPackets_loop (s : State) (q : Nat) (as : List Acc) : s.pushPackets q as = State.pushLoop q (s, [], 0, 0) as := rfl

theorem pushLoop_takes (as : List Acc) {s : State} {q : BitVec 6} {n : Nat} {x : HwQueue} (h : QueueTakes s q n x) (ok : List Nat)
    (hroom : as.length + x.pkts.length ≤ 256) (hclean : ∀ a ∈ as, s.pktPoisoned a.loc = false) :
    State.pushLoop q.toNat (s, ok, 0, 0) as = (s.withPkts n (as.map fun a => pktAt s a.loc), ok ++ as.map (·.lane), 0, 0) := by
  induction as generalizing s x ok with
  | nil => simp [State.pushLoop, State.withPkts]
  | cons a as ih =>
    have hone : s.pushPacket q.toNat a.loc = (s.appendPkt n (pktAt s a.loc), 0) := by
      rw [pushPacket_takes h, if_neg (by simp [hclean a List.mem_cons_self]), if_pos (by simp at hroom; omega)]
    have hstep : State.pushLoop q.toNat (s, ok, 0, 0) (a :: as) =
        State.pushLoop q.toNat (s.appendPkt n (pktAt s a.loc), ok ++ [a.lane], 0, 0) as := by
      simp only [State.pushLoop, List.foldl_cons, ne_eq, not_true_eq_false, if_false, hone, if_true]
    rw [hstep, ih (takes_append h _) _ (by simp at hroom ⊢; omega) fun b hb => hclean b (List.mem_cons_of_mem _ hb)]
    simp [withPkts_cons]
    rfl

theorem pushLoop_stopped (as : List Acc) (q : Nat) (s : State) (ok : List Nat) {st : Nat} (first : Nat) (h : st ≠ 0) :
    State.pushLoop q (s, ok, st, first) as = (s, ok, st, first) := by
  induction as with
  | nil => rfl
  | cons a as ih =>
    refine Eq.trans ?_ ih
    simp only [State.pushLoop, List.foldl_cons, if_pos h]

/-- The first packet is refused with a status: so are the others. -/
theorem pushPackets_first {s : State} {q : Nat} {a : Acc} {st : Nat} (h : s.pushPacket q a.loc = (s, st)) (hst : st ≠ 0) (rest : List Acc) :
    s.pushPackets q (a :: rest) = (s, [], st, a.lane) := by
  rw [pushPackets_loop]
  refine Eq.trans ?_ (pushLoop_stopped rest q s [] a.lane hst)
  simp only [State.pushLoop, List.foldl_cons, ne_eq, not_true_eq_false, if_false, h, if_neg hst]

/-! ## `dlaunch` and `sdlaunch` (R245) -/

/-- The state in which a launch pushes its packets: the turn, with the walks of its addresses due. -/
def State.launching (s : State) (as : List Acc) : State := s.inTurn.walks as false

theorem launching_me (s : State) (as : List Acc) : (s.launching as).me = { s.me with released := false, committed := s.clk } := s.inTurn_me

theorem launching_shared (s : State) (as : List Acc) : OnlyShared s (s.launching as) :=
  ⟨(OnlyShared.inTurn s).mem, (OnlyShared.inTurn s).others, (OnlyShared.inTurn s).parties, (OnlyShared.inTurn s).rest⟩

theorem launching_takes (s : State) (as : List Acc) (q : BitVec 6) (n : Nat) (x : HwQueue) :
    QueueTakes (s.launching as) q n x ↔ QueueTakes s q n x := by
  have hctx : (s.launching as).me.ctx = s.me.ctx := by rw [launching_me]
  have hpriv : (s.launching as).me.priv = s.me.priv := by rw [launching_me]
  refine ⟨fun h => ⟨h.share, h.num.trans (by rw [hctx]; rfl), h.rec_, h.en, h.devpush, fun hp => hpriv ▸ h.priv hp, h.ctx.trans hctx⟩,
    fun h => ⟨h.share, h.num.trans (by rw [hctx]; rfl), h.rec_, h.en, h.devpush, fun hp => hpriv.trans (h.priv hp), h.ctx.trans hctx.symm⟩⟩

theorem launching_pkt (s : State) (as : List Acc) (loc : Nat) : pktAt (s.launching as) loc = pktAt s loc := by
  unfold pktAt
  rw [launching_me]
  rfl

theorem launching_later {s : State} (h : NoEarlierPush s) (as : List Acc) :
    (s.launching as).pushesUpTo (some s.cur) = s.launching as := pushesUpTo_later (s := s.launching as) h

/-- The end of a turn that changed queues only. -/
theorem queuesTurn {s u : State} (h : OnlyShared s u) (hme : u.me = { s.me with released := false, committed := s.clk })
    (qs : Map HwQueue) (sd : SReg) (v : W64) :
    ∃ t, ({ u with queues := qs } : State).done (fun c => c.setS sd v) = .next t ∧ OnlyDevice s t ∧ TurnGives s t sd v ∧ t.queues = qs := by
  have hdev := h.device qs u.counters u.dirtyMaps u.sheets u.svcReqs
  refine ⟨_, rfl, hdev.onMe _, turnGives_of_me ?_, rfl⟩
  rw [State.onMe_me, State.inTurn_me]
  exact congrArg (fun c : Crew => (c.setS sd v).next) hme

theorem laneReqs_eq (g : W32) (a : Nat → W64) : laneReqs g a = lanesAt g a := rfl

theorem exec_dlaunch {s : State} (hrel : s.me.released = true) (hpush : NoEarlierPush s) {h : Hd} {vx : VReg} {as : List Acc}
    (hreach : Reaches s .read 128 (lanesAt (s.me.gov h) fun l => s.me.vpl vx.toNat l) as) (sd : SReg) (q : BitVec 6) :
    exec (.dlaunch h sd vx q) s =
      let r := (s.launching as).pushPackets q.toNat as
      r.1.done fun c => c.setS sd (BitVec.ofNat 64 ((maskL r.2.1).toNat + r.2.2.1 * 2 ^ 32 + r.2.2.2 * 2 ^ 34)) := by
  simp only [exec, execDlaunch, laneReqs_eq]
  rw [checkAcc_reaches hreach]
  dsimp only
  rw [shared_inTurn hrel]
  have hlater := launching_later hpush as
  unfold State.launching at hlater ⊢
  rw [State.inTurn_cur, hlater]

theorem exec_sdlaunch {s : State} (hrel : s.me.released = true) (hpush : NoEarlierPush s) {sa : SReg} {as : List Acc}
    (hreach : Reaches s .read 128 [(32, s.me.sv sa)] as) (st : BitVec 4) (sd : SReg) (q : BitVec 6) :
    exec (.sdlaunch st sd sa q) s =
      let r := (s.launching as).pushPackets q.toNat as
      r.1.done fun c => c.setS sd (BitVec.ofNat 64 r.2.2.1) := by
  simp only [exec, execSdlaunch]
  rw [checkAcc_reaches hreach]
  dsimp only
  rw [shared_inTurn hrel]
  have hlater := launching_later hpush as
  unfold State.launching at hlater ⊢
  rw [State.inTurn_cur, hlater]

theorem maskL_nil : maskL [] = 0 := BitVec.eq_of_getLsbD_eq fun l hl => by rw [getLsbD_maskL _ hl]; simp

theorem maskL_reached {s : State} {g : W32} {a : Nat → W64} {w : Nat} {need : Need} {as : List Acc} (h : Reaches s need w (lanesAt g a) as) :
    maskL (as.map (·.lane)) = g := by
  obtain ⟨-, hreqs, -⟩ := h
  have hlanes : as.map (·.lane) = (List.range 32).filter fun l => g.getLsbD l := by
    have hfst := congrArg (List.map Prod.fst) hreqs
    simpa [lanesAt, List.map_map, Function.comp_def] using hfst
  refine BitVec.eq_of_getLsbD_eq fun l hl => ?_
  rw [getLsbD_maskL _ hl, hlanes]
  simp [hl]

/-- The clauses of O48 on `dlaunch`. -/
theorem dlaunch_clauses (s : State) (h : Hd) (sd : SReg) (vx : VReg) (q : BitVec 6) (as : List Acc) (hrel : s.me.released = true)
    (hpush : NoEarlierPush s) (hreach : Reaches s .read 128 (lanesAt (s.me.gov h) fun l => s.me.vpl vx.toNat l) as) :
    (∀ n x, QueueTakes s q n x → as.length + x.pkts.length ≤ 256 → (∀ a ∈ as, ∀ j, j < 4 → s.isPoisoned (a.loc + 32 * j) = false) →
      ∃ t, exec (.dlaunch h sd vx q) s = .next t ∧ OnlyDevice s t ∧ TurnGives s t sd ((s.me.gov h).setWidth 64) ∧
        QueueGets s t n x (as.map fun a => pktAt s a.loc)) ∧
    ((∀ n x, ¬QueueTakes s q n x) → ∀ a rest, as = a :: rest →
      ∃ t, exec (.dlaunch h sd vx q) s = .next t ∧ OnlyDevice s t ∧ t.queues = s.queues ∧
        TurnGives s t sd (BitVec.ofNat 64 (2 * 2 ^ 32 + a.lane * 2 ^ 34))) := by
  rw [exec_dlaunch hrel hpush hreach]
  refine ⟨fun n x htakes hroom hclean => ?_, fun hno a rest has => ?_⟩
  · have hall : (s.launching as).pushPackets q.toNat as =
        ((s.launching as).withPkts n (as.map fun a => pktAt s a.loc), as.map (·.lane), 0, 0) := by
      have hloop := pushLoop_takes as ((launching_takes s as q n x).mpr htakes) [] hroom fun a ha => by
        rw [← Bool.not_eq_true, pktPoisoned_iff]
        rintro ⟨j, hj, hbad⟩
        exact absurd ((hclean a ha j hj).symm.trans hbad) (by decide)
      rw [pushPackets_loop]
      simpa only [launching_pkt, List.nil_append] using hloop
    obtain ⟨hget, hothers⟩ := withPkts_gets (s.launching as) n htakes.rec_ (as.map fun a => pktAt s a.loc)
    obtain ⟨qs, hqs⟩ := withPkts_queues (s.launching as) n (as.map fun a => pktAt s a.loc)
    obtain ⟨t, hdone, hdev, hgives, hq⟩ := queuesTurn (launching_shared s as) (launching_me s as) qs sd ((s.me.gov h).setWidth 64)
    refine ⟨t, ?_, hdev, hgives, ?_⟩
    · rw [hall, hqs]
      dsimp only
      rw [maskL_reached hreach]
      simpa [BitVec.setWidth_eq] using hdone
    · rw [hqs] at hget hothers
      exact ⟨by rw [hq]; exact hget, by rw [hq]; exact hothers⟩
  · subst has
    have hno' : ∀ n x, ¬QueueTakes (s.launching (a :: rest)) q n x := fun n x ht => hno n x ((launching_takes _ _ _ _ _).mp ht)
    obtain ⟨t, hdone, hdev, hgives, hq⟩ := queuesTurn (launching_shared s (a :: rest)) (launching_me s (a :: rest)) s.queues sd
      (BitVec.ofNat 64 (2 * 2 ^ 32 + a.lane * 2 ^ 34))
    refine ⟨t, ?_, hdev, hq, hgives⟩
    rw [pushPackets_first (pushPacket_refused hno' a.loc) (by decide)]
    dsimp only
    have hnone : (maskL []).toNat = 0 := congrArg BitVec.toNat maskL_nil
    rw [hnone, Nat.zero_add]
    exact hdone

/-- The clauses of O48 on `sdlaunch`. -/
theorem sdlaunch_clauses (s : State) (st : BitVec 4) (sd sa : SReg) (q : BitVec 6) (a : Acc) (hrel : s.me.released = true)
    (hpush : NoEarlierPush s) (hreach : Reaches s .read 128 [(32, s.me.sv sa)] [a]) :
    ((∀ n x, ¬QueueTakes s q n x) →
      ∃ t, exec (.sdlaunch st sd sa q) s = .next t ∧ OnlyDevice s t ∧ t.queues = s.queues ∧ TurnGives s t sd 2) ∧
    (∀ n x, QueueTakes s q n x →
      ((∃ j, j < 4 ∧ s.isPoisoned (a.loc + 32 * j) = true) →
        ∃ t, exec (.sdlaunch st sd sa q) s = .next t ∧ OnlyDevice s t ∧ t.queues = s.queues ∧ TurnGives s t sd 3) ∧
      ((∀ j, j < 4 → s.isPoisoned (a.loc + 32 * j) = false) → 256 ≤ x.pkts.length →
        ∃ t, exec (.sdlaunch st sd sa q) s = .next t ∧ OnlyDevice s t ∧ t.queues = s.queues ∧ TurnGives s t sd 1) ∧
      ((∀ j, j < 4 → s.isPoisoned (a.loc + 32 * j) = false) → x.pkts.length < 256 →
        ∃ t, exec (.sdlaunch st sd sa q) s = .next t ∧ OnlyDevice s t ∧ TurnGives s t sd 0 ∧ QueueGets s t n x [pktAt s a.loc])) := by
  rw [exec_sdlaunch hrel hpush hreach]
  have hrefused : ∀ status : Nat, status ≠ 0 → (s.launching [a]).pushPacket q.toNat a.loc = (s.launching [a], status) →
      ∃ t, (let r := (s.launching [a]).pushPackets q.toNat [a]
        r.1.done fun c => c.setS sd (BitVec.ofNat 64 r.2.2.1)) = .next t ∧ OnlyDevice s t ∧ t.queues = s.queues ∧
          TurnGives s t sd (BitVec.ofNat 64 status) := fun status hst hone => by
    obtain ⟨t, hdone, hdev, hgives, hq⟩ := queuesTurn (launching_shared s [a]) (launching_me s [a]) s.queues sd (BitVec.ofNat 64 status)
    exact ⟨t, by rw [pushPackets_first hone hst]; exact hdone, hdev, hq, hgives⟩
  have hclean : (∀ j, j < 4 → s.isPoisoned (a.loc + 32 * j) = false) → ¬(s.launching [a]).pktPoisoned a.loc = true := fun h hbad => by
    obtain ⟨j, hj, hbad⟩ := (pktPoisoned_iff _ _).mp hbad
    exact absurd ((h j hj).symm.trans hbad) (by decide)
  refine ⟨fun hno => ?_, fun n x htakes => ?_⟩
  · exact hrefused 2 (by decide) (pushPacket_refused (fun n x ht => hno n x ((launching_takes _ _ _ _ _).mp ht)) a.loc)
  · have hone := pushPacket_takes ((launching_takes s [a] q n x).mpr htakes) a.loc
    refine ⟨fun hbad => ?_, fun hgood hfull => ?_, fun hgood hroom => ?_⟩
    · exact hrefused 3 (by decide) (by rw [hone, if_pos ((pktPoisoned_iff (s.launching [a]) a.loc).mpr hbad)])
    · exact hrefused 1 (by decide) (by rw [hone, if_neg (hclean hgood), if_neg (by omega)])
    · obtain ⟨hget, hothers⟩ := withPkts_gets (s.launching [a]) n htakes.rec_ [pktAt s a.loc]
      obtain ⟨qs, hqs⟩ := withPkts_queues (s.launching [a]) n [pktAt s a.loc]
      obtain ⟨t, hdone, hdev, hgives, hq⟩ := queuesTurn (launching_shared s [a]) (launching_me s [a]) qs sd 0
      have hloop := pushLoop_takes [a] ((launching_takes s [a] q n x).mpr htakes) [] (by simp; omega) fun b hb => by
        rw [List.mem_singleton.mp hb]
        simpa using hclean hgood
      refine ⟨t, ?_, hdev, hgives, ?_⟩
      · rw [pushPackets_loop, hloop]
        simp only [List.map_cons, List.map_nil, launching_pkt, hqs]
        exact hdone
      · rw [hqs] at hget hothers
        exact ⟨by rw [hq]; exact hget, by rw [hq]; exact hothers⟩

end Sys2Proof.Machine
end

section
/-! PROOFS. Relaunches, counters and dirty maps (O48). -/

namespace Sys2Proof.Machine

/-! ## Retained launches (R248, R249) -/

theorem retained_iff (s : State) (n p : Nat) : s.ownRetained s.me.ctx n = some p ↔ Retains s n p := by
  unfold State.ownRetained State.ownCounter
  dsimp only
  by_cases hmine : (s.inShare 4096 n && (s.counter (s.phys s.me.ctx 4096 n)).ctx.toNat == s.me.ctx) = true
  · have hboth : s.inShare 4096 n = true ∧ (s.counter (s.phys s.me.ctx 4096 n)).ctx.toNat = s.me.ctx := by simpa using hmine
    rw [if_pos hmine]
    dsimp only
    constructor
    · intro h
      split at h
      · next hkept =>
        obtain rfl := Option.some.inj h
        exact ⟨hboth.1, rfl, hboth.2, hkept⟩
      · cases h
    · intro h
      obtain ⟨-, rfl, -, hkept⟩ := h
      rw [if_pos hkept]
  · rw [if_neg hmine]
    refine ⟨fun h => absurd (h : none = some p) nofun, fun h => absurd ?_ hmine⟩
    obtain ⟨hshare, rfl, hctx, -⟩ := h
    simp [hshare, hctx]

theorem retained_none {s : State} {n : Nat} (h : ∀ p, ¬Retains s n p) : s.ownRetained s.me.ctx n = none :=
  Option.eq_none_iff_forall_ne_some.mpr fun p hp => h p ((retained_iff s n p).mp hp)

/-- The end of a turn that gives its crew a value. -/
theorem turn_gives (s : State) (sd : SReg) (v : W64) :
    ∃ t, s.inTurn.done (fun c => c.setS sd v) = .next t ∧ OnlyShared s t ∧ TurnGives s t sd v :=
  ⟨_, rfl, (OnlyShared.inTurn s).onMe _, turnGives_of_me (State.onMe_me _ _)⟩

/-- The same, among instructions that may change a device's objects. -/
theorem turn_gives_device (s : State) (sd : SReg) (v : W64) :
    ∃ t, s.inTurn.done (fun c => c.setS sd v) = .next t ∧ OnlyDevice s t ∧ t.queues = s.queues ∧ TurnGives s t sd v := by
  obtain ⟨t, hdone, hdev, hgives, hq⟩ := queuesTurn (OnlyShared.inTurn s) s.inTurn_me s.queues sd v
  exact ⟨t, hdone, hdev, hq, hgives⟩

/-- The queue that a relaunch is pushed to, and whether it takes the request. -/
def State.rlnchFate (s : State) (q : BitVec 6) : PushFate :=
  if s.inShare 64 q.toNat then (Map.get {} s.queues (s.phys s.me.ctx 64 q.toNat)).fate true s.me.priv (some s.me.ctx) else .no

theorem rlnchFate_takes {s : State} {q : BitVec 6} {m : Nat} {x : HwQueue} (h : QueueTakes s q m x) :
    s.rlnchFate q = if x.pkts.length < 256 then .ok else .full :=
  (if_pos h.share).trans (fate_takes h)

theorem rlnchFate_refused {s : State} {q : BitVec 6} (h : ∀ m x, ¬QueueTakes s q m x) : s.rlnchFate q = .no := by
  unfold State.rlnchFate
  split
  · next hshare => exact fate_refused h hshare
  · rfl

/-- The packet of a relaunch request (R249). -/
def State.rlnchPkt (s : State) (n : Nat) : Pkt :=
  { data := BitVec.ofNat 1024 (n * 2 ^ 320 + 1), age := s.clk, stamp := s.me.relTs, byRlnch := true }

theorem rlnchPkt_eq (s : State) (n : Nat) :
    s.rlnchPkt n = { pktAt s 0 with data := BitVec.ofNat 1024 (1 + n * 2 ^ 320), byRlnch := true } := by
  unfold State.rlnchPkt pktAt
  rw [Nat.add_comm]

theorem exec_rlnch {s : State} (hrel : s.me.released = true) (hpush : NoEarlierPush s) (st : BitVec 4) (sd sa : SReg) (q : BitVec 6) :
    exec (.rlnch st sd sa q) s =
      match s.ownRetained s.me.ctx ((s.me.sv sa).toNat % 4096), s.rlnchFate q with
      | none, _ => s.inTurn.done fun c => c.setS sd 2
      | _, .no => s.inTurn.done fun c => c.setS sd 2
      | some p, f =>
        if s.relaunchPending s.me.ctx p then s.inTurn.done fun c => c.setS sd 3
        else if f = .full then s.inTurn.done fun c => c.setS sd 1
        else (s.inTurn.appendPkt (s.phys s.me.ctx 64 q.toNat) (s.rlnchPkt ((s.me.sv sa).toNat % 4096))).done fun c => c.setS sd 0 := by
  have hlater : s.inTurn.pushesUpTo (some s.cur) = s.inTurn := pushesUpTo_later (s := s.inTurn) hpush
  simp only [exec, execRlnch]
  rw [shared_inTurn hrel, State.inTurn_cur, hlater, State.inTurn_me]
  rfl

/-- The clause of O48 on `rlnch`. -/
theorem rlnch_clause (s : State) (st : BitVec 4) (sd sa : SReg) (q : BitVec 6) (hrel : s.me.released = true) (hpush : NoEarlierPush s) :
    let n := (s.me.sv sa).toNat % 4096
    (((∀ p, ¬Retains s n p) ∨ ∀ m x, ¬QueueTakes s q m x) →
      ∃ t, exec (.rlnch st sd sa q) s = .next t ∧ OnlyDevice s t ∧ t.queues = s.queues ∧ TurnGives s t sd 2) ∧
    (∀ p m x, Retains s n p → QueueTakes s q m x →
      (s.relaunchPending s.me.ctx p = true →
        ∃ t, exec (.rlnch st sd sa q) s = .next t ∧ OnlyDevice s t ∧ t.queues = s.queues ∧ TurnGives s t sd 3) ∧
      (s.relaunchPending s.me.ctx p = false → 256 ≤ x.pkts.length →
        ∃ t, exec (.rlnch st sd sa q) s = .next t ∧ OnlyDevice s t ∧ t.queues = s.queues ∧ TurnGives s t sd 1) ∧
      (s.relaunchPending s.me.ctx p = false → x.pkts.length < 256 →
        ∃ t, exec (.rlnch st sd sa q) s = .next t ∧ OnlyDevice s t ∧ TurnGives s t sd 0 ∧
          QueueGets s t m x [{ pktAt s 0 with data := BitVec.ofNat 1024 (1 + n * 2 ^ 320), byRlnch := true }])) := by
  intro n
  rw [exec_rlnch hrel hpush]
  refine ⟨fun hno => ?_, fun p m x hkept htakes => ?_⟩
  · obtain hno | hno := hno
    · rw [retained_none hno]
      exact turn_gives_device s sd 2
    · rw [rlnchFate_refused hno]
      cases s.ownRetained s.me.ctx ((s.me.sv sa).toNat % 4096) <;> exact turn_gives_device s sd 2
  · rw [(retained_iff s n p).mpr hkept, rlnchFate_takes htakes]
    refine ⟨fun hp => ?_, fun hp hfull => ?_, fun hp hroom => ?_⟩
    · by_cases hroom : x.pkts.length < 256
      · rw [if_pos hroom]
        dsimp only
        rw [if_pos hp]
        exact turn_gives_device s sd 3
      · rw [if_neg hroom]
        dsimp only
        rw [if_pos hp]
        exact turn_gives_device s sd 3
    · rw [if_neg (by omega)]
      dsimp only
      rw [if_neg (by simp [hp]), if_pos rfl]
      exact turn_gives_device s sd 1
    · rw [if_pos hroom]
      dsimp only
      rw [if_neg (by simp [hp]), if_neg (by decide), rlnchPkt_eq, ← htakes.num]
      obtain ⟨hget, hothers⟩ := withPkts_gets s.inTurn m htakes.rec_
        [{ pktAt s 0 with data := BitVec.ofNat 1024 (1 + n * 2 ^ 320), byRlnch := true }]
      obtain ⟨t, hdone, hdev, hgives, hq⟩ := queuesTurn (OnlyShared.inTurn s) s.inTurn_me
        (s.inTurn.withPkts m [{ pktAt s 0 with data := BitVec.ofNat 1024 (1 + n * 2 ^ 320), byRlnch := true }]).queues sd 0
      exact ⟨t, hdone, hdev, hgives, by rw [hq]; exact hget, by rw [hq]; exact hothers⟩

theorem exec_trrec {s : State} (hrel : s.me.released = true) (st : BitVec 4) (sd sa : SReg) :
    exec (.trrec st sd sa) s = match s.ownRetained s.me.ctx ((s.me.sv sa).toNat % 4096) with
      | none => s.inTurn.done fun c => c.setS sd 2
      | some p => if s.relaunchPending s.me.ctx p then s.inTurn.done fun c => c.setS sd 3
        else (s.inTurn.onCounter p fun x => { x with retained := none }).done fun c => c.setS sd 0 := by
  simp only [exec, execTrrec]
  rw [shared_inTurn hrel, State.inTurn_me]
  rfl

/-- The clause of O48 on `trrec`. -/
theorem trrec_clause (s : State) (st : BitVec 4) (sd sa : SReg) (hrel : s.me.released = true) :
    let n := (s.me.sv sa).toNat % 4096
    ((∀ p, ¬Retains s n p) → ∃ t, exec (.trrec st sd sa) s = .next t ∧ OnlyShared s t ∧ TurnGives s t sd 2) ∧
    (∀ p, Retains s n p →
      (s.relaunchPending s.me.ctx p = true → ∃ t, exec (.trrec st sd sa) s = .next t ∧ OnlyShared s t ∧ TurnGives s t sd 3) ∧
      (s.relaunchPending s.me.ctx p = false → ∃ t, exec (.trrec st sd sa) s = .next t ∧ OnlyDevice s t ∧ TurnGives s t sd 0 ∧
        t.counter p = { s.counter p with retained := none } ∧ ∀ m, m ≠ p → Map.find? t.counters m = Map.find? s.counters m)) := by
  intro n
  rw [exec_trrec hrel]
  refine ⟨fun hno => ?_, fun p hkept => ?_⟩
  · rw [retained_none hno]
    exact turn_gives s sd 2
  · rw [(retained_iff s n p).mpr hkept]
    refine ⟨fun hp => ?_, fun hp => ?_⟩
    · dsimp only
      rw [if_pos hp]
      exact turn_gives s sd 3
    · dsimp only
      rw [if_neg (by simp [hp])]
      generalize hu : s.inTurn.onCounter p (fun x => { x with retained := none }) = u
      have hdev : OnlyDevice s u := by
        rw [← hu]
        exact (OnlyShared.inTurn s).device s.queues _ s.dirtyMaps s.sheets s.svcReqs
      have hme : u.me = s.inTurn.me := by rw [← hu]; rfl
      refine ⟨_, rfl, hdev.onMe _, turnGives_of_me ?_, ?_, fun m hm => ?_⟩
      · rw [State.onMe_me, hme]
      · rw [← hu]
        exact MapLaws.get_put_self _ _ _ _
      · rw [← hu]
        exact MapLaws.find_put_ne _ _ hm

/-! ## Counters (R247) -/

theorem toNat_append {v w : Nat} (x : BitVec v) (y : BitVec w) : (x ++ y).toNat = x.toNat * 2 ^ w + y.toNat := by
  rw [BitVec.toNat_append, ← Nat.shiftLeft_add_eq_or_of_lt y.isLt, Nat.shiftLeft_eq]

/-- A counter's word, by its fields. -/
theorem counter_word (c : Counter) : c.word = BitVec.ofBool c.done ++ BitVec.ofBool c.canc ++ 0#14 ++ c.endv ++ c.count := by
  refine BitVec.eq_of_toNat_eq ?_
  have hcount := c.count.isLt
  have hend := c.endv.isLt
  have hdone := Bool.toNat_lt c.done
  have hcanc := Bool.toNat_lt c.canc
  simp only [Counter.word, toNat_append, BitVec.toNat_ofNat, BitVec.toNat_ofBool, Nat.zero_mod]
  omega

/-- Whether a counter that `cntrd` names is one of the crew's context. -/
def State.ownsCounter (s : State) (n : Nat) : Prop :=
  s.inShare 4096 n = true ∧ (s.counter (s.phys s.me.ctx 4096 n)).ctx.toNat = s.me.ctx

theorem ownCounter_some {s : State} {n : Nat} (h : s.ownsCounter n) : s.ownCounter s.me.ctx n = some (s.phys s.me.ctx 4096 n) :=
  if_pos (by simp [h.1, h.2])

theorem ownCounter_none {s : State} {n : Nat} (h : ¬s.ownsCounter n) : s.ownCounter s.me.ctx n = none :=
  if_neg fun hyes => h (by simpa [State.ownsCounter] using hyes)

/-- A read of what an object keeps for a crew that does not wait its turn: what its end leaves, with or without an acquire of the
object's clocks. -/
theorem keeps_reads {s : State} (why : Nat) (sd : SReg) (v : W64) (acq : Bool) (ch : Clocks) :
    ∃ t, (if acq then (s.always s.me.party why).acquireKept s.cur .dev ch else s.always s.me.party why).done (fun c => c.setS sd v) = .next t ∧
      OnlyAccess s t ∧ (t.party s.me.party).trace.why = (s.party s.me.party).trace.why ||| (1 <<< why) ∧
      t.me = { s.me with s := t.me.s, seen := t.me.seen, widx := s.me.widx + 1 } ∧ (∀ r, r ≠ sd → t.me.sv r = s.me.sv r) ∧
      t.me.seen = (if acq then joinStamps s.me.seen ch else s.me.seen) ∧ (t.me.sv sd = if sd = 0 then 0 else v) ∧
      (t.core s.myCore).ts = if acq then keptAcquire s ch else (s.core s.myCore).ts := by
  have hparty : ((s.always s.me.party why).party s.me.party).trace.why = (s.party s.me.party).trace.why ||| (1 <<< why) :=
    congrArg (fun p : Party => p.trace.why) (State.onParty_party_self _ _ _)
  generalize hu : (if acq then (s.always s.me.party why).acquireKept s.cur .dev ch else s.always s.me.party why) = u
  have hfacts : OnlyAccess s u ∧ u.me = { s.me with seen := if acq then joinStamps s.me.seen ch else s.me.seen } ∧
      u.parties = (s.always s.me.party why).parties ∧ (u.core s.myCore).ts = if acq then keptAcquire s ch else (s.core s.myCore).ts := by
    rw [← hu]
    cases acq with
    | false => exact ⟨⟨fun _ => rfl, fun _ _ => rfl, rfl⟩, rfl, rfl, rfl⟩
    | true =>
      rw [if_pos rfl, if_pos rfl, if_pos rfl, acquireKept_eq _ _ (by decide)]
      refine ⟨⟨fun _ => rfl, fun j hj => MapLaws.find_put_ne _ _ hj, rfl⟩, State.onCrew_crew_self _ s.cur _, rfl, ?_⟩
      rw [State.onCrew_eq, State.putCrew_core, State.myCore, State.onCore_core_self]
      rfl
  obtain ⟨haccess, hme, hparties, hts⟩ := hfacts
  have hcur : u.cur = s.cur := (congrArg State.cur haccess.rest :)
  have htme : (u.onMe fun c => (c.setS sd v).next).me = (u.me.setS sd v).next := State.onMe_me _ _
  refine ⟨_, rfl, ⟨haccess.mem, fun j hj => (MapLaws.find_put_ne _ _ (hcur ▸ hj)).trans (haccess.others j hj), haccess.rest⟩, ?_, ?_,
    fun r hr => ?_, ?_, ?_, hts⟩
  · exact (congrArg (fun ps => (Map.get ({} : Party) ps s.me.party).trace.why) hparties).trans hparty
  · rw [htme, Crew.setS_rest, hme]
    rfl
  · rw [htme]
    exact (Crew.sv_setS_ne _ _ hr).trans (by rw [hme]; rfl)
  · rw [htme, Crew.setS_rest, hme]
    rfl
  · rw [htme]
    exact Crew.sv_setS_self _ _ _

theorem cntrd_reads (s : State) (st : BitVec 4) (sd sa : SReg) :
    let n := (s.me.sv sa).toNat % 4096
    let p := s.phys s.me.ctx 4096 n
    ∃ t, exec (.cntrd st sd sa) s = .next t ∧ OnlyAccess s t ∧ (t.party s.me.party).trace.why.getLsbD 0 = true ∧
      let mine := s.inShare 4096 n = true ∧ (s.counter p).ctx.toNat = s.me.ctx
      t.me = { s.me with s := t.me.s, seen := t.me.seen, widx := s.me.widx + 1 } ∧ (∀ r, r ≠ sd → t.me.sv r = s.me.sv r) ∧
      t.me.seen = (if mine ∧ (s.counter p).done = true then joinStamps s.me.seen (s.counter p).stamps else s.me.seen) ∧
      t.me.sv sd = (if sd = 0 then 0 else if mine then
        BitVec.ofBool (s.counter p).done ++ BitVec.ofBool (s.counter p).canc ++ 0#14 ++ (s.counter p).endv ++ (s.counter p).count else 0) ∧
      (t.core s.myCore).ts = if mine ∧ (s.counter p).done = true then
        keptAcquire s (s.counter p).stamps else (s.core s.myCore).ts := by
  intro n p
  have hexec : exec (.cntrd st sd sa) s = match s.ownCounter s.me.ctx n with
      | none => (s.always s.me.party 0).done fun c => c.setS sd 0
      | some n => (if (s.counter n).done then (s.always s.me.party 0).acquireKept s.cur .dev (s.counter n).stamps else s.always s.me.party 0).done
          fun c => c.setS sd (s.counter n).word := rfl
  rw [hexec]
  by_cases hmine : s.ownsCounter n
  · rw [ownCounter_some hmine]
    obtain ⟨t, hdone, haccess, hwhy, hme, hregs, hseen, hval, hts⟩ := keeps_reads (s := s) 0 sd (s.counter p).word (s.counter p).done (s.counter p).stamps
    refine ⟨t, hdone, haccess, by rw [hwhy]; simp, hme, hregs, ?_, ?_, ?_⟩
    · rw [hseen]
      exact if_congr (by simp [hmine.1, hmine.2, p]) rfl rfl
    · rw [hval, counter_word]
      exact if_congr Iff.rfl rfl (if_pos hmine).symm
    · rw [hts]
      exact if_congr (by simp [hmine.1, hmine.2, p]) rfl rfl
  · rw [ownCounter_none hmine]
    obtain ⟨t, hdone, haccess, hwhy, hme, hregs, hseen, hval, hts⟩ := keeps_reads (s := s) 0 sd 0 false []
    have hno : ¬((s.inShare 4096 n = true ∧ (s.counter p).ctx.toNat = s.me.ctx) ∧ (s.counter p).done = true) := fun h => hmine h.1
    refine ⟨t, hdone, haccess, by rw [hwhy]; simp, hme, hregs, ?_, ?_, ?_⟩
    · rw [hseen, if_neg hno]
      rfl
    · rw [hval]
      exact if_congr Iff.rfl rfl (if_neg hmine).symm
    · rw [hts, if_neg hno]
      rfl

/-! ## Dirty maps (R250) -/

/-- The state in which an instruction that fences at .dev takes effect. -/
def State.inFence (s : State) : State := s.inTurn.acquire s.cur .dev s.me.readWts s.me.readSeen

theorem fenced_inFence {s : State} (h : s.me.released = true) (k : State → Out) : s.fenced .dev k = k s.inFence := by
  unfold State.fenced
  rw [shared_inTurn h, State.inTurn_me]
  rfl

theorem inFence_me (s : State) :
    s.inFence.me = { s.me with released := false, committed := s.clk, seen := joinStamps s.me.seen s.me.readSeen } := by
  have hme : s.inFence.me = { s.inTurn.me with seen := joinStamps s.inTurn.me.seen s.me.readSeen } := State.onCrew_crew_self _ s.cur _
  rw [hme, State.inTurn_me]

theorem inFence_shared (s : State) : OnlyShared s s.inFence :=
  ((OnlyShared.inTurn s).onCore (coreOfKey s.cur) fun c => { c with
    ts := s.inTurn.acquireTs (coreOfKey s.cur) .dev (stampMax s.me.readWts (s.inTurn.keptTs (coreOfKey s.cur) s.me.readSeen)) }).onMe
      fun c => { c with seen := joinStamps c.seen s.me.readSeen }

theorem inFence_ownMap (s : State) (m : Nat) : s.inFence.ownMap s.inFence.me.ctx m = s.ownMap s.me.ctx m := by
  rw [inFence_me]
  rfl

theorem ownMap_owned {s : State} {m n : Nat} {x : DirtyMap} (h : OwnsMap s m n x) : s.ownMap s.me.ctx m = some (n, x) := by
  obtain ⟨hshare, rfl, rfl, hen, hctx⟩ := h
  exact if_pos (by rw [hshare, hen, Bool.true_and, Bool.true_and]; exact beq_iff_eq.mpr hctx)

theorem ownMap_none {s : State} {m : Nat} (h : ∀ n x, ¬OwnsMap s m n x) : s.ownMap s.me.ctx m = none := by
  refine if_neg fun hyes => ?_
  simp only [Bool.and_eq_true, beq_iff_eq] at hyes
  obtain ⟨⟨hshare, hen⟩, hctx⟩ := hyes
  exact h _ _ ⟨hshare, rfl, rfl, hen, hctx⟩

theorem turnTakes_of_me {s t : State} {sd : SReg} {v : W64} (h : t.me = (s.inFence.me.setS sd v).next) : TurnTakes s t sd v s.me.readSeen := by
  rw [inFence_me] at h
  have hrest : t.me = { s.me.turned s.clk with s := t.me.s, seen := joinStamps s.me.seen s.me.readSeen } := by
    rw [h, Crew.setS_rest]
    rfl
  have hivals : t.me.ivals = s.me.ivals := by rw [hrest]; rfl
  refine ⟨?_, fun r hr => hivals ▸ hr, fun r hr => ?_, ?_⟩
  · rw [hivals]
    exact hrest
  · rw [h]
    exact Crew.sv_setS_ne _ _ hr
  · rw [h]
    exact Crew.sv_setS_self _ _ _

/-- The end of a fence that gives its crew a value. -/
theorem fence_gives (s : State) (sd : SReg) (v : W64) :
    ∃ t, s.inFence.done (fun c => c.setS sd v) = .next t ∧ OnlyShared s t ∧ t.dirtyMaps = s.dirtyMaps ∧ TurnTakes s t sd v s.me.readSeen :=
  ⟨_, rfl, (inFence_shared s).onMe _, rfl, turnTakes_of_me (State.onMe_me _ _)⟩

theorem fence_gives_device (s : State) (maps : Map DirtyMap) (sd : SReg) (v : W64) :
    ∃ t, ({ s.inFence with dirtyMaps := maps } : State).done (fun c => c.setS sd v) = .next t ∧ OnlyDevice s t ∧ t.dirtyMaps = maps ∧
      TurnTakes s t sd v s.me.readSeen :=
  ⟨_, rfl, ((inFence_shared s).device s.inFence.queues s.inFence.counters maps s.inFence.sheets s.inFence.svcReqs).onMe _, rfl,
    turnTakes_of_me (State.onMe_me _ _)⟩

theorem dmclr_clause (s : State) (st : BitVec 4) (sd : SReg) (m : BitVec 8) (hrel : s.me.released = true) :
    ((∀ n x, ¬OwnsMap s m.toNat n x) →
      ∃ t, exec (.dmclr st sd m) s = .next t ∧ OnlyDevice s t ∧ t.dirtyMaps = s.dirtyMaps ∧ TurnTakes s t sd 0xFFFFFFFFFFFFFFFF s.me.readSeen) ∧
    (∀ n x, OwnsMap s m.toNat n x →
      ∃ t, exec (.dmclr st sd m) s = .next t ∧ OnlyDevice s t ∧ TurnTakes s t sd ((x.epoch + 1).setWidth 64) s.me.readSeen ∧
        Map.get {} t.dirtyMaps n = { x with bits := [], epoch := x.epoch + 1 } ∧
        ∀ j, j ≠ n → Map.find? t.dirtyMaps j = Map.find? s.dirtyMaps j) := by
  simp only [exec, execDmclr]
  rw [fenced_inFence hrel, inFence_ownMap]
  refine ⟨fun hno => ?_, fun n x howns => ?_⟩
  · rw [ownMap_none hno]
    exact fence_gives_device s s.dirtyMaps sd _
  · rw [ownMap_owned howns]
    obtain ⟨t, hdone, hdev, hmaps, htakes⟩ :=
      fence_gives_device s (Map.put s.dirtyMaps n { x with bits := [], epoch := x.epoch + 1 }) sd ((x.epoch + 1).setWidth 64)
    refine ⟨t, hdone, hdev, htakes, ?_, fun j hj => ?_⟩
    · rw [hmaps]
      exact MapLaws.get_put_self _ _ _ _
    · rw [hmaps]
      exact MapLaws.find_put_ne _ _ hj

/-- The parcels that a query counts: those outside what the map tracks, and those whose bit is set. -/
theorem dirty_parcels {x : DirtyMap} (hin : ∀ p ∈ x.bits, x.base.toNat ≤ p ∧ p ≤ x.base.toNat + x.len.toNat) (lo hi : Nat) :
    ((List.range (hi + 1)).filter fun p => decide (lo ≤ p) && decide (p < x.base.toNat ∨ x.base.toNat + x.len.toNat < p ∨ p ∈ x.bits)).toFinset =
      (Finset.Icc lo hi \ Finset.Icc x.base.toNat (x.base.toNat + x.len.toNat)) ∪
        (x.bits.filter fun p => decide (lo ≤ p) && decide (p ≤ hi)).toFinset := by
  ext p
  simp only [List.mem_range, Finset.mem_union, Finset.mem_sdiff, Finset.mem_Icc, List.mem_toFinset, List.mem_filter,
    Bool.and_eq_true, decide_eq_true_eq]
  by_cases hp : p ∈ x.bits
  · have := hin p hp
    simp only [hp, or_true, and_true, true_and]
    omega
  · simp only [hp, or_false, false_and]
    omega

/-- What a query counts (R250). -/
theorem count_dirty {x : DirtyMap} (hnodup : x.bits.Nodup) (hin : ∀ p ∈ x.bits, x.base.toNat ≤ p ∧ p ≤ x.base.toNat + x.len.toNat) (lo hi : Nat) :
    ((List.range (hi + 1)).filter fun p => decide (lo ≤ p) &&
      decide (p < x.base.toNat ∨ x.base.toNat + x.len.toNat < p ∨ p ∈ x.bits)).length = x.count lo hi := by
  have hdisj : Disjoint (Finset.Icc lo hi \ Finset.Icc x.base.toNat (x.base.toNat + x.len.toNat))
      (x.bits.filter fun p => decide (lo ≤ p) && decide (p ≤ hi)).toFinset := by
    refine Finset.disjoint_left.mpr fun p hp hbit => ?_
    obtain ⟨hbit, -⟩ := List.mem_filter.mp (List.mem_toFinset.mp hbit)
    exact (Finset.mem_sdiff.mp hp).2 (Finset.mem_Icc.mpr (hin p hbit))
  have hinter : Finset.Icc x.base.toNat (x.base.toNat + x.len.toNat) ∩ Finset.Icc lo hi =
      Finset.Icc (max lo x.base.toNat) (min hi (x.base.toNat + x.len.toNat)) := by
    ext p
    simp only [Finset.mem_inter, Finset.mem_Icc]
    omega
  have hcard := congrArg Finset.card (dirty_parcels hin lo hi)
  rw [List.toFinset_card_of_nodup (List.nodup_range.filter _), Finset.card_union_of_disjoint hdisj, Finset.card_sdiff, hinter, List.toFinset_card_of_nodup (hnodup.filter _),
    Nat.card_Icc, Nat.card_Icc] at hcard
  unfold DirtyMap.count
  exact hcard

theorem dmq_clause (s : State) (st : BitVec 4) (sd sa sb : SReg) (m : BitVec 8) (hrel : s.me.released = true) :
    ((∀ n x, ¬OwnsMap s m.toNat n x) →
      ∃ t, exec (.dmq st sd sa sb m) s = .next t ∧ OnlyShared s t ∧ TurnTakes s t sd 0xFFFFFFFFFFFFFFFF s.me.readSeen) ∧
    (∀ n x, OwnsMap s m.toNat n x → x.bits.Nodup → (∀ p ∈ x.bits, x.base.toNat ≤ p ∧ p ≤ x.base.toNat + x.len.toNat) →
      let a := (s.me.sv sa).toNat
      let b := (s.me.sv sb).toNat
      let hit := fun p => decide (p < x.base.toNat ∨ x.base.toNat + x.len.toNat < p ∨ p ∈ x.bits)
      ∃ t, exec (.dmq st sd sa sb m) s = .next t ∧ OnlyShared s t ∧
        TurnTakes s t sd (if b = 0 then 0 else BitVec.ofNat 64
          (((List.range ((a + b - 1) / 4096 + 1)).filter fun p => decide (a / 4096 ≤ p) && hit p).length)) s.me.readSeen) := by
  have hsv : ∀ r, s.inFence.me.sv r = s.me.sv r := fun r => by rw [inFence_me]; rfl
  simp only [exec, execDmq]
  rw [fenced_inFence hrel, inFence_ownMap]
  refine ⟨fun hno => ?_, fun n x howns hnodup hin => ?_⟩
  · rw [ownMap_none hno]
    obtain ⟨t, hdone, honly, -, htakes⟩ := fence_gives s sd 0xFFFFFFFFFFFFFFFF
    exact ⟨t, hdone, honly, htakes⟩
  · rw [ownMap_owned howns, count_dirty hnodup hin]
    refine ⟨_, rfl, (inFence_shared s).onMe _, turnTakes_of_me ?_⟩
    rw [State.onMe_me]
    dsimp only
    rw [hsv, hsv]

end Sys2Proof.Machine
end

section
/-! PROOFS. What the memory system's steps leave alone: the crews, the objects and the counters (R258 to R266). -/

namespace Sys2Proof.Machine

/-- A state that differs from another only in memory, its directory, its records and what is under way to them. -/
structure MemSide (s t : State) : Prop where
  rest : { t with
    mem := s.mem, stale := s.stale, poison := s.poison, dir := s.dir, offs := s.offs, relLines := s.relLines, agentSeen := s.agentSeen
    resv := s.resv, lastNum := s.lastNum, recs := s.recs, dies := s.dies, inject := s.inject, ckpt := s.ckpt, swCnt := s.swCnt
    agenda := s.agenda, heldReqs := s.heldReqs, reports := s.reports } = s

theorem MemSide.refl (s : State) : MemSide s s := ⟨rfl⟩

theorem MemSide.trans {s t u : State} (h : MemSide s t) (h' : MemSide t u) : MemSide s u := by
  refine ⟨Eq.trans ?_ h.rest⟩
  exact congrArg (fun x : State => { x with
    mem := s.mem, stale := s.stale, poison := s.poison, dir := s.dir, offs := s.offs, relLines := s.relLines, agentSeen := s.agentSeen
    resv := s.resv, lastNum := s.lastNum, recs := s.recs, dies := s.dies, inject := s.inject, ckpt := s.ckpt, swCnt := s.swCnt
    agenda := s.agenda, heldReqs := s.heldReqs, reports := s.reports }) h'.rest

theorem MemSide.ite {p : Prop} [Decidable p] {s t u : State} (ht : MemSide s t) (hu : MemSide s u) : MemSide s (if p then t else u) := by
  split
  · exact ht
  · exact hu

theorem MemSide.foldl {α : Type} {f : State → α → State} (hf : ∀ s x, MemSide s (f s x)) (l : List α) (s : State) :
    MemSide s (l.foldl f s) :=
  foldl_keeps (P := MemSide s) (fun t x h => h.trans (hf t x)) l (MemSide.refl s)

section
variable {s t : State} (h : MemSide s t)
include h

theorem MemSide.crews : t.crews = s.crews := (congrArg State.crews h.rest :)
theorem MemSide.counters : t.counters = s.counters := (congrArg State.counters h.rest :)
theorem MemSide.parties : t.parties = s.parties := (congrArg State.parties h.rest :)
theorem MemSide.cores : t.cores = s.cores := (congrArg State.cores h.rest :)
theorem MemSide.queues : t.queues = s.queues := (congrArg State.queues h.rest :)
theorem MemSide.cur : t.cur = s.cur := (congrArg State.cur h.rest :)
theorem MemSide.clk : t.clk = s.clk := (congrArg State.clk h.rest :)

end

/-! ## Messages of the directory -/

/-- A state that differs from another only in what requests to the directory change: its spans and their copies, the data under way and
the records of intervals. -/
structure DirSide (s t : State) : Prop where
  rest : { t with
    mem := s.mem, dir := s.dir, offs := s.offs, agentSeen := s.agentSeen, resv := s.resv, lastNum := s.lastNum, recs := s.recs
    dies := s.dies, inject := s.inject, ckpt := s.ckpt, swCnt := s.swCnt, agenda := s.agenda } = s

theorem DirSide.refl (s : State) : DirSide s s := ⟨rfl⟩

theorem DirSide.trans {s t u : State} (h : DirSide s t) (h' : DirSide t u) : DirSide s u := by
  refine ⟨Eq.trans ?_ h.rest⟩
  exact congrArg (fun x : State => { x with
    mem := s.mem, dir := s.dir, offs := s.offs, agentSeen := s.agentSeen, resv := s.resv, lastNum := s.lastNum, recs := s.recs
    dies := s.dies, inject := s.inject, ckpt := s.ckpt, swCnt := s.swCnt, agenda := s.agenda }) h'.rest

theorem DirSide.ite {p : Prop} [Decidable p] {s t u : State} (ht : DirSide s t) (hu : DirSide s u) : DirSide s (if p then t else u) := by
  split
  · exact ht
  · exact hu

theorem DirSide.foldl {α : Type} {f : State → α → State} (hf : ∀ s x, DirSide s (f s x)) (l : List α) (s : State) :
    DirSide s (l.foldl f s) :=
  foldl_keeps (P := DirSide s) (fun t x h => h.trans (hf t x)) l (DirSide.refl s)

theorem DirSide.memSide {s t : State} (h : DirSide s t) : MemSide s t := by
  have hrest := congrArg (fun x : State => { x with
    stale := s.stale, poison := s.poison, relLines := s.relLines, heldReqs := s.heldReqs, reports := s.reports }) h.rest
  exact ⟨hrest⟩

section
variable (s : State)

theorem DirSide.keepFor (loc d : Nat) : DirSide s (s.keepFor loc d) := by
  unfold State.keepFor
  dsimp only
  split
  · exact ⟨rfl⟩
  · split <;> exact ⟨rfl⟩

theorem DirSide.keepParcel (loc : Nat) : DirSide s (s.keepParcel loc) := DirSide.foldl (fun s d => DirSide.keepFor s loc d) _ s

theorem DirSide.agentMeets (a line : Nat) : DirSide s (s.agentMeets a line) := by
  unfold State.agentMeets
  dsimp only
  split <;> exact ⟨rfl⟩

theorem DirSide.pass (port line f l dst : Nat) : DirSide s (s.pass port line f l dst) := by
  unfold State.pass
  dsimp only
  split <;> exact ⟨rfl⟩

theorem DirSide.newSource (line f l dst : Nat) (stay : List Nat) : DirSide s (s.newSource line f l dst stay) := ⟨rfl⟩
theorem DirSide.sendRec (r : ChkRec) : DirSide s (s.sendRec r) := ⟨rfl⟩
theorem DirSide.sendClose (d : DirSpan) : DirSide s (s.sendClose d) := ⟨rfl⟩
theorem DirSide.sendOpen (line f l : Nat) (num : BitVec 24) (o : Option Nat) : DirSide s (s.sendOpen line f l num o) := ⟨rfl⟩
theorem DirSide.setDir (line f l : Nat) (new : Option DirSpan) : DirSide s (s.setDir line f l new) := ⟨rfl⟩
theorem DirSide.pushAll (is : List Instr) : DirSide s (s.pushAll is) := ⟨rfl⟩
theorem DirSide.push (i : Instr) : DirSide s (s.push i) := ⟨rfl⟩

theorem DirSide.lose (a line f l : Nat) (by_ : Option Nat) : DirSide s (s.lose a line f l by_) := DirSide.ite ⟨rfl⟩ ⟨rfl⟩

theorem DirSide.loseAll (ls : List Nat) (line f l : Nat) (by_ : Option Nat) : DirSide s (ls.foldl (fun s b => s.lose b line f l by_) s) :=
  DirSide.foldl (fun s b => DirSide.lose s b line f l by_) ls s

theorem DirSide.homeInval (line f l : Nat) (by_ : Option Nat) : DirSide s (s.homeInval line f l by_) := by
  refine DirSide.foldl (fun s d => ?_) _ s
  have hclose : DirSide s (if d.owner.isSome then (s.sendClose d).pass (portOf line d.owner) line d.f d.l 63 else s) :=
    DirSide.ite ((DirSide.sendClose s d).trans (DirSide.pass _ _ _ _ _ _)) (DirSide.refl s)
  exact ((hclose.trans (DirSide.newSource _ _ _ _ _ _)).trans (DirSide.loseAll _ _ _ _ _ _)).trans (DirSide.setDir _ _ _ _ _)

theorem DirSide.homeOpen (ds : List DirSpan) : DirSide s (s.homeOpen ds) :=
  DirSide.foldl (fun s _ => DirSide.ite (DirSide.sendOpen s _ _ _ _ _) (DirSide.refl s)) ds s

end

/-! ## Home writes -/

section
variable (s : State)

theorem MemSide.report (r : Report) : MemSide s (s.report r) := ⟨rfl⟩
theorem MemSide.holdReq (r : HeldReq) : MemSide s (s.holdReq r) := ⟨rfl⟩
theorem MemSide.perform (cs : List Host.Cell) : MemSide s (s.perform cs) := ⟨rfl⟩
theorem MemSide.carry (lines : List Nat) (ch : Clocks) : MemSide s (s.carry lines ch) := MemSide.ite ⟨rfl⟩ ⟨rfl⟩
theorem MemSide.dirty (cs : List Host.Cell) (lctr : Option Nat) : MemSide s (s.dirty cs lctr) := ⟨rfl⟩

end

/-- A home write before its monitors' triggers. -/
def State.homeBytes (s : State) (cs : List Host.Cell) (by_ : Option Nat) (ch : Clocks) : State :=
  let sp := spansOf cs
  let s := s.carry (sp.map (·.1)) ch
  let ds := s.dir.filter fun d => sp.any fun x => x.1 == d.line && overlaps x.2.1 x.2.2 d.f d.l
  let s := sp.foldl (fun s x => (s.keepParcel (128 * x.1)).homeInval x.1 x.2.1 x.2.2 by_) s
  sp.foldl (fun s x => s.dropWatchers (fun k => some k != by_) x.1 x.2.1 x.2.2) ((s.homeOpen ds).perform cs)

theorem homeCells_parts (s : State) (cs : List Host.Cell) (lctr by_ : Option Nat) (ch : Clocks) :
    s.homeCells cs lctr by_ ch =
      let cs := cs.filter fun c => !locCtl c.1
      (((s.homeBytes cs by_ ch).trigger by_ cs).dirty cs lctr) := rfl

theorem MemSide.homeBytes (s : State) (cs : List Host.Cell) (by_ : Option Nat) (ch : Clocks) : MemSide s (s.homeBytes cs by_ ch) := by
  unfold State.homeBytes
  extract_lets sp s1 ds s2
  have h1 : MemSide s s1 := MemSide.carry s _ ch
  have h2 : DirSide s1 s2 :=
    DirSide.foldl (fun s x => (DirSide.keepParcel s _).trans (DirSide.homeInval _ _ _ _ _)) _ s1
  have h3 : DirSide s1 (s2.homeOpen ds) := h2.trans (DirSide.homeOpen s2 ds)
  exact ((h1.trans h3.memSide).trans (MemSide.perform _ cs)).trans (DirSide.foldl (fun s _ => DirSide.pushAll s _) _ _).memSide

/-- The crews of a home write: those whose monitors it triggers. -/
theorem homeCells_only (s : State) (cs : List Host.Cell) (lctr by_ : Option Nat) (ch : Clocks) :
    ∃ u, MemSide s u ∧ MemSide (u.trigger by_ (cs.filter fun c => !locCtl c.1)) (s.homeCells cs lctr by_ ch) := by
  rw [homeCells_parts]
  exact ⟨_, MemSide.homeBytes s _ by_ ch, MemSide.dirty _ _ _⟩

/-- A write of the device's own: a home write of its cells, or requests that the switch holds. -/
theorem devWrite_only {s t : State} {ctx : Nat} {va : W64} {bs : List Byte} {lctr : Option Nat} {ch : Clocks}
    (h : s.devWrite ctx va bs lctr ch = some t) : ∃ u cs, MemSide s u ∧ MemSide (u.trigger none cs) t := by
  unfold State.devWrite at h
  dsimp only at h
  split at h
  · cases h
  · split at h
    · obtain rfl := Option.some.inj h
      have hnone : s.trigger none [] = s := by simp [State.trigger]
      exact ⟨s, [], MemSide.refl s, hnone.symm ▸ MemSide.foldl (fun s _ => MemSide.holdReq s _) _ s⟩
    · obtain rfl := Option.some.inj h
      obtain ⟨u, hu, ht⟩ := homeCells_only s _ lctr none ch
      exact ⟨u, _, hu, ht⟩

end Sys2Proof.Machine
end

section
/-! PROOFS. `cancel` (O48): what the end of other crews and the discard of what waits leave of a crew. -/

namespace Sys2Proof.Machine

/-! ## What other crews' ends leave of a crew (R34, R39, R326) -/

/-- A crew as the end of another, or an event of an object, may leave it: still cancelled or not, and where it is not waiting for its own
lanes, at its word with its registers. -/
structure Crew.Spared (c d : Crew) : Prop where
  cancel : d.cancel = c.cancel
  kind : d.kind = c.kind
  there : c.phase ≠ .lanesOut → d.phase ≠ .lanesOut ∧ d.widx = c.widx ∧ d.s = c.s

theorem Crew.Spared.refl (c : Crew) : c.Spared c := ⟨rfl, rfl, fun h => ⟨h, rfl, rfl⟩⟩

theorem Crew.Spared.trans {c d e : Crew} (h : c.Spared d) (h' : d.Spared e) : c.Spared e := by
  refine ⟨h'.cancel.trans h.cancel, h'.kind.trans h.kind, fun hc => ?_⟩
  obtain ⟨hd, hwidx, hs⟩ := h.there hc
  obtain ⟨he, hwidx', hs'⟩ := h'.there hd
  exact ⟨he, hwidx'.trans hwidx, hs'.trans hs⟩

/-- Every crew is spared, and no counter's cancel request is lost. -/
structure Spares (s t : State) : Prop where
  crews : ∀ k, (s.crew k).Spared (t.crew k)
  req : ∀ n, (s.counter n).cancelReq = true → (t.counter n).cancelReq = true
  cur : t.cur = s.cur

theorem Spares.of_eq {s t : State} (hc : t.crews = s.crews) (hn : t.counters = s.counters) (hcur : t.cur = s.cur) : Spares s t := by
  refine ⟨fun k => ?_, fun n h => ?_, hcur⟩
  · rw [State.crew_of_crews hc]
    exact Crew.Spared.refl _
  · exact (congrArg (fun m => (Map.get ({} : Counter) m n).cancelReq) hn).trans h

theorem Spares.refl (s : State) : Spares s s := Spares.of_eq rfl rfl rfl

theorem Spares.trans {s t u : State} (h : Spares s t) (h' : Spares t u) : Spares s u :=
  ⟨fun k => (h.crews k).trans (h'.crews k), fun n hn => h'.req n (h.req n hn), h'.cur.trans h.cur⟩

theorem MemSide.spares {s t : State} (h : MemSide s t) : Spares s t := Spares.of_eq h.crews h.counters h.cur

/-- No crew is one of a test, whose trap would end it (R381). -/
def State.NoTest (s : State) : Prop := ∀ k, (s.crew k).kind ≠ .test

theorem Spares.noTest {s t : State} (h : Spares s t) (hs : s.NoTest) : t.NoTest := fun k => (h.crews k).kind ▸ hs k

theorem Spares.foldl {α : Type} {f : State → α → State} (hf : ∀ s x, s.NoTest → Spares s (f s x)) (l : List α) {s : State} (hs : s.NoTest) :
    Spares s (l.foldl f s) :=
  foldl_keeps (P := Spares s) (fun t x h => h.trans (hf t x (h.noTest hs))) l (Spares.refl s)

theorem Spares.putCrew (s : State) (k : Nat) {c : Crew} (h : (s.crew k).Spared c) : Spares s (s.putCrew k c) := by
  refine ⟨fun j => ?_, fun _ h => h, rfl⟩
  by_cases hj : j = k
  · subst hj
    rw [State.putCrew_crew_self]
    exact h
  · have hne : (s.putCrew k c).crew j = s.crew j := State.crew_of_find (MapLaws.find_put_ne _ _ hj)
    rw [hne]
    exact Crew.Spared.refl _

/-! ## Traps, pops and returned lanes -/

theorem spared_trapped {c : Crew} (r : TrapRec) (clk : Nat) : c.Spared (c.trapped r clk) := ⟨rfl, rfl, fun _ => ⟨nofun, rfl, rfl⟩⟩

theorem spared_halted (c : Crew) : c.Spared { c with phase := .halted } := ⟨rfl, rfl, fun _ => ⟨nofun, rfl, rfl⟩⟩

section
variable (s : State)

theorem trapCounts_counters (k : Nat) (r : TrapRec) : (s.trapCounts k r).counters = s.counters := by
  unfold State.trapCounts
  dsimp only
  repeat' split
  all_goals rfl

theorem contained_spares (ctx cause : Nat) (p : Prop) [Decidable p] : Spares s (if p then s.contain ctx cause else s) := by
  split
  · exact Spares.of_eq rfl rfl rfl
  · exact Spares.refl s

theorem secondError_spares (k : Nat) (r : TrapRec) : Spares s (s.secondError k r) := by
  unfold State.secondError
  extract_lets c s1 s2 both
  have h1 : Spares s s1 := Spares.of_eq rfl rfl rfl
  have h2 : Spares s s2 := h1.trans (contained_spares s1 _ _ _)
  have hc : (s2.crew k).Spared c ∧ c.Spared (s2.crew k) := by
    have heq : s2.crew k = c := by
      change (if r.cause = 0x06 ∨ r.cause = 0x07 then s1.contain c.ctx r.cause else s1).crew k = c
      split <;> rfl
    rw [heq]
    exact ⟨Crew.Spared.refl c, Crew.Spared.refl c⟩
  split
  · refine (h2.trans (Spares.putCrew s2 k (hc.1.trans (spared_halted c)))).trans ?_
    refine foldl_keeps (P := Spares (s2.putCrew k { c with phase := .halted })) (fun t o h => h.trans ?_) _ (Spares.refl _)
    split
    · exact Spares.refl t
    · exact (Spares.of_eq rfl rfl rfl : Spares t (t.snapshotOf o (t.crew o))).trans (Spares.putCrew _ o (spared_trapped (c := t.crew o) _ _))
  · exact h2.trans (Spares.putCrew s2 k (hc.1.trans ((spared_trapped (c := c) _ _).trans (spared_halted _))))

theorem trapCrew_spares (k : Nat) (r : TrapRec) (hk : (s.crew k).kind ≠ .test) : Spares s (s.trapCrew k r) := by
  have hcounts : Spares s (s.trapCounts k r) :=
    Spares.of_eq (s.trapCounts_crews k r) (trapCounts_counters s k r) (s.trapCounts_cur k r)
  unfold State.trapCrew
  dsimp only
  split
  · refine hcounts.trans (Spares.putCrew _ k ?_)
    rw [State.crew_of_crews (s.trapCounts_crews k r)]
    exact spared_trapped _ _
  · next h => exact absurd h hk
  · refine (hcounts.trans (secondError_spares _ k r)).trans (Spares.of_eq (State.oneEvent_crews _ _) ?_ (State.oneEvent_cur _ _))
    unfold State.oneEvent
    dsimp only
    split <;> rfl

theorem popFrames_step (k : Nat) {c : Crew} {f : Frame} {fs : List Frame} (h : c.frames = f :: fs) (n : Nat) :
    s.popFrames k c (n + 1) =
      if f.fmask &&& c.live &&& ~~~f.rmask ≠ 0 ∨ c.live = 0 then .ok c
      else if f.back c.live ≠ 0 ∧ s.notHeader k f = true then .error (0x03, 1, f.ret)
      else match fs with
        | _ :: _ => s.popFrames k (c.popped f fs) n
        | [] => .ok (if c.depth ≤ 1 then c.popped f [] else { c.popped f [] with pc := f.ret, widx := 0 }) := by
  simp only [State.popFrames, h]
  cases fs <;> rfl

/-- The pop of frames keeps a crew's kind and its cancels. -/
theorem popFrames_marks (k : Nat) {n : Nat} {c d : Crew} (h : s.popFrames k c n = .ok d) : d.cancel = c.cancel ∧ d.kind = c.kind := by
  induction n generalizing c with
  | zero => cases h; exact ⟨rfl, rfl⟩
  | succ n ih =>
    cases hf : c.frames with
    | nil =>
      rw [popFrames_nil s k hf] at h
      cases h
      exact ⟨rfl, rfl⟩
    | cons f fs =>
      rw [popFrames_step s k hf] at h
      split at h
      · cases h; exact ⟨rfl, rfl⟩
      · split at h
        · cases h
        · cases fs with
          | cons g gs => exact ih (c := c.popped f (g :: gs)) h
          | nil =>
            cases h
            split <;> exact ⟨rfl, rfl⟩

/-- The end of a run spares the crew, if it was waiting for its lanes, or ends. -/
theorem endRun_spares (k : Nat) {c : Crew} (hk : (s.crew k).kind ≠ .test) (hcancel : c.cancel = (s.crew k).cancel)
    (hkind : c.kind = (s.crew k).kind)
    (h : (s.crew k).phase = .lanesOut ∨ (c.live = 0 ∧ c.widx = (s.crew k).widx ∧ c.s = (s.crew k).s)) : Spares s (s.endRun k c) := by
  by_cases hlive : c.live = 0
  · rw [endRun_over s k hlive]
    refine Spares.putCrew s k ⟨hcancel, hkind, fun hout => ⟨nofun, ?_⟩⟩
    obtain hl | ⟨-, hwidx, hs⟩ := h
    · exact absurd hl hout
    · exact ⟨hwidx, hs⟩
  · have hout : (s.crew k).phase = .lanesOut := h.resolve_right fun hl => hlive hl.1
    unfold State.endRun
    rw [if_neg hlive]
    split
    · exact trapCrew_spares s k _ hk
    · next d hd =>
      obtain ⟨hcan, hki⟩ := popFrames_marks s k hd
      exact Spares.putCrew s k ⟨hcan.trans hcancel, hki.trans hkind, fun hno => absurd hout hno⟩

theorem laneBack_spares (t : LaneTag) (m : W32) (hs : s.NoTest) : Spares s (s.laneBack t fun o => o.exitLanes m) := by
  unfold State.laneBack
  split
  · exact Spares.refl s
  · dsimp only
    split
    · exact Spares.putCrew s t.crew ⟨rfl, rfl, fun h => ⟨h, rfl, rfl⟩⟩
    · next hback =>
      have hout : (s.crew t.crew).phase = .lanesOut := by
        by_contra hne
        exact hback (.inr hne)
      split
      · have hput : Spares s (s.putCrew t.crew
            { ((s.crew t.crew).exitLanes m) with out := ((s.crew t.crew).exitLanes m).out &&& ~~~(1 <<< t.lane : W32), sb := [] }) :=
          Spares.putCrew s t.crew ⟨rfl, rfl, fun h => ⟨h, rfl, rfl⟩⟩
        refine hput.trans (endRun_spares _ t.crew (hput.noTest hs _) ?_ ?_ (.inl ?_))
        · rw [State.putCrew_crew_self]
        · rw [State.putCrew_crew_self]
        · rw [State.putCrew_crew_self]
          exact hout
      · exact Spares.putCrew s t.crew ⟨rfl, rfl, fun h => absurd hout h⟩

theorem exitOrigins_spares (c : Crew) (m : W32) (hs : s.NoTest) : Spares s (s.exitOrigins c m) := by
  unfold State.exitOrigins
  split
  · refine Spares.foldl (fun t l ht => ?_) _ hs
    split
    · exact laneBack_spares t _ _ ht
    · exact Spares.refl t
  · exact Spares.refl s

theorem endAll_spares (k : Nat) (hs : s.NoTest) : Spares s (s.endAll k) := by
  have hlive : ((s.crew k).exitLanes (s.crew k).live).live = 0 := by simp [Crew.exitLanes]
  have hexit := exitOrigins_spares s (s.crew k) (s.crew k).live hs
  have hall : s.endAll k = (s.exitOrigins (s.crew k) (s.crew k).live).putCrew k ((s.crew k).exitLanes (s.crew k).live).over :=
    endRun_over _ k hlive
  rw [hall]
  obtain ⟨hcrews, hreq, hcur⟩ := hexit
  refine ⟨fun j => ?_, hreq, hcur⟩
  by_cases hj : j = k
  · subst hj
    rw [State.putCrew_crew_self]
    exact ⟨rfl, rfl, fun _ => ⟨nofun, rfl, rfl⟩⟩
  · have hne : ((s.exitOrigins (s.crew k) (s.crew k).live).putCrew k ((s.crew k).exitLanes (s.crew k).live).over).crew j =
        (s.exitOrigins (s.crew k) (s.crew k).live).crew j := State.crew_of_find (MapLaws.find_put_ne _ _ hj)
    rw [hne]
    exact hcrews j

/-! ## What is not placed yet (R34, R362) -/

theorem onCounter_spares (n : Nat) {f : Counter → Counter} (hf : ∀ c, (f c).cancelReq = c.cancelReq) : Spares s (s.onCounter n f) := by
  refine ⟨fun k => Crew.Spared.refl _, fun m h => ?_, rfl⟩
  by_cases hm : m = n
  · subst hm
    have hget : (s.onCounter m f).counter m = f (s.counter m) := MapLaws.get_put_self _ _ _ _
    rw [hget, hf]
    exact h
  · have hget : (s.onCounter n f).counter m = s.counter m := MapLaws.get_put_ne _ _ _ hm
    rw [hget]
    exact h

/-- A crew whose monitor a write triggers. -/
def Crew.triggered (by_ : Option Nat) (cs : List Host.Cell) (k : Nat) (c : Crew) : Crew :=
  if some k != by_ && cs.any (fun x => c.watches x.1 1) then { c with mon := c.mon.map fun m => { m with hit := true } } else c

theorem trigger_find (by_ : Option Nat) (cs : List Host.Cell) (k : Nat) :
    Map.find? (s.trigger by_ cs).crews k = (Map.find? s.crews k).map (Crew.triggered by_ cs k) := by
  refine Eq.trans ?_ (find_map (Crew.triggered by_ cs) s.crews k)
  refine congrArg (fun m => Map.find? m k) (List.map_congr_left fun kc _ => ?_)
  unfold Crew.triggered
  split <;> rfl

theorem trigger_spares (by_ : Option Nat) (cs : List Host.Cell) : Spares s (s.trigger by_ cs) := by
  refine ⟨fun k => ?_, fun _ h => h, rfl⟩
  have hfind := trigger_find s by_ cs k
  have hcrew : (s.trigger by_ cs).crew k = ((Map.find? s.crews k).map (Crew.triggered by_ cs k)).getD {} := by
    rw [← hfind]
    rfl
  have hold : s.crew k = (Map.find? s.crews k).getD {} := rfl
  rw [hcrew, hold]
  cases Map.find? s.crews k with
  | none => exact Crew.Spared.refl _
  | some c =>
    simp only [Option.map_some, Option.getD_some]
    unfold Crew.triggered
    split <;> exact ⟨rfl, rfl, fun h => ⟨h, rfl, rfl⟩⟩

theorem devWrite_spares {t : State} {ctx : Nat} {va : W64} {bs : List Byte} {lctr : Option Nat} {ch : Clocks}
    (h : s.devWrite ctx va bs lctr ch = some t) : Spares s t := by
  obtain ⟨u, cs, hu, ht⟩ := devWrite_only h
  exact (hu.spares.trans (trigger_spares u none cs)).trans ht.spares

theorem stepCounter_spares (n k : Nat) : Spares s (s.stepCounter n k) := by
  unfold State.stepCounter
  split
  · exact Spares.refl s
  · have hstep := onCounter_spares s n (f := fun c => { c with count := (s.counter n).count + BitVec.ofNat 24 k }) fun _ => rfl
    dsimp only
    split
    · exact hstep.trans (Spares.of_eq rfl rfl rfl)
    · exact hstep

theorem writeTrace_spares (l place : Nat) (bs : List Byte) : Spares s (s.writeTrace l place bs) := by
  unfold State.writeTrace
  split
  · exact Spares.refl s
  · split
    · next h => exact devWrite_spares s h
    · exact onCounter_spares s l fun _ => rfl

theorem discardParty_spares (l num : Nat) : Spares s (s.discardParty l num) :=
  (writeTrace_spares s l _ _).trans (stepCounter_spares _ l 1)

end

theorem linkParents_spares (ps : List (Level × Nat)) (s : State) : Spares s (State.linkParents ps s) := by
  induction ps generalizing s with
  | nil => exact Spares.refl s
  | cons p ps ih =>
    obtain ⟨lv, n⟩ := p
    exact (onCounter_spares s n (f := fun c => { c with level := lv, parents := ps }) fun _ => rfl).trans (ih _)

theorem discardPacket_spares (s : State) (ctx : Nat) (d : BitVec 1024) : Spares s (s.discardPacket ctx d) := by
  unfold State.discardPacket
  split
  · exact (linkParents_spares _ s).trans (stepCounter_spares _ _ 1)
  · exact Spares.refl s

theorem discardUnplaced_spares (s : State) (lv : Level) (n : Nat) (hs : s.NoTest) : Spares s (s.discardUnplaced lv n) := by
  unfold State.discardUnplaced
  extract_lets inI waits s1 s2 slots s3 rest s4 hit drops s5
  have h1 : Spares s s1 := Spares.of_eq rfl rfl rfl
  have h2 : Spares s s2 := h1.trans (Spares.foldl (fun t _ _ => discardParty_spares t _ _) _ (h1.noTest hs))
  have h3 : Spares s s3 := h2.trans (Spares.of_eq rfl rfl rfl)
  have h4 : Spares s s4 := h3.trans (Spares.foldl (fun t _ ht => Spares.foldl (fun t _ _ => discardParty_spares t _ _) _ ht) _ (h3.noTest hs))
  have h5 : Spares s s5 := h4.trans (Spares.of_eq rfl rfl rfl)
  exact h5.trans (Spares.foldl (fun t _ _ => discardPacket_spares t _ _) _ (h5.noTest hs))

/-! ## `cancel` (R34, R35) -/

theorem instanceOf_me {s u : State} (hcounters : u.counters = s.counters) (hp : u.me.party = s.me.party) (hl : u.me.lctr = s.me.lctr)
    (lv : Level) : u.instanceOf u.me lv = s.instanceOf s.me lv := by
  unfold State.instanceOf State.counter
  rw [hcounters, hp, hl]

/-- Whether a crew belongs to the launch that a `cancel` names. -/
def State.inCancelled (s : State) (lv : Level) (n : Nat) (c : Crew) : Bool :=
  if lv = .party then c.party == n else s.inInstance lv n c.lctr

/-- A crew with a launch of its cancelled. -/
def Crew.cancelledAt (c : Crew) (lv : Level) : Crew := { c with cancel := c.cancel ||| (1 <<< Level.code lv) }

/-- The state in which a cancelled launch's blocked crews end. -/
def State.marked (s : State) (lv : Level) (n : Nat) : State :=
  let inP := fun (k : Nat) (p : Party) => if lv = .party then k == n else s.inInstance lv n p.lctr
  let t := if lv = .party then s else s.onCounter n fun c => { c with cancelReq := true }
  { t with
    crews := t.crews.map fun kc => if s.inCancelled lv n kc.2 then (kc.1, kc.2.cancelledAt lv) else kc
    parties := t.parties.map fun kp => if inP kp.1 kp.2 then (kp.1, { kp.2 with cancelled := true }) else kp
    saved := t.saved.map fun x => if inP 0 x.party && lv != .party then { x with crews := x.crews.map fun c => c.cancelledAt lv } else x
    savedHand := t.savedHand.map fun c => if lv != .party && s.inCancelled lv n c then c.cancelledAt lv else c }

/-- The effect of a cancel that has one. -/
def State.cancelled (s : State) (lv : Level) (n : Nat) : State :=
  let t := (s.crews.filter fun kc => s.inCancelled lv n kc.2).foldl (fun s kc => if kc.2.cancelWait then s.endAll kc.1 else s) (s.marked lv n)
  if lv = .party then t else t.discardUnplaced lv n

theorem cancelInstance_eq {s : State} {lv : Level} {n : Nat}
    (h : if lv = .party then (s.party n).cancelled = false else (s.counter n).done = false ∧ (s.counter n).cancelReq = false) :
    s.cancelInstance lv n = s.cancelled lv n := by
  cases lv
  case party =>
    rw [if_pos rfl] at h
    exact if_neg (by simp [h])
  all_goals
    rw [if_neg (by decide)] at h
    exact if_neg (by simp [h])

theorem marked_crew (s : State) (lv : Level) (n k : Nat) :
    (s.marked lv n).crew k = (((Map.find? s.crews k).map fun c => if s.inCancelled lv n c then c.cancelledAt lv else c).getD {}) := by
  have hcrews : (s.marked lv n).crews = s.crews.map fun kc => (kc.1, if s.inCancelled lv n kc.2 then kc.2.cancelledAt lv else kc.2) := by
    unfold State.marked
    dsimp only
    have hsame : (if lv = .party then s else s.onCounter n fun c => { c with cancelReq := true }).crews = s.crews := by
      split <;> rfl
    rw [hsame]
    refine List.map_congr_left fun kc _ => ?_
    split <;> rfl
  have hfind : Map.find? (s.marked lv n).crews k = (Map.find? s.crews k).map fun c => if s.inCancelled lv n c then c.cancelledAt lv else c := by
    rw [hcrews]
    exact find_map (fun _ c => if s.inCancelled lv n c then c.cancelledAt lv else c) s.crews k
  rw [← hfind]
  rfl

theorem marked_found {s : State} {lv : Level} {n k : Nat} {c : Crew} (h : Map.find? s.crews k = some c) :
    (s.marked lv n).crew k = if s.inCancelled lv n c then c.cancelledAt lv else c := by
  rw [marked_crew, h]
  rfl

theorem marked_keeps (s : State) (lv : Level) (n k : Nat) :
    ((s.marked lv n).crew k).kind = (s.crew k).kind ∧ ((s.marked lv n).crew k).phase = (s.crew k).phase ∧
      ((s.marked lv n).crew k).widx = (s.crew k).widx ∧ ((s.marked lv n).crew k).s = (s.crew k).s := by
  have hold : s.crew k = (Map.find? s.crews k).getD {} := rfl
  rw [marked_crew, hold]
  cases Map.find? s.crews k with
  | none => exact ⟨rfl, rfl, rfl, rfl⟩
  | some c =>
    simp only [Option.map_some, Option.getD_some]
    split <;> exact ⟨rfl, rfl, rfl, rfl⟩

theorem marked_req {s : State} {lv : Level} (h : lv ≠ .party) (n : Nat) : ((s.marked lv n).counter n).cancelReq = true := by
  have hcounters : (s.marked lv n).counters = (s.onCounter n fun c => { c with cancelReq := true }).counters := by
    unfold State.marked
    dsimp only
    rw [if_neg h]
  refine (congrArg (fun m => (Map.get ({} : Counter) m n).cancelReq) hcounters).trans ?_
  exact congrArg Counter.cancelReq (MapLaws.get_put_self _ _ _ _)

theorem marked_cur (s : State) (lv : Level) (n : Nat) : (s.marked lv n).cur = s.cur := by
  unfold State.marked
  dsimp only
  split <;> rfl

theorem cancelled_spares {s : State} (hs : s.NoTest) (lv : Level) (n : Nat) : Spares (s.marked lv n) (s.cancelled lv n) := by
  have hmarked : (s.marked lv n).NoTest := fun k => (marked_keeps s lv n k).1 ▸ hs k
  have hends : Spares (s.marked lv n)
      ((s.crews.filter fun kc => s.inCancelled lv n kc.2).foldl (fun s kc => if kc.2.cancelWait then s.endAll kc.1 else s) (s.marked lv n)) := by
    refine Spares.foldl (fun t kc ht => ?_) _ hmarked
    split
    · exact endAll_spares t _ ht
    · exact Spares.refl t
  unfold State.cancelled
  dsimp only
  split
  · exact hends
  · exact hends.trans (discardUnplaced_spares _ lv n (hends.noTest hmarked))

theorem cancelled_bit (c : Crew) (lv : Level) :
    (c.cancelledAt lv).cancel.getLsbD (match lv with | .party => 0 | .launch => 1 | .graph => 2 | .stage => 3 | .job => 4) = true := by
  unfold Crew.cancelledAt
  cases lv <;> simp [Level.code]

/-- The clause of O48 on `cancel`. -/
theorem cancel_clause (s : State) (st : BitVec 4) (lv : Level) (hrel : s.me.released = true) :
    (s.instanceOf s.me lv = none → ∃ t, exec (.cancel st lv) s = .next t ∧ OnlyShared s t ∧ t.me = s.me.turned s.clk) ∧
    (∀ n, s.instanceOf s.me lv = some n → s.me.phase = .running →
      (∀ k c, Map.find? s.crews k = some c → c.kind ≠ .test ∧ (c.kind = .handler → c.cancelWait = false)) →
      (if lv = .party then (s.party n).cancelled = false else (s.counter n).done = false ∧ (s.counter n).cancelReq = false) →
      ∃ t, exec (.cancel st lv) s = .next t ∧ t.me.widx = s.me.widx + 1 ∧ t.me.s = s.me.s ∧
        (lv ≠ .party → (t.counter n).cancelReq = true) ∧
        ∀ k c, Map.find? s.crews k = some c → (if lv = .party then c.party = n else s.inInstance lv n c.lctr = true) →
          (t.crew k).cancel.getLsbD (match lv with | .party => 0 | .launch => 1 | .graph => 2 | .stage => 3 | .job => 4) = true) := by
  simp only [exec, execCancel]
  rw [shared_inTurn hrel, instanceOf_me (s := s) (u := s.inTurn) rfl (by rw [State.inTurn_me]) (by rw [State.inTurn_me])]
  refine ⟨fun hnone => ?_, fun n hin hrun hkinds heffect => ?_⟩
  · rw [hnone]
    refine ⟨_, rfl, (OnlyShared.inTurn s).onMe _, ?_⟩
    rw [State.onMe_me]
    exact inTurn_next s
  · rw [hin]
    generalize hu : s.inTurn.onMe Crew.next = u
    have hcounters : u.counters = s.counters := by rw [← hu]; rfl
    have hparties : u.parties = s.parties := by rw [← hu]; rfl
    have hcur : u.cur = s.cur := by rw [← hu]; rfl
    have hme : u.crew s.cur = s.me.turned s.clk := by
      rw [← hu]
      exact (State.onMe_me s.inTurn _).trans (inTurn_next s)
    have hother : ∀ k, k ≠ s.cur → Map.find? u.crews k = Map.find? s.crews k := fun k hk => by
      rw [← hu]
      exact ((OnlyShared.inTurn s).onMe _).others k hk
    have hkind : ∀ k, (u.crew k).kind = (s.crew k).kind := fun k => by
      by_cases hk : k = s.cur
      · subst hk
        rw [hme]
        rfl
      · rw [State.crew_of_find (hother k hk)]
    have hnotest : u.NoTest := fun k => by
      rw [hkind]
      have hold : s.crew k = (Map.find? s.crews k).getD {} := rfl
      rw [hold]
      cases hf : Map.find? s.crews k with
      | none => exact nofun
      | some c => exact (hkinds k c hf).1
    have heffect' : if lv = .party then (u.party n).cancelled = false else (u.counter n).done = false ∧ (u.counter n).cancelReq = false := by
      unfold State.party State.counter
      rw [hcounters, hparties]
      exact heffect
    obtain ⟨hcrews, hreq, hcur'⟩ := cancelled_spares hnotest lv n
    rw [marked_cur, hcur] at hcur'
    obtain ⟨-, hphase, hwidx, hs⟩ := marked_keeps u lv n s.cur
    rw [hme] at hphase hwidx hs
    obtain ⟨-, hwidx', hs'⟩ := (hcrews s.cur).there (by rw [hphase]; exact fun h => nomatch (hrun.symm.trans h : Phase.running = .lanesOut))
    have htme : (u.cancelled lv n).me = (u.cancelled lv n).crew s.cur := congrArg _ hcur'
    refine ⟨u.cancelled lv n, ?_, ?_, ?_, fun hlv => hreq n (marked_req hlv n), fun k c hc hinst => ?_⟩
    · dsimp only
      rw [cancelInstance_eq heffect']
    · rw [htme, hwidx', hwidx]
      rfl
    · rw [htme, hs', hs]
      rfl
    · have hfound : ∃ d, Map.find? u.crews k = some d ∧ u.inCancelled lv n d = true := by
        have hsame : ∀ d : Crew, d.party = c.party → d.lctr = c.lctr → u.inCancelled lv n d = true := fun d hp hl => by
          unfold State.inCancelled State.inInstance State.counter
          rw [hcounters, hp, hl]
          split
          · next h => rw [if_pos h] at hinst; simpa using hinst
          · next h => rw [if_neg h] at hinst; exact hinst
        by_cases hk : k = s.cur
        · subst hk
          have hcme : s.me = c := by rw [State.me_eq, State.crew, Map.get, hc]; rfl
          refine ⟨_, ?_, hsame (s.me.turned s.clk) (by rw [hcme]; rfl) (by rw [hcme]; rfl)⟩
          rw [← hu]
          exact (MapLaws.find_put_self _ _ _).trans (congrArg some (inTurn_next s))
        · exact ⟨c, (hother k hk).trans hc, hsame c rfl rfl⟩
      obtain ⟨d, hd, hind⟩ := hfound
      rw [(hcrews k).cancel, marked_found hd, if_pos hind]
      exact cancelled_bit d lv

/-- Settles O48: launches and relaunches push packets in the crew's turn, the reads acquire what their objects keep, and a cancel marks
the crews of its launch before those that wait end. -/
theorem launchesCountersAndMapsAreUsed : Obligations.LaunchesCountersAndMapsAreUsed :=
  ⟨fun s h sd vx q as hrel hpush hreach => dlaunch_clauses s h sd vx q as hrel hpush hreach,
    fun s st sd sa q a hrel hpush hreach => sdlaunch_clauses s st sd sa q a hrel hpush hreach,
    fun s st sd sa q hrel hpush => rlnch_clause s st sd sa q hrel hpush,
    fun s st sd sa hrel => trrec_clause s st sd sa hrel, cntrd_reads,
    fun s st sd m hrel => dmclr_clause s st sd m hrel, fun s st sd sa sb m hrel => dmq_clause s st sd sa sb m hrel,
    fun s st lv hrel => cancel_clause s st lv hrel⟩

end Sys2Proof.Machine
end

section
/-! PROOFS. Bytes and home writes (R7, R265): what a write of cells leaves in memory. -/

namespace Sys2Proof.Machine

/-! ## Numbers in memory (R7) -/

theorem ofBytes_bytesOf (n x : Nat) : ofBytes (bytesOf n x) = x % 256 ^ n := by
  induction n generalizing x with
  | zero => simp [bytesOf, ofBytes, Nat.mod_one]
  | succ n ih =>
    have hbyte : (BitVec.ofNat 8 x).toNat = x % 256 := BitVec.toNat_ofNat x 8
    rw [bytesOf, ofBytes, ih, hbyte, Nat.pow_succ, Nat.mul_comm (256 ^ n), Nat.mod_mul]

theorem length_bytesOf (n x : Nat) : (bytesOf n x).length = n := by
  induction n generalizing x with
  | zero => rfl
  | succ n ih => exact congrArg (· + 1) (ih (x / 256))

theorem upFrom_succ (a n : Nat) : upFrom a (n + 1) = a :: upFrom (a + 1) n := by
  simp [upFrom, List.range_succ_eq_map, Function.comp_def, Nat.add_assoc, Nat.add_comm 1]

theorem cellsOf_cons (a : Nat) (b : Byte) (bs : List Byte) : cellsOf a (b :: bs) = (a, b) :: cellsOf (a + 1) bs := by
  rw [cellsOf, List.length_cons, upFrom_succ]
  rfl

theorem cellsOf_inside {a : Nat} {bs : List Byte} {c : Host.Cell} (h : c ∈ cellsOf a bs) : a ≤ c.1 ∧ c.1 < a + bs.length :=
  mem_upFrom.mp (List.of_mem_zip (show (c.1, c.2) ∈ _ from h)).1

theorem memPut_outside (m : List Host.Cell) {a : Nat} {bs : List Byte} {x : Nat} (h : x < a ∨ a + bs.length ≤ x) :
    memGet (memPut m (cellsOf a bs)) x = memGet m x :=
  memGet_memPut_other m _ fun c hc hx => by
    have := cellsOf_inside hc
    omega

theorem memBytes_memPut (m : List Host.Cell) (a : Nat) (bs : List Byte) : memBytes (memPut m (cellsOf a bs)) a bs.length = bs := by
  induction bs generalizing m a with
  | nil => rfl
  | cons b bs ih =>
    have hput : memPut m (cellsOf a (b :: bs)) = memPut (memSet m a b) (cellsOf (a + 1) bs) := by
      rw [cellsOf_cons]
      rfl
    have hhead : memGet (memPut (memSet m a b) (cellsOf (a + 1) bs)) a = b :=
      (memPut_outside _ (.inl (Nat.lt_succ_self a))).trans (memGet_memSet_self m a b)
    have htail := ih (memSet m a b) (a + 1)
    unfold memBytes at htail ⊢
    rw [hput, List.length_cons, upFrom_succ, List.map_cons, hhead, htail]

/-- A number of n bytes reads back as it was written. -/
theorem memNat_memPut (m : List Host.Cell) (a n x : Nat) : memNat (memPut m (cellsOf a (bytesOf n x))) a n = x % 256 ^ n := by
  have hbytes := memBytes_memPut m a (bytesOf n x)
  rw [length_bytesOf] at hbytes
  rw [memNat, hbytes, ofBytes_bytesOf]

theorem memNat_lt (m : List Host.Cell) (a n : Nat) : memNat m a n < 256 ^ n := by
  unfold memNat memBytes
  induction n generalizing a with
  | zero => simp [upFrom, ofBytes]
  | succ n ih =>
    rw [upFrom_succ, List.map_cons, ofBytes, Nat.pow_succ]
    have := ih (a + 1)
    have := (memGet m a).isLt
    omega

theorem memNat_congr {m m' : List Host.Cell} {a n : Nat} (h : ∀ x, a ≤ x → x < a + n → memGet m' x = memGet m x) : memNat m' a n = memNat m a n :=
  congrArg ofBytes (List.map_congr_left fun x hx => by
    obtain ⟨hlo, hhi⟩ := mem_upFrom.mp hx
    exact h x hlo hhi)

theorem wrote_of_mem {s t : State} {cs : List Host.Cell} (h : t.mem = memPut s.mem cs) : Wrote s t cs := fun a => by
  rw [h]
  exact memGet_memPut _ _ _

/-! ## Home writes (R265) -/

theorem noCtl_filter {cs : List Host.Cell} (h : ∀ c ∈ cs, locCtl c.1 = false) : cs.filter (fun c => !locCtl c.1) = cs :=
  List.filter_eq_self.mpr fun c hc => by simp [h c hc]

section
variable {m : List Host.Cell} {cs : Map Crew} {s : State} (h : Quiet m cs s)
include h

theorem Quiet.carry (lines : List Nat) (ch : Clocks) : Quiet m cs (s.carry lines ch) := by
  unfold State.carry
  split
  · exact h
  · exact h.of_eq rfl rfl rfl rfl

theorem Quiet.homeInval (line f l : Nat) (by_ : Option Nat) : Quiet m cs (s.homeInval line f l by_) := by
  unfold State.homeInval
  refine foldl_keeps (P := Quiet m cs) (fun u d hu => ?_) _ h
  have hclose : Quiet m cs (if d.owner.isSome then (u.sendClose d).pass (portOf line d.owner) line d.f d.l 63 else u) :=
    Quiet.ite ((hu.sendClose d).pass _ _ _ _ _) hu
  exact ((hclose.newSource _ _ _ _ _).loseAll _ _ _ _ _).setDir _ _ _ _

theorem Quiet.homeOpen (ds : List DirSpan) : Quiet m cs (s.homeOpen ds) :=
  foldl_keeps (fun _ _ hs => Quiet.ite (hs.sendOpen _ _ _ _ _) hs) ds h

theorem Quiet.perform (xs : List Host.Cell) : Quiet (memPut m xs) cs (s.perform xs) := ⟨congrArg (memPut · xs) h.mem, h.crews, h.offs, h.arm⟩

theorem Quiet.homeBytes (xs : List Host.Cell) (by_ : Option Nat) (ch : Clocks) : Quiet (memPut m xs) cs (s.homeBytes xs by_ ch) := by
  unfold State.homeBytes
  extract_lets sp s1 ds s2
  have h1 : Quiet m cs s1 := h.carry _ ch
  have h2 : Quiet m cs s2 := foldl_keeps (fun _ _ hs => (hs.keepParcel _).homeInval _ _ _ _) _ h1
  exact foldl_keeps (fun _ _ hs => hs.of_eq rfl rfl rfl rfl) _ ((h2.homeOpen ds).perform xs)

end

/-- A home write leaves its bytes in memory, where no word differs from its span's source (R265). -/
theorem homeCells_mem {s : State} {cs : List Host.Cell} (hoffs : s.offs = []) (harm : s.inject.arm = false) (hctl : ∀ c ∈ cs, locCtl c.1 = false)
    (lctr by_ : Option Nat) (ch : Clocks) : (s.homeCells cs lctr by_ ch).mem = memPut s.mem cs := by
  rw [homeCells_parts, noCtl_filter hctl]
  exact (Quiet.homeBytes ⟨rfl, rfl, hoffs, harm⟩ cs by_ ch).mem

/-- So does the store of an agent that caches the line. -/
theorem agentStore_mem {s : State} (hoffs : s.offs = []) (harm : s.inject.arm = false) (agent : Nat) (cs : List Host.Cell) :
    (s.agentStore agent cs).mem = memPut s.mem cs := by
  unfold State.agentStore
  extract_lets sp s1 s2 s3
  have h1 : Quiet s.mem s.crews s1 := foldl_keeps (fun _ _ hs => hs.request _ _ _ _ _ _ _) _ ⟨rfl, rfl, hoffs, harm⟩
  have h2 : Quiet (memPut s.mem cs) s.crews s2 := (h1.carry _ _).perform cs
  have h3 : Quiet (memPut s.mem cs) s.crews s3 := foldl_keeps (fun _ _ hs => hs.of_eq rfl rfl rfl rfl) _ h2
  exact h3.mem

theorem homeWrite_writes (s : State) (agent loc : Nat) (bs : List Byte) (hloc : locCtl loc = false)
    (hctl : ∀ c ∈ cellsOf loc bs, locCtl c.1 = false) (hflip : s.flipping loc = false) (harm : s.inject.arm = false) (hoffs : s.offs = []) :
    ∃ t, exec (.homeWrite agent loc bs) s = .next t ∧ Wrote s t (cellsOf loc bs) := by
  simp only [exec, execHomeWrite]
  rw [if_neg (by simp [hloc]), if_neg (by simp [hflip])]
  refine ⟨_, rfl, wrote_of_mem ?_⟩
  split
  · exact agentStore_mem hoffs harm agent _
  · exact homeCells_mem hoffs harm hctl _ _ _

theorem homeWrite_discarded (s : State) (agent loc : Nat) (bs : List Byte) (hloc : locCtl loc = true) (h56 : agent ≠ 56) (h57 : agent ≠ 57) :
    ∃ t, exec (.homeWrite agent loc bs) s = .next t ∧ t = s := by
  simp only [exec, execHomeWrite]
  rw [if_pos hloc, if_neg (by simp [h56, h57])]
  exact ⟨s, rfl, rfl⟩

/-! ## Walks (R45, R338) -/

/-- The entry of a leaf is the eight bytes where it lies. -/
theorem walkFrom_pte {s : State} {ctx va lvl table : Nat} {lf : Leaf} (h : walkFrom s ctx va lvl table = some lf) :
    lf.pte = memNat s.mem lf.at_ 8 := by
  induction lvl generalizing table with
  | zero =>
    rw [walkFrom] at h
    split at h
    · cases h
    · split at h
      · obtain ⟨size, -, rfl⟩ := Option.map_eq_some_iff.mp h
        rfl
      · split at h <;> cases h
  | succ lvl ih =>
    rw [walkFrom] at h
    split at h
    · cases h
    · split at h
      · obtain ⟨size, -, rfl⟩ := Option.map_eq_some_iff.mp h
        rfl
      · split at h
        · cases h
        · exact ih h

/-- The bits that a walk leaves in an entry. -/
def walkBits (pte : Nat) (write : Bool) : Nat := pte ||| (if write then 0xC0 else 0x40)

theorem walkBits_lt {pte : Nat} (h : pte < 256 ^ 8) (write : Bool) : walkBits pte write < 256 ^ 8 := by
  have hbits : (if write then 0xC0 else 0x40) < 2 ^ 64 := by cases write <;> decide
  exact Nat.or_lt_two_pow (show pte < 2 ^ 64 from h) hbits

theorem walkBits_dirty (pte : Nat) : walkBits pte true / 128 % 2 = 1 := by
  have hbit : (walkBits pte true).testBit 7 = true := by
    unfold walkBits
    rw [Nat.testBit_or]
    simp [show (192 : Nat).testBit 7 = true from rfl]
  rw [Nat.testBit_eq_decide_div_mod_eq] at hbit
  simpa using hbit

/-- The memory of a walk's end: the entry with its bits set, and nothing else. -/
theorem walk_writes {s : State} {ctx : Nat} {va : W64} {lf : Leaf} (write : Bool) (hwalk : s.walk ctx va = some lf)
    (hctl : ∀ j, j < 8 → locCtl (lf.at_ + j) = false) (harm : s.inject.arm = false) (hoffs : s.offs = []) :
    let u := if walkBits lf.pte write = lf.pte then s else s.homeCells (cellsOf lf.at_ (bytesOf 8 (walkBits lf.pte write))) none
    memNat u.mem lf.at_ 8 = walkBits lf.pte write ∧ ∀ a, (a < lf.at_ ∨ lf.at_ + 8 ≤ a) → memGet u.mem a = memGet s.mem a := by
  have hpte : lf.pte = memNat s.mem lf.at_ 8 := walkFrom_pte hwalk
  have hlt : lf.pte < 256 ^ 8 := hpte ▸ memNat_lt _ _ _
  have hcells : ∀ c ∈ cellsOf lf.at_ (bytesOf 8 (walkBits lf.pte write)), locCtl c.1 = false := fun c hc => by
    obtain ⟨hlo, hhi⟩ := cellsOf_inside hc
    rw [length_bytesOf] at hhi
    have hj := hctl (c.1 - lf.at_) (by omega)
    rwa [Nat.add_sub_of_le hlo] at hj
  dsimp only
  split
  · next hsame => exact ⟨by rw [hsame]; exact hpte.symm, fun _ _ => rfl⟩
  · rw [homeCells_mem hoffs harm hcells]
    refine ⟨by rw [memNat_memPut, Nat.mod_eq_of_lt (walkBits_lt hlt write)], fun a ha => memPut_outside _ ?_⟩
    rw [length_bytesOf]
    exact ha

theorem pageWalkDone_ends (s : State) (core ctx : Nat) (va : W64) (write : Bool) (lf : Leaf) (hcan : canonical va = true)
    (hwalk : s.walk ctx va = some lf) (hflip : s.flipping lf.at_ = false) (hctl : ∀ j, j < 8 → locCtl (lf.at_ + j) = false)
    (harm : s.inject.arm = false) (hoffs : s.offs = []) :
    ∃ t, exec (.pageWalkDone core ctx va write) s = .next t ∧ t.tlbHas core ctx va write = true ∧
      memNat t.mem lf.at_ 8 = lf.pte ||| (if write then 0xC0 else 0x40) ∧
      ∀ a, (a < lf.at_ ∨ lf.at_ + 8 ≤ a) → memGet t.mem a = memGet s.mem a := by
  obtain ⟨hnat, hothers⟩ := walk_writes write hwalk hctl harm hoffs
  simp only [exec, execPageWalkDone, State.walkEnds]
  rw [if_pos hcan, hwalk]
  dsimp only
  rw [if_neg (by simp [hflip])]
  unfold walkBits at hnat hothers
  refine ⟨_, rfl, ?_, hnat, hothers⟩
  unfold State.tlbHas
  rw [State.onCore_core_self]
  simp only [List.take_succ_cons, List.any_cons, beq_self_eq_true, Bool.true_and, Bool.or_eq_true]
  refine .inl ?_
  cases write
  · simp
  · simpa [walkBits] using walkBits_dirty lf.pte

/-! ## Copies of the core caches and of the die L2 (R259, R293) -/

theorem missScore_agenda (s : State) (core line : Nat) : (s.missScore core line).mem = s.mem ∧ (s.missScore core line).dies = s.dies := by
  unfold State.missScore
  dsimp only
  split <;> exact ⟨rfl, rfl⟩

theorem l1Read_clause (s : State) (core line f l : Nat) :
    (((s.core core).copy? line f l).isSome = true → coreOfKey s.cur ≠ core ∨ s.me.mustRead line f l = false →
      ∃ t, exec (.l1Read core line f l) s = .next t ∧ t = s) ∧
    (((s.core core).copy? line f l).isNone = true → ∃ t, exec (.l1Read core line f l) s = .next t ∧
      (∀ a, memGet t.mem a = memGet s.mem a) ∧ Instr.l2Read core line f l ∈ t.agenda ∧
      (((s.die (dieOfCore core)).span? line f l).isNone = true → Instr.getS (dieOfCore core) line f l ∈ t.agenda)) := by
  simp only [exec, execL1Read]
  refine ⟨fun hhit hfresh => ⟨s, if_pos ?_, rfl⟩, fun hmiss => ?_⟩
  · obtain hcore | hmust := hfresh
    · simp [hhit, hcore]
    · simp [hhit, hmust]
  · have hno : ¬(((s.core core).copy? line f l).isSome && !(coreOfKey s.cur == core && s.me.mustRead line f l)) = true := by
      rw [Option.isNone_iff_eq_none.mp hmiss]
      simp
    obtain ⟨hmem, hdies⟩ := missScore_agenda s core line
    generalize hu : (if coreOfKey (s.missScore core line).cur = core ∧ (s.missScore core line).hasCrew (s.missScore core line).cur = true ∧
      isMerge ((s.missScore core line).mapSpan line f l) = true then
      (s.missScore core line).onMe fun c => { c with merges := c.merges + 1 } else s.missScore core line) = u
    have humem : u.mem = s.mem ∧ u.dies = s.dies := by
      rw [← hu]
      split <;> exact ⟨hmem, hdies⟩
    refine ⟨_, if_neg hno, ?_, ?_, fun hnone => ?_⟩
    · intro a
      split <;> exact congrArg (memGet · a) humem.1
    · exact List.mem_append_right _ (List.mem_singleton.mpr rfl)
    · have hspan : (u.die (dieOfCore core)).span? line f l = none := by
        unfold State.die
        rw [humem.2]
        exact Option.isNone_iff_eq_none.mp hnone
      rw [hspan]
      exact List.mem_append_left _ (List.mem_append_right _ (List.mem_singleton.mpr rfl))

@[simp] theorem putL1_head (c : Core) (x : L1Copy) : (c.putL1 x).l1.head? = some x := rfl

@[simp] theorem putL1_ts (c : Core) (x : L1Copy) : (c.putL1 x).ts = c.ts := by
  unfold Core.putL1
  dsimp only
  split <;> rfl

theorem span_line {d : Die} {line f l : Nat} {x : L2Span} (h : d.span? line f l = some x) : x.line = line := by
  have hfound := List.find?_some h
  simp only [Bool.and_eq_true, beq_iff_eq] at hfound
  exact hfound.1.1

theorem wordsAt_source {s : State} (h : s.offs = []) (a line f l : Nat) : s.wordsAt a line f l = s.spanWords line f l :=
  if_pos (by rw [h]; rfl)

/-- What a lease leaves of its core (R259). -/
theorem grantLease_core {s : State} {core line f l : Nat} {x : L2Span} (hx : (s.die (dieOfCore core)).span? line f l = some x) (hoffs : s.offs = []) :
    (s.grantLease core line f l).mem = s.mem ∧ ∃ y, ((s.grantLease core line f l).core core).l1.head? = some y ∧
      y.line = line ∧ y.f = x.f ∧ y.l = x.l ∧ y.words = s.spanWords line x.f x.l ∧ y.wts = x.wts ∧
      y.leaseEnd = stampMax x.rts ((s.core core).ts + (s.die (dieOfCore core)).lease.setWidth 16) ∧
      ((s.grantLease core line f l).core core).ts = (s.core core).ts := by
  have hline := span_line hx
  unfold State.grantLease
  dsimp only
  rw [hx]
  dsimp only
  generalize hv : s.onDie (dieOfCore core) _ = v
  have hmem : v.mem = s.mem := by rw [← hv]; rfl
  have hvoffs : v.offs = [] := by rw [← hv]; exact hoffs
  have hcores : v.cores = s.cores := by rw [← hv]; rfl
  refine ⟨hmem, v.copyOf core x (stampMax x.rts ((s.core core).ts + (s.die (dieOfCore core)).lease.setWidth 16)) x.wts (slotOfKey v.cur),
    ?_, hline, rfl, rfl, ?_, rfl, rfl, ?_⟩
  · rw [State.onCore_core_self]
    rfl
  · rw [← hline]
    refine (wordsAt_source hvoffs _ _ _ _).trans ?_
    unfold State.spanWords State.lineWord
    rw [hmem]
  · rw [State.onCore_core_self, putL1_ts, State.core, hcores]
    rfl

theorem l2Read_leases (s : State) (core line f l : Nat) (x : L2Span) (hx : (s.die (dieOfCore core)).span? line f l = some x) (hoffs : s.offs = []) :
    ∃ t y, exec (.l2Read core line f l) s = .next t ∧ (∀ a, memGet t.mem a = memGet s.mem a) ∧ (t.core core).l1.head? = some y ∧
      y.line = line ∧ y.f = x.f ∧ y.l = x.l ∧ y.words = s.spanWords line x.f x.l ∧ y.wts = x.wts ∧
      y.leaseEnd = stampMax x.rts ((s.core core).ts + (s.die (dieOfCore core)).lease.setWidth 16) ∧ (t.core core).ts = (s.core core).ts := by
  obtain ⟨hmem, y, hy⟩ := grantLease_core hx hoffs
  simp only [exec, execL2Read]
  rw [hx]
  dsimp only
  refine ⟨_, y, rfl, fun a => ?_, ?_⟩
  · split <;> exact congrArg (memGet · a) hmem
  · split <;> exact hy

theorem l2Write_stamps (s : State) (core line f l : Nat) (x : L2Span) (hx : (s.die (dieOfCore core)).span? line f l = some x) :
    ∃ t y, exec (.l2Write core line f l) s = .next t ∧ (∀ a, memGet t.mem a = memGet s.mem a) ∧ (t.core core).l1.head? = some y ∧
      (t.core core).ts = stampMax (s.core core).ts (x.rts + 1) ∧ y.wts = (t.core core).ts ∧ y.leaseEnd = (t.core core).ts ∧
      ({ x with wts := (t.core core).ts, rts := (t.core core).ts, unclean := true } : L2Span) ∈ (t.die (dieOfCore core)).l2 := by
  simp only [exec, execL2Write]
  unfold State.stampWrite
  dsimp only
  rw [hx]
  dsimp only
  generalize hu : (if x.unclean then s else s.boundUnclean (dieOfCore core)) = u
  have hside : u.mem = s.mem ∧ u.cores = s.cores := by
    rw [← hu]
    unfold State.boundUnclean
    repeat' split
    all_goals exact ⟨rfl, rfl⟩
  obtain ⟨hmem, hcores⟩ := hside
  generalize hts : stampMax (s.core core).ts (x.rts + 1) = ts
  generalize hd : u.onDie (dieOfCore core) _ = v
  have hvmem : v.mem = s.mem := by rw [← hd]; exact hmem
  have hspan : ({ x with wts := ts, rts := ts, unclean := true } : L2Span) ∈ (v.die (dieOfCore core)).l2 := by
    rw [← hd, State.onDie_die_self]
    exact List.mem_append_right _ (List.mem_singleton.mpr rfl)
  generalize hw : (v.onCore core _ : State) = w
  have hcore : (w.core core).l1.head? = some (v.copyOf core x ts ts (slotOfKey s.cur)) ∧ (w.core core).ts = ts := by
    rw [← hw, State.onCore_core_self]
    exact ⟨rfl, rfl⟩
  have hwside : w.mem = v.mem ∧ w.dies = v.dies := by
    rw [← hw]
    exact ⟨rfl, rfl⟩
  obtain ⟨hhead, htsw⟩ := hcore
  obtain ⟨hwmem, hwdies⟩ := hwside
  have htcore : ∀ p, (w.dropWatchers p line f l).core core = w.core core := fun _ => rfl
  refine ⟨_, _, rfl, fun a => congrArg (memGet · a) (hwmem.trans hvmem), hhead, htsw, htsw.symm, htsw.symm, ?_⟩
  rw [htcore, htsw]
  unfold State.die at hspan
  rw [← hwdies] at hspan
  exact hspan

/-! ## Clocks of a die's cores (R261) -/

theorem mem_dieCores {d n : Nat} : n ∈ dieCores d ↔ 36 * d ≤ n ∧ n < 36 * d + 36 := mem_upFrom

theorem nodup_dieCores (d : Nat) : (dieCores d).Nodup := List.nodup_range.map fun _ _ h => Nat.add_left_cancel h

/-- A change of each core of a list, core by core. -/
theorem foldl_core {f : State → Nat → State} {g : Core → Core} (hself : ∀ s n, (f s n).core n = g (s.core n))
    (hother : ∀ s j n, n ≠ j → (f s j).core n = s.core n) (ns : List Nat) (hnodup : ns.Nodup) (s : State) (n : Nat) :
    (ns.foldl f s).core n = if n ∈ ns then g (s.core n) else s.core n := by
  induction ns generalizing s with
  | nil => rfl
  | cons j js ih =>
    obtain ⟨hnot, hjs⟩ := List.nodup_cons.mp hnodup
    rw [List.foldl_cons, ih hjs]
    by_cases hn : n = j
    · subst hn
      rw [if_neg hnot, if_pos List.mem_cons_self, hself]
    · rw [hother s j n hn]
      simp [hn]

theorem foldl_onCore_core (g : Core → Core) (ns : List Nat) (hnodup : ns.Nodup) (s : State) (n : Nat) :
    (ns.foldl (fun s n => s.onCore n g) s).core n = if n ∈ ns then g (s.core n) else s.core n :=
  foldl_core (fun s n => s.onCore_core_self n g) (fun _ _ _ hn => MapLaws.get_put_ne _ _ _ hn) ns hnodup s n

theorem foldl_onCore_mem (g : Core → Core) (ns : List Nat) (s : State) : (ns.foldl (fun s n => s.onCore n g) s).mem = s.mem := by
  induction ns generalizing s with
  | nil => rfl
  | cons n ns ih => exact ih (s.onCore n g)

/-- The greatest clock of a die is one of its cores'. -/
theorem tlead_is (s : State) (d : Nat) : ∃ m, 36 * d ≤ m ∧ m < 36 * d + 36 ∧ s.tlead d = (s.core m).ts := by
  unfold State.tlead
  have hstart : ∃ m, 36 * d ≤ m ∧ m < 36 * d + 36 ∧ (s.core (36 * d)).ts = (s.core m).ts := ⟨36 * d, by omega, by omega, rfl⟩
  suffices h : ∀ (ns : List Nat), (∀ n ∈ ns, 36 * d ≤ n ∧ n < 36 * d + 36) → ∀ ts : Stamp,
      (∃ m, 36 * d ≤ m ∧ m < 36 * d + 36 ∧ ts = (s.core m).ts) →
      ∃ m, 36 * d ≤ m ∧ m < 36 * d + 36 ∧ ns.foldl (fun t n => stampMax t (s.core n).ts) ts = (s.core m).ts from
    h (dieCores d) (fun n hn => mem_dieCores.mp hn) _ hstart
  intro ns
  induction ns with
  | nil => exact fun _ ts h => h
  | cons n ns ih =>
    intro hns ts hts
    refine ih (fun j hj => hns j (List.mem_cons_of_mem _ hj)) _ ?_
    dsimp only [stampMax]
    split
    · exact ⟨n, (hns n List.mem_cons_self).1, (hns n List.mem_cons_self).2, rfl⟩
    · exact hts

/-- A core's clock at a clamp to a lead. -/
def Core.clamped (lead : Stamp) (c : Core) : Core := if 2 ^ 13 < (lead - c.ts).toNat then { c with ts := lead - 8192 } else c

/-- A clamp of one core's clock. -/
def State.clampCore (s : State) (lead : Stamp) (n : Nat) : State :=
  if 2 ^ 13 < (lead - (s.core n).ts).toNat then s.onCore n fun c => { c with ts := lead - 8192 } else s

theorem clampCore_self (lead : Stamp) (s : State) (n : Nat) : (s.clampCore lead n).core n = (s.core n).clamped lead := by
  unfold State.clampCore Core.clamped
  split
  · exact s.onCore_core_self n _
  · rfl

theorem clampCore_other (lead : Stamp) (s : State) (j n : Nat) (h : n ≠ j) : (s.clampCore lead j).core n = s.core n := by
  unfold State.clampCore
  split
  · exact MapLaws.get_put_ne _ _ _ h
  · rfl

theorem clampClocks_eq (s : State) (d : Nat) : s.clampClocks d = (dieCores d).foldl (fun t n => t.clampCore (s.tlead d) n) s := rfl

theorem clampCore_mem (s : State) (lead : Stamp) (n : Nat) : (s.clampCore lead n).mem = s.mem := by
  unfold State.clampCore
  split <;> rfl

theorem clampClocks_mem (s : State) (d : Nat) : (s.clampClocks d).mem = s.mem := by
  rw [clampClocks_eq]
  generalize dieCores d = ns
  exact foldl_keeps (P := fun t : State => t.mem = s.mem) (fun t n h => (clampCore_mem t _ n).trans h) ns rfl

theorem clampClocks_core (s : State) (d n : Nat) :
    (s.clampClocks d).core n = if n ∈ dieCores d then (s.core n).clamped (s.tlead d) else s.core n := by
  rw [clampClocks_eq]
  exact foldl_core (clampCore_self (s.tlead d)) (clampCore_other (s.tlead d)) _ (nodup_dieCores d) s n

theorem leaseTick_advances (s : State) (d n : Nat) (hlo : 36 * d ≤ n) (hhi : n < 36 * d + 36) :
    ∃ t, exec (.leaseTick d) s = .next t ∧ (∀ a, memGet t.mem a = memGet s.mem a) ∧
    ((t.core n).ts = (s.core n).ts + 1 ∨
      ∃ m, 36 * d ≤ m ∧ m < 36 * d + 36 ∧ 2 ^ 13 < ((s.core m).ts - (s.core n).ts).toNat ∧ (t.core n).ts = (s.core m).ts + 1 - 8192) := by
  simp only [exec, execLeaseTick]
  generalize hu : (dieCores d).foldl (fun s n => s.onCore n fun c => { c with ts := c.ts + 1 }) s = u
  have hcore : ∀ m, 36 * d ≤ m → m < 36 * d + 36 → (u.core m).ts = (s.core m).ts + 1 := fun m h1 h2 => by
    rw [← hu, foldl_onCore_core (fun c => { c with ts := c.ts + 1 }) _ (nodup_dieCores d), if_pos (mem_dieCores.mpr ⟨h1, h2⟩)]
  have hmem : u.mem = s.mem := by
    rw [← hu]
    exact foldl_onCore_mem _ _ _
  obtain ⟨m, hm1, hm2, hlead⟩ := tlead_is u d
  refine ⟨_, rfl, fun a => congrArg (memGet · a) ((clampClocks_mem u d).trans hmem), ?_⟩
  rw [clampClocks_core, if_pos (mem_dieCores.mpr ⟨hlo, hhi⟩), Core.clamped, hlead, hcore m hm1 hm2, hcore n hlo hhi]
  split
  · next hfar => exact .inr ⟨m, hm1, hm2, by rwa [add_sub_add_right_eq_sub] at hfar, rfl⟩
  · exact .inl (hcore n hlo hhi)

theorem timestampSweep_sweeps (s : State) (d n : Nat) (x : L1Copy) (hlo : 36 * d ≤ n) (hhi : n < 36 * d + 36) :
    ∃ t, exec (.timestampSweep d) s = .next t ∧ (∀ a, memGet t.mem a = memGet s.mem a) ∧
    (x ∈ (t.core n).l1 ↔ x ∈ (s.core n).l1 ∧
      ¬(((t.core n).ts - x.leaseEnd).toNat < 2 ^ 15 ∧ 2 ^ 14 < ((t.core n).ts - x.leaseEnd).toNat)) := by
  simp only [exec, execTimestampSweep]
  have hmem := clampClocks_mem s d
  have hl1 : ((s.clampClocks d).core n).l1 = (s.core n).l1 := by
    rw [clampClocks_core, Core.clamped]
    split
    · split <;> rfl
    · rfl
  generalize s.clampClocks d = u at hmem hl1
  generalize hv : ({ u.onDie d _ with crews := _, relLines := _, agentSeen := _ } : State) = v
  have hvmem : v.mem = s.mem := by rw [← hv]; exact hmem
  have hvcore : (v.core n).l1 = (s.core n).l1 := by rw [← hv]; exact hl1
  refine ⟨_, rfl, fun a => congrArg (memGet · a) ((foldl_onCore_mem _ _ _).trans hvmem), ?_⟩
  rw [foldl_onCore_core (fun c => { c with l1 := c.l1.filter fun x => !(behind c.ts x.leaseEnd (2 ^ 14 + 1)) }) _ (nodup_dieCores d),
    if_pos (mem_dieCores.mpr ⟨hlo, hhi⟩), List.mem_filter, hvcore]
  refine and_congr Iff.rfl ?_
  simp [behind, Nat.succ_le_iff]
  omega

theorem dropMessage_drops (s : State) (core line f l : Nat) (x : L1Copy) :
    ∃ t, exec (.dropMessage core line f l) s = .next t ∧ { t with cores := s.cores } = s ∧
    (∀ j, j ≠ core → Map.find? t.cores j = Map.find? s.cores j) ∧
    (x ∈ (t.core core).l1 ↔ x ∈ (s.core core).l1 ∧ ¬(x.line = line ∧ f ≤ x.l ∧ x.f ≤ l)) := by
  refine ⟨_, rfl, rfl, fun j hj => MapLaws.find_put_ne _ _ hj, ?_⟩
  rw [State.onCore_core_self]
  simp only [Core.dropL1, overlaps, List.mem_filter, Bool.not_eq_true', Bool.and_eq_false_iff, beq_eq_false_iff_ne, decide_eq_false_iff_not]
  refine and_congr Iff.rfl ?_
  tauto

end Sys2Proof.Machine
end

section
/-! PROOFS. The directory (R264 to R266): who holds a span after a request, a write-back, a clean update or a snoop. -/

namespace Sys2Proof.Machine

/-! ## The spans of a line -/

/-- The directory's spans of a line. -/
def State.onLine (s : State) (line : Nat) : List DirSpan := s.dir.filter fun d => d.line == line

/-- The span that covers words [f, l] of a line. -/
def State.spanAt (s : State) (line f l : Nat) : Option DirSpan := s.dir.find? fun d => d.line == line && d.f ≤ f && l ≤ d.l

theorem find_spanAt (s : State) (line f l : Nat) : (s.dir.find? fun d => d.line == line && d.f ≤ f && l ≤ d.l) = s.spanAt line f l := rfl

theorem spanAt_onLine (s : State) (line f l : Nat) : s.spanAt line f l = (s.onLine line).find? fun d => d.f ≤ f && l ≤ d.l := by
  unfold State.spanAt State.onLine
  rw [List.find?_filter]
  exact congrArg (fun p => s.dir.find? p) (funext fun x => by simp [Bool.and_assoc, Bool.beq_eq_decide_eq])

theorem heldAs_eq (s : State) (a line f l : Nat) : s.heldAs a line f l = (s.spanAt line f l).bind fun d => Map.find? d.st a := by
  unfold State.heldAs
  change (match s.spanAt line f l with | some d => Map.find? d.st a | none => none) = _
  cases s.spanAt line f l <;> rfl

theorem heldAs_of_onLine {s t : State} {line : Nat} (h : t.onLine line = s.onLine line) (a f l : Nat) :
    t.heldAs a line f l = s.heldAs a line f l := by
  rw [heldAs_eq, heldAs_eq, spanAt_onLine, spanAt_onLine, h]

theorem heldAs_of_dir {s t : State} (h : t.dir = s.dir) (a line f l : Nat) : t.heldAs a line f l = s.heldAs a line f l :=
  heldAs_of_onLine (by rw [State.onLine, h]; rfl) a f l

theorem spanAt_covers {s : State} {line f l : Nat} {d : DirSpan} (h : s.spanAt line f l = some d) : d.line = line ∧ d.f ≤ f ∧ l ≤ d.l := by
  have hfound := List.find?_some h
  simp only [Bool.and_eq_true, beq_iff_eq, decide_eq_true_eq] at hfound
  exact ⟨hfound.1.1, hfound.1.2, hfound.2⟩

/-- The span that covers a covering span's words is that span. -/
theorem spanAt_self {s : State} {line f l : Nat} {d : DirSpan} (h : s.spanAt line f l = some d) : s.spanAt line d.f d.l = some d := by
  obtain ⟨hline, hf, hl⟩ := spanAt_covers h
  unfold State.spanAt at h ⊢
  obtain ⟨hd, as, bs, hdir, hbefore⟩ := List.find?_eq_some_iff_append.mp h
  refine List.find?_eq_some_iff_append.mpr ⟨by simp [hline], as, bs, hdir, fun x hx => ?_⟩
  have hno := hbefore x hx
  simp only [Bool.not_eq_true', Bool.and_eq_false_iff, beq_eq_false_iff_ne, decide_eq_false_iff_not] at hno ⊢
  omega

/-! ## Entries of the directory -/

theorem setDir_onLine (s : State) {line f l : Nat} {d : DirSpan} (h : d.line = line) :
    (s.setDir line f l (some d)).onLine line = (s.onLine line).filter (fun x => !overlaps f l x.f x.l) ++ if d.st.isEmpty then [] else [d] := by
  have hrest : (s.dir.filter fun x => !(x.line == line && overlaps f l x.f x.l)).filter (fun x => x.line == line) =
      (s.onLine line).filter fun x => !overlaps f l x.f x.l := by
    unfold State.onLine
    rw [List.filter_filter, List.filter_filter]
    refine List.filter_congr fun x _ => ?_
    cases (x.line == line) <;> simp
  unfold State.setDir
  dsimp only
  unfold State.onLine at hrest ⊢
  split
  · rw [hrest, List.append_nil]
  · rw [List.filter_append, hrest]
    simp [h]

theorem setDir_otherLine (s : State) {line other f l : Nat} (new : Option DirSpan) (hnew : ∀ d, new = some d → d.line = other) (h : line ≠ other) :
    (s.setDir other f l new).onLine line = s.onLine line := by
  have hrest : (s.dir.filter fun x => !(x.line == other && overlaps f l x.f x.l)).filter (fun x => x.line == line) = s.onLine line := by
    unfold State.onLine
    rw [List.filter_filter]
    refine List.filter_congr fun x _ => ?_
    by_cases hx : x.line = line
    · simp [hx, h]
    · simp [hx]
  unfold State.setDir
  dsimp only
  unfold State.onLine at hrest ⊢
  split
  · next d =>
    split
    · exact hrest
    · rw [List.filter_append, hrest]
      simp [hnew d rfl, Ne.symm h]
  · exact hrest

/-- Who holds the words of an entry that is put in the directory. -/
theorem heldAs_setDir (s : State) {line F L f l : Nat} {d : DirSpan} (hline : d.line = line) (hf : d.f ≤ f) (hl : l ≤ d.l) (hF : F ≤ f) (hL : l ≤ L)
    (hfl : f ≤ l) (a : Nat) : (s.setDir line F L (some d)).heldAs a line f l = Map.find? d.st a := by
  have hnone : ((s.onLine line).filter fun x => !overlaps F L x.f x.l).find? (fun x => decide (x.f ≤ f) && decide (l ≤ x.l)) = none := by
    refine List.find?_eq_none.mpr fun x hx => ?_
    obtain ⟨-, hover⟩ := List.mem_filter.mp hx
    simp only [overlaps, Bool.not_eq_true', Bool.and_eq_false_iff, decide_eq_false_iff_not, Bool.and_eq_true, decide_eq_true_eq] at hover ⊢
    omega
  rw [heldAs_eq, spanAt_onLine, setDir_onLine s hline, List.find?_append, hnone, Option.none_or]
  cases hst : d.st with
  | nil => rfl
  | cons x xs => simp [hf, hl, hst]

/-! ## What leaves the directory as it is -/

section
variable (s : State)

theorem dir_keepParcel (loc : Nat) : (s.keepParcel loc).dir = s.dir :=
  foldl_keeps (P := fun t : State => t.dir = s.dir) (fun t d h => by
    unfold State.keepFor
    dsimp only
    split
    · exact h
    · split <;> exact h) _ rfl

theorem dir_agentMeets (a line : Nat) : (s.agentMeets a line).dir = s.dir := by
  unfold State.agentMeets
  dsimp only
  split <;> rfl

@[simp] theorem dir_pass (port line f l dst : Nat) : (s.pass port line f l dst).dir = s.dir := by
  unfold State.pass
  dsimp only
  split <;> rfl

@[simp] theorem dir_lose (a line f l : Nat) (by_ : Option Nat) : (s.lose a line f l by_).dir = s.dir := by
  unfold State.lose
  dsimp only
  split <;> rfl

theorem dir_loseAll (ls : List Nat) (line f l : Nat) (by_ : Option Nat) : (ls.foldl (fun s b => s.lose b line f l by_) s).dir = s.dir :=
  foldl_keeps (P := fun t : State => t.dir = s.dir) (fun t _ h => (dir_lose t _ _ _ _ _).trans h) ls rfl

@[simp] theorem dir_newSource (line f l dst : Nat) (stay : List Nat) : (s.newSource line f l dst stay).dir = s.dir := rfl
@[simp] theorem dir_sendRec (r : ChkRec) : (s.sendRec r).dir = s.dir := rfl
@[simp] theorem dir_sendClose (d : DirSpan) : (s.sendClose d).dir = s.dir := rfl
@[simp] theorem dir_sendOpen (line f l : Nat) (num : BitVec 24) (o : Option Nat) : (s.sendOpen line f l num o).dir = s.dir := rfl

/-- What an agent gives up leaves the other lines of the directory as they are. -/
theorem giveUp_otherLine (a : Nat) {line other : Nat} (f l : Nat) (h : line ≠ other) : (s.giveUp a other f l).onLine line = s.onLine line := by
  have hsame : ∀ {t : State}, t.dir = s.dir → t.onLine line = s.onLine line := fun ht => by rw [State.onLine, ht]; rfl
  unfold State.giveUp
  split
  · rfl
  · next d hd =>
    have hline : d.line = other := (spanAt_covers (s := s) hd).1
    split
    · rfl
    · exact hsame (dir_lose s _ _ _ _ _)
    · extract_lets s1 s2 s3 s4
      refine (setDir_otherLine s4 _ (fun x hx => by rw [← Option.some.inj hx]; exact hline) h).trans (hsame ?_)
      refine (dir_lose _ _ _ _ _ _).trans ?_
      change s2.dir = s.dir
      change (if _ then s1 else s1.pass _ _ _ _ _).dir = s.dir
      split
      · rfl
      · exact dir_pass s1 _ _ _ _ _

theorem gain_onLine (a line f l : Nat) : (s.gain a line f l).onLine line = s.onLine line := by
  unfold State.gain
  split
  · rfl
  · change (s.l2Room a line).onLine line = s.onLine line
    unfold State.l2Room
    dsimp only
    split
    · rfl
    · next hroom =>
      split
      · rfl
      · next old xs hxs =>
        have hne : line ≠ old.line := fun heq => by
          refine hroom (.inr (.inr ?_))
          rw [hxs, List.any_cons, heq]
          simp
        refine List.foldlRecOn (motive := fun t : State => t.onLine line = s.onLine line) _ _ rfl fun t ht x hx => ?_
        obtain ⟨-, hold⟩ := List.mem_filter.mp hx
        have hxline : x.line = old.line := by simpa using hold
        exact (giveUp_otherLine t a x.f x.l (by rw [hxline]; exact hne)).trans ht

end

/-! ## How a request is mapped (R264) -/

theorem foldl_min_le (ds : List DirSpan) (f : Nat) : ds.foldl (fun a d => min a d.f) f ≤ f := by
  induction ds generalizing f with
  | nil => exact Nat.le_refl f
  | cons d ds ih => exact (ih _).trans (Nat.min_le_left _ _)

theorem le_foldl_max (ds : List DirSpan) (l : Nat) : l ≤ ds.foldl (fun a d => max a d.l) l := by
  induction ds generalizing l with
  | nil => exact Nat.le_refl l
  | cons d ds ih => exact (Nat.le_max_left _ _).trans (ih _)

/-- A request is mapped onto the span that covers its words, or onto words of its own, or merges spans. -/
theorem mapSpan_cases (s : State) (line f l : Nat) :
    (∃ d, s.spanAt line f l = some d ∧ s.mapSpan line f l = (d.f, d.l, [d])) ∨
    (s.spanAt line f l = none ∧ (s.mapSpan line f l).1 ≤ f ∧ l ≤ (s.mapSpan line f l).2.1 ∧
      (isMerge (s.mapSpan line f l) = true ∨ s.mapSpan line f l = (f, l, []))) := by
  have hspan : s.spanAt line f l = (s.dir.filter (·.line == line)).find? fun d => d.f ≤ f && l ≤ d.l := spanAt_onLine s line f l
  unfold State.mapSpan
  dsimp only
  split
  · next d hd => exact .inl ⟨d, hspan.trans hd, rfl⟩
  · next hnone =>
    refine .inr ⟨hspan.trans hnone, foldl_min_le _ _, le_foldl_max _ _, ?_⟩
    generalize hms : (if ((s.dir.filter (·.line == line)).filter fun d => overlaps f l d.f d.l).isEmpty then
      (if (s.dir.filter (·.line == line)).length < 4 then [] else s.dir.filter (·.line == line))
      else (s.dir.filter (·.line == line)).filter fun d => overlaps f l d.f d.l) = ms
    have hin : ∀ d ∈ ms, d ∈ s.dir.filter (·.line == line) := fun d hd => by
      rw [← hms] at hd
      split at hd
      · split at hd
        · cases hd
        · exact hd
      · exact (List.mem_filter.mp hd).1
    match ms, hin with
    | [], _ => exact .inr rfl
    | [d], hin =>
      refine .inl ?_
      have hno := List.find?_eq_none.mp hnone d (hin d List.mem_cons_self)
      simp only [isMerge, List.foldl_cons, List.foldl_nil, Bool.and_eq_true, decide_eq_true_eq, Bool.not_eq_true', Bool.and_eq_false_iff,
        beq_eq_false_iff_ne] at hno ⊢
      omega
    | _ :: _ :: _, _ => exact .inl rfl

/-! ## Requests (R264, R265) -/

theorem put_ne_nil {α : Type} (m : Map α) (k : Nat) (v : α) : Map.find? (Map.put m k v) k = some v := MapLaws.find_put_self m k v

/-- What a merge leaves of its words: its agent alone holds them, in M for a write. -/
theorem merge_holds (s : State) (a line F L : Nat) (ms : List DirSpan) (write : Bool) (by_ : Option Nat) {f l : Nat} (hF : F ≤ f) (hL : l ≤ L)
    (hfl : f ≤ l) :
    ∃ st, (write = true → st = .m) ∧ ∀ b, (s.merge a line F L ms write by_).heldAs b line f l = if b = a then some st else none := by
  unfold State.merge
  extract_lets sw s1 s2 rest restH s3 s4 s5 s6 num owned s7 s8
  refine ⟨if owned then .m else .s, fun hw => ?_, fun b => ?_⟩
  · have howned : owned = true := by
      change (write || _) = true
      rw [hw, Bool.true_or]
    rw [howned]
    rfl
  · rw [heldAs_of_onLine (gain_onLine s8 a line F L), heldAs_setDir s7 (line := line) (d := ⟨line, F, L, [(a, if owned then .m else .s)], num, if owned then some a else none⟩) rfl hF hL hF hL hfl]
    by_cases hb : b = a
    · simp [Map.find?, hb]
    · simp [Map.find?, hb, Ne.symm hb]

/-- The copy that an agent still has is the one that the directory lists. -/
theorem listed_of_mine {listed : Option DirSt} {has : Bool} {x : DirSt}
    (h : (match listed with | some .s => if has then listed else none | y => y) = some x) : listed = some x := by
  split at h
  · cases has
    · cases h
    · exact h
  · exact h

/-- Who holds the words of a request after it. -/
theorem request_holds (s : State) (a line : Nat) {f l : Nat} (hfl : f ≤ l) (write : Bool) (by_ : Option Nat) (asks : Bool) :
    ((s.request a line f l write by_ asks).heldAs a line f l).isSome = true ∧
    (write = true → (s.request a line f l write by_ asks).heldAs a line f l = some .m ∧
      (s.heldAs a line f l = none → ∀ b, b ≠ a → (s.request a line f l write by_ asks).heldAs b line f l = none)) := by
  unfold State.request
  extract_lets s1 mp f1 l1 fresh d s2 listed mine w1 w2 w3 w4 w5 w6 r1 r2 r3
  have hdir1 : s1.dir = s.dir := by
    refine (dir_agentMeets _ a line).trans ?_
    split
    · exact dir_keepParcel s _
    · rfl
  have hdir2 : s2.dir = s.dir := by
    refine Eq.trans ?_ hdir1
    change (if fresh then s1.sendCreated d else s1).dir = s1.dir
    split <;> rfl
  have hlist : ∀ x, mine = some x → listed = some x := fun x hx => listed_of_mine hx
  have hcases := mapSpan_cases s1 line f l
  have hmp : mp = s1.mapSpan line f l := rfl
  have hcover : f1 ≤ f ∧ l ≤ l1 := by
    obtain ⟨x, hx, hsome⟩ | ⟨-, hF, hL, -⟩ := hcases
    · have hwords := spanAt_covers hx
      exact ⟨by rw [show f1 = x.f from congrArg (·.1) hsome]; exact hwords.2.1, by rw [show l1 = x.l from congrArg (·.2.1) hsome]; exact hwords.2.2⟩
    · exact ⟨hF, hL⟩
  obtain ⟨hf1, hl1⟩ := hcover
  split
  · obtain ⟨st, hst, hheld⟩ := merge_holds s1 a line f1 l1 mp.2.2 write by_ hf1 hl1 hfl
    refine ⟨by rw [hheld, if_pos rfl]; rfl, fun hw => ⟨by rw [hheld, if_pos rfl, hst hw], fun _ b hb => by rw [hheld, if_neg hb]⟩⟩
  · next hmerge =>
    have hd : d.line = line ∧ d.f = f1 ∧ d.l = l1 ∧ listed = s.heldAs a line f l := by
      have hs1 : s1.heldAs a line f l = s.heldAs a line f l := heldAs_of_dir hdir1 a line f l
      obtain ⟨x, hx, hsome⟩ | ⟨hnone, -, -, hm | hempty⟩ := hcases
      · have hdx : d = x := by
          change (match mp.2.2 with | d :: _ => d | [] => _) = x
          rw [hmp, hsome]
        have hmpx : mp = (x.f, x.l, [x]) := hsome
        refine ⟨by rw [hdx]; exact (spanAt_covers hx).1, by rw [hdx]; exact (congrArg (·.1) hmpx).symm,
          by rw [hdx]; exact (congrArg (·.2.1) hmpx).symm, ?_⟩
        rw [← hs1, heldAs_eq, hx]
        exact congrArg (fun y : DirSpan => Map.find? y.st a) hdx
      · exact absurd hm hmerge
      · have hmpx : mp = (f, l, []) := hempty
        have hdx : d = { line, f := f1, l := l1, st := [], num := s1.firstNum line } := by
          change (match mp.2.2 with | d :: _ => d | [] => _) = _
          rw [hmpx]
        refine ⟨by rw [hdx], by rw [hdx], by rw [hdx], ?_⟩
        rw [← hs1, heldAs_eq, hnone]
        exact congrArg (fun y : DirSpan => Map.find? y.st a) hdx
    obtain ⟨hline, hdf, hdl, hlisted⟩ := hd
    have hmine : ∀ x, mine = some x → s.heldAs a line f l = some x := fun x hx => hlisted ▸ hlist x hx
    have hkept : ∀ b, s2.heldAs b line f l = s.heldAs b line f l := fun b => heldAs_of_dir hdir2 b line f l
    have hput : ∀ (t : State) (st : Map DirSt) (num : BitVec 24) (w : Option Nat) (b : Nat),
        (t.setDir line f1 l1 (some { d with st, num, writer := w })).heldAs b line f l = Map.find? st b := fun t st num w b =>
      heldAs_setDir t (d := { d with st, num, writer := w }) hline (by rw [← hdf] at hf1; exact hf1) (by rw [← hdl] at hl1; exact hl1)
        hf1 hl1 hfl b
    clear_value mine
    split
    · next hwrite =>
      split
      · have hm := hmine _ rfl
        exact ⟨by rw [hkept, hm]; rfl, fun _ => ⟨by rw [hkept, hm], fun hno => by rw [hm] at hno; cases hno⟩⟩
      · have he := hmine _ rfl
        have hself := hput s2 (Map.put d.st a .m) d.num d.writer a
        rw [put_ne_nil] at hself
        exact ⟨congrArg Option.isSome hself, fun _ => ⟨hself, fun hno => by rw [he] at hno; cases hno⟩⟩
      · have hheld : ∀ b, (w6.gain a line f1 l1).heldAs b line f l = if b = a then some .m else none := fun b => by
          rw [heldAs_of_onLine (gain_onLine _ a line f1 l1)]
          refine (hput w5 [(a, .m)] (d.num + 1) (some a) b).trans ?_
          by_cases hb : b = a
          · simp [Map.find?, hb]
          · simp [Map.find?, hb, Ne.symm hb]
        exact ⟨by rw [hheld, if_pos rfl]; rfl, fun _ => ⟨by rw [hheld, if_pos rfl], fun _ b hb => by rw [hheld, if_neg hb]⟩⟩
    · next hread =>
      refine ⟨?_, fun hw => absurd hw hread⟩
      split
      · next x => rw [hkept, hmine x rfl]; rfl
      · rw [heldAs_of_onLine (gain_onLine _ a line f1 l1)]
        change ((match d.owner with
          | none => r2.setDir line f1 l1 (some { d with st := Map.put d.st a .s })
          | some o =>
            let o' := if Map.find? d.st o = some DirSt.e then DirSt.s else .o
            let s := r2.setDir line f1 l1 (some { d with st := Map.put (Map.put d.st o o') a .s })
            let r : ChkRec :=
              { line, f := f1, l := l1, num := d.num, hash := 0, agent := a, kind := .readJoin, wr := false, sent := s.clk }
            { s with recs := s.recs ++ [r] }).heldAs a line f l).isSome = true
        split
        · exact congrArg Option.isSome ((hput r2 _ d.num d.writer a).trans (put_ne_nil _ _ _))
        · next o _ =>
          exact congrArg Option.isSome ((hput r2 _ d.num d.writer a).trans (put_ne_nil _ _ _))

/-! ## Spans given up, cleaned and snooped (R257, R265, R266) -/

theorem erase_none {α : Type} (m : Map α) (k : Nat) : Map.find? (Map.erase m k) k = none := by
  induction m with
  | nil => rfl
  | cons x xs ih =>
    obtain ⟨j, v⟩ := x
    by_cases h : j = k
    · simp [Map.erase, h, ih]
    · simp [Map.erase, Map.find?, h, ih]

theorem held_span {s : State} {a line f l : Nat} {st : DirSt} (h : s.heldAs a line f l = some st) :
    ∃ d, s.spanAt line f l = some d ∧ Map.find? d.st a = some st := by
  rw [heldAs_eq] at h
  obtain ⟨d, hd, hst⟩ := Option.bind_eq_some_iff.mp h
  exact ⟨d, hd, hst⟩

/-- An agent that gives up a span it holds in M, O or E holds it no more. -/
theorem giveUp_gone {s : State} {a line F L f l : Nat} {d : DirSpan} {st : DirSt} (hd : s.spanAt line F L = some d) (hst : Map.find? d.st a = some st)
    (hne : st ≠ .s) (hF : d.f ≤ f) (hL : l ≤ d.l) (hfl : f ≤ l) : (s.giveUp a line F L).heldAs a line f l = none := by
  unfold State.giveUp
  rw [find_spanAt, hd]
  dsimp only
  rw [hst]
  cases st with
  | s => exact absurd rfl hne
  | m | o | e =>
    dsimp only
    refine (heldAs_setDir _ (d := { d with st := Map.erase d.st a, num := d.num + 1, writer := none }) (spanAt_covers hd).1 hF hL hF hL hfl a).trans ?_
    exact erase_none _ _

/-- An agent that gives up a shared span loses its copy. -/
theorem giveUp_shared {s : State} {a line f l : Nat} {d : DirSpan} (hd : s.spanAt line f l = some d) (hst : Map.find? d.st a = some .s) :
    s.giveUp a line f l = s.lose a line d.f d.l := by
  unfold State.giveUp
  rw [find_spanAt, hd]
  dsimp only
  rw [hst]

theorem lose_copies {s : State} {a : Nat} (h : a < 8) (line F L : Nat) {f l : Nat} (hF : F ≤ f) (hL : l ≤ L) :
    (s.lose a line F L).mem = s.mem ∧ ∀ x ∈ ((s.lose a line F L).die a).l2, ¬(x.line = line ∧ f ≤ x.l ∧ x.f ≤ l) := by
  unfold State.lose
  dsimp only
  rw [if_neg (by omega)]
  refine ⟨rfl, fun x hx => ?_⟩
  generalize hu : State.onDie (s.dropOffs a line F L) a _ = u at hx
  have hl2 : ∀ y ∈ (u.die a).l2, ¬(y.line = line ∧ overlaps F L y.f y.l = true) := fun y hy => by
    rw [← hu, State.onDie_die_self] at hy
    obtain ⟨-, hno⟩ := List.mem_filter.mp hy
    simpa [Classical.or_iff_not_imp_left] using hno
  rintro ⟨hline, hlo, hhi⟩
  exact hl2 x hx ⟨hline, by simp [overlaps]; omega⟩

theorem clean_holds {s : State} {a line f l : Nat} (hfl : f ≤ l) (h : s.heldAs a line f l = some .m) :
    (s.clean a line f l).mem = s.mem ∧ (s.clean a line f l).heldAs a line f l = some .e := by
  obtain ⟨d, hd, hst⟩ := held_span h
  obtain ⟨hline, hf, hl⟩ := spanAt_covers hd
  unfold State.clean
  rw [find_spanAt, hd]
  dsimp only
  rw [if_pos hst]
  have hmem : ∀ u : State, u.pass (portOf line (some a)) line d.f d.l 63 = u.pass (portOf line (some a)) line d.f d.l 63 ∧
      (u.pass (portOf line (some a)) line d.f d.l 63).mem = u.mem := fun u => ⟨rfl, by
    unfold State.pass
    dsimp only
    split <;> rfl⟩
  have hheld := (heldAs_setDir (s.pass (portOf line (some a)) line d.f d.l 63) (d := { d with st := Map.put d.st a .e }) hline hf hl hf hl hfl a).trans
    (put_ne_nil d.st a DirSt.e)
  split
  · exact ⟨(hmem s).2, (heldAs_of_dir rfl a line f l).trans hheld⟩
  · exact ⟨(hmem s).2, hheld⟩

/-- A snoop that invalidates leaves its agent without the span. -/
theorem snoop_invalidates (s : State) (a line : Nat) {f l : Nat} (hfl : f ≤ l) :
    ∃ t, exec (.snoop a line f l true) s = .next t ∧ t.heldAs a line f l = none := by
  simp only [exec, execSnoop]
  rw [find_spanAt]
  cases hd : s.spanAt line f l with
  | none => exact ⟨s, rfl, by rw [heldAs_eq, hd]; rfl⟩
  | some d =>
    obtain ⟨hline, hf, hl⟩ := spanAt_covers hd
    dsimp only
    cases hst : Map.find? d.st a with
    | none => exact ⟨s, rfl, by rw [heldAs_eq, hd]; exact hst⟩
    | some st =>
      cases st with
      | s =>
        exact ⟨_, rfl, (heldAs_setDir _ (d := { d with st := Map.erase d.st a }) hline hf hl hf hl hfl a).trans (erase_none _ _)⟩
      | m | o | e => exact ⟨_, rfl, giveUp_gone (spanAt_self hd) hst (by decide) hf hl hfl⟩

/-- The clauses of O53 on the directory's messages. -/
theorem directory_clause (s : State) (a line f l : Nat) (hfl : f ≤ l) (hflip : s.flipping (128 * line) = false) :
    (∃ t, exec (.getS a line f l) s = .next t ∧ (t.heldAs a line f l).isSome = true) ∧
    (∀ i ∈ ([.getX a line f l, .upg a line f l] : List Instr), ∃ t, exec i s = .next t ∧ t.heldAs a line f l = some .m ∧
      (s.heldAs a line f l = none → ∀ b, b ≠ a → t.heldAs b line f l = none)) ∧
    (s.heldAs a line f l = some .m → ∃ t, exec (.cln a line f l) s = .next t ∧ t.mem = s.mem ∧ t.heldAs a line f l = some .e) ∧
    ((s.heldAs a line f l = some .m ∨ s.heldAs a line f l = some .o) →
      ∃ t, exec (.wb a line f l) s = .next t ∧ t.heldAs a line f l = none) ∧
    (s.heldAs a line f l = some .e → ∃ t, exec (.evict a line f l) s = .next t ∧ t.heldAs a line f l = none) ∧
    (s.heldAs a line f l = some .s → a < 8 → ∃ t, exec (.evict a line f l) s = .next t ∧ t.mem = s.mem ∧
      ∀ x ∈ (t.die a).l2, ¬(x.line = line ∧ f ≤ x.l ∧ x.f ≤ l)) ∧
    (∃ t, exec (.snoop a line f l true) s = .next t ∧ t.heldAs a line f l = none) ∧
    (s.heldAs a line f l = some .m → ∃ t, exec (.snoop a line f l false) s = .next t ∧ t.mem = s.mem ∧ t.heldAs a line f l = some .o) ∧
    (s.heldAs a line f l = some .e → s.offs = [] → ∃ t, exec (.snoop a line f l false) s = .next t ∧ t.mem = s.mem ∧ t.heldAs a line f l = some .s) := by
  have hget : ∀ write asks, s.dirGet a line f l write asks = s.request a line f l write none asks := fun write asks => if_neg (by simp [hflip])
  have hgone : ∀ st, s.heldAs a line f l = some st → st ≠ .s → (s.giveUp a line f l).heldAs a line f l = none := fun st h hne => by
    obtain ⟨d, hd, hst⟩ := held_span h
    obtain ⟨-, hf, hl⟩ := spanAt_covers hd
    exact giveUp_gone hd hst hne hf hl hfl
  refine ⟨⟨_, rfl, ?_⟩, fun i hi => ?_, fun h => ⟨_, rfl, ?_⟩, fun h => ?_, fun h => ?_, fun h ha => ?_, snoop_invalidates s a line hfl, fun h => ?_,
    fun h hoffs => ?_⟩
  · rw [hget]
    exact (request_holds s a line hfl false none true).1
  · simp only [List.mem_cons, List.not_mem_nil, or_false] at hi
    obtain rfl | rfl := hi
    · refine ⟨_, rfl, ?_⟩
      rw [hget]
      exact (request_holds s a line hfl true none true).2 rfl
    · refine ⟨_, rfl, ?_⟩
      rw [hget]
      exact (request_holds s a line hfl true none false).2 rfl
  · rw [if_neg (by simp [hflip])]
    exact clean_holds hfl h
  · simp only [exec, execWb]
    obtain h | h := h
    · rw [h]
      exact ⟨_, rfl, hgone _ h (by decide)⟩
    · rw [h]
      exact ⟨_, rfl, hgone _ h (by decide)⟩
  · simp only [exec, execEvict]
    rw [h]
    exact ⟨_, rfl, hgone _ h (by decide)⟩
  · simp only [exec, execEvict]
    rw [h]
    obtain ⟨d, hd, hst⟩ := held_span h
    obtain ⟨-, hf, hl⟩ := spanAt_covers hd
    refine ⟨_, rfl, ?_⟩
    rw [giveUp_shared hd hst]
    exact lose_copies ha line d.f d.l hf hl
  · obtain ⟨d, hd, hst⟩ := held_span h
    obtain ⟨hline, hf, hl⟩ := spanAt_covers hd
    simp only [exec, execSnoop]
    rw [find_spanAt]
    rw [hd]
    dsimp only
    rw [hst]
    exact ⟨_, rfl, rfl, (heldAs_setDir s (d := { d with st := Map.put d.st a .o }) hline hf hl hf hl hfl a).trans (put_ne_nil _ _ _)⟩
  · obtain ⟨d, hd, hst⟩ := held_span h
    obtain ⟨hline, hf, hl⟩ := spanAt_covers hd
    simp only [exec, execSnoop]
    rw [find_spanAt]
    rw [hd]
    dsimp only
    rw [hst]
    refine ⟨_, rfl, ?_, (heldAs_setDir _ (d := { d with st := Map.put d.st a .s }) hline hf hl hf hl hfl a).trans (put_ne_nil _ _ _)⟩
    change (s.newSource line d.f d.l 63 d.holders).mem = s.mem
    simp [State.newSource, hoffs]

end Sys2Proof.Machine
end

section
/-! PROOFS. What traps and violations leave alone (R273, R320), and the checkers' records (R271). -/

namespace Sys2Proof.Machine

/-- A state that differs from another only in what a trap changes: crews and the states they go back to, cores and their counters, the
stores of test crews, reports, and the contained contexts. -/
structure TrapSide (s t : State) : Prop where
  rest : { t with
    crews := s.crews, past := s.past, cores := s.cores, parties := s.parties, runq := s.runq, reports := s.reports, ctxs := s.ctxs } = s

theorem TrapSide.refl (s : State) : TrapSide s s := ⟨rfl⟩

theorem TrapSide.trans {s t u : State} (h : TrapSide s t) (h' : TrapSide t u) : TrapSide s u := by
  refine ⟨Eq.trans ?_ h.rest⟩
  exact congrArg (fun x : State => { x with
    crews := s.crews, past := s.past, cores := s.cores, parties := s.parties, runq := s.runq, reports := s.reports, ctxs := s.ctxs }) h'.rest

theorem TrapSide.ite {p : Prop} [Decidable p] {s t u : State} (ht : TrapSide s t) (hu : TrapSide s u) : TrapSide s (if p then t else u) := by
  split
  · exact ht
  · exact hu

theorem TrapSide.foldl {α : Type} {f : State → α → State} (hf : ∀ s x, TrapSide s (f s x)) (l : List α) (s : State) :
    TrapSide s (l.foldl f s) :=
  foldl_keeps (P := TrapSide s) (fun t x h => h.trans (hf t x)) l (TrapSide.refl s)

section
variable {s t : State} (h : TrapSide s t)
include h

theorem TrapSide.mem : t.mem = s.mem := (congrArg State.mem h.rest :)
theorem TrapSide.recs : t.recs = s.recs := (congrArg State.recs h.rest :)
theorem TrapSide.memCnt : t.memCnt = s.memCnt := (congrArg State.memCnt h.rest :)
theorem TrapSide.svcq : t.svcq = s.svcq := (congrArg State.svcq h.rest :)

end

section
variable (s : State)

theorem TrapSide.onCore (n : Nat) (f : Core → Core) : TrapSide s (s.onCore n f) := ⟨rfl⟩
theorem TrapSide.onCnt (n : Nat) (f : CoreCnt → CoreCnt) : TrapSide s (s.onCnt n f) := ⟨rfl⟩
theorem TrapSide.putCrew (k : Nat) (c : Crew) : TrapSide s (s.putCrew k c) := ⟨rfl⟩
theorem TrapSide.snapshotOf (k : Nat) (c : Crew) : TrapSide s (s.snapshotOf k c) := ⟨rfl⟩
theorem TrapSide.report (r : Report) : TrapSide s (s.report r) := ⟨rfl⟩

theorem TrapSide.reported (a b : Report) (ps : List Nat) : TrapSide (s.poisonSectors ps) (((s.report a).report b).poisonSectors ps) := by
  unfold State.poisonSectors
  exact ⟨rfl⟩

theorem TrapSide.oneEvent (t : State) : TrapSide t (s.oneEvent t) := TrapSide.ite (TrapSide.refl t) ⟨rfl⟩

theorem TrapSide.contain (ctx cause : Nat) : TrapSide s (s.contain ctx cause) := ⟨rfl⟩

theorem TrapSide.trapCounts (k : Nat) (r : TrapRec) : TrapSide s (s.trapCounts k r) := by
  unfold State.trapCounts
  extract_lets c core s1 s2
  have h1 : TrapSide s s1 := TrapSide.ite (TrapSide.onCnt s _ _) (TrapSide.refl s)
  have h2 : TrapSide s1 s2 := TrapSide.ite (TrapSide.onCnt s1 _ _) (TrapSide.refl s1)
  exact TrapSide.ite ((h1.trans h2).trans (TrapSide.report s2 _)) (h1.trans h2)

theorem TrapSide.secondError (k : Nat) (r : TrapRec) : TrapSide s (s.secondError k r) := by
  unfold State.secondError
  extract_lets c s1 s2 both
  have h1 : TrapSide s s1 := TrapSide.onCnt s _ _
  have h2 : TrapSide s1 s2 := TrapSide.ite (TrapSide.contain s1 _ _) (TrapSide.refl s1)
  split
  · refine ((h1.trans h2).trans (TrapSide.putCrew s2 k _)).trans (TrapSide.foldl (fun t o => ?_) _ _)
    dsimp only
    split
    · exact TrapSide.refl t
    · exact (TrapSide.snapshotOf t _ _).trans (TrapSide.putCrew _ _ _)
  · exact (h1.trans h2).trans (TrapSide.putCrew s2 k _)

theorem TrapSide.testEnd (k : Nat) (fail : Option (BitVec 16)) : TrapSide s (s.testEnd k fail) := by
  unfold State.testEnd
  extract_lets core s1 s2
  have h1 : TrapSide s s1 := ⟨rfl⟩
  have h2 : TrapSide s s2 := h1.trans (TrapSide.onCore s1 _ _)
  split
  · exact h2.trans (TrapSide.onCnt s2 _ _)
  · exact (h2.trans (TrapSide.onCnt s2 _ _)).trans (TrapSide.report _ _)

theorem TrapSide.trapCrew (k : Nat) (r : TrapRec) : TrapSide s (s.trapCrew k r) := by
  have hcounts := TrapSide.trapCounts s k r
  unfold State.trapCrew
  dsimp only
  split
  · exact hcounts.trans (TrapSide.putCrew _ k _)
  · exact hcounts.trans (TrapSide.testEnd _ k _)
  · exact (hcounts.trans (TrapSide.secondError _ k r)).trans (TrapSide.oneEvent s _)

theorem TrapSide.trapOlder (k at_ : Nat) (r : Crew → TrapRec) : TrapSide s (s.trapOlder k at_ r) := by
  unfold State.trapOlder
  split
  · next p _ => exact (⟨rfl⟩ : TrapSide s (s.rewind k p)).trans (TrapSide.trapCrew _ k _)
  · exact TrapSide.trapCrew s k _

theorem TrapSide.clearIval (r : IvalRef) : TrapSide s (s.clearIval r) := ⟨rfl⟩

theorem TrapSide.reorder (k : Nat) (l : ROp) (sc : Nat) : TrapSide s (s.reorder k l sc) := by
  unfold State.reorder
  extract_lets c core line ws num pa t
  have ht : TrapSide s t := (TrapSide.onCnt s _ _).trans (TrapSide.report _ _)
  exact TrapSide.ite ((ht.trans (TrapSide.trapCrew t k _)).trans (TrapSide.oneEvent s _)) ht

theorem TrapSide.winDone (k : Nat) (p : ROp → Bool) : TrapSide s (s.winDone k p) := by
  unfold State.winDone
  split
  · exact TrapSide.refl s
  · extract_lets core w bads w' s1
    clear_value bads w'
    have h1 : TrapSide s s1 := TrapSide.onCore s core _
    clear_value s1
    refine h1.trans (TrapSide.foldl (fun t b => ?_) bads s1)
    exact TrapSide.reorder t k b.1 b.2

end

/-! ## Violations (R273) -/

/-- A failed test before its traps: it is counted at the home's checker, and the sectors of its intervals are poisoned. -/
def State.counted (s : State) (kind line : Nat) (rs : List IvalRef) : State :=
  (s.onMem (s.checkerOf (s.lineDev line) (128 * line)) fun m => m.count kind).poisonSectors
    (rs.flatMap fun r => (upFrom (r.f / 8) (r.l / 8 + 1 - r.f / 8)).map fun i => 4 * r.line + i)

/-- Writers none of which is a companion core. -/
def NoCompanion (ws : List Nat) : Prop := ∀ a ∈ ws, a < 8 ∨ 56 ≤ a

/-- A violation that stops no domain leaves memory, the records and the entries as they are. -/
theorem violation_only (s : State) (kind line : Nat) (rs : List IvalRef) {ws : List Nat} (hws : NoCompanion ws) :
    TrapSide (s.counted kind line rs) (s.violation kind line rs ws) := by
  have hcores : (ws.filterMap fun a => if 8 ≤ a ∧ a < 56 then some (a - 8) else none) = [] :=
    List.filterMap_eq_nil_iff.mpr fun a ha => if_neg fun h => by
      have := hws a ha
      omega
  unfold State.violation
  extract_lets loc pa ref waits widest num before s1 s2 s3 trapped clk s4 cores doms
  have hdoms : doms = [] := by
    change ((ws.filterMap fun a => if 8 ≤ a ∧ a < 56 then some (a - 8) else none).map _).eraseDups = []
    rw [hcores]
    rfl
  have h3 : TrapSide (s.counted kind line rs) s3 := TrapSide.reported s1 _ _ _
  have h4 : TrapSide s3 s4 := by
    refine TrapSide.foldl (fun t kc => ?_) trapped s3
    split
    · exact TrapSide.trapOlder t _ _ _
    · exact TrapSide.trapCrew t _ _
  rw [hdoms]
  exact ((h3.trans h4).trans (TrapSide.foldl (fun t r => TrapSide.clearIval t r) rs s4)).trans (TrapSide.oneEvent before _)

end Sys2Proof.Machine
end

section
/-! PROOFS. The home checkers (R271): what a record and a lost one leave. -/

namespace Sys2Proof.Machine

/-- Memory and the records under way are as before. -/
def SameRecs (s t : State) : Prop := t.mem = s.mem ∧ t.recs = s.recs

theorem SameRecs.trans {s t u : State} (h : SameRecs s t) (h' : SameRecs t u) : SameRecs s u := ⟨h'.1.trans h.1, h'.2.trans h.2⟩

theorem SameRecs.ite {p : Prop} [Decidable p] {s t u : State} (ht : SameRecs s t) (hu : SameRecs s u) : SameRecs s (if p then t else u) := by
  split
  · exact ht
  · exact hu

theorem violation_same (s : State) (kind line : Nat) (rs : List IvalRef) {ws : List Nat} (h : NoCompanion ws) :
    SameRecs s (s.violation kind line rs ws) :=
  ⟨(violation_only s kind line rs h).mem, (violation_only s kind line rs h).recs⟩

theorem clearIvals_same (s : State) (rs : List IvalRef) : SameRecs s (rs.foldl State.clearIval s) :=
  foldl_keeps (P := SameRecs s) (f := State.clearIval) (fun _ _ h => h) rs ⟨rfl, rfl⟩

/-- The entry of a record's interval, as the record leaves it. -/
structure EntryOf (r : ChkRec) (e : ChkIval) : Prop where
  line : e.line = r.line
  f : e.f = r.f
  l : e.l = r.l

theorem start_entry (r : ChkRec) (owed : List (IvalRef × Nat)) : EntryOf r (ChkIval.start r owed) := ⟨rfl, rfl, rfl⟩

theorem ival_found {s : State} {line f l : Nat} {e : ChkIval} (h : s.ival? line f l = some e) :
    e ∈ s.ivals ∧ e.line = line ∧ e.f = f ∧ e.l = l := by
  have hfound := List.find?_some h
  simp only [Bool.and_eq_true, beq_iff_eq] at hfound
  exact ⟨List.mem_of_find?_eq_some h, hfound.1.1, hfound.1.2, hfound.2⟩

/-- The entry that a span has once it is put. -/
theorem ival_put (s : State) (x : ChkIval) (h : x.f ≤ x.l) : (s.putIval x).ival? x.line x.f x.l = some x := by
  have hnone : (s.ivals.filter fun i => !(i.line == x.line && overlaps i.f i.l x.f x.l)).find?
      (fun i => i.line == x.line && i.f == x.f && i.l == x.l) = none := by
    refine List.find?_eq_none.mpr fun i hi => ?_
    obtain ⟨-, hover⟩ := List.mem_filter.mp hi
    intro hsame
    simp only [Bool.and_eq_true, beq_iff_eq] at hsame
    obtain ⟨⟨hline, hf⟩, hl⟩ := hsame
    simp [overlaps, hline, hf, hl, h] at hover
  unfold State.ival? State.putIval
  rw [List.find?_append, hnone]
  simp

/-- What a record leaves, once its entry is put. -/
def Recorded (s t : State) (r : ChkRec) : Prop :=
  SameRecs s t ∧ ∃ e, t.ival? r.line r.f r.l = some e ∧ e.num = r.num ∧ (r.kind = .close → e.closeHash = some r.hash) ∧
    (r.kind = .open_ → e.openHash = some r.hash)

theorem recorded_put {s u : State} {r : ChkRec} {e : ChkIval} (hfl : r.f ≤ r.l) (hsame : SameRecs s u) (he : EntryOf r e) (hnum : e.num = r.num)
    (hclose : r.kind = .close → e.closeHash = some r.hash) (hopen : r.kind = .open_ → e.openHash = some r.hash) : Recorded s (u.putIval e) r := by
  obtain ⟨hline, hf, hl⟩ := he
  refine ⟨hsame, e, ?_, hnum, hclose, hopen⟩
  rw [← hline, ← hf, ← hl]
  exact ival_put u e (by rw [hf, hl]; exact hfl)

/-- The writers that entries name are no companion cores. -/
def NoCompanionIvals (s : State) : Prop := ∀ i ∈ s.ivals, NoCompanion i.writer.toList

theorem noCompanion_record {r : ChkRec} (h : r.wr = true → r.agent < 8 ∨ 56 ≤ r.agent) : NoCompanion r.writers := fun a ha => by
  unfold ChkRec.writers at ha
  split at ha
  · next hw =>
    rw [List.mem_singleton.mp ha]
    exact h hw
  · cases ha

theorem takeMerge_records (s : State) (r : ChkRec) (hfl : r.f ≤ r.l) (hivals : NoCompanionIvals s) (hr : NoCompanion r.writers)
    (hkind : r.kind = .mergeOpen) : Recorded s (s.takeMerge r) r := by
  unfold State.takeMerge
  extract_lets es ws hashOk nextOk owed s1 s2
  have hws : NoCompanion ws := fun a ha => by
    obtain ⟨e, he, hw⟩ := List.mem_filterMap.mp ha
    obtain ⟨p, -, hp⟩ := List.mem_filterMap.mp he
    exact hivals e (ival_found hp).1 a (by rw [hw]; simp)
  have h1 : SameRecs s s1 := SameRecs.ite ⟨rfl, rfl⟩ (violation_same s _ _ _ fun a ha => by
    obtain h | h := List.mem_append.mp ha
    · exact hws a h
    · exact hr a h)
  have h2 : SameRecs s1 s2 :=
    SameRecs.ite (violation_same s1 _ _ _ hws) (SameRecs.ite (clearIvals_same s1 _) ⟨rfl, rfl⟩)
  exact recorded_put hfl (h1.trans h2) ⟨rfl, rfl, rfl⟩ rfl (fun h => by rw [hkind] at h; cases h) fun _ => rfl

/-- The entry that a record finds, or starts. -/
def State.entryOf (s : State) (r : ChkRec) : ChkIval := (s.ival? r.line r.f r.l).getD (ChkIval.start r [])

theorem entryOf_entry {s : State} (r : ChkRec) (hivals : NoCompanionIvals s) :
    EntryOf r (s.entryOf r) ∧ NoCompanion (s.entryOf r).writer.toList := by
  unfold State.entryOf
  cases h : s.ival? r.line r.f r.l with
  | none => exact ⟨start_entry r [], fun a ha => by simp [ChkIval.start] at ha⟩
  | some e =>
    obtain ⟨hin, hline, hf, hl⟩ := ival_found h
    exact ⟨⟨hline, hf, hl⟩, hivals e hin⟩

/-- The entry of the record's interval, and whether another agent has written in it. -/
theorem entry_current {s : State} (r : ChkRec) (hivals : NoCompanionIvals s) (hr : r.wr = true → r.agent < 8 ∨ 56 ≤ r.agent) :
    let e := if r.num = (s.entryOf r).num then s.entryOf r else ChkIval.start r (s.entryOf r).owes
    let two := r.wr && e.writer.any (· != r.agent)
    EntryOf r e ∧ e.num = r.num ∧ SameRecs s (if two then s.violation 3 r.line [⟨r.line, r.f, r.l, r.num⟩] (e.writer.toList ++ [r.agent]) else s) := by
  intro e two
  obtain ⟨hentry, hwriter⟩ := entryOf_entry r hivals
  have he : EntryOf r e ∧ e.num = r.num ∧ NoCompanion e.writer.toList := by
    change EntryOf r (if _ then _ else _) ∧ (if _ then _ else _ : ChkIval).num = r.num ∧ NoCompanion (if _ then _ else _ : ChkIval).writer.toList
    split
    · next hnum => exact ⟨hentry, hnum.symm, hwriter⟩
    · exact ⟨start_entry r _, rfl, fun a ha => by simp [ChkIval.start] at ha⟩
  refine ⟨he.1, he.2.1, ?_⟩
  split
  · next htwo =>
    refine violation_same s _ _ _ fun a ha => ?_
    obtain h | h := List.mem_append.mp ha
    · exact he.2.2 a h
    · rw [List.mem_singleton.mp h]
      exact hr (Bool.and_eq_true_iff.mp htwo).1
  · exact ⟨rfl, rfl⟩

/-- The end of an open record, from its entry and the one before it: `two` says that two agents wrote in the interval. -/
def State.opened (s : State) (old e : ChkIval) (two : Bool) (r : ChkRec) : State :=
  match (if old.num = r.num - 1 then old.closeHash else none) with
  | some h =>
    let e := { e with openHash := some r.hash }
    if h ≠ r.hash then (s.violation 4 r.line [old.ref] old.writer.toList).putIval { e with owed := old.owed }
    else if two then s.putIval e
    else (s.clearIval old.ref).putIval { e with owed := old.owed }
  | none => s.putIval { e with openHash := some r.hash }

theorem opened_records {s u : State} {old e : ChkIval} {r : ChkRec} (hfl : r.f ≤ r.l) (hk : r.kind = .open_) (hsame : SameRecs s u) (he : EntryOf r e)
    (hn : e.num = r.num) (hold : NoCompanion old.writer.toList) (two : Bool) : Recorded s (u.opened old e two r) r := by
  obtain ⟨hline, hf, hl⟩ := he
  have hno : ∀ {P : Prop}, r.kind = .close → P := fun h => by rw [hk] at h; cases h
  unfold State.opened
  split
  · dsimp only
    split
    · exact recorded_put hfl (hsame.trans (violation_same _ _ _ _ hold)) ⟨hline, hf, hl⟩ hn hno fun _ => rfl
    · split
      · exact recorded_put hfl hsame ⟨hline, hf, hl⟩ hn hno fun _ => rfl
      · exact recorded_put hfl (hsame.trans ⟨rfl, rfl⟩) ⟨hline, hf, hl⟩ hn hno fun _ => rfl
  · exact recorded_put hfl hsame ⟨hline, hf, hl⟩ hn hno fun _ => rfl

theorem takeRecord_records (s : State) (r : ChkRec) (hfl : r.f ≤ r.l) (hivals : NoCompanionIvals s) (hr : r.wr = true → r.agent < 8 ∨ 56 ≤ r.agent) :
    Recorded s (s.takeRecord r) r := by
  obtain ⟨-, hold⟩ := entryOf_entry r hivals
  obtain ⟨hentry, hnum, hsame⟩ := entry_current r hivals hr
  have hentry' : ∀ two : Bool, ∀ e : ChkIval, EntryOf r e → e.num = r.num →
      EntryOf r (if r.wr && !two then { e with writer := some r.agent } else e) ∧
        (if r.wr && !two then { e with writer := some r.agent } else e : ChkIval).num = r.num := fun two e he hn => by
    obtain ⟨hline, hf, hl⟩ := he
    split <;> exact ⟨⟨hline, hf, hl⟩, hn⟩
  have hmismatch : ∀ wr oh ch, (r.kind = .close → ch = some r.hash) → (r.kind = .open_ → oh = some r.hash) →
      Recorded s ((s.violation 2 r.line [⟨r.line, r.f, r.l, r.num⟩] r.writers).putIval
        { ChkIval.start r (s.entryOf r).owes with writer := wr, openHash := oh, closeHash := ch, closed := s.clk }) r :=
    fun wr oh ch hc ho => recorded_put hfl (violation_same s _ _ _ (noCompanion_record hr)) ⟨rfl, rfl, rfl⟩ rfl hc ho
  unfold State.takeRecord
  cases hk : r.kind with
  | mergeOpen => exact takeMerge_records s r hfl hivals (noCompanion_record hr) hk
  | created =>
    exact recorded_put hfl ⟨rfl, rfl⟩ (start_entry r []) rfl (fun h => by rw [hk] at h; cases h) fun h => by rw [hk] at h; cases h
  | readJoin =>
    dsimp only
    split
    · exact hmismatch _ _ _ (fun h => by rw [hk] at h; cases h) fun h => by rw [hk] at h; cases h
    · exact recorded_put hfl hsame (hentry' _ _ hentry hnum).1 (hentry' _ _ hentry hnum).2 (fun h => by rw [hk] at h; cases h)
        fun h => by rw [hk] at h; cases h
  | close =>
    dsimp only
    split
    · exact hmismatch _ _ _ (fun _ => rfl) fun h => by rw [hk] at h; cases h
    · obtain ⟨⟨hline, hf, hl⟩, hn⟩ := hentry' _ _ hentry hnum
      exact recorded_put hfl hsame ⟨hline, hf, hl⟩ hn (fun _ => rfl) fun h => by rw [hk] at h; cases h
  | open_ =>
    dsimp only
    split
    · exact hmismatch _ _ _ (fun h => by rw [hk] at h; cases h) fun _ => rfl
    · obtain ⟨he, hn⟩ := hentry' _ _ hentry hnum
      exact opened_records hfl hk hsame he hn hold _

theorem NoCompanionWrites.ivals {s : State} (h : NoCompanionWrites s) : NoCompanionIvals s := fun i hi a ha => by
  cases hw : i.writer with
  | none => rw [hw] at ha; cases ha
  | some b =>
    rw [hw] at ha
    rw [List.mem_singleton.mp ha]
    exact h.intervals i hi b hw

theorem checkerRecord_records (s : State) (r : ChkRec) (rs : List ChkRec) (hrecs : s.recs = r :: rs) (hfl : r.f ≤ r.l) (h : NoCompanionWrites s) :
    ∃ t, exec .checkerRecord s = .next t ∧ (∀ a, memGet t.mem a = memGet s.mem a) ∧ t.recs = rs ∧
    ∃ e, t.ival? r.line r.f r.l = some e ∧ e.num = r.num ∧ (r.kind = .close → e.closeHash = some r.hash) ∧
      (r.kind = .open_ → e.openHash = some r.hash) := by
  obtain ⟨⟨hmem, hrest⟩, hentry⟩ := takeRecord_records { s with recs := rs } r hfl h.ivals (h.records r (by rw [hrecs]; exact List.mem_cons_self))
  simp only [exec, execCheckerRecord]
  rw [hrecs]
  exact ⟨_, rfl, fun a => congrArg (memGet · a) hmem, hrest, hentry⟩

/-- The count of a violation (R383). -/
theorem violation_counts (s : State) (kind line : Nat) (rs : List IvalRef) {ws : List Nat} (h : NoCompanion ws) :
    Map.get {} (s.violation kind line rs ws).memCnt (s.checkerOf (s.lineDev line) (128 * line)) =
      (Map.get ({} : MemCnt) s.memCnt (s.checkerOf (s.lineDev line) (128 * line))).count kind := by
  rw [(violation_only s kind line rs h).memCnt]
  exact MapLaws.get_put_self _ _ _ _

theorem recordLost_counts (s : State) (line f l : Nat) (e : ChkIval) (hfl : f ≤ l) (he : s.ival? line f l = some e)
    (hclose : e.closeHash.isSome = true) (hlate : e.closed + 65536 ≤ s.clk) (howed : e.owed = []) (h : NoCompanionWrites s) :
    let home := s.checkerOf (s.lineDev line) (128 * line)
    ∃ t, exec (.recordLostTimeout line f l) s = .next t ∧ (∀ a, memGet t.mem a = memGet s.mem a) ∧
      (Map.get {} t.memCnt home).lost = satInc (Map.get {} s.memCnt home).lost ∧
      ∃ e', t.ival? line f l = some e' ∧ e'.closeHash = none := by
  intro home
  obtain ⟨hin, rfl, rfl, rfl⟩ := ival_found he
  have howes : e.owes = [(e.ref, e.closed)] := by
    unfold ChkIval.owes
    rw [howed, if_pos hclose]
    rfl
  have hwriter : NoCompanion e.writer.toList := h.ivals e hin
  have hlost : e.owes.filter (fun x => decide (x.2 + 65536 ≤ s.clk)) = [(e.ref, e.closed)] := by
    rw [howes]
    simp [hlate]
  simp only [exec, execRecordLostTimeout, State.recordLost]
  rw [he]
  dsimp only
  rw [hlost]
  refine ⟨_, rfl, fun a => ?_, ?_, _, ival_put _ _ hfl, ?_⟩
  · exact congrArg (memGet · a) (violation_same s 6 e.line [e.ref] hwriter).1
  · exact congrArg MemCnt.lost (violation_counts s 6 e.line [e.ref] hwriter)
  · simp [hclose, hlate]

/-- A request that was counted is acknowledged (R257). -/
theorem countedRequestAck_takes (s : State) (k : Nat) (h : s.hasCrew k = true) :
    ∃ t, exec (.countedRequestAck k) s = .next t ∧ OnlyCrew s t k ∧ t.crew k = { s.crew k with fence := (s.crew k).fence - 1 } := by
  simp only [exec, execCountedRequestAck]
  rw [if_pos h]
  exact ⟨_, rfl, State.putCrew_only s k _, State.onCrew_crew_self s k _⟩

/-! ## Dirty bits (R365) -/

theorem mem_insN {x p : Nat} {l : List Nat} : p ∈ insN x l ↔ p = x ∨ p ∈ l := by
  induction l with
  | nil => simp [insN]
  | cons y ys ih =>
    unfold insN
    split
    · next h => simp [h]
    · split
      · simp
      · simp [ih]
        tauto

/-- Whether a map is the one of the writer's own launch. -/
def State.ownWrite (s : State) (lctr : Option Nat) (m : DirtyMap) : Bool :=
  match lctr with
  | some l => s.phys m.ctx.toNat 4096 m.lctr.toNat == l
  | none => false

theorem ownWrite_iff (s : State) (lctr : Option Nat) (m : DirtyMap) :
    s.ownWrite lctr m = false ↔ ∀ x, lctr = some x → s.phys m.ctx.toNat 4096 m.lctr.toNat ≠ x := by
  cases lctr with
  | none => exact ⟨fun _ _ h => (nomatch h), fun _ => rfl⟩
  | some l => exact beq_eq_false_iff_ne.trans ⟨fun h x hx => Option.some.inj hx ▸ h, fun h => h l rfl⟩

/-- A map after a message for a parcel. -/
def State.dirtied (s : State) (parcel : Nat) (lctr : Option Nat) (m : DirtyMap) : DirtyMap :=
  if s.tracks m parcel && !s.ownWrite lctr m then { m with bits := insN (parcelOfLoc (4096 * parcel)) m.bits } else m

theorem setDirty_find (s : State) (parcel : Nat) (lctr : Option Nat) (n : Nat) :
    Map.find? (s.setDirty parcel lctr).dirtyMaps n = (Map.find? s.dirtyMaps n).map (s.dirtied parcel lctr) := by
  refine Eq.trans ?_ (find_map (fun _ m => s.dirtied parcel lctr m) s.dirtyMaps n)
  refine congrArg (fun m => Map.find? m n) (List.map_congr_left fun km _ => ?_)
  unfold State.dirtied
  exact (apply_ite (Prod.mk km.1) _ _ _).symm

theorem dirtied_bits (s : State) (parcel : Nat) (lctr : Option Nat) (m : DirtyMap) (p : Nat) :
    p ∈ (s.dirtied parcel lctr m).bits ↔ p ∈ m.bits ∨ (p = parcelOfLoc (4096 * parcel) ∧ m.en = true ∧ m.base.toNat ≤ p ∧
        p ≤ m.base.toNat + m.len.toNat ∧ (locPair (4096 * parcel) = 8 ∨ s.ctxDev m.ctx.toNat = devOfPair s.mode.mode (locPair (4096 * parcel))) ∧
        ∀ x, lctr = some x → s.phys m.ctx.toNat 4096 m.lctr.toNat ≠ x) := by
  have hdev : s.devCovers (s.ctxDev m.ctx.toNat) (4096 * parcel) = true ↔
      (locPair (4096 * parcel) = 8 ∨ s.ctxDev m.ctx.toNat = devOfPair s.mode.mode (locPair (4096 * parcel))) := by
    unfold State.devCovers
    rw [Bool.or_eq_true, beq_iff_eq, beq_iff_eq]
    exact or_congr Iff.rfl eq_comm
  rw [← hdev, ← ownWrite_iff]
  unfold State.dirtied
  have htracks : s.tracks m parcel = true ↔ ((m.en = true ∧ m.base.toNat ≤ parcelOfLoc (4096 * parcel)) ∧
      parcelOfLoc (4096 * parcel) ≤ m.base.toNat + m.len.toNat) ∧ s.devCovers (s.ctxDev m.ctx.toNat) (4096 * parcel) = true := by
    unfold State.tracks State.mapTracks
    rw [Bool.and_eq_true, Bool.and_eq_true, Bool.and_eq_true, decide_eq_true_eq, decide_eq_true_eq]
  generalize parcelOfLoc (4096 * parcel) = j at htracks
  have hcond : (s.tracks m parcel && !s.ownWrite lctr m) = true ↔ (((m.en = true ∧ m.base.toNat ≤ j) ∧ j ≤ m.base.toNat + m.len.toNat) ∧
      s.devCovers (s.ctxDev m.ctx.toNat) (4096 * parcel) = true) ∧ s.ownWrite lctr m = false := by
    rw [Bool.and_eq_true, Bool.not_eq_true', htracks]
  split
  · next h =>
    obtain ⟨⟨⟨⟨hen, hlo⟩, hhi⟩, hcov⟩, hnot⟩ := hcond.mp h
    rw [mem_insN]
    constructor
    · rintro (rfl | hp)
      · exact .inr ⟨rfl, hen, hlo, hhi, hcov, hnot⟩
      · exact .inl hp
    · rintro (hp | ⟨rfl, -⟩)
      · exact .inr hp
      · exact .inl rfl
  · next h =>
    refine ⟨.inl, fun hp => hp.resolve_right ?_⟩
    rintro ⟨rfl, hen, hlo, hhi, hcov, hnot⟩
    exact h (hcond.mpr ⟨⟨⟨⟨hen, hlo⟩, hhi⟩, hcov⟩, hnot⟩)

theorem dirtyBitMessage_sets (s : State) (parcel : Nat) (lctr : Option Nat) :
    ∃ t, exec (.dirtyBitMessage parcel lctr) s = .next t ∧ { t with dirtyMaps := s.dirtyMaps } = s ∧
    ∀ n m, Map.find? s.dirtyMaps n = some m → ∃ m', Map.find? t.dirtyMaps n = some m' ∧ { m' with bits := m.bits } = m ∧
      ∀ p, p ∈ m'.bits ↔ p ∈ m.bits ∨ (p = parcelOfLoc (4096 * parcel) ∧ m.en = true ∧ m.base.toNat ≤ p ∧
        p ≤ m.base.toNat + m.len.toNat ∧ (locPair (4096 * parcel) = 8 ∨ s.ctxDev m.ctx.toNat = devOfPair s.mode.mode (locPair (4096 * parcel))) ∧
        ∀ x, lctr = some x → s.phys m.ctx.toNat 4096 m.lctr.toNat ≠ x) := by
  refine ⟨_, rfl, rfl, fun n m hm => ⟨s.dirtied parcel lctr m, ?_, ?_, dirtied_bits s parcel lctr m⟩⟩
  · rw [setDirty_find, hm]
    rfl
  · unfold State.dirtied
    split <;> rfl

end Sys2Proof.Machine
end

section
/-! PROOFS. Atomics at their owners (R190, R191): what a request leaves of memory. -/

namespace Sys2Proof.Machine

/-! ## Requests change nothing but the directory -/

section
variable (s : State)

theorem DirSide.mergeCloses (d : DirSpan) : DirSide s (s.mergeCloses d) := by
  unfold State.mergeCloses
  split
  · exact DirSide.sendClose s d
  · exact DirSide.foldl (fun s _ => DirSide.sendRec s _) _ s

theorem DirSide.giveUp (a line f l : Nat) : DirSide s (s.giveUp a line f l) := by
  unfold State.giveUp
  split
  · exact DirSide.refl s
  · next d _ =>
    split
    · exact DirSide.refl s
    · exact DirSide.lose s _ _ _ _ _
    · extract_lets s1 s2 s3 s4
      have h1 : DirSide s s1 := DirSide.sendClose s d
      have h2 : DirSide s1 s2 := DirSide.ite (DirSide.refl s1) (DirSide.pass s1 _ _ _ _ _)
      have h3 : DirSide s2 s3 := (DirSide.newSource s2 _ _ _ _ _).trans (DirSide.lose _ _ _ _ _ _)
      exact ((h1.trans h2).trans h3).trans ((DirSide.sendOpen s3 _ _ _ _ _).trans (DirSide.setDir s4 _ _ _ _))

theorem DirSide.l2Room (a line : Nat) : DirSide s (s.l2Room a line) := by
  unfold State.l2Room
  dsimp only
  split
  · exact DirSide.refl s
  · split
    · exact DirSide.refl s
    · exact DirSide.foldl (fun s (x : L2Span) => DirSide.giveUp s a x.line x.f x.l) _ s

theorem DirSide.gain (a line f l : Nat) : DirSide s (s.gain a line f l) :=
  DirSide.ite (DirSide.refl s) ((DirSide.l2Room s a line).trans ⟨rfl⟩)

theorem DirSide.merge (a line f l : Nat) (ms : List DirSpan) (write : Bool) (by_ : Option Nat) :
    DirSide s (s.merge a line f l ms write by_) := by
  unfold State.merge
  extract_lets sw s1 s2 rest restH s3 s4 s5 s6 num owned s7 s8
  have h1 : DirSide s s1 := ⟨rfl⟩
  have h2 : DirSide s1 s2 := DirSide.foldl (fun s d => DirSide.mergeCloses s d) _ s1
  have h3 : DirSide s2 s3 := DirSide.foldl (fun s _ => DirSide.ite (DirSide.refl s) (DirSide.pass s _ _ _ _ _)) _ s2
  have h4 : DirSide s3 s4 := DirSide.foldl (fun s _ => DirSide.pass s _ _ _ _ _) _ s3
  have h5 : DirSide s4 s5 := DirSide.foldl (fun s _ => DirSide.loseAll s _ _ _ _ _) _ s4
  have h6 : DirSide s5 s6 := DirSide.newSource s5 _ _ _ _ _
  exact ((((((h1.trans h2).trans h3).trans h4).trans h5).trans h6).trans ((DirSide.sendRec s6 _).trans (DirSide.setDir s7 _ _ _ _))).trans
    (DirSide.gain s8 _ _ _ _)

theorem DirSide.request (a line f l : Nat) (write : Bool) (by_ : Option Nat) (asks : Bool) :
    DirSide s (s.request a line f l write by_ asks) := by
  unfold State.request
  extract_lets s1 mp f l fresh d s2 listed mine w1 w2 w3 w4 w5 w6 r1 r2 r3
  have h1 : DirSide s s1 := (DirSide.ite (DirSide.keepParcel s _) (DirSide.refl s)).trans (DirSide.agentMeets _ _ _)
  have h2 : DirSide s s2 := h1.trans (DirSide.ite ⟨rfl⟩ (DirSide.refl s1))
  have hw2 : DirSide s2 w2 := (DirSide.sendClose s2 d).trans (DirSide.ite (DirSide.refl w1) (DirSide.pass w1 _ _ _ _ _))
  have hw6 : DirSide s2 w6 := (((hw2.trans (DirSide.loseAll w2 _ _ _ _ _)).trans (DirSide.newSource w3 _ _ _ _ _)).trans
    (DirSide.sendOpen w4 _ _ _ _ _)).trans (DirSide.setDir w5 _ _ _ _)
  have hr2 : DirSide s2 r2 := (DirSide.pass s2 _ _ _ _ _).trans (DirSide.ite (DirSide.newSource r1 _ _ _ _ _) (DirSide.refl r1))
  have hr3 : DirSide s2 r3 := by
    dsimp only [r3]
    clear_value d
    split
    · exact hr2.trans (DirSide.setDir r2 _ _ _ _)
    · exact hr2.trans ⟨rfl⟩
  clear_value mine
  split
  · exact h1.trans (DirSide.merge s1 _ _ _ _ _ _ _)
  · split
    · split
      · exact h2
      · exact h2.trans (DirSide.setDir s2 _ _ _ _)
      · exact (h2.trans hw6).trans (DirSide.gain w6 _ _ _ _)
    · split
      · exact h2
      · exact (h2.trans hr3).trans (DirSide.gain r3 _ _ _ _)

end

section
variable {s t : State} (h : DirSide s t)
include h

theorem DirSide.svc : t.svc = s.svc := (congrArg State.svc h.rest :)
theorem DirSide.svcq : t.svcq = s.svcq := (congrArg State.svcq h.rest :)

theorem DirSide.isPoisoned (loc : Nat) : t.isPoisoned loc = s.isPoisoned loc := by
  have hpoison : t.poison = s.poison := (congrArg State.poison h.rest :)
  have hlost : t.lost = s.lost := (congrArg State.lost h.rest :)
  have hlink : t.link = s.link := (congrArg State.link h.rest :)
  have hhost : t.host = s.host := (congrArg State.host h.rest :)
  have hgranules : t.granules = s.granules := (congrArg State.granules h.rest :)
  unfold State.isPoisoned
  rw [hpoison, hlost, hlink, hhost, hgranules]

end

theorem MemSide.svcq {s t : State} (h : MemSide s t) : t.svcq = s.svcq := (congrArg State.svcq h.rest :)

/-! ## Writes through a core's port (R259) -/

theorem stampWrite_svcq (s : State) (core slot line f l : Nat) : (s.stampWrite core slot line f l).svcq = s.svcq := by
  have hbound : ∀ d, (s.boundUnclean d).svcq = s.svcq := fun d => by
    unfold State.boundUnclean
    repeat' split
    all_goals rfl
  unfold State.stampWrite
  dsimp only
  split
  · rfl
  · change (if _ then s else _ : State).svcq = _
    split
    · rfl
    · exact hbound _

theorem l2Cells_svcq (s : State) (core : Nat) (by_ lctr : Option Nat) (cs : List Host.Cell) (ch : Clocks) :
    (s.l2Cells core by_ lctr cs ch).svcq = s.svcq := by
  unfold State.l2Cells
  extract_lets xs a slot sp s1 s2 s3
  have h1 : DirSide s s1 := DirSide.foldl (fun s _ => DirSide.request s _ _ _ _ _ _ _) _ s
  have h2 : MemSide s s2 := (h1.memSide.trans (MemSide.carry s1 _ _)).trans (MemSide.perform _ _)
  have h3 : s3.svcq = s2.svcq :=
    foldl_keeps (P := fun t : State => t.svcq = s2.svcq) (fun t x ht => (stampWrite_svcq t core slot x.1 x.2.1 x.2.2).trans ht) _ rfl
  exact h3.trans h2.svcq

theorem l2Cells_mem {s : State} (hoffs : s.offs = []) (harm : s.inject.arm = false) {cs : List Host.Cell} (hctl : ∀ c ∈ cs, locCtl c.1 = false)
    (core : Nat) (by_ lctr : Option Nat) (ch : Clocks) : (s.l2Cells core by_ lctr cs ch).mem = memPut s.mem cs := by
  unfold State.l2Cells
  extract_lets xs a slot sp s1 s2 s3
  have hxs : xs = cs := noCtl_filter hctl
  have h1 : Quiet s.mem s.crews s1 := foldl_keeps (fun _ _ hs => hs.request _ _ _ _ _ _ _) _ ⟨rfl, rfl, hoffs, harm⟩
  have h2 : Quiet (memPut s.mem xs) s.crews s2 := (h1.carry _ _).perform xs
  have h3 : Quiet (memPut s.mem xs) s.crews s3 :=
    foldl_keeps (fun _ _ hs => (hs.stampWrite _ _ _ _ _).of_eq rfl rfl rfl rfl) _ h2
  exact h3.mem.trans (by rw [hxs])

/-! ## One request (R191) -/

/-- An aligned word lies in one pair. -/
theorem locPair_word {loc w i : Nat} (hw : w = 4 ∨ w = 8) (hal : loc % w = 0) (hi : i < w) : locPair (loc + i) = locPair loc := by
  have hbase : pairBase = w * (2 ^ 52 / w) := by
    obtain rfl | rfl := hw <;> rfl
  have hpos : 0 < w := by omega
  unfold locPair
  rw [hbase, ← Nat.div_div_eq_div_mul, ← Nat.div_div_eq_div_mul]
  refine congrArg (· / _) ?_
  obtain ⟨q, rfl⟩ := Nat.dvd_of_mod_eq_zero hal
  rw [Nat.mul_add_div hpos, Nat.mul_div_cancel_left _ hpos, Nat.div_eq_of_lt hi, Nat.add_zero]

/-- What an atomic leaves in memory: the value that it writes, where it writes one. -/
def atomCells (w loc : Nat) (new : Option Nat) : List Host.Cell :=
  match new with
  | some v => cellsOf loc (bytesOf w v)
  | none => []

theorem memNat_atomCells (m : List Host.Cell) (w loc : Nat) (new : Option Nat) :
    memNat (memPut m (atomCells w loc new)) loc w = (match new with | some v => v % 2 ^ (8 * w) | none => memNat m loc w) := by
  cases new with
  | none => rfl
  | some v =>
    rw [Nat.pow_mul]
    exact memNat_memPut m loc w v

theorem atomCells_outside (m : List Host.Cell) (w loc : Nat) (new : Option Nat) {a : Nat} (h : a < loc ∨ loc + w ≤ a) :
    memGet (memPut m (atomCells w loc new)) a = memGet m a := by
  cases new with
  | none => rfl
  | some v =>
    refine memPut_outside m ?_
    rw [length_bytesOf]
    exact h

theorem atomReq_writes {s : State} {g : AtomGroup} {r : AtomReq} (hslot : s.svcSlot g r = none) (hctl : locCtl r.loc = false)
    (hal : r.loc % (tyBits g.ty / 8) = 0) (harm : s.inject.arm = false) (hoffs : s.offs = [])
    (hlive : s.dead.contains (dieOfCore (4 * g.owner)) = false) (hpoison : s.isPoisoned r.loc = false)
    (hty : tyBits g.ty = 32 ∨ tyBits g.ty = 64) :
    let w := tyBits g.ty / 8
    (s.atomReq g r).1.mem = memPut s.mem (atomCells w r.loc (atomVal g.op g.ty g.sat (memNat s.mem r.loc w) r.x.toNat r.c.toNat)) ∧
      (s.atomReq g r).1.svcq = s.svcq := by
  have hw : tyBits g.ty / 8 = 4 ∨ tyBits g.ty / 8 = 8 := by
    obtain h | h := hty <;> rw [h] <;> decide
  unfold State.atomReq
  extract_lets w core line i j refs merges s1 s2 old
  have h1 : s1.mem = s.mem ∧ s1.offs = s.offs ∧ s1.inject = s.inject ∧ s1.svcq = s.svcq ∧ s1.svc = s.svc ∧ ∀ loc, s1.isPoisoned loc = s.isPoisoned loc := by
    dsimp only [s1]
    split <;> exact ⟨rfl, rfl, rfl, rfl, rfl, fun _ => rfl⟩
  obtain ⟨hmem1, hoffs1, harm1, hsvcq1, hsvc1, hpoison1⟩ := h1
  have hdir : DirSide s1 s2 := DirSide.request s1 _ _ _ _ _ _ _
  have hq : Quiet s.mem s1.crews s2 := Quiet.request ⟨hmem1, rfl, hoffs1.trans hoffs, by rw [harm1]; exact harm⟩ _ _ _ _ _ _ _
  have hslot2 : s2.svcSlot g r = none := by
    unfold State.svcSlot at hslot ⊢
    rw [hdir.svc, hsvc1]
    exact hslot
  have hsvcq2 : s2.svcq = s.svcq := hdir.svcq.trans hsvcq1
  have hold : old = memNat s.mem r.loc w := congrArg (memNat · r.loc w) hq.mem
  clear_value s2 old
  subst hold
  rw [if_neg (by simp [hctl]), if_neg (by simpa using hlive), if_neg (by simp [hdir.isPoisoned, hpoison1, hpoison]), hslot2]
  dsimp only
  generalize atomVal g.op g.ty g.sat (memNat s.mem r.loc w) r.x.toNat r.c.toNat = new
  cases new with
  | none =>
    dsimp only
    split
    · exact ⟨hq.mem, hsvcq2⟩
    · exact ⟨hq.mem, hsvcq2⟩
  | some v =>
    refine ⟨(l2Cells_mem hq.offs hq.arm (fun c hc => ?_) _ _ _ _).trans (congrArg (memPut · _) hq.mem), (l2Cells_svcq _ _ _ _ _ _).trans hsvcq2⟩
    obtain ⟨hlo, hhi⟩ := cellsOf_inside hc
    rw [length_bytesOf] at hhi
    have hpair := locPair_word hw hal (i := c.1 - r.loc) (by omega)
    rw [Nat.add_sub_of_le hlo] at hpair
    unfold locCtl at hctl ⊢
    rw [hpair]
    exact hctl

/-- Memory and the owners' queues are as given. -/
structure OwnersAt (m : List Host.Cell) (q : Map (List AtomGroup)) (s : State) : Prop where
  mem : s.mem = m
  svcq : s.svcq = q

section
variable {m : List Host.Cell} {q : Map (List AtomGroup)} {s : State} (h : OwnersAt m q s)
include h

theorem OwnersAt.onCrew (k : Nat) (f : Crew → Crew) : OwnersAt m q (s.onCrew k f) := ⟨h.mem, h.svcq⟩
theorem OwnersAt.push (i : Instr) : OwnersAt m q (s.push i) := ⟨h.mem, h.svcq⟩

theorem OwnersAt.winDone (k : Nat) (p : ROp → Bool) : OwnersAt m q (s.winDone k p) :=
  ⟨(TrapSide.winDone s k p).mem.trans h.mem, (TrapSide.winDone s k p).svcq.trans h.svcq⟩

end

theorem OwnersAt.ite {m : List Host.Cell} {q : Map (List AtomGroup)} {p : Prop} [Decidable p] {t u : State} (ht : OwnersAt m q t)
    (hu : OwnersAt m q u) : OwnersAt m q (if p then t else u) := by
  split
  · exact ht
  · exact hu

/-- What follows a group's one request leaves memory and the queues of the owners as they are. -/
theorem runGroup_request (s : State) {g : AtomGroup} {r : AtomReq} (hreqs : g.reqs = [r]) :
    ∃ u, DirSide s u ∧ (s.offs = [] → s.inject.arm = false → Quiet s.mem s.crews u) ∧
      OwnersAt (u.atomReq g r).1.mem (u.atomReq g r).1.svcq (s.runGroup g) := by
  refine ⟨if g.ofCompanion then s.agentMeets g.agent (r.loc / 128) else s, DirSide.ite (DirSide.agentMeets s _ _) (DirSide.refl s),
    fun hoffs harm => Quiet.ite (Quiet.agentMeets ⟨rfl, rfl, hoffs, harm⟩ _ _) ⟨rfl, rfl, hoffs, harm⟩, ?_⟩
  unfold State.runGroup
  rw [hreqs]
  dsimp only [List.foldl_cons, List.foldl_nil]
  generalize (if g.ofCompanion then s.agentMeets g.agent (r.loc / 128) else s).atomReq g r = p
  have hp : OwnersAt p.1.mem p.1.svcq p.1 := ⟨rfl, rfl⟩
  have hacked := OwnersAt.ite (p := g.ofCompanion = true) hp ((hp.winDone g.crew fun x => x.at_ == g.at_ && x.lane == r.lane).push
    (.countedRequestAck g.crew))
  exact OwnersAt.ite (((OwnersAt.ite (hacked.onCrew _ _) hacked).onCrew _ _).push _) (OwnersAt.ite (hacked.onCrew _ _) hacked)

theorem get_popped {gs : List AtomGroup} (m : Map (List AtomGroup)) (k : Nat) :
    Map.get [] (if gs.isEmpty then Map.erase m k else Map.put m k gs) k = gs := by
  cases gs with
  | nil =>
    exact congrArg (fun o : Option (List AtomGroup) => o.getD []) (MapLaws.find_erase_self m k)
  | cons g gs => exact congrArg (fun o : Option (List AtomGroup) => o.getD []) (MapLaws.find_put_self m k (g :: gs))

theorem atomicRequestExecute_writes (s : State) (cluster : Nat) (g : AtomGroup) (gs : List AtomGroup) (r : AtomReq)
    (hqueue : Map.get [] s.svcq cluster = g :: gs) (hreqs : g.reqs = [r]) (hflip : s.flipping r.loc = false) (hslot : s.svcSlot g r = none)
    (hctl : locCtl r.loc = false) (hal : r.loc % (tyBits g.ty / 8) = 0) (harm : s.inject.arm = false) (hoffs : s.offs = [])
    (hlive : s.dead.contains (dieOfCore (4 * g.owner)) = false) (hpoison : s.isPoisoned r.loc = false)
    (hty : tyBits g.ty = 32 ∨ tyBits g.ty = 64) :
    let w := tyBits g.ty / 8
    ∃ t, exec (.atomicRequestExecute cluster) s = .next t ∧ Map.get [] t.svcq cluster = gs ∧
      memNat t.mem r.loc w = (match atomVal g.op g.ty g.sat (memNat s.mem r.loc w) r.x.toNat r.c.toNat with
        | some v => v % 2 ^ (8 * w)
        | none => memNat s.mem r.loc w) ∧
      ∀ a, (a < r.loc ∨ r.loc + w ≤ a) → memGet t.mem a = memGet s.mem a := by
  intro w
  simp only [exec, execAtomicRequestExecute]
  rw [hqueue]
  dsimp only
  rw [if_neg (by simp [State.groupHeld, hreqs, hflip, hslot])]
  generalize hp : ({ s with svcq := if gs.isEmpty then Map.erase s.svcq cluster else Map.put s.svcq cluster gs } : State) = p
  have hpmem : p.mem = s.mem := by rw [← hp]
  obtain ⟨u, hdir, hquiet, hmem, hsvcq⟩ := runGroup_request p hreqs
  have hq : Quiet p.mem p.crews u := hquiet (by rw [← hp]; exact hoffs) (by rw [← hp]; exact harm)
  have hdead : u.dead = s.dead := by
    have hd : u.dead = p.dead := (congrArg State.dead hdir.rest :)
    rw [hd, ← hp]
  obtain ⟨hreq, hreqq⟩ := atomReq_writes (s := u) (g := g) (r := r)
    (by
      unfold State.svcSlot at hslot ⊢
      rw [hdir.svc, ← hp]
      exact hslot)
    hctl hal hq.arm hq.offs (by rw [hdead]; exact hlive) (by rw [hdir.isPoisoned, ← hp]; exact hpoison) hty
  rw [hq.mem, hpmem] at hreq
  refine ⟨_, rfl, ?_, ?_, fun a ha => ?_⟩
  · rw [hsvcq, hreqq, hdir.svcq, ← hp]
    exact get_popped s.svcq cluster
  · rw [hmem, hreq]
    exact memNat_atomCells _ _ _ _
  · rw [hmem, hreq]
    exact atomCells_outside _ _ _ _ ha

/-- Settles O53: each step of the memory system by its own lemma; a request holds its span by what the directory's step puts in its
entry, and where no word differs from its span's source the steps move no byte but those they write. -/
theorem theMemorySystemTakesItsSteps : Obligations.TheMemorySystemTakesItsSteps := by
  unfold Obligations.TheMemorySystemTakesItsSteps
  exact ⟨pageWalkDone_ends, l1Read_clause,
    fun s core line f l x hx hoffs => ⟨l2Read_leases s core line f l x hx hoffs, l2Write_stamps s core line f l x hx⟩,
    leaseTick_advances, timestampSweep_sweeps, dropMessage_drops,
    fun s a line f l hfl _ hflip => directory_clause s a line f l hfl hflip, homeWrite_writes, homeWrite_discarded,
    countedRequestAck_takes, dirtyBitMessage_sets, atomicRequestExecute_writes, checkerRecord_records, recordLost_counts⟩

end Sys2Proof.Machine
end

section
/-! PROOFS. Wakes at queues and barriers (R37, R232, R236), and what plate stores and engines set back (R64, R205). -/

namespace Sys2Proof.Machine

/-! ## The crews that wait at an object -/

theorem mem_put {α : Type} {m : Map α} {k : Nat} {v : α} {x : Nat × α} (h : x ∈ Map.put m k v) : x = (k, v) ∨ x ∈ m := by
  induction m with
  | nil => exact .inl (List.mem_singleton.mp h)
  | cons y ys ih =>
    obtain ⟨j, w⟩ := y
    unfold Map.put at h
    split at h
    · exact (List.mem_cons.mp h).imp_right (List.mem_cons_of_mem _)
    · split at h
      · exact List.mem_cons.mp h
      · obtain rfl | hys := List.mem_cons.mp h
        · exact .inr List.mem_cons_self
        · exact (ih hys).imp_right (List.mem_cons_of_mem _)

/-- Whether a crew waits on a condition. -/
def Crew.waitsOn (c : Crew) (w : Wait → Bool) : Bool := match c.phase with | .waiting x => w x | _ => false

theorem blockedOn_waitsOn (s : State) (p : Nat) (w : Wait → Bool) :
    s.blockedOn p w = sortBy (fun kc => kc.2.blockedSince) (s.crews.filter fun kc => kc.2.party == p && kc.2.waitsOn w) := by
  unfold State.blockedOn State.partyCrews
  rw [List.filter_filter]
  refine congrArg (sortBy _) (List.filter_congr fun kc _ => ?_)
  exact Bool.and_comm _ _

theorem LoneWaiter.blockedOn {s : State} {p : Nat} {at_ : Crew → Bool} {k : Nat} {c : Crew} (h : LoneWaiter s p at_ k c) {w : Wait → Bool}
    (hw : ∀ d : Crew, d.waitsOn w = true → at_ d = true) : s.blockedOn p w = if c.waitsOn w then [(k, c)] else [] := by
  have hsub : (s.crews.filter fun kc => kc.2.party == p && kc.2.waitsOn w) =
      (s.crews.filter fun kc => kc.2.party == p && at_ kc.2).filter fun kc => kc.2.waitsOn w := by
    rw [List.filter_filter]
    refine List.filter_congr fun kc _ => ?_
    cases hd : kc.2.waitsOn w with
    | false => simp
    | true => simp [hw _ hd]
  rw [blockedOn_waitsOn, hsub, h.alone, List.filter_cons, List.filter_nil]
  split <;> rfl

theorem LoneWaiter.party {s : State} {p : Nat} {at_ : Crew → Bool} {k : Nat} {c : Crew} (h : LoneWaiter s p at_ k c) : c.party = p := by
  have hmem : (k, c) ∈ s.crews.filter fun kc => kc.2.party == p && at_ kc.2 := h.alone ▸ List.mem_singleton.mpr rfl
  have hboth := (List.mem_filter.mp hmem).2
  simp only [Bool.and_eq_true, beq_iff_eq] at hboth
  exact hboth.1

theorem LoneWaiter.crew {s : State} {p : Nat} {at_ : Crew → Bool} {k : Nat} {c : Crew} (h : LoneWaiter s p at_ k c) : s.crew k = c :=
  congrArg (fun o : Option Crew => o.getD {}) h.found

/-- Every entry of the party's crews that waits at the object is the lone waiter's. -/
theorem LoneWaiter.only {s : State} {p : Nat} {at_ : Crew → Bool} {k : Nat} {c : Crew} (h : LoneWaiter s p at_ k c) {kc : Nat × Crew}
    (hin : kc ∈ s.crews) (hp : kc.2.party = p) (hat : at_ kc.2 = true) : kc = (k, c) := by
  have hmem : kc ∈ s.crews.filter fun kc => kc.2.party == p && at_ kc.2 := List.mem_filter.mpr ⟨hin, by simp [hp, hat]⟩
  rw [h.alone] at hmem
  exact List.mem_singleton.mp hmem

/-- A crew that went on from its wait is the one that stays of its party's waiters at most by an older entry of its own. -/
theorem LoneWaiter.noneLeft {s t : State} {p : Nat} {at_ : Crew → Bool} {k : Nat} {c d : Crew} (h : LoneWaiter s p at_ k c)
    (hcrews : ∀ kc ∈ t.crews, kc = (k, d) ∨ kc ∈ s.crews) {w : Wait → Bool} (hw : ∀ d : Crew, d.waitsOn w = true → at_ d = true)
    (hd : d.waitsOn w = false) (hc : c.waitsOn w = false) : t.blockedOn p w = [] := by
  refine blockedOn_nil fun kc hkc hp x hx => ?_
  have hno : kc.2.waitsOn w = false := by
    obtain rfl | hin := hcrews kc hkc
    · exact hd
    · cases hkw : kc.2.waitsOn w with
      | false => rfl
      | true =>
        rw [h.only hin hp (hw _ hkw)] at hkw
        exact absurd hkw (by simp [hc])
  unfold Crew.waitsOn at hno
  rw [hx] at hno
  exact hno

/-! ## The wake step of a queue (R37) -/

/-- Whether a wait is that of a popper, or of a pusher, at a queue. -/
def popWait (q : Nat) : Wait → Bool := fun w => match w with | .queuePop y _ => y == q | _ => false
def pushWait (q : Nat) : Wait → Bool := fun w => match w with | .queuePush y _ => y == q | _ => false

theorem popWait_atQueue {q : Nat} (d : Crew) (h : d.waitsOn (popWait q) = true) : atQueue q d = true := by
  unfold Crew.waitsOn popWait at h
  unfold atQueue
  split at h
  · next x hx =>
    rw [hx]
    split at h
    · exact h
    · cases h
  · cases h

theorem pushWait_atQueue {q : Nat} (d : Crew) (h : d.waitsOn (pushWait q) = true) : atQueue q d = true := by
  unfold Crew.waitsOn pushWait at h
  unfold atQueue
  split at h
  · next x hx =>
    rw [hx]
    split at h
    · exact h
    · cases h
  · cases h

theorem queueWake_pop {s : State} {p q : Nat} {x : CQueue} (hx : Map.find? (s.party p).queues q = some x) {i : QItem} {is : List QItem}
    (hitems : x.items = i :: is) {k : Nat} {c : Crew} {sd : SReg} (hpops : s.blockedOn p (popWait q) = [(k, c)])
    (hc : c.phase = .waiting (.queuePop q sd)) (n : Nat) :
    s.queueWake p q (n + 1) = (((s.setQueue p q { x with items := is }).received k x.event i).wakeNext k fun c =>
      c.setS sd (i.item.zeroExtend 64)).queueWake p q n := by
  rw [State.queueWake, hx]
  dsimp only
  rw [hitems]
  erw [hpops]
  dsimp only
  rw [hc]

theorem queueWake_push {s : State} {p q : Nat} {x : CQueue} (hx : Map.find? (s.party p).queues q = some x) {k : Nat} {c : Crew} {item : W32}
    (hpops : s.blockedOn p (popWait q) = []) (hpushes : s.blockedOn p (pushWait q) = [(k, c)]) (hfree : x.blocks c.num = false)
    (hc : c.phase = .waiting (.queuePush q item)) (n : Nat) :
    s.queueWake p q (n + 1) = ((s.setQueue p q (x.pushItem c.num item c.relTs)).wakeNext k id).queueWake p q n := by
  have hone : [(k, c)].filter (fun kc => !x.blocks kc.2.num) = [(k, c)] := by simp [hfree]
  rw [State.queueWake, hx]
  dsimp only
  erw [hpops, hpushes]
  rw [hone]
  cases x.items <;> (dsimp only; rw [hc])

/-- A queue that nobody waits at, or only to pop where it is empty or to push where that blocks, wakes nobody. -/
theorem queueWake_rest {s : State} {p q : Nat} {x : CQueue} (hx : Map.find? (s.party p).queues q = some x)
    (hpops : x.items = [] ∨ s.blockedOn p (popWait q) = []) (hpushes : (s.blockedOn p (pushWait q)).filter (fun kc => !x.blocks kc.2.num) = [])
    (n : Nat) : s.queueWake p q n = s := by
  cases n with
  | zero => rfl
  | succ n =>
    rw [State.queueWake, hx]
    dsimp only
    erw [hpushes]
    obtain hnone | hnone := hpops
    · rw [hnone]
    · erw [hnone]
      cases x.items <;> rfl

/-- The queue of a party after a change of it. -/
theorem setQueue_found (s : State) (p q : Nat) (x : CQueue) : Map.find? ((s.setQueue p q x).party p).queues q = some x := by
  rw [State.setQueue, State.onParty_party_self]
  exact MapLaws.find_put_self _ _ _

theorem always_party (s : State) (p why j : Nat) : ((s.always p why).party j).queues = (s.party j).queues := by
  by_cases hj : j = p
  · subst hj
    rw [State.always, State.onParty_party_self]
  · exact congrArg (fun o : Option Party => (o.getD {}).queues) (MapLaws.find_put_ne _ _ hj)

/-- A crew that receives an item: its clocks and intervals change, and no queue does. -/
theorem received_leaves (s : State) (k : Nat) (event : Bool) (i : QItem) :
    ∃ iv, (s.received k event i).crews = (s.putCrew k { s.crew k with seen := joinStamps (s.crew k).seen i.stamp, ivals := iv }).crews ∧
      (s.received k event i).clk = s.clk ∧ ∀ j, ((s.received k event i).party j).queues = (s.party j).queues := by
  obtain ⟨iv, -, hreceived⟩ := received_eq s k event i
  refine ⟨iv, ?_⟩
  rw [hreceived]
  dsimp only
  split
  · exact ⟨rfl, rfl, fun j => always_party _ _ _ _⟩
  · exact ⟨rfl, rfl, fun j => rfl⟩

theorem onCrew_crews (s : State) (k : Nat) (f : Crew → Crew) : (s.onCrew k f).crews = Map.put s.crews k ((s.onCrew k f).crew k) := by
  rw [State.onCrew_crew_self]
  rfl

theorem wakeNext_crews (s : State) (k : Nat) (f : Crew → Crew) : (s.wakeNext k f).crews = Map.put s.crews k ((s.wakeNext k f).crew k) := by
  have hcommit : (s.wakeNext k f).crews = Map.put (s.onCrew k fun c => (f c).next.wake s.clk).crews k ((s.wakeNext k f).crew k) :=
    onCrew_crews { s.onCrew k fun c => (f c).next.wake s.clk with past := _ } k _
  rw [hcommit, onCrew_crews s k]
  exact MapLaws.put_put _ _ _ _

theorem queueUpdate_pops (s : State) (p q : Nat) (P : Party) (x : CQueue) (k : Nat) (c : Crew) (hP : Map.find? s.parties p = some P)
    (hx : Map.find? P.queues q = some x) (hlone : LoneWaiter s p (atQueue q) k c) (sd : SReg) (i : QItem)
    (hc : c.phase = .waiting (.queuePop q sd)) (hitems : x.items = [i]) :
    ∃ t, exec (.clusterQueueUpdate p q) s = .next t ∧ OnlyCrew s t k ∧
      Map.find? (t.party p).queues q = some { x with items := [] } ∧ t.crew k = { c.goesOn s.clk with
        s := (t.crew k).s, seen := joinStamps c.seen i.stamp, ivals := (t.crew k).ivals } ∧
      (∀ r, r ≠ sd → (t.crew k).sv r = c.sv r) ∧ (t.crew k).sv sd = if sd = 0 then 0 else i.item.setWidth 64 := by
  have hparty : s.party p = P := congrArg (fun o : Option Party => o.getD {}) hP
  have hqueue : Map.find? (s.party p).queues q = some x := hparty ▸ hx
  have hpop : c.waitsOn (popWait q) = true := by simp [Crew.waitsOn, hc, popWait]
  have hnopush : c.waitsOn (pushWait q) = false := by simp [Crew.waitsOn, hc, pushWait]
  have hpops : s.blockedOn p (popWait q) = [(k, c)] := (hlone.blockedOn popWait_atQueue).trans (if_pos hpop)
  obtain ⟨iv, hcrews, hclk, hqueues⟩ := received_leaves (s.setQueue p q { x with items := [] }) k x.event i
  generalize hu : (s.setQueue p q { x with items := [] }).received k x.event i = u at hcrews hclk hqueues
  have hreceived : u.crew k = { c with seen := joinStamps c.seen i.stamp, ivals := iv } := by
    have hself := State.crew_of_crews hcrews k
    rw [State.putCrew_crew_self] at hself
    rw [hself, show (s.setQueue p q { x with items := [] }).crew k = s.crew k from rfl, hlone.crew]
  generalize ht : (u.wakeNext k fun c => c.setS sd (i.item.zeroExtend 64)) = t
  have hcrew : t.crew k = { ((u.crew k).setS sd (i.item.zeroExtend 64)).next.wake s.clk with committed := s.clk } := by
    rw [← ht, State.wakeNext_crew, hclk]
    rfl
  have hfound : Map.find? (t.party p).queues q = some { x with items := [] } := by
    rw [← ht]
    change Map.find? (u.party p).queues q = _
    rw [hqueues]
    exact setQueue_found s p q _
  have hmem : t.mem = s.mem := by rw [← ht, ← hu]; simp [State.setQueue]
  have hothers : ∀ j, j ≠ k → Map.find? t.crews j = Map.find? s.crews j := fun j hj => by
    rw [← ht, (State.wakeNext_only u k _).others j hj, hcrews]
    exact MapLaws.find_put_ne _ _ hj
  have hin : ∀ kc ∈ t.crews, kc = (k, t.crew k) ∨ kc ∈ s.crews := fun kc hkc => by
    have hput : t.crews = Map.put s.crews k (t.crew k) := by
      rw [← ht, wakeNext_crews, hcrews]
      exact MapLaws.put_put _ _ _ _
    exact mem_put (hput ▸ hkc)
  have hnone : (t.blockedOn p (pushWait q)).filter (fun kc => !({ x with items := [] } : CQueue).blocks kc.2.num) = [] := by
    rw [hlone.noneLeft hin pushWait_atQueue (by rw [hcrew]; rfl) hnopush]
    rfl
  refine ⟨t, ?_, ⟨fun a => congrArg (memGet · a) hmem, hothers⟩, hfound, ?_, fun r hr => ?_, ?_⟩
  · simp only [exec, execClusterQueueUpdate]
    rw [if_pos (by rw [hP]; rfl), queueWake_pop hqueue hitems hpops hc, hu, ht, queueWake_rest hfound (.inl rfl) hnone]
  · rw [hcrew, Crew.setS_rest, hreceived]
    rfl
  · rw [hcrew]
    refine (Crew.sv_setS_ne (u.crew k) _ hr).trans ?_
    rw [hreceived]
    rfl
  · rw [hcrew]
    exact Crew.sv_setS_self (u.crew k) sd _

theorem queueUpdate_pushes (s : State) (p q : Nat) (P : Party) (x : CQueue) (k : Nat) (c : Crew) (hP : Map.find? s.parties p = some P)
    (hx : Map.find? P.queues q = some x) (hlone : LoneWaiter s p (atQueue q) k c) (item : W32)
    (hc : c.phase = .waiting (.queuePush q item)) (hallow : Map.get 0 x.allow c.num ≠ 0) (hroom : x.items.length + 1 = x.depth) :
    ∃ t y, exec (.clusterQueueUpdate p q) s = .next t ∧ OnlyCrew s t k ∧ Map.find? (t.party p).queues q = some y ∧
      Pushed x y c.num item c.relTs ∧ t.crew k = c.goesOn s.clk := by
  have hparty : s.party p = P := congrArg (fun o : Option Party => o.getD {}) hP
  have hqueue : Map.find? (s.party p).queues q = some x := hparty ▸ hx
  have hpush : c.waitsOn (pushWait q) = true := by simp [Crew.waitsOn, hc, pushWait]
  have hnopop : c.waitsOn (popWait q) = false := by simp [Crew.waitsOn, hc, popWait]
  have hfree : x.blocks c.num = false := by
    have hno : ¬x.blocks c.num = true := fun hb => by
      obtain h0 | hfull := (blocks_iff x c.num).mp hb
      · exact hallow h0
      · omega
    simpa using hno
  have hpops : s.blockedOn p (popWait q) = [] := (hlone.blockedOn popWait_atQueue).trans (if_neg (by simp [hnopop]))
  have hpushes : s.blockedOn p (pushWait q) = [(k, c)] := (hlone.blockedOn pushWait_atQueue).trans (if_pos hpush)
  have hpushed := pushItem_pushed x c.num item c.relTs
  generalize hy : x.pushItem c.num item c.relTs = y at hpushed
  generalize ht : (s.setQueue p q y).wakeNext k id = t
  have hcrew : t.crew k = c.goesOn s.clk := by
    rw [← ht, State.wakeNext_crew, show (s.setQueue p q y).crew k = s.crew k from rfl, hlone.crew]
    rfl
  have hfound : Map.find? (t.party p).queues q = some y := by
    rw [← ht]
    exact setQueue_found s p q y
  have hin : ∀ kc ∈ t.crews, kc = (k, t.crew k) ∨ kc ∈ s.crews := fun kc hkc => by
    have hput : t.crews = Map.put s.crews k (t.crew k) := by
      rw [← ht]
      exact wakeNext_crews _ k _
    exact mem_put (hput ▸ hkc)
  have hfull : ∀ n, y.blocks n = true := fun n => (blocks_iff y n).mpr (.inr (by
    have hdepth : y.depth = x.depth := (congrArg CQueue.depth hpushed.rest :)
    rw [hpushed.items, hdepth, List.length_append, List.length_singleton]
    omega))
  have hrest : t.queueWake p q 128 = t :=
    queueWake_rest hfound (.inr (hlone.noneLeft hin popWait_atQueue (by rw [hcrew]; rfl) hnopop))
      (List.filter_eq_nil_iff.mpr fun kc _ => by simp [hfull]) 128
  refine ⟨t, y, ?_, ?_, hfound, hpushed, hcrew⟩
  · simp only [exec, execClusterQueueUpdate]
    rw [if_pos (by rw [hP]; rfl), queueWake_push hqueue hpops hpushes hfree hc, hy, ht, hrest]
  · rw [← ht]
    have hset : OnlyCrew s (s.setQueue p q y) k := OnlyCrew.of_same rfl rfl
    exact hset.trans (State.wakeNext_only _ k _)

theorem clusterQueueUpdate_clause (s : State) (p q : Nat) (P : Party) (x : CQueue) (k : Nat) (c : Crew) (hP : Map.find? s.parties p = some P)
    (hx : Map.find? P.queues q = some x) (hlone : LoneWaiter s p (atQueue q) k c) :
    (∀ sd i, c.phase = .waiting (.queuePop q sd) → x.items = [i] →
      ∃ t, exec (.clusterQueueUpdate p q) s = .next t ∧ OnlyCrew s t k ∧
        Map.find? (t.party p).queues q = some { x with items := [] } ∧ t.crew k = { c.goesOn s.clk with
          s := (t.crew k).s, seen := joinStamps c.seen i.stamp, ivals := (t.crew k).ivals } ∧
        (∀ r, r ≠ sd → (t.crew k).sv r = c.sv r) ∧ (t.crew k).sv sd = if sd = 0 then 0 else i.item.setWidth 64) ∧
    (∀ item, c.phase = .waiting (.queuePush q item) → Map.get 0 x.allow c.num ≠ 0 → x.items.length + 1 = x.depth →
      ∃ t y, exec (.clusterQueueUpdate p q) s = .next t ∧ OnlyCrew s t k ∧ Map.find? (t.party p).queues q = some y ∧
        Pushed x y c.num item c.relTs ∧ t.crew k = c.goesOn s.clk) :=
  ⟨queueUpdate_pops s p q P x k c hP hx hlone, queueUpdate_pushes s p q P x k c hP hx hlone⟩

/-! ## The completion of a barrier's phase (R232) -/

/-- Whether a wait is one on a barrier whose phase lies behind. -/
def barWait (bar : Nat) (b : Barrier) : Wait → Bool := fun w => match w with | .barrier n p => n == bar && b.past p | _ => false

theorem barWait_atBarrier {bar : Nat} {b : Barrier} (d : Crew) (h : d.waitsOn (barWait bar b) = true) : atBarrier bar d = true := by
  unfold Crew.waitsOn barWait at h
  unfold atBarrier
  split at h
  · next x hx =>
    rw [hx]
    split at h
    · exact (Bool.and_eq_true _ _ ▸ h).1
    · cases h
  · cases h

/-- A barrier with its current phase completed. -/
def Barrier.completed (b : Barrier) (as : List W64) (t : Clocks) (ts : List Clocks) : Barrier :=
  { b with cur := b.cur + 1, arrived := as ++ [0], stamps := ts ++ [[]], ended := Map.put b.ended b.cur.toNat t }

theorem complete_covered {b : Barrier} {a : W64} {as : List W64} {t : Clocks} {ts : List Clocks} (ha : b.arrived = a :: as) (ht : b.stamps = t :: ts)
    (hcov : a ≠ 0 ∧ b.mask &&& ~~~a = 0) (n : Nat) : Barrier.complete (n + 1) b = Barrier.complete n (b.completed as t ts) := by
  rw [Barrier.complete]
  simp only [ha, ht]
  exact if_pos hcov

theorem complete_open {b : Barrier} {a : W64} {as : List W64} (ha : b.arrived = a :: as) (hopen : b.mask &&& ~~~a ≠ 0) (n : Nat) :
    Barrier.complete n b = b := by
  cases n with
  | zero => rfl
  | succ n =>
    rw [Barrier.complete]
    cases hs : b.stamps with
    | nil => simp only [ha]
    | cons t ts =>
      simp only [ha]
      exact if_neg fun hcov => hopen hcov.2

theorem past_completed (b : Barrier) (as : List W64) (t : Clocks) (ts : List Clocks) : (b.completed as t ts).past b.cur = true := by
  have hdist : b.cur - (b.cur + 1) = BitVec.ofNat 16 65535 := by
    generalize b.cur = x
    bv_omega
  unfold Barrier.past Barrier.dist Barrier.completed
  rw [hdist]
  rfl

theorem past_current (b : Barrier) : b.past b.cur = false := by
  unfold Barrier.past Barrier.dist
  rw [BitVec.sub_self]
  rfl

theorem exec_barrierUpdate {s : State} {p bar : Nat} {b : Barrier} (hb : Map.find? (s.party p).bars bar = some b) {k : Nat} {c : Crew} {ph : BitVec 16}
    (hlone : LoneWaiter s p (atBarrier bar) k c) (hc : c.phase = .waiting (.barrier bar ph)) :
    exec (.barrierUpdate p bar) s =
      let b' := Barrier.complete 4 b
      let u := s.setBar p bar b'
      .next (if b'.past ph then (u.seeBar k b' ph).wakeNext k id else u) := by
  have hwaits : c.waitsOn (barWait bar (Barrier.complete 4 b)) = (Barrier.complete 4 b).past ph := by simp [Crew.waitsOn, hc, barWait]
  have hset : LoneWaiter (s.setBar p bar (Barrier.complete 4 b)) p (atBarrier bar) k c := ⟨hlone.found, hlone.alone⟩
  have hws := hset.blockedOn (w := barWait bar (Barrier.complete 4 b)) barWait_atBarrier
  rw [hwaits] at hws
  simp only [exec, execBarrierUpdate]
  rw [hb]
  dsimp only
  erw [hws]
  split
  · rw [List.foldl_cons, List.foldl_nil, hc]
  · rfl

end Sys2Proof.Machine
end

section
/-! PROOFS. Barriers (R232), plate stores (R205), event records (R220), batches (R210) and the accumulator's transfers (R213). -/

namespace Sys2Proof.Machine

@[simp] theorem State.pushLate_crews (s : State) (i : Instr) : (s.pushLate i).crews = s.crews := by
  unfold State.pushLate
  split <;> rfl

@[simp] theorem State.pushLate_parties (s : State) (i : Instr) : (s.pushLate i).parties = s.parties := by
  unfold State.pushLate
  split <;> rfl

/-- A fence in a core's window tests no access. -/
theorem winPush_fence (s : State) (k : Nat) {r : ROp} (hread : r.read = false) (hwrite : r.write = false) :
    ∃ w, (s.winPush k r = s.onCore (coreOfKey k) fun c => { c with window := w }) ∨ s.winPush k r = s := by
  unfold State.winPush
  split
  · rw [hread, hwrite]
    exact ⟨winTake 256 (r :: (s.core (coreOfKey k)).window), .inl (by simp only [Bool.or_self, Bool.and_false]; rfl)⟩
  · exact ⟨[], .inr rfl⟩

/-- A crew that sees a completed phase: its clocks, and its core's. -/
theorem seeBar_leaves (s : State) (k : Nat) (b : Barrier) (ph : BitVec 16) :
    (s.seeBar k b ph).mem = s.mem ∧ (s.seeBar k b ph).clk = s.clk ∧ (s.seeBar k b ph).parties = s.parties ∧
      (s.seeBar k b ph).crews = (s.putCrew k { s.crew k with seen := joinStamps (s.crew k).seen (Map.get [] b.ended ph.toNat) }).crews ∧
      ((s.seeBar k b ph).core (coreOfKey k)).ts = keptClock (Map.get [] b.ended ph.toNat) (dieOfCore (coreOfKey k)) (s.core (coreOfKey k)).ts := by
  unfold State.seeBar
  rw [acquireKept_eq s k (by decide)]
  generalize hu : ((s.onCore (coreOfKey k) fun c => { c with ts := s.keptAt (coreOfKey k) .clus (Map.get [] b.ended ph.toNat) }).onCrew k fun c =>
    { c with seen := joinStamps c.seen (Map.get [] b.ended ph.toNat) }) = u
  have hts : (u.core (coreOfKey k)).ts = keptClock (Map.get [] b.ended ph.toNat) (dieOfCore (coreOfKey k)) (s.core (coreOfKey k)).ts := by
    rw [← hu]
    rw [State.onCrew_eq, State.putCrew_core, State.onCore_core_self]
    rfl
  have hsides : u.mem = s.mem ∧ u.clk = s.clk ∧ u.parties = s.parties ∧
      u.crews = (s.putCrew k { s.crew k with seen := joinStamps (s.crew k).seen (Map.get [] b.ended ph.toNat) }).crews := by
    rw [← hu]
    exact ⟨rfl, rfl, rfl, rfl⟩
  obtain ⟨hmem, hclk, hparties, hcrews⟩ := hsides
  obtain ⟨w, hwin | hwin⟩ := winPush_fence u k (r := { crew := k, at_ := s.clk, locs := [], acq := some .clus, done := true }) rfl rfl
  · rw [hwin]
    exact ⟨hmem, hclk, hparties, hcrews, by rw [State.onCore_core_self]; exact hts⟩
  · rw [hwin]
    exact ⟨hmem, hclk, hparties, hcrews, hts⟩

theorem setBar_found (s : State) (p bar : Nat) (b : Barrier) : Map.find? ((s.setBar p bar b).party p).bars bar = some b := by
  rw [State.setBar, State.onParty_party_self]
  exact MapLaws.find_put_self _ _ _

theorem barrierUpdate_clause (s : State) (p bar : Nat) (b : Barrier) (k : Nat) (c : Crew) (a a1 a2 a3 : W64) (st : Clocks) (sts : List Clocks)
    (hb : Map.find? (s.party p).bars bar = some b) (hlone : LoneWaiter s p (atBarrier bar) k c)
    (hc : c.phase = .waiting (.barrier bar b.cur)) (harrived : b.arrived = [a, a1, a2, a3]) (hstamps : b.stamps = st :: sts)
    (_hlen : sts.length = 3) (hnext : b.mask &&& ~~~a1 ≠ 0) :
    (a ≠ 0 → b.mask &&& ~~~a = 0 →
      ∃ t y, exec (.barrierUpdate p bar) s = .next t ∧ OnlyCrew s t k ∧ Map.find? (t.party p).bars bar = some y ∧ y.mask = b.mask ∧
        y.cur = b.cur + 1 ∧ y.arrived = [a1, a2, a3, 0] ∧ y.stamps = sts ++ [[]] ∧
        y.ended = Map.put b.ended b.cur.toNat st ∧ t.crew k = { c.goesOn s.clk with seen := joinStamps c.seen st } ∧
        (t.core (coreOfKey k)).ts = keptClock st (dieOfCore (coreOfKey k)) (s.core (coreOfKey k)).ts) ∧
    (b.mask &&& ~~~a ≠ 0 →
      ∃ t, exec (.barrierUpdate p bar) s = .next t ∧ t.mem = s.mem ∧ t.crews = s.crews ∧ Map.find? (t.party p).bars bar = some b) := by
  have hexec := exec_barrierUpdate hb hlone hc
  refine ⟨fun ha hcov => ?_, fun hopen => ?_⟩
  · generalize hy : b.completed [a1, a2, a3] st sts = y
    have hcomplete : Barrier.complete 4 b = y := by
      rw [complete_covered harrived hstamps ⟨ha, hcov⟩ 3, hy]
      exact complete_open (a := a1) (as := [a2, a3, 0]) (by rw [← hy]; rfl) (by rw [← hy]; exact hnext) 3
    have hpast : y.past b.cur = true := by
      rw [← hy]
      exact past_completed b _ _ _
    have hended : Map.get [] y.ended b.cur.toNat = st := by
      rw [← hy]
      exact MapLaws.get_put_self _ _ _ _
    rw [hcomplete] at hexec
    dsimp only at hexec
    rw [if_pos hpast] at hexec
    obtain ⟨hmem, hclk, hparties, hcrews, hts⟩ := seeBar_leaves (s.setBar p bar y) k y b.cur
    rw [hended] at hcrews hts
    generalize hu : (s.setBar p bar y).seeBar k y b.cur = u at hexec hmem hclk hparties hcrews hts
    have hseen : u.crew k = { c with seen := joinStamps c.seen st } := by
      have hself := State.crew_of_crews hcrews k
      rw [State.putCrew_crew_self] at hself
      rw [hself, show (s.setBar p bar y).crew k = s.crew k from rfl, hlone.crew]
    have hsee : OnlyCrew s u k :=
      ⟨fun x => congrArg (memGet · x) hmem, fun j hj => by rw [hcrews]; exact MapLaws.find_put_ne _ _ hj⟩
    refine ⟨_, y, hexec, hsee.trans (State.wakeNext_only u k _), ?_, ?_, ?_, ?_, ?_, ?_, ?_, hts⟩
    · change Map.find? (u.party p).bars bar = some y
      rw [State.party, hparties]
      exact setBar_found s p bar y
    · rw [← hy]; rfl
    · rw [← hy]; rfl
    · rw [← hy]; rfl
    · rw [← hy]; rfl
    · rw [← hy]; rfl
    · rw [State.wakeNext_crew, hseen, hclk]
      rfl
  · rw [complete_open harrived hopen 4] at hexec
    dsimp only at hexec
    rw [past_current, if_neg (by simp)] at hexec
    exact ⟨_, hexec, rfl, rfl, setBar_found s p bar b⟩

/-! ## Plates that engines set back (R64, R205) -/

theorem mem_of_found {α : Type} {m : Map α} {k : Nat} {v : α} (h : Map.find? m k = some v) : (k, v) ∈ m := by
  induction m with
  | nil => cases h
  | cons x xs ih =>
    obtain ⟨j, w⟩ := x
    unfold Map.find? at h
    split at h
    · next hj =>
      rw [hj, Option.some.inj h]
      exact List.mem_cons_self
    · exact List.mem_cons_of_mem _ (ih h)

/-- A core's commands are among those of all cores. -/
theorem core_listed {s : State} {n : Nat} {x : EngCmd} (h : x ∈ (s.core n).copyQ ++ (s.core n).gatherQ) :
    x ∈ s.cores.flatMap fun (c : Nat × Core) => c.2.copyQ ++ c.2.gatherQ := by
  unfold State.core Map.get at h
  cases hfind : Map.find? s.cores n with
  | none =>
    rw [hfind] at h
    cases h
  | some c =>
    rw [hfind] at h
    exact List.mem_flatMap.mpr ⟨(n, c), mem_of_found hfind, h⟩

/-- A change of a core that adds no command keeps a set-back good. -/
theorem setBackBad_onCore {s : State} {core : Nat} {b : SetBack} {f : Core → Core} (hcopy : (f (s.core core)).copyQ = (s.core core).copyQ)
    (hgather : (f (s.core core)).gatherQ = (s.core core).gatherQ) (h : s.setBackBad b = none) : (s.onCore core f).setBackBad b = none := by
  unfold State.setBackBad at h ⊢
  rw [List.find?_eq_none] at h ⊢
  intro x hx
  obtain ⟨nc, hnc, hxnc⟩ := List.mem_flatMap.mp hx
  obtain rfl | hin := mem_put hnc
  · refine h x (core_listed (n := core) ?_)
    dsimp only at hxnc
    rwa [hcopy, hgather] at hxnc
  · exact h x (List.mem_flatMap.mpr ⟨nc, hin, hxnc⟩)

/-- A party whose plate goes back to CREW with a stamp and intervals. -/
def Party.gotBack (p : Party) (b : SetBack) : Party :=
  { p with plates := p.plates.map fun y =>
      if y.num = b.plate then { y with owner := false, eng := 0, holder := 0, stamp := some b.stamp, ivals := b.ivals } else y }

/-- A set-back as its plate store takes it. -/
def State.backed (s : State) (core : Nat) (b : SetBack) : State :=
  (s.onCore core fun c => { c with setBacks := [] }).onParty b.party fun p => p.gotBack b

theorem exec_plateStoreArbitration {s : State} {core : Nat} {b : SetBack} {p : Party} (hbacks : (s.core core).setBacks = [b])
    (hp : Map.find? s.parties b.party = some p) (hgood : s.setBackBad b = none) :
    exec (.plateStoreArbitration core) s = .next (match b.ev with
      | none => s.backed core b
      | some e => ((s.backed core b).onCore e.core fun c => { c with evs := c.evs ++ [e] }).pushLate (.eventRecordPost e.core e.eng)) := by
  have hfresh : (s.onCore core fun c => { c with setBacks := [] }).setBackBad b = none := setBackBad_onCore rfl rfl hgood
  simp only [exec, execPlateStoreArbitration]
  rw [hbacks]
  simp only [List.foldl_cons, List.foldl_nil, State.setBackChecked, hfresh, State.setBack, State.onCore_parties, hp]
  cases hev : b.ev with
  | none =>
    rw [List.filterMap_cons_none hev]
    rfl
  | some e =>
    rw [List.filterMap_cons_some hev]
    rfl

theorem plateStoreArbitration_clause (s : State) (core : Nat) (b : SetBack) (p : Party) (hbacks : (s.core core).setBacks = [b])
    (hp : Map.find? s.parties b.party = some p) (hgood : s.setBackBad b = none) :
    ∃ t, exec (.plateStoreArbitration core) s = .next t ∧ t.mem = s.mem ∧ t.crews = s.crews ∧ (t.core core).setBacks = [] ∧
      (∀ j, j ≠ b.party → Map.find? t.parties j = Map.find? s.parties j) ∧
      t.party b.party = { p with plates := p.plates.map fun y =>
        if y.num = b.plate then { y with owner := false, eng := 0, holder := 0, stamp := some b.stamp, ivals := b.ivals } else y } ∧
      ∀ e, b.ev = some e → e ∈ (t.core e.core).evs ∧ EndsWith s t (.eventRecordPost e.core e.eng) := by
  have hexec := exec_plateStoreArbitration hbacks hp hgood
  have hback : (s.backed core b).party b.party = p.gotBack b := by
    rw [State.backed, State.onParty_party_self, State.onCore_party, State.party, Map.get, hp]
    rfl
  have hothers : ∀ j, j ≠ b.party → Map.find? (s.backed core b).parties j = Map.find? s.parties j :=
    fun j hj => MapLaws.find_put_ne _ _ hj
  have hnone : ((s.backed core b).core core).setBacks = [] := by
    rw [State.backed, State.onParty_core, State.onCore_core_self]
  cases hev : b.ev with
  | none =>
    rw [hev] at hexec
    exact ⟨_, hexec, rfl, rfl, hnone, hothers, hback, fun e he => nomatch he⟩
  | some e =>
    rw [hev] at hexec
    dsimp only at hexec
    generalize hv : ((s.backed core b).onCore e.core fun c => { c with evs := c.evs ++ [e] }) = v at hexec
    have hside : v.mem = s.mem ∧ v.crews = s.crews ∧ v.parties = (s.backed core b).parties ∧ v.late = s.late := by
      rw [← hv]
      exact ⟨rfl, rfl, rfl, rfl⟩
    obtain ⟨hmem, hcrews, hparties, hlate⟩ := hside
    have hbacked : (v.core core).setBacks = [] := by
      rw [← hv]
      by_cases he : core = e.core
      · rw [he, State.onCore_core_self, ← he]
        exact hnone
      · rw [State.onCore_core_ne _ _ he]
        exact hnone
    have hevs : e ∈ (v.core e.core).evs := by
      rw [← hv, State.onCore_core_self]
      exact List.mem_append_right _ (List.mem_singleton.mpr rfl)
    refine ⟨_, hexec, (State.pushLate_mem _ _).trans hmem, (State.pushLate_crews _ _).trans hcrews, ?_, ?_, ?_, ?_⟩
    · rw [State.pushLate_core]
      exact hbacked
    · rw [State.pushLate_parties, hparties]
      exact hothers
    · rw [State.pushLate_party, State.party, hparties]
      exact hback
    · intro e' he'
      obtain rfl := Option.some.inj he'
      refine ⟨?_, ?_⟩
      · rw [State.pushLate_core]
        exact hevs
      · rw [EndsWith, State.pushLate_late, hlate]

/-! ## Event records (R220) -/

theorem eventRecordPost_clause (s : State) (core : Nat) (e : Engine) (r : EvRec) (p : Party) (x : CQueue) (hevs : (s.core core).evs = [r])
    (heng : r.eng = e) (hp : Map.find? s.parties r.party = some p) (hx : Map.find? p.queues r.q = some x) (hevent : x.event = true)
    (hfirst : ∀ c ∈ s.cores, ∀ y ∈ c.2.evs, y.before r = false) :
    (x.items.length < x.depth → ∃ t, exec (.eventRecordPost core e) s = .next t ∧ t.mem = s.mem ∧ t.crews = s.crews ∧
      (t.core core).evs = [] ∧ Instr.clusterQueueUpdate r.party r.q ∈ t.late ∧
      Map.find? (t.party r.party).queues r.q = some { x with items := x.items ++ [⟨r.item, [(dieOfCore r.core, r.stamp)]⟩] }) ∧
    (x.depth ≤ x.items.length → ∃ t, exec (.eventRecordPost core e) s = .next t ∧ t = s) := by
  have hnone : (s.cores.any fun c => c.2.evs.any fun y => y.before r) = false := by
    simp only [List.any_eq_false]
    intro c hc
    simp only [Bool.not_eq_true, List.any_eq_false]
    intro y hy
    simp [hfirst c hc y hy]
  have hpost : s.postable e core = if x.items.length < x.depth then some r else none := by
    unfold State.postable
    rw [hevs, List.find?_cons, heng, beq_self_eq_true, hnone, hp]
    dsimp only
    rw [hx]
    dsimp only
    rw [hevent]
    by_cases hroom : x.items.length < x.depth <;> simp [hroom]
  simp only [exec, execEventRecordPost, hpost]
  refine ⟨fun hroom => ?_, fun hfull => ⟨s, ?_, rfl⟩⟩
  · rw [if_pos hroom]
    dsimp only
    rw [State.onCore_parties, hp]
    dsimp only
    rw [hx]
    dsimp only
    rw [if_pos hevent]
    generalize hv : ((s.onCore core fun c => { c with evs := c.evs.erase r }).setQueue r.party r.q
      { x with items := x.items ++ [⟨r.item, [(dieOfCore r.core, r.stamp)]⟩] }) = v
    have hnoevs : (v.core core).evs = [] := by
      rw [← hv, State.setQueue, State.onParty_core, State.onCore_core_self, hevs]
      simp
    have hqueue : Map.find? (v.party r.party).queues r.q = some { x with items := x.items ++ [⟨r.item, [(dieOfCore r.core, r.stamp)]⟩] } := by
      rw [← hv]
      exact setQueue_found _ _ _ _
    have hside : v.mem = s.mem ∧ v.crews = s.crews := by
      rw [← hv]
      exact ⟨rfl, rfl⟩
    generalize hw : ({ v with late := v.evWaits r ++ v.late } : State) = w
    have hww : w.mem = v.mem ∧ w.crews = v.crews ∧ w.cores = v.cores ∧ w.parties = v.parties := by
      rw [← hw]
      exact ⟨rfl, rfl, rfl, rfl⟩
    obtain ⟨hmem, hcrews, hcores, hparties⟩ := hww
    refine ⟨_, rfl, ?_, ?_, ?_, ?_, ?_⟩
    · rw [State.pushLate_mem, hmem, hside.1]
    · rw [State.pushLate_crews, hcrews, hside.2]
    · rw [State.pushLate_core, State.core, hcores]
      exact hnoevs
    · rw [State.pushLate_late]
      split
      · next h => exact List.contains_iff_mem.mp h
      · exact List.mem_append_right _ (List.mem_singleton.mpr rfl)
    · rw [State.pushLate_party, State.party, hparties]
      exact hqueue
  · rw [if_neg (by omega)]

/-! ## Batches and the accumulator's transfers (R210, R211, R213) -/

theorem wakeIf_eq (s : State) (k : Nat) (p : Wait → Bool) :
    s.wakeIf k p = if (s.crew k).waitsOn p then s.onCrew k fun c => c.wake s.clk else s := by
  unfold State.wakeIf Crew.waitsOn
  cases (s.crew k).phase <;> rfl

theorem wakeIf_only (s : State) (k : Nat) (p : Wait → Bool) : OnlyCrew s (s.wakeIf k p) k := by
  rw [wakeIf_eq]
  split
  · exact s.onCrew_only k _
  · exact OnlyCrew.of_same rfl rfl

theorem wakeIf_crew (s : State) (k : Nat) (p : Wait → Bool) :
    (s.wakeIf k p).crew k = if (s.crew k).waitsOn p then (s.crew k).woken s.clk else s.crew k := by
  rw [wakeIf_eq]
  split
  · exact s.onCrew_crew_self k _
  · rfl

theorem wakeIf_stays {s : State} {k : Nat} {p : Wait → Bool} (h : (s.crew k).waitsOn p = false) : s.wakeIf k p = s := by
  rw [wakeIf_eq, h]
  rfl

theorem onCrewPast_parts (s : State) (k : Nat) (f : Crew → Crew) (h : s.hasCrew k = true) :
    OnlyCrew s (s.onCrewPast k f) k ∧ (s.onCrewPast k f).crew k = f (s.crew k) ∧ (s.onCrewPast k f).clk = s.clk := by
  unfold State.onCrewPast
  rw [if_neg (by rw [Option.isNone_iff_eq_none]; exact Option.isSome_iff_ne_none.mp h)]
  exact ⟨(s.onCrew_only k f).trans (OnlyCrew.of_same rfl rfl), s.onCrew_crew_self k f, rfl⟩

/-- What a crew's wait at its batches waits for. -/
def batchWait (c : Crew) : Wait → Bool := fun w => match w with
  | .batch n => !c.batchOpen n
  | .batchRoom => decide ((c.closedB.filter fun b => !b.retired).length < 16)
  | _ => false

theorem exec_batchRetire {s : State} {k : Nat} (hhas : s.hasCrew k = true) (hlive : isEnded k = false) :
    exec (.batchRetire k) s =
      let u := s.onCrewPast k fun c => { c with closedB := retireBatches c.closedB }
      .next (u.wakeIf k (batchWait (u.crew k))) := by
  change execBatchRetire k s = _
  unfold execBatchRetire
  rw [hlive, hhas]
  rfl

theorem batchRetire_clause (s : State) (k : Nat) (b : Batch) (hhas : s.hasCrew k = true) (hlive : isEnded k = false)
    (hclosed : (s.crew k).closedB = [b]) (hopen : b.retired = false) (hleft : b.left = 0) :
    ∃ t, exec (.batchRetire k) s = .next t ∧ OnlyCrew s t k ∧ (t.crew k).closedB = [{ b with retired := true }] ∧
      ((s.crew k).phase = .waiting (.batch b.num) ∨ (s.crew k).phase = .waiting .batchRoom →
        t.crew k = { (s.crew k).woken s.clk with closedB := [{ b with retired := true }] }) := by
  obtain ⟨honly, hcrew, hclk⟩ := onCrewPast_parts s k (fun c => { c with closedB := retireBatches c.closedB }) hhas
  have hretire : retireBatches [b] = [{ b with retired := true }] := by simp [retireBatches, hopen, hleft]
  have hexec := exec_batchRetire hhas hlive
  generalize s.onCrewPast k (fun c => { c with closedB := retireBatches c.closedB }) = u at honly hcrew hclk hexec
  rw [hclosed, hretire] at hcrew
  refine ⟨_, hexec, honly.trans (wakeIf_only u k _), ?_, fun hwait => ?_⟩
  · rw [wakeIf_crew, hcrew]
    split <;> rfl
  · have hphase : (u.crew k).phase = (s.crew k).phase := by rw [hcrew]
    have hnow : (u.crew k).closedB = [{ b with retired := true }] := by rw [hcrew]
    have hwaits : (u.crew k).waitsOn (batchWait (u.crew k)) = true := by
      unfold Crew.waitsOn batchWait
      obtain hw | hw := hwait
      all_goals
        rw [hphase, hw]
        dsimp only
      · simp [Crew.batchOpen, hnow]
      · rw [hnow]
        rfl
    rw [wakeIf_crew, if_pos hwaits, hcrew, hclk]
    rfl

theorem acldReadDone_clause (s : State) (k u : Nat) (h : (s.crew k).phase = .waiting (.plateRead u)) :
    (u ≤ s.clk → ∃ t, exec (.acldReadDone k) s = .next t ∧ OnlyCrew s t k ∧ t.crew k = (s.crew k).woken s.clk) ∧
    (s.clk < u → ∃ t, exec (.acldReadDone k) s = .next t ∧ t = s) := by
  refine ⟨fun hdone => ⟨_, rfl, wakeIf_only s k _, ?_⟩, fun hearly => ⟨_, rfl, wakeIf_stays ?_⟩⟩
  · rw [wakeIf_crew, if_pos (by simp [Crew.waitsOn, h, hdone])]
  · simp [Crew.waitsOn, h, hearly]

theorem acstWritesDone_clause (s : State) (k : Nat) (h : (s.crew k).phase = .waiting .plateWrite) :
    ((∀ x ∈ (s.core (coreOfKey k)).array, x.crew ≠ k) →
      ∃ t, exec (.acstWritesDone k) s = .next t ∧ OnlyCrew s t k ∧ t.crew k = (s.crew k).woken s.clk) ∧
    ((∃ x ∈ (s.core (coreOfKey k)).array, x.crew = k) → ∃ t, exec (.acstWritesDone k) s = .next t ∧ t = s) := by
  have hpending : s.arrayPending k = true ↔ ∃ x ∈ (s.core (coreOfKey k)).array, x.crew = k := by simp [State.arrayPending]
  refine ⟨fun hnone => ⟨s.wakeIf k (· == .plateWrite), congrArg Host.Outcome.next (if_neg ?_), wakeIf_only s k _, ?_⟩,
    fun hsome => ⟨s, congrArg Host.Outcome.next (if_pos (hpending.mpr hsome)), rfl⟩⟩
  · intro hp
    obtain ⟨x, hx, hk⟩ := hpending.mp hp
    exact hnone x hx hk
  · rw [wakeIf_crew, if_pos (by simp [Crew.waitsOn, h])]

/-! ## Collectives that arrive (R225) -/

theorem collComplete_clause (s : State) (core : Nat) (c : EngCmd) (hq : (s.core core).collQ = [c]) (hgo : c.stopped = false)
    (hfix : c.at_ + (s.ctx c.ctx).fix.toNat ≤ s.clk) :
    let n := s.phys c.ctx 4096 c.group
    let g : CollGroup := Map.get {} s.groups n
    g.ctx.toNat = c.ctx → s.inShare 4096 c.group = true → c.rank < g.members.toNat → (∀ a ∈ g.arrivals, a.rank ≠ c.rank) →
    ∃ t, exec (.engineCommandComplete core .coll) s = .next t ∧ t.mem = s.mem ∧ t.crews = s.crews ∧ (t.core core).collQ = [] ∧
      Map.find? t.groups n = some { g with arrivals := g.arrivals ++ [⟨core, c.rank, c⟩] } ∧
      (g.arrivals.length + 1 = g.members.toNat → Instr.collectiveCombine n ∈ t.agenda) := by
  intro n g hctx hshare hrank hnew
  have hwaits : s.collWaits c = false := by
    unfold State.collWaits
    rw [List.any_eq_false]
    intro a ha
    simp [hnew a ha]
  have hmembers : g.members ≠ 0 := fun h0 => by
    rw [h0] at hrank
    exact absurd hrank (by simp)
  generalize hu : (s.onCore core fun x => { x with collQ := x.collQ.erase c }) = u
  have hcoll : (u.core core).collQ = [] := by
    rw [← hu, State.onCore_core_self, hq]
    simp
  have hside : u.mem = s.mem ∧ u.crews = s.crews ∧ u.groups = s.groups ∧ u.groupOf c = n ∧ u.inShare 4096 c.group = true := by
    rw [← hu]
    exact ⟨rfl, rfl, rfl, rfl, hshare⟩
  obtain ⟨hmem, hcrews, hgroups, hgroup, hushare⟩ := hside
  have hexec : exec (.engineCommandComplete core .coll) s = .next (u.collArrive core c) := by
    simp only [exec, execEngineCommandComplete]
    rw [hq, List.find?_cons, hgo, hwaits]
    simp only [Bool.not_false, Bool.and_self]
    rw [if_neg (by simpa [State.fixOf] using hfix), ← hu]
  have hok : ¬(g.members = 0 ∨ g.ctx.toNat ≠ c.ctx ∨ u.inShare 4096 c.group = false ∨ g.members.toNat ≤ c.rank ∨
      g.arrivals.any (·.rank == c.rank) = true) := by
    rintro (h0 | h1 | h2 | h3 | h4)
    · exact hmembers h0
    · exact h1 hctx
    · exact absurd h2 (by simp [hushare])
    · omega
    · obtain ⟨a, ha, har⟩ := List.any_eq_true.mp h4
      exact hnew a ha (by simpa using har)
  have harrive : u.collArrive core c =
      let v : State := { u with groups := Map.put s.groups n { g with arrivals := g.arrivals ++ [⟨core, c.rank, c⟩] } }
      if (g.arrivals ++ [(⟨core, c.rank, c⟩ : Arrival)]).length = g.members.toNat then v.push (.collectiveCombine n) else v := by
    unfold State.collArrive
    rw [hgroup, hgroups]
    exact if_neg hok
  refine ⟨_, hexec, ?_, ?_, ?_, ?_, fun hfull => ?_⟩
  all_goals rw [harrive]; dsimp only
  · split <;> exact hmem
  · split <;> exact hcrews
  · split <;> exact hcoll
  · split <;> exact MapLaws.find_put_self _ _ _
  · rw [if_pos (by simpa using hfull)]
    exact List.mem_append_right _ (List.mem_singleton.mpr rfl)

end Sys2Proof.Machine
end

section
/-! PROOFS. The homes of boards (R242 to R244): posts, resets, and the slot records that they write. -/

namespace Sys2Proof.Machine

/-! ## The bytes of a home write do not depend on the clocks that it carries (R65) -/

/-- A state with other clocks of releases at its lines. -/
def State.withRel (s : State) (r : Map Clocks) : State := { s with relLines := r }

theorem foldl_withRel {α : Type} {f : State → α → State} (hf : ∀ s r x, f (s.withRel r) x = (f s x).withRel r) (l : List α) (s : State)
    (r : Map Clocks) : l.foldl f (s.withRel r) = (l.foldl f s).withRel r := by
  induction l generalizing s with
  | nil => rfl
  | cons x xs ih =>
    rw [List.foldl_cons, List.foldl_cons, hf]
    exact ih _

section
variable (s : State) (r : Map Clocks)

theorem keepFor_withRel (loc d : Nat) : (s.withRel r).keepFor loc d = (s.keepFor loc d).withRel r := by
  unfold State.keepFor State.withRel
  dsimp only
  split
  · rfl
  · split <;> rfl

theorem keepParcel_withRel (loc : Nat) : (s.withRel r).keepParcel loc = (s.keepParcel loc).withRel r :=
  foldl_withRel (fun s r d => keepFor_withRel s r loc d) _ s r

theorem pass_withRel (port line f l dst : Nat) : (s.withRel r).pass port line f l dst = (s.pass port line f l dst).withRel r := by
  have hdrop : (s.withRel r).dropOffs dst line f l = (s.dropOffs dst line f l).withRel r := rfl
  unfold State.pass
  rw [hdrop]
  generalize s.dropOffs dst line f l = u
  unfold State.withRel
  dsimp only
  split <;> rfl

theorem lose_withRel (a line f l : Nat) (by_ : Option Nat) : (s.withRel r).lose a line f l by_ = (s.lose a line f l by_).withRel r := by
  unfold State.lose
  dsimp only
  split <;> rfl

theorem homeInval_withRel (line f l : Nat) (by_ : Option Nat) : (s.withRel r).homeInval line f l by_ = (s.homeInval line f l by_).withRel r := by
  refine foldl_withRel (fun s r d => ?_) _ s r
  have hclose : (if d.owner.isSome then ((s.withRel r).sendClose d).pass (portOf line d.owner) line d.f d.l 63 else s.withRel r) =
      (if d.owner.isSome then (s.sendClose d).pass (portOf line d.owner) line d.f d.l 63 else s).withRel r := by
    split
    · exact pass_withRel (s.sendClose d) r _ _ _ _ _
    · rfl
  dsimp only
  rw [hclose]
  generalize (if d.owner.isSome then (s.sendClose d).pass (portOf line d.owner) line d.f d.l 63 else s) = u
  have hlose := foldl_withRel (f := fun u b => u.lose b line d.f d.l by_) (fun s r b => lose_withRel s r b line d.f d.l by_) d.holders (u.newSource line d.f d.l 63 []) r
  exact congrArg (fun v : State => v.setDir line d.f d.l none) hlose

end

/-- The spans that a home write takes from their holders. -/
def State.takenHome (s : State) (cs : List Host.Cell) (by_ : Option Nat) : State :=
  (spansOf cs).foldl (fun s x => (s.keepParcel (128 * x.1)).homeInval x.1 x.2.1 x.2.2 by_) s

theorem takenHome_withRel (s : State) (r : Map Clocks) (cs : List Host.Cell) (by_ : Option Nat) :
    (s.withRel r).takenHome cs by_ = (s.takenHome cs by_).withRel r :=
  foldl_withRel (fun s r x => (congrArg (fun u : State => u.homeInval x.1 x.2.1 x.2.2 by_) (keepParcel_withRel s r (128 * x.1))).trans
    (homeInval_withRel _ r _ _ _ _)) _ s r

theorem homeBytes_mem (s : State) (cs : List Host.Cell) (by_ : Option Nat) (ch : Clocks) :
    (s.homeBytes cs by_ ch).mem = memPut (s.takenHome cs by_).mem cs := by
  obtain ⟨r, hr⟩ : ∃ r, s.carry ((spansOf cs).map (·.1)) ch = s.withRel r := by
    unfold State.carry
    split
    · exact ⟨s.relLines, rfl⟩
    · exact ⟨_, rfl⟩
  have hdrop : ∀ u : State, ((spansOf cs).foldl (fun s x => s.dropWatchers (fun k => some k != by_) x.1 x.2.1 x.2.2) u).mem = u.mem :=
    fun u => foldl_mem (fun s x => State.dropWatchers_mem s _ _ _ _) _ u
  unfold State.homeBytes
  dsimp only
  rw [hr, hdrop]
  change memPut (((s.withRel r).takenHome cs by_).homeOpen _).mem cs = _
  rw [State.homeOpen_mem, takenHome_withRel]
  rfl

/-- The bytes that a home write leaves, whatever clocks and counter it carries. -/
theorem homeCells_clocks (s : State) (cs : List Host.Cell) (lctr lctr' by_ : Option Nat) (ch : Clocks) :
    (s.homeCells cs lctr by_ ch).mem = (s.homeCells cs lctr' by_).mem := by
  rw [homeCells_parts, homeCells_parts]
  exact (homeBytes_mem s _ by_ ch).trans (homeBytes_mem s _ by_ []).symm

/-- A write of the device's own leaves the bytes that it would leave without clocks. -/
theorem devWrite_clocks {s u : State} {ctx : Nat} {va : W64} {bs : List Byte} (hu : s.devWrite ctx va bs = some u) (ch : Clocks) :
    ∃ t, s.devWrite ctx va bs none ch = some t ∧ t.mem = u.mem := by
  have hheld : ∀ (cs : List Host.Cell) (ch : Clocks),
      (cs.foldl (fun (s : State) c => s.holdReq (.home c.1 [c.2] none ch)) s).mem = s.mem := fun cs ch =>
    foldl_mem (fun s c => show (s.holdReq (.home c.1 [c.2] none ch)).mem = s.mem from rfl) cs s
  unfold State.devWrite at hu ⊢
  dsimp only at hu ⊢
  split at hu
  · cases hu
  · next hok =>
    rw [if_neg hok]
    split at hu
    · next hflip =>
      rw [if_pos hflip]
      exact ⟨_, rfl, by rw [← Option.some.inj hu, hheld, hheld]⟩
    · next hflip =>
      rw [if_neg hflip]
      exact ⟨_, rfl, by rw [← Option.some.inj hu]; exact homeCells_clocks s _ none none none ch⟩

/-! ## What a slot record's write changes beside memory -/

/-- What the writes of slot records leave of a state beside memory: every crew but for its monitor, the boards and the clk. -/
structure SlotSide (s t : State) : Prop where
  crews : ∀ k, { t.crew k with mon := (s.crew k).mon } = s.crew k
  sheets : t.sheets = s.sheets
  clk : t.clk = s.clk

theorem SlotSide.refl (s : State) : SlotSide s s := ⟨fun _ => rfl, rfl, rfl⟩

theorem SlotSide.trans {s t u : State} (h : SlotSide s t) (h' : SlotSide t u) : SlotSide s u := by
  refine ⟨fun k => ?_, h'.sheets.trans h.sheets, h'.clk.trans h.clk⟩
  have hmid := h'.crews k
  exact (congrArg (fun c : Crew => { c with mon := (s.crew k).mon }) hmid).trans (h.crews k)

theorem MemSide.slotSide {s t : State} (h : MemSide s t) : SlotSide s t :=
  ⟨fun k => by rw [State.crew, h.crews]; rfl, (congrArg State.sheets h.rest :), h.clk⟩

theorem trigger_slotSide (s : State) (by_ : Option Nat) (cs : List Host.Cell) : SlotSide s (s.trigger by_ cs) := by
  refine ⟨fun k => ?_, rfl, rfl⟩
  unfold State.crew Map.get
  rw [trigger_find]
  cases Map.find? s.crews k with
  | none => rfl
  | some c =>
    dsimp only [Option.map_some, Option.getD_some]
    unfold Crew.triggered
    split <;> rfl

theorem devWrite_slotSide {s t : State} {ctx : Nat} {va : W64} {bs : List Byte} {lctr : Option Nat} {ch : Clocks}
    (h : s.devWrite ctx va bs lctr ch = some t) : SlotSide s t := by
  obtain ⟨u, cs, hu, ht⟩ := devWrite_only h
  exact (hu.slotSide.trans (trigger_slotSide u none cs)).trans ht.slotSide

theorem writeSlot_slotSide (s : State) (h : Nat) (x : SheetHome) (slot : Nat) (level : W32) (gen : BitVec 16) (payload : W64) :
    SlotSide s (s.writeSlot h x slot level gen payload) := by
  unfold State.writeSlot
  dsimp only
  split
  · next t ht => exact devWrite_slotSide ht
  · exact (MemSide.report s _).slotSide

/-! ## A home's request (R242) -/

theorem serveHome_one {s : State} {h : Nat} {x : SheetHome} {r : SheetReq} (hx : Map.get {} s.sheets h = x) (hreqs : x.reqs = [r])
    (hwait : (s.crew r.crew).phase = .waiting .sheet) :
    s.serveHome h =
      let s : State := { s with sheets := Map.put s.sheets h { x with reqs := [] } }
      match r.op with
      | .post slot epoch payload kn sd => s.homePost h r.crew slot epoch payload kn sd
      | .reset sd => s.homeReset h r.crew sd := by
  unfold State.serveHome
  rw [hx]
  dsimp only
  rw [hreqs]
  dsimp only [sortBy, insBy]
  have hphase : ({ s with sheets := Map.put s.sheets h { x with reqs := [] } } : State).crew r.crew = s.crew r.crew := rfl
  rw [hphase, hwait] <;> cases r.op <;> rfl

theorem sheetHomePost_one {s u : State} {h : Nat} (hserve : s.serveHome h = u) (hdone : (Map.get {} u.sheets h).reqs = []) :
    exec (.sheetHomePost h) s = .next u := by
  simp only [exec, execSheetHomePost, hserve, hdone]
  rfl

/-- A board after a post to one of its slots. -/
def SheetHome.posted_ (x : SheetHome) (slot : Nat) (ch : Clocks) : SheetHome :=
  { x with level := x.level + 1, posted := x.posted ||| (1 <<< slot), stamps := joinStamps x.stamps ch }

theorem homePost_good {s : State} {h k slot kn : Nat} {epoch : W32} {payload : W64} {sd : SReg} {x : SheetHome} (hx : Map.get {} s.sheets h = x)
    (hen : x.en = true) (hctx : x.ctx.toNat = (s.crew k).ctx) (hslot : slot ≤ x.slots.toNat) (hepoch : epoch = x.epoch)
    (hlevel : x.level ≠ 0xFFFFFFFF) :
    s.homePost h k slot epoch payload kn sd =
      let y := x.posted_ slot (s.crew k).relTs
      let u := (({ s with sheets := Map.put s.sheets h y }.writeSlot h y slot y.level (s.slotGen x slot + 1) payload).always (s.crew k).party 4)
      ((u.acquireBoard k y).onCrew k fun c => (c.setK kn y.view).setS sd (y.level.zeroExtend 64)).wakeNext k id := by
  unfold State.homePost
  rw [hx]
  dsimp only
  rw [if_neg (by simp [hen, hctx]), if_neg (by omega), if_neg (by simp [hepoch]), if_neg hlevel]
  rfl

theorem slotGen_congr {s t : State} (hm : t.mem = s.mem) (hc : t.ctxs = s.ctxs) (hmode : t.mode = s.mode) (hcxl : t.cxl = s.cxl)
    (hhost : t.host = s.host) {x y : SheetHome} (hctx : y.ctx = x.ctx) (himage : y.image = x.image) (slot : Nat) :
    t.slotGen y slot = s.slotGen x slot := by
  have hl : ∀ c pa, t.locOf c pa = s.locOf c pa := fun c pa => by
    simp only [State.locOf, State.homePair, State.ctx, hcxl, hhost, hc, hmode]
  unfold State.slotGen
  rw [hctx, himage, State.xlate_congr hm hc hmode hcxl hhost]
  simp only [hl, hm]

/-- What a home that acquires a board for a crew leaves of the crews. -/
theorem acquireBoard_crew (s : State) (k : Nat) (x : SheetHome) :
    ∃ ts, s.acquireBoard k x = (s.onCore (coreOfKey k) fun c => { c with ts := ts }).putCrew k
      { s.crew k with seen := joinStamps (s.crew k).seen x.stamps } :=
  ⟨_, acquireKept_eq s k (by decide) x.stamps⟩

/-- A crew whose post its board has taken goes on with the board's level and its view. -/
def Crew.toldPost (c : Crew) (y : SheetHome) (kn : Nat) (sd : SReg) : Crew := (c.setK kn y.view).setS sd (y.level.zeroExtend 64)

theorem toldPost_rest (c : Crew) (y : SheetHome) (kn : Nat) (sd : SReg) :
    c.toldPost y kn sd = { c with s := (c.toldPost y kn sd).s, k := (c.toldPost y kn sd).k } := by
  unfold Crew.toldPost
  rw [Crew.setS_rest]
  rfl

/-- What a taken post leaves: its slot's record in memory, the board, and its crew at the next word. -/
theorem homePost_parts {s : State} {h k slot kn : Nat} {epoch : W32} {payload : W64} {sd : SReg} {x : SheetHome} (hx : Map.get {} s.sheets h = x)
    (hen : x.en = true) (hctx : x.ctx.toNat = (s.crew k).ctx) (hslot : slot ≤ x.slots.toNat) (hepoch : epoch = x.epoch)
    (hlevel : x.level ≠ 0xFFFFFFFF) :
    let y := x.posted_ slot (s.crew k).relTs
    let u := { s with sheets := Map.put s.sheets h y }.writeSlot h y slot y.level (s.slotGen x slot + 1) payload
    let t := s.homePost h k slot epoch payload kn sd
    t.mem = u.mem ∧ t.sheets = Map.put s.sheets h y ∧ (∀ j, j ≠ k → t.crew j = u.crew j) ∧
      t.crew k = { (({ u.crew k with seen := joinStamps (u.crew k).seen y.stamps } : Crew).toldPost y kn sd).next.wake s.clk with
        committed := s.clk } := by
  intro y u t
  have hside : SlotSide { s with sheets := Map.put s.sheets h y } u := writeSlot_slotSide _ _ _ _ _ _ _
  have ht : t = (((u.always (s.crew k).party 4).acquireBoard k y).onCrew k fun c => c.toldPost y kn sd).wakeNext k id :=
    homePost_good hx hen hctx hslot hepoch hlevel
  obtain ⟨ts, hacq⟩ := acquireBoard_crew (u.always (s.crew k).party 4) k y
  rw [hacq] at ht
  clear_value u t
  subst ht
  generalize hv : ((((u.always (s.crew k).party 4).onCore (coreOfKey k) fun c => { c with ts := ts }).putCrew k
    { (u.always (s.crew k).party 4).crew k with seen := joinStamps ((u.always (s.crew k).party 4).crew k).seen y.stamps }).onCrew k fun c =>
      c.toldPost y kn sd) = v
  have hcrew : v.crew k = ({ u.crew k with seen := joinStamps (u.crew k).seen y.stamps } : Crew).toldPost y kn sd := by
    rw [← hv, State.onCrew_crew_self, State.putCrew_crew_self]
    rfl
  have hvside : v.mem = u.mem ∧ v.sheets = u.sheets ∧ v.clk = u.clk := by
    rw [← hv]
    exact ⟨rfl, rfl, rfl⟩
  have hothers : ∀ j, j ≠ k → v.crew j = u.crew j := fun j hj => by
    rw [← hv, State.onCrew_eq, State.putCrew_crew_ne _ _ hj, State.putCrew_crew_ne _ _ hj]
    rfl
  obtain ⟨hmem, hsheets, hclk⟩ := hvside
  refine ⟨hmem, hsheets.trans hside.sheets, fun j hj => ?_, ?_⟩
  · exact (congrArg (fun o : Option Crew => o.getD {}) ((State.wakeNext_only v k id).others j hj)).trans (hothers j hj)
  · rw [State.wakeNext_crew, hcrew, hclk, hside.clk]
    rfl

theorem sheetPost_clause (s : State) (h : Nat) (x : SheetHome) (k slot : Nat) (epoch : W32) (payload : W64) (kn : Nat) (sd : SReg)
    (hx : Map.get {} s.sheets h = x) (hreqs : x.reqs = [⟨k, .post slot epoch payload kn sd⟩]) (hwait : (s.crew k).phase = .waiting .sheet)
    (hen : x.en = true) (hctx : x.ctx.toNat = (s.crew k).ctx) (hslot : slot ≤ x.slots.toNat) (hepoch : epoch = x.epoch)
    (hlevel : x.level ≠ 0xFFFFFFFF) :
    ∃ t y, exec (.sheetHomePost h) s = .next t ∧ Map.find? t.sheets h = some y ∧
      { y with stamps := x.stamps } = { x with
        level := x.level + 1, posted := x.posted ||| (1 <<< slot), reqs := [] } ∧
      (∀ j, j ≠ k → { t.crew j with mon := (s.crew j).mon } = s.crew j) ∧
      t.crew k = { (s.crew k).goesOn s.clk with
        s := (t.crew k).s, k := (t.crew k).k, mon := (t.crew k).mon, seen := joinStamps (s.crew k).seen y.stamps } ∧
      (∀ r, r ≠ sd → (t.crew k).sv r = (s.crew k).sv r) ∧ (t.crew k).sv sd = (if sd = 0 then 0 else (x.level + 1).setWidth 64) ∧
      (∀ j, j ≠ kn → (t.crew k).kv j = (s.crew k).kv j) ∧
      (t.crew k).kv kn = y.posted &&& BitVec.ofNat 1024 (2 ^ (x.slots.toNat + 1) - 1) ∧
      ∀ s1, { s with sheets := t.sheets }.devWrite x.ctx.toNat (BitVec.ofNat 64 (x.image.toNat * 128 + 16 * slot))
        (bytesOf 16 ((x.level + 1).toNat * 2 ^ 96 + (s.slotGen x slot + 1).toNat * 2 ^ 64 + payload.toNat)) = some s1 →
        t.mem = s1.mem := by
  generalize hx0 : ({ x with reqs := [] } : SheetHome) = x0
  generalize hs0 : ({ s with sheets := Map.put s.sheets h x0 } : State) = s0
  have hcrew0 : ∀ j, s0.crew j = s.crew j := fun j => by rw [← hs0]; rfl
  have hserve : s.serveHome h = s0.homePost h k slot epoch payload kn sd := by
    rw [serveHome_one hx hreqs hwait, hx0]
    dsimp only
    rw [hs0]
  have hget : Map.get {} s0.sheets h = x0 := by
    rw [← hs0]
    exact MapLaws.get_put_self _ _ _ _
  have hgen : s0.slotGen x0 slot = s.slotGen x slot := by
    rw [← hs0, ← hx0]
    exact slotGen_congr rfl rfl rfl rfl rfl rfl rfl slot
  obtain ⟨hmem, hsheets, hothers, hcrew⟩ := homePost_parts (s := s0) (h := h) (k := k) (slot := slot) (kn := kn) (epoch := epoch)
    (payload := payload) (sd := sd) hget (by rw [← hx0]; exact hen) (by rw [hcrew0, ← hx0]; exact hctx) (by rw [← hx0]; exact hslot)
    (by rw [← hx0]; exact hepoch) (by rw [← hx0]; exact hlevel)
  rw [← hserve] at hmem hsheets hothers hcrew
  generalize hy : x0.posted_ slot (s0.crew k).relTs = y at hmem hsheets hothers hcrew
  rw [hgen] at hmem hothers hcrew
  generalize hu : ({ s0 with sheets := Map.put s0.sheets h y } : State).writeSlot h y slot y.level (s.slotGen x slot + 1) payload = u
    at hmem hothers hcrew
  have hkept : ∀ j, { u.crew j with mon := (s.crew j).mon } = s.crew j := fun j => by
    have hwrite := (writeSlot_slotSide { s0 with sheets := Map.put s0.sheets h y } h y slot y.level (s.slotGen x slot + 1) payload).crews j
    rw [hu] at hwrite
    have hcrew : ({ s0 with sheets := Map.put s0.sheets h y } : State).crew j = s.crew j := hcrew0 j
    rwa [hcrew] at hwrite
  have hmon : u.crew k = { s.crew k with mon := (u.crew k).mon } := by rw [← hkept k]
  have hclk : s0.clk = s.clk := by rw [← hs0]
  have hyx : { y with stamps := x.stamps } = { x with level := x.level + 1, posted := x.posted ||| (1 <<< slot), reqs := [] } := by
    rw [← hy, ← hx0]
    rfl
  have hslots : y.slots = x.slots := (congrArg SheetHome.slots hyx :)
  have hlev : y.level = x.level + 1 := (congrArg SheetHome.level hyx :)
  have hreqs' : y.reqs = [] := (congrArg SheetHome.reqs hyx :)
  have hyctx : y.ctx = x.ctx := (congrArg SheetHome.ctx hyx :)
  have himage : y.image = x.image := (congrArg SheetHome.image hyx :)
  have hexec := sheetHomePost_one (s := s) (h := h) rfl (by rw [hsheets, MapLaws.get_put_self]; exact hreqs')
  generalize s.serveHome h = t at hexec hmem hsheets hothers hcrew
  rw [hmon, hclk] at hcrew
  refine ⟨t, y, hexec, ?_, hyx, fun j hj => ?_, ?_, fun r hr => ?_, ?_, fun j hj => ?_, ?_, fun s1 hs1 => ?_⟩
  · rw [hsheets]
    exact MapLaws.find_put_self _ _ _
  · rw [hothers j hj]
    exact hkept j
  · rw [hcrew, toldPost_rest]
    rfl
  · rw [hcrew]
    exact Crew.sv_setS_ne _ _ hr
  · rw [hcrew, ← hlev]
    exact Crew.sv_setS_self _ _ _
  · rw [hcrew]
    exact (kv_setS _ sd _ j).trans (kv_setK_ne _ _ hj)
  · rw [hcrew, ← hslots]
    exact (kv_setS _ sd _ kn).trans (kv_setK_self _ _ _)
  · have hstate : ({ s with sheets := t.sheets } : State) = { s0 with sheets := Map.put s0.sheets h y } := by
      rw [hsheets, ← hs0]
    rw [hstate, ← hyctx, ← himage, ← hlev] at hs1
    obtain ⟨s2, hs2, hmem2⟩ := devWrite_clocks hs1 y.stamps
    rw [hmem, ← hu]
    unfold State.writeSlot slotBytes
    dsimp only
    rw [hs2]
    exact hmem2

/-- A board after its reset. -/
def SheetHome.restarted (x : SheetHome) : SheetHome := { x with level := 0, posted := 0, epoch := x.epoch + 1 }

theorem homeReset_parts {s : State} {h k : Nat} {sd : SReg} {x : SheetHome} (hx : Map.get {} s.sheets h = x) (hen : x.en = true)
    (hctx : x.ctx.toNat = (s.crew k).ctx) :
    ∃ u, SlotSide s u ∧ s.homeReset h k sd = { u with sheets := Map.put u.sheets h x.restarted }.wakeNext k fun c =>
      c.setS sd (x.restarted.epoch.zeroExtend 64) := by
  refine ⟨(List.range (x.slots.toNat + 1)).foldl (fun s i => s.writeSlot h { x with stamps := [] } i 0 0 0) s,
    foldl_keeps (P := SlotSide s) (fun t i ht => ht.trans (writeSlot_slotSide t _ _ _ _ _ _)) _ (SlotSide.refl s), ?_⟩
  unfold State.homeReset
  rw [hx]
  exact if_neg (by simp [hen, hctx])

theorem sheetReset_clause (s : State) (h : Nat) (x : SheetHome) (k : Nat) (sd : SReg) (hx : Map.get {} s.sheets h = x)
    (hreqs : x.reqs = [⟨k, .reset sd⟩]) (hwait : (s.crew k).phase = .waiting .sheet) (hen : x.en = true)
    (hctx : x.ctx.toNat = (s.crew k).ctx) :
    ∃ t, exec (.sheetHomePost h) s = .next t ∧
      Map.get {} t.sheets h = { x with level := 0, posted := 0, epoch := x.epoch + 1, reqs := [] } ∧
      (∀ j, j ≠ h → Map.find? t.sheets j = Map.find? s.sheets j) ∧
      (∀ j, j ≠ k → { t.crew j with mon := (s.crew j).mon } = s.crew j) ∧
      t.crew k = { (s.crew k).goesOn s.clk with s := (t.crew k).s, mon := (t.crew k).mon } ∧
      (∀ r, r ≠ sd → (t.crew k).sv r = (s.crew k).sv r) ∧ (t.crew k).sv sd = if sd = 0 then 0 else (x.epoch + 1).setWidth 64 := by
  generalize hx0 : ({ x with reqs := [] } : SheetHome) = x0
  generalize hs0 : ({ s with sheets := Map.put s.sheets h x0 } : State) = s0
  have hcrew0 : ∀ j, s0.crew j = s.crew j := fun j => by rw [← hs0]; rfl
  have hserve : s.serveHome h = s0.homeReset h k sd := by
    rw [serveHome_one hx hreqs hwait, hx0]
    dsimp only
    rw [hs0]
  have hget : Map.get {} s0.sheets h = x0 := by
    rw [← hs0]
    exact MapLaws.get_put_self _ _ _ _
  obtain ⟨u, hside, hreset⟩ := homeReset_parts (s := s0) (h := h) (k := k) (sd := sd) hget (by rw [← hx0]; exact hen)
    (by rw [hcrew0, ← hx0]; exact hctx)
  rw [← hserve] at hreset
  have hkept : ∀ j, { u.crew j with mon := (s.crew j).mon } = s.crew j := fun j => by
    have hcrews := hside.crews j
    rwa [hcrew0] at hcrews
  have hmon : u.crew k = { s.crew k with mon := (u.crew k).mon } := by rw [← hkept k]
  have hclk : u.clk = s.clk := hside.clk.trans (by rw [← hs0])
  have hsheets : (s.serveHome h).sheets = Map.put s.sheets h x0.restarted := by
    rw [hreset]
    change Map.put u.sheets h x0.restarted = _
    rw [hside.sheets, ← hs0]
    exact MapLaws.put_put _ _ _ _
  have hcrew : (s.serveHome h).crew k = { ((u.crew k).setS sd (x0.restarted.epoch.zeroExtend 64)).next.wake s.clk with committed := s.clk } := by
    rw [hreset, State.wakeNext_crew, ← hclk]
    rfl
  have hothers : ∀ j, j ≠ k → (s.serveHome h).crew j = u.crew j := fun j hj => by
    rw [hreset]
    exact congrArg (fun o : Option Crew => o.getD {}) ((State.wakeNext_only _ k _).others j hj)
  have hepoch : x0.restarted.epoch = x.epoch + 1 := by
    rw [← hx0]
    rfl
  have hexec := sheetHomePost_one (s := s) (h := h) rfl (by rw [hsheets, MapLaws.get_put_self, ← hx0]; rfl)
  generalize s.serveHome h = t at hexec hsheets hcrew hothers
  rw [hmon, hepoch] at hcrew
  refine ⟨t, hexec, ?_, fun j hj => ?_, fun j hj => ?_, ?_, fun r hr => ?_, ?_⟩
  · rw [hsheets, MapLaws.get_put_self, ← hx0]
    rfl
  · rw [hsheets]
    exact MapLaws.find_put_ne _ _ hj
  · rw [hothers j hj]
    exact hkept j
  · rw [hcrew, Crew.setS_rest]
    rfl
  · rw [hcrew]
    exact Crew.sv_setS_ne _ _ hr
  · rw [hcrew]
    exact Crew.sv_setS_self _ _ _

end Sys2Proof.Machine
end

section
/-! PROOFS. The matrix array (R54, R207 to R213): when its commands are performed, and what they leave in its accumulators. -/

namespace Sys2Proof.Machine

/-! ## Elements written at once -/

theorem get_foldl_set {α : Type} [DecidableEq α] (d : α) (xs : List (Nat × α)) (m : Map α) (e : Nat) :
    Map.get d (xs.foldl (fun m x => Map.set d m x.1 x.2) m) e = match (xs.filter fun y => y.1 == e).getLast? with
      | some y => y.2
      | none => Map.get d m e := by
  induction xs generalizing m with
  | nil => rfl
  | cons x xs ih =>
    rw [List.foldl_cons, ih]
    by_cases hx : x.1 = e
    · rw [List.filter_cons_of_pos (by simp [hx]), List.getLast?_cons]
      cases (xs.filter fun y => y.1 == e).getLast? with
      | none =>
        rw [← hx]
        exact MapLaws.get_set_self d m x.1 x.2
      | some y => rfl
    · rw [List.filter_cons_of_neg (by simpa using hx), MapLaws.get_set_ne d m x.2 (Ne.symm hx)]

theorem get_foldl_set_other {α : Type} [DecidableEq α] (d : α) {xs : List (Nat × α)} (m : Map α) {e : Nat} (h : ∀ y ∈ xs, y.1 ≠ e) :
    Map.get d (xs.foldl (fun m x => Map.set d m x.1 x.2) m) e = Map.get d m e := by
  rw [get_foldl_set, List.filter_eq_nil_iff.mpr fun y hy => by simpa using h y hy]
  rfl

theorem get_foldl_set_value {α : Type} [DecidableEq α] (d : α) {xs : List (Nat × α)} (m : Map α) {e : Nat} {v : α} (hin : ∃ y ∈ xs, y.1 = e)
    (h : ∀ y ∈ xs, y.1 = e → y.2 = v) : Map.get d (xs.foldl (fun m x => Map.set d m x.1 x.2) m) e = v := by
  obtain ⟨y, hy, hye⟩ := hin
  have hmem : y ∈ xs.filter fun y => y.1 == e := List.mem_filter.mpr ⟨hy, by simpa using hye⟩
  rw [get_foldl_set, List.getLast?_eq_some_getLast (List.ne_nil_of_mem hmem)]
  obtain ⟨hlast, heq⟩ := List.mem_filter.mp (List.getLast_mem (List.ne_nil_of_mem hmem))
  exact h _ hlast (by simpa using heq)

/-! ## What a performed command leaves alone -/

theorem onCrewPast_sides (s : State) (k : Nat) (f : Crew → Crew) : (s.onCrewPast k f).cores = s.cores ∧ (s.onCrewPast k f).agenda = s.agenda := by
  unfold State.onCrewPast
  split <;> exact ⟨rfl, rfl⟩

theorem batchGot_sides (s : State) (k : Nat) (fl : Fl) (poison : Option (Nat × Nat)) :
    (s.batchGot k fl poison).mem = s.mem ∧ (s.batchGot k fl poison).cores = s.cores := by
  unfold State.batchGot
  split
  · exact ⟨State.onCrewPast_mem s k _, (onCrewPast_sides s k _).1⟩
  · split <;> exact ⟨rfl, rfl⟩

/-- The elements of a region. -/
def Region.holds (r : Region) (e : Nat) : Prop := ∃ i j, i < r.rows ∧ j < r.cols ∧ e = (r.row0 + i) * 256 + r.col0 + j

/-- A command that the array has performed: elements of its region are written, and its order stays. -/
structure Performed (s t : State) (core : Nat) (x : ArrCmd) (xs : List (Nat × W32)) : Prop where
  mem : t.mem = s.mem
  array : (t.core core).array = (s.core core).array
  until_ : (t.core core).arrayUntil = (s.core core).arrayUntil
  acc : (t.core core).acc = xs.foldl (fun m y => Map.set 0 m y.1 y.2) (s.core core).acc
  inside : ∀ y ∈ xs, x.reg.holds y.1

theorem Performed.nothing {s t : State} {core : Nat} {x : ArrCmd} (hm : t.mem = s.mem) (hc : t.cores = s.cores) : Performed s t core x [] := by
  have hcore : t.core core = s.core core := by rw [State.core, hc]; rfl
  exact ⟨hm, by rw [hcore], by rw [hcore], by rw [hcore]; rfl, fun y hy => nomatch hy⟩

/-- Elements put at once, with what their batch gets. -/
theorem putAcc_performed (s : State) (core : Nat) (x : ArrCmd) {xs : List (Nat × W32)} (set clr : List Nat) (fl : Fl) (poison : Option (Nat × Nat))
    (h : ∀ y ∈ xs, x.reg.holds y.1) :
    Performed s ((s.onCore core fun c => c.putAcc xs set clr).batchGot x.crew fl poison) core x xs := by
  obtain ⟨hmem, hcores⟩ := batchGot_sides (s.onCore core fun c => c.putAcc xs set clr) x.crew fl poison
  have hcore : ((s.onCore core fun c => c.putAcc xs set clr).batchGot x.crew fl poison).core core = (s.core core).putAcc xs set clr := by
    rw [State.core, hcores]
    exact State.onCore_core_self s core _
  exact ⟨hmem, by rw [hcore]; rfl, by rw [hcore]; rfl, by rw [hcore]; rfl, h⟩

/-- A plate written, with the flags that its crew gets. -/
theorem putPlate_performed (s : State) (core : Nat) (x : ArrCmd) (n : Nat) (cs : List Host.Cell) (bad : List Nat) (f : Crew → Crew) :
    Performed s (((s.onCore n fun c => c.putPlate cs bad).onCrewPast x.crew f).push (.acstWritesDone x.crew)) core x [] := by
  have hcores := (onCrewPast_sides (s.onCore n fun c => c.putPlate cs bad) x.crew f).1
  have hcore : (((s.onCore n fun c => c.putPlate cs bad).onCrewPast x.crew f).push (.acstWritesDone x.crew)).core core =
      (s.onCore n fun c => c.putPlate cs bad).core core := congrArg (fun m => Map.get ({} : Core) m core) hcores
  have hplate : ((s.onCore n fun c => c.putPlate cs bad).core core).array = (s.core core).array ∧
      ((s.onCore n fun c => c.putPlate cs bad).core core).arrayUntil = (s.core core).arrayUntil ∧
      ((s.onCore n fun c => c.putPlate cs bad).core core).acc = (s.core core).acc := by
    by_cases hn : core = n
    · rw [hn, State.onCore_core_self]
      exact ⟨rfl, rfl, rfl⟩
    · rw [State.onCore_core_ne _ _ hn]
      exact ⟨rfl, rfl, rfl⟩
  obtain ⟨harray, huntil, hacc⟩ := hplate
  exact ⟨State.onCrewPast_mem _ _ _, by rw [hcore, harray], by rw [hcore, huntil], by rw [hcore, hacc]; rfl, fun y hy => nomatch hy⟩

theorem elem_holds (r : Region) (col : Bool) {i y : Nat} (hi : i < (r.sides col).1) (hy : y < (r.sides col).2) : r.holds (r.elem col i y) := by
  unfold Region.sides at hi hy
  cases col with
  | true => exact ⟨y, i, hy, hi, rfl⟩
  | false => exact ⟨i, y, hi, hy, rfl⟩

/-- The elements that a command of the array writes, by its operation. -/
def State.written (s : State) (core : Nat) (x : ArrCmd) : List (Nat × W32) :=
  let r := x.reg
  match x.op with
  | .mma _ _ _ _ .partner => []
  | .mma ty a b k _ => ((List.range r.rows).flatMap fun i => (List.range r.cols).map fun j => (i, j)).map fun ij =>
      (r.elem false ij.1 ij.2, (accumulate ty k (((List.range r.rows).map (a.vec (s.core a.core).plate ty k)).getD ij.1 [])
        (((List.range r.cols).map (b.vec (s.core b.core).plate ty k)).getD ij.2 [])
        (Map.get 0 (s.core core).acc (r.elem false ij.1 ij.2), 0)).1)
  | .acld half col data _ _ =>
    (((List.range (r.sides col).1).flatMap fun i => (List.range (r.sides col).2).map fun y => r.elem col i y).zip
      ((data.map fun d => if half then floatToFloat fmt16 fmt32 .rn d.toNat else ⟨d.toNat, 0⟩).map fun v => BitVec.ofNat 32 v.bits))
  | .aczero => ((List.range r.rows).flatMap fun i => (List.range r.cols).map fun j => r.elem false i j).map fun e => (e, 0)
  | _ => []

theorem mem_grid {α : Type} {n m : Nat} {f : Nat → Nat → α} {e : α} :
    e ∈ ((List.range n).flatMap fun i => (List.range m).map fun j => f i j) ↔ ∃ i j, i < n ∧ j < m ∧ f i j = e := by
  simp only [List.mem_flatMap, List.mem_range, List.mem_map]
  constructor
  · rintro ⟨i, hi, j, hj, rfl⟩
    exact ⟨i, j, hi, hj, rfl⟩
  · rintro ⟨i, j, hi, hj, rfl⟩
    exact ⟨i, hi, j, hj, rfl⟩

/-- The elements that an `mma` writes, as pairs of the element and its value. -/
theorem written_mma {s : State} {core : Nat} {x : ArrCmd} {ty : Ty} {a b : MatOp} {k : Nat} {part : ArrPart} (hop : x.op = .mma ty a b k part)
    (hpart : part ≠ .partner) : s.written core x =
      ((List.range x.reg.rows).flatMap fun i => (List.range x.reg.cols).map fun j => (i, j)).map fun ij =>
        (x.reg.elem false ij.1 ij.2, (accumulate ty k (((List.range x.reg.rows).map (a.vec (s.core a.core).plate ty k)).getD ij.1 [])
          (((List.range x.reg.cols).map (b.vec (s.core b.core).plate ty k)).getD ij.2 [])
          (Map.get 0 (s.core core).acc (x.reg.elem false ij.1 ij.2), 0)).1) := by
  unfold State.written
  rw [hop]
  cases part with
  | partner => exact absurd rfl hpart
  | whole => rfl
  | own => rfl

theorem written_inside (s : State) (core : Nat) (x : ArrCmd) : ∀ y ∈ s.written core x, x.reg.holds y.1 := by
  intro y hy
  cases hop : x.op with
  | mma ty a b k part =>
    by_cases hpart : part = .partner
    · unfold State.written at hy
      rw [hop, hpart] at hy
      cases hy
    · rw [written_mma hop hpart] at hy
      obtain ⟨ij, hij, rfl⟩ := List.mem_map.mp hy
      obtain ⟨i, j, hi, hj, rfl⟩ := mem_grid.mp hij
      exact elem_holds x.reg false hi hj
  | acld half col data bad first =>
    unfold State.written at hy
    rw [hop] at hy
    obtain ⟨i, j, hi, hj, he⟩ := mem_grid.mp (List.of_mem_zip (show (y.1, y.2) ∈ _ from hy)).1
    rw [← he]
    exact elem_holds x.reg col hi hj
  | acst half col r dst =>
    unfold State.written at hy
    rw [hop] at hy
    cases hy
  | aczero =>
    unfold State.written at hy
    rw [hop] at hy
    obtain ⟨e, he, rfl⟩ := List.mem_map.mp hy
    obtain ⟨i, j, hi, hj, rfl⟩ := mem_grid.mp he
    exact elem_holds x.reg false hi hj
  | acrd =>
    unfold State.written at hy
    rw [hop] at hy
    cases hy

theorem perform1_performed (s : State) (core : Nat) (x : ArrCmd) : Performed s (s.perform1 core x) core x (s.written core x) := by
  have hinside := written_inside s core x
  cases hop : x.op with
  | mma ty a b k part =>
    by_cases hpart : part = .partner
    · unfold State.written State.perform1
      rw [hop, hpart]
      exact Performed.nothing rfl rfl
    · have hwritten := written_mma (s := s) (core := core) hop hpart
      rw [hwritten] at hinside ⊢
      unfold State.perform1
      rw [hop]
      cases part with
      | partner => exact absurd rfl hpart
      | whole =>
        dsimp only
        rw [List.map_map]
        exact putAcc_performed s core x _ _ _ _ hinside
      | own =>
        dsimp only
        rw [List.map_map]
        exact putAcc_performed s core x _ _ _ _ hinside
  | acld half col data bad first =>
    unfold State.written at hinside ⊢
    unfold State.perform1
    rw [hop] at hinside ⊢
    exact putAcc_performed s core x _ _ _ _ hinside
  | acst half col r dst =>
    unfold State.written State.perform1
    rw [hop]
    exact putPlate_performed s core x _ _ _ _
  | aczero =>
    unfold State.written at hinside ⊢
    unfold State.perform1
    rw [hop] at hinside ⊢
    exact putAcc_performed s core x _ _ _ _ hinside
  | acrd =>
    unfold State.written State.perform1
    rw [hop]
    dsimp only
    split
    · exact Performed.nothing rfl rfl
    · exact Performed.nothing rfl rfl

/-! ## MATRIX_COMMAND_PERFORM (R208) -/

/-- The state in which the first command of a core's order is performed: the next one starts. -/
def State.arrayNext (s : State) (core : Nat) (x : ArrCmd) (xs : List ArrCmd) (u : Nat) : State :=
  s.onCore core fun c => { c with
    array := c.array.erase x, arrayUntil := ((xs.filter fun y => !y.stopped).head?).map fun y => max u s.clk + y.dur }

theorem exec_matrixCommandPerform {s : State} {core : Nat} {x : ArrCmd} {xs : List ArrCmd} (harray : (s.core core).array = x :: xs)
    (hgo : x.stopped = false) :
    exec (.matrixCommandPerform core) s = .next (match (s.core core).arrayUntil with
      | none => s.onCore core fun c => { c with arrayUntil := some (s.clk + x.dur) }
      | some u => if s.clk < u ∨ s.partBehind core x = true then s else
          ((s.arrayNext core x xs u).perform1 core x).push (.batchRetire x.crew)) := by
  have hready : (s.core core).array.filter (fun x => !x.stopped) = x :: xs.filter fun x => !x.stopped := by
    rw [harray, List.filter_cons_of_pos (by simp [hgo])]
  simp only [exec, execMatrixCommandPerform]
  rw [hready]
  dsimp only
  cases (s.core core).arrayUntil with
  | none => rfl
  | some u =>
    dsimp only
    split <;> rfl

/-- What the array leaves of a core where a command is performed. -/
theorem arrayNext_performs {s : State} {core : Nat} {x : ArrCmd} {xs : List ArrCmd} {u : Nat} (harray : (s.core core).array = x :: xs)
    (hdue : u ≤ s.clk) :
    let t := ((s.arrayNext core x xs u).perform1 core x).push (.batchRetire x.crew)
    t.mem = s.mem ∧ (t.core core).array = xs ∧ (t.core core).arrayUntil = (xs.find? fun y => !y.stopped).map (fun y => s.clk + y.dur) ∧
      Instr.batchRetire x.crew ∈ t.agenda ∧
      (t.core core).acc = ((s.arrayNext core x xs u).written core x).foldl (fun m y => Map.set 0 m y.1 y.2) (s.core core).acc := by
  intro t
  have hcore : (s.arrayNext core x xs u).core core = { s.core core with
      array := xs, arrayUntil := (xs.find? fun y => !y.stopped).map fun y => s.clk + y.dur } := by
    rw [State.arrayNext, State.onCore_core_self, harray, List.erase_cons_head, List.head?_filter, Nat.max_eq_right hdue]
  have hperf := perform1_performed (s.arrayNext core x xs u) core x
  refine ⟨hperf.mem, ?_, ?_, List.mem_append_right _ (List.mem_singleton.mpr rfl), ?_⟩
  · exact hperf.array.trans (by rw [hcore])
  · exact hperf.until_.trans (by rw [hcore])
  · exact hperf.acc.trans (by rw [hcore])

/-- The cores' plates and accumulators as a command of the array finds them. -/
theorem arrayNext_cores (s : State) (core : Nat) (x : ArrCmd) (xs : List ArrCmd) (u n : Nat) :
    ((s.arrayNext core x xs u).core n).plate = (s.core n).plate ∧ ((s.arrayNext core x xs u).core n).acc = (s.core n).acc := by
  unfold State.arrayNext
  by_cases hn : n = core
  · rw [hn, State.onCore_core_self]
    exact ⟨rfl, rfl⟩
  · rw [State.onCore_core_ne _ _ hn]
    exact ⟨rfl, rfl⟩

theorem getD_range_map {α : Type} (f : Nat → List α) {n i : Nat} (h : i < n) : ((List.range n).map f).getD i [] = f i := by
  simp [List.getD, h]

/-- The value that an `mma` writes to an element of its region. -/
theorem mma_value {s : State} {core : Nat} {x : ArrCmd} {xs : List ArrCmd} {u : Nat} {ty : Ty} {a b : MatOp} {n : Nat} {part : ArrPart}
    (hop : x.op = .mma ty a b n part) (hpart : part ≠ .partner) (hcols : x.reg.col0 + x.reg.cols ≤ 256) {i j : Nat} (hi : i < x.reg.rows)
    (hj : j < x.reg.cols) (m : Map W32) :
    Map.get 0 (((s.arrayNext core x xs u).written core x).foldl (fun m y => Map.set 0 m y.1 y.2) m)
        ((x.reg.row0 + i) * 256 + x.reg.col0 + j) =
      (accumulate ty n (a.vec (s.core a.core).plate ty n i) (b.vec (s.core b.core).plate ty n j)
        (Map.get 0 (s.core core).acc ((x.reg.row0 + i) * 256 + x.reg.col0 + j), 0)).1 := by
  rw [written_mma hop hpart]
  refine get_foldl_set_value 0 m ⟨_, List.mem_map.mpr ⟨(i, j), mem_grid.mpr ⟨i, j, hi, hj, rfl⟩, rfl⟩, rfl⟩ fun y hy he => ?_
  obtain ⟨ij, hij, rfl⟩ := List.mem_map.mp hy
  obtain ⟨i', j', hi', hj', rfl⟩ := mem_grid.mp hij
  have hsame : i' = i ∧ j' = j := by
    simp only [Region.elem] at he
    constructor
    · simp at he; omega
    · simp at he; omega
  obtain ⟨rfl, rfl⟩ := hsame
  dsimp only
  rw [(arrayNext_cores s core x xs u a.core).1, (arrayNext_cores s core x xs u b.core).1, (arrayNext_cores s core x xs u core).2,
    getD_range_map _ hi', getD_range_map _ hj']
  rfl

theorem matrixCommandPerform_clause (s : State) (core : Nat) (x : ArrCmd) (xs : List ArrCmd) (harray : (s.core core).array = x :: xs)
    (hgo : x.stopped = false) :
    ((s.core core).arrayUntil = none → ∃ t, exec (.matrixCommandPerform core) s = .next t ∧ { t with cores := s.cores } = s ∧
      t.core core = { s.core core with arrayUntil := some (s.clk + x.dur) }) ∧
    (∀ u, (s.core core).arrayUntil = some u → s.clk < u → ∃ t, exec (.matrixCommandPerform core) s = .next t ∧ t = s) ∧
    (∀ u, (s.core core).arrayUntil = some u → u ≤ s.clk → s.partBehind core x = true →
      ∃ t, exec (.matrixCommandPerform core) s = .next t ∧ t = s) ∧
    (∀ u, (s.core core).arrayUntil = some u → u ≤ s.clk → s.partBehind core x = false →
      ∃ t, exec (.matrixCommandPerform core) s = .next t ∧ t.mem = s.mem ∧ (t.core core).array = xs ∧
      (t.core core).arrayUntil = (xs.find? fun y => !y.stopped).map (fun y => s.clk + y.dur) ∧ Instr.batchRetire x.crew ∈ t.agenda ∧
      (∀ e, (∀ i j, i < x.reg.rows → j < x.reg.cols → e ≠ (x.reg.row0 + i) * 256 + x.reg.col0 + j) →
        Map.get 0 (t.core core).acc e = Map.get 0 (s.core core).acc e) ∧
      (x.op = .aczero → ∀ i j, i < x.reg.rows → j < x.reg.cols →
        Map.get 0 (t.core core).acc ((x.reg.row0 + i) * 256 + x.reg.col0 + j) = 0) ∧
      ∀ ty a b n part, x.op = .mma ty a b n part → part ≠ .partner → x.reg.col0 + x.reg.cols ≤ 256 → ∀ i j, i < x.reg.rows → j < x.reg.cols →
        Map.get 0 (t.core core).acc ((x.reg.row0 + i) * 256 + x.reg.col0 + j) =
          (accumulate ty n (a.vec (s.core a.core).plate ty n i) (b.vec (s.core b.core).plate ty n j)
            (Map.get 0 (s.core core).acc ((x.reg.row0 + i) * 256 + x.reg.col0 + j), 0)).1) := by
  have hexec := exec_matrixCommandPerform harray hgo
  refine ⟨fun hidle => ?_, fun u hu hbusy => ?_, fun u hu hdue hbehind => ?_, fun u hu hdue hfree => ?_⟩
  · rw [hidle] at hexec
    exact ⟨_, hexec, rfl, State.onCore_core_self s core _⟩
  · rw [hu] at hexec
    exact ⟨s, hexec.trans (congrArg Host.Outcome.next (if_pos (.inl hbusy))), rfl⟩
  · rw [hu] at hexec
    exact ⟨s, hexec.trans (congrArg Host.Outcome.next (if_pos (.inr hbehind))), rfl⟩
  · rw [hu] at hexec
    obtain ⟨hmem, hrest, huntil, hretire, hacc⟩ := arrayNext_performs harray hdue
    refine ⟨_, hexec.trans (congrArg Host.Outcome.next (if_neg (by simp [hfree]; omega))), hmem, hrest, huntil, hretire, ?_, ?_, ?_⟩
    all_goals rw [hacc]
    · intro e he
      refine get_foldl_set_other 0 _ fun y hy hye => ?_
      obtain ⟨i, j, hi, hj, hij⟩ := written_inside _ core x y hy
      exact he i j hi hj (hye.symm.trans hij)
    · intro hop i j hi hj
      have hzero : (s.arrayNext core x xs u).written core x =
          ((List.range x.reg.rows).flatMap fun i => (List.range x.reg.cols).map fun j => x.reg.elem false i j).map fun e => (e, 0) := by
        unfold State.written
        rw [hop]
      rw [hzero]
      refine get_foldl_set_value 0 _ ⟨_, List.mem_map.mpr ⟨_, mem_grid.mpr ⟨i, j, hi, hj, rfl⟩, rfl⟩, rfl⟩ fun y hy _ => ?_
      obtain ⟨e, -, rfl⟩ := List.mem_map.mp hy
      rfl
    · intro ty a b n part hop hpart hcols i j hi hj
      exact mma_value hop hpart hcols hi hj _

end Sys2Proof.Machine
end

section
/-! PROOFS. The engines (R220 to R226): the combination of a group's ranks, and a unit that a copy moves. -/

namespace Sys2Proof.Machine

/-! ## Parts of what was written (R7) -/

theorem drop_upFrom (a n k : Nat) : (upFrom a n).drop k = upFrom (a + k) (n - k) := by
  refine List.ext_getElem (by simp [upFrom]) fun i h1 h2 => ?_
  simp [upFrom, Nat.add_assoc]

theorem take_upFrom {a n k : Nat} (h : k ≤ n) : (upFrom a n).take k = upFrom a k := by
  refine List.ext_getElem (by simp [upFrom, h]) fun i h1 h2 => ?_
  simp [upFrom]

theorem memBytes_part (m : List Host.Cell) (a : Nat) {n k w : Nat} (h : k + w ≤ n) :
    memBytes m (a + k) w = ((memBytes m a n).drop k).take w := by
  unfold memBytes
  rw [← List.map_drop, ← List.map_take, drop_upFrom, take_upFrom (by omega)]

theorem part_flatMap {xs : List Nat} {w i : Nat} (h : i < xs.length) : (((xs.flatMap (bytesOf w)).drop (w * i)).take w) = bytesOf w xs[i] := by
  induction xs generalizing i with
  | nil => exact absurd h (Nat.not_lt_zero i)
  | cons x xs ih =>
    rw [List.flatMap_cons]
    cases i with
    | zero =>
      rw [Nat.mul_zero, List.drop_zero, List.take_append_of_le_length (Nat.le_of_eq (length_bytesOf w x).symm)]
      exact List.take_of_length_le (Nat.le_of_eq (length_bytesOf w x))
    | succ i =>
      have hskip : w * (i + 1) = (bytesOf w x).length + w * i := by
        rw [length_bytesOf, Nat.mul_succ, Nat.add_comm]
      rw [hskip, List.drop_append, List.drop_eq_nil_of_le (Nat.le_add_right _ _), List.nil_append, Nat.add_sub_cancel_left]
      exact ih (Nat.lt_of_succ_lt_succ h)

theorem length_flatMap_bytesOf (w : Nat) (xs : List Nat) : (xs.flatMap (bytesOf w)).length = w * xs.length := by
  induction xs with
  | nil => rfl
  | cons x xs ih =>
    rw [List.flatMap_cons, List.length_append, length_bytesOf, ih, List.length_cons, Nat.mul_succ, Nat.add_comm]

/-- An element of values written side by side reads back as its own. -/
theorem memNat_memPut_part (m : List Host.Cell) (a w : Nat) {xs : List Nat} {i : Nat} (h : i < xs.length) :
    memNat (memPut m (cellsOf a (xs.flatMap (bytesOf w)))) (a + w * i) w = xs[i] % 256 ^ w := by
  have hroom : w * i + w ≤ (xs.flatMap (bytesOf w)).length := by
    rw [length_flatMap_bytesOf, ← Nat.mul_succ]
    exact Nat.mul_le_mul_left w h
  rw [memNat, memBytes_part _ _ hroom, memBytes_memPut, part_flatMap h, ofBytes_bytesOf]

/-! ## Sums (R188) -/

theorem val_emod (t : ITy) (x : Nat) : t.val x % ((2 ^ t.bits : Nat) : Int) = (x : Int) % ((2 ^ t.bits : Nat) : Int) := by
  have hmod : ((x % 2 ^ t.bits : Nat) : Int) % ((2 ^ t.bits : Nat) : Int) = (x : Int) % ((2 ^ t.bits : Nat) : Int) := by
    rw [Int.natCast_mod, Int.emod_emod]
  unfold ITy.val sInt
  split
  · split
    · exact hmod
    · rw [Int.sub_emod_right]
      exact hmod
  · exact hmod

theorem redVal_add (t : ITy) (x y : Nat) : redVal .add (.int t) false x y = (x + y) % 2 ^ t.bits := by
  have hsum : (t.val (x % 2 ^ t.bits) + t.val (y % 2 ^ t.bits)) % ((2 ^ t.bits : Nat) : Int) = (((x + y) % 2 ^ t.bits : Nat) : Int) := by
    rw [Int.add_emod, val_emod, val_emod, ← Int.natCast_mod, ← Int.natCast_mod, Nat.mod_mod, Nat.mod_mod, ← Int.natCast_add,
      ← Int.natCast_mod, ← Nat.add_mod]
  change wrapN (t.val (x % 2 ^ t.bits) + t.val (y % 2 ^ t.bits)) t.bits = _
  unfold wrapN
  rw [hsum, Int.toNat_natCast]

/-! ## The combination of a group (R225) -/

/-- What a change of a core keeps of it, it keeps of every core. -/
theorem onCore_keeps {β : Type} (π : Core → β) (s : State) (n : Nat) {f : Core → Core} (hf : ∀ c, π (f c) = π c) (m : Nat) :
    π ((s.onCore n f).core m) = π (s.core m) := by
  by_cases hm : m = n
  · rw [hm, State.onCore_core_self, hf]
  · rw [State.onCore_core_ne _ _ hm]

/-- A state in which an engine's command has finished: its plate waits to be set back. -/
structure Finished (s t : State) (home : Nat) : Prop where
  mem : t.mem = s.mem
  crews : t.crews = s.crews
  parties : t.parties = s.parties
  groups : t.groups = s.groups
  plates : ∀ n, (t.core n).plate = (s.core n).plate
  agenda : t.agenda = s.agenda ++ [.plateStoreArbitration home]

/-- The set-back of a finished command's plate, with its event record (R64, R221). -/
def State.setBackOf (s : State) (c : EngCmd) (p : Plate) (status : Nat) (wts : Stamp) (iv : List IvalRef) : SetBack :=
  ⟨c.party, p.num, wts, iv.map fun r => (c.crew, r),
    c.ev.map fun q => ⟨coreOfKey c.crew, c.eng, c.party, q, eventItem c status, wts, s.evNext⟩⟩

theorem finishCmd_eq {s : State} {c : EngCmd} {p : Plate} (hp : s.cmdPlate c = some p) (status : Nat) (wts : Stamp) (iv : List IvalRef) :
    s.finishCmd c status wts iv = (({ s with evNext := s.evNext + 1 } : State).onCore (s.plateHome c.party p) fun x =>
      { x with setBacks := x.setBacks ++ [s.setBackOf c p status wts iv] }).push (.plateStoreArbitration (s.plateHome c.party p)) := by
  unfold State.finishCmd
  rw [hp]
  rfl

theorem finishCmd_finished {s : State} {c : EngCmd} {p : Plate} (hp : s.cmdPlate c = some p) (status : Nat) (wts : Stamp) (iv : List IvalRef) :
    Finished s (s.finishCmd c status wts iv) (s.plateHome c.party p) := by
  rw [finishCmd_eq hp]
  exact ⟨rfl, rfl, rfl, rfl, fun n => onCore_keeps Core.plate { s with evNext := s.evNext + 1 } _
    (f := fun x => { x with setBacks := x.setBacks ++ [s.setBackOf c p status wts iv] }) (fun _ => rfl) n, rfl⟩

/-- One member's part of a combination. -/
def State.givenTo (s : State) (a : Arrival) (p : Plate) (bs : List Byte) (bad : List Nat) (status : Nat) : State :=
  ((s.onCore (s.plateHome a.cmd.party p) fun x => x.putPlate (cellsOf (1024 * p.base + a.cmd.offs) bs) bad)).finishCmd a.cmd status 0

theorem givenTo_parts {s : State} {a : Arrival} {p : Plate} (hp : s.cmdPlate a.cmd = some p) (bs : List Byte) (bad : List Nat) (status : Nat) :
    let t := s.givenTo a p bs bad status
    let home := s.plateHome a.cmd.party p
    t.mem = s.mem ∧ t.crews = s.crews ∧ t.parties = s.parties ∧ t.groups = s.groups ∧
      (t.core home).plate = memPut (s.core home).plate (cellsOf (1024 * p.base + a.cmd.offs) bs) ∧
      (∀ n, n ≠ home → (t.core n).plate = (s.core n).plate) ∧ t.agenda = s.agenda ++ [.plateStoreArbitration home] := by
  intro t home
  have hput : (s.onCore home fun x => x.putPlate (cellsOf (1024 * p.base + a.cmd.offs) bs) bad).cmdPlate a.cmd = some p := hp
  have hfin := finishCmd_finished hput status 0 []
  refine ⟨hfin.mem, hfin.crews, hfin.parties, hfin.groups, ?_, fun n hn => ?_, hfin.agenda⟩
  · exact (hfin.plates home).trans (congrArg Core.plate (State.onCore_core_self s home _))
  · exact (hfin.plates n).trans (congrArg Core.plate (State.onCore_core_ne s _ hn))

/-- The results of a group of two ranks that add integers. -/
def State.sums (s : State) (a b : Arrival) (ty : ITy) : List Nat :=
  (List.range (a.cmd.bytes / (ty.bits / 8))).map fun i =>
    redVal .add (.int ty) false ((s.collElems a).getD i 0) ((s.collElems b).getD i 0)

theorem combine_two {s : State} {g : Nat} {a b : Arrival} {ty : ITy} {pa pb : Plate} (harr : (Map.get {} s.groups g : CollGroup).arrivals = [a, b])
    (hrank : a.rank < b.rank) (haop : a.cmd.op = .add) (hbop : b.cmd.op = .add) (hat : a.cmd.ty = .int ty) (hbt : b.cmd.ty = .int ty)
    (hbytes : a.cmd.bytes = b.cmd.bytes) (hpa : s.cmdPlate a.cmd = some pa) (hpb : s.cmdPlate b.cmd = some pb) :
    ∃ bada badb st, s.combine g =
      ({ s with groups := Map.put s.groups g { (Map.get {} s.groups g : CollGroup) with arrivals := [] } }.givenTo a pa
        ((s.sums a b ty).flatMap (bytesOf (ty.bits / 8))) bada st).givenTo b pb ((s.sums a b ty).flatMap (bytesOf (ty.bits / 8))) badb st := by
  have hsort : sortBy (fun r : Arrival => r.rank) [a, b] = [a, b] := by
    simp [sortBy, insBy, Nat.le_of_lt hrank]
  have hgood : ([a, b].any fun x => x.cmd.op != a.cmd.op || x.cmd.ty != a.cmd.ty || x.cmd.bytes != a.cmd.bytes) = false := by
    simp [haop, hbop, hat, hbt, hbytes]
  have hval : ∀ i, collVal a.cmd.op a.cmd.ty ([s.collElems a, s.collElems b].map fun v => v.getD i 0) =
      redVal .add (.int ty) false ((s.collElems a).getD i 0) ((s.collElems b).getD i 0) := fun i => by
    rw [haop, hat]
    rfl
  unfold State.combine
  dsimp only
  rw [harr, hsort]
  dsimp only
  rw [hgood]
  generalize hs1 : ({ s with groups := Map.put s.groups g { (Map.get {} s.groups g : CollGroup) with arrivals := [] } } : State) = s1
  have hpa1 : s1.cmdPlate a.cmd = some pa := by rw [← hs1]; exact hpa
  have hpb1 : s1.cmdPlate b.cmd = some pb := by rw [← hs1]; exact hpb
  have hres : (List.range (a.cmd.bytes / (tyBits a.cmd.ty / 8))).map
      (fun i => collVal a.cmd.op a.cmd.ty (([a, b].map s1.collElems).map fun v => v.getD i 0)) = s.sums a b ty := by
    have hw : tyBits a.cmd.ty = ty.bits := by rw [hat]; rfl
    unfold State.sums
    rw [hw]
    refine List.map_congr_left fun i _ => ?_
    rw [← hs1]
    exact hval i
  simp only [Bool.false_eq_true, if_false, List.foldl_cons, List.foldl_nil, hpa1, hres]
  have hsecond : ∀ bs bad st, (s1.givenTo a pa bs bad st).cmdPlate b.cmd = some pb := fun bs bad st => by
    unfold State.cmdPlate State.party at hpb1 ⊢
    rw [(givenTo_parts hpa1 bs bad st).2.2.1]
    exact hpb1
  unfold State.givenTo at hsecond ⊢
  simp only [hsecond, hat]
  exact ⟨_, _, _, rfl⟩

theorem collElems_at {s : State} {a : Arrival} {p : Plate} {ty : ITy} (hp : s.cmdPlate a.cmd = some p) (hty : a.cmd.ty = .int ty) {i : Nat}
    (hi : i < a.cmd.bytes / (ty.bits / 8)) :
    (s.collElems a).getD i 0 = memNat (s.core (s.plateHome a.cmd.party p)).plate (1024 * p.base + a.cmd.offs + ty.bits / 8 * i) (ty.bits / 8) := by
  have hw : tyBits a.cmd.ty = ty.bits := by rw [hty]; rfl
  unfold State.collElems
  rw [hp]
  dsimp only
  rw [hw]
  simp [List.getD, hi]

theorem collectiveCombine_clause (s : State) (g : Nat) (a b : Arrival) (pa pb : Plate) (ty : ITy) (i : Nat) :
    let x : CollGroup := Map.get {} s.groups g
    x.members = 2 → x.arrivals = [a, b] → a.rank < b.rank → a.cmd.op = .add → b.cmd.op = .add → a.cmd.ty = .int ty → b.cmd.ty = .int ty →
    ty.bits = 32 ∨ ty.bits = 64 → a.cmd.bytes = b.cmd.bytes → s.cmdPlate a.cmd = some pa → s.cmdPlate b.cmd = some pb →
    let ha := 4 * (s.party a.cmd.party).cluster + pa.core
    let hb := 4 * (s.party b.cmd.party).cluster + pb.core
    let w := ty.bits / 8
    ha ≠ hb → i < a.cmd.bytes / w →
    let xa := memNat (s.core ha).plate (1024 * pa.base + a.cmd.offs + w * i) w
    let xb := memNat (s.core hb).plate (1024 * pb.base + b.cmd.offs + w * i) w
    ∃ t, exec (.collectiveCombine g) s = .next t ∧ t.mem = s.mem ∧ t.crews = s.crews ∧ (Map.get {} t.groups g).arrivals = [] ∧
      memNat (t.core ha).plate (1024 * pa.base + a.cmd.offs + w * i) w = (xa + xb) % 2 ^ (8 * w) ∧
      memNat (t.core hb).plate (1024 * pb.base + b.cmd.offs + w * i) w = (xa + xb) % 2 ^ (8 * w) ∧
      Instr.plateStoreArbitration ha ∈ t.agenda ∧ Instr.plateStoreArbitration hb ∈ t.agenda := by
  intro x hmembers harr hrank haop hbop hat hbt hbits hbytes hpa hpb ha hb w hne hi xa xb
  obtain ⟨bada, badb, st, hcombine⟩ := combine_two harr hrank haop hbop hat hbt hbytes hpa hpb
  have hexec : exec (.collectiveCombine g) s = .next (s.combine g) :=
    congrArg Host.Outcome.next (if_pos ⟨by rw [hmembers]; decide, by rw [harr, hmembers]; rfl⟩)
  rw [hcombine] at hexec
  have hwidth : 2 ^ ty.bits = 256 ^ w ∧ 2 ^ (8 * w) = 256 ^ w := by
    obtain h | h := hbits <;> (dsimp only [w]; rw [h]; exact ⟨rfl, rfl⟩)
  have hlen : i < (s.sums a b ty).length := by
    unfold State.sums
    rw [List.length_map, List.length_range]
    exact hi
  have hsum : (s.sums a b ty)[i] % 256 ^ w = (xa + xb) % 2 ^ (8 * w) := by
    have hval : (s.sums a b ty)[i] = redVal .add (.int ty) false ((s.collElems a).getD i 0) ((s.collElems b).getD i 0) := by
      simp [State.sums]
    rw [hval, collElems_at hpa hat hi, collElems_at hpb hbt (hbytes ▸ hi), redVal_add, hwidth.1, hwidth.2, Nat.mod_mod]
    rfl
  obtain ⟨hmem1, hcrews1, hparties1, hgroups1, hput1, hkeep1, hagenda1⟩ := givenTo_parts
    (s := { s with groups := Map.put s.groups g { (Map.get {} s.groups g : CollGroup) with arrivals := [] } }) (a := a) (p := pa) hpa
    ((s.sums a b ty).flatMap (bytesOf (ty.bits / 8))) bada st
  generalize ({ s with groups := Map.put s.groups g { (Map.get {} s.groups g : CollGroup) with arrivals := [] } } : State).givenTo a pa
    ((s.sums a b ty).flatMap (bytesOf (ty.bits / 8))) bada st = u at hexec hmem1 hcrews1 hparties1 hgroups1 hput1 hkeep1 hagenda1
  have hpb1 : u.cmdPlate b.cmd = some pb := by
    unfold State.cmdPlate State.party at hpb ⊢
    rw [hparties1]
    exact hpb
  have hhome : u.plateHome b.cmd.party pb = hb := by
    unfold State.plateHome State.party
    rw [hparties1]
    rfl
  obtain ⟨hmem2, hcrews2, hparties2, hgroups2, hput2, hkeep2, hagenda2⟩ := givenTo_parts hpb1
    ((s.sums a b ty).flatMap (bytesOf (ty.bits / 8))) badb st
  rw [hhome] at hput2 hkeep2 hagenda2
  refine ⟨_, hexec, hmem2.trans hmem1, hcrews2.trans hcrews1, ?_, ?_, ?_, ?_, ?_⟩
  · rw [hgroups2, hgroups1, MapLaws.get_put_self]
  · rw [hkeep2 ha hne]
    refine (congrArg (fun m => memNat m _ _) hput1).trans ?_
    exact (memNat_memPut_part _ _ w hlen).trans hsum
  · rw [hput2, hkeep1 hb (Ne.symm hne)]
    exact (memNat_memPut_part _ _ w hlen).trans hsum
  · rw [hagenda2, hagenda1]
    exact List.mem_append_left _ (List.mem_append_right _ (List.mem_singleton.mpr rfl))
  · rw [hagenda2]
    exact List.mem_append_right _ (List.mem_singleton.mpr rfl)

end Sys2Proof.Machine
end

section
/-! PROOFS. A copy of one unit from global memory to a plate (R220 to R223). -/

namespace Sys2Proof.Machine

/-! ## What an engine's reads leave (R220) -/

/-- An engine has read: memory and its poison are as they were, and so are the cores; a crew may count merges and a party's trace its
parcels. -/
structure EngRead (s t : State) : Prop where
  quiet : Quiet s.mem t.crews t
  crews : ∀ k, { t.crew k with merges := (s.crew k).merges } = s.crew k
  plates : ∀ p, (t.party p).plates = (s.party p).plates ∧ (t.party p).cluster = (s.party p).cluster
  poison : ∀ loc, t.isPoisoned loc = s.isPoisoned loc
  cores : t.cores = s.cores
  ctxs : t.ctxs = s.ctxs
  mode : t.mode = s.mode
  cxl : t.cxl = s.cxl
  host : t.host = s.host
  bias : t.bias = s.bias
  evNext : t.evNext = s.evNext

section
variable {s t : State} (h : EngRead s t)
include h

theorem EngRead.bump (k : Nat) (f : Crew → Crew) (hf : ∀ c, { f c with merges := c.merges } = c) : EngRead s (t.onCrew k f) := by
  refine ⟨⟨h.quiet.mem, rfl, h.quiet.offs, h.quiet.arm⟩, fun j => ?_, h.plates, h.poison, h.cores, h.ctxs, h.mode, h.cxl, h.host, h.bias, h.evNext⟩
  by_cases hj : j = k
  · subst hj
    rw [State.onCrew_crew_self]
    exact (congrArg (fun c : Crew => { c with merges := (s.crew j).merges }) (hf (t.crew j))).trans (h.crews j)
  · rw [State.onCrew_eq, State.putCrew_crew_ne _ _ hj]
    exact h.crews j

theorem EngRead.request (a line f l : Nat) : EngRead s (t.request a line f l false) := by
  have hq : Quiet s.mem t.crews (t.request a line f l false) := h.quiet.request _ _ _ _ _ _ _
  have hd := DirSide.request t a line f l false none false
  have hparties : (t.request a line f l false).parties = t.parties := (congrArg State.parties hd.rest :)
  refine ⟨⟨hq.mem, rfl, hq.offs, hq.arm⟩, fun k => ?_, fun p => ?_, fun loc => (hd.isPoisoned loc).trans (h.poison loc), ?_, ?_, ?_, ?_, ?_, ?_, ?_⟩
  · rw [State.crew_of_crews hq.crews k]
    exact h.crews k
  · rw [State.party, hparties]
    exact h.plates p
  · exact (congrArg State.cores hd.rest :).trans h.cores
  · exact (congrArg State.ctxs hd.rest :).trans h.ctxs
  · exact (congrArg State.mode hd.rest :).trans h.mode
  · exact (congrArg State.cxl hd.rest :).trans h.cxl
  · exact (congrArg State.host hd.rest :).trans h.host
  · exact (congrArg State.bias hd.rest :).trans h.bias
  · exact (congrArg State.evNext hd.rest :).trans h.evNext

theorem EngRead.onTrace (p : Nat) (f : Trace → Trace) : EngRead s (t.onParty p fun x => { x with trace := f x.trace }) := by
  refine ⟨⟨h.quiet.mem, rfl, h.quiet.offs, h.quiet.arm⟩, h.crews, fun j => ?_, h.poison, h.cores, h.ctxs, h.mode, h.cxl, h.host, h.bias, h.evNext⟩
  by_cases hj : j = p
  · subst hj
    rw [State.onParty_party_self]
    exact h.plates j
  · have hother : (t.onParty p fun x => { x with trace := f x.trace }).party j = t.party j :=
      congrArg (fun o : Option Party => o.getD {}) (MapLaws.find_put_ne _ _ hj)
    rw [hother]
    exact h.plates j

theorem EngRead.engReads (c : EngCmd) (core : Nat) (locs : List Nat) : EngRead s (t.engReads c core locs) := by
  unfold State.engReads
  dsimp only
  have hloop : ∀ (xs : List (Nat × Nat × Nat)) (t : State), EngRead s t → EngRead s (xs.foldl (fun s x =>
      (if isMerge (s.mapSpan x.1 x.2.1 x.2.2) && s.cmdCrew c then s.onCrew c.crew fun y => { y with merges := y.merges + 1 } else s).request
        (dieOfCore core) x.1 x.2.1 x.2.2 false) t) := fun xs t ht => by
    refine foldl_keeps (P := EngRead s) (fun u x hu => ?_) xs ht
    split
    · exact (hu.bump _ (fun y => { y with merges := y.merges + 1 }) fun _ => rfl).request _ _ _ _
    · exact hu.request _ _ _ _
  have hread := hloop (spansOf ((locs.filter fun l => !locCtl l).map fun l => (l, (0 : Byte)))) t h
  unfold State.traceReads
  split
  · exact hread.onTrace _ fun tr => (locs.map parcelOfLoc).eraseDups.foldl Trace.fold tr
  · exact hread

theorem EngRead.xlate (ctx : Nat) (va : W64) (need : Need) : t.xlate ctx va need = s.xlate ctx va need :=
  State.xlate_congr h.quiet.mem h.ctxs h.mode h.cxl h.host ctx va need

theorem EngRead.locOf (ctx pa : Nat) : t.locOf ctx pa = s.locOf ctx pa := by
  simp only [State.locOf, State.homePair, State.ctx, h.cxl, h.host, h.ctxs, h.mode]

theorem EngRead.rangeLocs (ctx : Nat) (va : W64) (n : Nat) (need : Need) : t.rangeLocs ctx va n need = s.rangeLocs ctx va n need := by
  unfold State.rangeLocs
  simp only [h.xlate, h.locOf]

theorem EngRead.cmdPlate (c : EngCmd) : t.cmdPlate c = s.cmdPlate c := by
  unfold State.cmdPlate
  rw [(h.plates c.party).1]

theorem EngRead.plateHome (p : Nat) (x : Plate) : t.plateHome p x = s.plateHome p x := by
  unfold State.plateHome
  rw [(h.plates p).2]

end

theorem EngRead.refl {s : State} (hoffs : s.offs = []) (harm : s.inject.arm = false) : EngRead s s :=
  ⟨⟨rfl, rfl, hoffs, harm⟩, fun _ => rfl, fun _ => ⟨rfl, rfl⟩, fun _ => rfl, rfl, rfl, rfl, rfl, rfl, rfl, rfl⟩

/-! ## One unit of a copy (R223) -/

/-- The one unit of a copy's layout. -/
def EngCmd.unit (c : EngCmd) (p : Plate) (x : Nat × Nat) : Unit_ :=
  { va := c.g + BitVec.ofNat 64 x.1, n := layUnit c.rec_, at_ := 1024 * p.base + c.base + x.2, row := 0 / (fld c.rec_.toNat 42 8 + 1) }

/-- Where the bytes of a copy's unit lie in global memory. -/
def State.unitLocs (s : State) (c : EngCmd) (x : Nat × Nat) : List Nat :=
  (List.range (layUnit c.rec_)).map fun i =>
    match s.xlate c.ctx (c.g + BitVec.ofNat 64 x.1 + BitVec.ofNat 64 i) .read with
    | .ok pa => s.locOf c.ctx pa
    | .error _ => 0

/-- A unit whose bytes the context maps for reads, none of them poisoned or in the control region. -/
def UnitReads (s : State) (c : EngCmd) (x : Nat × Nat) : Prop :=
  ∀ i, i < layUnit c.rec_ → ∃ pa, s.xlate c.ctx (c.g + BitVec.ofNat 64 x.1 + BitVec.ofNat 64 i) .read = .ok pa ∧
    s.isPoisoned (s.locOf c.ctx pa) = false ∧ locCtl (s.locOf c.ctx pa) = false

theorem layUnit_pos (r : W64) : 0 < layUnit r := Nat.succ_pos _

theorem layUnit_le (r : W64) : layUnit r ≤ 64 := by
  have : fld r.toNat 58 6 < 2 ^ 6 := Nat.mod_lt _ (by decide)
  unfold layUnit
  omega

theorem UnitReads.rangeLocs {s : State} {c : EngCmd} {x : Nat × Nat} (h : UnitReads s c x) :
    s.rangeLocs c.ctx (c.g + BitVec.ofNat 64 x.1) (layUnit c.rec_) .read = .ok (s.unitLocs c x) := by
  obtain ⟨pa, hpa, -⟩ := h 0 (layUnit_pos _)
  obtain ⟨pb, hpb, -⟩ := h (layUnit c.rec_ - 1) (Nat.sub_lt (layUnit_pos _) Nat.one_pos)
  have hfirst : c.g + BitVec.ofNat 64 x.1 + BitVec.ofNat 64 0 = c.g + BitVec.ofNat 64 x.1 := by simp
  rw [hfirst] at hpa
  unfold State.rangeLocs
  simp only [List.filterMap_cons, hpa, hpb, List.filterMap_nil]
  rfl

theorem UnitReads.locs {s : State} {c : EngCmd} {x : Nat × Nat} (h : UnitReads s c x) {l : Nat} (hl : l ∈ s.unitLocs c x) :
    s.isPoisoned l = false ∧ locCtl l = false := by
  obtain ⟨i, hi, rfl⟩ := List.mem_map.mp hl
  obtain ⟨pa, hpa, hpoison, hctl⟩ := h i (List.mem_range.mp hi)
  rw [hpa]
  exact ⟨hpoison, hctl⟩

theorem length_unitLocs (s : State) (c : EngCmd) (x : Nat × Nat) : (s.unitLocs c x).length = layUnit c.rec_ := by
  simp [State.unitLocs]

theorem chunk_one {s : State} {c : EngCmd} (heng : c.eng = .copy) {x : Nat × Nat} (hunits : layUnits c.rec_ = [x]) (hpos : c.pos = 0) (p : Plate) :
    s.chunk c (1024 * p.base) = ([c.unit p x], true) := by
  have hone : copyUnits c (1024 * p.base) = [c.unit p x] := by
    unfold copyUnits
    rw [hunits]
    rfl
  have hroom : 1 ≤ 4096 / layUnit c.rec_ := by
    rw [Nat.le_div_iff_mul_le (layUnit_pos _)]
    have := layUnit_le c.rec_
    omega
  unfold State.chunk
  rw [heng]
  dsimp only
  rw [hone, hpos, List.drop_zero, List.take_of_length_le (by simpa using hroom)]
  simp [hroom]

theorem cmdWaits_not {s : State} {c : EngCmd} (hto : c.toGlobal = false) (hbias : s.bias.busy = false) {p : Plate} {x : Nat × Nat}
    (h : UnitReads s c x) : s.cmdWaits c [c.unit p x] = false := by
  have hflip : ∀ l, s.flipping l = false := fun l => by simp [State.flipping, hbias]
  have hrange := h.rangeLocs
  unfold State.cmdWaits EngCmd.unit
  simp only [List.any_cons, List.any_nil, Bool.or_false, Bool.false_or, Bool.false_eq_true, if_false, hto]
  rw [hrange]
  simp [hflip]

/-- The bytes of a copy's unit in memory. -/
def State.unitBytes (s : State) (c : EngCmd) (x : Nat × Nat) : List Byte := (s.unitLocs c x).map (memGet s.mem)

theorem toPlate_unit {r : EngRun} {c : EngCmd} {core home : Nat} {p : Plate} {x : Nat × Nat} (hoffs : r.s.offs = [])
    (harm : r.s.inject.arm = false) (h : UnitReads r.s c x) :
    ∃ u, EngRead r.s u ∧ r.toPlate c core home (c.unit p x) = { r with
      s := u.onCore home fun y => y.putPlate (cellsOf (1024 * p.base + c.base + x.2) (r.s.unitBytes c x)) [] } := by
  have h0 : EngRead r.s (r.s.engReads c core []) := (EngRead.refl hoffs harm).engReads c core []
  have h1 : EngRead r.s ((r.s.engReads c core []).engReads c core (r.s.unitLocs c x)) := h0.engReads c core _
  refine ⟨_, h1, ?_⟩
  have hrange : (r.s.engReads c core []).rangeLocs c.ctx (c.g + BitVec.ofNat 64 x.1) (layUnit c.rec_) .read = .ok (r.s.unitLocs c x) :=
    (h0.rangeLocs _ _ _ _).trans h.rangeLocs
  generalize hu : (r.s.engReads c core []).engReads c core (r.s.unitLocs c x) = u at h1
  have hbad : ((r.s.unitLocs c x).zip ((upFrom (c.unit p x).at_ (c.unit p x).n).map (· / 32))).filter (fun y => u.isPoisoned y.1) = [] :=
    List.filter_eq_nil_iff.mpr fun y hy => by
      rw [h1.poison, (h.locs (List.of_mem_zip (show (y.1, y.2) ∈ _ from hy)).1).1]
      simp
  have hbytes : (r.s.unitLocs c x).map (u.engByte core) = r.s.unitBytes c x := List.map_congr_left fun l hl => by
    unfold State.engByte
    rw [if_neg (by simp [(h.locs hl).2]), State.byteAt, if_pos (by rw [h1.quiet.offs]; rfl), h1.quiet.mem]
  have hlen : (r.s.unitBytes c x).length = layUnit c.rec_ := by simp [State.unitBytes, length_unitLocs]
  have hunit : (r.s.engReads c core (c.unit p x).index).rangeLocs c.ctx (c.unit p x).va (if (c.unit p x).skip then 4 else (c.unit p x).n) .read =
      .ok (r.s.unitLocs c x) := hrange
  have hcells : (upFrom (c.unit p x).at_ (c.unit p x).n).zip ((r.s.unitLocs c x).map (u.engByte core)) =
      cellsOf (1024 * p.base + c.base + x.2) (r.s.unitBytes c x) := by
    rw [hbytes, cellsOf, hlen]
    rfl
  have hnoskip : ¬(c.unit p x).skip = true := Bool.false_ne_true
  unfold EngRun.toPlate
  dsimp only
  rw [hunit]
  dsimp only
  rw [if_neg hnoskip]
  have hsame : (r.s.engReads c core (c.unit p x).index).engReads c core (r.s.unitLocs c x) = u := hu
  rw [hsame, hcells, hbad]
  rfl

/-- A copy of one unit runs whole: it reads, its bytes go to the plate, and it finishes. -/
theorem runCmd_unit {s : State} {core : Nat} {c : EngCmd} {p : Plate} {x : Nat × Nat} (heng : c.eng = .copy) (hp : s.cmdPlate c = some p)
    (hunits : layUnits c.rec_ = [x]) (hto : c.toGlobal = false) (hpos : c.pos = 0) (hstatus : c.status = 0) (harm : s.inject.arm = false)
    (hoffs : s.offs = []) (hbias : s.bias.busy = false) (h : UnitReads s c x) :
    ∃ u wts, EngRead s u ∧ s.runCmd core c = ((u.onCore (s.plateHome c.party p) fun y =>
      y.putPlate (cellsOf (1024 * p.base + c.base + x.2) (s.unitBytes c x)) []).finishCmd c 0 wts c.ivals, none) := by
  obtain ⟨u, hread, hplate⟩ := toPlate_unit (r := { s, status := c.status, wts := c.wts, ivals := c.ivals }) (core := core)
    (home := s.plateHome c.party p) (p := p) hoffs harm h
  refine ⟨u, c.wts.getD 0, hread, ?_⟩
  have hgo : [c.unit p x].takeWhile (fun y => !s.cmdWaits c [y]) = [c.unit p x] := by
    rw [List.takeWhile_cons, cmdWaits_not hto hbias h]
    rfl
  unfold State.runCmd
  rw [hp]
  dsimp only
  rw [chunk_one heng hunits hpos p]
  dsimp only
  rw [hgo, hto]
  have hrun : ([c.unit p x].foldl (fun r u => if false = true then r.toGlobal c core (s.plateHome c.party p) u else
      r.toPlate c core (s.plateHome c.party p) u) { s, status := c.status, wts := c.wts, ivals := c.ivals }) =
      ({ s, status := c.status, wts := c.wts, ivals := c.ivals } : EngRun).toPlate c core (s.plateHome c.party p) (c.unit p x) := rfl
  rw [hrun, hplate, if_pos (by simp)]
  dsimp only
  rw [hstatus]

theorem memGet_unitBytes (m : List Host.Cell) (s : State) (c : EngCmd) (x : Nat × Nat) (a : Nat) {i pa : Nat} (hi : i < layUnit c.rec_)
    (hpa : s.xlate c.ctx (c.g + BitVec.ofNat 64 x.1 + BitVec.ofNat 64 i) .read = .ok pa) :
    memGet (memPut m (cellsOf a (s.unitBytes c x))) (a + i) = memGet s.mem (s.locOf c.ctx pa) := by
  have hlen : (s.unitBytes c x).length = layUnit c.rec_ := by simp [State.unitBytes, length_unitLocs]
  have hbytes := memBytes_memPut m a (s.unitBytes c x)
  have hleft : (memBytes (memPut m (cellsOf a (s.unitBytes c x))) a (s.unitBytes c x).length)[i]? =
      some (memGet (memPut m (cellsOf a (s.unitBytes c x))) (a + i)) := by
    simp [memBytes, upFrom, hlen, hi]
  have hright : (s.unitBytes c x)[i]? = some (memGet s.mem (s.locOf c.ctx pa)) := by
    simp [State.unitBytes, State.unitLocs, hi, hpa]
  rw [hbytes, hright] at hleft
  exact (Option.some.inj hleft).symm

theorem exec_copy {s : State} {core : Nat} {c : EngCmd} (hq : (s.core core).copyQ = [c]) (hgo : c.stopped = false) :
    exec (.engineCommandComplete core .copy) s = .next (if s.clk < c.at_ + (s.ctx c.ctx).fix.toNat then s else
      (s.runCmd core c).1.onCore core fun x => x.setEngQ .copy (match (s.runCmd core c).2 with
        | some d => (x.engQ .copy).map fun y => if y = c then d else y
        | none => (x.engQ .copy).erase c)) := by
  have hfind : ((s.core core).engQ .copy).find? (fun c => !c.stopped) = some c := by
    change (s.core core).copyQ.find? _ = _
    rw [hq]
    simp [hgo]
  simp only [exec, execEngineCommandComplete]
  rw [hfind]
  exact (apply_ite Host.Outcome.next _ _ _).symm

/-- What a finished copy leaves of its cores. -/
theorem finished_copy (v : State) (core home : Nat) (c : EngCmd) (b : SetBack) :
    let t := ((({ v with evNext := v.evNext + 1 } : State).onCore home fun x => { x with setBacks := x.setBacks ++ [b] }).push
      (.plateStoreArbitration home)).onCore core fun x => x.setEngQ .copy ((x.engQ .copy).erase c)
    t.mem = v.mem ∧ t.crews = v.crews ∧ Instr.plateStoreArbitration home ∈ t.agenda ∧
      (t.core home).setBacks = (v.core home).setBacks ++ [b] ∧ (t.core home).plate = (v.core home).plate ∧
      (t.core core).copyQ = (v.core core).copyQ.erase c := by
  dsimp only
  generalize hw : (({ v with evNext := v.evNext + 1 } : State).onCore home fun x => { x with setBacks := x.setBacks ++ [b] }).push
    (.plateStoreArbitration home) = w
  have hhome : w.core home = { v.core home with setBacks := (v.core home).setBacks ++ [b] } := by
    rw [← hw]
    exact State.onCore_core_self { v with evNext := v.evNext + 1 } home fun x => { x with setBacks := x.setBacks ++ [b] }
  have hqueue : (w.core core).copyQ = (v.core core).copyQ := by
    rw [← hw]
    exact onCore_keeps Core.copyQ { v with evNext := v.evNext + 1 } home (f := fun x => { x with setBacks := x.setBacks ++ [b] }) (fun _ => rfl) core
  have hside : w.mem = v.mem ∧ w.crews = v.crews ∧ Instr.plateStoreArbitration home ∈ w.agenda := by
    rw [← hw]
    exact ⟨rfl, rfl, List.mem_append_right _ (List.mem_singleton.mpr rfl)⟩
  obtain ⟨hmem, hcrews, hagenda⟩ := hside
  refine ⟨hmem, hcrews, hagenda, ?_, ?_, ?_⟩
  · refine (onCore_keeps Core.setBacks w core (f := fun x => x.setEngQ .copy ((x.engQ .copy).erase c)) (fun _ => rfl) home).trans ?_
    rw [hhome]
  · refine (onCore_keeps Core.plate w core (f := fun x => x.setEngQ .copy ((x.engQ .copy).erase c)) (fun _ => rfl) home).trans ?_
    rw [hhome]
  · refine (congrArg Core.copyQ (State.onCore_core_self w core _)).trans ?_
    exact congrArg (fun q : List EngCmd => q.erase c) hqueue

/-- What a plate's bytes leave of its core. -/
theorem plateBytes_keep (u : State) (home : Nat) (cs : List Host.Cell) (n : Nat) :
    ((u.onCore home fun y => y.putPlate cs []).core n).setBacks = (u.core n).setBacks ∧
      ((u.onCore home fun y => y.putPlate cs []).core n).copyQ = (u.core n).copyQ ∧
      ((u.onCore home fun y => y.putPlate cs []).core home).plate = memPut (u.core home).plate cs :=
  ⟨onCore_keeps Core.setBacks u home (f := fun y => y.putPlate cs []) (fun _ => rfl) n,
    onCore_keeps Core.copyQ u home (f := fun y => y.putPlate cs []) (fun _ => rfl) n,
    congrArg Core.plate (State.onCore_core_self u home _)⟩

theorem copyComplete_clause (s : State) (core : Nat) (c : EngCmd) (hq : (s.core core).copyQ = [c]) (hgo : c.stopped = false)
    (heng : c.eng = .copy) :
    (s.clk < c.at_ + (s.ctx c.ctx).fix.toNat → ∃ t, exec (.engineCommandComplete core .copy) s = .next t ∧ t = s) ∧
    (∀ p x, c.at_ + (s.ctx c.ctx).fix.toNat ≤ s.clk → s.cmdPlate c = some p → layUnits c.rec_ = [x] → c.toGlobal = false →
      c.pos = 0 → c.status = 0 → s.inject.arm = false → s.offs = [] → s.bias.busy = false →
      (∀ i, i < layUnit c.rec_ → ∃ pa, s.xlate c.ctx (c.g + BitVec.ofNat 64 x.1 + BitVec.ofNat 64 i) .read = .ok pa ∧
        s.isPoisoned (s.locOf c.ctx pa) = false ∧ locCtl (s.locOf c.ctx pa) = false) →
      let home := 4 * (s.party c.party).cluster + p.core
      ∃ t, exec (.engineCommandComplete core .copy) s = .next t ∧ (∀ a, memGet t.mem a = memGet s.mem a) ∧
        (∀ k, { t.crew k with merges := (s.crew k).merges } = s.crew k) ∧ (t.core core).copyQ = [] ∧ Instr.plateStoreArbitration home ∈ t.agenda ∧
        (∃ b, (t.core home).setBacks = (s.core home).setBacks ++ [b] ∧ b.party = c.party ∧ b.plate = p.num ∧
          ∀ q, c.ev = some q → ∃ e, b.ev = some e ∧ e.party = c.party ∧ e.q = q ∧
            e.item = BitVec.ofNat 32 (c.plate * 2 ^ 24 + 1 * 2 ^ 21 + c.seq)) ∧
        ∀ i pa, i < layUnit c.rec_ → s.xlate c.ctx (c.g + BitVec.ofNat 64 x.1 + BitVec.ofNat 64 i) .read = .ok pa →
          memGet (t.core home).plate (1024 * p.base + c.base + x.2 + i) = memGet s.mem (s.locOf c.ctx pa)) := by
  have hexec := exec_copy hq hgo
  refine ⟨fun hearly => ⟨s, hexec.trans (congrArg Host.Outcome.next (if_pos hearly)), rfl⟩, ?_⟩
  intro p x hdue hp hunits hto hpos hstatus harm hoffs hbias hreads home
  obtain ⟨u, wts, hread, hrun⟩ := runCmd_unit (core := core) heng hp hunits hto hpos hstatus harm hoffs hbias hreads
  rw [if_neg (by omega), hrun] at hexec
  dsimp only at hexec
  have hcores : ∀ n, u.core n = s.core n := fun n => by rw [State.core, hread.cores]; rfl
  have hkeep := plateBytes_keep u home (cellsOf (1024 * p.base + c.base + x.2) (s.unitBytes c x))
  have hvp : (u.onCore home fun y => y.putPlate (cellsOf (1024 * p.base + c.base + x.2) (s.unitBytes c x)) []).cmdPlate c = some p :=
    (hread.cmdPlate c).trans hp
  have hvhome : (u.onCore home fun y => y.putPlate (cellsOf (1024 * p.base + c.base + x.2) (s.unitBytes c x)) []).plateHome c.party p = home :=
    hread.plateHome c.party p
  have hvside : (u.onCore home fun y => y.putPlate (cellsOf (1024 * p.base + c.base + x.2) (s.unitBytes c x)) []).mem = s.mem ∧
      (u.onCore home fun y => y.putPlate (cellsOf (1024 * p.base + c.base + x.2) (s.unitBytes c x)) []).crews = u.crews :=
    ⟨hread.quiet.mem, rfl⟩
  change exec (.engineCommandComplete core .copy) s = .next (((u.onCore home fun y =>
    y.putPlate (cellsOf (1024 * p.base + c.base + x.2) (s.unitBytes c x)) []).finishCmd c 0 wts c.ivals).onCore core fun y =>
      y.setEngQ .copy ((y.engQ .copy).erase c)) at hexec
  generalize (u.onCore home fun y => y.putPlate (cellsOf (1024 * p.base + c.base + x.2) (s.unitBytes c x)) []) = v at hexec hkeep hvp hvhome hvside
  rw [finishCmd_eq hvp, hvhome] at hexec
  generalize hb : v.setBackOf c p 0 wts c.ivals = b at hexec
  obtain ⟨hmem, hcrews, hagenda, hbacks, hplate, hcopy⟩ := finished_copy v core home c b
  refine ⟨_, hexec, fun a => ?_, fun k => ?_, ?_, hagenda, ⟨b, ?_, ?_, ?_, fun q hev => ?_⟩, fun i pa hi hpa => ?_⟩
  · rw [hmem, hvside.1]
  · rw [State.crew_of_crews hcrews, State.crew_of_crews hvside.2]
    exact hread.crews k
  · rw [hcopy, (hkeep core).2.1, hcores, hq]
    simp
  · rw [hbacks, (hkeep home).1, hcores]
  · rw [← hb]
    rfl
  · rw [← hb]
    rfl
  · refine ⟨⟨coreOfKey c.crew, c.eng, c.party, q, eventItem c 0, wts, v.evNext⟩, ?_, rfl, rfl, ?_⟩
    · rw [← hb, State.setBackOf, hev]
      rfl
    · simp [eventItem, heng, Engine.code]
  · rw [hplate, (hkeep home).2.2]
    exact memGet_unitBytes _ s c x _ hi hpa

/-- Settles O54: each step of the shared objects and the engines by its own lemma; a wake step serves the one crew that waits, a board's
home its one request, and the array and the engines write what their command names. -/
theorem objectsAndEnginesTakeTheirSteps : Obligations.ObjectsAndEnginesTakeTheirSteps := by
  unfold Obligations.ObjectsAndEnginesTakeTheirSteps
  exact ⟨plateStoreArbitration_clause, clusterQueueUpdate_clause, barrierUpdate_clause, sheetPost_clause, sheetReset_clause,
    matrixCommandPerform_clause, batchRetire_clause, acldReadDone_clause, acstWritesDone_clause, copyComplete_clause, collComplete_clause,
    eventRecordPost_clause,
    collectiveCombine_clause⟩

end Sys2Proof.Machine
end


section
/-! PROOFS. The end of a crew (R30, R33): its lanes' tags, its place in its party's barriers, and its party's completion. -/

namespace Sys2Proof.Machine

/-! ## What an ended crew leaves -/

/-- A crew after another has ended: only the tags of its lanes may name the ended one otherwise. -/
theorem leaveBehind_find (s : State) (k j : Nat) :
    ∃ f : Crew → Crew, (∀ c, ∃ ts, f c = { c with tags := ts }) ∧
      Map.find? (s.leaveBehind k).crews j = (Map.find? s.crews j).map f := by
  let tag := fun (t : LaneTag) => if t.crew = k then { t with crew := endedKey k (s.crew k).party } else t
  let f := fun (c : Crew) => if c.tags.isEmpty then c else { c with tags := c.tags.map tag }
  refine ⟨f, fun c => ?_, ?_⟩
  · by_cases h : c.tags.isEmpty
    · exact ⟨c.tags, if_pos h⟩
    · exact ⟨_, if_neg h⟩
  · have hcrews : (s.leaveBehind k).crews = s.crews.map fun x => (x.1, f x.2) := by
      unfold State.leaveBehind
      extract_lets c e re grp arr ari tg t
      have ht : t.crews = s.crews.map fun x => (x.1, f x.2) := by
        refine List.map_congr_left fun x _ => ?_
        show (if x.2.tags.isEmpty then x else (x.1, { x.2 with tags := x.2.tags.map tg })) = (x.1, if x.2.tags.isEmpty then x.2 else _)
        split <;> rfl
      rw [← ht]
      clear_value t
      split <;> rfl
    rw [hcrews]
    exact find_map (fun _ => f) s.crews j

theorem leaveBehind_parts (s : State) (k : Nat) :
    (s.leaveBehind k).mem = s.mem ∧ (s.leaveBehind k).clk = s.clk ∧ (s.leaveBehind k).counters = s.counters ∧
      (s.leaveBehind k).agenda = s.agenda := by
  unfold State.leaveBehind
  extract_lets c e re grp arr ari tg t
  have ht : t.mem = s.mem ∧ t.clk = s.clk ∧ t.counters = s.counters ∧ t.agenda = s.agenda := ⟨rfl, rfl, rfl, rfl⟩
  clear_value t
  split
  · exact ht
  · exact ht

theorem endRetire_only (p : Party) : ∃ b pl, p.endRetire = { p with endB := b, plates := pl } := ⟨_, _, rfl⟩

/-- The ended crew's party: only its plates and the batches of ended crews may change. -/
theorem leaveBehind_party (s : State) (k : Nat) :
    ∃ b pl, (s.leaveBehind k).party (s.crew k).party = { s.party (s.crew k).party with endB := b, plates := pl } := by
  unfold State.leaveBehind
  extract_lets c e re grp arr ari tg t
  have ht : t.party c.party = s.party c.party := rfl
  clear_value t
  split
  · exact ⟨_, _, ht⟩
  · have hput : ∀ q : Party, ((t.onParty c.party fun _ => q).party c.party) = q := fun q => MapLaws.get_put_self _ _ _ _
    obtain ⟨b, pl, hb⟩ := endRetire_only { t.party c.party with endB := (t.party c.party).endB ++ (c.closedB ++ [c.openB]).map fun b => (e, b) }
    exact ⟨b, pl, (hput _).trans (hb.trans (by rw [ht]))⟩

/-! ## The party of an ended crew -/

/-- A party without a crew that has ended: its barriers are as after the crew's `bard`. -/
def Party.without (p : Party) (k num : Nat) (ts : Clocks) : Party :=
  { p with
    bars := p.bars.map fun (b : Nat × Barrier) => if b.2.mask &&& crewBit num ≠ 0 then (b.1, b.2.drop num ts) else b
    stamps := joinStamps p.stamps ts
    crews := p.crews.filter (· != k)
    ended := p.ended + 1 }

/-- A state without a crew, whose core has a free slot from now on. -/
def State.withoutCrew (s : State) (k : Nat) : State :=
  { s with
    crews := Map.erase s.crews k
    runq := s.runq.filter (· != k)
    past := s.past.filter fun p => p.key != k }.onCore (coreOfKey k) fun x => { x with idleSince := s.clk }

/-- The state after the end of a crew, before its party's completion. -/
def State.crewEnded (s : State) (k : Nat) : State :=
  ((s.leaveBehind k).onParty (s.crew k).party fun p => p.without k (s.crew k).num (s.clocksOf k)).withoutCrew k

theorem crewOver_done {s : State} {k : Nat} (h : CrewOver s k) : (s.hasCrew k && s.crewDone k (s.crew k)) = true := by
  have hold : decide ((s.crew k).lastIssue + s.fixOf (s.crew k).ctx ≤ s.clk) = true := decide_eq_true h.old
  have hpush : (s.pushes.any fun p => p.crew == k) = false := by
    rw [List.any_eq_false]
    exact fun p hp => by simpa using h.pushes p hp
  have hplates : ((upFrom (4 * (s.party (s.crew k).party).cluster) 4).any fun n => (s.core n).arrivals.any fun x => x.1 == k) = false := by
    rw [List.any_eq_false]
    intro n _
    rw [Bool.not_eq_true, List.any_eq_false]
    exact fun x hx => by simpa using h.plates n x hx
  unfold State.crewDone Crew.drained
  rw [h.there, h.ended, h.held, h.atoms, hold, hpush, hplates]
  rfl

theorem exec_crewEnd {s : State} {k : Nat} (h : CrewOver s k) :
    exec (.crewEnd k) s = .next (if ((s.crewEnded k).party (s.crew k).party).ended = ((s.crewEnded k).party (s.crew k).party).ncrews
      then (s.crewEnded k).partyComplete (s.crew k).party else s.crewEnded k) := by
  change execCrewEnd k s = _
  unfold execCrewEnd
  dsimp only
  rw [crewOver_done h, h.kind]
  rfl

theorem crewEnded_party (s : State) (k : Nat) :
    ∃ b pl, (s.crewEnded k).party (s.crew k).party =
      { (s.party (s.crew k).party).without k (s.crew k).num (s.clocksOf k) with endB := b, plates := pl } := by
  obtain ⟨b, pl, hp⟩ := leaveBehind_party s k
  refine ⟨b, pl, (MapLaws.get_put_self _ _ _ _).trans ?_⟩
  rw [hp]
  rfl

/-- What the end of a crew leaves as it was. -/
structure CrewGone (s t : State) (k : Nat) : Prop where
  mem : t.mem = s.mem
  gone : t.hasCrew k = false
  others : ∀ j, j ≠ k → t.hasCrew j = s.hasCrew j ∧ { t.crew j with tags := (s.crew j).tags } = s.crew j
  idle : (t.core (coreOfKey k)).idleSince = s.clk

theorem crewEnded_gone (s : State) (k : Nat) : CrewGone s (s.crewEnded k) k := by
  obtain ⟨hmem, hclk, -, -⟩ := leaveBehind_parts s k
  refine ⟨hmem, ?_, fun j hj => ?_, ?_⟩
  · show (Map.find? (Map.erase (s.leaveBehind k).crews k) k).isSome = false
    rw [MapLaws.find_erase_self]
    rfl
  · obtain ⟨f, hf, hfind⟩ := leaveBehind_find s k j
    have hj' : Map.find? (s.crewEnded k).crews j = (Map.find? s.crews j).map f :=
      (MapLaws.find_erase_ne (s.leaveBehind k).crews hj).trans hfind
    have hcrew : (s.crewEnded k).crew j = ((Map.find? s.crews j).map f).getD {} := by
      rw [← hj']
      rfl
    refine ⟨?_, ?_⟩
    · unfold State.hasCrew
      rw [hj', Option.isSome_map]
    · rw [hcrew]
      unfold State.crew Map.get
      cases Map.find? s.crews j with
      | none => rfl
      | some c =>
        obtain ⟨ts, hts⟩ := hf c
        show { f c with tags := c.tags } = c
        rw [hts]
  · show ((s.crewEnded k).core (coreOfKey k)).idleSince = s.clk
    rw [← hclk]
    exact congrArg Core.idleSince (MapLaws.get_put_self _ _ _ _)

theorem freeParty_parts (s : State) (p : Nat) :
    (s.freeParty p).mem = s.mem ∧ (s.freeParty p).crews = s.crews ∧ (s.freeParty p).cores = s.cores ∧
      (s.freeParty p).counters = s.counters ∧ (s.freeParty p).agenda = s.agenda := by
  unfold State.freeParty
  dsimp only
  split <;> exact ⟨rfl, rfl, rfl, rfl, rfl⟩

theorem CrewGone.of_same {s t u : State} {k : Nat} (h : CrewGone s t k) (hmem : u.mem = t.mem) (hcrews : u.crews = t.crews)
    (hcores : u.cores = t.cores) : CrewGone s u k := by
  refine ⟨hmem.trans h.mem, ?_, fun j hj => ?_, ?_⟩
  · unfold State.hasCrew
    rw [hcrews]
    exact h.gone
  · unfold State.hasCrew State.crew
    rw [hcrews]
    exact h.others j hj
  · unfold State.core
    rw [hcores]
    exact h.idle

/-! ## The counter of a party's launch -/

theorem stepCounter_parts (s : State) (n k : Nat) :
    (s.stepCounter n k).mem = s.mem ∧ (s.stepCounter n k).crews = s.crews ∧ (s.stepCounter n k).cores = s.cores := by
  unfold State.stepCounter
  dsimp only
  split
  · exact ⟨rfl, rfl, rfl⟩
  · split <;> exact ⟨rfl, rfl, rfl⟩

theorem stepCounter_one (s : State) (n : Nat) :
    (s.stepCounter n 1).counter n = { s.counter n with count := (s.counter n).count + 1 } ∧
      ((s.counter n).count + 1 = (s.counter n).endv → (s.counter n).done = false → Instr.instanceComplete n ∈ (s.stepCounter n 1).agenda) := by
  unfold State.stepCounter
  rw [if_neg (by decide)]
  extract_lets c count u
  have hu : u.counter n = { s.counter n with count := (s.counter n).count + 1 } := MapLaws.get_put_self _ _ _ _
  refine ⟨?_, fun hend hdone => ?_⟩
  · split
    · exact hu
    · exact hu
  · rw [if_pos ⟨hend, hdone⟩]
    exact List.mem_append_right _ (List.mem_singleton.mpr rfl)

theorem stepCounter_other (s : State) {n m : Nat} (k : Nat) (h : m ≠ n) : (s.stepCounter n k).counter m = s.counter m := by
  unfold State.stepCounter
  dsimp only
  have hu : (s.onCounter n fun c => { c with count := (s.counter n).count + BitVec.ofNat 24 k }).counter m = s.counter m :=
    MapLaws.get_put_ne _ _ _ h
  split
  · rfl
  · split
    · exact hu
    · exact hu

/-- The completion of a party whose launch is not retained: its counter takes a step. -/
theorem partyComplete_steps (s : State) (p : Nat) (h : (s.party p).packet.getLsbD 6 = false) :
    let t := s.partyComplete p
    let n := (s.party p).lctr
    t.mem = s.mem ∧ t.crews = s.crews ∧ t.cores = s.cores ∧ (t.counter n).count = (s.counter n).count + 1 ∧
      ((s.counter n).count + 1 = (s.counter n).endv → (s.counter n).done = false → Instr.instanceComplete n ∈ t.agenda) := by
  unfold State.partyComplete
  extract_lets x s1 s2 t n
  have h1 : s1 = s := if_neg (by rw [show bit x.packet 6 = x.packet.getLsbD 6 from rfl, h]; exact Bool.false_ne_true)
  have hcount : s2.counter n = { s.counter n with stamps := joinStamps (s.counter n).stamps x.stamps } :=
    (MapLaws.get_put_self _ _ _ _).trans (by rw [h1])
  obtain ⟨hmem, hcrews, hcores⟩ := stepCounter_parts s2 n 1
  obtain ⟨hn, hevent⟩ := stepCounter_one s2 n
  obtain ⟨fmem, fcrews, fcores, fcounters, fagenda⟩ := freeParty_parts (s2.stepCounter n 1) p
  have hs2 : s2.mem = s.mem ∧ s2.crews = s.crews ∧ s2.cores = s.cores := 
    ⟨(congrArg State.mem h1 :), (congrArg State.crews h1 :), (congrArg State.cores h1 :)⟩
  rw [hcount] at hn hevent
  refine ⟨(fmem.trans hmem).trans hs2.1, (fcrews.trans hcrews).trans hs2.2.1, (fcores.trans hcores).trans hs2.2.2, ?_, fun hend hdone => ?_⟩
  · have ht : t.counter n = (s2.stepCounter n 1).counter n := congrArg (fun m : Map Counter => Map.get ({} : Counter) m n) fcounters
    rw [ht, hn]
  · exact fagenda ▸ hevent hend hdone

/-! ## The clause -/

theorem crewBit_eq (n : Nat) : crewBit n = (1 : W64) <<< n := by
  refine BitVec.eq_of_toNat_eq ?_
  rw [BitVec.toNat_shiftLeft]
  rfl

theorem drop_arrived (b : Barrier) (num : Nat) (ts : Clocks) {a : W64} {as : List W64} (h : b.arrived = a :: as) :
    (b.drop num ts).arrived = (a ||| (1 : W64) <<< num) :: as := by
  rw [← crewBit_eq]
  show updAt (· ||| crewBit num) 0 b.arrived = _
  rw [h]
  rfl

theorem crewBit_masked {m : W64} {n : Nat} (h : m.getLsbD n = true) : m &&& crewBit n ≠ 0 := by
  have hn : n < 64 := BitVec.lt_of_getLsbD h
  have hbit : (crewBit n).getLsbD n = true := by
    rw [crewBit_eq, BitVec.getLsbD_shiftLeft, Nat.sub_self]
    simp [hn]
  intro h0
  have hand := congrArg (fun x => x.getLsbD n) h0
  simp [h, hbit] at hand

theorem crewEnd_clause (s : State) (k : Nat) (h : CrewOver s k)
    (hp : (s.party (s.crew k).party).ended + 1 < (s.party (s.crew k).party).ncrews ∨
      ((s.party (s.crew k).party).ended + 1 = (s.party (s.crew k).party).ncrews ∧ (s.party (s.crew k).party).packet.getLsbD 6 = false)) :
    let c := s.crew k
    let p := s.party c.party
    ∃ t, exec (.crewEnd k) s = .next t ∧ t.mem = s.mem ∧ t.hasCrew k = false ∧
      (∀ j, j ≠ k → t.hasCrew j = s.hasCrew j ∧ { t.crew j with tags := (s.crew j).tags } = s.crew j) ∧
      (t.core (coreOfKey k)).idleSince = s.clk ∧
      (p.ended + 1 < p.ncrews → (t.party c.party).ended = p.ended + 1 ∧ k ∉ (t.party c.party).crews ∧
        ∀ n b a as, Map.find? p.bars n = some b → b.mask.getLsbD c.num = true → b.arrived = a :: as →
          ∃ b', Map.find? (t.party c.party).bars n = some b' ∧ b'.mask = b.mask &&& ~~~((1 : W64) <<< c.num) ∧
            b'.arrived = (a ||| ((1 : W64) <<< c.num)) :: as) ∧
      (p.ended + 1 = p.ncrews → (t.counter p.lctr).count = (s.counter p.lctr).count + 1 ∧
        ((s.counter p.lctr).count + 1 = (s.counter p.lctr).endv → (s.counter p.lctr).done = false →
          Instr.instanceComplete p.lctr ∈ t.agenda)) := by
  intro c p
  obtain ⟨b, pl, hparty⟩ := crewEnded_party s k
  obtain ⟨-, -, hcounters, hagenda⟩ := leaveBehind_parts s k
  have hgone := crewEnded_gone s k
  have hexec := exec_crewEnd h
  have hcounter : (s.crewEnded k).counter p.lctr = s.counter p.lctr := congrArg (fun m : Map Counter => Map.get ({} : Counter) m p.lctr) hcounters
  have hcond : (((s.crewEnded k).party c.party).ended = ((s.crewEnded k).party c.party).ncrews) = (p.ended + 1 = p.ncrews) := by
    rw [hparty]
    rfl
  generalize s.crewEnded k = u at hparty hgone hexec hcounter hcond
  by_cases hlast : p.ended + 1 = p.ncrews
  · rw [if_pos (hcond.mpr hlast)] at hexec
    have hbit : (u.party c.party).packet.getLsbD 6 = false := by
      rw [hparty]
      exact hp.elim (fun hlt => absurd hlast (Nat.ne_of_lt hlt)) (·.2)
    have hl : (u.party c.party).lctr = p.lctr := by
      rw [hparty]
      rfl
    obtain ⟨hmem, hcrews, hcores, hcount, hevent⟩ := partyComplete_steps u c.party hbit
    rw [hl, hcounter] at hcount hevent
    have hall := hgone.of_same hmem hcrews hcores
    exact ⟨_, hexec, hall.mem, hall.gone, hall.others, hall.idle, fun hlt => absurd hlast (Nat.ne_of_lt hlt), fun _ => ⟨hcount, hevent⟩⟩
  · rw [if_neg (fun hc => hlast (hcond.mp hc))] at hexec
    refine ⟨_, hexec, hgone.mem, hgone.gone, hgone.others, hgone.idle, fun _ => ?_, fun hl => absurd hl hlast⟩
    rw [hparty]
    refine ⟨rfl, fun hk => ?_, fun n b a as hb hmask harr => ⟨b.drop c.num (s.clocksOf k), ?_, by rw [← crewBit_eq]; rfl, drop_arrived b c.num _ harr⟩⟩
    · exact absurd (List.mem_filter.mp hk).2 (by simp)
    · let f := fun (_ : Nat) (b : Barrier) => if b.mask &&& crewBit c.num ≠ 0 then b.drop c.num (s.clocksOf k) else b
      have hbars : (p.without k c.num (s.clocksOf k)).bars = p.bars.map fun x => (x.1, f x.1 x.2) := by
        refine List.map_congr_left fun x _ => ?_
        show (if x.2.mask &&& crewBit c.num ≠ 0 then (x.1, x.2.drop c.num (s.clocksOf k)) else x) = (x.1, if _ then _ else x.2)
        split <;> rfl
      show Map.find? (p.without k c.num (s.clocksOf k)).bars n = _
      rw [hbars, find_map f, hb]
      exact congrArg some (if_pos (crewBit_masked hmask))

end Sys2Proof.Machine
end


section
/-! PROOFS. Handler crews (R39, R325): which lanes form one, and what it starts with. -/

namespace Sys2Proof.Machine

/-! ## The rows of a handler crew -/

theorem tagRow_at {ts : List LaneTag} {l : Nat} {x : LaneTag} (hl : l < 32) (hx : ts[l]? = some x) (f : LaneTag → Nat) :
    (tagRow ts f).at_ l = BitVec.ofNat 32 (f x) := by
  unfold tagRow
  rw [mkRow_at _ hl, hx]

/-- The word that two rows of a lane's halves hold. -/
theorem halves_append (w : W64) : BitVec.ofNat 32 (w.toNat / 2 ^ 32) ++ BitVec.ofNat 32 (w.toNat % 2 ^ 32) = w := by
  refine BitVec.eq_of_toNat_eq ?_
  rw [toNat_append, BitVec.toNat_ofNat, BitVec.toNat_ofNat]
  have := w.isLt
  omega

/-- The handler crew of some lanes of a launch. -/
def State.handlerOf (s : State) (t : LaneTag) (ts : List LaneTag) : Crew :=
  let o := s.crew t.crew
  let live : W32 := maskOf fun l => decide (l < ts.length)
  { kind := .handler, party := o.party, ctx := o.ctx, lctr := o.lctr, check := o.check, throt := false, alloc := 256
    s := [(1, bf (s.party o.party).packet 128 64), (2, BitVec.ofNat 64 ts.length)], v := tagV ts, live, active := live
    pend := (List.range ts.length).map fun l => (l, (Map.get {} s.trapCfg o.ctx).lhentry)
    tags := ts, readyAt := s.clk + 1 }

theorem formHandler_eq (s : State) (core slot : Nat) {t : LaneTag} {ts : List LaneTag} (h : ts.head? = some t) :
    s.formHandler core slot ts =
      (s.onCore core fun x => { x with laneWait := x.laneWait.filter fun y => !ts.contains y }).putCrew (crewKey core slot) (s.handlerOf t ts) := by
  cases ts with
  | nil => cases h
  | cons x xs =>
    cases h
    rfl

theorem handlerOf_row (s : State) (t : LaneTag) (ts : List LaneTag) {n : Nat} (hn : n < 256) :
    (s.handlerOf t ts).row n = (Map.get ⟨0, false, zeroRow⟩ (tagV ts) n).row := by
  have hslot : (s.handlerOf t ts).slot n = n := by
    show (0 + n) % 256 = n
    omega
  unfold Crew.row Map.get
  rw [hslot]
  show (match Map.find? (tagV ts) n with | some x => x.row | none => zeroRow) = _
  cases Map.find? (tagV ts) n <;> rfl

theorem handlerOf_vpl (s : State) (t : LaneTag) {ts : List LaneTag} {l : Nat} {x : LaneTag} (hl : l < 32) (hx : ts[l]? = some x) {n : Nat}
    (hn : n < 255) {f : LaneTag → W64} (hlo : (Map.get ⟨0, false, zeroRow⟩ (tagV ts) n).row = tagRow ts fun t => (f t).toNat % 2 ^ 32)
    (hhi : (Map.get ⟨0, false, zeroRow⟩ (tagV ts) (n + 1)).row = tagRow ts fun t => (f t).toNat / 2 ^ 32) :
    (s.handlerOf t ts).vpl n l = f x := by
  unfold Crew.vpl Crew.vl
  rw [handlerOf_row s t ts (by omega), handlerOf_row s t ts (by omega), hlo, hhi, tagRow_at hl hx, tagRow_at hl hx]
  exact halves_append _

theorem find_pend (n : Nat) (e : W64) {l : Nat} (h : l < n) : Map.find? ((List.range n).map fun l => (l, e)) l = some e := by
  refine find_of_mem_nodup ?_ (List.mem_map.mpr ⟨l, List.mem_range.mpr h, rfl⟩)
  rw [List.map_map]
  exact (List.map_id _).symm ▸ List.nodup_range

theorem formHandler_formed {s : State} {core : Nat} {ts : List LaneTag} {t0 : LaneTag} (h : LanesWait s core ts t0) :
    Map.find? (s.formHandler core 96 ts).crews (crewKey core 96) = some (s.handlerOf t0 ts) ∧
      HandlerFormed s (s.formHandler core 96 ts) core ts (s.crew t0.crew) (s.handlerOf t0 ts) := by
  rw [formHandler_eq s core 96 h.first]
  refine ⟨MapLaws.find_put_self _ _ _, ?_⟩
  have hmask : ∀ l, l < 32 → (maskOf fun l => decide (l < ts.length)).getLsbD l = decide (l < ts.length) := fun l hl => by
    rw [maskOf, BitVec.getLsbD_ofFnLE, dif_pos hl]
  exact {
    mem := fun _ => rfl
    others := fun k hk => MapLaws.find_put_ne _ _ hk
    waits := by
      rw [State.putCrew_core, State.onCore_core_self, h.all]
      refine List.filter_eq_nil_iff.mpr fun y hy => ?_
      simp [hy]
    kind := rfl
    user := rfl
    ctx := rfl
    tags := rfl
    live := hmask
    active := rfl
    pend := fun l hl => find_pend ts.length _ hl
    count := rfl
    regs := fun l x hl hx =>
      ⟨handlerOf_vpl s t0 hl hx (by decide) rfl rfl, handlerOf_vpl s t0 hl hx (by decide) rfl rfl, handlerOf_vpl s t0 hl hx (by decide) rfl rfl,
        handlerOf_vpl s t0 hl hx (by decide) rfl rfl, handlerOf_vpl s t0 hl hx (by decide) rfl rfl⟩ }

/-! ## The lanes that wait -/

section
variable {s : State} {core : Nat} {ts : List LaneTag} {t0 : LaneTag} (h : LanesWait s core ts t0)
include h

theorem LanesWait.waits : s.laneWaits core = ts := by
  unfold State.laneWaits
  rw [h.all, List.filter_eq_self]
  exact fun x hx => decide_eq_true (h.old x hx)

theorem LanesWait.handlerSlot : s.handlerSlot core = some 96 := by
  unfold State.handlerSlot
  rw [List.find?_cons, h.slot]
  rfl

theorem LanesWait.sameLaunch {t : LaneTag} (ht : t ∈ ts) : (ts.filter fun u => u.lctr == t.lctr) = ts := by
  rw [List.filter_eq_self]
  exact fun x hx => by rw [h.one x hx, h.one t ht]; exact beq_self_eq_true _

theorem LanesWait.formed (sel : LaneTag → Bool) {t : LaneTag} (ht : t ∈ ts) (hsel : sel t = true) :
    ∃ u, ts.find? sel = some u ∧ (ts.filter fun x => x.lctr == u.lctr).take 32 = ts := by
  obtain ⟨u, hu⟩ := Option.isSome_iff_exists.mp (List.find?_isSome.mpr ⟨t, ht, hsel⟩)
  refine ⟨u, hu, ?_⟩
  rw [h.sameLaunch (List.mem_of_find?_eq_some hu)]
  exact List.take_of_length_le h.most

theorem handlerCrewForm_full (hfull : ts.length = 32) : exec (.handlerCrewForm core) s = .next (s.formHandler core 96 ts) := by
  change execHandlerCrewForm core s = _
  unfold execHandlerCrewForm
  dsimp only
  have ht0 : t0 ∈ ts := List.mem_of_head? h.first
  obtain ⟨u, hu, htake⟩ := h.formed (fun t => decide (32 ≤ (ts.filter fun u => u.lctr == t.lctr).length)) ht0
    (by rw [h.sameLaunch ht0, hfull]; rfl)
  rw [h.handlerSlot, h.waits, hu]
  dsimp only
  rw [htake]

theorem handlerCrewForm_few (hfew : ts.length < 32) : exec (.handlerCrewForm core) s = .next s := by
  change execHandlerCrewForm core s = _
  unfold execHandlerCrewForm
  dsimp only
  have hnone : (ts.find? fun t => decide (32 ≤ (ts.filter fun u => u.lctr == t.lctr).length)) = none := by
    rw [List.find?_eq_none]
    intro t ht
    rw [h.sameLaunch ht, decide_eq_true_eq]
    omega
  rw [h.handlerSlot, h.waits, hnone]

theorem handlerFormTimeout_due {x : LaneTag} (hx : x ∈ ts) (hdue : x.since + 256 ≤ s.clk) :
    exec (.handlerFormTimeout core) s = .next (s.formHandler core 96 ts) := by
  change execHandlerFormTimeout core s = _
  unfold execHandlerFormTimeout
  dsimp only
  obtain ⟨u, hu, htake⟩ := h.formed (fun t => decide (t.since + 256 ≤ s.clk)) hx (decide_eq_true hdue)
  rw [h.handlerSlot, h.waits, hu]
  dsimp only
  rw [htake]

theorem handlerForm_clause :
    (ts.length = 32 → ∃ t c, exec (.handlerCrewForm core) s = .next t ∧ Map.find? t.crews (crewKey core 96) = some c ∧
      HandlerFormed s t core ts (s.crew t0.crew) c) ∧
    (ts.length < 32 → ∃ t, exec (.handlerCrewForm core) s = .next t ∧ t = s) ∧
    ((∃ x ∈ ts, x.since + 256 ≤ s.clk) → ∃ t c, exec (.handlerFormTimeout core) s = .next t ∧
      Map.find? t.crews (crewKey core 96) = some c ∧ HandlerFormed s t core ts (s.crew t0.crew) c) := by
  have hformed := formHandler_formed h
  exact ⟨fun hfull => ⟨_, _, handlerCrewForm_full h hfull, hformed⟩, fun hfew => ⟨s, handlerCrewForm_few h hfew, rfl⟩,
    fun ⟨_, hx, hdue⟩ => ⟨_, _, handlerFormTimeout_due h hx hdue, hformed⟩⟩

end

end Sys2Proof.Machine
end


section
/-! PROOFS. The fields of a trap frame (R321), and the end of a service change (R254). -/

namespace Sys2Proof.Machine

/-! ## A frame's fields -/

/-- A field of a number is what stands at its place when all that is below it fits under the place. -/
theorem fld_at {low x high lo n : Nat} (hlow : low < 2 ^ lo) (hx : x < 2 ^ n) :
    fld (low + x * 2 ^ lo + high * 2 ^ (lo + n)) lo n = x := by
  unfold fld
  have hsum : low + x * 2 ^ lo + high * 2 ^ (lo + n) = low + (x + high * 2 ^ n) * 2 ^ lo := by
    rw [Nat.pow_add]
    ring
  rw [hsum, Nat.add_mul_div_right _ _ (Nat.two_pow_pos lo), Nat.div_eq_of_lt hlow, Nat.zero_add, Nat.add_mul_mod_self_right, Nat.mod_eq_of_lt hx]

/-- Fields, each a width and a value, laid one above the other from a bit on. -/
def packed : Nat → List (Nat × Nat) → Nat
  | _, [] => 0
  | lo, (n, x) :: fs => x * 2 ^ lo + packed (lo + n) fs

/-- The bit at which the field after some stands. -/
def packedTo : Nat → List (Nat × Nat) → Nat
  | lo, [] => lo
  | lo, (n, _) :: fs => packedTo (lo + n) fs

theorem packed_above (lo : Nat) (fs : List (Nat × Nat)) : ∃ h, packed lo fs = h * 2 ^ lo := by
  induction fs generalizing lo with
  | nil => exact ⟨0, (Nat.zero_mul _).symm⟩
  | cons f fs ih =>
    obtain ⟨n, x⟩ := f
    obtain ⟨h, hh⟩ := ih (lo + n)
    refine ⟨x + h * 2 ^ n, ?_⟩
    show x * 2 ^ lo + packed (lo + n) fs = _
    rw [hh, Nat.pow_add]
    ring

theorem fld_packed (below : List (Nat × Nat)) {n x : Nat} (above : List (Nat × Nat)) (hx : x < 2 ^ n) :
    ∀ (lo low : Nat), low < 2 ^ lo → (∀ f ∈ below, f.2 < 2 ^ f.1) →
      fld (low + packed lo (below ++ (n, x) :: above)) (packedTo lo below) n = x := by
  induction below with
  | nil =>
    intro lo low hlow _
    obtain ⟨h, hh⟩ := packed_above (lo + n) above
    show fld (low + (x * 2 ^ lo + packed (lo + n) above)) lo n = x
    rw [hh, ← Nat.add_assoc]
    exact fld_at hlow hx
  | cons f fs ih =>
    intro lo low hlow hfits
    obtain ⟨m, y⟩ := f
    have hy : y < 2 ^ m := hfits (m, y) List.mem_cons_self
    show fld (low + (y * 2 ^ lo + packed (lo + m) (fs ++ (n, x) :: above))) (packedTo (lo + m) fs) n = x
    rw [← Nat.add_assoc]
    refine ih (lo + m) _ ?_ fun f hf => hfits f (List.mem_cons_of_mem _ hf)
    have : (y + 1) * 2 ^ lo ≤ 2 ^ m * 2 ^ lo := Nat.mul_le_mul_right _ hy
    rw [Nat.add_mul, Nat.one_mul] at this
    rw [Nat.pow_add, Nat.mul_comm (2 ^ lo)]
    omega

theorem fld_packed_bare (lo : Nat) {below : List (Nat × Nat)} {n x : Nat} (above : List (Nat × Nat)) (hx : x < 2 ^ n)
    (h : ∀ f ∈ below, f.2 < 2 ^ f.1) : fld (packed lo (below ++ (n, x) :: above)) (packedTo lo below) n = x := by
  have hfld := fld_packed below above hx lo 0 (Nat.two_pow_pos lo) h
  rwa [Nat.zero_add] at hfld

/-- The fields of a frame from bit 552 on, with the bits of no field as fields of 0. -/
def State.frameFields (s : State) (k : Nat) (r : TrapRec) : List (Nat × Nat) :=
  let c := s.crew k
  [(64, r.word.toNat), (4, 0), (7, slotOfKey k), (9, s.logCore c.ctx (coreOfKey k)), (12, s.local_ 4096 c.lctr % 4096),
    (32, r.lanes.toNat), (64, r.detail1.toNat), (64, r.detail0.toNat), (64, (c.spill - 0x40180).toNat), (32, c.live.toNat),
    (32, c.active.toNat), (2, 0), (1, c.priv.toNat), (1, r.perf.toNat), (4, 0), (8, r.cause % 256), (8, r.widx % 256), (64, r.pc.toNat)]

theorem frameNat_packed (s : State) (k : Nat) (r : TrapRec) : s.frameNat k r = packed 552 (s.frameFields k r) := by
  unfold State.frameNat State.frameFields
  simp only [packed]
  omega

theorem frameFields_fit (s : State) (k : Nat) (r : TrapRec) (hcore : s.logCore (s.crew k).ctx (coreOfKey k) < 512) :
    ∀ f ∈ s.frameFields k r, f.2 < 2 ^ f.1 := by
  have hslot : slotOfKey k < 2 ^ 7 := Nat.mod_lt _ (by decide)
  have hlctr : s.local_ 4096 (s.crew k).lctr % 4096 < 2 ^ 12 := Nat.mod_lt _ (by decide)
  have hcause : r.cause % 256 < 2 ^ 8 := Nat.mod_lt _ (by decide)
  have hwidx : r.widx % 256 < 2 ^ 8 := Nat.mod_lt _ (by decide)
  unfold State.frameFields
  simp only [List.forall_mem_cons]
  exact ⟨r.word.isLt, Nat.two_pow_pos _, hslot, hcore, hlctr, r.lanes.isLt, r.detail1.isLt, r.detail0.isLt, BitVec.isLt _,
    BitVec.isLt _, BitVec.isLt _, Nat.two_pow_pos _, Bool.toNat_lt _, Bool.toNat_lt _, Nat.two_pow_pos _, hcause, hwidx, r.pc.isLt, nofun⟩

theorem fld_frame (s : State) (k : Nat) (r : TrapRec) (hcore : s.logCore (s.crew k).ctx (coreOfKey k) < 512) (i : Nat) {n x : Nat}
    (h : (s.frameFields k r)[i]? = some (n, x)) : fld (s.frameNat k r) (packedTo 552 ((s.frameFields k r).take i)) n = x := by
  have hfit := frameFields_fit s k r hcore
  obtain ⟨hi, hget⟩ := List.getElem?_eq_some_iff.mp h
  have hsplit : s.frameFields k r = (s.frameFields k r).take i ++ (n, x) :: (s.frameFields k r).drop (i + 1) := by
    rw [← hget, ← List.drop_eq_getElem_cons hi, List.take_append_drop]
  have hx : x < 2 ^ n := hfit (n, x) (List.mem_of_getElem? h)
  have hfld := fld_packed_bare 552 (below := (s.frameFields k r).take i) ((s.frameFields k r).drop (i + 1)) hx fun f hf => hfit f (List.mem_of_mem_take hf)
  rwa [← hsplit, ← frameNat_packed] at hfld

theorem frameNat_fields (s : State) (k : Nat) (r : TrapRec) (hcore : s.logCore (s.crew k).ctx (coreOfKey k) < 512) :
    let c := s.crew k
    let f := s.frameNat k r
    fld f 960 64 = r.pc.toNat ∧ fld f 952 8 = r.widx % 256 ∧ fld f 944 8 = r.cause % 256 ∧ fld f 940 4 = 0 ∧
      fld f 939 1 = r.perf.toNat ∧ fld f 938 1 = c.priv.toNat ∧ fld f 904 32 = c.active.toNat ∧ fld f 872 32 = c.live.toNat ∧
      fld f 808 64 = (c.spill - 0x40180).toNat ∧ fld f 744 64 = r.detail0.toNat ∧ fld f 680 64 = r.detail1.toNat ∧
      fld f 648 32 = r.lanes.toNat ∧ fld f 620 7 = slotOfKey k ∧ fld f 627 9 = s.logCore c.ctx (coreOfKey k) ∧
      fld f 552 64 = r.word.toNat :=
  have at_ := fld_frame s k r hcore
  ⟨at_ 17 rfl, at_ 16 rfl, at_ 15 rfl, at_ 14 rfl, at_ 13 rfl, at_ 12 rfl, at_ 10 rfl, at_ 9 rfl, at_ 8 rfl, at_ 7 rfl, at_ 6 rfl,
    at_ 5 rfl, at_ 2 rfl, at_ 3 rfl, at_ 0 rfl⟩

/-! ## Service changes -/

/-- The slots of a service request that every service crew has applied. -/
def SvcReq.applied (r : SvcReq) (svc : Map SvcSlot) : Map SvcSlot :=
  match r.install with
  | some x => Map.put svc r.slot x
  | none => if r.remove then Map.erase svc r.slot else svc

theorem applied_slot (r : SvcReq) (svc : Map SvcSlot) :
    Map.find? (r.applied svc) r.slot = match r.install with
      | some x => some x
      | none => if r.remove then none else Map.find? svc r.slot := by
  unfold SvcReq.applied
  cases r.install with
  | some x => exact MapLaws.find_put_self _ _ _
  | none =>
    cases r.remove with
    | true => exact MapLaws.find_erase_self _ _
    | false => rfl

theorem applied_other (r : SvcReq) (svc : Map SvcSlot) {n : Nat} (h : n ≠ r.slot) : Map.find? (r.applied svc) n = Map.find? svc n := by
  unfold SvcReq.applied
  cases r.install with
  | some x => exact MapLaws.find_put_ne _ _ h
  | none =>
    cases r.remove with
    | true => exact MapLaws.find_erase_ne _ h
    | false => rfl

theorem exec_svccfgDone {s : State} {k : Nat} {sd : SReg} {r : SvcReq} (hreqs : s.svcReqs = [r]) (hk : r.crew = k)
    (hphase : (s.crew k).phase = .waiting (.service sd)) :
    exec (.svccfgDone k) s = .next ({ s with svc := r.applied s.svc, svcReqs := [] }.wakeNext k fun c => c.setS sd r.result) := by
  change Host.Outcome.next (s.svcDone k) = _
  unfold State.svcDone
  have hfind : (s.svcReqs.find? fun r => r.crew == k) = some r := by
    rw [hreqs, List.find?_cons, hk, beq_self_eq_true]
  have hrest : (s.svcReqs.filter fun x => x.crew != k) = [] := by
    rw [hreqs, List.filter_cons, hk, bne_self_eq_false]
    rfl
  rw [hfind]
  dsimp only
  rw [hrest]
  have hphase' : ({ s with svc := r.applied s.svc, svcReqs := [] }.crew k).phase = .waiting (.service sd) := hphase
  show Host.Outcome.next (match ({ s with svc := r.applied s.svc, svcReqs := [] }.crew k).phase with
    | .waiting (.service sd) => _ | _ => _) = _
  rw [hphase']
  rfl

theorem svccfgDone_clause (s : State) (k : Nat) (sd : SReg) (r : SvcReq) (hreqs : s.svcReqs = [r]) (hk : r.crew = k)
    (hphase : (s.crew k).phase = .waiting (.service sd)) :
    ∃ t, exec (.svccfgDone k) s = .next t ∧ OnlyCrew s t k ∧ t.svcReqs = [] ∧
      Map.find? t.svc r.slot = (match r.install with
        | some x => some x
        | none => if r.remove then none else Map.find? s.svc r.slot) ∧
      (∀ n, n ≠ r.slot → Map.find? t.svc n = Map.find? s.svc n) ∧
      t.crew k = { (s.crew k).goesOn s.clk with s := (t.crew k).s } ∧
      (∀ x, x ≠ sd → (t.crew k).sv x = (s.crew k).sv x) ∧ (t.crew k).sv sd = if sd = 0 then 0 else r.result := by
  have hexec := exec_svccfgDone hreqs hk hphase
  generalize hu : { s with svc := r.applied s.svc, svcReqs := [] } = u at hexec
  have hmem : u.mem = s.mem := by rw [← hu]
  have hcrews : u.crews = s.crews := by rw [← hu]
  have hsvc : u.svc = r.applied s.svc := by rw [← hu]
  have hreqs' : u.svcReqs = [] := by rw [← hu]
  have hclk : u.clk = s.clk := by rw [← hu]
  have hcrew := State.wakeNext_crew u k fun c => c.setS sd r.result
  rw [State.crew_of_crews hcrews k, hclk] at hcrew
  refine ⟨_, hexec, (OnlyCrew.of_same hmem hcrews).trans (State.wakeNext_only u k _), hreqs', ?_, fun n hn => ?_, ?_, fun x hx => ?_, ?_⟩
  · exact (congrArg (Map.find? · r.slot) hsvc).trans (applied_slot r s.svc)
  · exact (congrArg (Map.find? · n) hsvc).trans (applied_other r s.svc hn)
  · rw [hcrew]
    unfold Crew.setS
    split <;> rfl
  · rw [hcrew]
    exact (s.crew k).sv_setS_ne r.result hx
  · rw [hcrew]
    exact (s.crew k).sv_setS_self sd r.result

end Sys2Proof.Machine
end


section
/-! PROOFS. Strike reports (R329): a crew's replay inside the fix window, its trap after it. -/

namespace Sys2Proof.Machine

/-! ## Replays -/

/-- The oldest instruction of a crew that is still inside the fix window. -/
def State.replayPoint (s : State) (k : Nat) (fix : Nat) : Option Past := s.past.find? fun p => p.key == k && s.clk < p.at_ + fix

theorem rewind_parts (s : State) (k core : Nat) (p : Past) :
    (s.rewind k p).reports = s.reports ∧ (s.rewind k p).runq = s.runq ∧ ((s.rewind k p).core core).cnt = (s.core core).cnt := by
  refine ⟨rfl, rfl, ?_⟩
  exact onCore_keeps (fun c => c.cnt) _ (coreOfKey k) (f := fun x => { x with
    laneWait := x.laneWait.filter fun t => !(t.crew == k && p.at_ ≤ t.since)
    window := x.window.filter fun r => !(r.crew == k && p.at_ ≤ r.at_) }) (fun _ => rfl) core

theorem rewind_only (s : State) (k : Nat) (p : Past) :
    OnlyCrew s (s.rewind k p) k ∧ (s.rewind k p).crew k = (s.crew k).replayFrom p.crew s.clk :=
  ⟨⟨fun _ => rfl, fun _ hj => MapLaws.find_put_ne _ _ hj⟩, State.putCrew_crew_self _ _ _⟩

/-- What a replay of a crew leaves as it was. -/
structure Replayed (s t : State) (k core : Nat) : Prop where
  only : OnlyCrew s t k
  reports : t.reports = s.reports
  runq : t.runq = s.runq
  cnt : (t.core core).cnt = (s.core core).cnt

theorem replay_replayed (s : State) (k core : Nat) : Replayed s (s.replay k) k core := by
  unfold State.replay
  split
  · exact ⟨OnlyCrew.of_same rfl rfl, rfl, rfl, rfl⟩
  · next p _ =>
    obtain ⟨hreports, hrunq, hcnt⟩ := rewind_parts s k core p
    exact ⟨(rewind_only s k p).1.trans (State.onCrew_only _ k _), hreports, hrunq, hcnt⟩

theorem replay_crew (s : State) (k : Nat) :
    (s.replay k).crew k = match s.replayPoint k (s.fixOf (s.crew k).ctx) with
      | none => s.crew k
      | some p => { (s.crew k).replayFrom p.crew s.clk with replayed := true } := by
  have hpoint : (s.past.find? fun p => p.key == k && s.clk < p.at_ + s.fixOf (s.crew k).ctx) = s.replayPoint k (s.fixOf (s.crew k).ctx) := rfl
  unfold State.replay
  rw [hpoint]
  cases s.replayPoint k (s.fixOf (s.crew k).ctx) with
  | none => rfl
  | some p => exact (State.onCrew_crew_self _ k _).trans (congrArg (fun c : Crew => { c with replayed := true }) (rewind_only s k p).2)

theorem replayFrom_held {now snap : Crew} {clk : Nat} {h : Held} (hh : h ∈ (now.replayFrom snap clk).held) :
    h ∈ now.held ∧ ∃ x ∈ snap.held, x.at_ = h.at_ := by
  obtain ⟨x, hx, hfind⟩ := List.mem_filterMap.mp hh
  have hat := List.find?_some hfind
  rw [Bool.and_eq_true, beq_iff_eq] at hat
  exact ⟨List.mem_of_find?_eq_some hfind, x, hx, hat.1.symm⟩

/-! ## Reports -/

/-- The state that a strike report inside the fix window leaves, once its core's crews are replayed. -/
def State.strikeSeen (s : State) (core : Nat) : State :=
  let s := s.onCnt core fun n => { n with strikes := satInc n.strikes }
  { s with replays := s.replays + 1, runq := s.runq.filter fun k => coreOfKey k != core }.report
    { src := 1, agent := dieOfCore core, core }

/-- The state that a late strike report leaves, once its core's crews are trapped. -/
def State.strikeLate (s : State) (core : Nat) : State :=
  let s := s.onCnt core fun n => { n with late := satInc n.late }
  (s.report { src := 2, detail := 7, agent := dieOfCore core, core }).report
    { src := 6, detail := 7, agent := dieOfCore core, core, ctx := 0xFFFF }

theorem onCnt_cnt (s : State) (core : Nat) (f : CoreCnt → CoreCnt) : ((s.onCnt core f).core core).cnt = f (s.core core).cnt := by
  unfold State.onCnt
  rw [State.onCore_core_self]

theorem strikeSeen_cnt (s : State) (core : Nat) :
    ((s.strikeSeen core).core core).cnt = { (s.core core).cnt with strikes := satInc (s.core core).cnt.strikes } :=
  onCnt_cnt s core fun n => { n with strikes := satInc n.strikes }

theorem strikeLate_cnt (s : State) (core : Nat) :
    ((s.strikeLate core).core core).cnt = { (s.core core).cnt with late := satInc (s.core core).cnt.late } :=
  onCnt_cnt s core fun n => { n with late := satInc n.late }

/-- The trap of a crew whose result a strike may have reached. -/
def Crew.struck (c : Crew) : TrapRec :=
  match c.trap with
  | some r => { r with cause := 0x07, detail0 := 7, detail1 := 0, lanes := 0 }
  | none => { cause := 0x07, detail0 := 7, pc := c.pc, widx := c.widx, word := c.word }

section
variable {s : State} {core at_ k : Nat} {c : Crew}

theorem exec_strikeReport_off (h : s.strike.en = false) : exec (.strikeReport core at_) s = .next s := by
  change execStrikeReport core at_ s = _
  unfold execStrikeReport
  rw [h]
  rfl

theorem strike_fix (halone : s.coreCrews core = [(k, c)]) (hfix : (s.ctx c.ctx).fix.toNat ≤ 48) :
    (s.coreCrews core).foldl (fun m kc => min m (s.fixOf kc.2.ctx)) 48 = (s.ctx c.ctx).fix.toNat := by
  rw [halone]
  exact Nat.min_eq_right hfix

theorem exec_strikeReport_soon (hen : s.strike.en = true) (halone : s.coreCrews core = [(k, c)])
    (hfix : (s.ctx c.ctx).fix.toNat ≤ 48) (h : s.clk ≤ at_ + (s.ctx c.ctx).fix.toNat) :
    exec (.strikeReport core at_) s = .next ((s.replay k).strikeSeen core) := by
  change execStrikeReport core at_ s = _
  unfold execStrikeReport
  rw [hen]
  dsimp only
  rw [strike_fix halone hfix, halone, Bool.not_true, if_neg Bool.false_ne_true, if_pos h]
  rfl

theorem exec_strikeReport_late (hen : s.strike.en = true) (halone : s.coreCrews core = [(k, c)]) (hcrew : s.crew k = c)
    (hkind : c.kind = .normal) (hfix : (s.ctx c.ctx).fix.toNat ≤ 48) (h : at_ + (s.ctx c.ctx).fix.toNat < s.clk) (hcommitted : c.committed ≠ 0)
    (hat : at_ ≤ c.committed) (hrun : c.phase ≠ .halted) :
    exec (.strikeReport core at_) s = .next ((s.putCrew k (c.trapped c.struck s.clk)).strikeLate core) := by
  change execStrikeReport core at_ s = _
  unfold execStrikeReport
  rw [hen]
  dsimp only
  have hhit : ([(k, c)].filter fun kc => s.committedSince kc.1 at_ kc.2 && kc.2.phase != .halted) = [(k, c)] := by
    rw [List.filter_eq_self]
    intro kc hkc
    obtain rfl := List.mem_singleton.mp hkc
    have hsince : s.committedSince k at_ c = true := by
      unfold State.committedSince
      simp [hcommitted, hat]
    simp [hsince, hrun]
  have htrap : ∀ r : TrapRec, r = c.struck → s.trapCrew k r = s.putCrew k (c.trapped c.struck s.clk) := by
    intro r hr
    have hcause : r.cause = 7 := by
      rw [hr]
      unfold Crew.struck
      split <;> rfl
    have hcounts : s.trapCounts k r = s := by
      unfold State.trapCounts
      rw [hcause]
      rfl
    unfold State.trapCrew
    rw [hcounts, hcrew]
    dsimp only
    rw [hkind, hr]
  rw [strike_fix halone hfix, halone, Bool.not_true, if_neg Bool.false_ne_true, if_neg (by omega), hhit, List.foldl_cons, List.foldl_nil]
  rw [htrap _ ?_]
  · rfl
  · unfold Crew.struck
    rw [hcrew]
    cases c.trap <;> rfl

theorem strikeReport_clause (s : State) (core at_ : Nat) : (s.strike.en = false → ∃ t, exec (.strikeReport core at_) s = .next t ∧ t = s) ∧
    (∀ k c, s.strike.en = true → Map.find? s.crews k = some c → (s.crews.filter fun kc => coreOfKey kc.1 == core) = [(k, c)] →
      c.kind = .normal → (s.ctx c.ctx).fix.toNat ≤ 48 →
      (s.clk ≤ at_ + (s.ctx c.ctx).fix.toNat → ∃ t, exec (.strikeReport core at_) s = .next t ∧ OnlyCrew s t k ∧
        (t.core core).cnt = { (s.core core).cnt with strikes := satInc (s.core core).cnt.strikes } ∧
        t.reports = s.reports ++ [{ src := 1, agent := dieOfCore core, core }] ∧ (∀ j ∈ t.runq, coreOfKey j ≠ core) ∧
        match s.past.find? fun p => p.key == k && s.clk < p.at_ + (s.ctx c.ctx).fix.toNat with
        | none => t.crew k = c
        | some p => (t.crew k).s = p.crew.s ∧ (t.crew k).v = p.crew.v ∧ (t.crew k).p = p.crew.p ∧ (t.crew k).pc = p.crew.pc ∧
          (t.crew k).widx = p.crew.widx ∧ (t.crew k).phase = p.crew.phase ∧ (t.crew k).active = p.crew.active ∧
          (t.crew k).live = p.crew.live ∧
          ∀ h ∈ (t.crew k).held, h ∈ c.held ∧ ∃ x ∈ p.crew.held, x.at_ = h.at_) ∧
      (at_ + (s.ctx c.ctx).fix.toNat < s.clk → c.committed ≠ 0 → at_ ≤ c.committed → c.phase ≠ .halted →
        ∃ t, exec (.strikeReport core at_) s = .next t ∧ OnlyCrew s t k ∧ (t.crew k).phase = .trapped ∧
          (t.crew k).trap = some (match c.trap with
            | some r => { r with cause := 0x07, detail0 := 7, detail1 := 0, lanes := 0 }
            | none => { cause := 0x07, detail0 := 7, pc := c.pc, widx := c.widx, word := c.word }) ∧
          (t.core core).cnt = { (s.core core).cnt with late := satInc (s.core core).cnt.late })) := by
  refine ⟨fun hoff => ⟨s, exec_strikeReport_off hoff, rfl⟩, fun k c hen hfind halone hkind hfix => ⟨fun h => ?_, fun h hcom hat hrun => ?_⟩⟩
  · have hcrew : s.crew k = c := congrArg (·.getD {}) hfind
    obtain ⟨honly, hreports, hrunq, hcnt⟩ := replay_replayed s k core
    have hback := replay_crew s k
    refine ⟨_, exec_strikeReport_soon hen halone hfix h, ?_⟩
    generalize s.replay k = u at honly hreports hrunq hcnt hback
    have hself : (u.strikeSeen core).crew k = u.crew k := rfl
    refine ⟨honly.trans (OnlyCrew.of_same rfl rfl), ?_, ?_, fun j hj => ?_, ?_⟩
    · rw [strikeSeen_cnt, hcnt]
    · exact congrArg (· ++ [_]) hreports
    · simpa using (List.mem_filter.mp hj).2
    · rw [hself, hback, hcrew]
      unfold State.replayPoint State.fixOf
      cases s.past.find? fun p => p.key == k && s.clk < p.at_ + (s.ctx c.ctx).fix.toNat with
      | none => rfl
      | some p => exact ⟨rfl, rfl, rfl, rfl, rfl, rfl, rfl, rfl, fun _ hh => replayFrom_held (clk := s.clk) hh⟩
  · have hcrew : s.crew k = c := congrArg (·.getD {}) hfind
    refine ⟨_, exec_strikeReport_late hen halone hcrew hkind hfix h hcom hat hrun, ?_⟩
    generalize hu : s.putCrew k (c.trapped c.struck s.clk) = u
    have honly : OnlyCrew s u k := by
      rw [← hu]
      exact ⟨fun _ => rfl, fun _ hj => MapLaws.find_put_ne _ _ hj⟩
    have hself : (u.strikeLate core).crew k = c.trapped c.struck s.clk := by
      rw [← hu]
      exact State.putCrew_crew_self _ _ _
    have hcores : u.core core = s.core core := by rw [← hu, State.putCrew_core]
    refine ⟨honly.trans (OnlyCrew.of_same rfl rfl), ?_, ?_, ?_⟩
    · rw [hself]
      rfl
    · rw [hself]
      show some c.struck = _
      unfold Crew.struck
      cases c.trap <;> rfl
    · rw [strikeLate_cnt, hcores]

end

end Sys2Proof.Machine
end


section
/-! PROOFS. What the home checkers' tests leave alone: translation does not see a containment, and records reach their checkers without
a change of memory or of a counter (R271, R273, R327). -/

namespace Sys2Proof.Machine

/-! ## Contexts -/

/-- The contexts are as before, but for the mark of a containment. -/
def SameTables (s t : State) : Prop := ∀ c, { t.ctx c with contained := (s.ctx c).contained } = s.ctx c

theorem SameTables.of_eq {s t : State} (h : t.ctxs = s.ctxs) : SameTables s t := fun c => by
  unfold State.ctx
  rw [h]

theorem SameTables.refl (s : State) : SameTables s s := SameTables.of_eq rfl

theorem SameTables.trans {s t u : State} (h : SameTables s t) (h' : SameTables t u) : SameTables s u := fun c =>
  (congrArg (fun x : Ctx => { x with contained := (s.ctx c).contained }) (h' c)).trans (h c)

theorem SameTables.ite {p : Prop} [Decidable p] {s t u : State} (ht : SameTables s t) (hu : SameTables s u) :
    SameTables s (if p then t else u) := by
  split
  · exact ht
  · exact hu

theorem SameTables.foldl {α : Type} {f : State → α → State} (hf : ∀ s x, SameTables s (f s x)) (l : List α) (s : State) :
    SameTables s (l.foldl f s) :=
  foldl_keeps (P := SameTables s) (fun t x h => h.trans (hf t x)) l (SameTables.refl s)

section
variable (s : State)

theorem SameTables.contain (ctx cause : Nat) : SameTables s (s.contain ctx cause) := fun c => by
  by_cases h : c = ctx
  · subst h
    have hput : (s.contain c cause).ctx c = { s.ctx c with contained := true } := MapLaws.get_put_self _ _ _ _
    rw [hput]
  · have hput : (s.contain ctx cause).ctx c = s.ctx c := MapLaws.get_put_ne _ _ _ h
    rw [hput]

theorem SameTables.oneEvent (t : State) : SameTables t (s.oneEvent t) := SameTables.ite (SameTables.refl t) (SameTables.of_eq rfl)

theorem SameTables.trapCounts (k : Nat) (r : TrapRec) : SameTables s (s.trapCounts k r) := by
  unfold State.trapCounts
  extract_lets c core s1 s2
  have h1 : SameTables s s1 := SameTables.ite (SameTables.of_eq rfl) (SameTables.refl s)
  have h2 : SameTables s1 s2 := SameTables.ite (SameTables.of_eq rfl) (SameTables.refl s1)
  exact SameTables.ite ((h1.trans h2).trans (SameTables.of_eq rfl)) (h1.trans h2)

theorem SameTables.secondError (k : Nat) (r : TrapRec) : SameTables s (s.secondError k r) := by
  unfold State.secondError
  extract_lets c s1 s2 both
  have h1 : SameTables s s1 := SameTables.of_eq rfl
  have h2 : SameTables s s2 := h1.trans (SameTables.ite (SameTables.contain s1 _ _) (SameTables.refl s1))
  split
  · refine (h2.trans (SameTables.of_eq (t := s2.putCrew k _) rfl)).trans (SameTables.foldl (fun t o => ?_) _ _)
    dsimp only
    split
    · exact SameTables.refl t
    · exact SameTables.of_eq rfl
  · exact h2.trans (SameTables.of_eq rfl)

theorem SameTables.testEnd (k : Nat) (fail : Option (BitVec 16)) : SameTables s (s.testEnd k fail) := by
  unfold State.testEnd
  dsimp only
  split <;> exact SameTables.of_eq rfl

theorem SameTables.trapCrew (k : Nat) (r : TrapRec) : SameTables s (s.trapCrew k r) := by
  have hcounts := SameTables.trapCounts s k r
  unfold State.trapCrew
  dsimp only
  split
  · exact hcounts.trans (SameTables.of_eq rfl)
  · exact hcounts.trans (SameTables.testEnd _ k _)
  · exact (hcounts.trans (SameTables.secondError _ k r)).trans (SameTables.oneEvent s _)

theorem SameTables.trapOlder (k at_ : Nat) (r : Crew → TrapRec) : SameTables s (s.trapOlder k at_ r) := by
  unfold State.trapOlder
  split
  · next p _ => exact (SameTables.of_eq (t := s.rewind k p) rfl).trans (SameTables.trapCrew _ k _)
  · exact SameTables.trapCrew s k _

theorem SameTables.violation (kind line : Nat) (rs : List IvalRef) {ws : List Nat} (hws : NoCompanion ws) :
    SameTables s (s.violation kind line rs ws) := by
  have hcores : (ws.filterMap fun a => if 8 ≤ a ∧ a < 56 then some (a - 8) else none) = [] :=
    List.filterMap_eq_nil_iff.mpr fun a ha => if_neg fun h => by
      have := hws a ha
      omega
  unfold State.violation
  extract_lets loc pa ref waits widest num before s1 s2 s3 trapped clk s4 cores doms
  have hdoms : doms = [] := by
    change ((ws.filterMap fun a => if 8 ≤ a ∧ a < 56 then some (a - 8) else none).map _).eraseDups = []
    rw [hcores]
    rfl
  have h3 : SameTables s s3 :=
    ((SameTables.of_eq rfl).trans (SameTables.of_eq (s := s1) (t := s2) rfl)).trans (SameTables.of_eq (s := s2) rfl)
  have h4 : SameTables s3 s4 := by
    refine SameTables.foldl (fun t kc => ?_) trapped s3
    split
    · exact SameTables.trapOlder t _ _ _
    · exact SameTables.trapCrew t _ _
  rw [hdoms]
  exact ((h3.trans h4).trans (SameTables.foldl (f := State.clearIval) (fun _ _ => SameTables.of_eq rfl) rs s4)).trans (SameTables.oneEvent before _)

end

/-! ## Records -/

/-- A state that differs from another only in what a checker's test changes: what a trap changes, the count and the poison of a
violation, and the entries. -/
structure CheckSide (s t : State) : Prop where
  rest : { t with
    crews := s.crews, past := s.past, cores := s.cores, parties := s.parties, runq := s.runq, reports := s.reports, ctxs := s.ctxs
    memCnt := s.memCnt, poison := s.poison, ivals := s.ivals } = s
  tables : SameTables s t

theorem CheckSide.refl (s : State) : CheckSide s s := ⟨rfl, SameTables.refl s⟩

theorem CheckSide.trans {s t u : State} (h : CheckSide s t) (h' : CheckSide t u) : CheckSide s u := by
  refine ⟨Eq.trans ?_ h.rest, h.tables.trans h'.tables⟩
  exact congrArg (fun x : State => { x with
    crews := s.crews, past := s.past, cores := s.cores, parties := s.parties, runq := s.runq, reports := s.reports, ctxs := s.ctxs
    memCnt := s.memCnt, poison := s.poison, ivals := s.ivals }) h'.rest

theorem CheckSide.ite {p : Prop} [Decidable p] {s t u : State} (ht : CheckSide s t) (hu : CheckSide s u) : CheckSide s (if p then t else u) := by
  split
  · exact ht
  · exact hu

theorem CheckSide.putIval (s : State) (x : ChkIval) : CheckSide s (s.putIval x) := ⟨rfl, SameTables.of_eq rfl⟩
theorem CheckSide.clearIval (s : State) (r : IvalRef) : CheckSide s (s.clearIval r) := ⟨rfl, SameTables.of_eq rfl⟩

theorem CheckSide.clearIvals (s : State) (rs : List IvalRef) : CheckSide s (rs.foldl State.clearIval s) :=
  foldl_keeps (P := CheckSide s) (fun t r h => h.trans (CheckSide.clearIval t r)) rs (CheckSide.refl s)

theorem CheckSide.violation (s : State) (kind line : Nat) (rs : List IvalRef) {ws : List Nat} (hws : NoCompanion ws) :
    CheckSide s (s.violation kind line rs ws) := by
  refine ⟨?_, SameTables.violation s kind line rs hws⟩
  have hrest := congrArg (fun x : State => { x with memCnt := s.memCnt, poison := s.poison, ivals := s.ivals }) (violation_only s kind line rs hws).rest
  exact hrest

theorem violation_ivals (s : State) (kind line : Nat) (rs : List IvalRef) {ws : List Nat} (hws : NoCompanion ws) :
    (s.violation kind line rs ws).ivals = s.ivals :=
  (congrArg State.ivals (violation_only s kind line rs hws).rest :)

/-- A checker's test, and entries that name no companion core after it. -/
def Tested (s t : State) : Prop := CheckSide s t ∧ NoCompanionIvals t

theorem checked_put {s u : State} (hside : CheckSide s u) (hivals : NoCompanionIvals u) {x : ChkIval} (hx : NoCompanion x.writer.toList) :
    Tested s (u.putIval x) := by
  refine ⟨hside.trans (CheckSide.putIval u x), fun i hi => ?_⟩
  obtain hi | hi := List.mem_append.mp hi
  · exact hivals i (List.mem_filter.mp hi).1
  · rw [List.mem_singleton.mp hi]
    exact hx

theorem noCompanionIvals_congr {s t : State} (h : t.ivals = s.ivals) (hs : NoCompanionIvals s) : NoCompanionIvals t := fun i hi => hs i (h ▸ hi)

theorem checked_violation {s : State} (hs : NoCompanionIvals s) (kind line : Nat) (rs : List IvalRef) {ws : List Nat} (hws : NoCompanion ws) :
    Tested s (s.violation kind line rs ws) :=
  ⟨CheckSide.violation s kind line rs hws, noCompanionIvals_congr (violation_ivals s kind line rs hws) hs⟩

theorem Tested.trans {s t u : State} (h : Tested s t) (h' : Tested t u) : Tested s u := ⟨h.1.trans h'.1, h'.2⟩

theorem Tested.put {s u : State} (h : Tested s u) {x : ChkIval} (hx : NoCompanion x.writer.toList) : Tested s (u.putIval x) :=
  checked_put h.1 h.2 hx

theorem noCompanion_writer {r : ChkRec} (hr : r.wr = true → r.agent < 8 ∨ 56 ≤ r.agent) :
    NoCompanion (if r.wr then some r.agent else none).toList := fun a ha => by
  split at ha
  · next hw =>
    rw [List.mem_singleton.mp ha]
    exact hr hw
  · cases ha

theorem clearIvals_ivals (s : State) (rs : List IvalRef) : (rs.foldl State.clearIval s).ivals = s.ivals :=
  foldl_keeps (P := fun t : State => t.ivals = s.ivals) (f := State.clearIval) (fun _ _ h => h) rs rfl

theorem takeMerge_checked {s : State} {r : ChkRec} (hs : NoCompanionIvals s) (hr : r.wr = true → r.agent < 8 ∨ 56 ≤ r.agent) :
    Tested s (s.takeMerge r) := by
  unfold State.takeMerge
  extract_lets es ws hashOk nextOk owed s1 s2
  have hws : NoCompanion ws := fun a ha => by
    obtain ⟨e, he, hw⟩ := List.mem_filterMap.mp ha
    obtain ⟨p, -, hp⟩ := List.mem_filterMap.mp he
    exact hs e (ival_found hp).1 a (by rw [hw]; simp)
  have h1 : Tested s s1 := by
    change Tested s (if _ then _ else _)
    split
    · exact ⟨CheckSide.refl s, hs⟩
    · exact checked_violation hs _ _ _ fun a ha => (List.mem_append.mp ha).elim (hws a) (noCompanion_record hr a)
  have h2 : Tested s s2 := by
    change Tested s (if _ then _ else if _ then _ else _)
    split
    · exact h1.trans (checked_violation h1.2 _ _ _ hws)
    · split
      · exact ⟨h1.1.trans (CheckSide.clearIvals s1 _), noCompanionIvals_congr (clearIvals_ivals s1 _) h1.2⟩
      · exact h1
  exact h2.put (noCompanion_writer hr)

theorem opened_checked {s u : State} {old e : ChkIval} (h : Tested s u) (he : NoCompanion e.writer.toList)
    (hold : NoCompanion old.writer.toList) (two : Bool) (r : ChkRec) : Tested s (u.opened old e two r) := by
  unfold State.opened
  split
  · dsimp only
    split
    · exact (h.trans (checked_violation h.2 _ _ _ hold)).put he
    · split
      · exact h.put he
      · have hclear : Tested u (u.clearIval old.ref) := ⟨CheckSide.clearIval u _, h.2⟩
        exact (h.trans hclear).put he
  · exact h.put he

/-- The record's entry names no companion core, and the test for two writers leaves none. -/
theorem twoWriters_checked {s : State} (r : ChkRec) (hs : NoCompanionIvals s) (hr : r.wr = true → r.agent < 8 ∨ 56 ≤ r.agent) :
    let e := if r.num = (s.entryOf r).num then s.entryOf r else ChkIval.start r (s.entryOf r).owes
    let two := r.wr && e.writer.any (· != r.agent)
    Tested s (if two then s.violation 3 r.line [⟨r.line, r.f, r.l, r.num⟩] (e.writer.toList ++ [r.agent]) else s) ∧
      NoCompanion (if r.wr && !two then { e with writer := some r.agent } else e : ChkIval).writer.toList := by
  intro e two
  have he : NoCompanion e.writer.toList := by
    change NoCompanion (if _ then _ else _ : ChkIval).writer.toList
    split
    · exact (entryOf_entry r hs).2
    · exact fun a ha => by simp [ChkIval.start] at ha
  have hagent : r.wr = true → NoCompanion [r.agent] := fun hw a ha => by
    rw [List.mem_singleton.mp ha]
    exact hr hw
  refine ⟨?_, ?_⟩
  · split
    · next htwo =>
      exact checked_violation hs _ _ _ fun a ha => (List.mem_append.mp ha).elim (he a) (hagent (Bool.and_eq_true_iff.mp htwo).1 a)
    · exact ⟨CheckSide.refl s, hs⟩
  · split
    · next hw => exact hagent (Bool.and_eq_true_iff.mp hw).1
    · exact he

theorem takeRecord_checked {s : State} {r : ChkRec} (hs : NoCompanionIvals s) (hr : r.wr = true → r.agent < 8 ∨ 56 ≤ r.agent) :
    Tested s (s.takeRecord r) := by
  obtain ⟨htwo, hwriter⟩ := twoWriters_checked r hs hr
  have hmismatch : ∀ oh ch, Tested s ((s.violation 2 r.line [⟨r.line, r.f, r.l, r.num⟩] r.writers).putIval
      { ChkIval.start r (s.entryOf r).owes with
        writer := if r.wr then some r.agent else none, openHash := oh, closeHash := ch, closed := s.clk }) :=
    fun _ _ => (checked_violation hs _ _ _ (noCompanion_record hr)).put (noCompanion_writer hr)
  unfold State.takeRecord
  cases r.kind with
  | mergeOpen => exact takeMerge_checked hs hr
  | created => exact checked_put (CheckSide.refl s) hs fun a ha => by simp [ChkIval.start] at ha
  | readJoin =>
    dsimp only
    split
    · exact hmismatch _ _
    · exact htwo.put hwriter
  | close =>
    dsimp only
    split
    · exact hmismatch _ _
    · exact htwo.put hwriter
  | open_ =>
    dsimp only
    split
    · exact hmismatch _ _
    · exact opened_checked htwo hwriter (entryOf_entry r hs).2 _ r

theorem flushRecs_checked {s : State} (hs : NoCompanionIvals s) (hrecs : ∀ r ∈ s.recs, r.wr = true → r.agent < 8 ∨ 56 ≤ r.agent) :
    CheckSide { s with recs := [] } s.flushRecs := by
  have hall : ∀ (rs : List ChkRec) (t : State), NoCompanionIvals t → (∀ r ∈ rs, r.wr = true → r.agent < 8 ∨ 56 ≤ r.agent) →
      CheckSide t (rs.foldl State.takeRecord t) := by
    intro rs
    induction rs with
    | nil => exact fun t _ _ => CheckSide.refl t
    | cons r rs ih =>
      intro t ht hr
      obtain ⟨hside, hivals⟩ := takeRecord_checked ht (hr r List.mem_cons_self)
      exact hside.trans (ih _ hivals fun x hx => hr x (List.mem_cons_of_mem _ hx))
  exact hall s.recs { s with recs := [] } hs hrecs

end Sys2Proof.Machine
end


section
/-! PROOFS. A launch's completion (R33, R315): what its release cleans, its records, its counter and its parents. -/

namespace Sys2Proof.Machine

/-! ## Cleaning -/

/-- A state that differs from another only in the states of spans and the words under way to memory. -/
structure CleanSide (s t : State) : Prop where
  rest : { t with dir := s.dir, dies := s.dies, offs := s.offs, inject := s.inject } = s

theorem CleanSide.refl (s : State) : CleanSide s s := ⟨rfl⟩

theorem CleanSide.trans {s t u : State} (h : CleanSide s t) (h' : CleanSide t u) : CleanSide s u := by
  refine ⟨Eq.trans ?_ h.rest⟩
  exact congrArg (fun x : State => { x with dir := s.dir, dies := s.dies, offs := s.offs, inject := s.inject }) h'.rest

theorem CleanSide.ite {p : Prop} [Decidable p] {s t u : State} (ht : CleanSide s t) (hu : CleanSide s u) : CleanSide s (if p then t else u) := by
  split
  · exact ht
  · exact hu

theorem CleanSide.foldl {α : Type} {f : State → α → State} (hf : ∀ s x, CleanSide s (f s x)) (l : List α) (s : State) :
    CleanSide s (l.foldl f s) :=
  foldl_keeps (P := CleanSide s) (fun t x h => h.trans (hf t x)) l (CleanSide.refl s)

theorem CleanSide.pass (s : State) (port line f l dst : Nat) : CleanSide s (s.pass port line f l dst) := by
  unfold State.pass
  dsimp only
  split <;> exact ⟨rfl⟩

theorem CleanSide.setDir (s : State) (line f l : Nat) (new : Option DirSpan) : CleanSide s (s.setDir line f l new) := ⟨rfl⟩
theorem CleanSide.onDie (s : State) (d : Nat) (f : Die → Die) : CleanSide s (s.onDie d f) := ⟨rfl⟩

theorem CleanSide.clean (s : State) (a line f l : Nat) : CleanSide s (s.clean a line f l) := by
  unfold State.clean
  split
  · exact CleanSide.refl s
  · next d _ =>
    have hpass := (CleanSide.pass s (portOf line (some a)) line d.f d.l 63).trans (CleanSide.setDir _ line d.f d.l (some { d with st := Map.put d.st a .e }))
    dsimp only
    generalize (s.pass (portOf line (some a)) line d.f d.l 63).setDir line d.f d.l (some { d with st := Map.put d.st a .e }) = u at hpass
    exact CleanSide.ite (CleanSide.ite (hpass.trans (CleanSide.onDie u a _)) hpass) (CleanSide.refl s)

theorem CleanSide.cleanFor (s : State) (st : Map Stamp) : CleanSide s (s.cleanFor st) :=
  CleanSide.foldl (fun t (x : Nat × Stamp) => CleanSide.foldl (fun u (y : L2Span) => CleanSide.clean u x.1 y.line y.f y.l) _ t) st s

theorem Quiet.clean {m : List Host.Cell} {cs : Map Crew} {s : State} (h : Quiet m cs s) (a line f l : Nat) : Quiet m cs (s.clean a line f l) := by
  unfold State.clean
  split
  · exact h
  · next d _ =>
    have hpass := (h.pass (portOf line (some a)) line d.f d.l 63).setDir line d.f d.l (some { d with st := Map.put d.st a .e })
    split
    · dsimp only
      split
      · exact hpass.of_eq rfl rfl rfl rfl
      · exact hpass
    · exact h

theorem Quiet.cleanFor {m : List Host.Cell} {cs : Map Crew} {s : State} (h : Quiet m cs s) (st : Map Stamp) : Quiet m cs (s.cleanFor st) :=
  foldl_keeps (P := Quiet m cs) (fun _ (x : Nat × Stamp) ht => foldl_keeps (P := Quiet m cs) (fun _ (y : L2Span) hu => hu.clean x.1 y.line y.f y.l) _ ht) st h

/-! ## The state in which a launch completes -/

/-- The state in which the completion of launch n is written: its stores cleaned, and the records of intervals at their checkers. -/
def State.released (s : State) (n : Nat) : State := (s.cleanFor (s.counter n).stamps).flushRecs

/-- What a release of a launch leaves as it was. -/
structure Released (s t : State) : Prop where
  mem : t.mem = s.mem
  recs : t.recs = []
  counters : t.counters = s.counters
  mode : t.mode = s.mode
  cxl : t.cxl = s.cxl
  host : t.host = s.host
  bias : t.bias = s.bias
  tables : SameTables s t

theorem released_parts {s : State} (h : NoCompanionWrites s) (n : Nat) : Released s (s.released n) := by
  unfold State.released
  have hclean := (CleanSide.cleanFor s (s.counter n).stamps).rest
  generalize s.cleanFor (s.counter n).stamps = u at hclean
  have hivals : u.ivals = s.ivals := (congrArg State.ivals hclean :)
  have hrecs : u.recs = s.recs := (congrArg State.recs hclean :)
  obtain ⟨hrest, htables⟩ := flushRecs_checked (s := u) (noCompanionIvals_congr hivals h.ivals) fun r hr => h.records r (hrecs ▸ hr)
  have hboth : ∀ {β : Type} (π : State → β), π u = π s → π u.flushRecs = π { u with recs := [] } → π { u with recs := [] } = π u →
      π u.flushRecs = π s := fun _ h1 h2 h3 => (h2.trans h3).trans h1
  have hu : SameTables s u := SameTables.of_eq (congrArg State.ctxs hclean :)
  exact {
    mem := hboth State.mem (congrArg State.mem hclean :) (congrArg State.mem hrest :) rfl
    recs := (congrArg State.recs hrest :)
    counters := hboth State.counters (congrArg State.counters hclean :) (congrArg State.counters hrest :) rfl
    mode := hboth State.mode (congrArg State.mode hclean :) (congrArg State.mode hrest :) rfl
    cxl := hboth State.cxl (congrArg State.cxl hclean :) (congrArg State.cxl hrest :) rfl
    host := hboth State.host (congrArg State.host hclean :) (congrArg State.host hrest :) rfl
    bias := hboth State.bias (congrArg State.bias hclean :) (congrArg State.bias hrest :) rfl
    tables := (hu.trans (SameTables.of_eq rfl)).trans htables }

/-- With no injection armed and no words that differ, a release leaves none. -/
theorem released_quiet {s : State} (h : NoCompanionWrites s) (hoffs : s.offs = []) (harm : s.inject.arm = false) (n : Nat) :
    (s.released n).offs = [] ∧ (s.released n).inject.arm = false := by
  unfold State.released
  obtain ⟨-, -, hqoffs, hqarm⟩ := Quiet.cleanFor (s := s) ⟨rfl, rfl, hoffs, harm⟩ (s.counter n).stamps
  have hclean := (CleanSide.cleanFor s (s.counter n).stamps).rest
  generalize s.cleanFor (s.counter n).stamps = u at hclean hqoffs hqarm
  have hivals : u.ivals = s.ivals := (congrArg State.ivals hclean :)
  have hrecs : u.recs = s.recs := (congrArg State.recs hclean :)
  obtain ⟨hrest, -⟩ := flushRecs_checked (s := u) (noCompanionIvals_congr hivals h.ivals) fun r hr => h.records r (hrecs ▸ hr)
  exact ⟨(congrArg State.offs hrest).trans hqoffs, (congrArg (fun x : State => x.inject.arm) hrest).trans hqarm⟩

/-! ## The counter -/

/-- A launch's counter, once it has completed. -/
def Counter.completed (c : Counter) : Counter := { c with done := true, canc := c.cancelReq, relaunching := false }

/-- The value that a launch's completion writes. -/
def Counter.value (c : Counter) : W64 := if c.level = .launch then c.cval else c.completed.word

/-- The state after the write of a launch's completion. -/
def State.notified (s : State) (n : Nat) : State :=
  let c := s.counter n
  let s := s.onCounter n Counter.completed
  if c.caddr = 0 then s
  else match s.devWrite c.ctx.toNat c.caddr (bytesOf 8 c.value.toNat) none c.stamps with
    | some s => s
    | none => s.report { src := 13, detail := BitVec.ofNat 64 n, ctx := c.ctx.toNat, agent := 57 }

/-- The step that a launch's completion makes at its parent. -/
def State.toParent (s : State) (c : Counter) : State :=
  match c.parents with
  | [] => s
  | (_, p) :: _ => (s.onCounter p fun x => { x with stamps := joinStamps x.stamps c.stamps }).stepCounter p 1

theorem complete_eq (s : State) (n : Nat) : s.complete n = (s.flushRecs.notified n).toParent (s.flushRecs.counter n) := by
  unfold State.complete
  generalize s.flushRecs = u
  extract_lets w c u1 d v t
  have hd : d = c.completed := MapLaws.get_put_self _ _ _ _
  have ht : t = u.notified n := by
    change (if c.caddr = 0 then u1 else match u1.devWrite c.ctx.toNat c.caddr (bytesOf 8 (if c.level = .launch then c.cval else d.word).toNat) none
      c.stamps with | some s => s | none => _) = _
    rw [hd]
    rfl
  rw [ht, hd]
  rfl

theorem exec_instanceComplete {s : State} {n : Nat} (hdone : (s.counter n).done = false) (hcount : (s.counter n).count = (s.counter n).endv)
    (hbusy : s.instanceBusy n = false) (hbias : s.bias.busy = false) :
    exec (.instanceComplete n) s = .next (((s.released n).notified n).toParent ((s.released n).counter n)) := by
  change execInstanceComplete n s = _
  unfold execInstanceComplete
  dsimp only
  rw [if_pos ⟨hdone, hcount, hbusy, hbias⟩, complete_eq]
  rfl

theorem toParent_mem (s : State) (c : Counter) : (s.toParent c).mem = s.mem ∧ (s.toParent c).recs = s.recs := by
  unfold State.toParent
  split
  · exact ⟨rfl, rfl⟩
  · next p _ _ =>
    unfold State.stepCounter
    dsimp only
    split
    · exact ⟨rfl, rfl⟩
    · split <;> exact ⟨rfl, rfl⟩

/-- A step of a counter changes only its count and the stamps of its releases. -/
theorem toParent_counter (s : State) (c : Counter) (n : Nat) :
    { (s.toParent c).counter n with count := (s.counter n).count, stamps := (s.counter n).stamps } = s.counter n := by
  unfold State.toParent
  split
  · rfl
  · next p ps _ =>
    by_cases hn : n = p
    · subst hn
      have hput : (s.onCounter n fun x => { x with stamps := joinStamps x.stamps c.stamps }).counter n =
          { s.counter n with stamps := joinStamps (s.counter n).stamps c.stamps } := MapLaws.get_put_self _ _ _ _
      rw [(stepCounter_one _ n).1, hput]
    · have hput : (s.onCounter p fun x => { x with stamps := joinStamps x.stamps c.stamps }).counter n = s.counter n :=
        MapLaws.get_put_ne _ _ _ hn
      rw [stepCounter_other _ 1 hn, hput]

theorem toParent_count (s : State) {c : Counter} {lv : Level} {p : Nat} {ps : List (Level × Nat)} (h : c.parents = (lv, p) :: ps) :
    ((s.toParent c).counter p).count = (s.counter p).count + 1 := by
  unfold State.toParent
  rw [h]
  dsimp only
  rw [(stepCounter_one _ p).1]
  have hput : (s.onCounter p fun x => { x with stamps := joinStamps x.stamps c.stamps }).counter p =
      { s.counter p with stamps := joinStamps (s.counter p).stamps c.stamps } := MapLaws.get_put_self _ _ _ _
  rw [hput]

theorem counter_of_counters {s t : State} (h : t.counters = s.counters) (n : Nat) : t.counter n = s.counter n := by
  unfold State.counter
  rw [h]

/-! ## A launch that notifies no memory -/

theorem instanceComplete_quiet (s : State) (n : Nat) (hdone : (s.counter n).done = false) (hcount : (s.counter n).count = (s.counter n).endv)
    (hbusy : s.instanceBusy n = false) (hbias : s.bias.busy = false) (hno : NoCompanionWrites s) (haddr : (s.counter n).caddr = 0) :
    let c := s.counter n
    ∃ t, exec (.instanceComplete n) s = .next t ∧ (∀ a, memGet t.mem a = memGet s.mem a) ∧ t.recs = [] ∧ (t.counter n).done = true ∧
      (t.counter n).canc = c.cancelReq ∧ (t.counter n).endv = c.endv ∧
      ∀ lv p ps, c.parents = (lv, p) :: ps → p ≠ n → (t.counter p).count = (s.counter p).count + 1 := by
  intro c
  have hrel := released_parts hno n
  have hexec := exec_instanceComplete hdone hcount hbusy hbias
  generalize s.released n = u at hrel hexec
  have hu := counter_of_counters hrel.counters
  have hnot : u.notified n = u.onCounter n Counter.completed := by
    unfold State.notified
    dsimp only
    rw [if_pos ((congrArg Counter.caddr (hu n)).trans haddr)]
  rw [hnot, hu n] at hexec
  have hself : (u.onCounter n Counter.completed).counter n = c.completed := by
    rw [show (u.onCounter n Counter.completed).counter n = (u.counter n).completed from MapLaws.get_put_self _ _ _ _, hu n]
  obtain ⟨hmem, hrecs⟩ := toParent_mem (u.onCounter n Counter.completed) (s.counter n)
  have hn := toParent_counter (u.onCounter n Counter.completed) (s.counter n) n
  rw [hself] at hn
  refine ⟨_, hexec, fun a => ?_, hrecs.trans hrel.recs, (congrArg Counter.done hn :), (congrArg Counter.canc hn :),
    (congrArg Counter.endv hn :), fun lv p ps hps hpn => ?_⟩
  · rw [hmem]
    exact congrArg (memGet · a) hrel.mem
  · have hother : (u.onCounter n Counter.completed).counter p = u.counter p := MapLaws.get_put_ne _ _ _ hpn
    rw [toParent_count _ hps, hother, hu p]

end Sys2Proof.Machine
end


section
/-! PROOFS. An aligned word of memory as a device writes it (R44, R47, R338): it translates as its first byte does. -/

namespace Sys2Proof.Machine

/-! ## Addresses in one aligned doubleword -/

/-- Two addresses in one aligned doubleword. -/
def SameWord (a b : W64) : Prop := b.toNat / 8 = a.toNat / 8

theorem SameWord.bit {a b : W64} (h : SameWord a b) {j : Nat} (hj : 3 ≤ j) : b.getLsbD j = a.getLsbD j := by
  have hbit : ∀ x : W64, x.getLsbD j = (x.toNat / 2 ^ 3).testBit (j - 3) := fun x => by
    rw [Nat.testBit_div_two_pow, Nat.sub_add_cancel hj]
    rfl
  rw [hbit, hbit]
  exact congrArg (Nat.testBit · (j - 3)) h

theorem canonical_iff (va : W64) : canonical va = true ↔ ∀ j, 57 ≤ j → j < 64 → va.getLsbD j = va.getLsbD 56 := by
  have hsign : ∀ j, j < 64 → (BitVec.signExtend 64 (va.extractLsb' 0 57)).getLsbD j = if j < 57 then va.getLsbD j else va.getLsbD 56 := by
    intro j hj
    rw [BitVec.getLsbD_signExtend, BitVec.msb_eq_getLsbD_last]
    by_cases h : j < 57
    · simp [hj, h]
    · simp [hj, h]
  unfold canonical
  rw [beq_iff_eq]
  refine ⟨fun h j hlo hj => ?_, fun h => BitVec.eq_of_getLsbD_eq fun j hj => ?_⟩
  · have hbit := hsign j hj
    rw [← h, if_neg (by omega)] at hbit
    exact hbit
  · rw [hsign j hj]
    split
    · rfl
    · exact h j (by omega) hj

theorem SameWord.canonical {a b : W64} (h : SameWord a b) (ha : canonical a = true) : canonical b = true := by
  rw [canonical_iff] at ha ⊢
  intro j hlo hj
  rw [h.bit (by omega), h.bit (by omega)]
  exact ha j hlo hj

theorem fld_page {x y : Nat} (h : y / 8 = x / 8) {lo : Nat} (hlo : 3 ≤ lo) (n : Nat) : fld y lo n = fld x lo n := by
  have hpow : 2 ^ lo = 8 * 2 ^ (lo - 3) := by
    rw [show (8 : Nat) = 2 ^ 3 from rfl, ← Nat.pow_add, Nat.add_sub_cancel' hlo]
  unfold fld
  rw [hpow, ← Nat.div_div_eq_div_mul, ← Nat.div_div_eq_div_mul, h]

theorem walkFrom_page {s : State} {ctx x y : Nat} (h : y / 8 = x / 8) (lvl table : Nat) : walkFrom s ctx y lvl table = walkFrom s ctx x lvl table := by
  induction lvl generalizing table with
  | zero => simp only [walkFrom, fld_page h (lo := 12 + 9 * 0) (by omega)]
  | succ lvl ih => simp only [walkFrom, fld_page h (lo := 12 + 9 * (lvl + 1)) (by omega), ih]

theorem leafSize_twelve {pte lvl n : Nat} (h : leafSize pte lvl = some n) : 12 ≤ n := by
  unfold leafSize at h
  dsimp only at h
  split at h
  · split at h
    · cases h
      decide
    · cases h
  · split at h
    · cases h
      decide
    · split at h
      · cases h
        decide
      · cases h
    · split at h
      · cases h
        decide
      · cases h
    · cases h

theorem walkFrom_size {s : State} {ctx va lvl table : Nat} {lf : Leaf} (h : walkFrom s ctx va lvl table = some lf) : 12 ≤ lf.size := by
  have hmap : ∀ {at_ pte lvl}, (leafSize pte lvl).map (fun size => (⟨at_, pte, size⟩ : Leaf)) = some lf → 12 ≤ lf.size := fun h => by
    obtain ⟨n, hn, rfl⟩ := Option.map_eq_some_iff.mp h
    exact leafSize_twelve hn
  induction lvl generalizing table with
  | zero =>
    unfold walkFrom at h
    dsimp only at h
    split at h
    · cases h
    · split at h
      · exact hmap h
      · split at h <;> cases h
  | succ lvl ih =>
    unfold walkFrom at h
    dsimp only at h
    split at h
    · cases h
    · split at h
      · exact hmap h
      · split at h
        · cases h
        · exact ih h

/-- An aligned doubleword translates to an aligned doubleword. -/
theorem leaf_pa_word {lf : Leaf} (hsize : 12 ≤ lf.size) {va i : Nat} (hva : va % 8 = 0) (hi : i < 8) :
    lf.pa (va + i) = lf.pa va + i ∧ lf.pa va % 8 = 0 := by
  have hpow : 2 ^ lf.size = 8 * 2 ^ (lf.size - 3) := by
    rw [show (8 : Nat) = 2 ^ 3 from rfl, ← Nat.pow_add, Nat.add_sub_cancel' (by omega)]
  have hmod : ∀ j, j < 8 → (va + j) % 2 ^ lf.size = va % 2 ^ lf.size + j := fun j hj => by
    rw [hpow, Nat.mod_mul, Nat.mod_mul, show (va + j) / 8 = va / 8 by omega]
    omega
  have hal : va % 2 ^ lf.size % 8 = 0 := by
    rw [hpow, Nat.mod_mul]
    omega
  unfold Leaf.pa
  dsimp only
  rw [hmod i hi]
  refine ⟨by omega, ?_⟩
  rw [Nat.add_mod, hal, hpow, ← Nat.mul_assoc, Nat.mul_right_comm, Nat.mul_mod_left]

theorem toNat_word {va : W64} (hva : va.toNat % 8 = 0) {i : Nat} (hi : i < 8) : (va + BitVec.ofNat 64 i).toNat = va.toNat + i := by
  have hlt := va.isLt
  rw [BitVec.toNat_add, BitVec.toNat_ofNat]
  omega

/-- An aligned word translates as its first byte does (R338). -/
theorem xlate_word {s : State} {ctx : Nat} {va : W64} {need : Need} {pa i : Nat} (hva : va.toNat % 8 = 0) (hi : i < 8)
    (h : s.xlate ctx va need = .ok pa) : s.xlate ctx (va + BitVec.ofNat 64 i) need = .ok (pa + i) ∧ pa % 8 = 0 := by
  have hnat := toNat_word hva hi
  have hword : SameWord va (va + BitVec.ofNat 64 i) := by
    unfold SameWord
    omega
  unfold State.xlate at h ⊢
  cases hcan : canonical va with
  | false =>
    rw [hcan] at h
    cases h
  | true =>
    rw [hcan] at h
    rw [hword.canonical hcan]
    rw [Bool.not_true, if_neg Bool.false_ne_true] at h ⊢
    have hwalk : s.walk ctx (va + BitVec.ofNat 64 i) = s.walk ctx va := walkFrom_page hword 4 _
    rw [hwalk]
    cases hl : s.walk ctx va with
    | none =>
      rw [hl] at h
      cases h
    | some lf =>
      rw [hl] at h
      dsimp only at h ⊢
      split at h
      · next hallow =>
        obtain rfl := Except.ok.inj h
        obtain ⟨hpa, hal⟩ := leaf_pa_word (walkFrom_size hl) hva hi
        rw [if_pos hallow, hnat, hpa]
        exact ⟨rfl, hal⟩
      · cases h

/-! ## The home of a word -/

theorem homePair_word (s : State) (ctx : Nat) {pa i : Nat} (hpa : pa % 8 = 0) (hi : i < 8) : s.homePair ctx (pa + i) = s.homePair ctx pa := by
  have hsame : (pa + i) / 8 = pa / 8 := by omega
  unfold State.homePair homeE
  rw [fld_page hsame (lo := 12) (by omega), fld_page hsame (lo := 12) (by omega), fld_page hsame (lo := 20) (by omega),
    fld_page hsame (lo := 20) (by omega)]

theorem homePair_lt (s : State) (ctx pa : Nat) : s.homePair ctx pa < 8 := Nat.mod_lt _ (by decide)

/-- Where a word below the control region is, without CXL or host windows. -/
theorem locOf_word {s : State} (hcxl : s.cxl = []) (hhost : s.host = []) (ctx : Nat) {pa i : Nat} (hpa : pa % 8 = 0) (hlt : pa < ctlBase) (hi : i < 8) :
    s.locOf ctx (pa + i) = s.homePair ctx pa * 2 ^ 52 + pa + i ∧ locCtl (s.homePair ctx pa * 2 ^ 52 + pa + i) = false := by
  have hbase : ctlBase % 8 = 0 := rfl
  have hlt' : pa + i < ctlBase := by omega
  have hctl : isCtl (pa + i) = false := by
    unfold isCtl
    simp only [Bool.and_eq_false_imp, decide_eq_true_eq]
    omega
  refine ⟨?_, ?_⟩
  · unfold State.locOf
    rw [hctl, hcxl, hhost, homePair_word s ctx hpa hi]
    show s.homePair ctx pa * pairBase + (pa + i) = _
    rw [← Nat.add_assoc]
    rfl
  · have hpair := homePair_lt s ctx pa
    have hsmall : pa + i < 2 ^ 52 := Nat.lt_trans hlt' (by decide)
    have hdiv : locPair (s.homePair ctx pa * 2 ^ 52 + pa + i) = s.homePair ctx pa := by
      unfold locPair
      show (s.homePair ctx pa * 2 ^ 52 + pa + i) / 2 ^ 52 = _
      omega
    unfold locCtl
    rw [hdiv]
    exact beq_false_of_ne (by omega)

/-- A device's write whose bytes translate, while no granule changes its bias, is a home write of its cells. -/
theorem devWrite_ok {s : State} {ctx : Nat} {va : W64} {bs : List Byte} {f : Nat → Nat}
    (h : ∀ i, i < bs.length → s.xlate ctx (va + BitVec.ofNat 64 i) .write = .ok (f i)) (hbias : s.bias.busy = false) (lctr : Option Nat) (ch : Clocks) :
    s.devWrite ctx va bs lctr ch = some (s.homeCells (((List.range bs.length).map fun i => s.locOf ctx (f i)).zip bs) lctr none ch) := by
  have hlocs : ((List.range bs.length).map fun i => s.xlate ctx (va + BitVec.ofNat 64 i) .write) = (List.range bs.length).map fun i => .ok (f i) :=
    List.map_congr_left fun i hi => h i (List.mem_range.mp hi)
  have hflip : ∀ cs : List Host.Cell, (cs.any fun c => s.flipping c.1) = false := fun cs => by
    rw [List.any_eq_false]
    intro c _
    simp [State.flipping, hbias]
  unfold State.devWrite
  rw [hlocs]
  dsimp only
  rw [if_neg (by simp), hflip, if_neg Bool.false_ne_true, List.zip_map_left, List.zip_map_left, List.map_map]
  rfl

/-- A device's write of an aligned word leaves its bytes at the word's home. -/
theorem devWrite_word {s : State} {ctx : Nat} {va : W64} {pa : Nat} (hx : s.xlate ctx va .write = .ok pa) (hva : va.toNat % 8 = 0)
    (hpa : pa < ctlBase) (hcxl : s.cxl = []) (hhost : s.host = []) (hbias : s.bias.busy = false) (hoffs : s.offs = [])
    (harm : s.inject.arm = false) (x : Nat) (lctr : Option Nat) (ch : Clocks) :
    ∃ t, s.devWrite ctx va (bytesOf 8 x) lctr ch = some t ∧
      t.mem = memPut s.mem (cellsOf (s.homePair ctx pa * 2 ^ 52 + pa) (bytesOf 8 x)) := by
  have hlen := length_bytesOf 8 x
  have hal : pa % 8 = 0 := (xlate_word hva (i := 0) (by decide) hx).2
  have hcells : ((List.range (bytesOf 8 x).length).map fun i => s.locOf ctx (pa + i)).zip (bytesOf 8 x) =
      cellsOf (s.homePair ctx pa * 2 ^ 52 + pa) (bytesOf 8 x) := by
    refine congrArg (List.zip · _) (List.map_congr_left fun i hi => ?_)
    rw [hlen] at hi
    exact (locOf_word hcxl hhost ctx hal hpa (List.mem_range.mp hi)).1
  refine ⟨_, devWrite_ok (f := fun i => pa + i) (fun i hi => (xlate_word hva (hlen ▸ hi) hx).1) hbias lctr ch, ?_⟩
  rw [hcells]
  refine homeCells_mem hoffs harm (fun c hc => ?_) lctr none ch
  obtain ⟨hlo, hhi⟩ := cellsOf_inside hc
  rw [hlen] at hhi
  obtain ⟨i, hi⟩ := Nat.exists_eq_add_of_le hlo
  rw [hi]
  exact (locOf_word hcxl hhost ctx hal hpa (by omega)).2

end Sys2Proof.Machine
end


section
/-! PROOFS. The value that a launch's completion writes (R315). -/

namespace Sys2Proof.Machine

theorem SameTables.ctx {s t : State} (h : SameTables s t) (c : Nat) :
    (t.ctx c).root = (s.ctx c).root ∧ (t.ctx c).ents = (s.ctx c).ents :=
  ⟨(congrArg Ctx.root (h c) :), (congrArg Ctx.ents (h c) :)⟩

theorem SameTables.homePair {s t : State} (h : SameTables s t) (hmode : t.mode = s.mode) (ctx pa : Nat) : t.homePair ctx pa = s.homePair ctx pa := by
  unfold State.homePair Ctx.pair
  rw [hmode, (h.ctx ctx).2]

/-- A containment changes no translation. -/
theorem SameTables.xlate {s t : State} (h : SameTables s t) (hmem : t.mem = s.mem) (hmode : t.mode = s.mode) (hcxl : t.cxl = s.cxl)
    (hhost : t.host = s.host) (ctx : Nat) (va : W64) (need : Need) : t.xlate ctx va need = s.xlate ctx va need := by
  have hloc : ∀ c pa, t.locOf c pa = s.locOf c pa := fun c pa => by
    unfold State.locOf
    rw [hcxl, hhost, h.homePair hmode]
  simp only [State.xlate, State.walk, walkFrom_congr hmem hloc, (h.ctx ctx).1]

theorem completed_value (c : Counter) (h : c.count = c.endv) :
    c.value.toNat = if c.level = .launch then c.cval.toNat
      else 2 ^ 63 + (if c.cancelReq then 2 ^ 62 else 0) + c.endv.toNat * 2 ^ 24 + c.endv.toNat := by
  unfold Counter.value
  split
  · rfl
  · have hend := c.endv.isLt
    have hword : c.completed.word = BitVec.ofNat 64 (2 ^ 63 + c.cancelReq.toNat * 2 ^ 62 + c.endv.toNat * 2 ^ 24 + c.endv.toNat) := by
      unfold Counter.word Counter.completed
      dsimp only
      rw [h, Bool.toNat_true, Nat.one_mul]
    rw [hword, BitVec.toNat_ofNat]
    cases c.cancelReq
    · simp only [Bool.toNat_false, Bool.false_eq_true, if_false]
      omega
    · simp only [Bool.toNat_true, if_true]
      omega

theorem devWrite_counters {s t : State} {ctx : Nat} {va : W64} {bs : List Byte} {lctr : Option Nat} {ch : Clocks}
    (h : s.devWrite ctx va bs lctr ch = some t) : t.counters = s.counters := by
  obtain ⟨u, cs, hu, ht⟩ := devWrite_only h
  exact (ht.counters.trans rfl).trans hu.counters

theorem instanceComplete_notifies (s : State) (n pa : Nat) (hdone : (s.counter n).done = false) (hcount : (s.counter n).count = (s.counter n).endv)
    (hbusy : s.instanceBusy n = false) (hno : NoCompanionWrites s) (haddr : (s.counter n).caddr ≠ 0) (hal : (s.counter n).caddr.toNat % 8 = 0)
    (hbias : s.bias.busy = false) (harm : s.inject.arm = false) (hoffs : s.offs = []) (hcxl : s.cxl = []) (hhost : s.host = [])
    (hx : s.xlate (s.counter n).ctx.toNat (s.counter n).caddr .write = .ok pa) (hpa : pa < ctlBase) :
    let c := s.counter n
    let v := if c.level = .launch then c.cval.toNat
      else 2 ^ 63 + (if c.cancelReq then 2 ^ 62 else 0) + c.endv.toNat * 2 ^ 24 + c.endv.toNat
    ∃ t, exec (.instanceComplete n) s = .next t ∧ (t.counter n).done = true ∧
      let at_ := s.homePair c.ctx.toNat pa * 2 ^ 52 + pa
      memNat t.mem at_ 8 = v ∧ ∀ a, (a < at_ ∨ at_ + 8 ≤ a) → memGet t.mem a = memGet s.mem a := by
  intro c v
  have hrel := released_parts hno n
  obtain ⟨hroffs, hrarm⟩ := released_quiet hno hoffs harm n
  have hexec := exec_instanceComplete hdone hcount hbusy hbias
  generalize s.released n = u at hrel hroffs hrarm hexec
  have hu : u.counter n = c := counter_of_counters hrel.counters n
  have hxu : (u.onCounter n Counter.completed).xlate c.ctx.toNat c.caddr .write = .ok pa :=
    (hrel.tables.xlate hrel.mem hrel.mode hrel.cxl hrel.host _ _ _).trans hx
  obtain ⟨w, hw, hmem⟩ := devWrite_word hxu hal hpa (hrel.cxl.trans hcxl) (hrel.host.trans hhost) ((congrArg BiasCtl.busy hrel.bias).trans hbias) hroffs hrarm
    c.value.toNat none c.stamps
  have hnot : u.notified n = w := by
    unfold State.notified
    dsimp only
    rw [hu, if_neg haddr, hw]
  have hwn : w.counter n = c.completed := by
    rw [counter_of_counters (devWrite_counters hw) n, show (u.onCounter n Counter.completed).counter n = (u.counter n).completed from
      MapLaws.get_put_self _ _ _ _, hu]
  rw [hnot, hu] at hexec
  have hhome : (u.onCounter n Counter.completed).homePair c.ctx.toNat pa = s.homePair c.ctx.toNat pa := hrel.tables.homePair hrel.mode _ _
  have humem : (u.onCounter n Counter.completed).mem = s.mem := hrel.mem
  rw [hhome, humem] at hmem
  have hdone' := toParent_counter w c n
  rw [hwn] at hdone'
  refine ⟨_, hexec, (congrArg Counter.done hdone' :), ?_, fun a ha => ?_⟩
  · rw [(toParent_mem w c).1, hmem, memNat_memPut, Nat.mod_eq_of_lt (show c.value.toNat < 256 ^ 8 from c.value.isLt)]
    exact completed_value c hcount
  · rw [(toParent_mem w c).1, hmem]
    exact memPut_outside s.mem (by rwa [length_bytesOf])

end Sys2Proof.Machine
end


section
/-! PROOFS. Notices (R320 to R322): the frame of a trapped crew, and the packet that tells of it. -/

namespace Sys2Proof.Machine

/-! ## What a device's write leaves -/

/-- A state that differs from another only in what a write of a device's own changes. -/
structure WriteSide (s t : State) : Prop where
  rest : { t with
    crews := s.crews, mem := s.mem, stale := s.stale, poison := s.poison, dir := s.dir, offs := s.offs, relLines := s.relLines
    agentSeen := s.agentSeen, resv := s.resv, lastNum := s.lastNum, recs := s.recs, dies := s.dies, inject := s.inject, ckpt := s.ckpt
    swCnt := s.swCnt, agenda := s.agenda, heldReqs := s.heldReqs, reports := s.reports } = s

theorem WriteSide.trans {s t u : State} (h : WriteSide s t) (h' : WriteSide t u) : WriteSide s u := by
  refine ⟨Eq.trans ?_ h.rest⟩
  exact congrArg (fun x : State => { x with
    crews := s.crews, mem := s.mem, stale := s.stale, poison := s.poison, dir := s.dir, offs := s.offs, relLines := s.relLines
    agentSeen := s.agentSeen, resv := s.resv, lastNum := s.lastNum, recs := s.recs, dies := s.dies, inject := s.inject, ckpt := s.ckpt
    swCnt := s.swCnt, agenda := s.agenda, heldReqs := s.heldReqs, reports := s.reports }) h'.rest

theorem MemSide.writeSide {s t : State} (h : MemSide s t) : WriteSide s t := by
  have hrest := congrArg (fun x : State => { x with crews := s.crews }) h.rest
  exact ⟨hrest⟩

theorem devWrite_writeSide {s t : State} {ctx : Nat} {va : W64} {bs : List Byte} {lctr : Option Nat} {ch : Clocks}
    (h : s.devWrite ctx va bs lctr ch = some t) : WriteSide s t := by
  obtain ⟨u, cs, hu, ht⟩ := devWrite_only h
  have htrigger : WriteSide u (u.trigger none cs) := ⟨rfl⟩
  exact (hu.writeSide.trans htrigger).trans ht.writeSide

theorem writeFrame_sides {s t : State} {k : Nat} {r : TrapRec} (h : s.writeFrame k r = some t) : WriteSide s t ∧ SlotSide s t := by
  unfold State.writeFrame at h
  dsimp only at h
  cases hpbv : s.devWrite (s.crew k).ctx ((s.crew k).spill - 0x40180) (s.crew k).pbvBytes with
  | none =>
    rw [hpbv] at h
    cases h
  | some u =>
    rw [hpbv] at h
    exact ⟨(devWrite_writeSide hpbv).trans (devWrite_writeSide h), (devWrite_slotSide hpbv).trans (devWrite_slotSide h)⟩

/-! ## Pushes that come first -/

/-- A state that differs from another only in the hardware queues and the pushes that wait at them. -/
structure QueueSide (s t : State) : Prop where
  rest : { t with queues := s.queues, pushes := s.pushes } = s

theorem QueueSide.trans {s t u : State} (h : QueueSide s t) (h' : QueueSide t u) : QueueSide s u := by
  refine ⟨Eq.trans ?_ h.rest⟩
  exact congrArg (fun x : State => { x with queues := s.queues, pushes := s.pushes }) h'.rest

theorem QueueSide.pushQueue (s : State) (q : Nat) (who : Pusher) (full : Bool) (data : BitVec 1024) (ts : Clocks) :
    QueueSide s (s.pushQueue q who full data ts) := by
  unfold State.pushQueue
  dsimp only
  split
  · exact ⟨rfl⟩
  · split <;> exact ⟨rfl⟩

theorem QueueSide.pushesUpTo (s : State) (upTo : Option Nat) : QueueSide s (s.pushesUpTo upTo) := by
  unfold State.pushesUpTo
  dsimp only
  split
  · exact ⟨rfl⟩
  · exact foldl_keeps (P := QueueSide s) (f := fun s (p : PushReq) => s.pushQueue p.q (.crew p.crew) p.full p.data p.stamp)
      (fun t p h => h.trans (QueueSide.pushQueue t p.q (.crew p.crew) p.full p.data p.stamp)) _ ⟨rfl⟩

/-! ## The packet of a notice -/

/-- A template's number with its arguments replaced. -/
def withArgs (t args : Nat) : Nat := t - fld t 128 64 * 2 ^ 128 + args * 2 ^ 128

theorem withArgs_parts (t args : Nat) : withArgs t args = t % 2 ^ 128 + args * 2 ^ 128 + t / 2 ^ 192 * 2 ^ (128 + 64) := by
  unfold withArgs fld
  omega

theorem withArgs_fld (t : Nat) {args : Nat} (h : args < 2 ^ 64) : fld (withArgs t args) 128 64 = args := by
  rw [withArgs_parts]
  exact fld_at (Nat.mod_lt _ (Nat.two_pow_pos 128)) h

theorem withArgs_bit (t : Nat) {args : Nat} (h : args < 2 ^ 64) {n : Nat} (hn : n < 128 ∨ 192 ≤ n) : (withArgs t args).testBit n = t.testBit n := by
  obtain hn | hn := hn
  · have hlow : withArgs t args % 2 ^ 128 = t % 2 ^ 128 := by
      rw [withArgs_parts]
      omega
    have hbit : ∀ x : Nat, x.testBit n = (x % 2 ^ 128).testBit n := fun x => by
      rw [Nat.testBit_mod_two_pow]
      simp [hn]
    rw [hbit, hlow, ← hbit]
  · have hhigh : withArgs t args / 2 ^ 192 = t / 2 ^ 192 := by
      rw [withArgs_parts]
      omega
    have hbit : ∀ x : Nat, x.testBit n = (x / 2 ^ 192).testBit (n - 192) := fun x => by
      rw [Nat.testBit_div_two_pow, Nat.sub_add_cancel hn]
    rw [hbit, hhigh, ← hbit]

end Sys2Proof.Machine
end


section
/-! PROOFS. The attempts to send a trapped crew's notice (R320, R322). -/

namespace Sys2Proof.Machine

/-- A crew's attempt to send its notice, before its frame is written. -/
def State.tried (s : State) (k : Nat) : State := s.onCrew k fun c => { c with tries := c.tries + 1, heldSince := s.clk }

theorem wantsNotice_trapped {c : Crew} {r : TrapRec} (hphase : c.phase = .trapped) (htrap : c.trap = some r) (hpushed : c.pushed = false) :
    c.wantsNotice = true := by
  unfold Crew.wantsNotice
  rw [hphase, htrap, hpushed]
  rfl

theorem exec_notice {s : State} {k : Nat} {i : Instr} (hwants : (s.crew k).wantsNotice = true) (hdue : NoticeDue s k i) :
    exec i s = .next (s.tryNotice k) := by
  unfold NoticeDue at hdue
  split at hdue
  · obtain ⟨hj, htries, hheld, hatoms, hfix⟩ := hdue
    rw [hj]
    change execNoticePush k s = _
    have hold : decide ((s.crew k).heldSince + s.fixOf (s.crew k).ctx ≤ s.clk) = true := decide_eq_true hfix
    unfold execNoticePush Crew.drained
    dsimp only
    rw [hwants, htries, hheld, hatoms, hold]
    rfl
  · obtain ⟨hj, htries, hclk⟩ := hdue
    rw [hj]
    change execNoticeRetry k s = _
    have hagain : ((s.crew k).tries != 0) = true := bne_iff_ne.mpr htries
    unfold execNoticeRetry
    dsimp only
    rw [hwants, hagain, decide_eq_true hclk]
    rfl
  · exact hdue.elim

section
variable {s : State} {k : Nat} {r : TrapRec} (htrap : (s.crew k).trap = some r) (hnoticed : (s.crew k).noticed = false)
include htrap hnoticed

theorem tryNotice_first : s.tryNotice k = match (s.tried k).writeFrame k r with
    | none => s.tried k
    | some u => (u.onCrew k fun c => { c with noticed := true }).sendNotice k r := by
  have hn : ((s.tried k).crew k).noticed = false := by
    unfold State.tried
    rw [State.onCrew_crew_self]
    exact hnoticed
  have htried : (s.onCrew k fun c => { c with tries := c.tries + 1, heldSince := s.clk }) = s.tried k := rfl
  unfold State.tryNotice
  rw [htrap]
  dsimp only
  rw [htried]
  generalize s.tried k = v at hn
  refine (if_neg (by rw [hn]; exact Bool.false_ne_true)).trans ?_
  cases v.writeFrame k r <;> rfl

theorem tryNotice_faults (h : (s.tried k).writeFrame k r = none) : s.tryNotice k = s.tried k := by
  rw [tryNotice_first htrap hnoticed, h]

theorem tryNotice_writes {s1 : State} (h : (s.tried k).writeFrame k r = some s1) :
    s.tryNotice k = (s1.onCrew k fun c => { c with noticed := true }).sendNotice k r := by
  rw [tryNotice_first htrap hnoticed, h]

end

theorem devRead_onCrew (s : State) (k : Nat) (f : Crew → Crew) (ctx : Nat) (va : W64) (n : Nat) :
    (s.onCrew k f).devRead ctx va n = s.devRead ctx va n := by
  have hx : ∀ va, (s.onCrew k f).xlate ctx va .read = s.xlate ctx va .read := fun va => State.xlate_congr rfl rfl rfl rfl rfl ctx va .read
  unfold State.devRead
  simp only [hx]
  rfl

/-- What holds once the frame is written, in the state u in which the notice is sent. -/
structure Framed (s s1 u : State) (k : Nat) : Prop where
  crew : ∃ m, u.crew k = { s.crew k with tries := (s.crew k).tries + 1, heldSince := s.clk, noticed := true, mon := m }
  mem : u.mem = s1.mem
  read : ∀ ctx va n, u.devRead ctx va n = s1.devRead ctx va n
  trapCfg : u.trapCfg = s.trapCfg
  queues : u.queues = s.queues
  pushes : u.pushes = s.pushes
  clk : u.clk = s.clk
  phys : ∀ c total j, u.phys c total j = s.phys c total j

theorem frameWritten_framed {s s1 : State} {k : Nat} {r : TrapRec} (h : (s.tried k).writeFrame k r = some s1) :
    Framed s s1 (s1.onCrew k fun c => { c with noticed := true }) k := by
  obtain ⟨⟨hrest⟩, hslot⟩ := writeFrame_sides h
  have hself : (s.tried k).crew k = { s.crew k with tries := (s.crew k).tries + 1, heldSince := s.clk } := State.onCrew_crew_self _ k _
  have hcrew := congrArg (fun c : Crew => { c with mon := (s1.crew k).mon }) (hslot.crews k)
  rw [hself] at hcrew
  have hctxs : s1.ctxs = s.ctxs := (congrArg State.ctxs hrest :)
  have hmode : s1.mode = s.mode := (congrArg State.mode hrest :)
  exact {
    crew := ⟨(s1.crew k).mon, (State.onCrew_crew_self _ k _).trans (congrArg (fun c : Crew => { c with noticed := true }) hcrew)⟩
    mem := rfl
    read := devRead_onCrew s1 k _
    trapCfg := (congrArg State.trapCfg hrest :)
    queues := (congrArg State.queues hrest :)
    pushes := (congrArg State.pushes hrest :)
    clk := hslot.clk
    phys := fun c total j => by
      show s1.phys c total j = s.phys c total j
      unfold State.phys State.ctxDev State.ctx
      rw [hctxs, hmode] }

/-- The notice of a crew whose context asks for none. -/
theorem sendNotice_off {s : State} {k : Nat} {r : TrapRec} (h : (Map.get {} s.trapCfg (s.crew k).ctx : TrapCfg).en = false) :
    s.sendNotice k r = (s.pushesUpTo (some k)).onCrew k fun c => { c with pushed := true } := by
  have hside := (QueueSide.pushesUpTo s (some k)).rest
  unfold State.sendNotice
  generalize s.pushesUpTo (some k) = u at hside
  have hcrews : u.crews = s.crews := (congrArg State.crews hside :)
  have htrapCfg : u.trapCfg = s.trapCfg := (congrArg State.trapCfg hside :)
  have hcfg : (Map.get {} u.trapCfg (u.crew k).ctx : TrapCfg).en = false := by
    rw [State.crew_of_crews hcrews k, htrapCfg]
    exact h
  dsimp only
  rw [hcfg]
  rfl

/-- The packet of a notice. -/
def noticePkt (bs : List Byte) (spill : W64) (clk cause : Nat) : Pkt :=
  { data := BitVec.ofNat 1024 (withArgs (ofBytes bs) (spill - 0x40080).toNat), age := clk, notice := some cause }

theorem noticePkt_data (bs : List Byte) (spill : W64) (clk cause : Nat) :
    let p := noticePkt bs spill clk cause
    p.data.extractLsb' 128 64 = spill - 0x40080 ∧
      ∀ n, n < 1024 → (n < 128 ∨ 192 ≤ n) → p.data.getLsbD n = (BitVec.ofNat 1024 (ofBytes bs)).getLsbD n := by
  intro p
  have hargs : (spill - 0x40080).toNat < 2 ^ 64 := BitVec.isLt _
  refine ⟨BitVec.eq_of_getLsbD_eq fun i hi => ?_, fun n hn hout => ?_⟩
  · have hbit : (spill - 0x40080).getLsbD i = (fld (withArgs (ofBytes bs) (spill - 0x40080).toNat) 128 64).testBit i := by
      rw [withArgs_fld _ hargs]
      rfl
    rw [BitVec.getLsbD_extractLsb', hbit, fld, Nat.testBit_mod_two_pow, Nat.testBit_div_two_pow]
    show (decide (i < 64) && (BitVec.ofNat 1024 _).getLsbD (128 + i)) = _
    rw [BitVec.getLsbD_ofNat, decide_eq_true (show 128 + i < 1024 by omega), Bool.true_and, Nat.add_comm 128 i]
  · show (BitVec.ofNat 1024 _).getLsbD n = _
    rw [BitVec.getLsbD_ofNat, BitVec.getLsbD_ofNat, withArgs_bit _ hargs hout]

theorem fate_notice {x : HwQueue} (hen : x.en = true) (hroom : x.pkts.length < 256) : x.fate false true none = .ok := by
  unfold HwQueue.fate
  rw [hen]
  simp [hroom]

/-- The notice of a crew whose context has a queue with room for it. -/
theorem sendNotice_on {s : State} {k : Nat} {r : TrapRec} {bs : List Byte} {x : HwQueue} (hpushes : ∀ p ∈ s.pushes, k < p.crew)
    (hen : (Map.get {} s.trapCfg (s.crew k).ctx : TrapCfg).en = true)
    (hread : s.devRead (s.crew k).ctx (Map.get {} s.trapCfg (s.crew k).ctx : TrapCfg).tmpl 128 = some bs)
    (hx : Map.get {} s.queues (s.phys (s.crew k).ctx 64 (Map.get {} s.trapCfg (s.crew k).ctx : TrapCfg).tq.toNat) = x) (hxen : x.en = true)
    (hroom : x.pkts.length < 256) :
    s.sendNotice k r = (s.appendPkt (s.phys (s.crew k).ctx 64 (Map.get {} s.trapCfg (s.crew k).ctx : TrapCfg).tq.toNat)
      (noticePkt bs (s.crew k).spill s.clk r.cause)).onCrew k fun c => { c with pushed := true } := by
  unfold State.sendNotice
  rw [pushesUpTo_after hpushes]
  dsimp only
  rw [hen, hread, hx, fate_notice hxen hroom]
  rfl

/-- The context's settings, as the state in which the notice is sent has them. -/
theorem Framed.cfg {s s1 u : State} {k : Nat} (h : Framed s s1 u k) :
    (u.crew k).ctx = (s.crew k).ctx ∧ (Map.get {} u.trapCfg (u.crew k).ctx : TrapCfg) = Map.get {} s.trapCfg (s.crew k).ctx := by
  obtain ⟨m, hcrew⟩ := h.crew
  have hctx : (u.crew k).ctx = (s.crew k).ctx := by rw [hcrew]
  exact ⟨hctx, by rw [hctx, h.trapCfg]⟩

theorem Framed.unasked {s s1 u : State} {k : Nat} (h : Framed s s1 u k) (r : TrapRec) (hoff : (Map.get {} s.trapCfg (s.crew k).ctx : TrapCfg).en = false) :
    let c := s.crew k
    let t := u.sendNotice k r
    t.mem = s1.mem ∧ t.crew k = { c with tries := c.tries + 1, heldSince := s.clk, noticed := true, pushed := true, mon := (t.crew k).mon } := by
  intro c t
  have ht : t = (u.pushesUpTo (some k)).onCrew k fun c => { c with pushed := true } := sendNotice_off (by rw [h.cfg.2]; exact hoff)
  obtain ⟨m, hcrew⟩ := h.crew
  have hside := (QueueSide.pushesUpTo u (some k)).rest
  generalize u.pushesUpTo (some k) = v at hside ht
  have hcrews : v.crews = u.crews := (congrArg State.crews hside :)
  have hmem : v.mem = u.mem := (congrArg State.mem hside :)
  rw [ht]
  exact ⟨hmem.trans h.mem, by rw [State.onCrew_crew_self, State.crew_of_crews hcrews k, hcrew]⟩

theorem Framed.sent {s s1 u : State} {k : Nat} (h : Framed s s1 u k) (r : TrapRec) {bs : List Byte} {x : HwQueue}
    (hlater : ∀ p ∈ s.pushes, k < p.crew) (hon : (Map.get {} s.trapCfg (s.crew k).ctx : TrapCfg).en = true)
    (hread : s1.devRead (s.crew k).ctx (Map.get {} s.trapCfg (s.crew k).ctx : TrapCfg).tmpl 128 = some bs) {q : Nat}
    (hq : s.phys (s.crew k).ctx 64 (Map.get {} s.trapCfg (s.crew k).ctx : TrapCfg).tq.toNat = q) (hx : Map.get {} s.queues q = x)
    (hen : x.en = true) (hroom : x.pkts.length < 256) :
    let t := u.sendNotice k r
    t.mem = s1.mem ∧ QueueGets s t q x [noticePkt bs (s.crew k).spill s.clk r.cause] ∧ (t.crew k).noticed = true ∧ (t.crew k).pushed = true := by
  intro t
  obtain ⟨hctx, hcfg⟩ := h.cfg
  obtain ⟨m, hcrew⟩ := h.crew
  have huq : u.phys (u.crew k).ctx 64 (Map.get {} u.trapCfg (u.crew k).ctx : TrapCfg).tq.toNat = q := by
    rw [hcfg, hctx, h.phys]
    exact hq
  have hget : Map.get ({} : HwQueue) u.queues q = x := by
    rw [h.queues]
    exact hx
  have ht : t = (u.appendPkt q (noticePkt bs (u.crew k).spill u.clk r.cause)).onCrew k fun c => { c with pushed := true } := by
    rw [← huq]
    exact sendNotice_on (bs := bs) (by rw [h.pushes]; exact hlater) (by rw [hcfg]; exact hon) (by rw [hcfg, hctx, h.read]; exact hread)
      (by rw [huq]; exact hget) hen hroom
  have hspill : (u.crew k).spill = (s.crew k).spill := by rw [hcrew]
  have hself : t.crew k = { u.crew k with pushed := true } := by
    rw [ht]
    exact State.onCrew_crew_self _ k _
  refine ⟨?_, ⟨?_, fun n hn => ?_⟩, ?_, ?_⟩
  · rw [ht]
    exact h.mem
  · rw [ht, hspill, h.clk]
    exact (MapLaws.get_put_self _ _ _ _).trans (by rw [hget])
  · rw [ht]
    exact (MapLaws.find_put_ne _ _ hn).trans (by rw [h.queues])
  · rw [hself, hcrew]
  · rw [hself]

theorem notice_clause (s : State) (k : Nat) (r : TrapRec) (i : Instr) (hphase : (s.crew k).phase = .trapped) (htrap : (s.crew k).trap = some r)
    (hpushed : (s.crew k).pushed = false) (hnoticed : (s.crew k).noticed = false) (hdue : NoticeDue s k i) :
    let c := s.crew k
    ((s.onCrew k fun c => { c with tries := c.tries + 1, heldSince := s.clk }).writeFrame k r = none →
      ∃ t, exec i s = .next t ∧ OnlyCrew s t k ∧ t.crew k = { c with tries := c.tries + 1, heldSince := s.clk }) ∧
    (∀ s1, frameWritten s k r s1 → let cfg : TrapCfg := Map.get {} s.trapCfg c.ctx
      (cfg.en = false → ∃ t, exec i s = .next t ∧ t.mem = s1.mem ∧
        t.crew k = { c with tries := c.tries + 1, heldSince := s.clk, noticed := true, pushed := true, mon := (t.crew k).mon }) ∧
      (∀ bs x, let q := s.phys c.ctx 64 cfg.tq.toNat
        (∀ p ∈ s.pushes, k < p.crew) → cfg.en = true → s1.devRead c.ctx cfg.tmpl 128 = some bs → Map.get {} s.queues q = x → x.en = true →
        x.pkts.length < 256 →
        ∃ t p, exec i s = .next t ∧ t.mem = s1.mem ∧ QueueGets s t q x [p] ∧ (t.crew k).noticed = true ∧ (t.crew k).pushed = true ∧
          p.age = s.clk ∧ p.notice = some r.cause ∧ p.data.extractLsb' 128 64 = c.spill - 0x40080 ∧
          ∀ n, n < 1024 → (n < 128 ∨ 192 ≤ n) → p.data.getLsbD n = (BitVec.ofNat 1024 (ofBytes bs)).getLsbD n)) := by
  have hexec := exec_notice (wantsNotice_trapped hphase htrap hpushed) hdue
  refine ⟨fun hnone => ?_, fun s1 hwritten => ⟨fun hoff => ?_, fun bs x hlater hon hread hx hen hroom => ?_⟩⟩
  · rw [tryNotice_faults htrap hnoticed hnone] at hexec
    exact ⟨_, hexec, s.onCrew_only k _, State.onCrew_crew_self s k _⟩
  · rw [tryNotice_writes htrap hnoticed hwritten] at hexec
    exact ⟨_, hexec, (frameWritten_framed hwritten).unasked r hoff⟩
  · rw [tryNotice_writes htrap hnoticed hwritten] at hexec
    obtain ⟨hmem, hgets, hnot, hpush⟩ := (frameWritten_framed hwritten).sent r hlater hon hread rfl hx hen hroom
    obtain ⟨hdata, hbits⟩ := noticePkt_data bs (s.crew k).spill s.clk r.cause
    exact ⟨_, _, hexec, hmem, hgets, hnot, hpush, rfl, rfl, hdata, hbits⟩

end Sys2Proof.Machine
end


section
/-! PROOFS. The ends of crews and instances, handler crews, notices, service changes and strikes (R30, R33, R254, R315, R320 to R329). -/

namespace Sys2Proof.Machine

/-- Settles O55, from one lemma per event. -/
theorem crewsEndAndAreHandled : Obligations.CrewsEndAndAreHandled := by
  unfold Obligations.CrewsEndAndAreHandled
  exact ⟨crewEnd_clause,
    instanceComplete_quiet,
    fun s n pa hdone hcount hbusy hno haddr hal hbias harm hoffs hcxl hhost hx hpa =>
      instanceComplete_notifies s n pa hdone hcount hbusy hno haddr hal hbias harm hoffs hcxl hhost hx hpa,
    fun _ _ _ _ h => handlerForm_clause h,
    fun s k r i hphase htrap hpushed hnoticed hdue => notice_clause s k r i hphase htrap hpushed hnoticed hdue,
    frameNat_fields,
    svccfgDone_clause,
    strikeReport_clause⟩

end Sys2Proof.Machine
end


section
/-! PROOFS. Lanes that trap (R39, R115, R325): what a lane-wise instruction leaves of its crew when some lanes meet an enabled
condition. -/

namespace Sys2Proof.Machine

/-! ## Writing lanes -/

theorem Crew.putV_rest (c : Crew) (n : Nat) (m : W32) (f : Nat → W32) : { c.putV n m f with v := c.v } = c := rfl

theorem Crew.putN_rest (c : Crew) (wide : Bool) (n : VReg) (m : W32) (f : Nat → Nat) : { c.putN wide n m f with v := c.v } = c := by
  unfold Crew.putN
  split <;> rfl

theorem Crew.vpl_putVP (c : Crew) (n : Nat) (m : W32) (f : Nat → W64) {l : Nat} (hl : l < 32) (ha : 2 ≤ c.alloc) :
    (c.putVP n m f).vpl n l = if m.getLsbD l then f l else c.vpl n l := by
  split
  · next hm => exact c.vpl_putVP_self n m f hl ha hm
  · next hm =>
    let d := c.putV n m fun l => (f l).extractLsb' 0 32
    have hslot : d.slot n ≠ d.slot (n + 1) := c.slot_succ_ne n ha
    have hhigh : (c.putVP n m f).vl (n + 1) l = c.vl (n + 1) l := by
      rw [Crew.putVP, Crew.vl_putV_self _ _ _ _ hl, if_neg hm, Crew.vl_putV_ne c _ _ l hslot.symm]
    have hlow : (c.putVP n m f).vl n l = c.vl n l := by
      rw [Crew.putVP, Crew.vl_putV_ne d _ _ l hslot, Crew.vl_putV_self _ _ _ _ hl, if_neg hm]
    rw [Crew.vpl, hhigh, hlow, Crew.vpl]

/-- A lane of a register or a pair, once some lanes are written. -/
theorem Crew.vn_putN (c : Crew) (wide : Bool) (n : VReg) (m : W32) (f : Nat → Nat) {l : Nat} (hl : l < 32) (ha : 2 ≤ c.alloc) :
    (c.putN wide n m f).vn wide n l = if m.getLsbD l then f l % 2 ^ (if wide then 64 else 32) else c.vn wide n l := by
  unfold Crew.vn Crew.putN
  cases wide with
  | true =>
    simp only [if_true]
    rw [Crew.vpl_putVP _ _ _ _ hl ha]
    split
    · exact BitVec.toNat_ofNat _ _
    · rfl
  | false =>
    simp only [Bool.false_eq_true, if_false]
    rw [Crew.vl_putV_self _ _ _ _ hl]
    split
    · exact BitVec.toNat_ofNat _ _
    · rfl

/-! ## Raising flags -/

theorem Crew.orLaneFl_rest (c : Crew) (l : Nat) (f : Fl) : { c.orLaneFl l f with laneFlags := c.laneFlags } = c := by
  unfold Crew.orLaneFl
  split <;> rfl

theorem Crew.laneFl_orLaneFl (c : Crew) (l : Nat) (f : Fl) (j : Nat) :
    (c.orLaneFl l f).laneFl j = if j = l then c.laneFl l ||| f else c.laneFl j := by
  unfold Crew.orLaneFl
  split
  · next hf =>
    split
    · next hj =>
      rw [hj, hf]
      exact BitVec.or_zero.symm
    · rfl
  · split
    · next hj =>
      rw [hj]
      exact MapLaws.get_set_self _ _ _ _
    · next hj => exact MapLaws.get_set_ne _ _ _ hj

/-- The flags of some lanes, each raised once. -/
def Crew.raise (c : Crew) (ls : List Nat) (fl : Nat → Fl) : Crew := ls.foldl (fun c l => c.orLaneFl l (fl l)) c

theorem Crew.raise_rest (c : Crew) (ls : List Nat) (fl : Nat → Fl) : { c.raise ls fl with laneFlags := c.laneFlags } = c := by
  refine foldl_keeps (P := fun d : Crew => { d with laneFlags := c.laneFlags } = c) (f := fun c l => c.orLaneFl l (fl l)) (fun d l h => ?_) ls rfl
  exact (congrArg (fun x : Crew => { x with laneFlags := c.laneFlags }) (d.orLaneFl_rest l (fl l))).trans h

theorem Crew.laneFl_raise (ls : List Nat) (fl : Nat → Fl) (hnodup : ls.Nodup) (c : Crew) (j : Nat) :
    (c.raise ls fl).laneFl j = if j ∈ ls then c.laneFl j ||| fl j else c.laneFl j := by
  induction ls generalizing c with
  | nil => rfl
  | cons l ls ih =>
    obtain ⟨hl, hrest⟩ := List.nodup_cons.mp hnodup
    show ((c.orLaneFl l (fl l)).raise ls fl).laneFl j = _
    rw [ih hrest, c.laneFl_orLaneFl]
    by_cases hj : j = l
    · subst hj
      simp [hl]
    · simp [hj]

/-! ## The end of a lane-wise instruction -/

theorem getLsbD_maskOf (p : Nat → Bool) {l : Nat} (hl : l < 32) : (maskOf p).getLsbD l = p l := by
  rw [maskOf, BitVec.getLsbD_ofFnLE, dif_pos hl]

theorem mem_lanesOf_lt {m : W32} {l : Nat} : l ∈ lanesOf m ↔ l < 32 ∧ m.getLsbD l = true := by
  unfold lanesOf lanes
  rw [List.mem_filter, List.mem_range]

theorem nodup_lanesOf (m : W32) : (lanesOf m).Nodup := List.nodup_range.filter _

theorem maskL_lanesOf (m : W32) : maskL (lanesOf m) = m := by
  refine BitVec.eq_of_getLsbD_eq fun l hl => ?_
  rw [getLsbD_maskL _ hl]
  cases h : m.getLsbD l with
  | true => exact List.contains_iff_mem.mpr (mem_lanesOf_lt.mpr ⟨hl, h⟩)
  | false =>
    rw [Bool.eq_false_iff]
    intro hc
    have hm := (mem_lanesOf_lt.mp (List.contains_iff_mem.mp hc)).2
    rw [h] at hm
    cases hm

theorem lanesOf_ne_nil {m : W32} (h : m ≠ 0) : lanesOf m ≠ [] := fun hnil => h (by rw [← maskL_lanesOf m, hnil, maskL_nil])

theorem sendLanes_sends {s : State} {tags : List LaneTag} (hk : s.me.kind ≠ .handler) (ht : s.me.kind ≠ .test) (h : tags ≠ []) :
    s.sendLanes tags = (s.onCore s.myCore fun c => { c with laneWait := c.laneWait ++ tags }).onMe fun c =>
      { c with phase := .lanesOut, out := c.out ||| maskL (tags.map (·.lane)) } := by
  cases tags with
  | nil => exact absurd rfl h
  | cons t ts =>
    unfold State.sendLanes
    cases hkind : s.me.kind with
    | handler => exact absurd hkind hk
    | test => exact absurd hkind ht
    | normal => rfl
    | notice => rfl

/-- The lanes of g whose results meet no enabled condition. -/
def Crew.passing (c : Crew) (g : W32) (res : Nat → LaneRes) : W32 := g &&& ~~~(maskOf fun l => g.getLsbD l && c.enabled (res l) != 0)

/-- The crew of a lane-wise instruction, with the results and the flags of the lanes that do not trap. -/
def Crew.finished (c : Crew) (g : W32) (res : Nat → LaneRes) (write : W32 → Crew → Crew) : Crew :=
  ((write (c.passing g res) c).raise (lanesOf (c.passing g res)) fun l => (res l).fl).next

theorem finishLanes_eq (s : State) (g : W32) (res : Nat → LaneRes) (op : LaneOp) (write : W32 → Crew → Crew) :
    s.finishLanes g res op write = .next ((s.putMe (s.me.finished g res write)).sendLanes
      ((lanesOf (maskOf fun l => g.getLsbD l && s.me.enabled (res l) != 0)).map fun l => s.laneTag s.me op (s.me.enabled (res l)) l)) := by
  have hr : ∀ l, l < 32 → (lanes.map res).getD l {} = res l := fun l hl => by
    unfold lanes
    simp [List.getD_eq_getElem?_getD, hl]
  have hbad : (maskOf fun l => g.getLsbD l && s.me.enabled ((lanes.map res).getD l {}) != 0) =
      maskOf fun l => g.getLsbD l && s.me.enabled (res l) != 0 := by
    unfold maskOf
    refine congrArg BitVec.ofFnLE (funext fun i => ?_)
    show (g.getLsbD i.val && s.me.enabled ((lanes.map res).getD i.val {}) != 0) = _
    rw [hr i.val i.isLt]
  unfold State.finishLanes Crew.finished Crew.raise Crew.passing
  dsimp only
  rw [hbad]
  have hfold : ∀ (m : W32) (d : Crew), (lanesOf m).foldl (fun c l => c.orLaneFl l ((lanes.map res).getD l {}).fl) d =
      (lanesOf m).foldl (fun c l => c.orLaneFl l (res l).fl) d := fun m d =>
    List.foldl_ext _ _ _ fun c l hl => by rw [hr l (mem_lanesOf_lt.mp hl).1]
  rw [hfold]
  refine congrArg (fun ts => Host.Outcome.next (State.sendLanes _ ts)) (List.map_congr_left fun l hl => ?_)
  rw [hr l (mem_lanesOf_lt.mp hl).1]

/-- A crew after a lane-wise instruction: but for vectors, predicates and flags it has only gone on. -/
def LaneStep (c d : Crew) : Prop := { d with v := c.v, p := c.p, laneFlags := c.laneFlags } = c.next

/-- Results in some lanes, whose flags are raised then. -/
theorem raised_step {c w : Crew} (hw : { w with v := c.v, p := c.p } = c) (ls : List Nat) (fl : Nat → Fl) (hnodup : ls.Nodup) :
    LaneStep c (w.raise ls fl).next ∧ (w.raise ls fl).next.v = w.v ∧ (w.raise ls fl).next.p = w.p ∧
      ∀ l, (w.raise ls fl).next.laneFl l = if l ∈ ls then c.laneFl l ||| fl l else c.laneFl l := by
  have hraise := w.raise_rest ls fl
  have hfl : w.laneFlags = c.laneFlags := (congrArg Crew.laneFlags hw :)
  have hlaneFl : ∀ l, (w.raise ls fl).next.laneFl l = (w.raise ls fl).laneFl l := fun _ => rfl
  have hsame : ∀ l, w.laneFl l = c.laneFl l := fun l => congrArg (fun m => Map.get (0 : Fl) m l) hfl
  refine ⟨?_, (congrArg Crew.v hraise :), (congrArg Crew.p hraise :), fun l => ?_⟩
  · unfold LaneStep
    rw [← hfl]
    exact (congrArg (fun x : Crew => { x with v := c.v, p := c.p }.next) hraise).trans (congrArg Crew.next hw)
  · rw [hlaneFl, Crew.laneFl_raise ls fl hnodup, hsame]

/-- Lanes that leave for a handler crew. -/
theorem sendLanes_step {s : State} {d : Crew} {z : W32} {tags : List LaneTag} (hd : LaneStep s.me d) (hk : s.me.kind ≠ .handler)
    (ht : s.me.kind ≠ .test) (hz0 : z ≠ 0) (hlanes : tags.map (·.lane) = lanesOf z) :
    let t := (s.putMe d).sendLanes tags
    t.mem = s.mem ∧ (∀ k, k ≠ s.cur → Map.find? t.crews k = Map.find? s.crews k) ∧
      t.me = { d with phase := .lanesOut, out := s.me.out ||| z } ∧ (t.core s.myCore).laneWait = (s.core s.myCore).laneWait ++ tags := by
  intro t
  have hkind : d.kind = s.me.kind := (congrArg Crew.kind hd :)
  have hout : d.out = s.me.out := (congrArg Crew.out hd :)
  have hu : (s.putMe d).me = d := State.putCrew_crew_self _ _ _
  have hsend : t = ((s.putMe d).onCore s.myCore fun c => { c with laneWait := c.laneWait ++ tags }).onMe fun c =>
      { c with phase := .lanesOut, out := c.out ||| z } := by
    have hsends := sendLanes_sends (s := s.putMe d) (tags := tags) (by rw [hu, hkind]; exact hk) (by rw [hu, hkind]; exact ht) fun hnil => by
      rw [hnil] at hlanes
      exact lanesOf_ne_nil hz0 hlanes.symm
    rw [hlanes, maskL_lanesOf] at hsends
    exact hsends
  rw [hsend]
  refine ⟨rfl, fun k hne => (MapLaws.find_put_ne _ _ hne).trans (MapLaws.find_put_ne _ _ hne), ?_, ?_⟩
  · refine (State.putCrew_crew_self _ _ _).trans ((congrArg (fun c : Crew => { c with phase := .lanesOut, out := c.out ||| z }) hu).trans ?_)
    rw [hout]
  · exact (congrArg Core.laneWait (State.onCore_core_self (s.putMe d) s.myCore fun c => { c with laneWait := c.laneWait ++ tags })).trans rfl

/-- A lane-wise instruction some of whose lanes trap: what it leaves, and its other lanes' results and flags. -/
theorem finishLanes_traps {s : State} {g : W32} {res : Nat → LaneRes} {op : LaneOp} {write : W32 → Crew → Crew} {i : Instr}
    {conds : Nat → BitVec 6} {z : W32} (hk : s.me.kind ≠ .handler) (ht : s.me.kind ≠ .test)
    (hz : (maskOf fun l => g.getLsbD l && s.me.enabled (res l) != 0) = z) (hz0 : z ≠ 0)
    (hconds : ∀ l, l < 32 → z.getLsbD l = true → s.me.enabled (res l) = s.me.tflags &&& conds l)
    (hsrc : ∀ l, l < 32 → op.src l = flagOperands s.me l i) (hcode : op.code = 0)
    (hwrite : { write (g &&& ~~~z) s.me with v := s.me.v, p := s.me.p } = s.me) :
    ∃ t, s.finishLanes g res op write = .next t ∧ LanesTrap s t i z conds op.dest op.pdest ∧
      t.me.v = (write (g &&& ~~~z) s.me).v ∧ t.me.p = (write (g &&& ~~~z) s.me).p ∧
      ∀ l, l < 32 → t.me.laneFl l = if (g &&& ~~~z).getLsbD l then s.me.laneFl l ||| (res l).fl else s.me.laneFl l := by
  have hfin : s.me.finished g res write = ((write (g &&& ~~~z) s.me).raise (lanesOf (g &&& ~~~z)) fun l => (res l).fl).next := by
    rw [Crew.finished, Crew.passing, hz]
  obtain ⟨hd, hv, hp, hfl⟩ := raised_step hwrite (lanesOf (g &&& ~~~z)) (fun l => (res l).fl) (nodup_lanesOf _)
  rw [finishLanes_eq, hz, hfin]
  generalize ((write (g &&& ~~~z) s.me).raise (lanesOf (g &&& ~~~z)) fun l => (res l).fl).next = d at hd hv hp hfl
  generalize htags : ((lanesOf z).map fun l => s.laneTag s.me op (s.me.enabled (res l)) l) = tags
  have hlanes : tags.map (·.lane) = lanesOf z := by
    rw [← htags, List.map_map]
    exact List.map_id _
  obtain ⟨hmem, hothers, hme, hwait⟩ := sendLanes_step hd hk ht hz0 hlanes
  generalize (s.putMe d).sendLanes tags = t at hmem hothers hme hwait
  have hflags : ∀ l, l < 32 → t.me.laneFl l = if (g &&& ~~~z).getLsbD l then s.me.laneFl l ||| (res l).fl else s.me.laneFl l := fun l hl => by
    have hsame : t.me.laneFl l = d.laneFl l := by
      rw [hme]
      rfl
    rw [hsame, hfl l]
    simp only [mem_lanesOf_lt, hl, true_and]
  refine ⟨t, rfl, ⟨hmem, hothers, ?_, fun l hl hin => ?_, tags, hwait, hlanes, fun g hg => ?_⟩, ?_, ?_, hflags⟩
  · rw [hme]
    exact congrArg (fun x : Crew => { x with
      v := d.v, p := d.p, laneFlags := d.laneFlags, phase := .lanesOut, out := s.me.out ||| z }) hd
  · rw [hflags l hl]
    simp [hin]
  · rw [← htags] at hg
    obtain ⟨l, hl, rfl⟩ := List.mem_map.mp hg
    obtain ⟨hlt, hin⟩ := mem_lanesOf_lt.mp hl
    have hs := hsrc l hlt
    exact ⟨rfl, rfl, rfl, rfl, rfl, rfl, rfl, hcode, rfl, rfl, hconds l hlt hin, congrArg (fun x : Nat × Nat × Nat => BitVec.ofNat 64 x.1) hs,
      congrArg (fun x : Nat × Nat × Nat => BitVec.ofNat 64 x.2.1) hs, congrArg (fun x : Nat × Nat × Nat => BitVec.ofNat 64 x.2.2) hs⟩
  · rw [hme]
    exact hv
  · rw [hme]
    exact hp

end Sys2Proof.Machine
end


section
/-! PROOFS. Comparisons that trap lanes (R39, R114, R160). -/

namespace Sys2Proof.Machine

theorem vf_eq_fIn (c : Crew) (ty : FTy) (v : VReg) (l : Nat) : c.vf ty v l = fIn c ty v l := by
  cases ty <;> rfl

theorem pr_congr {c d : Crew} (h : d.p = c.p) (n : PReg) : d.pr n = c.pr n := by
  unfold Crew.pr
  rw [h]

theorem pr_putP_self (c : Crew) {n : PReg} (m x : W32) (hn : n ≠ 0) : (c.putP n m x).pr n = (c.pr n &&& ~~~m) ||| (x &&& m) := by
  unfold Crew.putP Crew.setP
  rw [if_neg hn]
  conv_lhs => rw [Crew.pr, if_neg hn]
  exact MapLaws.get_set_self _ _ _ _

theorem pr_putP_ne (c : Crew) {n q : PReg} (m x : W32) (h : q ≠ n) : (c.putP n m x).pr q = c.pr q := by
  unfold Crew.putP Crew.setP
  split
  · rfl
  · unfold Crew.pr
    split
    · rfl
    · exact MapLaws.get_set_ne _ _ _ fun e => h (BitVec.eq_of_toNat_eq e)

theorem putP_rest (c : Crew) (n : PReg) (m x : W32) : { c.putP n m x with p := c.p } = c := by
  unfold Crew.putP Crew.setP
  split <;> rfl

/-- A lane's condition of %tflags bit 4 alone. -/
theorem enabled_nv {c : Crew} (h : c.tflags.getLsbD 4 = true) (p : Bool) :
    (c.enabled { fl := if p then flNV else 0 } != 0) = p ∧ (p = true → c.enabled { fl := if p then flNV else 0 } = c.tflags &&& 16) := by
  have hnv : ((if (false : Bool) = true then 32 else 0) ||| flNV.zeroExtend 6 : BitVec 6) = 16 := by decide
  have hzero : ((if (false : Bool) = true then 32 else 0) ||| (0 : Fl).zeroExtend 6 : BitVec 6) = 0 := by decide
  unfold Crew.enabled
  cases p with
  | true =>
    show (c.tflags &&& ((if (false : Bool) = true then 32 else 0) ||| flNV.zeroExtend 6) != 0) = true ∧ _
    rw [hnv]
    refine ⟨bne_iff_ne.mpr fun h0 => ?_, fun _ => by rw [if_pos rfl, hnv]⟩
    have hbit : (c.tflags &&& 16).getLsbD 4 = true := by
      rw [BitVec.getLsbD_and, h]
      rfl
    rw [h0] at hbit
    exact absurd hbit (by decide)
  | false =>
    show (c.tflags &&& ((if (false : Bool) = true then 32 else 0) ||| (0 : Fl).zeroExtend 6) != 0) = false ∧ _
    rw [hzero]
    exact ⟨by simp, nofun⟩

theorem vfcmp_traps (s : State) (h : Hd) (cd : Cond) (ty : FTy) (pd : PReg) (va vb : VReg) (hpd : pd ≠ 0) (hk : s.me.kind ≠ .handler)
    (ht : s.me.kind ≠ .test) (hen : s.me.tflags.getLsbD 4 = true) :
    let a := fun l => ty.fmt.decode (fIn s.me ty va l)
    let b := fun l => ty.fmt.decode (fIn s.me ty vb l)
    let z := maskOf fun l => (s.me.gov h).getLsbD l && ((a l).isSig || (b l).isSig)
    z ≠ 0 →
    ∃ t, exec (.vfcmp h cd ty pd va vb) s = .next t ∧
      LanesTrap s t (.vfcmp h cd ty pd va vb) z (fun _ => 16) none (some pd) ∧ t.me.v = s.me.v ∧
      (∀ q, q ≠ pd → t.me.pr q = s.me.pr q) ∧
      ∀ l, l < 32 → t.me.laneFl l = s.me.laneFl l ∧ (t.me.pr pd).getLsbD l =
        if (s.me.gov h).getLsbD l && !z.getLsbD l then FVal.holds cd (a l) (b l) else (s.me.pr pd).getLsbD l := by
  intro a b z hz0
  let res : Nat → LaneRes := fun l => { fl := if (a l).isSig || (b l).isSig then flNV else 0 }
  let write : W32 → Crew → Crew := fun ok d => d.putP pd ok (maskOf fun l => FVal.holds cd (a l) (b l))
  let op : LaneOp := { pdest := some pd, src := fun l => (fIn s.me ty va l, fIn s.me ty vb l, 0) }
  have hexec : exec (.vfcmp h cd ty pd va vb) s = s.finishLanes (s.me.gov h) res op write := by
    change execVfcmp h cd ty pd va vb s = _
    unfold execVfcmp
    simp only [vf_eq_fIn]
    rfl
  have hz : (maskOf fun l => (s.me.gov h).getLsbD l && s.me.enabled (res l) != 0) = z := by
    refine congrArg maskOf (funext fun l => ?_)
    rw [(enabled_nv hen _).1]
  have hin : ∀ l, l < 32 → z.getLsbD l = ((s.me.gov h).getLsbD l && ((a l).isSig || (b l).isSig)) := fun l hl => getLsbD_maskOf _ hl
  obtain ⟨t, hstep, htrap, hv, hp, hfl⟩ := finishLanes_traps (i := .vfcmp h cd ty pd va vb) (conds := fun _ => 16)
    (op := op) (write := write) hk ht hz hz0
    (fun l hl hzl => (enabled_nv hen _).2 (by rw [hin l hl, Bool.and_eq_true] at hzl; exact hzl.2)) (fun _ _ => rfl) rfl
    ((congrArg (fun c : Crew => { c with v := s.me.v }) (putP_rest s.me pd (s.me.gov h &&& ~~~z) _)).trans rfl)
  have hrest := putP_rest s.me pd (s.me.gov h &&& ~~~z) (maskOf fun l => FVal.holds cd (a l) (b l))
  refine ⟨t, hexec.trans hstep, htrap, hv.trans (congrArg Crew.v hrest :), fun q hq => ?_, fun l hl => ⟨?_, ?_⟩⟩
  · rw [pr_congr hp]
    exact pr_putP_ne s.me _ _ hq
  · rw [hfl l hl]
    split
    · next hok =>
      have hnot : ((a l).isSig || (b l).isSig) = false := by
        rw [BitVec.getLsbD_and, BitVec.getLsbD_not, hin l hl] at hok
        revert hok
        cases (s.me.gov h).getLsbD l <;> cases (a l).isSig || (b l).isSig <;> simp
      show _ ||| (if ((a l).isSig || (b l).isSig) = true then flNV else 0) = _
      rw [hnot]
      exact BitVec.or_zero
    · rfl
  · rw [pr_congr hp]
    show ((s.me.putP pd _ _).pr pd).getLsbD l = _
    rw [pr_putP_self _ _ _ hpd]
    simp only [BitVec.getLsbD_or, BitVec.getLsbD_and, BitVec.getLsbD_not, getLsbD_maskOf _ hl, hl, decide_true, Bool.true_and]
    cases (s.me.gov h).getLsbD l <;> cases z.getLsbD l <;> simp

end Sys2Proof.Machine
end


section
/-! PROOFS. Lane-wise instructions that trap lanes: results and flags of the others (R115, R158 to R163). -/

namespace Sys2Proof.Machine

theorem vn_congr {c d : Crew} (hv : d.v = c.v) (hbase : d.base = c.base) (halloc : d.alloc = c.alloc) (wide : Bool) (n : VReg) (l : Nat) :
    d.vn wide n l = c.vn wide n l := by
  unfold Crew.vn Crew.vpl Crew.vl Crew.row Crew.slot
  rw [hv, hbase, halloc]

/-- The conditions of %tflags that a lane's result meets. -/
def LaneRes.conds (r : LaneRes) : BitVec 6 := (if r.dz then 32 else 0) ||| r.fl.zeroExtend 6

theorem getD_lanes_map (f : Nat → LaneRes) {l : Nat} (hl : l < 32) : (lanes.map f).getD l {} = f l := by
  unfold lanes
  simp [List.getD_eq_getElem?_getD, hl]

/-- A lane's register and flags after an instruction some of whose lanes trap. -/
structure LaneDone (c d : Crew) (wide : Bool) (vd : VReg) (l : Nat) (r : LaneRes) : Prop where
  value : d.vn wide vd l = r.bits % 2 ^ (if wide then 64 else 32)
  flags : d.laneFl l = c.laneFl l ||| r.fl

structure LaneKept (c d : Crew) (wide : Bool) (vd : VReg) (l : Nat) : Prop where
  value : d.vn wide vd l = c.vn wide vd l
  flags : d.laneFl l = c.laneFl l

theorem laneInstr_traps {s : State} {h : Hd} {wide : Bool} {vd : VReg} {src : Nat → Nat × Nat × Nat} {res : Nat → LaneRes} {i : Instr}
    {conds : Nat → BitVec 6} {z : W32} (hk : s.me.kind ≠ .handler) (ht : s.me.kind ≠ .test) (ha : 2 ≤ s.me.alloc)
    (hconds : ∀ l, l < 32 → (s.me.gov h).getLsbD l = true → (res l).conds = conds l)
    (hz : (maskOf fun l => (s.me.gov h).getLsbD l && (s.me.tflags &&& conds l) != 0) = z) (hz0 : z ≠ 0)
    (hsrc : ∀ l, l < 32 → src l = flagOperands s.me l i) :
    ∃ t, s.laneInstr h wide vd src res = .next t ∧ LanesTrap s t i z conds (some (vd.toNat, wide)) none ∧ t.me.p = s.me.p ∧
      ∀ l, l < 32 → ((s.me.gov h).getLsbD l = true → z.getLsbD l = false → LaneDone s.me t.me wide vd l (res l)) ∧
        ((s.me.gov h).getLsbD l = false ∨ z.getLsbD l = true → LaneKept s.me t.me wide vd l) := by
  let rs := lanes.map fun l => if (s.me.gov h).getLsbD l then res l else {}
  let write : W32 → Crew → Crew := fun ok c => c.putN wide vd ok fun l => (rs.getD l {}).bits
  have hrs : ∀ l, l < 32 → (s.me.gov h).getLsbD l = true → rs.getD l {} = res l := fun l hl hg => (getD_lanes_map _ hl).trans (if_pos hg)
  have henabled : ∀ l, l < 32 → (s.me.gov h).getLsbD l = true → s.me.enabled (rs.getD l {}) = s.me.tflags &&& conds l := fun l hl hg => by
    rw [hrs l hl hg, ← hconds l hl hg]
    rfl
  have hin : ∀ l, l < 32 → z.getLsbD l = ((s.me.gov h).getLsbD l && (s.me.tflags &&& conds l) != 0) := fun l hl => by
    rw [← hz]
    exact getLsbD_maskOf _ hl
  have hgov : ∀ l, l < 32 → z.getLsbD l = true → (s.me.gov h).getLsbD l = true := fun l hl hzl => by
    rw [hin l hl, Bool.and_eq_true] at hzl
    exact hzl.1
  have hbad : (maskOf fun l => (s.me.gov h).getLsbD l && s.me.enabled (rs.getD l {}) != 0) = z := by
    refine BitVec.eq_of_getLsbD_eq fun l hl => ?_
    rw [getLsbD_maskOf _ hl, hin l hl]
    cases hg : (s.me.gov h).getLsbD l with
    | true => rw [henabled l hl hg]
    | false => rfl
  have hrest := s.me.putN_rest wide vd (s.me.gov h &&& ~~~z) fun l => (rs.getD l {}).bits
  obtain ⟨t, hstep, htrap, hv, hp, hfl⟩ := finishLanes_traps (i := i) (conds := conds) (op := { dest := some (vd.toNat, wide), src }) (write := write)
    hk ht hbad hz0 (fun l hl hzl => henabled l hl (hgov l hl hzl)) hsrc rfl
    ((congrArg (fun c : Crew => { c with p := s.me.p }) hrest).trans rfl)
  have hbase : t.me.base = s.me.base := (congrArg Crew.base htrap.me :)
  have halloc : t.me.alloc = s.me.alloc := (congrArg Crew.alloc htrap.me :)
  have hvn : ∀ l, l < 32 → t.me.vn wide vd l =
      if (s.me.gov h &&& ~~~z).getLsbD l then (rs.getD l {}).bits % 2 ^ (if wide then 64 else 32) else s.me.vn wide vd l := fun l hl => by
    rw [← Crew.vn_putN s.me wide vd _ (fun l => (rs.getD l {}).bits) hl ha]
    exact vn_congr hv (hbase.trans (congrArg Crew.base hrest :).symm) (halloc.trans (congrArg Crew.alloc hrest :).symm) wide vd l
  refine ⟨t, hstep, htrap, hp.trans (congrArg Crew.p hrest :), fun l hl => ⟨fun hg hzl => ?_, fun hout => ?_⟩⟩
  · have hok : (s.me.gov h &&& ~~~z).getLsbD l = true := by
      rw [BitVec.getLsbD_and, BitVec.getLsbD_not, hg, hzl]
      simp [hl]
    refine ⟨?_, ?_⟩
    · rw [hvn l hl, if_pos hok, hrs l hl hg]
    · rw [hfl l hl, if_pos hok, hrs l hl hg]
  · have hok : ¬(s.me.gov h &&& ~~~z).getLsbD l = true := by
      rw [BitVec.getLsbD_and, BitVec.getLsbD_not]
      obtain hg | hzl := hout
      · simp [hg]
      · simp [hzl]
    refine ⟨?_, ?_⟩
    · rw [hvn l hl, if_neg hok]
    · rw [hfl l hl, if_neg hok]

/-! ## The instructions -/

/-- The result that an instruction's definition gives a lane is the one stated. -/
structure LaneAgrees (c : Crew) (i : Instr) (wide : Bool) (l : Nat) (r : LaneRes) : Prop where
  conds : r.conds = flagConds c l i
  result : ∀ x, flagLane c l i = some x → r.bits % 2 ^ (if wide then 64 else 32) = x.bits % 2 ^ (if wide then 64 else 32) ∧ r.fl = x.fl

theorem agrees_of {c : Crew} {i : Instr} {wide : Bool} {l : Nat} {r : FRes} (h : flagLane c l i = some r)
    (hconds : flagConds c l i = r.fl.setWidth 6) : LaneAgrees c i wide l (.of r) := by
  refine ⟨?_, fun x hx => ?_⟩
  · rw [hconds]
    exact BitVec.zero_or
  · rw [h] at hx
    obtain rfl := Option.some.inj hx
    exact ⟨rfl, rfl⟩

/-- How an instruction that raises flags is a lane-wise instruction. -/
def FlagForm (s : State) (i : Instr) (m : W32) (wide : Bool) (vd : VReg) : Prop :=
  ∃ h src res, exec i s = s.laneInstr h wide vd src res ∧ m = s.me.gov h ∧ (∀ l, l < 32 → LaneAgrees s.me i wide l (res l)) ∧
    ∀ l, l < 32 → src l = flagOperands s.me l i

end Sys2Proof.Machine
end


section
/-! PROOFS. Integer division in lanes (R109, R110, R153, R158): the definition's results are those of the manual's tables. -/

namespace Sys2Proof.Machine

/-! ## Values of a type -/

theorem bits_pos (ty : ITy) : 0 < ty.bits := by cases ty <;> decide

theorem bits_le (ty : ITy) (h : ty.wide = false) : ty.bits ≤ 32 := by
  revert h
  cases ty <;> decide

theorem toInt_bvIn (ty : ITy) (x : Nat) : (bvIn ty x).toInt = sInt x ty.bits := by
  have hpow : 2 ^ ty.bits = 2 * 2 ^ (ty.bits - 1) := by
    rw [← Nat.pow_succ', Nat.succ_eq_add_one, Nat.sub_add_cancel (bits_pos ty)]
  unfold bvIn sInt
  rw [BitVec.toInt_eq_toNat_cond, BitVec.toNat_ofNat]
  by_cases h : x % 2 ^ ty.bits < 2 ^ (ty.bits - 1)
  · rw [if_pos h, if_pos (by omega)]
  · rw [if_neg h, if_neg (by omega)]

theorem val_bvInt (ty : ITy) (x : Nat) : ITy.val ty x = bvInt ty (bvIn ty x) := by
  unfold ITy.val bvInt
  split
  · exact (toInt_bvIn ty x).symm
  · rfl

theorem val_mod (ty : ITy) (x : Nat) : ITy.val ty (x % 2 ^ ty.bits) = ITy.val ty x := by
  unfold ITy.val sInt
  rw [Nat.mod_mod]

theorem wrapN_ofInt (x : Int) (n : Nat) : wrapN x n = (BitVec.ofInt n x).toNat := (BitVec.toNat_ofInt ..).symm

/-- How an element lies in its lane (R110). -/
theorem laneOut_bvOutV (ty : ITy) (x : Nat) : laneOut ty x = bvOutV ty (bvIn ty x) := by
  unfold laneOut bvOutV
  cases hw : ty.wide with
  | true =>
    have hbits : ty.bits = 64 := by simpa [ITy.wide] using hw
    rw [if_neg (by omega), if_pos rfl]
    rfl
  | false =>
    have hle := bits_le ty hw
    rw [if_neg Bool.false_ne_true]
    cases hs : ty.signed with
    | true =>
      have hsign : ((bvIn ty x).signExtend 32).toNat = wrapN (sInt x ty.bits) 32 := by
        rw [BitVec.signExtend, ← wrapN_ofInt, toInt_bvIn]
      rw [if_pos rfl, hsign]
      split
      · rfl
      · next hnot =>
        have hbits : ty.bits = 32 := by
          have hlt : ¬ty.bits < 32 := fun hlt => hnot ⟨hlt, rfl⟩
          omega
        rw [hbits, wrapN, sInt]
        split <;> omega
    | false =>
      rw [if_neg (by simp), if_neg Bool.false_ne_true, BitVec.toNat_setWidth]
      show x % 2 ^ ty.bits = x % 2 ^ ty.bits % 2 ^ 32
      refine (Nat.mod_eq_of_lt ?_).symm
      calc x % 2 ^ ty.bits < 2 ^ ty.bits := Nat.mod_lt _ (Nat.two_pow_pos _)
        _ ≤ 2 ^ 32 := Nat.pow_le_pow_right (by decide) hle

theorem bvIn_wrapN (ty : ITy) (x : Int) : bvIn ty (wrapN x ty.bits) = BitVec.ofInt ty.bits x := by
  rw [wrapN_ofInt]
  exact BitVec.eq_of_toNat_eq ((BitVec.toNat_ofNat _ _).trans (Nat.mod_eq_of_lt (BitVec.isLt _)))

/-- An exact result in a type (R109). -/
theorem bvIn_narrow (ty : ITy) (sat : Bool) (x : Int) : bvIn ty (ITy.narrow ty sat x) = bvFit ty sat x := by
  have hle : ITy.lo ty ≤ ITy.hi ty := by cases ty <;> decide
  have hlo : (if ty.signed then -(2 ^ (ty.bits - 1)) else 0 : Int) = ITy.lo ty := by
    unfold ITy.lo
    push_cast
    rfl
  have hhi : (if ty.signed then 2 ^ (ty.bits - 1) - 1 else 2 ^ ty.bits - 1 : Int) = ITy.hi ty := by
    unfold ITy.hi
    push_cast
    rfl
  unfold ITy.narrow bvFit
  dsimp only
  rw [bvIn_wrapN, hlo, hhi]
  refine congrArg (BitVec.ofInt ty.bits) ?_
  cases sat with
  | false => rfl
  | true =>
    simp only [if_true]
    split
    · omega
    · split <;> omega

theorem bvFit_zero (ty : ITy) (sat : Bool) : bvFit ty sat 0 = 0 := by
  cases ty <;> cases sat <;> decide

/-! ## Division -/

theorem laneInt_eq (c : Crew) (ty : ITy) (v : VReg) (l : Nat) : laneInt c ty v l = ITy.val ty (c.vn ty.wide v l) := (val_bvInt ty _).symm

theorem divisor_zero (c : Crew) (ty : ITy) (v : VReg) (l : Nat) : (c.vn ty.wide v l % 2 ^ ty.bits == 0) = decide (laneInt c ty v l = 0) := by
  have hlt : c.vn ty.wide v l % 2 ^ ty.bits < 2 ^ ty.bits := Nat.mod_lt _ (Nat.two_pow_pos _)
  have hval : (laneInt c ty v l = 0) ↔ c.vn ty.wide v l % 2 ^ ty.bits = 0 := by
    rw [laneInt_eq]
    unfold ITy.val sInt
    generalize c.vn ty.wide v l % 2 ^ ty.bits = m at hlt
    have hpos : 0 < 2 ^ (ty.bits - 1) := Nat.two_pow_pos _
    generalize 2 ^ (ty.bits - 1) = half at hpos
    generalize 2 ^ ty.bits = whole at hlt
    split
    · split <;> omega
    · omega
  rw [Bool.eq_iff_iff, beq_iff_eq, decide_eq_true_iff, hval]

theorem ofInt_val (ty : ITy) (x : Nat) : BitVec.ofInt ty.bits (ITy.val ty x) = bvIn ty x := by
  refine BitVec.eq_of_toNat_eq ?_
  rw [BitVec.toNat_ofInt, val_emod, ← Int.natCast_mod, Int.toNat_natCast]
  rfl

theorem vdiv_value (c : Crew) (ty : ITy) (sat : Bool) (va vb : VReg) (l : Nat) :
    laneOut ty (vopVal .div ty sat (c.vn ty.wide va l) (c.vn ty.wide vb l)) =
      bvOutV ty (if laneInt c ty vb l = 0 then 0 else bvFit ty sat ((laneInt c ty va l).tdiv (laneInt c ty vb l))) := by
  rw [laneOut_bvOutV]
  refine congrArg (bvOutV ty) ?_
  show bvIn ty (ITy.narrow ty sat (quotI (ITy.val ty _) (ITy.val ty _))) = _
  rw [bvIn_narrow, ← laneInt_eq, ← laneInt_eq]
  unfold quotI
  split
  · exact bvFit_zero ty sat
  · rfl

theorem vrem_value (c : Crew) (ty : ITy) (va vb : VReg) (l : Nat) :
    laneOut ty (vopVal .rem ty false (c.vn ty.wide va l) (c.vn ty.wide vb l)) =
      bvOutV ty (if laneInt c ty vb l = 0 then laneBv c ty va l else bvFit ty false ((laneInt c ty va l).tmod (laneInt c ty vb l))) := by
  rw [laneOut_bvOutV]
  refine congrArg (bvOutV ty) ?_
  show bvIn ty (wrapN (remI (ITy.val ty (_ % 2 ^ ty.bits)) (ITy.val ty (_ % 2 ^ ty.bits))) ty.bits) = _
  rw [val_mod, val_mod, bvIn_wrapN, ← laneInt_eq, ← laneInt_eq]
  unfold remI
  split
  · rw [laneInt_eq]
    exact ofInt_val ty _
  · rfl

/-! ## The instructions as lane-wise instructions -/

theorem zeroed_conds (p : Bool) (b : Nat) : LaneRes.conds { bits := b, dz := p } = if p = true then 32 else 0 := by
  have hflag : ∀ q : Bool, ((if q then 32 else 0) ||| BitVec.setWidth 6 (0 : Fl) : BitVec 6) = if q = true then 32 else 0 := by decide
  exact hflag p

theorem lanesOf_range (m : W32) : lanesOf m = (List.range 32).filter fun l => m.getLsbD l := rfl

theorem srcLane_eq (c : Crew) (wide : Bool) (v : VReg) (l : Nat) : c.srcLane wide v l = liveLane c wide v l := rfl

section
variable {s : State}

theorem vflt2_form (i : Instr) {h : Hd} {ty : FTy} {vd va vb : VReg} {f : Nat → Nat → FRes} (hexec : exec i s = s.vflt2 h ty vd va vb f)
    (hlane : ∀ l, flagLane s.me l i = some (f (fIn s.me ty va l) (fIn s.me ty vb l)))
    (hconds : ∀ l, flagConds s.me l i = (f (fIn s.me ty va l) (fIn s.me ty vb l)).fl.setWidth 6)
    (hsrc : ∀ l, flagOperands s.me l i = (fIn s.me ty va l, fIn s.me ty vb l, 0)) : FlagForm s i (s.me.gov h) (ty == .f64) vd := by
  refine ⟨h, fun l => (fIn s.me ty va l, fIn s.me ty vb l, 0), fun l => .of (f (fIn s.me ty va l) (fIn s.me ty vb l)), ?_, rfl,
    fun l _ => agrees_of (hlane l) (hconds l), fun l _ => (hsrc l).symm⟩
  rw [hexec]
  unfold State.vflt2
  simp only [vf_eq_fIn]
  rfl

theorem vflt1_form (i : Instr) {h : Hd} {ty : FTy} {vd va : VReg} {f : Nat → FRes} (hexec : exec i s = s.vflt1 h ty vd va f)
    (hlane : ∀ l, flagLane s.me l i = some (f (fIn s.me ty va l))) (hconds : ∀ l, flagConds s.me l i = (f (fIn s.me ty va l)).fl.setWidth 6)
    (hsrc : ∀ l, flagOperands s.me l i = (fIn s.me ty va l, 0, 0)) : FlagForm s i (s.me.gov h) (ty == .f64) vd := by
  refine ⟨h, fun l => (fIn s.me ty va l, 0, 0), fun l => .of (f (fIn s.me ty va l)), ?_, rfl, fun l _ => agrees_of (hlane l) (hconds l),
    fun l _ => (hsrc l).symm⟩
  rw [hexec]
  unfold State.vflt1
  simp only [vf_eq_fIn]
  rfl

theorem vflt3_form (i : Instr) {h : Hd} {r : Rnd} {ty : FTy} {vd va vb vc : VReg} (hexec : exec i s = s.vflt3 h r ty vd va vb vc)
    (hlane : ∀ l, flagLane s.me l i = some (ty.fmt.fma r (fIn s.me ty va l) (fIn s.me ty vb l) (fIn s.me ty vc l)))
    (hconds : ∀ l, flagConds s.me l i = (ty.fmt.fma r (fIn s.me ty va l) (fIn s.me ty vb l) (fIn s.me ty vc l)).fl.setWidth 6)
    (hsrc : ∀ l, flagOperands s.me l i = (fIn s.me ty va l, fIn s.me ty vb l, fIn s.me ty vc l)) :
    FlagForm s i (s.me.gov h) (ty == .f64) vd := by
  refine ⟨h, fun l => (fIn s.me ty va l, fIn s.me ty vb l, fIn s.me ty vc l),
    fun l => .of (ty.fmt.fma r (fIn s.me ty va l) (fIn s.me ty vb l) (fIn s.me ty vc l)), ?_, rfl,
    fun l _ => agrees_of (hlane l) (hconds l), fun l _ => (hsrc l).symm⟩
  rw [hexec]
  unfold State.vflt3
  simp only [vf_eq_fIn]
  rfl

theorem vdivide_form (i : Instr) {h : Hd} {op : SOp} {ty : ITy} {sat : Bool} {vd va vb : VReg} {v : Nat → Nat}
    (hexec : exec i s = s.vdivide h op ty sat vd va vb)
    (hvalue : ∀ l, laneOut ty (vopVal op ty sat (s.me.vn ty.wide va l) (s.me.vn ty.wide vb l)) = v l)
    (hlane : ∀ l, flagLane s.me l i = some ⟨v l, 0⟩) (hconds : ∀ l, flagConds s.me l i = if laneInt s.me ty vb l = 0 then 32 else 0)
    (hsrc : ∀ l, flagOperands s.me l i = (s.me.vn ty.wide va l, s.me.vn ty.wide vb l, 0)) : FlagForm s i (s.me.gov h) ty.wide vd := by
  refine ⟨h, _, _, hexec, rfl, fun l _ => ⟨?_, fun x hx => ?_⟩, fun l _ => (hsrc l).symm⟩
  · rw [zeroed_conds, hconds l, divisor_zero]
    simp only [decide_eq_true_eq]
  · rw [hlane l] at hx
    obtain rfl := Option.some.inj hx
    exact ⟨congrArg (· % _) (hvalue l), rfl⟩

end

theorem vcvt_form {s : State} (h : Hd) (r : Rnd) (sat : Bool) (dst src : Ty) (vd va : VReg) :
    FlagForm s (.vcvt h r sat dst src vd va) (s.me.gov h) dst.wide vd := by
  refine ⟨h, _, _, rfl, rfl, fun l _ => ?_, fun _ _ => rfl⟩
  cases dst with
  | int t =>
    refine ⟨BitVec.zero_or, fun x hx => ?_⟩
    obtain rfl := Option.some.inj hx
    exact ⟨congrArg (· % _) (laneOut_bvOutV t _), rfl⟩
  | flt t => exact agrees_of rfl rfl
  | blk t => exact agrees_of rfl rfl

theorem vscan_agrees (c : Crew) (h : Hd) (op : Rop) (ty : Ty) (sat : Bool) (vd va : VReg) (l : Nat) :
    LaneAgrees c (.vscan h op ty sat vd va) ty.wide l
      (.of (redVals op ty sat (((lanesOf (c.gov h)).filter (· ≤ l)).map (c.srcLane ty.wide va)))) := by
  have hlanes : (lanesOf (c.gov h)).filter (· ≤ l) = (List.range 32).filter fun j => (c.gov h).getLsbD j && decide (j ≤ l) := by
    rw [lanesOf_range, List.filter_filter]
    exact List.filter_congr fun j _ => Bool.and_comm _ _
  rw [hlanes]
  exact agrees_of rfl rfl

/-- Every instruction that raises flags, but for `vpack`, is a lane-wise instruction with the results and operands stated. -/
theorem flagForm {s : State} {i : Instr} {m : W32} {wide : Bool} {vd : VReg} (h : flagLaneDest s.me i = some (m, wide, vd))
    (hpack : ∀ h fmt d a, i ≠ .vpack h fmt d a) : FlagForm s i m wide vd := by
  cases i with
  | vdiv h ty sat vd va vb =>
    cases h
    exact vdivide_form _ rfl (fun l => vdiv_value s.me ty sat va vb l) (fun _ => rfl) (fun _ => rfl) fun _ => rfl
  | vrem h ty vd va vb =>
    cases h
    exact vdivide_form _ rfl (fun l => vrem_value s.me ty va vb l) (fun _ => rfl) (fun _ => rfl) fun _ => rfl
  | vfadd h r ty vd va vb =>
    cases h
    exact vflt2_form _ rfl (fun _ => rfl) (fun _ => rfl) fun _ => rfl
  | vfsub h r ty vd va vb =>
    cases h
    exact vflt2_form _ rfl (fun _ => rfl) (fun _ => rfl) fun _ => rfl
  | vfmul h r ty vd va vb =>
    cases h
    exact vflt2_form _ rfl (fun _ => rfl) (fun _ => rfl) fun _ => rfl
  | vfdiv h r ty vd va vb =>
    cases h
    exact vflt2_form _ rfl (fun _ => rfl) (fun _ => rfl) fun _ => rfl
  | vfmaF16 h r vd va vb vc =>
    cases h
    exact vflt3_form (ty := .f16) _ rfl (fun _ => rfl) (fun _ => rfl) fun _ => rfl
  | vfmaF32 h r vd va vb vc =>
    cases h
    exact vflt3_form (ty := .f32) _ rfl (fun _ => rfl) (fun _ => rfl) fun _ => rfl
  | vfmaF64 h r vd va vb vc =>
    cases h
    exact vflt3_form (ty := .f64) _ rfl (fun _ => rfl) (fun _ => rfl) fun _ => rfl
  | vfsqrt h r ty vd va =>
    cases h
    exact vflt1_form _ rfl (fun _ => rfl) (fun _ => rfl) fun _ => rfl
  | vfrnd h r ty vd va =>
    cases h
    exact vflt1_form _ rfl (fun _ => rfl) (fun _ => rfl) fun _ => rfl
  | vfrcp h ty vd va =>
    cases h
    exact vflt1_form _ rfl (fun _ => rfl) (fun _ => rfl) fun _ => rfl
  | vfrsq h ty vd va =>
    cases h
    exact vflt1_form _ rfl (fun _ => rfl) (fun _ => rfl) fun _ => rfl
  | vfexp2 h ty vd va =>
    cases h
    exact vflt1_form _ rfl (fun _ => rfl) (fun _ => rfl) fun _ => rfl
  | vflog2 h ty vd va =>
    cases h
    exact vflt1_form _ rfl (fun _ => rfl) (fun _ => rfl) fun _ => rfl
  | vfsin h ty vd va =>
    cases h
    exact vflt1_form _ rfl (fun _ => rfl) (fun _ => rfl) fun _ => rfl
  | vfcos h ty vd va =>
    cases h
    exact vflt1_form _ rfl (fun _ => rfl) (fun _ => rfl) fun _ => rfl
  | vfmin h ty vd va vb =>
    cases h
    exact vflt2_form _ rfl (fun _ => rfl) (fun _ => rfl) fun _ => rfl
  | vfmax h ty vd va vb =>
    cases h
    exact vflt2_form _ rfl (fun _ => rfl) (fun _ => rfl) fun _ => rfl
  | vfdot h r vd va vb =>
    cases h
    exact ⟨h, _, _, rfl, rfl, fun l _ => agrees_of rfl rfl, fun _ _ => rfl⟩
  | vcvt h r sat dst src vd va =>
    cases h
    exact vcvt_form h r sat dst src vd va
  | vred h op ty sat vd va =>
    cases h
    exact ⟨h, _, _, rfl, rfl, fun l _ => agrees_of rfl rfl, fun _ _ => rfl⟩
  | vscan h op ty sat vd va =>
    cases h
    exact ⟨h, _, _, rfl, rfl, fun l _ => vscan_agrees s.me h op ty sat vd va l, fun _ _ => rfl⟩
  | vpack hd fmt d a => exact absurd rfl (hpack hd fmt d a)
  | _ => cases h

end Sys2Proof.Machine
end


section
/-! PROOFS. The numbers that packing is made of (R117 to R120): scaling by a power of two, rounding to the nearest, the exponent of
the largest magnitude. -/

namespace Sys2Proof.Machine

theorem scaleQ_den_pos (m : Nat) (e : Int) : 0 < (scaleQ m 1 e).2 := by
  unfold scaleQ
  split
  · exact Nat.one_pos
  · exact Nat.mul_pos Nat.one_pos (Nat.two_pow_pos _)

/-- A number scaled by a power of two, as a fraction. -/
theorem scaleQ_value (m : Nat) (e : Int) : ((scaleQ m 1 e).1 : ℚ) / (scaleQ m 1 e).2 = m * (2 : ℚ) ^ e := by
  unfold scaleQ
  split
  · next he =>
    obtain ⟨n, rfl⟩ := Int.eq_ofNat_of_zero_le he
    simp
  · next he =>
    obtain ⟨n, rfl⟩ : ∃ n : Nat, e = -n := ⟨(-e).toNat, by omega⟩
    simp [div_eq_mul_inv]

theorem scaleQ_lt_iff (m : Nat) (e : Int) (k : Nat) : (scaleQ m 1 e).1 < k * (scaleQ m 1 e).2 ↔ (m : ℚ) * (2 : ℚ) ^ e < k := by
  rw [← scaleQ_value, div_lt_iff₀ (by exact_mod_cast scaleQ_den_pos m e)]
  exact_mod_cast Iff.rfl

theorem pow2Lt_iff (m : Nat) (e k : Int) : pow2Lt m e k = true ↔ (m : ℚ) * (2 : ℚ) ^ e < (2 : ℚ) ^ k := by
  have hpos : (0 : ℚ) < (2 : ℚ) ^ k := zpow_pos two_pos k
  have hscaled : (scaleQ m 1 (e - k)).1 < 1 * (scaleQ m 1 (e - k)).2 ↔ _ := scaleQ_lt_iff m (e - k) 1
  unfold pow2Lt
  rw [decide_eq_true_iff, ← Nat.one_mul (scaleQ m 1 (e - k)).2, hscaled, zpow_sub₀ two_ne_zero, ← mul_div_assoc, div_lt_iff₀ hpos]
  simp

/-- Rounding to the nearest gives the nearest integer, the even one of two. -/
theorem roundNat_nearest (n : Nat) {d : Nat} (hd : 0 < d) : NearestEven ((n : ℚ) / d) (roundNat .rn false n d) := by
  have hdq : (0 : ℚ) < d := by exact_mod_cast hd
  have hn : (n : ℚ) = d * (n / d : Nat) + (n % d : Nat) := by exact_mod_cast (Nat.div_add_mod n d).symm
  have hrem := Nat.mod_lt n hd
  have hdown : (n : ℚ) / d - (n / d : Nat) = (n % d : Nat) / d := by
    rw [div_sub' hdq.ne', hn]
    push_cast
    ring
  have hup : (n : ℚ) / d - (n / d + 1 : Nat) = -((d - n % d : Nat) / d) := by
    rw [Nat.cast_sub hrem.le, sub_div, div_self hdq.ne', ← hdown]
    push_cast
    ring
  have habs (a : Nat) : |(a : ℚ) / d| = a / d := abs_of_nonneg (by positivity)
  have hle (a : Nat) : (a : ℚ) / d ≤ 1 / 2 ↔ 2 * a ≤ d := by
    rw [div_le_div_iff₀ hdq two_pos]
    exact_mod_cast (by omega : a * 2 ≤ 1 * d ↔ 2 * a ≤ d)
  have heq (a : Nat) : (a : ℚ) / d = 1 / 2 ↔ 2 * a = d := by
    rw [div_eq_div_iff hdq.ne' two_ne_zero]
    exact_mod_cast (by omega : a * 2 = 1 * d ↔ 2 * a = d)
  unfold NearestEven roundNat
  dsimp only
  split
  · next h0 =>
    rw [hdown, habs, hle, heq]
    omega
  · split
    · next hhalf =>
      rw [hup, abs_neg, habs, hle, heq]
      omega
    · next hhalf =>
      rw [hdown, habs, hle, heq]
      omega

/-- The exponent of a magnitude. -/
theorem log2Q_eq {m : Nat} (hm : m ≠ 0) (e : Int) : log2Q m 1 e = Nat.log2 m + e := by
  have hlow := Nat.log2_self_le hm
  have hhigh : m < 2 ^ (Nat.log2 m + 1) := Nat.lt_log2_self
  have hscale : scaleQ m 1 (-((Nat.log2 m : Int) - (Nat.log2 1 : Int))) = (m, 2 ^ Nat.log2 m) := by
    unfold scaleQ
    have hlog1 : Nat.log2 1 = 0 := by decide
    rw [hlog1]
    split
    · next h =>
      have h0 : Nat.log2 m = 0 := by omega
      rw [h0]
      simp
    · simp
  unfold log2Q
  dsimp only
  rw [hscale]
  dsimp only
  rw [if_neg (Nat.not_lt.mpr hlow), if_neg (by rw [Nat.pow_succ] at hhigh; omega)]
  have hlog1 : Nat.log2 1 = 0 := by decide
  rw [hlog1]
  simp

theorem log2Q_spec {m : Nat} (hm : m ≠ 0) (e : Int) :
    (2 : ℚ) ^ log2Q m 1 e ≤ m * (2 : ℚ) ^ e ∧ (m : ℚ) * (2 : ℚ) ^ e < (2 : ℚ) ^ (log2Q m 1 e + 1) := by
  have hlow : ((2 : ℚ)) ^ (Nat.log2 m) ≤ m := by exact_mod_cast Nat.log2_self_le hm
  have hhigh : (m : ℚ) < (2 : ℚ) ^ (Nat.log2 m + 1) := by exact_mod_cast Nat.lt_log2_self (n := m)
  have hpos : (0 : ℚ) < (2 : ℚ) ^ e := zpow_pos two_pos e
  rw [log2Q_eq hm, add_right_comm, zpow_add₀ two_ne_zero, zpow_add₀ two_ne_zero]
  exact ⟨mul_le_mul_of_nonneg_right (by exact_mod_cast hlow) hpos.le, mul_lt_mul_of_pos_right (by exact_mod_cast hhigh) hpos⟩

end Sys2Proof.Machine
end


section
/-! PROOFS. The bytes and the flags of a packed block (R117 to R120): its head, its elements, and the shape of packing. -/

namespace Sys2Proof.Machine

/-! ## Bits of a sum of fields -/

theorem fld_add_low (x y : Nat) {lo q n : Nat} (h : q + n ≤ lo) : fld (x + y * 2 ^ lo) q n = fld x q n := by
  unfold fld
  obtain ⟨k, rfl⟩ := Nat.exists_eq_add_of_le h
  have hsum : x + y * 2 ^ (q + n + k) = x + y * 2 ^ k * 2 ^ n * 2 ^ q := by
    rw [Nat.pow_add, Nat.pow_add]
    ring
  rw [hsum, Nat.add_mul_div_right _ _ (Nat.two_pow_pos q), Nat.add_mul_mod_self_right]

theorem fld_add_high {x : Nat} (y : Nat) {lo : Nat} (hx : x < 2 ^ lo) (j n : Nat) : fld (x + y * 2 ^ lo) (lo + j) n = fld y j n := by
  unfold fld
  rw [Nat.pow_add, ← Nat.div_div_eq_div_mul, Nat.add_mul_div_right _ _ (Nat.two_pow_pos lo), Nat.div_eq_of_lt hx, Nat.zero_add]

theorem add_mul_pow_lt {x y lo n : Nat} (hx : x < 2 ^ lo) (hy : y < 2 ^ n) : x + y * 2 ^ lo < 2 ^ (lo + n) := by
  have hstep : (y + 1) * 2 ^ lo ≤ 2 ^ n * 2 ^ lo := Nat.mul_le_mul_right _ hy
  rw [Nat.add_mul, Nat.one_mul] at hstep
  rw [Nat.pow_add, Nat.mul_comm (2 ^ lo)]
  omega

theorem fld_self {x n : Nat} (hx : x < 2 ^ n) : fld x 0 n = x := by
  unfold fld
  rw [Nat.pow_zero, Nat.div_one, Nat.mod_eq_of_lt hx]

/-! ## Elements over a head -/

/-- The first n elements of a block, each w bits wide, over its head. -/
def withElems (w : Nat) (elem : Nat → Nat) (head n : Nat) : Nat := (List.range n).foldl (fun b i => b + elem i * 2 ^ (16 + i * w)) head

section
variable {w head : Nat} {elem : Nat → Nat}

theorem withElems_succ (n : Nat) : withElems w elem head (n + 1) = withElems w elem head n + elem n * 2 ^ (16 + n * w) := by
  unfold withElems
  rw [List.range_succ, List.foldl_append]
  rfl

theorem withElems_lt (hhead : head < 2 ^ 16) (helem : ∀ i, elem i < 2 ^ w) (n : Nat) : withElems w elem head n < 2 ^ (16 + n * w) := by
  induction n with
  | zero => simpa [withElems] using hhead
  | succ n ih =>
    rw [withElems_succ, Nat.add_mul, Nat.one_mul, ← Nat.add_assoc]
    exact add_mul_pow_lt ih (helem n)

theorem fld_withElems_head {q k : Nat} (h : q + k ≤ 16) (n : Nat) : fld (withElems w elem head n) q k = fld head q k := by
  induction n with
  | zero => rfl
  | succ n ih => rw [withElems_succ, fld_add_low _ _ (by omega), ih]

theorem fld_withElems (hhead : head < 2 ^ 16) (helem : ∀ i, elem i < 2 ^ w) {i n j k : Nat} (hi : i < n) (hj : j + k ≤ w) :
    fld (withElems w elem head n) (16 + i * w + j) k = fld (elem i) j k := by
  induction n with
  | zero => exact absurd hi (Nat.not_lt_zero i)
  | succ n ih =>
    rw [withElems_succ]
    obtain hlt | rfl := Nat.lt_succ_iff_lt_or_eq.mp hi
    · have hbelow : (i + 1) * w ≤ n * w := Nat.mul_le_mul_right w hlt
      rw [Nat.add_mul, Nat.one_mul] at hbelow
      rw [fld_add_low _ _ (by omega), ih hlt]
    · exact fld_add_high _ (withElems_lt hhead helem i) j k

end

/-! ## The sign and the magnitude of an element -/

section
variable {k n : Nat}

theorem signed_lt (hk : k < 2 ^ n) (neg : Bool) : k + (if neg then 2 ^ n else 0) < 2 ^ (n + 1) := by
  rw [Nat.pow_succ]
  split <;> omega

theorem fld_signed_mag (hk : k < 2 ^ n) (neg : Bool) : fld (k + (if neg then 2 ^ n else 0)) 0 n = k := by
  have hsum : k + (if neg then 2 ^ n else 0) = k + neg.toNat * 2 ^ n := by cases neg <;> simp
  rw [hsum, fld_add_low _ _ (by omega), fld_self hk]

theorem fld_signed_sign (hk : k < 2 ^ n) (neg : Bool) : fld (k + (if neg then 2 ^ n else 0)) n 1 = neg.toNat := by
  have hsum : k + (if neg then 2 ^ n else 0) = k + neg.toNat * 2 ^ n := by cases neg <;> simp
  have hfld := fld_add_high neg.toNat hk 0 1
  rw [Nat.add_zero] at hfld
  rw [hsum, hfld]
  exact fld_self (Bool.toNat_lt neg)

end

/-! ## Flags gathered over the elements -/

theorem getLsbD_foldl_or (f : Nat → Fl) (b n : Nat) :
    ((List.range n).foldl (fun x i => x ||| f i) 0).getLsbD b = true ↔ ∃ i, i < n ∧ (f i).getLsbD b = true := by
  induction n with
  | zero => simp
  | succ n ih =>
    rw [List.range_succ, List.foldl_append, List.foldl_cons, List.foldl_nil, BitVec.getLsbD_or, Bool.or_eq_true, ih]
    refine ⟨?_, ?_⟩
    · rintro (⟨i, hi, h⟩ | h)
      · exact ⟨i, by omega, h⟩
      · exact ⟨n, by omega, h⟩
    · rintro ⟨i, hi, h⟩
      obtain hlt | rfl := Nat.lt_succ_iff_lt_or_eq.mp hi
      · exact .inl ⟨i, hlt, h⟩
      · exact .inr h

/-! ## The parts of packing -/

def notFinite : FVal → Bool
  | .fin .. => false
  | _ => true

def isInf : FVal → Bool
  | .inf _ => true
  | _ => false

/-- An exponent raised to that of a datum. -/
def raiseTop (g : Int) (v : FVal) : Int := match v with
  | .fin _ m e => if m = 0 then g else max g (log2Q m 1 e)
  | _ => g

/-- The largest exponent of some data, -1000 when all are zeros. -/
def packTop (vs : List FVal) : Int := vs.foldl raiseTop (-1000)

def packExp (vs : List FVal) : Int := max 1 (min 254 (packTop vs + 127))

def packStep (vs : List FVal) (q : Nat) : Nat := quadStep (packExp vs) ((vs.drop (4 * q)).take 4)

def packHead (vs : List FVal) : Nat :=
  (packExp vs).toNat + 256 * (packStep vs 0 + 4 * packStep vs 1 + 16 * packStep vs 2 + 64 * packStep vs 3)

/-- The exponent of the unit of element i. -/
def packUnit (t : PTy) (vs : List FVal) (i : Nat) : Int := packExp vs - 127 - (packStep vs (i / 4) : Int) - ((t.m : Int) - 1)

/-- A magnitude in units of 2^u, rounded. -/
def unitRound (u : Int) (m : Nat) (e : Int) : Nat := roundNat .rn false (scaleQ m 1 (e - u)).1 (scaleQ m 1 (e - u)).2

/-- Whether an element's magnitude has more bits than the format. -/
def tooBig (t : PTy) (u : Int) (m : Nat) (e : Int) : Bool := decide (unitRound u m e ≥ 2 ^ t.m)

def unitMag (t : PTy) (u : Int) (m : Nat) (e : Int) : Nat := if tooBig t u m e then 2 ^ t.m - 1 else unitRound u m e

/-- The flags of an element: too big, inexact, not zero but with magnitude zero. -/
def elemFlags (big inexact tiny : Bool) : Fl := (if big then flOF ||| flNX else 0) ||| (if inexact then flNX else 0) ||| (if tiny then flUF else 0)

def packWord (t : PTy) (u : Int) : FVal → Nat
  | .fin neg m e => unitMag t u m e + (if neg then 2 ^ t.m else 0)
  | _ => 0

def packFlags (t : PTy) (u : Int) : FVal → Fl
  | .fin _ m e => elemFlags (tooBig t u m e) (unitMag t u m e * (scaleQ m 1 (e - u)).2 != (scaleQ m 1 (e - u)).1)
      (m != 0 && unitMag t u m e == 0)
  | _ => 0

theorem pack_of_notFinite (t : PTy) {xs : List Nat} (h : (xs.map fmt32.decode).any notFinite = true) :
    t.pack xs = (255, if (xs.map fmt32.decode).any (fun v => v.isSig || isInf v) then flNV else 0) := by
  unfold PTy.pack
  exact if_pos h

theorem pack_of_zeros (t : PTy) {xs : List Nat} (hfin : (xs.map fmt32.decode).any notFinite = false)
    (hzero : (xs.map fmt32.decode).all FVal.isZero = true) :
    t.pack xs = (withElems (t.m + 1) (fun i => if ((xs.map fmt32.decode).getD i (.fin false 0 0)).isNeg then 2 ^ t.m else 0) 0 16, 0) := by
  unfold PTy.pack
  refine (if_neg (Bool.eq_false_iff.mp hfin)).trans ((if_pos hzero).trans (congrArg (·, (0 : Fl)) ?_))
  refine List.foldl_ext _ _ _ fun b i _ => congrArg (b + ·) ?_
  dsimp only
  split
  · exact (Nat.pow_add' 2 _ t.m)
  · exact (Nat.zero_mul _).symm

theorem foldl_pair (f : Nat → Nat → Nat) (g : Nat → Fl → Fl) (l : List Nat) (a : Nat) (b : Fl) :
    l.foldl (fun acc i => (f i acc.1, g i acc.2)) (a, b) = (l.foldl (fun x i => f i x) a, l.foldl (fun x i => g i x) b) := by
  induction l generalizing a b with
  | nil => rfl
  | cons i l ih => exact ih _ _

theorem pack_of_finite (t : PTy) {xs : List Nat} (hfin : (xs.map fmt32.decode).any notFinite = false)
    (hzero : (xs.map fmt32.decode).all FVal.isZero = false) :
    let vs := xs.map fmt32.decode
    let v := fun i => vs.getD i (.fin false 0 0)
    t.pack xs = (withElems (t.m + 1) (fun i => packWord t (packUnit t vs i) (v i)) (packHead vs) 16,
      (List.range 16).foldl (fun x i => x ||| packFlags t (packUnit t vs i) (v i)) 0) := by
  intro vs v
  unfold PTy.pack
  refine (if_neg (Bool.eq_false_iff.mp hfin)).trans ((if_neg (Bool.eq_false_iff.mp hzero)).trans ?_)
  refine Eq.trans ?_ (foldl_pair (fun i b => b + packWord t (packUnit t vs i) (v i) * 2 ^ (16 + i * (t.m + 1)))
    (fun i x => x ||| packFlags t (packUnit t vs i) (v i)) (List.range 16) (packHead vs) 0)
  refine List.foldl_ext _ _ _ fun acc i _ => ?_
  show (match v i with | .fin neg m e => _ | _ => acc) = _
  cases v i with
  | fin neg m e => rfl
  | nan s => simp [packWord, packFlags]
  | inf n => simp [packWord, packFlags]

end Sys2Proof.Machine
end


section
/-! PROOFS. One element, one quad and the exponent of a packed block (R118 to R120). -/

namespace Sys2Proof.Machine

theorem two_le_m (t : PTy) : 2 ≤ t.m := by cases t <;> decide

/-! ## The numbers of a block -/

theorem ratOf_some {v : FVal} {x : ℚ} (h : ratOf v = some x) : ∃ neg m e, v = .fin neg m e ∧ |x| = (m : ℚ) * (2 : ℚ) ^ e := by
  cases v with
  | nan s => cases h
  | inf n => cases h
  | fin neg m e =>
    refine ⟨neg, m, e, rfl, ?_⟩
    obtain rfl := Option.some.inj h
    rw [abs_mul, abs_mul, Nat.abs_cast, abs_of_pos (zpow_pos (two_pos : (0 : ℚ) < 2) e)]
    cases neg <;> simp

theorem ratOf_eq_none (v : FVal) : ratOf v = none ↔ notFinite v = true := by
  cases v <;> simp [ratOf, notFinite]

theorem abs_eq_zero_iff {x : ℚ} {m : Nat} {e : Int} (h : |x| = (m : ℚ) * (2 : ℚ) ^ e) : x = 0 ↔ m = 0 := by
  rw [← abs_eq_zero, h, mul_eq_zero, or_iff_left (zpow_ne_zero e two_ne_zero), Nat.cast_eq_zero]

theorem decode_exp_ge (f : Fmt) {x m : Nat} {neg : Bool} {e : Int} (h : f.decode x = .fin neg m e) : f.emin - (f.p - 1 : Nat) ≤ e := by
  unfold Fmt.decode at h
  dsimp only at h
  split at h
  · split at h <;> cases h
  · split at h
    · obtain ⟨-, -, rfl⟩ := FVal.fin.inj h
      exact Int.le_refl _
    · obtain ⟨-, -, rfl⟩ := FVal.fin.inj h
      omega

/-! ## An element -/

section
variable {t : PTy} {neg : Bool} {m : Nat} {e u : Int} {x : ℚ} (hx : |x| = (m : ℚ) * (2 : ℚ) ^ e)

include hx in
theorem unit_quotient : |x| / (2 : ℚ) ^ u = ((scaleQ m 1 (e - u)).1 : ℚ) / (scaleQ m 1 (e - u)).2 := by
  rw [scaleQ_value, hx, zpow_sub₀ two_ne_zero, mul_div_assoc]

include hx in
theorem unitRound_nearest : NearestEven (|x| / (2 : ℚ) ^ u) (unitRound u m e) := by
  rw [unit_quotient hx]
  exact roundNat_nearest _ (scaleQ_den_pos m _)

theorem tooBig_iff : tooBig t u m e = true ↔ 2 ^ t.m - 1 < unitRound u m e := by
  unfold tooBig
  have hpos := Nat.two_pow_pos t.m
  rw [decide_eq_true_iff]
  omega

theorem unitMag_eq : unitMag t u m e = min (unitRound u m e) (2 ^ t.m - 1) := by
  unfold unitMag
  split
  · next h => exact (Nat.min_eq_right (Nat.le_of_lt (tooBig_iff.mp h))).symm
  · next h => exact (Nat.min_eq_left (Nat.not_lt.mp (mt tooBig_iff.mpr h))).symm

theorem unitMag_lt : unitMag t u m e < 2 ^ t.m := by
  have hpos := Nat.two_pow_pos t.m
  rw [unitMag_eq]
  omega

theorem packWord_lt (v : FVal) : packWord t u v < 2 ^ (t.m + 1) := by
  cases v with
  | fin neg m e => exact signed_lt unitMag_lt neg
  | nan s => exact Nat.two_pow_pos _
  | inf n => exact Nat.two_pow_pos _

include hx in
/-- An element is exact when its magnitude, in units, is the number's. -/
theorem exact_iff : unitMag t u m e * (scaleQ m 1 (e - u)).2 = (scaleQ m 1 (e - u)).1 ↔ (unitMag t u m e : ℚ) * (2 : ℚ) ^ u = |x| := by
  have hd : ((scaleQ m 1 (e - u)).2 : ℚ) ≠ 0 := by exact_mod_cast (scaleQ_den_pos m (e - u)).ne'
  rw [← eq_div_iff (zpow_ne_zero u two_ne_zero), unit_quotient hx, eq_div_iff hd]
  exact_mod_cast Iff.rfl

include hx in
/-- A magnitude that is cut off is not the number's. -/
theorem tooBig_inexact (h : tooBig t u m e = true) : (unitMag t u m e : ℚ) * (2 : ℚ) ^ u ≠ |x| := by
  have hbig := tooBig_iff.mp h
  obtain ⟨hnear, -⟩ := unitRound_nearest (u := u) hx
  rw [unitMag_eq, Nat.min_eq_right hbig.le]
  intro heq
  rw [← heq, mul_div_cancel_right₀ _ (zpow_ne_zero u two_ne_zero)] at hnear
  have hstep : ((2 ^ t.m - 1 : Nat) : ℚ) + 1 ≤ unitRound u m e := by exact_mod_cast hbig
  have habs := neg_le_of_abs_le hnear
  linarith

theorem elemFlags_bits (big inexact tiny : Bool) : (elemFlags big inexact tiny).getLsbD 4 = false ∧ (elemFlags big inexact tiny).getLsbD 3 = false ∧
    (elemFlags big inexact tiny).getLsbD 2 = big ∧ (elemFlags big inexact tiny).getLsbD 1 = tiny ∧
    (elemFlags big inexact tiny).getLsbD 0 = (big || inexact) := by
  cases big <;> cases inexact <;> cases tiny <;> decide

include hx in
/-- The flags of an element (R120). -/
theorem packFlags_spec : let f := packFlags t u (.fin neg m e)
    f.getLsbD 4 = false ∧ f.getLsbD 3 = false ∧ (f.getLsbD 2 = true ↔ 2 ^ t.m - 1 < unitRound u m e) ∧
    (f.getLsbD 1 = true ↔ x ≠ 0 ∧ unitMag t u m e = 0) ∧ (f.getLsbD 0 = true ↔ (unitMag t u m e : ℚ) * (2 : ℚ) ^ u ≠ |x|) := by
  intro f
  obtain ⟨h4, h3, h2, h1, h0⟩ := elemFlags_bits (tooBig t u m e) (unitMag t u m e * (scaleQ m 1 (e - u)).2 != (scaleQ m 1 (e - u)).1)
    (m != 0 && unitMag t u m e == 0)
  refine ⟨h4, h3, (by rw [← tooBig_iff (t := t), ← h2]; rfl), (Bool.eq_iff_iff.mp h1).trans ?_, (Bool.eq_iff_iff.mp h0).trans ?_⟩
  · rw [Bool.and_eq_true, bne_iff_ne, beq_iff_eq, ne_eq, ne_eq, abs_eq_zero_iff hx]
  · rw [Bool.or_eq_true, bne_iff_ne, ne_eq, exact_iff hx]
    exact ⟨fun h => h.elim (tooBig_inexact hx) id, .inr⟩

end

/-! ## The exponent -/

/-- A datum that is not zero has exponent g. -/
def IsExp (v : FVal) (g : Int) : Prop := ∃ neg m e, v = .fin neg m e ∧ m ≠ 0 ∧ log2Q m 1 e = g

theorem raiseTop_ge (g : Int) (v : FVal) : g ≤ raiseTop g v := by
  unfold raiseTop
  split
  · split
    · exact Int.le_refl g
    · exact Int.le_max_left ..
  · exact Int.le_refl g

theorem raiseTop_exp (g : Int) {v : FVal} {k : Int} (h : IsExp v k) : k ≤ raiseTop g v := by
  obtain ⟨neg, m, e, rfl, hm, rfl⟩ := h
  unfold raiseTop
  dsimp only
  rw [if_neg hm]
  exact Int.le_max_right ..

theorem raiseTop_cases (g : Int) (v : FVal) : raiseTop g v = g ∨ IsExp v (raiseTop g v) := by
  cases v with
  | nan s => exact .inl rfl
  | inf n => exact .inl rfl
  | fin neg m e =>
    by_cases hm : m = 0
    · exact .inl (if_pos hm)
    · have hraise : raiseTop g (.fin neg m e) = max g (log2Q m 1 e) := if_neg hm
      rw [hraise]
      obtain hg | hlog := max_choice g (log2Q m 1 e)
      · exact .inl hg
      · exact .inr ⟨neg, m, e, rfl, hm, hlog.symm⟩

/-- The largest exponent of some data from a start on: at least the start and theirs, and one of them. -/
theorem foldl_raiseTop (vs : List FVal) (g : Int) : g ≤ vs.foldl raiseTop g ∧ (∀ v ∈ vs, ∀ k, IsExp v k → k ≤ vs.foldl raiseTop g) ∧
    (vs.foldl raiseTop g = g ∨ ∃ v ∈ vs, IsExp v (vs.foldl raiseTop g)) := by
  induction vs generalizing g with
  | nil => exact ⟨Int.le_refl g, fun _ h => absurd h List.not_mem_nil, .inl rfl⟩
  | cons v vs ih =>
    rw [List.foldl_cons]
    obtain ⟨hge, hall, hsome⟩ := ih (raiseTop g v)
    refine ⟨(raiseTop_ge g v).trans hge, fun w hw k hk => ?_, ?_⟩
    · obtain rfl | htail := List.mem_cons.mp hw
      · exact (raiseTop_exp g hk).trans hge
      · exact hall w htail k hk
    · obtain heq | ⟨w, hw, hk⟩ := hsome
      · rw [heq]
        exact (raiseTop_cases g v).imp_right fun hk => ⟨v, List.mem_cons_self, hk⟩
      · exact .inr ⟨w, List.mem_cons_of_mem _ hw, hk⟩

/-! ## The step of a quad -/

/-- The magnitudes of a quad leave s bits of the exponent free. -/
def quadFits (ex : Int) (vs : List FVal) (s : Nat) : Bool := vs.all fun v => match v with
  | .fin _ m e => pow2Lt m e (ex - 127 - (s : Int))
  | _ => false

theorem quadStep_eq (ex : Int) (vs : List FVal) :
    quadStep ex vs = if quadFits ex vs 3 then 3 else if quadFits ex vs 2 then 2 else if quadFits ex vs 1 then 1 else 0 := rfl

theorem quadFits_pred (ex : Int) (vs : List FVal) {s r : Nat} (hle : r ≤ s) (h : quadFits ex vs s = true) : quadFits ex vs r = true := by
  unfold quadFits at h ⊢
  rw [List.all_eq_true] at h ⊢
  intro v hv
  have hfit := h v hv
  cases v with
  | nan s => cases hfit
  | inf n => cases hfit
  | fin neg m e =>
    dsimp only at hfit ⊢
    rw [pow2Lt_iff] at hfit ⊢
    exact hfit.trans_le (zpow_le_zpow_right₀ one_le_two (by omega))

theorem quadStep_lt (ex : Int) (vs : List FVal) : quadStep ex vs < 4 := by
  rw [quadStep_eq]
  split
  · decide
  · split
    · decide
    · split <;> decide

theorem le_quadStep_iff (ex : Int) (vs : List FVal) {s : Nat} (h1 : 1 ≤ s) (h3 : s ≤ 3) :
    s ≤ quadStep ex vs ↔ quadFits ex vs s = true := by
  rw [quadStep_eq]
  split
  · next h => exact ⟨fun _ => quadFits_pred ex vs h3 h, fun _ => h3⟩
  · next hn3 =>
    split
    · next h =>
      refine ⟨fun hs => quadFits_pred ex vs hs h, fun hs => ?_⟩
      by_contra hgt
      obtain rfl : s = 3 := by omega
      exact hn3 hs
    · next hn2 =>
      split
      · next h =>
        refine ⟨fun hs => quadFits_pred ex vs hs h, fun hs => ?_⟩
        by_contra hgt
        exact hn2 (quadFits_pred ex vs (by omega) hs)
      · next hn1 =>
        exact ⟨fun hs => absurd hs (by omega), fun hs => absurd (quadFits_pred ex vs h1 hs) hn1⟩

end Sys2Proof.Machine
end


section
/-! PROOFS. A packed block is the one of R117 to R120. -/

namespace Sys2Proof.Machine

/-- The data of 16 binary32 patterns. -/
def blockData (f : Nat → Nat) : List FVal := ((List.range 16).map f).map fmt32.decode

theorem mem_blockData {f : Nat → Nat} {v : FVal} : v ∈ blockData f ↔ ∃ i, i < 16 ∧ fmt32.decode (f i) = v := by
  simp [blockData]

theorem getD_blockData (f : Nat → Nat) {i : Nat} (hi : i < 16) (d : FVal) : (blockData f).getD i d = fmt32.decode (f i) := by
  simp [blockData, List.getD_eq_getElem?_getD, hi]

theorem quad_blockData (f : Nat → Nat) {q : Nat} (hq : q < 4) :
    ((blockData f).drop (4 * q)).take 4 = (List.range 4).map fun k => fmt32.decode (f (4 * q + k)) := by
  refine List.ext_getElem ?_ fun k hk hk' => ?_
  · simp only [List.length_take, List.length_drop, List.length_map, List.length_range, blockData]
    omega
  · simp [blockData]

theorem any_blockData (f : Nat → Nat) (p : FVal → Bool) : (blockData f).any p = true ↔ ∃ i, i < 16 ∧ p (fmt32.decode (f i)) = true := by
  simp [blockData]

theorem all_blockData (f : Nat → Nat) (p : FVal → Bool) : (blockData f).all p = true ↔ ∀ i, i < 16 → p (fmt32.decode (f i)) = true := by
  simp [blockData]

/-! ## Blocks of data that are not all finite -/

theorem size_bits (t : PTy) : 8 * t.size = 16 + 16 * (t.m + 1) := by cases t <;> rfl

theorem pack_nan {t : PTy} {f : Nat → Nat} (h : ∃ i, i < 16 ∧ ratOf (fmt32.decode (f i)) = none) :
    ∃ fl, t.pack ((List.range 16).map f) = (255, fl) ∧ fl &&& ~~~flNV = 0 ∧
      (fl ≠ 0 ↔ ∃ i, i < 16 ∧ ((fmt32.decode (f i)).isSig = true ∨ ∃ n, fmt32.decode (f i) = .inf n)) := by
  have hbad : (blockData f).any notFinite = true := (any_blockData f _).mpr (by
    obtain ⟨i, hi, hnone⟩ := h
    exact ⟨i, hi, (ratOf_eq_none _).mp hnone⟩)
  have hraises : (blockData f).any (fun v => v.isSig || isInf v) = true ↔
      ∃ i, i < 16 ∧ ((fmt32.decode (f i)).isSig = true ∨ ∃ n, fmt32.decode (f i) = .inf n) := by
    have hinf (v : FVal) : isInf v = true ↔ ∃ n, v = .inf n := by cases v <;> simp [isInf]
    simp only [any_blockData, Bool.or_eq_true, hinf]
  refine ⟨_, pack_of_notFinite t hbad, ?_, ?_⟩
  · split <;> decide
  · rw [← hraises]
    change (if (blockData f).any _ = true then flNV else 0) ≠ 0 ↔ _
    cases (blockData f).any _ <;> decide

/-! ## Blocks of finite data -/

section
variable {t : PTy} {f : Nat → Nat} {x : Nat → ℚ} (hx : ∀ i, i < 16 → ratOf (fmt32.decode (f i)) = some (x i))

include hx in
theorem all_finite : (blockData f).any notFinite = false := by
  rw [Bool.eq_false_iff, ne_eq, any_blockData]
  rintro ⟨i, hi, hbad⟩
  have hnone := (ratOf_eq_none _).mpr hbad
  rw [hx i hi] at hnone
  cases hnone

include hx in
theorem isZero_iff {i : Nat} (hi : i < 16) : (fmt32.decode (f i)).isZero = true ↔ x i = 0 := by
  obtain ⟨neg, m, e, hv, habs⟩ := ratOf_some (hx i hi)
  rw [hv, abs_eq_zero_iff habs]
  cases m <;> simp [FVal.isZero]

include hx in
theorem all_isZero_iff : (blockData f).all FVal.isZero = true ↔ ∀ i, i < 16 → x i = 0 := by
  rw [all_blockData]
  exact forall₂_congr fun i hi => isZero_iff hx hi

include hx in
/-- The exponent of a block is that of its largest magnitude. -/
theorem packTop_spec (hne : ∃ i, i < 16 ∧ x i ≠ 0) :
    (∃ i, i < 16 ∧ (2 : ℚ) ^ packTop (blockData f) ≤ |x i|) ∧ ∀ i, i < 16 → |x i| < (2 : ℚ) ^ (packTop (blockData f) + 1) := by
  have hexp {i : Nat} (hi : i < 16) (h0 : x i ≠ 0) : ∃ k, IsExp (fmt32.decode (f i)) k ∧ -149 ≤ k ∧ |x i| < (2 : ℚ) ^ (k + 1) := by
    obtain ⟨neg, m, e, hv, habs⟩ := ratOf_some (hx i hi)
    have hm : m ≠ 0 := mt (abs_eq_zero_iff habs).mpr h0
    have he : -149 ≤ e := decode_exp_ge fmt32 hv
    refine ⟨log2Q m 1 e, ⟨neg, m, e, hv, hm, rfl⟩, ?_, ?_⟩
    · rw [log2Q_eq hm]
      omega
    · rw [habs]
      exact (log2Q_spec hm e).2
  obtain ⟨-, hall, hsome⟩ := foldl_raiseTop (blockData f) (-1000)
  have hmem {i : Nat} (hi : i < 16) : fmt32.decode (f i) ∈ blockData f := mem_blockData.mpr ⟨i, hi, rfl⟩
  refine ⟨?_, fun i hi => ?_⟩
  · obtain heq | ⟨v, hv, neg, m, e, rfl, hm, hlog⟩ := hsome
    · obtain ⟨i, hi, h0⟩ := hne
      obtain ⟨k, hk, hge, -⟩ := hexp hi h0
      have hle := hall _ (hmem hi) k hk
      omega
    · obtain ⟨i, hi, hv⟩ := mem_blockData.mp hv
      have hxi := hx i hi
      rw [hv] at hxi
      obtain ⟨neg', m', e', heq, habs⟩ := ratOf_some hxi
      obtain ⟨-, rfl, rfl⟩ := FVal.fin.inj heq
      refine ⟨i, hi, ?_⟩
      unfold packTop
      rw [habs, ← hlog]
      exact (log2Q_spec hm e).1
  · by_cases h0 : x i = 0
    · rw [h0, abs_zero]
      exact zpow_pos two_pos _
    · obtain ⟨k, hk, -, hlt⟩ := hexp hi h0
      have hle : k ≤ packTop (blockData f) := hall _ (hmem hi) k hk
      exact hlt.trans_le (zpow_le_zpow_right₀ one_le_two (by omega))

include hx in
theorem le_packStep_iff {q s : Nat} (hq : q < 4) (h1 : 1 ≤ s) (h3 : s ≤ 3) : s ≤ packStep (blockData f) q ↔
    ∀ k, k < 4 → |x (4 * q + k)| < (2 : ℚ) ^ (packExp (blockData f) - 127 - s) := by
  unfold packStep
  rw [le_quadStep_iff _ _ h1 h3, quad_blockData f hq]
  unfold quadFits
  simp only [List.all_map, List.all_eq_true, List.mem_range, Function.comp]
  refine forall₂_congr fun k hk => ?_
  obtain ⟨neg, m, e, hv, habs⟩ := ratOf_some (hx (4 * q + k) (by omega))
  rw [hv, habs]
  exact pow2Lt_iff m e _

theorem packExp_bounds (vs : List FVal) : 1 ≤ packExp vs ∧ packExp vs ≤ 254 := by
  unfold packExp
  omega

theorem packHead_fields (vs : List FVal) : packHead vs < 2 ^ 16 ∧ (fld (packHead vs) 0 8 : ℤ) = packExp vs ∧
    ∀ q, q < 4 → fld (packHead vs) (8 + 2 * q) 2 = packStep vs q := by
  obtain ⟨hlow, hhigh⟩ := packExp_bounds vs
  have hstep : ∀ q, packStep vs q < 4 := fun q => quadStep_lt _ _
  have h0 := hstep 0
  have h1 := hstep 1
  have h2 := hstep 2
  have h3 := hstep 3
  unfold packHead fld
  refine ⟨by omega, by omega, fun q hq => ?_⟩
  obtain rfl | rfl | rfl | rfl : q = 0 ∨ q = 1 ∨ q = 2 ∨ q = 3 := by omega
  all_goals omega

end

end Sys2Proof.Machine
end


section
/-! PROOFS. Packing gives the block and the flags of R117 to R120. -/

namespace Sys2Proof.Machine

/-- The integer that an element's magnitude is rounded to. -/
def roundOf (u : Int) : FVal → Nat
  | .fin _ m e => unitRound u m e
  | _ => 0

/-- What an element's word and flags say, for a finite number x in units of 2^u. -/
structure ElemPacked (t : PTy) (u : Int) (v : FVal) (x : ℚ) : Prop where
  nearest : NearestEven (|x| / (2 : ℚ) ^ u) (roundOf u v)
  mag : fld (packWord t u v) 0 t.m = min (roundOf u v) (2 ^ t.m - 1)
  sign : fld (packWord t u v) t.m 1 = v.isNeg.toNat
  noTrap : (packFlags t u v).getLsbD 4 = false ∧ (packFlags t u v).getLsbD 3 = false
  overflow : (packFlags t u v).getLsbD 2 = true ↔ 2 ^ t.m - 1 < roundOf u v
  underflow : (packFlags t u v).getLsbD 1 = true ↔ x ≠ 0 ∧ fld (packWord t u v) 0 t.m = 0
  inexact : (packFlags t u v).getLsbD 0 = true ↔ (fld (packWord t u v) 0 t.m : ℚ) * (2 : ℚ) ^ u ≠ |x|

theorem elemPacked {v : FVal} {x : ℚ} (t : PTy) (u : Int) (hx : ratOf v = some x) : ElemPacked t u v x := by
  obtain ⟨neg, m, e, rfl, habs⟩ := ratOf_some hx
  have hmag : fld (packWord t u (.fin neg m e)) 0 t.m = unitMag t u m e := fld_signed_mag unitMag_lt neg
  obtain ⟨h4, h3, h2, h1, h0⟩ := packFlags_spec (t := t) (neg := neg) (u := u) habs
  exact
    { nearest := unitRound_nearest habs
      mag := hmag.trans unitMag_eq
      sign := fld_signed_sign unitMag_lt neg
      noTrap := ⟨h4, h3⟩
      overflow := h2
      underflow := by rw [hmag]; exact h1
      inexact := by rw [hmag]; exact h0 }

section
variable {t : PTy} {f : Nat → Nat} {x : Nat → ℚ} (hx : ∀ i, i < 16 → ratOf (fmt32.decode (f i)) = some (x i))

include hx in
theorem pack_zeros (hzero : ∀ i, i < 16 → x i = 0) : ∃ blk, t.pack ((List.range 16).map f) = (blk, 0) ∧ blk < 2 ^ (8 * t.size) ∧
    (∀ i, i < 16 → fld blk (16 + i * (t.m + 1) + t.m) 1 = (fmt32.decode (f i)).isNeg.toNat) ∧ fld blk 0 8 = 0 ∧
    (∀ q, q < 4 → fld blk (8 + 2 * q) 2 = 0) ∧ ∀ i, i < 16 → fld blk (16 + i * (t.m + 1)) t.m = 0 := by
  let elem := fun i => if ((blockData f).getD i (.fin false 0 0)).isNeg then 2 ^ t.m else 0
  have helem (i : Nat) : elem i = 0 + if ((blockData f).getD i (.fin false 0 0)).isNeg then 2 ^ t.m else 0 := (Nat.zero_add _).symm
  have hlt : ∀ i, elem i < 2 ^ (t.m + 1) := fun i => by
    rw [helem]
    exact signed_lt (Nat.two_pow_pos _) _
  have hhead : 0 < 2 ^ 16 := Nat.two_pow_pos 16
  have hfld0 (q n : Nat) : fld 0 q n = 0 := by simp [fld]
  refine ⟨withElems (t.m + 1) elem 0 16, pack_of_zeros t (all_finite hx) ((all_isZero_iff hx).mpr hzero), ?_, fun i hi => ?_,
    (fld_withElems_head (by decide) 16).trans (hfld0 ..), fun q hq => (fld_withElems_head (by omega) 16).trans (hfld0 ..), fun i hi => ?_⟩
  · rw [size_bits]
    exact withElems_lt hhead hlt 16
  · rw [fld_withElems hhead hlt hi (Nat.le_refl _), helem, fld_signed_sign (Nat.two_pow_pos _), getD_blockData f hi]
  · have hat : fld (withElems (t.m + 1) elem 0 16) (16 + i * (t.m + 1)) t.m = fld (elem i) 0 t.m :=
      fld_withElems hhead hlt hi (j := 0) (by omega)
    rw [hat, helem, fld_signed_mag (Nat.two_pow_pos _)]

include hx in
/-- The block of data that are finite and not all zero: its head, its elements and its flags. -/
theorem pack_elems (hne : ∃ i, i < 16 ∧ x i ≠ 0) : ∃ blk fl, t.pack ((List.range 16).map f) = (blk, fl) ∧ blk < 2 ^ (8 * t.size) ∧
    (fld blk 0 8 : ℤ) = packExp (blockData f) ∧ (∀ q, q < 4 → fld blk (8 + 2 * q) 2 = packStep (blockData f) q) ∧
    (∀ i, i < 16 → ∀ j k, j + k ≤ t.m + 1 →
      fld blk (16 + i * (t.m + 1) + j) k = fld (packWord t (packUnit t (blockData f) i) (fmt32.decode (f i))) j k) ∧
    ∀ b, fl.getLsbD b = true ↔ ∃ i, i < 16 ∧ (packFlags t (packUnit t (blockData f) i) (fmt32.decode (f i))).getLsbD b = true := by
  let v := fun i => (blockData f).getD i (.fin false 0 0)
  let elem := fun i => packWord t (packUnit t (blockData f) i) (v i)
  have hv {i : Nat} (hi : i < 16) : v i = fmt32.decode (f i) := getD_blockData f hi _
  have hnot : (blockData f).all FVal.isZero = false := by
    rw [Bool.eq_false_iff, ne_eq, all_isZero_iff hx]
    obtain ⟨i, hi, h0⟩ := hne
    exact fun h => h0 (h i hi)
  obtain ⟨hhead, hexp, hstep⟩ := packHead_fields (blockData f)
  have hlt : ∀ i, elem i < 2 ^ (t.m + 1) := fun i => packWord_lt _
  refine ⟨withElems (t.m + 1) elem (packHead (blockData f)) 16, _, pack_of_finite t (all_finite hx) hnot, ?_, ?_,
    fun q hq => (fld_withElems_head (by omega) 16).trans (hstep q hq), fun i hi j k hjk => ?_, fun b => ?_⟩
  · rw [size_bits]
    exact withElems_lt hhead hlt 16
  · rw [fld_withElems_head (by decide) 16, hexp]
  · rw [fld_withElems hhead hlt hi hjk]
    exact congrArg (fun w => fld (packWord t _ w) j k) (hv hi)
  · rw [getLsbD_foldl_or]
    exact exists_congr fun i => and_congr_right fun hi => by rw [← hv hi]; rfl

end

section
variable {t : PTy} {f : Nat → Nat} {x : Nat → ℚ} (hx : ∀ i, i < 16 → ratOf (fmt32.decode (f i)) = some (x i))

include hx in
theorem packsBlock_zeros (hzero : ∀ i, i < 16 → x i = 0) : ∃ blk, t.pack ((List.range 16).map f) = (blk, 0) ∧ PacksBlock t f blk 0 := by
  obtain ⟨blk, hpack, hlt, hsign, hexp, hstep, hmag⟩ := pack_zeros (t := t) hx hzero
  refine ⟨blk, hpack, hlt, fun ⟨i, hi, hnone⟩ => absurd (hnone.symm.trans (hx i hi)) (Option.some_ne_none _).symm, fun y hy => ?_⟩
  refine ⟨hsign, fun _ => ⟨hexp, hstep, hmag, rfl⟩, fun ⟨i, hi, h0⟩ => absurd ?_ h0⟩
  exact (Option.some.inj ((hx i hi).symm.trans (hy i hi))).symm.trans (hzero i hi)

include hx in
theorem packsBlock_elems (hne : ∃ i, i < 16 ∧ x i ≠ 0) : ∃ blk fl, t.pack ((List.range 16).map f) = (blk, fl) ∧ PacksBlock t f blk fl := by
  obtain ⟨blk, fl, hpack, hlt, hexp, hstep, hword, hflags⟩ := pack_elems (t := t) hx hne
  have hm := two_le_m t
  have hmag {i : Nat} (hi : i < 16) : fld blk (16 + i * (t.m + 1)) t.m = fld (packWord t (packUnit t (blockData f) i) (fmt32.decode (f i))) 0 t.m :=
    hword i hi 0 t.m (by omega)
  have helem {i : Nat} (hi : i < 16) := elemPacked t (packUnit t (blockData f) i) (hx i hi)
  have hunit {i : Nat} (hi : i < 16) : (fld blk 0 8 : ℤ) - 127 - fld blk (8 + 2 * (i / 4)) 2 - (t.m - 1 : ℕ) = packUnit t (blockData f) i := by
    rw [hexp, hstep (i / 4) (by omega), Nat.cast_sub (by omega)]
    rfl
  refine ⟨blk, fl, hpack, hlt, fun ⟨i, hi, hnone⟩ => absurd (hnone.symm.trans (hx i hi)) (Option.some_ne_none _).symm, fun y hy => ?_⟩
  have hxy {i : Nat} (hi : i < 16) : y i = x i := Option.some.inj ((hy i hi).symm.trans (hx i hi))
  refine ⟨fun i hi => ?_, fun hzero => ?_, fun _ => ⟨⟨packTop (blockData f), ?_⟩, fun q hq s h1 h3 => ?_,
    fun i => roundOf (packUnit t (blockData f) i) (fmt32.decode (f i)), ?_⟩⟩
  · rw [hword i hi t.m 1 (Nat.le_refl _)]
    exact (helem hi).sign
  · obtain ⟨i, hi, h0⟩ := hne
    exact absurd ((hxy hi).symm.trans (hzero i hi)) h0
  · obtain ⟨⟨i, hi, hsome⟩, hall⟩ := packTop_spec hx hne
    exact ⟨⟨i, hi, by rw [hxy hi]; exact hsome⟩, fun i hi => by rw [hxy hi]; exact hall i hi, hexp⟩
  · dsimp only
    rw [hstep q hq, hexp, le_packStep_iff hx hq h1 h3]
    exact forall₂_congr fun k hk => by rw [hxy (by omega)]
  · intro u
    have hu {i : Nat} (hi : i < 16) : u i = (2 : ℚ) ^ packUnit t (blockData f) i := congrArg ((2 : ℚ) ^ ·) (hunit hi)
    have hnone (b : Nat) (h : ∀ i, i < 16 → (packFlags t (packUnit t (blockData f) i) (fmt32.decode (f i))).getLsbD b = false) :
        fl.getLsbD b = false := by
      rw [Bool.eq_false_iff, ne_eq, hflags]
      rintro ⟨i, hi, hb⟩
      rw [h i hi] at hb
      cases hb
    refine ⟨fun i hi => ⟨?_, ?_⟩, ⟨hnone 4 fun i hi => (helem hi).noTrap.1, hnone 3 fun i hi => (helem hi).noTrap.2⟩, ?_, ?_, ?_⟩
    · rw [hu hi, hxy hi]
      exact (helem hi).nearest
    · exact (hmag hi).trans (helem hi).mag
    · rw [hflags]
      exact exists_congr fun i => and_congr_right fun hi => (helem hi).overflow
    · dsimp only
      rw [hflags]
      exact exists_congr fun i => and_congr_right fun hi => by rw [hmag hi, hxy hi, (helem hi).underflow]
    · dsimp only
      rw [hflags]
      exact exists_congr fun i => and_congr_right fun hi => by rw [hmag hi, hu hi, hxy hi, (helem hi).inexact]

end

/-- Packing meets R117 to R120. -/
theorem packsBlock (t : PTy) (f : Nat → Nat) : ∃ blk fl, t.pack ((List.range 16).map f) = (blk, fl) ∧ PacksBlock t f blk fl := by
  by_cases hbad : ∃ i, i < 16 ∧ ratOf (fmt32.decode (f i)) = none
  · obtain ⟨fl, hpack, hfl, hraises⟩ := pack_nan (t := t) hbad
    have hsize : 255 < 2 ^ (8 * t.size) := by cases t <;> decide
    refine ⟨255, fl, hpack, hsize, fun _ => ⟨rfl, hfl, hraises⟩, fun x hx => ?_⟩
    obtain ⟨i, hi, hnone⟩ := hbad
    exact absurd (hnone.symm.trans (hx i hi)) (Option.some_ne_none _).symm
  · have hx : ∀ i, i < 16 → ratOf (fmt32.decode (f i)) = some ((ratOf (fmt32.decode (f i))).getD 0) := fun i hi => by
      cases hr : ratOf (fmt32.decode (f i)) with
      | none => exact absurd ⟨i, hi, hr⟩ hbad
      | some y => rfl
    by_cases hne : ∃ i, i < 16 ∧ (ratOf (fmt32.decode (f i))).getD 0 ≠ 0
    · exact packsBlock_elems hx hne
    · obtain ⟨blk, hpack, hblk⟩ := packsBlock_zeros (t := t) hx fun i hi => by_contra fun h => hne ⟨i, hi, h⟩
      exact ⟨blk, 0, hpack, hblk⟩

end Sys2Proof.Machine
end


section
/-! PROOFS. `vpack` when lanes that supply a block trap (R164). -/

namespace Sys2Proof.Machine

theorem blockWords_iff (fmt : PTy) (b d : Nat) : blockWords fmt b d = true ↔ wordOfBlock fmt b d := by
  have hpos : 0 < fmt.size := by cases fmt <;> decide
  unfold blockWords wordOfBlock
  rw [Bool.and_eq_true, decide_eq_true_iff, decide_eq_true_iff, Nat.mul_succ]
  refine ⟨fun ⟨hlow, hhigh⟩ => ⟨max (4 * d) (fmt.size * b), by omega, by omega, by omega⟩, fun ⟨j, hlow, hhigh, hj⟩ => ⟨by omega, by omega⟩⟩

theorem enabled_flags (c : Crew) (f : Fl) : c.enabled { fl := f } = c.tflags &&& f.setWidth 6 := congrArg (c.tflags &&& ·) BitVec.zero_or

/-- The flags of the block that a lane supplies. -/
def laneBlockFl (f0 f1 : Fl) (l : Nat) : Fl := if l < 16 then f0 else f1

/-- The lanes that meet an enabled condition of their block. -/
def packTraps (c : Crew) (g : W32) (f0 f1 : Fl) : W32 := maskOf fun l => g.getLsbD l && (c.tflags &&& (laneBlockFl f0 f1 l).setWidth 6) != 0

/-- Block b has a lane that supplies it and an enabled flag. -/
def blockTraps (c : Crew) (g : W32) (f0 f1 : Fl) (b : Nat) : Bool :=
  c.enabled { fl := laneBlockFl f0 f1 (16 * b) } != 0 && ((List.range 16).any fun i => g.getLsbD (16 * b + i))

/-- The words that a `vpack` writes. -/
def blockWordsOut (fmt : PTy) (c : Crew) (g : W32) (f0 f1 : Fl) : W32 := maskOf fun d => decide (d < fmt.size / 2) && c.active.getLsbD d &&
  !(blockTraps c g f0 f1 0 && blockWords fmt 0 d) && !(blockTraps c g f0 f1 1 && blockWords fmt 1 d)

theorem vpack_eq {s : State} {h : Hd} {fmt : PTy} {vd va : VReg} {b0 b1 : Nat} {f0 f1 : Fl}
    (h0 : fmt.pack ((List.range 16).map (packInput s.me h va 0)) = (b0, f0))
    (h1 : fmt.pack ((List.range 16).map (packInput s.me h va 1)) = (b1, f1)) :
    exec (.vpack h fmt vd va) s = s.finishLanes (s.me.gov h) (fun l => { fl := laneBlockFl f0 f1 l })
      { dest := some (vd.toNat, false), src := fun l => (s.me.vn false va l, 0, 0) } fun _ d =>
        d.putV vd.toNat (blockWordsOut fmt s.me (s.me.gov h) f0 f1) fun i => BitVec.ofNat 32 ((b0 + b1 * 2 ^ (8 * fmt.size)) / 2 ^ (32 * i)) := by
  have hp0 : packBlock fmt s.me (s.me.gov h) va 0 = (b0, f0) := h0
  have hp1 : packBlock fmt s.me (s.me.gov h) va 1 = (b1, f1) := h1
  change execVpack h fmt vd va s = _
  unfold execVpack
  dsimp only
  rw [hp0, hp1]
  rfl

section
variable {c : Crew} {g : W32} {f0 f1 : Fl}

theorem packTraps_iff {l : Nat} (hl : l < 32) : (packTraps c g f0 f1).getLsbD l = true ↔
    g.getLsbD l = true ∧ (c.tflags &&& (laneBlockFl f0 f1 l).setWidth 6) ≠ 0 := by
  unfold packTraps
  rw [getLsbD_maskOf _ hl, Bool.and_eq_true, bne_iff_ne]

/-- A block traps when a lane that supplies it does. -/
theorem blockTraps_iff {b : Nat} (hb : b < 2) : blockTraps c g f0 f1 b = true ↔ ∃ l, l < 32 ∧ (packTraps c g f0 f1).getLsbD l = true ∧ l / 16 = b := by
  have hsame {l : Nat} (hl : l / 16 = b) : laneBlockFl f0 f1 l = laneBlockFl f0 f1 (16 * b) := by
    unfold laneBlockFl
    have : l < 16 ↔ 16 * b < 16 := by omega
    simp only [this]
  unfold blockTraps
  rw [Bool.and_eq_true, bne_iff_ne, enabled_flags, List.any_eq_true]
  refine ⟨fun ⟨hfl, i, hi, hg⟩ => ?_, fun ⟨l, hl, ht, hlb⟩ => ?_⟩
  · have hlt := List.mem_range.mp hi
    have hlb : (16 * b + i) / 16 = b := by omega
    refine ⟨16 * b + i, by omega, (packTraps_iff (by omega)).mpr ⟨hg, ?_⟩, hlb⟩
    rw [hsame hlb]
    exact hfl
  · obtain ⟨hg, hfl⟩ := (packTraps_iff hl).mp ht
    rw [hsame hlb] at hfl
    have hl' : 16 * b + l % 16 = l := by omega
    refine ⟨hfl, l % 16, List.mem_range.mpr (Nat.mod_lt _ (by decide)), ?_⟩
    rw [hl']
    exact hg

/-- A word is written unless it is inactive, past the blocks, or holds a byte of a block that traps. -/
theorem blockWordsOut_iff (fmt : PTy) {d : Nat} (hd : d < 32) : (blockWordsOut fmt c g f0 f1).getLsbD d = true ↔
    ¬(c.active.getLsbD d = false ∨ fmt.size / 2 ≤ d ∨ ∃ l, l < 32 ∧ (packTraps c g f0 f1).getLsbD l = true ∧ wordOfBlock fmt (l / 16) d) := by
  have hblock : (∃ l, l < 32 ∧ (packTraps c g f0 f1).getLsbD l = true ∧ wordOfBlock fmt (l / 16) d) ↔
      (blockTraps c g f0 f1 0 = true ∧ blockWords fmt 0 d = true) ∨ (blockTraps c g f0 f1 1 = true ∧ blockWords fmt 1 d = true) := by
    rw [blockTraps_iff (by decide), blockTraps_iff (by decide), blockWords_iff, blockWords_iff]
    refine ⟨fun ⟨l, hl, ht, hw⟩ => ?_, ?_⟩
    · obtain h | h : l / 16 = 0 ∨ l / 16 = 1 := by omega
      · exact .inl ⟨⟨l, hl, ht, h⟩, h ▸ hw⟩
      · exact .inr ⟨⟨l, hl, ht, h⟩, h ▸ hw⟩
    · rintro (⟨⟨l, hl, ht, h⟩, hw⟩ | ⟨⟨l, hl, ht, h⟩, hw⟩)
      · exact ⟨l, hl, ht, h.symm ▸ hw⟩
      · exact ⟨l, hl, ht, h.symm ▸ hw⟩
  unfold blockWordsOut
  rw [getLsbD_maskOf _ hd, hblock]
  have hnot (b : Bool) : (!b) = true ↔ ¬b = true := by cases b <;> decide
  rw [← Bool.not_eq_true, ← Nat.not_lt]
  simp only [Bool.and_eq_true, hnot, decide_eq_true_iff]
  tauto

end

/-- A `vpack`'s blocks, and what it leaves when lanes trap. -/
theorem vpack_traps (s : State) (h : Hd) (fmt : PTy) (vd va : VReg) (hk : s.me.kind ≠ .handler) (ht : s.me.kind ≠ .test) :
    ∃ t b0 b1 f0 f1, exec (.vpack h fmt vd va) s = .next t ∧
      PacksBlock fmt (packInput s.me h va 0) b0 f0 ∧ PacksBlock fmt (packInput s.me h va 1) b1 f1 ∧
      let z := packTraps s.me (s.me.gov h) f0 f1
      (z ≠ 0 → LanesTrap s t (.vpack h fmt vd va) z (fun l => (laneBlockFl f0 f1 l).setWidth 6) (some (vd.toNat, false)) none ∧
        t.me.p = s.me.p ∧
        (∀ l, l < 32 → z.getLsbD l = false →
          t.me.laneFl l = s.me.laneFl l ||| (if (s.me.gov h).getLsbD l then laneBlockFl f0 f1 l else 0)) ∧
        ∀ d, d < 32 →
          let kept := s.me.active.getLsbD d = false ∨ fmt.size / 2 ≤ d ∨ ∃ l, l < 32 ∧ z.getLsbD l = true ∧ wordOfBlock fmt (l / 16) d
          (kept → t.me.vl vd.toNat d = s.me.vl vd.toNat d) ∧
          (¬kept → t.me.vl vd.toNat d = BitVec.ofNat 32 ((b0 + b1 * 2 ^ (8 * fmt.size)) / 2 ^ (32 * d)))) := by
  obtain ⟨b0, f0, h0, hb0⟩ := packsBlock fmt (packInput s.me h va 0)
  obtain ⟨b1, f1, h1, hb1⟩ := packsBlock fmt (packInput s.me h va 1)
  have hz : (maskOf fun l => (s.me.gov h).getLsbD l && s.me.enabled { fl := laneBlockFl f0 f1 l } != 0) = packTraps s.me (s.me.gov h) f0 f1 := by
    unfold packTraps
    simp only [enabled_flags]
  rw [vpack_eq h0 h1]
  by_cases hz0 : packTraps s.me (s.me.gov h) f0 f1 = 0
  · rw [finishLanes_eq]
    exact ⟨_, b0, b1, f0, f1, rfl, hb0, hb1, fun hne => absurd hz0 hne⟩
  obtain ⟨t, hstep, htrap, hv, hp, hfl⟩ := finishLanes_traps (s := s) (g := s.me.gov h) (res := fun l => { fl := laneBlockFl f0 f1 l })
    (op := { dest := some (vd.toNat, false), src := fun l => (s.me.vn false va l, 0, 0) })
    (write := fun _ d => d.putV vd.toNat (blockWordsOut fmt s.me (s.me.gov h) f0 f1) fun i => BitVec.ofNat 32 ((b0 + b1 * 2 ^ (8 * fmt.size)) / 2 ^ (32 * i)))
    (i := .vpack h fmt vd va) (conds := fun l => (laneBlockFl f0 f1 l).setWidth 6) hk ht hz hz0 (fun l _ _ => enabled_flags _ _) (fun _ _ => rfl) rfl rfl
  refine ⟨t, b0, b1, f0, f1, hstep, hb0, hb1, fun _ => ⟨htrap, hp, fun l hl hzl => ?_, fun d hd => ?_⟩⟩
  · rw [hfl l hl, BitVec.getLsbD_and, BitVec.getLsbD_not, hzl]
    cases (s.me.gov h).getLsbD l <;> simp [hl]
  · have hvl : t.me.vl vd.toNat d = if (blockWordsOut fmt s.me (s.me.gov h) f0 f1).getLsbD d then
        BitVec.ofNat 32 ((b0 + b1 * 2 ^ (8 * fmt.size)) / 2 ^ (32 * d)) else s.me.vl vd.toNat d := by
      rw [← Crew.vl_putV_self s.me vd.toNat _ (fun i => BitVec.ofNat 32 ((b0 + b1 * 2 ^ (8 * fmt.size)) / 2 ^ (32 * i))) hd]
      have hbase : t.me.base = s.me.base := (congrArg Crew.base htrap.me :)
      have halloc : t.me.alloc = s.me.alloc := (congrArg Crew.alloc htrap.me :)
      unfold Crew.vl Crew.row Crew.slot
      rw [hv, hbase, halloc]
      rfl
    refine ⟨fun hkept => ?_, fun hwritten => ?_⟩
    · rw [hvl, if_neg fun hw => (blockWordsOut_iff fmt hd).mp hw hkept]
    · rw [hvl, if_pos ((blockWordsOut_iff fmt hd).mpr hwritten)]

end Sys2Proof.Machine
end


section
/-! PROOFS. Lanes that meet an enabled condition (R39, R115, R158, R164, R325): the statement. -/

namespace Sys2Proof.Machine

/-- The lane-wise instructions that raise flags, when some of their lanes trap. -/
theorem flagSetter_traps {s : State} {i : Instr} {m : W32} {wide : Bool} {vd : VReg} (hdest : flagLaneDest s.me i = some (m, wide, vd))
    (hpack : ∀ h fmt d a, i ≠ .vpack h fmt d a) (hk : s.me.kind ≠ .handler) (ht : s.me.kind ≠ .test) (ha : 2 ≤ s.me.alloc) {z : W32}
    (hz : (maskOf fun l => m.getLsbD l && (s.me.tflags &&& flagConds s.me l i) != 0) = z) (hz0 : z ≠ 0) :
    ∃ t, exec i s = .next t ∧ LanesTrap s t i z (fun l => flagConds s.me l i) (some (vd.toNat, wide)) none ∧ t.me.p = s.me.p ∧
      (∀ l, l < 32 → z.getLsbD l = true → t.me.vn wide vd l = s.me.vn wide vd l) ∧
      (∀ l, l < 32 → m.getLsbD l = false → t.me.vn wide vd l = s.me.vn wide vd l ∧ t.me.laneFl l = s.me.laneFl l) ∧
      (∀ l r, l < 32 → m.getLsbD l = true → z.getLsbD l = false → flagLane s.me l i = some r →
        t.me.vn wide vd l = r.bits % 2 ^ (if wide then 64 else 32) ∧ t.me.laneFl l = s.me.laneFl l ||| r.fl) := by
  obtain ⟨h, src, res, hexec, rfl, hagree, hsrc⟩ := flagForm hdest hpack
  obtain ⟨t, hstep, htrap, hp, hlanes⟩ := laneInstr_traps (i := i) (conds := fun l => flagConds s.me l i) (src := src) (res := res) hk ht ha
    (fun l hl _ => (hagree l hl).conds) hz hz0 hsrc
  refine ⟨t, hexec.trans hstep, htrap, hp, fun l hl hzl => ?_, fun l hl hm => ?_, fun l r hl hm hzl hr => ?_⟩
  · exact ((hlanes l hl).2 (.inr hzl)).value
  · have hkept := (hlanes l hl).2 (.inl hm)
    exact ⟨hkept.value, hkept.flags⟩
  · have hdone := (hlanes l hl).1 hm hzl
    obtain ⟨hbits, hfl⟩ := (hagree l hl).result r hr
    exact ⟨hdone.value.trans hbits, by rw [hdone.flags, hfl]⟩

/-- Settles O23: `laneInstr`, `vfcmp` and `vpack` end in `finishLanes`, which sends away the lanes whose results meet an enabled condition;
`vpack`'s blocks are those of R117 to R120. -/
theorem enabledConditionsTrapTheirLanes : Obligations.EnabledConditionsTrapTheirLanes := by
  unfold Obligations.EnabledConditionsTrapTheirLanes
  exact ⟨fun i s m wide vd hdest hpack hk ht ha hz0 => flagSetter_traps hdest hpack hk ht (Nat.le_trans (by decide) ha) rfl hz0,
    vfcmp_traps, fun s h fmt vd va hk ht _ => vpack_traps s h fmt vd va hk ht⟩

end Sys2Proof.Machine
end
